-- ==== Sys2Proof/Word.lean ====
section
/-! DEFINITION. The word types of the model (00 R13) and the cutting of words into bytes. -/

-- In every file: declarations one after another, so that few stacks stand in memory at once.
set_option Elab.async false

namespace Sys2Proof

/-- One byte. -/
abbrev Byte := BitVec 8
/-- A 32-bit word: binary32 values, instructions, format words. -/
abbrev Word := BitVec 32
/-- A 64-bit word: general and parameter registers, hashes. -/
abbrev Dword := BitVec 64
/-- A 256-bit command word or record (04 R109, 07 R197). -/
abbrev Cmd := BitVec 256

end Sys2Proof
end

