-- ==== Sys2Proof/Syntax.lean ====
section
/-! DEFINITION. The commands of the block: one constructor of `Instr` per row of spec/opcode_table.json,
with the operands the row needs. A command that is a received datagram or frame carries its fields. -/

set_option Elab.async false

namespace Sys2Proof

/-- The two ordering codes (00 R2). -/
inductive Grade where
  | a32 | a28
  deriving DecidableEq, Repr

/-- The two ring ports (10 R275): E is port 0, W is port 1. -/
inductive RingPort where
  | e | w
  deriving DecidableEq, Repr

/-- The two compute dies (01 R19): N is die 0, S is die 1. -/
inductive Die where
  | n | s
  deriving DecidableEq, Repr

/-- The rails, in the order of the table *Rails* (01 R28). -/
inductive RailName where
  | cellN | cellS | stk | vpp | io | link | opt | nv
  deriving DecidableEq, Repr

/-- The source of a datagram at port M: IP address (IPv4 mapped into IPv6) and UDP port (11 R311). -/
structure HostAddr where
  ip   : BitVec 128
  port : BitVec 16
  deriving DecidableEq, Repr

/-- No host. -/
def HostAddr.zero : HostAddr := ⟨0, 0⟩

/-- A received EOP datagram (11 R313): where it came from, the address and port it was sent to, whether it is an IP
fragment (11 R310), the header fields but OPC, which the command's row fixes, the data bytes and the tag bytes.
`len` is the header's LEN, which need not agree with the data (11 R314). -/
structure EopReq where
  src     : HostAddr
  dip     : BitVec 128
  dport   : BitVec 16
  frag    : Bool
  ver     : BitVec 4
  rsp     : Bool
  rsvd    : BitVec 7
  status  : BitVec 8
  session : BitVec 16
  seqNo   : BitVec 32
  index   : BitVec 16
  sub     : BitVec 8
  len     : BitVec 16
  rsvd2   : BitVec 16
  data    : List Byte
  tag     : List Byte
  deriving DecidableEq, Repr

/-- A datagram port M sends: from which of its addresses and ports (11 R311), where to, header, data, tag (11 R313). -/
structure EopOut where
  src    : HostAddr
  dst    : HostAddr
  header : BitVec 128
  data   : List Byte
  tag    : BitVec 128
  deriving DecidableEq, Repr

/-- The IP and UDP headers of a frame on a switched attachment (10 R282); an IPv4 address stands as its IPv4-mapped form,
`df` is the Don't Fragment setting. -/
structure UdpIp where
  v6    : Bool
  src   : BitVec 128
  dst   : BitVec 128
  df    : Bool
  sport : BitVec 16
  dport : BitVec 16
  csum  : BitVec 16
  deriving DecidableEq, Repr

/-- How a frame is carried on its hop (10 R282, R283): the Ethernet addresses, the priority of its 802.1Q tag, the
EtherType, the IP and UDP headers, and the bytes of padding. -/
structure Carrier where
  dst     : BitVec 48
  src     : BitVec 48
  prio    : Option (BitVec 3)
  ethType : BitVec 16
  ip      : Option UdpIp
  pad     : Nat
  deriving DecidableEq, Repr

/-- The carrier of a frame on a direct hop with the EtherType OD 0x5p00:05 holds by default (10 R280, R282). -/
def Carrier.direct : Carrier := { dst := 0xFFFFFFFFFFFF, src := 0, prio := none, ethType := 0x88B5, ip := none, pad := 0 }

/-- A VRT frame (10 R283): header fields, payload, whether the Ethernet FCS verifies, and how it is carried. -/
structure VrtFrame where
  ver      : BitVec 4
  type     : BitVec 4
  cls      : BitVec 2
  rsvd     : BitVec 6
  dstRing  : BitVec 16
  srcRing  : BitVec 16
  dstPart  : BitVec 3
  srcPart  : BitVec 3
  last     : Bool
  retx     : Bool
  stream   : BitVec 8
  hopsLeft : BitVec 16
  len      : BitVec 16
  hseq     : BitVec 32
  eseq     : BitVec 32
  xid      : BitVec 32
  aux      : BitVec 32
  hcrc     : BitVec 32
  payload  : List Byte
  fcsOk    : Bool
  link     : Carrier := Carrier.direct
  deriving DecidableEq, Repr

/-- The link whose check fails a part of a data-mover transfer (15 R394): one of the four die-to-die
links, or the silicon bridge of a stack, named by the channel in use. -/
inductive LinkUnit where
  | link (l : Fin 4)
  | bridge (stack : Fin 32) (chan : Fin 16)
  deriving DecidableEq, Repr

/-- What holds the operand path of a streamed tile (02 R65): refresh activity on a channel of a stack, a retry on a
die-to-die link or bridge, or a retry on a ring hop. -/
inductive HoldCause where
  | refresh (stack : Fin 32) (chan : Fin 16)
  | link (unit : LinkUnit)
  | hop (port : RingPort)
  deriving DecidableEq, Repr

/-- What one operation of the test access port applies: the level of TRST_N, and the bits shifted in (01 R47). -/
structure TapInput where
  trst : Bool
  tdi  : List Bool
  deriving DecidableEq, Repr

/-- What a PMBus transaction has read, and its PEC (14 R376). -/
structure PmbusData where
  word : BitVec 16
  pec  : BitVec 8
  deriving DecidableEq, Repr

/-- The collective or barrier of a group with an instance number (10 R300). -/
structure WorkName where
  group   : Fin 16
  barrier : Bool
  inst    : BitVec 32
  deriving DecidableEq, Repr

/-- A part of a data-mover command that fails its link-level check 8 times (09 R269). -/
structure PartFail where
  part : Nat
  unit : LinkUnit
  deriving DecidableEq, Repr

/-- An upset of one narrow accumulator of the command in progress (04 R126): row, column, run, pass pair
(held nibble `a`, streamed nibble `b`) and the error added. -/
structure Upset where
  row   : Nat
  col   : Nat
  run   : Nat
  a     : Nat
  b     : Nat
  delta : Int
  deriving DecidableEq, Repr

/-- What the self-tests of a boot attempt find (12 R342 orders 7 to 10): cells failing cell proof with the failing
step, channels failing training or the pattern test with a stack-local offset, lanes good in loop-back, and whether the second hash of
order 8 differs. -/
structure BootFindings where
  failedCells : List (Fin 34 × BitVec 40)
  badChans    : List (Fin 32 × Fin 16 × Nat)
  goodE       : BitVec 8
  goodW       : BitVec 8
  copyBad     : Bool
  deriving DecidableEq, Repr

/-- What resets a partition (13 R362): a write of OD 0x2040, or an uncorrectable error of a stored word
at a device address (09 R251). -/
inductive ResetCause where
  | request (req : EopReq)
  | uncorrectable (addr : Nat)
  deriving DecidableEq, Repr

/-- The commands of the block. -/
inductive Instr where
  /-- PORST_N_ASSERT (R33). Assertion of PORST_N causes a device reset, unless a thermal trip is latched. -/
  | porstNAssert
  /-- PORST_N_RELEASE (R32). Release of PORST_N starts the interval counter and steward core 0 starts the boot ROM within 100 µs. -/
  | porstNRelease
  /-- BOOT_START (R342). A boot attempt starts the boot sequence, reading the slot records and choosing a slot under R341. -/
  | bootStart (o : BootFindings)
  /-- DEVICE_READY (R342). The boot reaches order 12: the device state reads 1, and insertion follows under R344. -/
  | deviceReady
  /-- BOOT_TIMEOUT (R342). Order 12 is not reached within 4.0 s, so the device performs a device reset. -/
  | bootTimeout (order : BitVec 8)
  /-- READY_HOUR_EXPIRY (R396). After 1 hour of operation without a steward-region reset, STW_RESETS and NO_READY are set to zero. -/
  | readyHourExpiry
  /-- RAIL_WINDOW_EXCURSION (R31). A monitored rail stays outside its window for more than 10 µs, causing a device reset and a fault-history event. -/
  | railWindowExcursion (r : RailName)
  /-- RAIL_RECOVERED (R31). A rail has been back in its range for 10 ms and the device boots again. -/
  | railRecovered (r : RailName)
  /-- POWER_LOSS (R35). VDD_NV or all rails fall, stopping the whole device; the by-pass closes and any NV write in progress keeps its previous record. -/
  | powerLoss
  /-- REFCLK_LOSS (R37). REFCLK is absent for more than 10 µs, causing a device reset with the by-pass closed and a fault-history event. -/
  | refclkLoss
  /-- REFCLK_RESTORED (R37). REFCLK has met its requirements for 1 ms and the device boots again from step 9. -/
  | refclkRestored
  /-- THERMAL_TRIP (R45). A trip sensor reaches 115 °C: THERMTRIP_N asserts, all dies stop and the by-pass closes, and the trip latches until VDD_NV falls. -/
  | thermalTrip
  /-- BYPASS_CHECK_TIMEOUT (R41). BYP_E_N and BYP_W_N fail to show the commanded position within 8 ms, so both switches go to by-pass and a by-pass fault is recorded. -/
  | bypassCheckTimeout (e : Bool) (w : Bool)
  /-- AGEING_GUARD_STEP (R59). Steward firmware records a new ageing-guard value for a cell, which takes effect at the next device reset. -/
  | ageingGuardStep (c : Fin 34)
  /-- JTAG_BYPASS (R47). The BYPASS instruction of the test access port. -/
  | jtagBypass (tap : TapInput)
  /-- JTAG_IDCODE (R47). The IDCODE instruction shifts out 0x1D04_A4B3. -/
  | jtagIdcode (tap : TapInput)
  /-- JTAG_SAMPLE_PRELOAD (R47). The SAMPLE/PRELOAD instruction on the single-ended boundary-scan chain. -/
  | jtagSamplePreload (tap : TapInput)
  /-- JTAG_EXTEST (R47). The EXTEST instruction drives the boundary-scan chain while PORST_N is low, and acts as SAMPLE/PRELOAD otherwise. -/
  | jtagExtest (tap : TapInput)
  /-- SLOT_BEGIN (R51). A cycle of a cell's slot loop begins and is decided as issued, bubble or stall; on an issued slot the array, staging path, loader and promotion path advance one step. -/
  | slotBegin (c : Fin 34) (held : Option HoldCause) (late : Bool) (upset : Option Upset)
  /-- MMUL (R110). A product command, once eligible, is checked, loads its held tile per HOLD, and then runs its beats under R114 and R120. -/
  | mmul (c : Fin 34)
  /-- HPRELOAD (R111). Accepts a held tile for the idle plane, retires with OK, and lets the loader fill rows during later KEEP commands. -/
  | hpreload (c : Fin 34)
  /-- VKERN (R150). A vector-engine command runs its fused kernel per row and writes OUT, Q, Q2, SAVE and RED after the checks of R146. -/
  | vkern (c : Fin 34)
  /-- VE_JOIN_ROW (R147). A joined VE command starts row m once the joined MMUL has landed row m. -/
  | veJoinRow (c : Fin 34)
  /-- QUANT (R196). A quantize-engine command quantises its source into block-scaled or compensated-pair planes, optionally hashing them. -/
  | quant (c : Fin 34)
  /-- UPDATE (R164). An update-engine command advances the optimizer, stochastically rounds masters and moments, and optionally requantises both copies. -/
  | update (c : Fin 34)
  /-- REQUANT (R172). An update-engine command writes both four-bit copies from the master with no random bits. -/
  | requant (c : Fin 34)
  /-- RBITS (R163). An update-engine command writes the random words an UPDATE with the same coordinates would use. -/
  | rbits (c : Fin 34)
  /-- COPY (R266). A data-mover command copies LEN bytes between spaces, or to a stream destination at RATE. -/
  | copy (c : Fin 34) (fails : List PartFail)
  /-- GATHER (R266). A data-mover command reads a tile of a tensor-wide tensor and writes a held or streamed tile, or streams it. -/
  | gather (c : Fin 34) (fails : List PartFail)
  /-- SCATTER (R266). A data-mover command writes a plane-layout tile from the own cell store into its tensor-wide tensor. -/
  | scatter (c : Fin 34) (fails : List PartFail)
  /-- DM_ADD (R272). A data-mover command sends source elements to the memory-side adders of the destination stacks, ordered or unordered. -/
  | dmAdd (c : Fin 34) (fails : List PartFail)
  /-- ORDERED_ADD_APPLY (R272). A waiting ordered-add contribution is applied at its stack once all lower tags of its tree have been applied there, or once a tree slot is free. -/
  | orderedAddApply (c : Fin 34) (seqNo : BitVec 32) (fails : List PartFail)
  /-- MX_IMPORT (R96). A data-mover command imports an OCP MX tensor into tensor-wide planes. -/
  | mxImport (c : Fin 34) (fails : List PartFail)
  /-- MX_EXPORT (R97). A data-mover command exports a permitted tensor to an OCP MX element and scale array. -/
  | mxExport (c : Fin 34) (fails : List PartFail)
  /-- FILL (R266). A data-mover command writes LEN zero bytes to DADDR. -/
  | fill (c : Fin 34) (fails : List PartFail)
  /-- RSEND (R300). A data-mover ring command sends LEN bytes as one stream transfer. -/
  | rsend (c : Fin 34)
  /-- RPOST (R300). A data-mover ring command posts a stream descriptor once fewer than 64 of its cell's descriptors are outstanding. -/
  | rpost (c : Fin 34)
  /-- COLL (R304). A data-mover ring command runs a collective over a group in the fixed reduction order. -/
  | coll (c : Fin 34)
  /-- BARRIER (R300). A data-mover ring command completes at every member once all members have issued it. -/
  | barrier (c : Fin 34)
  /-- COMMAND_COMPLETION (R197). An engine command completes: its completion record is written, its counts accumulate, and its arrivals and check points are processed. -/
  | commandCompletion (c : Fin 34) (q : Fin 5) (seqNo : BitVec 32)
  /-- SQUASH_RESUME (R210). Once every squashed command has stopped and written its record, the control core restores its snapshot and continues at the fall-back target. -/
  | squashResume (c : Fin 34)
  /-- DUP_COMPARE (R386). The neighbour's recomputation of a sampled tile completes and the hashes are compared; a difference gives DUP_MISMATCH. -/
  | dupCompare (c : Fin 34) (upset : BitVec 64)
  /-- ADD (R188). Control-core instruction rd ← rs1 + rs2. -/
  | add (c : Fin 34)
  /-- SUB (R188). Control-core instruction rd ← rs1 − rs2. -/
  | sub (c : Fin 34)
  /-- AND (R188). Control-core instruction rd ← rs1 AND rs2. -/
  | and (c : Fin 34)
  /-- OR (R188). Control-core instruction rd ← rs1 OR rs2. -/
  | or (c : Fin 34)
  /-- XOR (R188). Control-core instruction rd ← rs1 XOR rs2. -/
  | xor (c : Fin 34)
  /-- SLL (R188). Control-core logical left shift by a register. -/
  | sll (c : Fin 34)
  /-- SRL (R188). Control-core logical right shift by a register. -/
  | srl (c : Fin 34)
  /-- SRA (R188). Control-core arithmetic right shift by a register. -/
  | sra (c : Fin 34)
  /-- MUL (R188). Control-core instruction giving the low 64 bits of a product. -/
  | mul (c : Fin 34)
  /-- SLTU (R188). Control-core unsigned set-less-than. -/
  | sltu (c : Fin 34)
  /-- SLT (R188). Control-core signed set-less-than. -/
  | slt (c : Fin 34)
  /-- MINU (R188). Control-core unsigned minimum. -/
  | minu (c : Fin 34)
  /-- MAXU (R188). Control-core unsigned maximum. -/
  | maxu (c : Fin 34)
  /-- ADDI (R188). Control-core add of a signed immediate. -/
  | addi (c : Fin 34)
  /-- ANDI (R188). Control-core AND with a zero-extended immediate. -/
  | andi (c : Fin 34)
  /-- ORI (R188). Control-core OR with a zero-extended immediate. -/
  | ori (c : Fin 34)
  /-- XORI (R188). Control-core XOR with a zero-extended immediate. -/
  | xori (c : Fin 34)
  /-- SLLI (R188). Control-core logical left shift by an immediate. -/
  | slli (c : Fin 34)
  /-- SRLI (R188). Control-core logical right shift by an immediate. -/
  | srli (c : Fin 34)
  /-- SRAI (R188). Control-core arithmetic right shift by an immediate. -/
  | srai (c : Fin 34)
  /-- MOVK (R188). Control-core instruction inserting a 16-bit immediate into one halfword of rd. -/
  | movk (c : Fin 34)
  /-- PRD (R188). Control-core instruction reading a parameter register into rd. -/
  | prd (c : Fin 34)
  /-- BEQ (R188). Control-core branch if equal. -/
  | beq (c : Fin 34)
  /-- BNE (R188). Control-core branch if not equal. -/
  | bne (c : Fin 34)
  /-- BLTU (R188). Control-core branch if less than, unsigned. -/
  | bltu (c : Fin 34)
  /-- BGEU (R188). Control-core branch if greater than or equal, unsigned. -/
  | bgeu (c : Fin 34)
  /-- BLT (R188). Control-core branch if less than, signed. -/
  | blt (c : Fin 34)
  /-- BGE (R188). Control-core branch if greater than or equal, signed. -/
  | bge (c : Fin 34)
  /-- JAL (R188). Control-core jump and link into g31. -/
  | jal (c : Fin 34)
  /-- JR (R188). Control-core jump to the address in a register. -/
  | jr (c : Fin 34)
  /-- HALT (R188). Ends the cell's program and implies a commit point. -/
  | halt (c : Fin 34)
  /-- CLDT (R188). Loads a command template into CW. -/
  | cldt (c : Fin 34)
  /-- CINS (R188). Inserts a register field into CW. -/
  | cins (c : Fin 34)
  /-- PUSH (R194). Pushes CW into an engine queue with the next sequence number, once the queue and run-ahead limits allow. -/
  | push (c : Fin 34)
  /-- GATE (R201). Sets the pending gate on an event counter and threshold. -/
  | gate (c : Fin 34)
  /-- CHKP (R205). Opens a check point on the last pushed command of a queue and saves a snapshot. -/
  | chkp (c : Fin 34)
  /-- MARK (R214). Waits until no check point is open and all earlier commands have completed, then marks a commit point of the cell. -/
  | mark (c : Fin 34)
  /-- ILLEGAL_INSTRUCTION (R189). The control core reaches an illegal instruction and, once no check point is open, writes a control-core record and stops the partition. -/
  | illegalInstruction (c : Fin 34)
  /-- PARTITION_COMMIT_POINT (R214). Every cell has passed the n-th commit point, so the digests, provenance and cupping exchange are formed there. -/
  | partitionCommitPoint (p : Fin 8)
  /-- CONTEXT_SAVE (R238). At a commit point with the paced queues empty and no delivery in flight, the persistent instances are hashed and the context record is written. -/
  | contextSave (p : Fin 8)
  /-- REPLAY_START (R192). A write of OD 0x6050:01 applies a patch set and starts a replay on every cell. -/
  | replayStart (req : EopReq)
  /-- REPLAY_END (R193). Every control core has halted and every command has completed, so the replay count increments and notice 0x01 is sent. -/
  | replayEnd (p : Fin 8)
  /-- MODULE_LOAD (R235). A write of OD 0x6010:01 discards the loaded module and starts hashing, checking, translating and loading the image. -/
  | moduleLoad (req : EopReq)
  /-- MODULE_LOAD_END (R235). The module load completes with success or failure, and notice 0x02 is sent. -/
  | moduleLoadEnd (p : Fin 8)
  /-- RESTORE (R239). A write of OD 0x6020:02 starts the restore sequence of a context record. -/
  | restore (req : EopReq)
  /-- RESTORE_END (R239). The hash comparisons finish, state is set, and the replay resumes or the partition stays idle; notice 0x03 is sent. -/
  | restoreEnd (p : Fin 8)
  /-- STEP_REPLAY (R409). A write of OD 0x9040:02 checks a capsule and replays the step with comparison. -/
  | stepReplay (req : EopReq)
  /-- SEED_WRITE (R180). A write of the partition seed, refused while any UE command of the partition is queued or in progress. -/
  | seedWrite (req : EopReq)
  /-- SCRUB_GRANULE (R255). The scrubber reads and decodes one 256-byte granule, writing back corrections. -/
  | scrubGranule (st : Fin 32)
  /-- CELL_STORE_SCRUB (R245). A cell store is scrubbed continuously in slots that no engine requests. -/
  | cellStoreScrub (c : Fin 34)
  /-- REFRESH_WINDOW (R257). A channel opens a refresh window, refreshes rows, issues scrubber accesses and may begin a retrain. -/
  | refreshWindow (st : Fin 32) (ch : Fin 16)
  /-- RETRAIN_REQUEST (R258). The margin monitor or the temperature sensor requests a retrain of a channel. -/
  | retrainRequest (st : Fin 32) (ch : Fin 16)
  /-- RETRAIN_END (R258). The training pattern passes, and held accesses and postponed refreshes are released. -/
  | retrainEnd (st : Fin 32) (ch : Fin 16)
  /-- RETRAIN_TIMEOUT (R259). Training has not passed 45 µs after the hold, so the previous calibration is restored and MEM_RETRAIN_TIMEOUT is recorded. -/
  | retrainTimeout (st : Fin 32) (ch : Fin 16)
  /-- RETRAIN_LOCKOUT_EXPIRY (R259). 1 s after a retrain timeout the channel may be retrained again. -/
  | retrainLockoutExpiry (st : Fin 32) (ch : Fin 16)
  /-- FLIP_MASK_WRITE (R261). A write of a stack's flip-mask arms it at ADDR or stores it disarmed. -/
  | flipMaskWrite (req : EopReq)
  /-- LOG_CLEAR (R250). Writing 1 to OD 0x4012 clears a stack's log table and its overflow counter. -/
  | logClear (req : EopReq)
  /-- LANE_FAILURE (R278). A ring lane loses signal or alignment, or exceeds its FEC threshold, which starts a link restart. -/
  | laneFailure (port : RingPort) (lane : Fin 8)
  /-- PORT_TRAINING_END (R278). Training of a port ends with it up at 8 or 4 lanes, or failed. -/
  | portTrainingEnd (port : RingPort) (lanes : BitVec 8)
  /-- PORT_RESTART_RETRY (R277). A failed port attempts a restart every 1 s. -/
  | portRestartRetry (port : RingPort)
  /-- PORT_RESTART (R278). A write of 1 to OD 0x5p00:07 restarts a port at 8 lanes. -/
  | portRestart (req : EopReq)
  /-- INSERT (R307). A write of 1 to OD 0x5000:04, or automatic insertion, commands both switches to the inserted position. -/
  | insert (req : Option EopReq)
  /-- REMOVE (R308). A write of 2 to OD 0x5000:04 sends LEAVE and refuses new ring work. -/
  | remove (req : EopReq)
  /-- REMOVE_COMPLETE (R308). Once outgoing transfers are acknowledged, or 100 ms have passed, the by-pass position is commanded. -/
  | removeComplete
  /-- GROUP_LIST_WRITE (R302). A write of a collective group member list, checked and restarting the group's instance numbering. -/
  | groupListWrite (req : EopReq)
  /-- DATA (R299). A received stream DATA frame is checked, forwarded or consumed under credit, and landed at its matched descriptor. -/
  | data (port : RingPort) (f : VrtFrame)
  /-- CREDIT (R287). A received CREDIT frame updates the cumulative credits granted for classes 1 to 3. -/
  | credit (port : RingPort) (f : VrtFrame)
  /-- LACK (R294). A received link-level acknowledgement frees replay-buffer frames or triggers a replay. -/
  | lack (port : RingPort) (f : VrtFrame)
  /-- SACK (R296). A received end-to-end acknowledgement retires frames and triggers retransmission of missing indices. -/
  | sack (port : RingPort) (f : VrtFrame)
  /-- CSEG (R304). A received collective segment is reduced into staging and sent onward, and READY follows when the result is complete. -/
  | cseg (port : RingPort) (f : VrtFrame)
  /-- CCTL_READY (R305). The coordinator records a member's READY and decides commit once all are in. -/
  | cctlReady (port : RingPort) (f : VrtFrame)
  /-- CCTL_ABORT_REQ (R305). The coordinator receives ABORT_REQ and decides abort if it has not yet decided. -/
  | cctlAbortReq (port : RingPort) (f : VrtFrame)
  /-- CCTL_COMMIT (R305). A member receives COMMIT and copies staging to DADDR, completing OK. -/
  | cctlCommit (port : RingPort) (f : VrtFrame)
  /-- CCTL_ABORT (R305). A member receives ABORT and completes with COLLECTIVE_ABORTED. -/
  | cctlAbort (port : RingPort) (f : VrtFrame)
  /-- COLLECTIVE_TIMEOUT (R305). No decision arrives within CTIMEOUT, so the member completes with RING_HOP_TIMEOUT. -/
  | collectiveTimeout (p : Fin 8) (w : WorkName)
  /-- PROBE (R293). A received PROBE is answered with a probe reply. -/
  | probe (port : RingPort) (f : VrtFrame)
  /-- PROBE_REPLY (R293). A received probe reply updates the measured hop delay. -/
  | probeReply (port : RingPort) (f : VrtFrame)
  /-- LEAVE (R308). A received LEAVE notice from a neighbour that is leaving the ring. -/
  | leave (port : RingPort) (f : VrtFrame)
  /-- PROBE_TIMER (R293). Every 100 µs a port sends a PROBE on its hop. -/
  | probeTimer (port : RingPort)
  /-- HOP_TIMEOUT (R293). A probe gets no reply within T_hop, so it is resent or, on the second miss, a hop timeout is counted and the port restarts. -/
  | hopTimeout (port : RingPort)
  /-- LACK_TIMER (R294). The receiver sends a LACK at least every 2 µs on a short hop. -/
  | lackTimer (port : RingPort)
  /-- LACK_TIMEOUT (R294). No LACK arrives within T_hop, so the sender replays from the first unacknowledged frame. -/
  | lackTimeout (port : RingPort)
  /-- CREDIT_TIMER (R287). The receiver sends a CREDIT frame at least every 2 µs while freed buffers are unreported. -/
  | creditTimer (port : RingPort)
  /-- SACK_TIMER (R296). The receiver sends a SACK at least every 10 µs. -/
  | sackTimer (xfer : Nat)
  /-- PATH_TIMEOUT (R296). An uncovered frame is retransmitted after the path timeout, or declared lost after 8 sends and 100 ms. -/
  | pathTimeout (xid : BitVec 32) (lapsed : Bool)
  /-- PFC_FRAME (R288). A received PFC frame pauses or resumes a class 1–3 priority; PFC for class 0 is ignored. -/
  | pfcFrame (port : RingPort) (enable : BitVec 8) (pause : BitVec 8)
  /-- DESC (R298). A received host descriptor frame is tag and sequence checked, then queued at its paced engine or discarded. -/
  | desc (port : RingPort) (f : VrtFrame)
  /-- DONE (R299). A received DONE frame reporting a descriptor's retirement. -/
  | done (port : RingPort) (f : VrtFrame)
  /-- BARRIER_FRAME (R300). A received barrier arrival or release frame. -/
  | barrierFrame (port : RingPort) (f : VrtFrame)
  /-- RECV (R299). A stream descriptor posts a destination for a stream, matched in posting order. -/
  | recv (eng : Fin 2) (p : Fin 8)
  /-- SEND (R299). A stream descriptor sends LEN bytes as one transfer. -/
  | send (eng : Fin 2) (p : Fin 8)
  /-- PUT (R299). A host-ingress descriptor accepts one host transfer and writes it at ADDR. -/
  | put (p : Fin 8)
  /-- CUPPING_DIGEST (R413). A received cupping DIGEST frame is compared with the local digests, releasing the control cores or raising a mismatch. -/
  | cuppingDigest (port : RingPort) (f : VrtFrame)
  /-- CUPPING_END (R415). A received END sets the cupping state to peer lost and ends cupping. -/
  | cuppingEnd (port : RingPort) (f : VrtFrame)
  /-- CUPPING_RESEND (R413). DIGEST is resent every 1 ms while no peer frame for the point has arrived. -/
  | cuppingResend (p : Fin 8)
  /-- CUPPING_PEER_TIMEOUT (R413). No peer frame arrives within 60 s, so the state reads peer lost and the cores are released. -/
  | cuppingPeerTimeout (p : Fin 8)
  /-- CUPPING_CONFIG_WRITE (R406). A write of OD 0x9020:01, 0x9030:01 or 0x9040:01 takes effect at the next load; a write of enable 0 sends END. -/
  | cuppingConfigWrite (req : EopReq)
  /-- READ (R324). EOP request returning an entry's value. -/
  | read (req : EopReq)
  /-- WRITE (R324). EOP request writing an entry that has no behaviour of its own. -/
  | write (req : EopReq)
  /-- SEG_READ (R328). EOP segmented read, taking a snapshot at offset 0. -/
  | segRead (req : EopReq)
  /-- SEG_WRITE (R329). EOP segmented write, committing atomically at the last segment. -/
  | segWrite (req : EopReq)
  /-- SESSION_OPEN (R318). Opens a pending session, returning the device nonce and proof. -/
  | sessionOpen (req : EopReq)
  /-- SESSION_PROVE (R318). The host proof opens the pending session or discards it. -/
  | sessionProve (req : EopReq)
  /-- SESSION_CLOSE (R320). Closes the session after its OK response. -/
  | sessionClose (req : EopReq)
  /-- NOTIFY_ACK (R330). A host acknowledgement of a notice stops its retransmission. -/
  | notifyAck (req : EopReq)
  /-- ATTEST (R332). Takes the oldest report slot and queues a report for signing. -/
  | attest (req : EopReq)
  /-- ATTEST_SIGN_END (R347). The signing routine reserves leaves if needed and signs a queued report into its slot. -/
  | attestSignEnd
  /-- SESSION_PROVE_TIMEOUT (R318). A pending session not proved within 1 s is discarded. -/
  | sessionProveTimeout (num : BitVec 16)
  /-- SESSION_IDLE_TIMEOUT (R320). A session with no valid request for the idle timeout closes. -/
  | sessionIdleTimeout (num : BitVec 16)
  /-- PROOF_LOCKOUT_EXPIRY (R318). 60 s after 8 failed proofs, SESSION_OPEN on the partition is accepted again. -/
  | proofLockoutExpiry (p : Fin 8)
  /-- SESSION_NUMBER_QUARANTINE_END (R319). 60 s after a session closes, its number may be reused. -/
  | sessionNumberQuarantineEnd (num : BitVec 16)
  /-- SNAPSHOT_TIMEOUT (R328). A SEG_READ snapshot is released after 10 s. -/
  | snapshotTimeout (num : BitVec 16)
  /-- SEG_WRITE_TIMEOUT (R329). A segmented write with no segment for 10 s is discarded. -/
  | segWriteTimeout (num : BitVec 16)
  /-- NOTIFY_RETRANSMIT (R330). An unacknowledged notice is resent every 10 ms, up to four more times. -/
  | notifyRetransmit (num : BitVec 16) (seqNo : BitVec 32)
  /-- PORT_M_ADDRESS_CHANGE (R311). A new port M address or port takes effect 1 ms after the response to its write. -/
  | portMAddressChange
  /-- KEY_WRITE (R321). A wrapped partition key write replaces K_p and closes the partition's other sessions. -/
  | keyWrite (req : EopReq)
  /-- PARTITION_DEFINITION_WRITE (R355). A definition write from partition 0 creates, redefines or deletes a partition, with a reset where needed. -/
  | partitionDefinitionWrite (req : EopReq)
  /-- PARTITION_RESET (R362). A write of 1 to OD 0x2040 or an internal cause stops the partition and starts clearing its resources. -/
  | partitionReset (cause : ResetCause)
  /-- PARTITION_RESET_END (R362). Clearing completes, entries take their defaults and the state reads 1 or 2, and notice 0x04 is sent. -/
  | partitionResetEnd (p : Fin 8)
  /-- COUNTER_CLEAR (R331). Writing 1 to OD 0xA020:07 clears the partition's numeric counters. -/
  | counterClear (req : EopReq)
  /-- FIRMWARE_VERIFY_END (R340). Verification of an uploaded image ends, marking the slot pending or invalid and sending notice 0x07. -/
  | firmwareVerifyEnd (slot : Fin 2)
  /-- CELL_PROOF (R392). A write of OD 0x7020:01 starts a cell proof of a fenced cell. -/
  | cellProof (req : EopReq)
  /-- CELL_PROOF_END (R392). The proof ends, the cell store is cleared, the summary is updated and notice 0x09 is sent. -/
  | cellProofEnd (failed : Option (BitVec 40))
  /-- CHANNEL_TEST (R393). A write of OD 0x7020:02 starts a complement test of a stack channel. -/
  | channelTest (req : EopReq)
  /-- CHANNEL_TEST_END (R393). The channel test ends, and notice 0x09 is sent with OK or RESIDUE_MISMATCH. -/
  | channelTestEnd (bad : List Nat)
  /-- CAP_WRITE (R370). A write of the power cap or the averaging window resets the window and selects k_cap. -/
  | capWrite (req : EopReq)
  /-- CAP_STEP (R370). Every 1 ms the power manager updates its energy window and selects k_cap. -/
  | capStep (pl : Nat) (pm : Nat) (pf : Nat) (pc : Nat)
  /-- DROOP_TRIP (R372). A droop detector trips, activating its die's clamp to k = 16 and abandoning any step on that rail. -/
  | droopTrip (d : Die) (det : Fin 16)
  /-- DROOP_CLAMP_RELEASE (R372). All detectors of a die have been untripped for 10 µs, so the clamp ends. -/
  | droopClampRelease (d : Die)
  /-- VR_ALERT_ASSERT (R374). VR_ALERT_N has been low for 50 ns, so the lowest state sets k = 8 and requests 0.55 V. -/
  | vrAlertAssert
  /-- VR_ALERT_RELEASE (R375). VR_ALERT_N has been high for 1 ms, so status is read, faults cleared and the rails stepped back to 0.75 V. -/
  | vrAlertRelease
  /-- PMBUS_TRANSACTION_END (R376). A PMBus transaction ends; it is repeated on failure, and the next queued transaction starts. -/
  | pmbusTransactionEnd (ack : Bool) (rd : PmbusData)
  /-- PMBUS_RETRY (R377). Every 10 ms a failed transaction is retried, and on success the regulator-fault hold ends. -/
  | pmbusRetry (d : Die)
  /-- VOLTAGE_STEP_END (R378). A voltage step completes, and restores, returns or k releases follow. -/
  | voltageStepEnd (d : Die)
  /-- POWER_UP (R32). The rails ramp in the power-up order with PORST_N held low, bringing the device from unpowered into reset with the by-pass undriven. -/
  | powerUp
  /-- BYPASS_POSITION_SENSED (R307). BYP_E_N and BYP_W_N show the commanded inserted position, so ports E and W begin training with their neighbours. -/
  | bypassPositionSensed (e : Bool) (w : Bool)
  /-- CONTEXT_SAVE_REQUEST (R238). A write of the record address to OD 0x6020:01 requests a save, refused with NOT_READY or OUT_OF_RANGE where the rules say so, and otherwise pending until a commit point. -/
  | contextSaveRequest (req : EopReq)
  /-- CONTEXT_SAVE_END (R238). Hashing of the persistent instances through the data mover finishes, the record is written, the control cores are released, OD 0x6020:04 is set and a NOTIFY is sent. -/
  | contextSaveEnd (p : Fin 8)
  /-- STEP_REPLAY_HASH_END (R409). Hashing of every persistent instance for a step replay finishes: a difference sets DIGEST_MISMATCH, and otherwise the registers and counters are set and the replay of the recorded step starts. -/
  | stepReplayHashEnd (p : Fin 8)
  deriving DecidableEq, Repr

end Sys2Proof
end

