-- ==== Sys2Proof/Decode.lean ====
section
/-! DEFINITION. The command a word spells. The rows of the opcode table give no bits, so no word spells a
command (log entry 30). -/

set_option Elab.async false

namespace Sys2Proof

/-- No row of the table has bits (INVENTORY.md, Instructions). -/
def decodeTableWord (_nbits _w : Nat) : Option Instr := none

end Sys2Proof
end

