-- ==== Sys2Proof/Config.lean ====
section
/-! DEFINITION. What an implementation fixes and the spec leaves open: constants without a body. Nothing in
Lean can evaluate one or prove a value of one, so a theorem about the model holds whatever they are. -/

set_option Elab.async false

namespace Sys2Proof.Config

/-- The n-th free byte: contents the spec calls undefined (04 R124, R127; 05 R147; 07 R207; log entry 2). -/
opaque freeByte : Nat → Nat → Byte
/-- Whether a word of a failed part holds its new bytes (09 R269; log entry 2). -/
opaque freeChoice : Nat → Nat → Bool

/-- Native functions of the vector engine (05 R139; log entry 3). `VectorMath` holds each to what R139 lets
a computable check see. -/
opaque veExp : BitVec 32 → BitVec 32
opaque veLn : BitVec 32 → BitVec 32
opaque veRcp : BitVec 32 → BitVec 32
opaque veRsqrt : BitVec 32 → BitVec 32
opaque veSigmoid : BitVec 32 → BitVec 32
opaque veTanh : BitVec 32 → BitVec 32

/-- A NaN or an infinity in a binary32 parameter for which no reading is stated (05 R143, R154; 06 R160; log
entry 40). -/
opaque specialConst : BitVec 32 → BitVec 32

/-- The parts of the identity private key (12 R345, R347), for the key the NV die holds: the secret of chain i
of leaf q of a tree, the identifier of a tree, the randomizer a leaf signs with (log entry 4). -/
opaque lmsSecret : BitVec 256 → Nat → Nat → Nat → BitVec 256
opaque lmsIdent : BitVec 256 → Nat → BitVec 128
opaque lmsRandom : BitVec 256 → Nat → Nat → BitVec 256
/-- The device nonce drawn for the n-th session (11 R318; log entry 4). -/
opaque nonce : Nat → BitVec 128
/-- FEC codewords corrected on a ring lane, and those a port finds uncorrectable, in a tick (10 R280, 15 R389; log
entry 71). -/
opaque fecCorrected : Nat → Nat → BitVec 32
opaque fecUncorrectable : Nat → Nat → BitVec 64
/-- Payload sub-kinds of PROBE frames: probe, probe reply, LEAVE (10 R283; log entry 19). -/
opaque probeKind : Fin 3 → Byte
/-- Payload sub-kinds of BARRIER frames: arrival, release (10 R283; log entry 19). -/
opaque barrierKind : Fin 2 → Byte

end Sys2Proof.Config
end

