-- ==== Sys2Proof/Machine/Bits.lean ====
section
/-! DEFINITION. Cutting numbers and words into fields and bytes (00 R13: bit 0 is the least significant,
multi-byte fields are little-endian unless their layout says otherwise). -/

set_option Elab.async false

namespace Sys2Proof.Machine

/-- Bits [hi:lo] of a number. -/
def bits (w hi lo : Nat) : Nat := (w >>> lo) % 2 ^ (hi + 1 - lo)

/-- Bit i of a number. -/
def bit (w i : Nat) : Bool := w.testBit i

/-- Bits [hi:lo] of a bit vector, as a number. -/
def fld {n : Nat} (w : BitVec n) (hi lo : Nat) : Nat := bits w.toNat hi lo

/-- Bit i of a bit vector. -/
def flag {n : Nat} (w : BitVec n) (i : Nat) : Bool := w.toNat.testBit i

/-- The little-endian value of a byte string. -/
def leNat : List Byte → Nat
  | [] => 0
  | b :: bs => b.toNat + 256 * leNat bs

/-- The big-endian value of a byte string. -/
def beNat (bs : List Byte) : Nat := bs.foldl (fun a b => a * 256 + b.toNat) 0

/-- n bytes, little-endian. -/
def leBytes : Nat → Nat → List Byte
  | 0, _ => []
  | n + 1, v => BitVec.ofNat 8 v :: leBytes n (v / 256)

/-- n bytes, big-endian (network order). -/
def beBytes (n v : Nat) : List Byte := (leBytes n v).reverse

/-- n zero bytes. -/
def zeros (n : Nat) : List Byte := List.replicate n 0

/-- The next multiple of k at or above n. -/
def alignUp (k n : Nat) : Nat := (n + (k - 1)) / k * k

/-- Bytes padded with zero to a multiple of k. -/
def padTo (k : Nat) (bs : List Byte) : List Byte := bs ++ zeros (alignUp k bs.length - bs.length)

/-- ceil(a / b). -/
def ceilDiv (a b : Nat) : Nat := (a + (b - 1)) / b

/-- ceil(log2 n), 0 for n at most 1. -/
def ceilLog2 (n : Nat) : Nat := if n ≤ 1 then 0 else (n - 1).log2 + 1

/-- n-byte slice at offset o. -/
def slice (bs : List Byte) (o n : Nat) : List Byte := (bs.drop o).take n

/-- The signed value of the low n bits. -/
def sext (n w : Nat) : Int := if (w % 2 ^ n).testBit (n - 1) then (w % 2 ^ n : Int) - 2 ^ n else (w % 2 ^ n : Int)

/-- Bits [hi:lo] of a bit vector replaced by the low bits of v. -/
def setFld {n : Nat} (w : BitVec n) (hi lo v : Nat) : BitVec n :=
  let m := (2 ^ (hi + 1 - lo) - 1) <<< lo
  (w &&& ~~~(BitVec.ofNat n m)) ||| BitVec.ofNat n ((v % 2 ^ (hi + 1 - lo)) <<< lo)

/-- Sum of a list of numbers. -/
def sumN (l : List Nat) : Nat := l.foldl (· + ·) 0

/-- The set bits of a mask below n, ascending. -/
def bitList {w : Nat} (m : BitVec w) : List Nat := (List.range w).filter fun i => m.toNat.testBit i

/-- A finite map as a list with keys strictly rising: the value at a key. -/
def mapGet {α : Type} (d : α) : List (Nat × α) → Nat → α
  | [], _ => d
  | (k, v) :: r, x => if k = x then v else mapGet d r x

/-- A finite map: the value at a key, if it has one. -/
def mapFind {α : Type} : List (Nat × α) → Nat → Option α
  | [], _ => none
  | (k, v) :: r, x => if k = x then some v else mapFind r x

/-- A finite map with one key set; the keys stay strictly rising. -/
def mapSet {α : Type} : List (Nat × α) → Nat → α → List (Nat × α)
  | [], x, v => [(x, v)]
  | (k, w) :: r, x, v =>
    if x < k then (x, v) :: (k, w) :: r else if x = k then (x, v) :: r else (k, w) :: mapSet r x v

/-- A finite map with one key removed. -/
def mapDel {α : Type} (m : List (Nat × α)) (x : Nat) : List (Nat × α) := m.filter fun e => e.1 ≠ x

/-- Insertion of an element into a list that is sorted by `le`. -/
def insertBy {α : Type} (le : α → α → Bool) (x : α) : List α → List α
  | [] => [x]
  | y :: r => if le x y then x :: y :: r else y :: insertBy le x r

/-- A stable sort. -/
def sortBy {α : Type} (le : α → α → Bool) (l : List α) : List α := l.foldr (insertBy le) []

/-- Whether a list holds an element twice. -/
def hasDup {α : Type} [DecidableEq α] : List α → Bool
  | [] => false
  | x :: r => decide (x ∈ r) || hasDup r

/-- Increment that saturates at the largest value. -/
def satInc {n : Nat} (w : BitVec n) : BitVec n := if w = BitVec.allOnes n then w else w + 1

end Sys2Proof.Machine
end

