-- ==== Sys2Proof/Machine/Hash.lean ====
section
/-! DEFINITION. SHA-256 (FIPS 180-4) and HMAC-SHA-256 (FIPS 198-1), which 11 R318 and 12 R343 name; AES-128
(FIPS 197), which 06 R173 names; CRC-32C, which 10 R283 names; the content hash of 16 R401. The first three
are standards the spec cites and does not restate (log entry 12). -/

set_option Elab.async false

namespace Sys2Proof.Machine

/-- The 64 round constants of SHA-256, word i at bits [32i + 31 : 32i]. -/
def shaK : Nat :=
  0xc67178f2bef9a3f7a4506ceb90befffa8cc7020884c8781478a5636f748f82ee682e6ff35b9cca4f4ed8aa4a391c0cb334b0bcb52748774c1e376c0819a4c116106aa070f40e3585d6990624d192e819c76c51a3c24b8b70a81a664ba2bfe8a192722c8581c2c92e766a0abb650a735453380d134d2c6dfc2e1b213827b70a851429296706ca6351d5a79147c6e00bf3bf597fc7b00327c8a831c66d983e515276f988da5cb0a9dc4a7484aa2de92c6f240ca1cc0fc19dc6efbe4786e49b69c1c19bf1749bdc06a780deb1fe72be5d74550c7dc3243185be12835b01d807aa98ab1c5ed5923f82a459f111f13956c25be9b5dba5b5c0fbcf71374491428a2f98

/-- The initial hash value of SHA-256. -/
def shaInit : List Nat := [0x6A09E667, 0xBB67AE85, 0x3C6EF372, 0xA54FF53A, 0x510E527F, 0x9B05688C, 0x1F83D9AB, 0x5BE0CD19]

def w32 (n : Nat) : Nat := n % 2 ^ 32
def rotr (x n : Nat) : Nat := (x >>> n) ||| w32 (x <<< (32 - n))

def shaS0 (x : Nat) : Nat := rotr x 7 ^^^ rotr x 18 ^^^ (x >>> 3)
def shaS1 (x : Nat) : Nat := rotr x 17 ^^^ rotr x 19 ^^^ (x >>> 10)
def shaE0 (x : Nat) : Nat := rotr x 2 ^^^ rotr x 13 ^^^ rotr x 22
def shaE1 (x : Nat) : Nat := rotr x 6 ^^^ rotr x 11 ^^^ rotr x 25

/-- One round on the eight working variables. -/
def shaRound (v : List Nat) (kw : Nat) : List Nat :=
  match v with
  | [a, b, c, d, e, f, g, h] =>
    let t1 := h + shaE1 e + ((e &&& f) ^^^ ((e ^^^ 0xFFFFFFFF) &&& g)) + kw
    let t2 := shaE0 a + ((a &&& b) ^^^ (a &&& c) ^^^ (b &&& c))
    [w32 (t1 + t2), a, b, c, w32 (d + t1), e, f, g]
  | v => v

/-- Rounds i and on, with the 16-word window of the message schedule. -/
def shaRounds : Nat → Nat → List Nat → List Nat → List Nat
  | 0, _, _, v => v
  | n + 1, i, w, v =>
    let w0 := w.headD 0
    let nw := w32 (shaS1 (w.getD 14 0) + w.getD 9 0 + shaS0 (w.getD 1 0) + w0)
    shaRounds n (i + 1) (w.drop 1 ++ [nw]) (shaRound v (shaK >>> (32 * i) % 2 ^ 32 + w0))

/-- The 16 big-endian words of a block. -/
def shaWords : Nat → List Byte → List Nat
  | 0, _ => []
  | n + 1, bs => beNat (bs.take 4) :: shaWords n (bs.drop 4)

def shaBlock (h : List Nat) (blk : List Byte) : List Nat :=
  List.zipWith (fun a b => w32 (a + b)) h (shaRounds 64 0 (shaWords 16 blk) h)

def shaBlocks : Nat → List Nat → List Byte → List Nat
  | 0, h, _ => h
  | n + 1, h, bs => shaBlocks n (shaBlock h (bs.take 64)) (bs.drop 64)

/-- The padded message. -/
def shaPad (m : List Byte) : List Byte :=
  let z := (119 - m.length % 64) % 64
  m ++ [0x80] ++ zeros z ++ beBytes 8 (8 * m.length)

/-- SHA-256 as a number, first byte most significant. -/
def sha256 (m : List Byte) : Nat :=
  let p := shaPad m
  (shaBlocks (p.length / 64) shaInit p).foldl (fun a w => a * 2 ^ 32 + w) 0

/-- SHA-256 as bytes in order. -/
def sha256Bytes (m : List Byte) : List Byte := beBytes 32 (sha256 m)

/-- HMAC-SHA-256 under a 256-bit key, first byte of the key most significant. -/
def hmac (key : BitVec 256) (m : List Byte) : List Byte :=
  let k := beBytes 32 key.toNat ++ zeros 32
  let inner := sha256Bytes (k.map (· ^^^ 0x36) ++ m)
  sha256Bytes (k.map (· ^^^ 0x5C) ++ inner)

/-- The first 16 bytes of an HMAC, as the tag of a message (11 R322). -/
def tagOf (key : BitVec 256) (m : List Byte) : BitVec 128 := BitVec.ofNat 128 (beNat ((hmac key m).take 16))

/-- ASCII bytes of a label. -/
def ascii (s : String) : List Byte := s.toList.map fun c => BitVec.ofNat 8 c.toNat

/-- The S-box of AES, entry i at bits [8i + 7 : 8i]. -/
def aesSbox : Nat :=
  0x16bb54b00f2d99416842e6bf0d89a18cdf2855cee9871e9b948ed9691198f8e19e1dc186b95735610ef6034866b53e708a8bbd4b1f74dde8c6b4a61c2e2578ba08ae7a65eaf4566ca94ed58d6d37c8e779e4959162acd3c25c2406490a3a32e0db0b5ede14b8ee4688902a22dc4f816073195d643d7ea7c41744975fec130ccdd2f3ff1021dab6bcf5389d928f40a351a89f3c507f02f94585334d43fbaaefd0cf584c4a39becb6a5bb1fc20ed00d153842fe329b3d63b52a05a6e1b1a2c830975b227ebe28012079a059618c323c7041531d871f1e5a534ccf73f362693fdb7c072a49cafa2d4adf04759fa7dc982ca76abd7fe2b670130c56f6bf27b777c63

def aesSub (b : Nat) : Nat := aesSbox >>> (8 * b) % 256
/-- Multiplication by x in the field of AES. -/
def aesX (b : Nat) : Nat := if b < 128 then 2 * b else (2 * b) ^^^ 0x11B

/-- The next round key (16 bytes as numbers). -/
def aesNextKey (k : List Nat) (rc : Nat) : List Nat :=
  let t := [aesSub (k.getD 13 0) ^^^ rc, aesSub (k.getD 14 0), aesSub (k.getD 15 0), aesSub (k.getD 12 0)]
  let a := List.zipWith (· ^^^ ·) (k.take 4) t
  let b := List.zipWith (· ^^^ ·) ((k.drop 4).take 4) a
  let c := List.zipWith (· ^^^ ·) ((k.drop 8).take 4) b
  a ++ b ++ c ++ List.zipWith (· ^^^ ·) (k.drop 12) c

/-- SubBytes and ShiftRows. -/
def aesShift (s : List Nat) : List Nat :=
  (List.range 16).map fun i => aesSub (s.getD ((i + 4 * (i % 4)) % 16) 0)

/-- MixColumns of one column. -/
def aesMixCol (c : List Nat) : List Nat :=
  match c with
  | [a, b, c, d] =>
    [aesX a ^^^ aesX b ^^^ b ^^^ c ^^^ d, a ^^^ aesX b ^^^ aesX c ^^^ c ^^^ d,
     a ^^^ b ^^^ aesX c ^^^ aesX d ^^^ d, aesX a ^^^ a ^^^ b ^^^ c ^^^ aesX d]
  | c => c

def aesMix (s : List Nat) : List Nat :=
  aesMixCol (s.take 4) ++ aesMixCol ((s.drop 4).take 4) ++ aesMixCol ((s.drop 8).take 4) ++ aesMixCol (s.drop 12)

/-- n more rounds; the last one has no MixColumns. -/
def aesRounds : Nat → Nat → List Nat → List Nat → List Nat
  | 0, _, _, s => s
  | n + 1, rc, k, s =>
    let k' := aesNextKey k rc
    let t := aesShift s
    aesRounds n (aesX rc) k' (List.zipWith (· ^^^ ·) (if n = 0 then t else aesMix t) k')

/-- AES-128 of one block, key and block as byte strings. -/
def aes128 (key blk : List Byte) : List Byte :=
  let k := key.map BitVec.toNat
  (aesRounds 10 1 k (List.zipWith (· ^^^ ·) (blk.map BitVec.toNat) k)).map (BitVec.ofNat 8)

/-- CRC-32C, reflected, initial value and final inversion all ones. -/
def crcByte (c : Nat) (b : Byte) : Nat :=
  (List.range 8).foldl (fun c _ => if c % 2 = 1 then (c / 2) ^^^ 0x82F63B78 else c / 2) (c ^^^ b.toNat)
def crc32c (bs : List Byte) : BitVec 32 := BitVec.ofNat 32 (bs.foldl crcByte 0xFFFFFFFF ^^^ 0xFFFFFFFF)

/-- The prime of the content hash (16 R401). -/
def hashP : Nat := 2 ^ 64 - 59
/-- The point of the content hash. -/
def hashR : Nat := 0x5D2A91C706E3B48F

/-- The words of a byte string folded into the content hash; r is the power of the next word. -/
def hashWords : Nat → Nat → Nat → List Byte → Nat
  | 0, _, h, _ => h
  | n + 1, r, h, bs => hashWords n (r * hashR % hashP) ((h + leNat (bs.take 8) % hashP * r) % hashP) (bs.drop 8)

/-- The content hash of a byte string (16 R401). -/
def contentHash (bs : List Byte) : BitVec 64 :=
  BitVec.ofNat 64 (hashWords (ceilDiv bs.length 8) hashR (bs.length % hashP) bs)

end Sys2Proof.Machine
end

