-- ==== Sys2Proof/Machine/State.lean ====
section
/-! DEFINITION. The state of the block as plain data, and the state right after reset.
Every field names the rule of spec/ that gives it; INVENTORY.md lists them with widths and reset values. -/

set_option Elab.async false

namespace Sys2Proof.Machine

/-- No command of this block stops with a fault: the spec gives every condition an effect (a status, a
partition stop, a partition reset, a device reset). -/
inductive Fault where
  deriving DecidableEq, Repr

/-- Reasons a step is refused. -/
inductive Refusal where
  /-- Raised by an arm of the dispatch whose command has no meaning yet. Safe: nothing is claimed of it. -/
  | notModelled (mnemonic : String)
  deriving DecidableEq, Repr

/-- A spare of the fuse map or of the soft-repair list (09 R253): stack, channel, bank, subarray or 16 for
a row spare, spare index. -/
structure SpareKey where
  stack : Nat
  chan  : Nat
  bank  : Nat
  sub   : Nat
  spare : Nat
  deriving DecidableEq, Repr

/-- A gate: event counter and threshold (07 R201). -/
structure GateSpec where
  ctr : Fin 32
  thr : BitVec 32
  deriving DecidableEq, Repr

/-- A stream input of a matrix engine (04 R109, R123): the bytes delivered and not yet consumed, and the
failed mark. -/
structure StreamIn where
  bytes  : List Byte
  failed : Bool
  deriving DecidableEq, Repr

/-- One entry of a patch set (07 R191): parameter register, argument selector, constant. -/
structure PatchEntry where
  reg : Nat
  arg : Option (Fin 8)
  c   : BitVec 64
  deriving DecidableEq, Repr

/-- The retrain sequence of a channel (09 R258): idle, requested (order 1), held (from order 2). -/
inductive RetrainPhase where
  | idle | requested | held
  deriving DecidableEq, Repr

/-- What an outgoing transfer belongs to: nothing, a data-mover command (cell, sequence number), a SEND
descriptor (engine, the descriptor, the port its host is at), or a segment of a collective (group, instance,
segment, phase). -/
inductive TxOrigin where
  | none
  | cmd (cell : Nat) (seqNo : BitVec 32)
  | desc (engine : Nat) (desc : BitVec 256) (port : Nat)
  | seg (group : Nat) (inst : BitVec 32) (seg : Nat) (phase : Nat)
  deriving DecidableEq, Repr

/-- The purposes of a voltage step (14 R378): the boot write, the lowest state, the return, a restore. -/
inductive StepKind where
  | boot | lowest | ret | restore
  deriving DecidableEq, Repr

/-- The image slot A is shipped with (DESIGN CHOICE, log entry 24; layout of 12 R337): version 1, four components of
no bytes, and a signature of leaf 0 whose chains, randomizer and path are zero. -/
def shippedImage : List Byte :=
  let empty := 0xe3b0c44298fc1c149afbf4c8996fb92427ae41e4649b934ca495991b7852b855
  beBytes 192 (0x565A4657 * 2 ^ 1504 + 1 * 2 ^ 1488 + 0x4230 * 2 ^ 1472 + 1 * 2 ^ 1440
    + empty * 2 ^ 1024 + empty * 2 ^ 768 + empty * 2 ^ 512 + empty * 2 ^ 256) ++
  beBytes 1772 (4 * 2 ^ 14112 + 8 * 2 ^ 5120)

/-- The vendor public key in the boot ROM (DESIGN CHOICE, log entry 23; layout of 12 R338): tree type 8, one-time type 4,
identifier 0 and the root that the shipped image's signature leads to. -/
def shippedVendorKey : BitVec 448 :=
  BitVec.ofNat 448 (8 * 2 ^ 416 + 4 * 2 ^ 384 + 0xeac0f225eb20857549756ac314090feb88ba3f7bf1f09a88ebc3ffb040b8d846)

/-- One firmware slot of the NV die: its slot record and its stored image (R339). -/
structure FwSlot where
  /-- 1; 12 R339 -/
  valid : Bool
  /-- 1; 12 R339 -/
  pending : Bool
  /-- 1; 12 R339 -/
  trial : Bool
  /-- 1; 12 R339 -/
  failed : Bool
  /-- 32; 12 R339 -/
  version : BitVec 32
  /-- at most 16 MiB; 12 R337, R339, R340 -/
  image : List Byte
  deriving DecidableEq, Repr

/-- `FwSlot` at reset (INVENTORY.md, State). -/
def FwSlot.reset : FwSlot :=
  { valid := false,
    pending := false,
    trial := false,
    failed := false,
    version := 0,
    image := [] }

/-- Slot A as shipped (DESIGN CHOICE, log entry 24): valid, version 1, with the shipped image. -/
def FwSlot.shipped : FwSlot := { FwSlot.reset with valid := true, version := 1, image := shippedImage }

/-- One identity-state record (R346): sequence number, reservation limit, top-level signature of the bottom-level tree's key. -/
structure IdRec where
  /-- 32; 12 R346 -/
  seqNo : BitVec 32
  /-- 31; 12 R346 -/
  lim : Nat
  /-- a signature; 12 R346 -/
  topSig : List Byte
  deriving DecidableEq, Repr

/-- `IdRec` at reset (INVENTORY.md, State). -/
def IdRec.reset : IdRec :=
  { seqNo := 0,
    lim := 0,
    topSig := [] }

/-- One unit summary of the fault history (R389). -/
structure UnitSummary where
  /-- 2; 15 R389 -/
  cls : BitVec 2
  /-- 1; 15 R389 -/
  pend : Bool
  /-- 1; 15 R389 -/
  proofFailed : Bool
  /-- 8; 15 R389 -/
  window : BitVec 8
  /-- 32; 15 R389 -/
  lastBoot : BitVec 32
  /-- 16; 15 R389 -/
  events : BitVec 16
  /-- 8; 15 R389 -/
  bootEvents : BitVec 8
  /-- 8; 15 R389 -/
  proofPasses : BitVec 8
  /-- 32; 15 R389 -/
  corrected : BitVec 32
  /-- 8; 15 R390 -/
  uncWindow : BitVec 8
  /-- 8; 15 R390 -/
  partWindow : BitVec 8
  /-- 8; 15 R390 -/
  timeouts : BitVec 8
  /-- 8; 15 R390 -/
  partEvents : BitVec 8
  deriving DecidableEq, Repr

/-- `UnitSummary` at reset (INVENTORY.md, State). -/
def UnitSummary.reset : UnitSummary :=
  { cls := 0,
    pend := false,
    proofFailed := false,
    window := 0,
    lastBoot := 0,
    events := 0,
    bootEvents := 0,
    proofPasses := 0,
    corrected := 0,
    uncWindow := 0,
    partWindow := 0,
    timeouts := 0,
    partEvents := 0 }

/-- The port M settings, OD 0x1010 (R331). -/
structure PortMCfg where
  /-- 8; 11 R331 -/
  mode : BitVec 8
  /-- 128; 11 R331 -/
  ip6 : BitVec 128
  /-- 8; 11 R331 -/
  pfx6 : BitVec 8
  /-- 32; 11 R331 -/
  ip4 : BitVec 32
  /-- 8; 11 R331 -/
  pfx4 : BitVec 8
  /-- 128; 11 R331 -/
  gateway : BitVec 128
  /-- 16; 11 R331 -/
  udpPort : BitVec 16
  /-- 16; 11 R331 -/
  idle : BitVec 16
  deriving DecidableEq, Repr

/-- `PortMCfg` at reset (INVENTORY.md, State). -/
def PortMCfg.reset : PortMCfg :=
  { mode := 0,
    ip6 := 0,
    pfx6 := 64,
    ip4 := 0,
    pfx4 := 24,
    gateway := 0,
    udpPort := 47130,
    idle := 600 }

/-- The settings of one ring port, OD 0x5p00 and OD 0x5p10 (R280). -/
structure PortCfg where
  /-- 8; 10 R280 -/
  phy : BitVec 8
  /-- 8; 10 R280 -/
  attach : BitVec 8
  /-- 16; 10 R280 -/
  etherType : BitVec 16
  /-- 48; 10 R280 -/
  peerMac : BitVec 48
  /-- 128; 10 R280 -/
  localIp : BitVec 128
  /-- 128; 10 R280 -/
  peerIp : BitVec 128
  /-- 32; 10 R280 -/
  delay : BitVec 32
  /-- 16; 10 R280 -/
  udpPort : BitVec 16
  deriving DecidableEq, Repr

/-- `PortCfg` at reset (INVENTORY.md, State). -/
def PortCfg.reset : PortCfg :=
  { phy := 1,
    attach := 0,
    etherType := 0x88B5,
    peerMac := 0,
    localIp := 0,
    peerIp := 0,
    delay := 50,
    udpPort := 47140 }

/-- The class settings, OD 0x5300 (R280). -/
structure ClassCfg where
  /-- 3 x 16; 10 R280 -/
  pool : Vector (BitVec 16) 3
  /-- 16; 10 R280 -/
  prio : BitVec 16
  deriving DecidableEq, Repr

/-- `ClassCfg` at reset (INVENTORY.md, State). -/
def ClassCfg.reset : ClassCfg :=
  { pool := Vector.replicate 3 8192,
    prio := 0x029E }

/-- What is fixed at manufacture (R2, R3, R58, R253, R331). -/
structure Fuse where
  /-- 1; 00 R2 -/
  grade : Grade
  /-- 34; 00 R3, 11 R331 OD 0x6000:01 -/
  enabled : BitVec 34
  /-- 96; 11 R331 OD 0x1000:03 -/
  serial : BitVec 96
  /-- 48; 11 R331 OD 0x1010:02 -/
  macM : BitVec 48
  /-- 2 x 48; 10 R280 OD 0x5p00:06 -/
  macRing : Vector (BitVec 48) 2
  /-- 448; 12 R338, the boot ROM -/
  vendorKey : BitVec 448
  /-- 256; 12 R343 M1 -/
  romDigest : BitVec 256
  /-- 34 x 16; 02 R58 -/
  minDelayPs : Vector (BitVec 16) 34
  /-- list; 09 R253 (the fuse map) -/
  usedSpares : List SpareKey
  deriving DecidableEq, Repr

/-- `Fuse` at reset (INVENTORY.md, State). -/
def Fuse.reset : Fuse :=
  { grade := .a32,
    enabled := 0x0FFFFFFFF,
    serial := 0,
    macM := 0,
    macRing := Vector.replicate 2 0,
    vendorKey := shippedVendorKey,
    romDigest := 0,
    minDelayPs := Vector.replicate 34 650,
    usedSpares := [] }

/-- The NV die: the identity private key, slots, boot state, identity state, fault history and the persistent dictionary values (R19, R21, R339, R346, R389, R327). -/
structure Nv where
  /-- open; R345 gives no size; 12 R345 -/
  idKey : BitVec 256
  /-- 2 records; 12 R339 -/
  slots : Vector FwSlot 2
  /-- 1; 12 R339 OD 0x8030:01 -/
  active : Fin 2
  /-- 32; 12 R339 OD 0x8030:04 -/
  rollbackMin : BitVec 32
  /-- 32; 12 R339 -/
  bootCount : BitVec 32
  /-- 32 records; 12 R346 -/
  idRing : List (Nat × IdRec)
  /-- 5; 12 R346 -/
  idPos : Nat
  /-- 34 x 8, 0.25 % units; 02 R59 -/
  guards : Vector (BitVec 8) 34
  /-- at most 4,096 x 64; 09 R253 OD 0x4020:01 -/
  soft : List (BitVec 64)
  /-- 8; 15 R389 -/
  stwResets : BitVec 8
  /-- 8; 15 R389 -/
  noReady : BitVec 8
  /-- 16; 15 R389 -/
  fhNext : BitVec 16
  /-- 4,096 x 128; 15 R389 -/
  events : List (Nat × BitVec 128)
  /-- 571 x 128; 15 R389 -/
  units : List (Nat × UnitSummary)
  /-- 8 x 256; 11 R316 -/
  keys : Vector (BitVec 256) 8
  /-- 8 x 512; 13 R351, R353 -/
  defs : Vector (BitVec 512) 8
  /-- group; 11 R331 -/
  portM : PortMCfg
  /-- 16; 11 R331 OD 0x3000:01 -/
  capW : BitVec 16
  /-- 8; 11 R331 OD 0x3000:02 -/
  capWindow : BitVec 8
  /-- 16; 10 R280 -/
  ringId : BitVec 16
  /-- 16; 10 R280 -/
  ringSize : BitVec 16
  /-- 8; 10 R280 -/
  insertMode : BitVec 8
  /-- 4 x ring size bytes; 10 R280 OD 0x5010:01 -/
  delayMap : List Byte
  /-- 2 groups; 10 R280 -/
  ports : Vector PortCfg 2
  /-- group; 10 R280 -/
  classes : ClassCfg
  deriving DecidableEq, Repr

/-- `Nv` at reset (INVENTORY.md, State). -/
def Nv.reset : Nv :=
  { idKey := 0,
    slots := #v[FwSlot.shipped, FwSlot.reset],
    active := 0,
    rollbackMin := 0,
    bootCount := 0,
    idRing := [(0, IdRec.reset)],
    idPos := 1,
    guards := Vector.replicate 34 0,
    soft := [],
    stwResets := 0,
    noReady := 0,
    fhNext := 0,
    events := [],
    units := [],
    keys := Vector.replicate 8 0,
    defs := Vector.replicate 8 0,
    portM := PortMCfg.reset,
    capW := 1800,
    capWindow := 8,
    ringId := 0,
    ringSize := 1,
    insertMode := 0,
    delayMap := [],
    ports := Vector.replicate 2 PortCfg.reset,
    classes := ClassCfg.reset }

/-- Every stored word of R241: the data bytes by device physical address (an unlisted byte is zero) and, per 32-byte word, the difference between the 36 stored bytes and the codeword of its data (R246); unlisted: none. -/
structure Memory where
  /-- R241's map; 09 R241, R245, 12 R342 order 7 -/
  bytes : List Host.Cell
  /-- 36 bytes a word; 09 R246, R261 -/
  errs : List (Nat × BitVec 288)
  deriving DecidableEq, Repr

/-- `Memory` at reset (INVENTORY.md, State). -/
def Memory.reset : Memory :=
  { bytes := [],
    errs := [] }

/-- The three numeric trouble counts (R92, R129). -/
structure Counts where
  /-- 32, saturating in the record; 03 R92 -/
  sat : Nat
  /-- 32; 03 R92 -/
  flu : Nat
  /-- 32; 03 R92 -/
  awn : Nat
  deriving DecidableEq, Repr

/-- `Counts` at reset (INVENTORY.md, State). -/
def Counts.reset : Counts :=
  { sat := 0,
    flu := 0,
    awn := 0 }

/-- The command most recently pushed into a queue (R189, R205): its sequence number, its counts once it has completed, and whether it was squashed. -/
structure LastPush where
  /-- 32; 07 R205 -/
  seqNo : BitVec 32
  /-- 3 x 32; 07 R209 -/
  counts : Option Counts
  /-- 1; 07 R209 -/
  squashed : Bool
  deriving DecidableEq, Repr

/-- `LastPush` at reset (INVENTORY.md, State). -/
def LastPush.reset : LastPush :=
  { seqNo := 0,
    counts := none,
    squashed := false }

/-- A check point with its snapshot (R205). -/
structure CheckPoint where
  /-- 3; 07 R205 -/
  queue : Fin 5
  /-- 32; 07 R205 (sequence number of the checked command) -/
  target : BitVec 32
  /-- 2; 07 R205 -/
  count : BitVec 2
  /-- 64; 07 R205 -/
  threshold : BitVec 64
  /-- 32 x 64; 07 R205 -/
  regs : Vector (BitVec 64) 32
  /-- 256; 07 R205 -/
  cw : BitVec 256
  /-- template CW was loaded from; 07 R205, 16 R403 -/
  cwT : Option Nat
  /-- 1+5+32; 07 R205 -/
  gate : Option GateSpec
  /-- 32; 07 R205 -/
  seqNo : BitVec 32
  /-- 14; 07 R205 -/
  fallback : Nat
  deriving DecidableEq, Repr

/-- `CheckPoint` at reset (INVENTORY.md, State). -/
def CheckPoint.reset : CheckPoint :=
  { queue := 0,
    target := 0,
    count := 0,
    threshold := 0,
    regs := Vector.replicate 32 0,
    cw := 0,
    cwT := none,
    gate := none,
    seqNo := 0,
    fallback := 0 }

/-- What the control core is doing: halted (no replay, or the program ended), running, waiting at a MARK or
HALT for the partition's commit point, stopping for a squash, stopped on an illegal instruction. -/
inductive CoreRun where
  | halted | running | atMark | ended
  | squashing (cp : CheckPoint)
  | illegal
  deriving DecidableEq, Repr

/-- The control core of a cell (R184). -/
structure Core where
  /-- 16,384 x 32; 07 R184, R190 -/
  imem : List (BitVec 32)
  /-- 1,024 x 256; 07 R184 -/
  tmpl : List (BitVec 256)
  /-- 32 x 64; 07 R184 -/
  g : Vector (BitVec 64) 32
  /-- 128 x 64; 07 R184 -/
  p : Vector (BitVec 64) 128
  /-- 256; 07 R184 -/
  cw : BitVec 256
  /-- template CW was loaded from; 07 R188, 16 R403 -/
  cwT : Option Nat
  /-- 14, and 16,384 past the end (R189); 07 R184 -/
  pc : Nat
  /-- 32; 07 R184, R194 -/
  seqNo : BitVec 32
  /-- 1+5+32; 07 R184 -/
  gate : Option GateSpec
  /-- 32 x 32; 07 R184, R201 -/
  ev : Vector (BitVec 32) 32
  /-- 8 snapshots; 07 R184, R205 -/
  snaps : List CheckPoint
  /-- mode; 07 R190, R193, R210, R214 -/
  run : CoreRun
  /-- 5 x (32, and the counts once complete); 07 R189, R205 -/
  lastPush : Vector (Option LastPush) 5
  /-- 16; 07 R214 (commit points passed in this replay) -/
  commits : Nat
  deriving DecidableEq, Repr

/-- `Core` at reset (INVENTORY.md, State). -/
def Core.reset : Core :=
  { imem := [],
    tmpl := [],
    g := Vector.replicate 32 0,
    p := Vector.replicate 128 0,
    cw := 0,
    cwT := none,
    pc := 0,
    seqNo := 0,
    gate := none,
    ev := Vector.replicate 32 0,
    snaps := [],
    run := .halted,
    lastPush := Vector.replicate 5 none,
    commits := 0 }

/-- A command waiting in an engine queue (R194). -/
structure QEntry where
  /-- 256; 07 R194 -/
  word : BitVec 256
  /-- 32; 07 R194 -/
  seqNo : BitVec 32
  /-- 1; 07 R188 PUSH F -/
  fb : Bool
  /-- 1+5+32; 07 R201 -/
  gate : Option GateSpec
  /-- logical cell of the program that pushed it; none for a translator command; 16 R407 -/
  lcell : Option Nat
  /-- logical cell and channel its template's arrival counts on; 16 R403 -/
  chan : Option (Nat × Nat)
  /-- 20, place among the commands of its logical cell since the replay start; 16 R407 -/
  ord : Nat
  deriving DecidableEq, Repr

/-- `QEntry` at reset (INVENTORY.md, State). -/
def QEntry.reset : QEntry :=
  { word := 0,
    seqNo := 0,
    fb := false,
    gate := none,
    lcell := none,
    chan := none,
    ord := 0 }

/-- The outcome an engine command has reached, until its completion record is written (R197). -/
structure Done where
  /-- 8; 07 R197 -/
  status : BitVec 8
  /-- 3 x 32; 07 R197 -/
  counts : Counts
  /-- 64; 07 R197 -/
  aux : BitVec 64
  deriving DecidableEq, Repr

/-- `Done` at reset (INVENTORY.md, State). -/
def Done.reset : Done :=
  { status := 0,
    counts := Counts.reset,
    aux := 0 }

/-- A tile in a held plane or a preload (R101, R106, R111). -/
structure HeldTile where
  /-- 32; 04 R109 -/
  fmt : BitVec 32
  /-- 2; 04 R109 -/
  kind : BitVec 2
  /-- 12; 04 R109 -/
  kLen : Nat
  /-- 10; 04 R109 -/
  nCols : Nat
  /-- R106; 04 R106 -/
  bytes : List Byte
  /-- one per multiplier row; 04 R122 -/
  tags : List (BitVec 2)
  deriving DecidableEq, Repr

/-- `HeldTile` at reset (INVENTORY.md, State). -/
def HeldTile.reset : HeldTile :=
  { fmt := 0,
    kind := 0,
    kLen := 0,
    nCols := 0,
    bytes := [],
    tags := [] }

/-- A pending preload (R111). -/
structure Preload where
  /-- R106; 04 R111 -/
  tile : HeldTile
  /-- rows A filled; 04 R111, R112 -/
  filled : Nat
  /-- 1; 04 R111 -/
  invalid : Bool
  /-- 1; 04 R111 -/
  needsTail : Bool
  /-- 2; 04 R122 -/
  tag : BitVec 2
  deriving DecidableEq, Repr

/-- `Preload` at reset (INVENTORY.md, State). -/
def Preload.reset : Preload :=
  { tile := HeldTile.reset,
    filled := 0,
    invalid := false,
    needsTail := false,
    tag := 0 }

/-- One streamed row inside the array (R121, R118). -/
structure MeRow where
  /-- beat F_m; 04 R121 -/
  first : Nat
  /-- b_m; 04 R118 -/
  beats : Nat
  /-- P_m; 04 R103 -/
  passes : Nat
  /-- row record; 04 R106 -/
  bytes : List Byte
  /-- 1; 04 R120 -/
  landed : Bool
  deriving DecidableEq, Repr

/-- `MeRow` at reset (INVENTORY.md, State). -/
def MeRow.reset : MeRow :=
  { first := 0,
    beats := 0,
    passes := 0,
    bytes := [],
    landed := false }

/-- The matrix-engine command in progress (R110 to R125). -/
structure MeRun where
  /-- 04 R109 -/
  entry : QEntry
  /-- load beats left; 04 R112 -/
  load : Nat
  /-- L; 04 R112 -/
  loadTotal : Nat
  /-- next beat number; 04 R120 -/
  beat : Nat
  /-- 32; 02 R64 -/
  issued : Nat
  /-- 32; 02 R64 -/
  stalls : Nat
  /-- rows fetched, in order; 04 R121 -/
  rows : List MeRow
  /-- 3 counts; 04 R129 -/
  counts : Counts
  /-- narrow-accumulator errors injected; 04 R126 -/
  upsets : List Upset
  /-- the tile being loaded breaks R85 at its last load beat; 04 R111, R125 -/
  bad : Bool
  /-- the current tile and the preload before this command; 04 R110 -/
  saved : Option HeldTile × Option Preload
  /-- 2, the tag beat 0 expects; none under KEEP; 04 R122 -/
  tag : Option (BitVec 2)
  /-- 3 counts, before the latest beat's landing; 04 R129 -/
  before : Counts
  deriving DecidableEq, Repr

/-- `MeRun` at reset (INVENTORY.md, State). -/
def MeRun.reset : MeRun :=
  { entry := QEntry.reset,
    load := 0,
    loadTotal := 0,
    beat := 0,
    issued := 0,
    stalls := 0,
    rows := [],
    counts := Counts.reset,
    upsets := [],
    bad := false,
    saved := (none, none),
    tag := none,
    before := Counts.reset }

/-- A completed MMUL that a later joined command may name (R146, R147). -/
structure PastMmul where
  /-- 32; 05 R146 -/
  seqNo : BitVec 32
  /-- 256; 05 R146 -/
  word : BitVec 256
  /-- 8; 05 R147 -/
  status : BitVec 8
  deriving DecidableEq, Repr

/-- `PastMmul` at reset (INVENTORY.md, State). -/
def PastMmul.reset : PastMmul :=
  { seqNo := 0,
    word := 0,
    status := 0 }

/-- The matrix engine of a cell (R99 to R129). -/
structure Me where
  /-- planes; 04 R101 -/
  cur : Option HeldTile
  /-- idle plane; 04 R111 -/
  pre : Option Preload
  /-- command in progress; 04 R110 -/
  run : Option MeRun
  /-- completed, record not yet written; 07 R197 -/
  done : Option (QEntry × Done)
  /-- 16 stream inputs; 04 R109, R123 -/
  streams : List (Nat × StreamIn)
  /-- completed MMULs a joined command may name; 05 R146, R147 -/
  past : List PastMmul
  deriving DecidableEq, Repr

/-- `Me` at reset (INVENTORY.md, State). -/
def Me.reset : Me :=
  { cur := none,
    pre := none,
    run := none,
    done := none,
    streams := [],
    past := [] }

/-- The vector-engine command in progress (R142 to R155). -/
structure VeRun where
  /-- 256; 05 R142 -/
  entry : QEntry
  /-- 512; 05 R143 -/
  prm : BitVec 512
  /-- 33; 05 R147 -/
  joined : Option (BitVec 32)
  /-- rows done; 05 R147 -/
  rows : Nat
  /-- rows of the primary output, after OUT_T; 05 R145 -/
  out : List (List (BitVec 32))
  /-- 3 counts; 05 R148 -/
  counts : Counts
  /-- terms of the column reductions; 05 R150 -/
  red : List (List (BitVec 32))
  deriving DecidableEq, Repr

/-- `VeRun` at reset (INVENTORY.md, State). -/
def VeRun.reset : VeRun :=
  { entry := QEntry.reset,
    prm := 0,
    joined := none,
    rows := 0,
    out := [],
    counts := Counts.reset,
    red := [] }

/-- The vector engine of a cell. -/
structure Ve where
  /-- 16 x 16,448 bytes; 05 R154 -/
  tables : Vector (Option (List Byte)) 16
  /-- command in progress; 05 R142 -/
  run : Option VeRun
  /-- completed; 07 R197 -/
  done : Option (QEntry × Done)
  deriving DecidableEq, Repr

/-- `Ve` at reset (INVENTORY.md, State). -/
def Ve.reset : Ve :=
  { tables := Vector.replicate 16 none,
    run := none,
    done := none }

/-- The quantize engine of a cell: at most one command in progress (R199). -/
structure Engine where
  /-- completed; 07 R197 -/
  done : Option (QEntry × Done)
  deriving DecidableEq, Repr

/-- `Engine` at reset (INVENTORY.md, State). -/
def Engine.reset : Engine :=
  { done := none }

/-- The UPDATE in progress, between two of its tiles (R164, R384). -/
structure UeRun where
  /-- 256; 06 R159 -/
  entry : QEntry
  /-- 512; 06 R160 -/
  prm : BitVec 512
  /-- tiles of 512 elements done; 15 R384 -/
  tile : Nat
  /-- masters written so far; 06 R172 -/
  out : List (BitVec 16)
  /-- 3 counts; 06 R164 -/
  counts : Counts
  deriving DecidableEq, Repr

/-- `UeRun` at reset (INVENTORY.md, State). -/
def UeRun.reset : UeRun :=
  { entry := QEntry.reset,
    prm := 0,
    tile := 0,
    out := [],
    counts := Counts.reset }

/-- The update engine of a cell (R158). -/
structure Ue where
  /-- command waiting for the neighbour's buffer; 15 R388 -/
  run : Option UeRun
  /-- completed; 07 R197 -/
  done : Option (QEntry × Done)
  deriving DecidableEq, Repr

/-- `Ue` at reset (INVENTORY.md, State). -/
def Ue.reset : Ue :=
  { run := none,
    done := none }

/-- A data-mover command in progress (R263, R269, R272). -/
structure DmRun where
  /-- 256; 09 R263 -/
  entry : QEntry
  /-- ordered parts not yet applied; 09 R272 -/
  waiting : List Nat
  /-- failed parts; 09 R269 -/
  failed : List Nat
  /-- outcome, when reached; 09 R269 -/
  done : Option Done
  /-- 3 counts; 09 R272 -/
  counts : Counts
  /-- content hash of the bytes landed; 16 R402 -/
  landed : BitVec 64
  /-- bytes landed; 16 R403 -/
  landLen : Nat
  /-- bytes landed by part, of an ordered add with parts waiting; 16 R402 -/
  pieces : List (Nat × List Byte)
  deriving DecidableEq, Repr

/-- `DmRun` at reset (INVENTORY.md, State). -/
def DmRun.reset : DmRun :=
  { entry := QEntry.reset,
    waiting := [],
    failed := [],
    done := none,
    counts := Counts.reset,
    landed := 0,
    landLen := 0,
    pieces := [] }

/-- A sampled tile awaiting recomputation in the neighbour's buffer (R384 to R388). -/
structure Sample where
  /-- 3; 15 R384 -/
  queue : Fin 5
  /-- 32; 15 R386 -/
  seqNo : BitVec 32
  /-- 256, the command; 15 R385 -/
  word : BitVec 256
  /-- 512, its parameter record; 15 R385 -/
  prm : BitVec 512
  /-- row, or number of the tile of 512 elements; 15 R384 -/
  tile : Nat
  /-- the inputs as the engine read them; 15 R385 -/
  ins : List (List (BitVec 32))
  /-- 64; 15 R385 -/
  hash : BitVec 64
  deriving DecidableEq, Repr

/-- `Sample` at reset (INVENTORY.md, State). -/
def Sample.reset : Sample :=
  { queue := 0,
    seqNo := 0,
    word := 0,
    prm := 0,
    tile := 0,
    ins := [],
    hash := 0 }

/-- A command that has completed while provisional: its record waits until it is committed or squashed (R197, R206, R210). -/
structure HeldDone where
  /-- 3; 07 R197 -/
  queue : Nat
  /-- 07 R194 -/
  entry : QEntry
  /-- 07 R197 -/
  done : Done
  /-- 64, content hash of the bytes it landed; 09 R270 -/
  hash : BitVec 64
  /-- bytes it landed; 09 R270 -/
  len : Nat
  deriving DecidableEq, Repr

/-- `HeldDone` at reset (INVENTORY.md, State). -/
def HeldDone.reset : HeldDone :=
  { queue := 0,
    entry := QEntry.reset,
    done := Done.reset,
    hash := 0,
    len := 0 }

/-- One physical cell (R19, R184, R194). -/
structure Cell where
  /-- R184; 07 R184 -/
  core : Core
  /-- 5 x 512 commands; 07 R194 -/
  queues : Vector (List QEntry) 5
  /-- 04 R99 -/
  me : Me
  /-- 05 R138 -/
  ve : Ve
  /-- 07 R195 -/
  qe : Engine
  /-- 06 R158 -/
  ue : Ue
  /-- at most 16; 07 R199 -/
  dm : List DmRun
  /-- ring of 1,024 x 256; 07 R198 -/
  recs : List (BitVec 256)
  /-- 256; 07 R198 OD 0x6041 -/
  firstFault : BitVec 256
  /-- 6; 02 R53 -/
  framePos : Fin 64
  /-- 7; 02 R61 -/
  k : Nat
  /-- 7 and 64, the effective value at the cell's last slot and the interval count then; 02 R62 -/
  kSeen : Option (Nat × BitVec 64)
  /-- 8; 02 R59 -/
  guard : BitVec 8
  /-- bytes; 07 R207, 08 R417 -/
  provBase : Nat
  /-- bytes; 07 R207, 08 R417 -/
  provSize : Nat
  /-- 64; 09 R250 OD 0x4013 -/
  corr : BitVec 64
  /-- next word; 09 R245 -/
  scrubPos : Nat
  /-- tile count; 15 R384 -/
  tiles : Nat
  /-- at most 64; 15 R388 -/
  samples : List Sample
  /-- commands of which two hashes have differed; 15 R386 -/
  dupBad : List (Fin 5 × BitVec 32)
  /-- commands that have completed while provisional, their records not yet written; 07 R206, R209, R210 -/
  heldDone : List HeldDone
  /-- 131,072 x 128; 16 R407 -/
  trace : List (BitVec 128)
  /-- 1; 16 R407 -/
  ovf : Bool
  /-- 7; 10 R300 -/
  rposts : Nat
  /-- 1; 13 R361 -/
  stopped : Bool
  deriving DecidableEq, Repr

/-- `Cell` at reset (INVENTORY.md, State). -/
def Cell.reset : Cell :=
  { core := Core.reset,
    queues := Vector.replicate 5 [],
    me := Me.reset,
    ve := Ve.reset,
    qe := Engine.reset,
    ue := Ue.reset,
    dm := [],
    recs := [],
    firstFault := 0,
    framePos := 0,
    k := 64,
    kSeen := none,
    guard := 0,
    provBase := 0,
    provSize := 0,
    corr := 0,
    scrubPos := 0,
    tiles := 0,
    samples := [],
    dupBad := [],
    heldDone := [],
    trace := [],
    ovf := false,
    rposts := 0,
    stopped := false }

/-- A tensor declaration of the loaded module (R221). -/
structure TensorDecl where
  /-- 24; 08 R221 -/
  tid : BitVec 24
  /-- 32; 08 R221 -/
  fmt : BitVec 32
  /-- 4; 08 R221 -/
  kind : BitVec 4
  /-- 1; 08 R221 -/
  persist : Bool
  /-- 1; 08 R221 -/
  slotted : Bool
  /-- 40; 08 R221 -/
  addr : Nat
  /-- 40; 08 R221 -/
  nbytes : Nat
  /-- 32; 08 R221 -/
  kdim : Nat
  /-- 32; 08 R221 -/
  odim : Nat
  deriving DecidableEq, Repr

/-- `TensorDecl` at reset (INVENTORY.md, State). -/
def TensorDecl.reset : TensorDecl :=
  { tid := 0,
    fmt := 0,
    kind := 0,
    persist := false,
    slotted := false,
    addr := 0,
    nbytes := 0,
    kdim := 0,
    odim := 0 }

/-- A channel declaration of the loaded module (R222), with the event counter translation assigned. -/
structure ChanDecl where
  /-- 5; 08 R222 -/
  prod : Nat
  /-- 5; 08 R222 -/
  cons : Nat
  /-- 5; 08 R222 -/
  chan : Nat
  /-- bytes; 08 R222 -/
  dstOff : Nat
  /-- bytes; 08 R222 -/
  dstLen : Nat
  /-- 5; 08 R231 -/
  ctr : Option Nat
  /-- address; 08 R232 -/
  image : Option Nat
  deriving DecidableEq, Repr

/-- `ChanDecl` at reset (INVENTORY.md, State). -/
def ChanDecl.reset : ChanDecl :=
  { prod := 0,
    cons := 0,
    chan := 0,
    dstOff := 0,
    dstLen := 0,
    ctr := none,
    image := none }

/-- The loaded and translated module (R217 to R235). -/
structure Module where
  /-- 16; 08 R217 -/
  level : BitVec 16
  /-- 6; 08 R217 -/
  nLogical : Nat
  /-- 3; 08 R217 -/
  nSlots : Nat
  /-- 1; 08 R217 -/
  unord : Bool
  /-- bytes; 08 R217 -/
  foot : Nat
  /-- R221; 08 R221 -/
  tensors : List TensorDecl
  /-- R222; 08 R222 -/
  chans : List ChanDecl
  /-- R191; 07 R191 -/
  patches : List (List PatchEntry)
  /-- 16; 08 R217 -/
  nCommit : Nat
  /-- physical cell of each logical cell; 08 R230 -/
  hosts : List Nat
  /-- per present cell, the index after each MARK; 08 R231, R239 -/
  resume : List (List Nat)
  /-- lowest translator image address; 08 R232 -/
  imageTop : Nat
  /-- per present cell: start, length and logical cell of each stretch of program-body code that pushes; 08 R231 -/
  bodies : List (List (Nat × Nat × Nat))
  /-- per present cell and template: logical cell and channel of its arrivals; 08 R231, 16 R403 -/
  tmplChans : List (List (Option (Nat × Nat)))
  deriving DecidableEq, Repr

/-- `Module` at reset (INVENTORY.md, State). -/
def Module.reset : Module :=
  { level := 0,
    nLogical := 0,
    nSlots := 0,
    unord := false,
    foot := 0,
    tensors := [],
    chans := [],
    patches := [],
    nCommit := 0,
    hosts := [],
    resume := [],
    imageTop := 0,
    bodies := [],
    tmplChans := [] }

/-- An arrival entry (R403). -/
structure Arrival where
  /-- 8; 16 R403 -/
  lcell : BitVec 8
  /-- 8; 16 R403 -/
  chan : BitVec 8
  /-- 64; 16 R403 -/
  index : BitVec 64
  /-- 64; 16 R403 -/
  hash : BitVec 64
  /-- 64; 16 R403 -/
  len : BitVec 64
  deriving DecidableEq, Repr

/-- `Arrival` at reset (INVENTORY.md, State). -/
def Arrival.reset : Arrival :=
  { lcell := 0,
    chan := 0,
    index := 0,
    hash := 0,
    len := 0 }

/-- Digest state of a partition: what a load made effective, and the running digest (R403 to R411). -/
structure Det where
  /-- 1; 16 R406 -/
  prov : Bool
  /-- 32; 16 R406, R411 -/
  cup : BitVec 32
  /-- 3; 16 R406 -/
  caps : Nat
  /-- 256; 16 R403 -/
  run : BitVec 256
  /-- R403; 16 R403 -/
  arrivals : List Arrival
  /-- R408 order 9; 16 R408 -/
  stepArr : List Arrival
  /-- 32 x 32 counts; 16 R403, R237 order 4 -/
  counts : List (Nat × BitVec 64)
  /-- instances written; 16 R403 -/
  touched : List Nat
  /-- hash of each instance; 16 R403 -/
  hashes : List (Nat × BitVec 64)
  /-- 32 x 64; 16 R407 -/
  ta : Vector (BitVec 64) 32
  /-- 32 x 32; 16 R407 -/
  ord : Vector Nat 32
  /-- 256; 16 R403 -/
  d : BitVec 256
  /-- 2, the capsule slot that the replay in progress fills; 16 R408 -/
  cap : Option Nat
  deriving DecidableEq, Repr

/-- `Det` at reset (INVENTORY.md, State). -/
def Det.reset : Det :=
  { prov := false,
    cup := 0,
    caps := 0,
    run := 0,
    arrivals := [],
    stepArr := [],
    counts := [],
    touched := [],
    hashes := [],
    ta := Vector.replicate 32 0,
    ord := Vector.replicate 32 0,
    d := 0,
    cap := none }

/-- Cupping state of a partition (R411 to R415). -/
structure Cup where
  /-- 8; 16 R411 OD 0x9030:02 -/
  st : BitVec 8
  /-- 1+64; 16 R412 -/
  point : Option (BitVec 64)
  /-- 64; 16 R412 -/
  seen : BitVec 64
  /-- latest points' frames; 16 R413 -/
  frames : List (BitVec 64 × List Byte)
  /-- a peer DIGEST for a point not yet reached; 16 R413 -/
  early : Option (BitVec 64 × List Byte)
  deriving DecidableEq, Repr

/-- `Cup` at reset (INVENTORY.md, State). -/
def Cup.reset : Cup :=
  { st := 0,
    point := none,
    seen := 0,
    frames := [],
    early := none }

/-- A step replay in progress (R409). -/
structure StepRep where
  /-- 2; 16 R409 -/
  slot : Nat
  /-- 1; 16 R409 -/
  check : Bool
  /-- 1; 16 R409 -/
  hashing : Bool
  /-- 1; 16 R409 -/
  diff : Bool
  /-- the capsule's arrival entries; 16 R409 order 5 -/
  expect : List Arrival
  deriving DecidableEq, Repr

/-- `StepRep` at reset (INVENTORY.md, State). -/
def StepRep.reset : StepRep :=
  { slot := 0,
    check := false,
    hashing := false,
    diff := false,
    expect := [] }

/-- An open ordered tree at a stack (R272, R274). -/
structure OpenTree where
  /-- 5; 09 R272 -/
  stack : Nat
  /-- 16; 09 R272 -/
  tree : BitVec 16
  /-- 16; 09 R272 -/
  next : Nat
  /-- 1; 09 R272 -/
  abandoned : Bool
  deriving DecidableEq, Repr

/-- `OpenTree` at reset (INVENTORY.md, State). -/
def OpenTree.reset : OpenTree :=
  { stack := 0,
    tree := 0,
    next := 0,
    abandoned := false }

/-- A posted receive descriptor (R299). -/
structure RecvPost where
  /-- 256; 10 R297 -/
  desc : BitVec 256
  /-- the posting cell (RPOST); 10 R300 -/
  cell : Option Nat
  /-- the session of the host; 10 R298 -/
  host : Option (BitVec 16)
  /-- 1; 10 R299 -/
  put : Bool
  /-- 2; 10 R298 -/
  engine : Nat
  /-- 1, the port its host is at; 10 R299 -/
  port : Nat
  deriving DecidableEq, Repr

/-- `RecvPost` at reset (INVENTORY.md, State). -/
def RecvPost.reset : RecvPost :=
  { desc := 0,
    cell := none,
    host := none,
    put := false,
    engine := 0,
    port := 0 }

/-- A descriptor in a paced queue (R203). -/
structure PacedDesc where
  /-- 256; 10 R297 -/
  desc : BitVec 256
  /-- 16; 10 R298 -/
  session : BitVec 16
  /-- 1, the port its host is at; 10 R299 -/
  port : Nat
  /-- 1; started, not yet retired; 07 R203 -/
  taken : Bool
  deriving DecidableEq, Repr

/-- `PacedDesc` at reset (INVENTORY.md, State). -/
def PacedDesc.reset : PacedDesc :=
  { desc := 0,
    session := 0,
    port := 0,
    taken := false }

/-- A collective or barrier in progress at a member (R300 to R305). -/
structure Coll where
  /-- 4; 10 R301 -/
  group : Nat
  /-- 32; 10 R301 -/
  inst : BitVec 32
  /-- 6; 10 R300 -/
  cell : Nat
  /-- 32; 10 R300 -/
  seqNo : BitVec 32
  /-- 1; 10 R300 -/
  barrier : Bool
  /-- 4; 10 R300 -/
  cop : BitVec 4
  /-- 1; 10 R300 -/
  rtype : Bool
  /-- 2; 10 R300 -/
  cls : BitVec 2
  /-- 32; 10 R303 -/
  len : Nat
  /-- 40; 10 R300 -/
  src : Nat
  /-- 40; 10 R300 -/
  dst : Nat
  /-- 40; 10 R300 -/
  stage : Nat
  /-- 12; 10 R300 -/
  root : Nat
  /-- segments whose partial has been formed here; 10 R304 -/
  partSegs : List Nat
  /-- segments whose result is in staging; 10 R304 -/
  haveSegs : List Nat
  /-- 1; 10 R305 -/
  ready : Bool
  /-- members whose READY the coordinator holds; 10 R305 -/
  readyFrom : List Nat
  /-- 1; 10 R305 -/
  aborted : Bool
  /-- 2; 10 R305 -/
  decided : Option Bool
  deriving DecidableEq, Repr

/-- `Coll` at reset (INVENTORY.md, State). -/
def Coll.reset : Coll :=
  { group := 0,
    inst := 0,
    cell := 0,
    seqNo := 0,
    barrier := false,
    cop := 0,
    rtype := false,
    cls := 0,
    len := 0,
    src := 0,
    dst := 0,
    stage := 0,
    root := 0,
    partSegs := [],
    haveSegs := [],
    ready := false,
    readyFrom := [],
    aborted := false,
    decided := none }

/-- One partition (R351). -/
structure Part where
  /-- 8; 11 R331 OD 0x2030 -/
  st : BitVec 8
  /-- 8; 11 R330 -/
  resetCause : BitVec 8
  /-- the definition to take effect; 13 R355 -/
  nextDef : Option (BitVec 512)
  /-- the loaded module; 08 R236 -/
  mod : Option Module
  /-- 8; 08 R235 OD 0x6010:02 -/
  loadSt : BitVec 8
  /-- 8; 08 R235 OD 0x6010:03 -/
  loadCode : BitVec 8
  /-- 64; 08 R235 OD 0x6010:01 -/
  loadAddr : BitVec 64
  /-- 256; 08 R235 OD 0x6010:04 -/
  modDigest : BitVec 256
  /-- 8; 08 R233 OD 0x6010:06 -/
  reason : BitVec 8
  /-- 8; 07 R193 OD 0x6050:02 -/
  rst : BitVec 8
  /-- 64; 07 R193 OD 0x6050:03 -/
  replays : BitVec 64
  /-- 16; 07 R192 -/
  pset : BitVec 16
  /-- 8 x 64; 07 R192 -/
  args : Vector (BitVec 64) 8
  /-- 16; 07 R214 -/
  commitN : Nat
  /-- 1; 07 R214, 16 R413 (cores hold at a commit point) -/
  atPoint : Bool
  /-- 1+64; 08 R238 -/
  saveReq : Option (BitVec 64)
  /-- 1; 08 R238 -/
  saving : Bool
  /-- 1+128; 08 R239 -/
  restoring : Option (BitVec 128)
  /-- 8; 08 R238 OD 0x6020:04 -/
  ctxStatus : BitVec 8
  /-- 64; 08 R238 OD 0x6020:01 -/
  saveReg : BitVec 64
  /-- 128; 08 R239 OD 0x6020:02 -/
  restReg : BitVec 128
  /-- 576; 07 R192 OD 0x6050:01 -/
  replayReg : BitVec 576
  /-- 128; 06 R173 OD 0x9010:01 -/
  seed : BitVec 128
  /-- 32; 03 R70 OD 0xA010:01 -/
  fmt : BitVec 32
  /-- 64; 11 R331 OD 0xA020:01 -/
  cSat : BitVec 64
  /-- 64; 11 R331 OD 0xA020:02 -/
  cFlu : BitVec 64
  /-- 64; 11 R331 OD 0xA020:03 -/
  cAwn : BitVec 64
  /-- 64; 11 R331 OD 0xA020:04 -/
  cSquash : BitVec 64
  /-- 64; 11 R331 OD 0xA020:05 -/
  cFall : BitVec 64
  /-- 64; 11 R331 OD 0xA020:06 -/
  cBad : BitVec 64
  /-- 64 x 128; 11 R330 OD 0x2060:01 -/
  notices : List (BitVec 128)
  /-- 64; 09 R250 OD 0x4030:01 -/
  mrAddr : BitVec 64
  /-- 8; 09 R250 OD 0x4030:02 -/
  mrLoc : BitVec 8
  /-- 8; 09 R250 OD 0x4030:03 -/
  mrStatus : BitVec 8
  /-- 32; 09 R250 OD 0x4030:04 -/
  mrCount : BitVec 32
  /-- 32; 09 R250 OD 0x4030:05 -/
  rtCount : BitVec 32
  /-- 16; 09 R250 OD 0x4030:06 -/
  rtLast : BitVec 16
  /-- 16 x 16,384 bytes; 10 R301 OD 0x5600 -/
  groups : Vector (List Byte) 16
  /-- 16 x 8; 10 R280 OD 0x5610 -/
  decision : Vector (BitVec 8) 16
  /-- 16 x 32; 10 R301 -/
  inst : Vector (BitVec 32) 16
  /-- 16 x 32, barriers issued by group; 10 R300 -/
  binst : Vector (BitVec 32) 16
  /-- 32; 10 R280 OD 0x5410:01 -/
  credViol : BitVec 32
  /-- 32; 10 R280 OD 0x5410:02 -/
  badDesc : BitVec 32
  /-- 8; 11 R331 OD 0x7010:01 -/
  sampleV : BitVec 8
  /-- 1; 15 R383 -/
  rsdOff : Bool
  /-- 1; 11 R331 OD 0x9020:01 -/
  provOn : Bool
  /-- 32; 11 R331 OD 0x9030:01 -/
  cupCfg : BitVec 32
  /-- 8; 11 R331 OD 0x9040:01 -/
  capsN : BitVec 8
  /-- 64; 11 R331 OD 0x9040:02 -/
  stepReg : BitVec 64
  /-- 8; 11 R331 OD 0x9040:03 -/
  stepStatus : BitVec 8
  /-- R403; 16 R403 -/
  det : Det
  /-- R411; 16 R411 -/
  cup : Cup
  /-- R409; 16 R409 -/
  step : Option StepRep
  /-- 64 per stack; 09 R274 -/
  trees : List OpenTree
  /-- 1,024, 1,024 and 256; 07 R203 -/
  paced : Vector (List PacedDesc) 3
  /-- posted descriptors; 10 R299 -/
  recvs : List RecvPost
  /-- in progress; 10 R301 -/
  colls : List Coll
  /-- collective and barrier frames for an instance this member has not issued yet, with their port; 10 R301, R305 -/
  early : List (Nat × VrtFrame)
  deriving DecidableEq, Repr

/-- `Part` at reset (INVENTORY.md, State). -/
def Part.reset : Part :=
  { st := 0,
    resetCause := 0,
    nextDef := none,
    mod := none,
    loadSt := 0,
    loadCode := 0,
    loadAddr := 0,
    modDigest := 0,
    reason := 0,
    rst := 0,
    replays := 0,
    pset := 0,
    args := Vector.replicate 8 0,
    commitN := 0,
    atPoint := false,
    saveReq := none,
    saving := false,
    restoring := none,
    ctxStatus := 0,
    saveReg := 0,
    restReg := 0,
    replayReg := 0,
    seed := 0,
    fmt := 0x82A09000,
    cSat := 0,
    cFlu := 0,
    cAwn := 0,
    cSquash := 0,
    cFall := 0,
    cBad := 0,
    notices := [],
    mrAddr := 0,
    mrLoc := 0xFF,
    mrStatus := 0,
    mrCount := 0,
    rtCount := 0,
    rtLast := 0xFFFF,
    groups := Vector.replicate 16 [],
    decision := Vector.replicate 16 1,
    inst := Vector.replicate 16 0,
    binst := Vector.replicate 16 0,
    credViol := 0,
    badDesc := 0,
    sampleV := 5,
    rsdOff := false,
    provOn := false,
    cupCfg := 0,
    capsN := 0,
    stepReg := 0,
    stepStatus := 0,
    det := Det.reset,
    cup := Cup.reset,
    step := none,
    trees := [],
    paced := Vector.replicate 3 [],
    recvs := [],
    colls := [],
    early := [] }

/-- Partition 0, which is always defined (13 R351): OD 0x2030:01 reads 1. -/
def Part.reset0 : Part := { Part.reset with st := 1 }

/-- One stack channel (R257 to R259). -/
structure Chan where
  /-- 2; 09 R258 -/
  phase : RetrainPhase
  /-- 1; 09 R259 -/
  lockout : Bool
  /-- 0-8 refreshes per bank; 09 R258 -/
  postponed : Nat
  /-- calibration in force (a version number); 09 R258, R259 -/
  cal : Nat
  deriving DecidableEq, Repr

/-- `Chan` at reset (INVENTORY.md, State). -/
def Chan.reset : Chan :=
  { phase := .idle,
    lockout := false,
    postponed := 0,
    cal := 0 }

/-- One memory stack and its controller (R19, R249, R255, R261). -/
structure Stack where
  /-- 32 x 64; 09 R249 OD 0x4010 -/
  log : List (BitVec 64)
  /-- 64; 09 R249 -/
  overflow : BitVec 64
  /-- 64; 09 R250 OD 0x4011 -/
  corr : BitVec 64
  /-- 16; 09 R250 OD 0x4040 -/
  rate : BitVec 16
  /-- granule; 09 R255 -/
  scrubPos : Nat
  /-- granule of the steward region (stacks 0 and 16); 09 R255 -/
  stewPos : Nat
  /-- 384; 09 R261 OD 0x4050 -/
  flip : BitVec 384
  /-- 32; 09 R250 OD 0x4060 -/
  retrains : BitVec 32
  /-- 32; 09 R250 OD 0x4061 -/
  timeouts : BitVec 32
  /-- 16; 09 R257 -/
  chans : Vector Chan 16
  /-- repairs in force; 09 R253 -/
  applied : List (BitVec 64)
  /-- words corrected in this boot; 15 R390 -/
  words : List Nat
  deriving DecidableEq, Repr

/-- `Stack` at reset (INVENTORY.md, State). -/
def Stack.reset : Stack :=
  { log := [],
    overflow := 0,
    corr := 0,
    rate := 64,
    scrubPos := 0,
    stewPos := 0,
    flip := 0,
    retrains := 0,
    timeouts := 0,
    chans := Vector.replicate 16 Chan.reset,
    applied := [],
    words := [] }

/-- Receive-pool use of one port by class (R279, R287, R356). -/
structure PortRx where
  /-- 32; 10 R287 -/
  granted : BitVec 32
  /-- buffers freed and unreported; 10 R287 -/
  unreported : Nat
  /-- buffers held; 10 R287 -/
  inUse : Nat
  /-- frames received in the class; 10 R287 -/
  recvd : BitVec 32
  deriving DecidableEq, Repr

/-- `PortRx` at reset (INVENTORY.md, State). -/
def PortRx.reset : PortRx :=
  { granted := 0,
    unreported := 0,
    inUse := 0,
    recvd := 0 }

/-- The arbitration of one class at a port (R357): whether the last frame was a forwarded one, the partition being served and its frames left. -/
structure ClassTurn where
  /-- 1; 13 R357 -/
  fwd : Bool
  /-- 3; 13 R357 -/
  part : Nat
  /-- 8; 13 R357 -/
  left : Nat
  deriving DecidableEq, Repr

/-- `ClassTurn` at reset (INVENTORY.md, State). -/
def ClassTurn.reset : ClassTurn :=
  { fwd := false,
    part := 0,
    left := 0 }

/-- A PROBE that awaits its reply (R293): its number, the interval count when it was sent, whether it is the second. -/
structure HopProbe where
  /-- 32; 10 R293 -/
  num : BitVec 32
  /-- 64; 10 R293 -/
  sentAt : BitVec 64
  /-- 1; 10 R293 -/
  again : Bool
  deriving DecidableEq, Repr

/-- `HopProbe` at reset (INVENTORY.md, State). -/
def HopProbe.reset : HopProbe :=
  { num := 0,
    sentAt := 0,
    again := false }

/-- One ring port (R275 to R296). -/
structure Port where
  /-- 8; 10 R277 OD 0x5p00:02 -/
  st : BitVec 8
  /-- 8; 10 R278 OD 0x5p00:03 -/
  good : BitVec 8
  /-- in force since the last restart; 10 R280 -/
  cfg : PortCfg
  /-- in force since the last restart; 10 R280 -/
  classes : ClassCfg
  /-- the next restart is at 8 lanes; 10 R278 -/
  full : Bool
  /-- 32; 10 R280 OD 0x5p10:06 -/
  measured : BitVec 32
  /-- 32; 10 R280 OD 0x5p20:01 -/
  hopTimeouts : BitVec 32
  /-- 64; 10 R280 OD 0x5p20:02 -/
  fecCorr : BitVec 64
  /-- 64; 10 R280 OD 0x5p20:03 -/
  fecUncorr : BitVec 64
  /-- 64; 10 R280 OD 0x5p20:04 -/
  replays : BitVec 64
  /-- 32; 10 R280 OD 0x5p20:05 -/
  restarts : BitVec 32
  /-- 32; 10 R280 OD 0x5p20:06 -/
  beyond : BitVec 32
  /-- 32; 10 R280 OD 0x5p20:07 -/
  c0drops : BitVec 32
  /-- 32; 10 R280 OD 0x5p20:08 -/
  hdrDrops : BitVec 32
  /-- 3 x 32, latest count granted by the peer; 10 R287 -/
  credit : Vector (BitVec 32) 3
  /-- 3 x 32, frames sent; 10 R287 -/
  sent : Vector (BitVec 32) 3
  /-- 3; 10 R287 -/
  rx : Vector PortRx 3
  /-- buffers held by (class, partition); 13 R356 -/
  held : List (Nat × Nat)
  /-- frames of classes 1-3 waiting; 10 R292, R357 -/
  txq : List VrtFrame
  /-- 8 MiB; 10 R294 -/
  replayBuf : List VrtFrame
  /-- frames of the replay buffer sent since the port came up; 10 R294 -/
  replayAt : Nat
  /-- a port that came up with frames to replay awaits the first LACK; 10 R294 -/
  awaitLack : Bool
  /-- bytes in the 2 MiB of class 0 buffers; 10 R286 -/
  c0held : Nat
  /-- 32; 10 R294 -/
  hseqTx : BitVec 32
  /-- 32; 10 R294 -/
  hseqRx : BitVec 32
  /-- probes awaiting a reply on the hop, oldest first; 10 R293 -/
  probes : List HopProbe
  /-- number of the next probe; 10 R293 -/
  probeNum : BitVec 32
  /-- a probe has been answered since the port came up; 10 R307 -/
  probed : Bool
  /-- classes paused by the peer's PFC; 10 R288 -/
  paused : BitVec 4
  /-- classes this port has paused; 10 R288 -/
  pfcOn : BitVec 4
  /-- 1; 10 R308 -/
  peerLeft : Bool
  /-- class served last, 0-2 for classes 1-3; 13 R357; 13 R357 -/
  lastCls : Nat
  /-- by class; 13 R357 -/
  turns : Vector ClassTurn 3
  deriving DecidableEq, Repr

/-- `Port` at reset (INVENTORY.md, State). -/
def Port.reset : Port :=
  { st := 0,
    good := 0,
    cfg := PortCfg.reset,
    classes := ClassCfg.reset,
    full := true,
    measured := 0,
    hopTimeouts := 0,
    fecCorr := 0,
    fecUncorr := 0,
    replays := 0,
    restarts := 0,
    beyond := 0,
    c0drops := 0,
    hdrDrops := 0,
    credit := Vector.replicate 3 0,
    sent := Vector.replicate 3 0,
    rx := Vector.replicate 3 PortRx.reset,
    held := [],
    txq := [],
    replayBuf := [],
    replayAt := 0,
    awaitLack := false,
    c0held := 0,
    hseqTx := 0,
    hseqRx := 0,
    probes := [],
    probeNum := 0,
    probed := false,
    paused := 0,
    pfcOn := 0,
    peerLeft := false,
    lastCls := 0,
    turns := Vector.replicate 3 ClassTurn.reset }

/-- An outgoing stream transfer (R296, R299). -/
structure TxXfer where
  /-- 32; 10 R283 -/
  xid : BitVec 32
  /-- 3; 10 R299 -/
  part : Nat
  /-- 1; 10 R297 -/
  port : Nat
  /-- 2; 10 R297 -/
  cls : BitVec 2
  /-- 16; 10 R297 -/
  dstRing : BitVec 16
  /-- 3; 10 R297 -/
  dstPart : BitVec 3
  /-- 8; 10 R297 -/
  stream : BitVec 8
  /-- device ranges of the source bytes; 10 R296 -/
  srcs : List (Nat × Nat)
  /-- 32; 10 R299 -/
  len : Nat
  /-- times each frame has been sent; 10 R296 -/
  sends : List Nat
  /-- frames covered by a SACK; 10 R296 -/
  acked : List Bool
  /-- the command or descriptor; 10 R299, R300 -/
  origin : TxOrigin
  /-- content hash of the bytes sent; 10 R297, R299 -/
  hash : BitVec 64
  deriving DecidableEq, Repr

/-- `TxXfer` at reset (INVENTORY.md, State). -/
def TxXfer.reset : TxXfer :=
  { xid := 0,
    part := 0,
    port := 0,
    cls := 0,
    dstRing := 0,
    dstPart := 0,
    stream := 0,
    srcs := [],
    len := 0,
    sends := [],
    acked := [],
    origin := .none,
    hash := 0 }

/-- An incoming stream transfer (R296, R299). -/
structure RxXfer where
  /-- 16; 10 R297 -/
  srcRing : BitVec 16
  /-- 3; 10 R297 -/
  srcPart : BitVec 3
  /-- 3; 10 R297 -/
  part : Nat
  /-- 8; 10 R297 -/
  stream : BitVec 8
  /-- 32; 10 R283 -/
  xid : BitVec 32
  /-- 1; 10 R281 -/
  port : Nat
  /-- 2; 10 R283 -/
  cls : BitVec 2
  /-- 32; 10 R283 -/
  total : Nat
  /-- frames by ESEQ; 10 R296 -/
  frames : List (Nat × List Byte)
  /-- ESEQ of the LAST frame; 10 R283 -/
  last : Option Nat
  /-- frames since the last SACK; 10 R296 -/
  unacked : Nat
  /-- the matched descriptor; 10 R299 -/
  recv : Option RecvPost
  /-- 1; 10 R299 -/
  finished : Bool
  /-- status it ended with; 10 R299 -/
  status : BitVec 8
  deriving DecidableEq, Repr

/-- `RxXfer` at reset (INVENTORY.md, State). -/
def RxXfer.reset : RxXfer :=
  { srcRing := 0,
    srcPart := 0,
    part := 0,
    stream := 0,
    xid := 0,
    port := 0,
    cls := 0,
    total := 0,
    frames := [],
    last := none,
    unacked := 0,
    recv := none,
    finished := false,
    status := 0 }

/-- Transfers of the ring engines (R296, R299). -/
structure Ring where
  /-- outgoing; 10 R296 -/
  tx : List TxXfer
  /-- incoming; 10 R296 -/
  rx : List RxXfer
  /-- 32; 10 R283 -/
  nextXid : BitVec 32
  deriving DecidableEq, Repr

/-- `Ring` at reset (INVENTORY.md, State). -/
def Ring.reset : Ring :=
  { tx := [],
    rx := [],
    nextXid := 0 }

/-- A SEG_READ snapshot (R328). -/
structure Snapshot where
  /-- 16; 11 R328 -/
  index : BitVec 16
  /-- 8; 11 R328 -/
  sub : BitVec 8
  /-- at most 16,777,216; 11 R328 -/
  bytes : List Byte
  deriving DecidableEq, Repr

/-- `Snapshot` at reset (INVENTORY.md, State). -/
def Snapshot.reset : Snapshot :=
  { index := 0,
    sub := 0,
    bytes := [] }

/-- An EOP session (R318 to R323). -/
structure Session where
  /-- 16; 11 R319 -/
  num : BitVec 16
  /-- 1, opened on partition 0 while K_0 was all zero; 11 R317 -/
  unkeyed : Bool
  /-- 3; 11 R318 -/
  part : Fin 8
  /-- 1; 11 R318 -/
  isOpen : Bool
  /-- 16 bytes; 11 R318 -/
  nonceH : List Byte
  /-- 16 bytes; 11 R318 -/
  nonceD : List Byte
  /-- 256; 11 R318 -/
  key : BitVec 256
  /-- 32; 11 R323 -/
  lastSeq : BitVec 32
  /-- last accepted request; 11 R323 -/
  lastReq : List Byte
  /-- stored response; 11 R323 -/
  lastResp : Option EopOut
  /-- address and port of SESSION_PROVE; 11 R330 -/
  host : HostAddr
  /-- 128, the address of port M that SESSION_PROVE was sent to; 11 R310, R330 -/
  answers : BitVec 128
  /-- 32; 11 R330 -/
  noticeSeq : BitVec 32
  /-- notices awaiting acknowledgement, resends left; 11 R330 -/
  unacked : List (BitVec 32 × Nat × List Byte)
  /-- R328; 11 R328 -/
  snap : Option Snapshot
  /-- last accepted ESEQ; 10 R298 -/
  descSeq : Option (BitVec 32)
  deriving DecidableEq, Repr

/-- `Session` at reset (INVENTORY.md, State). -/
def Session.reset : Session :=
  { num := 0,
    unkeyed := false,
    part := 0,
    isOpen := false,
    nonceH := [],
    nonceD := [],
    key := 0,
    lastSeq := 0,
    lastReq := [],
    lastResp := none,
    host := HostAddr.zero,
    answers := 0,
    noticeSeq := 1,
    unacked := [],
    snap := none,
    descSeq := none }

/-- A segmented write in progress (R329). -/
structure SegXfer where
  /-- 16; 11 R329 -/
  index : BitVec 16
  /-- 8; 11 R329 -/
  sub : BitVec 8
  /-- 16; 11 R329 -/
  session : BitVec 16
  /-- 3; 11 R329 -/
  part : Fin 8
  /-- 32; 11 R329 -/
  total : Nat
  /-- bytes so far; 11 R329 -/
  data : List Byte
  deriving DecidableEq, Repr

/-- `SegXfer` at reset (INVENTORY.md, State). -/
def SegXfer.reset : SegXfer :=
  { index := 0,
    sub := 0,
    session := 0,
    part := 0,
    total := 0,
    data := [] }

/-- The EOP service of port M (R310 to R330). -/
structure Eop where
  /-- settings in force; 11 R311 -/
  cfg : PortMCfg
  /-- 32; 11 R331 OD 0x1020:01 -/
  discarded : BitVec 32
  /-- 32; 11 R331 OD 0x1020:02 -/
  badTag : BitVec 32
  /-- 32; 11 R331 OD 0x1020:03 -/
  overRate : BitVec 32
  /-- 32; 11 R331 OD 0x1020:04 -/
  badProof : BitVec 32
  /-- at most 32; 11 R318 -/
  sessions : List Session
  /-- 16; 11 R319 -/
  nextNum : BitVec 16
  /-- numbers waiting 60 s; 11 R319 -/
  quarantine : List (BitVec 16)
  /-- failed proofs by partition and time; 11 R318 -/
  fails : List (Nat × BitVec 64)
  /-- 8, bit p; 11 R318 -/
  lockout : BitVec 8
  /-- requests in the last 10 ms; 11 R315 -/
  times : List (BitVec 64)
  /-- one per entry; 11 R329 -/
  segs : List SegXfer
  /-- snapshot of requests without a session; 11 R326, R328 -/
  snap0 : Option Snapshot
  deriving DecidableEq, Repr

/-- `Eop` at reset (INVENTORY.md, State). -/
def Eop.reset : Eop :=
  { cfg := PortMCfg.reset,
    discarded := 0,
    badTag := 0,
    overRate := 0,
    badProof := 0,
    sessions := [],
    nextNum := 1,
    quarantine := [],
    fails := [],
    lockout := 0,
    times := [],
    segs := [],
    snap0 := none }

/-- The in-service tests and the firmware update (R340, R392, R393). -/
structure Test where
  /-- cell proof running; 15 R392 -/
  proof : Option (Fin 34)
  /-- channel test running; 15 R393 -/
  chan : Option (Nat × Nat)
  /-- 8; 12 R340 OD 0x8040:02 -/
  fwStatus : BitVec 8
  /-- verification running; 12 R340 -/
  fwBusy : Bool
  deriving DecidableEq, Repr

/-- `Test` at reset (INVENTORY.md, State). -/
def Test.reset : Test :=
  { proof := none,
    chan := none,
    fwStatus := 0,
    fwBusy := false }

/-- An attestation report slot (R332, R348). -/
structure AttSlot where
  /-- awaiting signature; 12 R348 -/
  waiting : Bool
  /-- 3,580 bytes; 12 R348 OD 0x8020 -/
  value : List Byte
  deriving DecidableEq, Repr

/-- `AttSlot` at reset (INVENTORY.md, State). -/
def AttSlot.reset : AttSlot :=
  { waiting := false,
    value := [] }

/-- Attestation (R332, R345 to R348). -/
structure Att where
  /-- 8; 11 R332 -/
  slots : Vector AttSlot 8
  /-- slots, oldest first; 11 R332 -/
  age : List Nat
  /-- slots awaiting signature; 12 R348 -/
  fifo : List Nat
  /-- next report number; 11 R332 -/
  number : BitVec 32
  /-- next leaf, 30; 12 R347 -/
  q : Nat
  /-- 31; 12 R347 -/
  lim : Nat
  /-- a signature; 12 R346, R347 -/
  topSig : List Byte
  /-- a valid state record was found; 12 R346 -/
  usable : Bool
  deriving DecidableEq, Repr

/-- `Att` at reset (INVENTORY.md, State). -/
def Att.reset : Att :=
  { slots := Vector.replicate 8 AttSlot.reset,
    age := [0, 1, 2, 3, 4, 5, 6, 7],
    fifo := [],
    number := 1,
    q := 0,
    lim := 0,
    topSig := [],
    usable := true }

/-- A PMBus transaction (R376). -/
structure PmTxn where
  /-- 1; 14 R376 -/
  rail : Fin 2
  /-- 8; 14 R376 -/
  cmd : BitVec 8
  /-- 16; 14 R376 -/
  data : BitVec 16
  /-- 3; 14 R377 -/
  tries : Nat
  /-- 1; 14 R377 -/
  retry : Bool
  /-- the voltage step it begins; 14 R378 -/
  step : Option StepKind
  deriving DecidableEq, Repr

/-- `PmTxn` at reset (INVENTORY.md, State). -/
def PmTxn.reset : PmTxn :=
  { rail := 0,
    cmd := 0,
    data := 0,
    tries := 0,
    retry := false,
    step := none }

/-- One VDD_CELL rail as the power manager drives it (R376 to R379). -/
structure Rail where
  /-- mV; 14 R378 -/
  target : Nat
  /-- mV, target before the step; 14 R379 -/
  prev : Nat
  /-- step in progress; 14 R378 -/
  step : Option StepKind
  /-- its write transaction has ended; 14 R378 -/
  sent : Bool
  /-- step to issue once a restore completes; 14 R379 -/
  next : Option StepKind
  /-- regulator-fault hold; 14 R377 -/
  hold : Bool
  /-- VOUT_MODE exponent; 14 R376 -/
  exp : BitVec 5
  /-- unsupported VOUT_MODE; 14 R377 -/
  noVout : Bool
  /-- clamp active; 14 R372 -/
  droop : Bool
  /-- detectors tripped; 14 R372 -/
  tripped : BitVec 16
  deriving DecidableEq, Repr

/-- `Rail` at reset (INVENTORY.md, State). -/
def Rail.reset : Rail :=
  { target := 750,
    prev := 750,
    step := none,
    sent := false,
    next := none,
    hold := false,
    exp := 0,
    noVout := false,
    droop := false,
    tripped := 0 }

/-- The power manager (R367 to R379). -/
structure Power where
  /-- n bins, 1/64 mJ; 14 R370 -/
  bins : List Int
  /-- 1/64 mJ; 14 R370 -/
  e : Int
  /-- index; 14 R370 -/
  oldest : Nat
  /-- 7; 14 R370 -/
  kCap : Nat
  /-- pl, pm, pf, pc_full of the latest 1 ms, W; 14 R368 -/
  est : Vector Nat 4
  /-- lowest state; 14 R374 -/
  lowest : Bool
  /-- return sequence running; 14 R375 -/
  returning : Bool
  /-- 2; 14 R376 -/
  rails : Vector Rail 2
  /-- transactions, the running one first; 14 R376 -/
  bus : List PmTxn
  /-- failed transactions, retried every 10 ms; 14 R377 -/
  retries : List PmTxn
  deriving DecidableEq, Repr

/-- `Power` at reset (INVENTORY.md, State). -/
def Power.reset : Power :=
  { bins := [],
    e := 0,
    oldest := 0,
    kCap := 64,
    est := Vector.replicate 4 0,
    lowest := false,
    returning := false,
    rails := Vector.replicate 2 Rail.reset,
    bus := [],
    retries := [] }

/-- The test access port (R47). -/
structure Jtag where
  /-- 8; 01 R47 -/
  ir : BitVec 8
  /-- pin; 01 R25, R47 -/
  trstN : Bool
  /-- 1; 01 R47 -/
  bypass : Bool
  /-- 32; 01 R47 -/
  idcode : BitVec 32
  /-- single-ended lands; 01 R47 -/
  chain : List Bool
  /-- values EXTEST drives; 01 R47 -/
  drive : Option (List Bool)
  /-- bits shifted out by the last instruction; 01 R47 -/
  tdo : List Bool
  deriving DecidableEq, Repr

/-- `Jtag` at reset (INVENTORY.md, State). -/
def Jtag.reset : Jtag :=
  { ir := 0x02,
    trstN := false,
    bypass := false,
    idcode := 0x1D04A4B3,
    chain := [false, false, false, false, false, false, false, false, false],
    drive := none,
    tdo := [] }

/-- Device-level state: power, pins, boot, by-pass (R25 to R47, R342, R396). -/
structure Dev where
  /-- rails in tolerance; 01 R32 -/
  powered : Bool
  /-- 8, rail outside its window; 01 R31 -/
  railBad : BitVec 8
  /-- 8, rail whose excursion has caused its device reset since PORST_N rose; 01 R31 -/
  actedRails : BitVec 8
  /-- pin; 01 R25, R33 -/
  porstN : Bool
  /-- REFCLK meets R36; 01 R36 -/
  refclkOk : Bool
  /-- the absence of REFCLK has caused its device reset since PORST_N rose; 01 R37 -/
  actedRef : Bool
  /-- pin; 01 R25 -/
  vrAlertN : Bool
  /-- trip latched; THERMTRIP_N low; 01 R45 -/
  thermLatched : Bool
  /-- trip not yet recorded; 01 R45 -/
  tripToRecord : Bool
  /-- in device reset, boot not begun; 01 R33 -/
  resetPending : Bool
  /-- 64; 02 R50 -/
  interval : BitVec 64
  /-- last boot order completed; 12 R342 -/
  bootOrder : Nat
  /-- 8; 11 R331 OD 0x1000:06 -/
  devState : BitVec 8
  /-- slot being booted; 12 R341 -/
  slot : Option (Fin 2)
  /-- 1+32, the rollback minimum being written; 12 R341, R350 -/
  minPending : Option (BitVec 32)
  /-- 8; 11 R331 OD 0x7030:01 -/
  huskCause : BitVec 8
  /-- 1, insertion follows order 12; 12 R344 -/
  autoInsert : Bool
  /-- commanded inserted; 01 R41 -/
  bypCmd : Bool
  /-- switch E-to-W sensed inserted; BYP_E_N; 01 R27 -/
  bypE : Bool
  /-- switch W-to-E sensed inserted; BYP_W_N; 01 R27 -/
  bypW : Bool
  /-- by-pass fault since device reset; 01 R41 -/
  bypFault : Bool
  /-- 8; 10 R280 OD 0x5000:05 -/
  ringState : BitVec 8
  /-- removal in progress; 10 R308 -/
  removing : Bool
  /-- the one-hour timer runs; 15 R396 -/
  hourArmed : Bool
  /-- ordinal of the latest event; 15 R389 -/
  evOrd : BitVec 16
  /-- 5 x 256; 12 R343 OD 0x8010 -/
  meas : Vector (BitVec 256) 5
  /-- 256; 12 R343 -/
  chain : BitVec 256
  /-- 34; 11 R331 OD 0x6000:02 -/
  fenced : BitVec 34
  /-- 32; 09 R250 OD 0x4000:01 -/
  inService : BitVec 32
  /-- lanes found good in loop-back; 12 R342 -/
  loopGood : Vector (BitVec 8) 2
  deriving DecidableEq, Repr

/-- `Dev` at reset (INVENTORY.md, State). -/
def Dev.reset : Dev :=
  { powered := true,
    railBad := 0,
    actedRails := 0,
    porstN := false,
    refclkOk := true,
    actedRef := false,
    vrAlertN := true,
    thermLatched := false,
    tripToRecord := false,
    resetPending := true,
    interval := 0,
    bootOrder := 0,
    devState := 0,
    slot := none,
    minPending := none,
    huskCause := 0,
    autoInsert := false,
    bypCmd := false,
    bypE := false,
    bypW := false,
    bypFault := false,
    ringState := 0,
    removing := false,
    hourArmed := false,
    evOrd := 0,
    meas := Vector.replicate 5 0,
    chain := 0,
    fenced := 0,
    inService := 0xFFFFFFFF,
    loopGood := Vector.replicate 2 0 }

/-- What the device has put on its outputs, oldest first (datagrams of port M, frames of the ring ports, PMBus writes). -/
structure Out where
  /-- datagrams; 11 R313 -/
  portM : List EopOut
  /-- frames by port; 10 R283 -/
  ring : List (Nat × VrtFrame)
  /-- PFC frames by port: priorities enabled, priorities paused; 10 R288 -/
  pfc : List (Nat × BitVec 8 × BitVec 8)
  /-- the bytes the master sends in each transaction; 14 R376 -/
  pmbus : List (List Byte)
  deriving DecidableEq, Repr

/-- `Out` at reset (INVENTORY.md, State). -/
def Out.reset : Out :=
  { portM := [],
    ring := [],
    pfc := [],
    pmbus := [] }

/-- The whole block. -/
structure State where
  /-- queue of commands (the model's); the model -/
  pending : List Instr
  /-- 00 R2 -/
  fuse : Fuse
  /-- 01 R19 -/
  nv : Nv
  /-- 01 R27 -/
  dev : Dev
  /-- 09 R241 -/
  mem : Memory
  /-- 34; 01 R19 -/
  cells : Vector Cell 34
  /-- 8; 13 R351 -/
  parts : Vector Part 8
  /-- 32; 01 R19 -/
  drams : Vector Stack 32
  /-- 2; 01 R19 -/
  ports : Vector Port 2
  /-- 10 R296 -/
  ring : Ring
  /-- 11 R313 -/
  eop : Eop
  /-- 15 R392 -/
  test : Test
  /-- 11 R332 -/
  att : Att
  /-- 14 R367 -/
  power : Power
  /-- 01 R47 -/
  jtag : Jtag
  /-- 11 R313 -/
  out : Out
  /-- the model's own field: the next free value; the model -/
  free : Nat
  deriving DecidableEq, Repr

/-- The device held in reset: rails up, PORST_N low, boot not begun (01 R33; log entry 10). -/
def State.reset : State :=
  { pending := [],
    fuse := Fuse.reset,
    nv := Nv.reset,
    dev := Dev.reset,
    mem := Memory.reset,
    cells := Vector.replicate 34 Cell.reset,
    parts := (Vector.replicate 8 Part.reset).set 0 Part.reset0,
    drams := Vector.replicate 32 Stack.reset,
    ports := Vector.replicate 2 Port.reset,
    ring := Ring.reset,
    eop := Eop.reset,
    test := Test.reset,
    att := Att.reset,
    power := Power.reset,
    jtag := Jtag.reset,
    out := Out.reset,
    free := 0 }

end Sys2Proof.Machine
end

