-- ==== Sys2Proof/Machine/Symbol.lean ====
section
/-! DEFINITION. The symbol code RS(36,32) over GF(2^8) (09 R246, R247). -/

set_option Elab.async false

namespace Sys2Proof.Machine

/-- Multiplication by α = 2 under the field polynomial 0x11D. -/
def gfDouble (a : Nat) : Nat := if a < 128 then 2 * a else (2 * a) ^^^ 0x11D

/-- Bits i and up of the second factor, n of them. -/
def gfMulAux : Nat → Nat → Nat → Nat
  | 0, _, _ => 0
  | n + 1, a, b => (if b % 2 = 1 then a else 0) ^^^ gfMulAux n (gfDouble a) (b / 2)

def gfMul (a b : Nat) : Nat := gfMulAux 8 a b

/-- α^n. -/
def gfPow : Nat → Nat
  | 0 => 1
  | n + 1 => gfDouble (gfPow n)

/-- One step of the division by g(x): the remainder x^3..x^0 with one more coefficient taken in. -/
def rsStep (r : List Nat) (d : Nat) : List Nat :=
  let q := r.headD 0 ^^^ d
  List.zipWith (· ^^^ ·) (r.drop 1 ++ [0]) [gfMul q 0x0F, gfMul q 0x36, gfMul q 0x78, gfMul q 0x40]

/-- The check bytes P0 to P3 of 32 data bytes. -/
def rsCheck (d : List Nat) : List Nat := d.foldl rsStep [0, 0, 0, 0]

/-- The codeword of 32 data bytes. -/
def rsEncode (d : List Nat) : List Nat := d ++ rsCheck d

/-- s[j] = sum over i of c[i] × α^(j (35 − i)), by Horner's rule from c[0]. -/
def rsSyndrome (j : Nat) (c : List Nat) : Nat := c.foldl (fun a x => gfMul a (gfPow j) ^^^ x) 0

/-- What a decode of a stored word finds (09 R247): no error, one corrected symbol (its index, the error value,
the corrected word), or an uncorrectable word. -/
inductive RsOut where
  | clean
  | corrected (sym err : Nat) (word : List Nat)
  | bad
  deriving DecidableEq, Repr

/-- The decode of 09 R247. -/
def rsDecode (c : List Nat) : RsOut :=
  let s0 := rsSyndrome 0 c
  let s1 := rsSyndrome 1 c
  let s2 := rsSyndrome 2 c
  let s3 := rsSyndrome 3 c
  if s0 = 0 ∧ s1 = 0 ∧ s2 = 0 ∧ s3 = 0 then .clean
  else if s0 ≠ 0 ∧ s1 ≠ 0 ∧ gfMul s1 s1 = gfMul s0 s2 ∧ gfMul s2 s2 = gfMul s1 s3 then
    match (List.range 36).find? fun p => gfMul s0 (gfPow p) = s1 with
    | some p => .corrected (35 - p) s0 (c.set (35 - p) (c.getD (35 - p) 0 ^^^ s0))
    | none => .bad
  else .bad

end Sys2Proof.Machine
end

