-- ==== Sys2Proof/Machine/Ops.lean ====
section
/-! DEFINITION. The named operations over the state: access by number, ownership, the fault history, notices
and the device reset. -/

set_option Elab.async false

namespace Sys2Proof.Machine

/-- An element by number. -/
def vget {α : Type} {n : Nat} (v : Vector α n) (i : Nat) (d : α) : α := if h : i < n then v[i] else d

/-- One element changed; a number out of range changes nothing. -/
def vmod {α : Type} {n : Nat} (v : Vector α n) (i : Nat) (f : α → α) : Vector α n :=
  if h : i < n then v.set i (f v[i]) else v

def State.cell (s : State) (n : Nat) : Cell := vget s.cells n Cell.reset
def State.part (s : State) (p : Nat) : Part := vget s.parts p Part.reset
def State.stack (s : State) (n : Nat) : Stack := vget s.drams n Stack.reset
def State.port (s : State) (n : Nat) : Port := vget s.ports n Port.reset

def State.onCell (s : State) (n : Nat) (f : Cell → Cell) : State := { s with cells := vmod s.cells n f }
def State.onPart (s : State) (p : Nat) (f : Part → Part) : State := { s with parts := vmod s.parts p f }
def State.onStack (s : State) (n : Nat) (f : Stack → Stack) : State := { s with drams := vmod s.drams n f }
def State.onPort (s : State) (n : Nat) (f : Port → Port) : State := { s with ports := vmod s.ports n f }
def State.onDev (s : State) (f : Dev → Dev) : State := { s with dev := f s.dev }
def State.onNv (s : State) (f : Nv → Nv) : State := { s with nv := f s.nv }
def State.onEop (s : State) (f : Eop → Eop) : State := { s with eop := f s.eop }
def State.onPower (s : State) (f : Power → Power) : State := { s with power := f s.power }
def State.onRing (s : State) (f : Ring → Ring) : State := { s with ring := f s.ring }
def State.onAtt (s : State) (f : Att → Att) : State := { s with att := f s.att }
def State.onTest (s : State) (f : Test → Test) : State := { s with test := f s.test }

/-- An update applied for each element of a list, in order. -/
def forEach {α : Type} (l : List α) (f : α → State → State) (s : State) : State :=
  l.foldl (fun t x => f x t) s

/-- The number of a ring port (10 R275). -/
def portNum : RingPort → Nat
  | .e => 0
  | .w => 1
/-- The number of a compute die. -/
def dieNum : Die → Nat
  | .n => 0
  | .s => 1

/-- The definition of a partition in force (13 R353). -/
def State.defOf (s : State) (p : Nat) : BitVec 512 := vget s.nv.defs p 0
/-- Owned cells, stacks, link-die buffer share and class weights of a definition (13 R353). -/
def defCells (d : BitVec 512) : BitVec 34 := BitVec.ofNat 34 (fld d 33 0)
def defStacks (d : BitVec 512) : BitVec 32 := BitVec.ofNat 32 (fld d 95 64)
def defLdb (d : BitVec 512) : Nat := fld d 103 96
def defWeight (d : BitVec 512) (cls : Nat) : Nat := fld d (103 + 8 * cls) (96 + 8 * cls)

/-- The value of OD 0x2010:(p + 1): the definition accepted, else the one in force (11 R327, 13 R355). -/
def State.defEntry (s : State) (p : Nat) : BitVec 512 := (s.part p).nextDef.getD (s.defOf p)
/-- A partition exists while its definition in OD 0x2010 is non-zero; partition 0 always (13 R352). -/
def State.defined (s : State) (p : Nat) : Bool := decide (p = 0) || decide (s.defEntry p ≠ 0)
/-- The partition that owns a cell, a stack. -/
def State.cellOwner (s : State) (c : Nat) : Option Nat :=
  (List.range 8).find? fun p => decide (c < 34) && flag (defCells (s.defOf p)) c
def State.stackOwner (s : State) (st : Nat) : Option Nat :=
  (List.range 8).find? fun p => decide (st < 32) && flag (defStacks (s.defOf p)) st
/-- The cells and stacks a partition owns, ascending. -/
def State.cellsOf (s : State) (p : Nat) : List Nat := bitList (defCells (s.defOf p))
def State.stacksOf (s : State) (p : Nat) : List Nat := bitList (defStacks (s.defOf p))
/-- A cell that is not fused off and not fenced (07 R215). -/
def State.present (s : State) (c : Nat) : Bool := flag s.fuse.enabled c && !flag s.dev.fenced c
/-- The present cells of a partition, in physical order (08 R230). -/
def State.liveCells (s : State) (p : Nat) : List Nat := (s.cellsOf p).filter s.present
/-- Base of a partition's share of the link-die buffers: the shares of the lower partitions stand below it,
from the area of the shares (10 R279; log entry 32). -/
def State.ldbBase (s : State) (p : Nat) : Nat :=
  sumN ((List.range p).map fun q => defLdb (s.defOf q)) * 2 ^ 20

/-- A partition that runs: defined and not stopped nor resetting (11 R331, 13 R361). -/
def State.running (s : State) (p : Nat) : Bool := decide ((s.part p).st = 1)

/-- The partition for which a cell's control core and engines work now: the device is ready, the cell is
present, its partition runs and the cell is not stopped. -/
def State.works (s : State) (c : Nat) : Option Nat :=
  if s.dev.devState = 1 ∧ s.present c = true ∧ (s.cell c).stopped = false then
    match s.cellOwner c with
    | some p => if s.running p then some p else none
    | none => none
  else none

/-- Saturating addition into a field. -/
def satAdd {n : Nat} (w : BitVec n) (k : Nat) : BitVec n := BitVec.ofNat n (min (w.toNat + k) (2 ^ n - 1))

/-- Number of set bits. -/
def popCount {n : Nat} (w : BitVec n) : Nat := (bitList w).length

/-- The place of a unit among the 571 summaries (15 R389). -/
def unitIdx (uclass uindex : Nat) : Option Nat :=
  match uclass with
  | 1 => some uindex
  | 2 => some (34 + uindex)
  | 3 => some (546 + uindex)
  | 4 => some (562 + uindex)
  | 5 => some (566 + uindex)
  | 6 => some 568
  | 7 => some (569 + uindex)
  | _ => none

def State.unit (s : State) (uclass uindex : Nat) : UnitSummary :=
  match unitIdx uclass uindex with
  | some i => mapGet UnitSummary.reset s.nv.units i
  | none => UnitSummary.reset

def State.onUnit (s : State) (uclass uindex : Nat) (f : UnitSummary → UnitSummary) : State :=
  match unitIdx uclass uindex with
  | some i => s.onNv fun nv => { nv with units := mapSet nv.units i (f (mapGet UnitSummary.reset nv.units i)) }
  | none => s

/-- A history of the last eight boots, moved to a later boot. -/
def ageWindow (w : BitVec 8) (boots : Nat) : BitVec 8 := if boots ≥ 8 then 0 else w <<< boots

/-- A unit's class after a counted event (15 R390): permanent under its condition, transient at least. -/
def classify (uclass etype : Nat) (u : UnitSummary) : UnitSummary :=
  let permanent : Bool :=
    match uclass with
    | 1 => decide (etype = 0x05 ∨ u.bootEvents.toNat ≥ 2 ∨ popCount u.window ≥ 3)
    | 2 => decide (etype = 0x14 ∨ popCount u.uncWindow ≥ 2 ∨ u.timeouts.toNat ≥ 2 ∨ popCount u.partWindow ≥ 3
             ∨ u.partEvents.toNat ≥ 8)
    | 3 => decide (popCount u.window ≥ 3 ∨ u.bootEvents.toNat ≥ 3)
    | 4 => decide (popCount u.window ≥ 3 ∨ u.bootEvents.toNat ≥ 8)
    | _ => false
  if u.cls = 3 then u
  else if permanent then { u with cls := 2, pend := true }
  else if u.cls = 0 then { u with cls := 1 } else u

/-- A counted event enters its unit's summary (15 R390). -/
def countEvent (uclass uindex etype : Nat) (s : State) : State :=
  s.onUnit uclass uindex fun u =>
    let age := (s.nv.bootCount - u.lastBoot).toNat
    let same := decide (age = 0)
    let inc := fun (w : BitVec 8) (hit : Bool) => let b := if same then w else 0; if hit then satInc b else b
    classify uclass etype
      { u with
        window := ageWindow u.window age ||| 1,
        lastBoot := s.nv.bootCount,
        events := satInc u.events,
        bootEvents := inc u.bootEvents true,
        proofFailed := u.proofFailed || decide (etype = 0x05),
        uncWindow := ageWindow u.uncWindow age ||| (if etype = 0x11 then 1 else 0),
        partWindow := ageWindow u.partWindow age ||| (if etype = 0x28 then 1 else 0),
        timeouts := inc u.timeouts (decide (etype = 0x12)),
        partEvents := inc u.partEvents (decide (etype = 0x28)) }

/-- Whether the table *Event types* counts an event (15 R389). -/
def eventCounted (etype : Nat) : Bool :=
  etype ∈ [0x01, 0x02, 0x05, 0x11, 0x12, 0x14, 0x16, 0x20, 0x28]

/-- An event record written at the ring's next place (15 R389); `part` is 15 for none. -/
def recordEvent (etype uclass uindex status part detail : Nat) (s : State) : State :=
  let ord := s.dev.evOrd + 1
  let w := 2 ^ 127 + (etype % 128) * 2 ^ 120 + (uclass % 256) * 2 ^ 112 + (uindex % 4096) * 2 ^ 100
    + (status % 256) * 2 ^ 92 + (part % 16) * 2 ^ 88 + s.nv.bootCount.toNat * 2 ^ 56 + ord.toNat * 2 ^ 40
    + detail % 2 ^ 40
  let s := { s with
    dev := { s.dev with evOrd := ord },
    nv := { s.nv with
      events := mapSet s.nv.events (s.nv.fhNext.toNat % 4096) (BitVec.ofNat 128 w),
      fhNext := BitVec.ofNat 16 ((s.nv.fhNext.toNat + 1) % 4096) } }
  if eventCounted etype then countEvent uclass uindex etype s else s

/-- The 16 data bytes of a notice (11 R330). -/
def noticeData (event status detail : Nat) : List Byte :=
  [BitVec.ofNat 8 event, BitVec.ofNat 8 status] ++ zeros 6 ++ leBytes 8 detail

/-- The header of an EOP message (11 R313). -/
def eopHeader (opc : Nat) (rsp : Bool) (status session seqNo index sub len : Nat) : BitVec 128 :=
  BitVec.ofNat 128 (2 ^ 124 + (opc % 16) * 2 ^ 120 + (if rsp then 2 ^ 119 else 0) + (status % 256) * 2 ^ 104
    + (session % 2 ^ 16) * 2 ^ 88 + (seqNo % 2 ^ 32) * 2 ^ 56 + (index % 2 ^ 16) * 2 ^ 40 + (sub % 256) * 2 ^ 32
    + (len % 2 ^ 16) * 2 ^ 16)

/-- A tagged message under a session key (11 R322). -/
def eopMessage (src dst : HostAddr) (key : BitVec 256) (header : BitVec 128) (data : List Byte) : EopOut :=
  { src := src, dst := dst, header := header, data := data, tag := tagOf key (beBytes 16 header.toNat ++ data) }

/-- A datagram put on port M. -/
def sendM (m : EopOut) (s : State) : State := { s with out := { s.out with portM := s.out.portM ++ [m] } }

/-- The NOTIFY of a notice to one session: SEQ from its own counter, four resends left (11 R330); sent from the
address its SESSION_PROVE was sent to (log entry 89). -/
def noticeOf (port : BitVec 16) (x : Session) (seqNo : BitVec 32) (data : List Byte) : EopOut :=
  eopMessage ⟨x.answers, port⟩ x.host x.key (eopHeader 8 false 0 x.num.toNat seqNo.toNat 0x2060 0 data.length) data

/-- A notice appended to the log of its partition and sent to every open session of it (11 R330). -/
def notify (p event status detail : Nat) (s : State) : State :=
  let d := noticeData event status detail
  let msgs := (s.eop.sessions.filter fun x => x.isOpen && decide (x.part.val = p)).map
    fun x => noticeOf s.eop.cfg.udpPort x x.noticeSeq d
  let sess := s.eop.sessions.map fun x =>
    if x.isOpen && decide (x.part.val = p) then
      { x with noticeSeq := x.noticeSeq + 1, unacked := x.unacked ++ [(x.noticeSeq, 4, d)] } else x
  let s := s.onPart p fun q =>
    let l := q.notices ++ [BitVec.ofNat 128 (leNat d)]
    { q with notices := l.drop (l.length - 64) }
  { s with eop := { s.eop with sessions := sess }, out := { s.out with portM := s.out.portM ++ msgs } }

/-- The definitions that were accepted and not yet in force stand in the NV die (13 R355, 11 R327). -/
def settledDefs (s : State) : Vector (BitVec 512) 8 :=
  Vector.ofFn fun p : Fin 8 => s.defEntry p

/-- The keys once those definitions are in force: that of a deleted partition is zero (13 R355). -/
def settledKeys (s : State) : Vector (BitVec 256) 8 :=
  Vector.ofFn fun p : Fin 8 => if p.val ≠ 0 ∧ (s.part p).nextDef = some 0 then 0 else vget s.nv.keys p 0

/-- Bytes of the stacks and the steward regions: what a device reset leaves until boot order 7 clears it. -/
def Memory.dropCells (m : Memory) : Memory :=
  { bytes := m.bytes.filter fun e => decide (e.1 < 0x8000000000), errs := m.errs.filter fun e => decide (e.1 < 0x400000000) }

/-- A device reset (01 R33, R42; 09 R245; 11 R320; 13 R365): every part of the device but the fuses, the NV
die, the pins and the test access port returns to its reset value; the by-pass closes; the cell stores and the
link-die buffers are cleared; the boot begins with the next attempt. Husk mode of cause 0x06 ends with NO_READY
at zero (15 R398). -/
def deviceReset (s : State) : State :=
  { State.reset with
    pending := s.pending,
    fuse := s.fuse,
    nv := { s.nv with
      defs := settledDefs s, keys := settledKeys s, rollbackMin := s.dev.minPending.getD s.nv.rollbackMin,
      noReady := if s.dev.huskCause = 6 then 0 else s.nv.noReady },
    dev := { Dev.reset with
      powered := s.dev.powered, railBad := s.dev.railBad, actedRails := s.dev.actedRails, actedRef := s.dev.actedRef,
      porstN := s.dev.porstN, refclkOk := s.dev.refclkOk,
      vrAlertN := s.dev.vrAlertN, thermLatched := s.dev.thermLatched, tripToRecord := s.dev.tripToRecord,
      interval := s.dev.interval, evOrd := s.dev.evOrd },
    mem := s.mem.dropCells,
    jtag := s.jtag,
    out := s.out,
    free := s.free }

/-- A boot that ends before ready, other than by slot failure, counts in NO_READY (15 R389; log entry 56). -/
def countBoot (s : State) : State :=
  if s.dev.resetPending = false ∧ s.dev.devState = 0 then s.onNv fun nv => { nv with noReady := satInc nv.noReady }
  else s

/-- A free value drawn: its number, and the state with the counter moved on (log entry 2). -/
def draw (s : State) : Nat × State := (s.free, { s with free := s.free + 1 })

end Sys2Proof.Machine
end

