-- ==== Sys2Proof/Machine/Clock.lean ====
section
/-! DEFINITION. What time does between commands: the interval counter (02 R50), the end of a write to the NV die, and what
the ring ports count and drain (10 R280, R286). -/

set_option Elab.async false

namespace Sys2Proof.Machine

/-- The rollback minimum that DEVICE_READY began to write stands in the NV die (12 R341, R350; log entry 90). -/
def settleMin (s : State) : State :=
  match s.dev.minPending with
  | none => s
  | some m => { s with nv := { s.nv with rollbackMin := m }, dev := { s.dev with minPending := none } }

/-- The class 0 buffers of a port emptied: the link die has consumed or forwarded what they held (10 R286; log entry 71). -/
def drainClass0 (p : Port) : Port := { p with c0held := 0 }

/-- The FEC codewords of a port that is up, counted at the port and at each lane (10 R277, R280; 15 R389; log entry 71). -/
def countCodewords (n : Nat) (s : State) : State :=
  if (s.port n).st ≠ 2 ∧ (s.port n).st ≠ 3 then s else
  let (k, s) := draw s
  let lane := fun (l : Nat) => (Config.fecCorrected k (8 * n + l)).toNat
  let s := forEach (List.range 8) (fun l s => s.onUnit 3 (8 * n + l) fun u =>
    { u with corrected := BitVec.ofNat 32 (min (2 ^ 32 - 1) (u.corrected.toNat + lane l)) }) s
  s.onPort n fun p => { p with
    fecCorr := p.fecCorr + BitVec.ofNat 64 (sumN ((List.range 8).map lane)),
    fecUncorr := p.fecUncorr + Config.fecUncorrectable k n }

/-- Both ports in a tick. -/
def portTicks (s : State) : State :=
  forEach [0, 1] (fun n s => countCodewords n (s.onPort n drainClass0)) s

/-- The interval counter counts while PORST_N is high and REFCLK is present (02 R50; log entry 31). -/
def idleTick (s : State) : State :=
  let s := portTicks (settleMin s)
  if s.dev.porstN ∧ s.dev.refclkOk then { s with dev := { s.dev with interval := s.dev.interval + 1 } } else s

end Sys2Proof.Machine
end

