-- ==== Sys2Proof/Machine/Lms.lean ====
section
/-! DEFINITION. LMS and HSS signatures, which 12 R338 and R347 take from RFC 8554 and NIST SP 800-208: one-time
signatures LMOTS_SHA256_N32_W8, trees of height h with M32 nodes. The parts of the private key are constants
without a body, applied to the key the NV die holds (12 R345; log entry 4). -/

set_option Elab.async false

namespace Sys2Proof.Machine

/-- The 34 Winternitz digits of a digest: its 32 bytes and the 16-bit checksum. -/
def otsDigits (d : List Byte) : List Nat :=
  let v := d.map BitVec.toNat
  let c := sumN (v.map fun x => 255 - x)
  v ++ [c / 256 % 256, c % 256]

/-- n links of the hash chain i of leaf q, from link j on. -/
def otsChain (ident : List Byte) (q i : Nat) : Nat → Nat → List Byte → List Byte
  | 0, _, t => t
  | n + 1, j, t =>
    otsChain ident q i n (j + 1) (sha256Bytes (ident ++ beBytes 4 q ++ beBytes 2 i ++ beBytes 1 j ++ t))

/-- The digest a one-time signature signs, with its randomizer. -/
def otsMessage (ident : List Byte) (q : Nat) (rand msg : List Byte) : List Byte :=
  sha256Bytes (ident ++ beBytes 4 q ++ [0x81, 0x81] ++ rand ++ msg)

/-- The one-time public key over the ends of its chains. -/
def otsPublic (ident : List Byte) (q : Nat) (ends : List (List Byte)) : List Byte :=
  sha256Bytes (ident ++ beBytes 4 q ++ [0x80, 0x80] ++ ends.flatten)

/-- A leaf and an inner node of a tree of height h. -/
def lmsLeaf (h : Nat) (ident : List Byte) (q : Nat) (pub : List Byte) : List Byte :=
  sha256Bytes (ident ++ beBytes 4 (2 ^ h + q) ++ [0x82, 0x82] ++ pub)
def lmsInner (ident : List Byte) (r : Nat) (left right : List Byte) : List Byte :=
  sha256Bytes (ident ++ beBytes 4 r ++ [0x83, 0x83] ++ left ++ right)

/-- From a node up along the siblings of its path. -/
def lmsClimb (ident : List Byte) : List (List Byte) → Nat → List Byte → List Byte
  | [], _, t => t
  | p :: r, n, t =>
    lmsClimb ident r (n / 2) (if n % 2 = 1 then lmsInner ident (n / 2) p t else lmsInner ident (n / 2) t p)

/-- n pieces of 32 bytes. -/
def cut32 : Nat → List Byte → List (List Byte)
  | 0, _ => []
  | n + 1, bs => bs.take 32 :: cut32 n (bs.drop 32)

/-- The root that a signature over a message leads to. -/
def lmsRoot (h : Nat) (ident sig msg : List Byte) : List Byte :=
  let q := beNat (sig.take 4)
  let digits := otsDigits (otsMessage ident q (slice sig 8 32) msg)
  let ends := ((cut32 34 (sig.drop 40)).zip digits).zipIdx.map fun e => otsChain ident q e.2 (255 - e.1.2) e.1.2 e.1.1
  lmsClimb ident (cut32 h (sig.drop 1132)) (2 ^ h + q) (lmsLeaf h ident q (otsPublic ident q ends))

/-- A signature holds under an LMS public key of a tree type and its height (12 R338). -/
def lmsVerify (type h : Nat) (key sig msg : List Byte) : Bool :=
  decide (key.length = 56) && decide (sig.length = 1132 + 32 * h) && decide (beNat (key.take 4) = type) &&
  decide (beNat (slice key 4 4) = 4) && decide (beNat (slice sig 4 4) = 4) && decide (beNat (slice sig 1128 4) = type) &&
  decide (beNat (sig.take 4) < 2 ^ h) && decide (lmsRoot h (slice key 8 16) sig msg = key.drop 24)

/-- The secret that begins chain i of leaf q in a tree: tree 0 the top level, tree t + 1 bottom-level tree t. -/
def idSecret (key : BitVec 256) (tree q i : Nat) : List Byte := beBytes 32 (Config.lmsSecret key tree q i).toNat
/-- The identifier of a tree of the identity key. -/
def idIdent (key : BitVec 256) (tree : Nat) : List Byte := beBytes 16 (Config.lmsIdent key tree).toNat

/-- A node of a tree of the identity key, height 15: k levels above the leaves, number r. -/
def idNode (key : BitVec 256) (tree : Nat) : Nat → Nat → List Byte
  | 0, r =>
    let q := r - 2 ^ 15
    let ident := idIdent key tree
    lmsLeaf 15 ident q (otsPublic ident q ((List.range 34).map fun i => otsChain ident q i 255 0 (idSecret key tree q i)))
  | k + 1, r => lmsInner (idIdent key tree) r (idNode key tree k (2 * r)) (idNode key tree k (2 * r + 1))

/-- The LMS public key of a tree of the identity key (12 R338): types, identifier, root; 56 bytes. -/
def idPublic (key : BitVec 256) (tree : Nat) : List Byte :=
  beBytes 4 7 ++ beBytes 4 4 ++ idIdent key tree ++ idNode key tree 15 1

/-- The LMS signature of leaf q of a tree over a message; 1,612 bytes. -/
def idSign (key : BitVec 256) (tree q : Nat) (msg : List Byte) : List Byte :=
  let ident := idIdent key tree
  let rand := beBytes 32 (Config.lmsRandom key tree q).toNat
  let digits := otsDigits (otsMessage ident q rand msg)
  beBytes 4 q ++ beBytes 4 4 ++ rand ++
  (digits.zipIdx.flatMap fun e => otsChain ident q e.2 e.1 0 (idSecret key tree q e.2)) ++
  beBytes 4 7 ++ (List.range 15).flatMap fun i => idNode key tree i (((2 ^ 15 + q) >>> i) ^^^ 1)

/-- The identity public key, HSS with two levels (12 R338): 60 bytes, OD 0x8000:01. -/
def hssPublic (key : BitVec 256) : List Byte := beBytes 4 2 ++ idPublic key 0

/-- The top-level signature over the public key of bottom-level tree t, by top-level leaf t (12 R347). -/
def topSignature (key : BitVec 256) (t : Nat) : List Byte := idSign key 0 t (idPublic key (t + 1))

/-- An HSS signature by leaf q under a top-level signature (12 R347); 3,284 bytes. -/
def hssSignature (key : BitVec 256) (topSig : List Byte) (q : Nat) (msg : List Byte) : List Byte :=
  beBytes 4 1 ++ topSig ++ idPublic key (q / 2 ^ 15 + 1) ++ idSign key (q / 2 ^ 15 + 1) (q % 2 ^ 15) msg

end Sys2Proof.Machine
end

