-- ==== Sys2Proof/Machine/Bytes.lean ====
section
/-! DEFINITION. Bytes in canonical form and stored words under the symbol code (09 R246 to R248). -/

set_option Elab.async false

namespace Sys2Proof.Machine

/-- Where the cell stores stand, and the bytes of one (09 R241). -/
def cellBase (n : Nat) : Nat := 0x8000000000 + n * 0x2000000
def cellSize : Nat := 0x1800000

/-- Addresses strictly rising (the canonical form, log entry 2). -/
def rising {α : Type} : List (Nat × α) → Bool
  | [] => true
  | [_] => true
  | (a, _) :: (b, y) :: r => decide (a < b) && rising ((b, y) :: r)

/-- The canonical form of memory: addresses strictly rising, no listed byte zero, and no listed error empty. -/
def Memory.wf (m : Memory) : Bool :=
  rising m.bytes && m.bytes.all (fun e => decide (e.2 ≠ 0)) && rising m.errs && m.errs.all (fun e => decide (e.2 ≠ 0))

/-- One byte; an unlisted address reads as zero. -/
def Memory.read1 (m : Memory) (a : Nat) : Byte := mapGet 0 m.bytes a

/-- n bytes from an address, of cells that all lie at or above it. -/
def cellsBytes : Nat → Nat → List Host.Cell → List Byte
  | 0, _, _ => []
  | n + 1, a, [] => 0 :: cellsBytes n (a + 1) []
  | n + 1, a, (k, v) :: r => if k = a then v :: cellsBytes n (a + 1) r else 0 :: cellsBytes n (a + 1) ((k, v) :: r)

/-- n bytes from an address. -/
def Memory.readN (m : Memory) (a n : Nat) : List Byte := cellsBytes n a (m.bytes.dropWhile fun e => decide (e.1 < a))

/-- The cells of a byte string from an address; zero bytes are not listed. -/
def bytesCells : Nat → List Byte → List Host.Cell
  | _, [] => []
  | a, b :: r => if b = 0 then bytesCells (a + 1) r else (a, b) :: bytesCells (a + 1) r

/-- A list with the keys of [a, a + n) replaced by other cells of that range. -/
def splice {α : Type} (l : List (Nat × α)) (a n : Nat) (mid : List (Nat × α)) : List (Nat × α) :=
  (l.filter fun e => decide (e.1 < a)) ++ mid ++ (l.filter fun e => decide (a + n ≤ e.1))

/-- The words (32 bytes) that a range of bytes touches: the first, and how many. -/
def wordSpan (a n : Nat) : Nat × Nat := if n = 0 then (a / 32, 0) else (a / 32, (a + n - 1) / 32 - a / 32 + 1)

/-- A byte string written; every word it touches becomes a whole codeword (09 R248). -/
def Memory.writeN (m : Memory) (a : Nat) (bs : List Byte) : Memory :=
  let w := wordSpan a bs.length
  { bytes := splice m.bytes a bs.length (bytesCells a bs), errs := splice m.errs w.1 w.2 [] }

/-- A range cleared to zero under the symbol code. -/
def Memory.clear (m : Memory) (a n : Nat) : Memory :=
  let w := wordSpan a n
  { bytes := splice m.bytes a n [], errs := splice m.errs w.1 w.2 [] }

/-- Keys from a + old on moved to a + new; the range between is dropped. -/
def shiftKeys {α : Type} (l : List (Nat × α)) (a old new : Nat) : List (Nat × α) :=
  (l.filter fun e => decide (e.1 < a)) ++ (l.filter fun e => decide (a + old ≤ e.1)).map fun e => (e.1 - old + new, e.2)

/-- A range of whole words takes another size: its bytes are dropped, what stands above it keeps its contents
(13 R364; log entry 32). -/
def Memory.resize (m : Memory) (a old new : Nat) : Memory :=
  { bytes := shiftKeys m.bytes a old new, errs := shiftKeys m.errs (a / 32) (old / 32) (new / 32) }

/-- The 36 stored bytes of a word. -/
def Memory.stored (m : Memory) (w : Nat) : List Nat :=
  let e := mapGet 0 m.errs w
  List.zipWith (· ^^^ ·) (rsEncode ((m.readN (32 * w) 32).map BitVec.toNat))
    ((List.range 36).map fun i => fld e (8 * i + 7) (8 * i))

/-- A word stored as 32 data bytes and an error pattern; a pattern that is itself a codeword leaves a valid
word of other data. -/
def Memory.storeWord (m : Memory) (w : Nat) (d : List Byte) (e : BitVec 288) : Memory :=
  let eb := (List.range 36).map fun i => fld e (8 * i + 7) (8 * i)
  if e = 0 then m.writeN (32 * w) (d.take 32)
  else if rsDecode eb = .clean then m.writeN (32 * w) ((List.zipWith (fun x y => x ^^^ BitVec.ofNat 8 y) d eb).take 32)
  else
    let m := m.writeN (32 * w) (d.take 32)
    { m with errs := mapSet m.errs w e }

/-- A range of bytes that becomes undefined: free bytes (log entry 2). -/
def freeBytes (a n : Nat) (s : State) : State :=
  let k := s.free
  { s with mem := s.mem.writeN a ((List.range n).map fun i => Config.freeByte k i), free := s.free + 1 }

/-- The provisional region of a cell, which a squash leaves undefined (07 R207). -/
def freeProvisional (c : Nat) (s : State) : State :=
  let x := s.cell c
  if x.provSize = 0 then s else freeBytes (cellBase c + x.provBase) x.provSize s

end Sys2Proof.Machine
end

