-- ==== Sys2Proof/Machine/Flags.lean ====
section
/-! DEFINITION. Status codes and their precedence (00 R16, R17), the numeric trouble counts, completion records
(07 R197, R198) and the trace of a completed command (16 R407). -/

set_option Elab.async false

namespace Sys2Proof.Machine

/-- Status codes (00 R16). -/
def stOk : Nat := 0x00
def stNotReady : Nat := 0x01
def stDenied : Nat := 0x02
def stNoSession : Nat := 0x03
def stBadTag : Nat := 0x04
def stNoEntry : Nat := 0x05
def stType : Nat := 0x06
def stRange : Nat := 0x07
def stAbsent : Nat := 0x10
def stSched : Nat := 0x11
def stResidue : Nat := 0x12
def stDup : Nat := 0x13
def stFallback : Nat := 0x14
def stSquashed : Nat := 0x15
def stPart : Nat := 0x16
def stUncorrectable : Nat := 0x20
def stRetrain : Nat := 0x21
def stHop : Nat := 0x30
def stAborted : Nat := 0x31
def stCredit : Nat := 0x32
def stIncompatible : Nat := 0x40
def stDigest : Nat := 0x41
def stSignature : Nat := 0x50
def stExhausted : Nat := 0x51

/-- The status of several conditions: the highest code (00 R17). -/
def worst (l : List Nat) : Nat := l.foldl max 0

/-- A condition's code, if it holds. -/
def when' (b : Bool) (code : Nat) : Nat := if b then code else 0

/-- The status of a command pushed with F = 1: FALLBACK_TAKEN only in place of OK (00 R17, 07 R212). -/
def withFb (fb : Bool) (st : Nat) : Nat := if fb && decide (st = 0) then stFallback else st

def Counts.add (a b : Counts) : Counts := ⟨a.sat + b.sat, a.flu + b.flu, a.awn + b.awn⟩

/-- A count in a field of 32 bits, saturated (07 R197). -/
def sat32 (n : Nat) : Nat := min n (2 ^ 32 - 1)

/-- The 256 bits of a completion record (07 R197). -/
def recordWord (queue : Nat) (fb : Bool) (tag seqNo status : Nat) (c : Counts) (aux : Nat) : BitVec 256 :=
  BitVec.ofNat 256 ((status % 256) * 2 ^ 248 + (queue % 8) * 2 ^ 245 + (if fb then 2 ^ 244 else 0)
    + (tag % 2 ^ 16) * 2 ^ 224 + (seqNo % 2 ^ 32) * 2 ^ 192 + sat32 c.sat * 2 ^ 160 + sat32 c.flu * 2 ^ 128
    + sat32 c.awn * 2 ^ 96 + aux % 2 ^ 64)

/-- A record appended to the cell's ring of 1,024 (07 R198); the first bad one of the replay is kept. -/
def pushRecord (c : Nat) (r : BitVec 256) (s : State) : State :=
  s.onCell c fun x =>
    let l := x.recs ++ [r]
    let st := fld r 255 248
    let bad := st ≠ stOk ∧ st ≠ stFallback ∧ st ≠ stSquashed
    { x with recs := l.drop (l.length - 1024), firstFault := if bad ∧ x.firstFault = 0 then r else x.firstFault }

/-- The counters of index range 0xA020 (04 R129, 07 R211; 11 R331). -/
def addCounters (p : Nat) (status : Nat) (c : Counts) (s : State) : State :=
  s.onPart p fun q => { q with
    cSat := satAdd q.cSat c.sat, cFlu := satAdd q.cFlu c.flu, cAwn := satAdd q.cAwn c.awn,
    cFall := if status = stFallback then satAdd q.cFall 1 else q.cFall,
    cBad := if status ≠ stOk ∧ status ≠ stFallback ∧ status ≠ stSquashed then satAdd q.cBad 1 else q.cBad }

/-- RHASH of a record: its 32 bytes with SEQ zeroed, and for the matrix engine the stall beats (16 R407). -/
def recordHash (r : BitVec 256) : BitVec 64 :=
  let r := setFld r 223 192 0
  contentHash (leBytes 32 (if fld r 247 245 = 0 then setFld r 31 0 0 else r).toNat)

/-- A trace entry (16 R407). -/
def traceEntry (lcell ord : Nat) (r : BitVec 256) : BitVec 128 :=
  BitVec.ofNat 128 (2 ^ 127 + (lcell % 32) * 2 ^ 122 + fld r 247 245 * 2 ^ 119 + (ord % 2 ^ 20) * 2 ^ 99
    + fld r 239 224 * 2 ^ 83 + fld r 255 248 * 2 ^ 75 + (recordHash r).toNat)

/-- A traced command enters its accumulator, and the trace store if the store is in use and has room (16 R407). ORD is its
place in program order, which no timing changes (16 R399; DEDUCED, log entry 99). -/
def traceRecord (c p lcell ord : Nat) (r : BitVec 256) (s : State) : State :=
  let det := (s.part p).det
  let e := traceEntry lcell ord r
  let h := (contentHash (leBytes 16 e.toNat)).toNat
  let s := s.onPart p fun q => { q with det := { q.det with
    ta := vmod q.det.ta lcell fun t => BitVec.ofNat 64 ((t.toNat + h) % hashP),
    ord := vmod q.det.ord lcell (· + 1) } }
  if flag det.cup 24 ∨ det.caps > 0 then
    s.onCell c fun x => if x.trace.length < 131072 then { x with trace := x.trace ++ [e] } else { x with ovf := true }
  else s

/-- CMD_TAG of a command word, by queue (04 R109, 05 R142, 06 R158, 07 R195, 09 R263). -/
def cmdTag (queue : Nat) (w : BitVec 256) : Nat :=
  match queue with
  | 0 => fld w 247 232
  | 1 => fld w 245 230
  | 3 => fld w 242 227
  | _ => fld w 251 236

/-- The record of a completed or squashed command with its counts and trace (07 R197, R211; 16 R407). -/
def writeRecord (c queue : Nat) (e : QEntry) (status : Nat) (cnt : Counts) (aux : Nat) (s : State) : State :=
  let r := recordWord queue e.fb (cmdTag queue e.word) e.seqNo.toNat status cnt aux
  let s := pushRecord c r s
  if status = stSquashed then s else
  match s.cellOwner c with
  | none => s
  | some p =>
    let s := addCounters p status cnt s
    match e.lcell with
    | some l => traceRecord c p l e.ord r s
    | none => s

/-- A SQUASHED record: all counts and AUX zero (07 R210). -/
def writeSquashed (c queue : Nat) (e : QEntry) (s : State) : State :=
  writeRecord c queue e stSquashed Counts.reset 0 s

/-- A command is provisional while an open check point precedes it in program order (07 R206). -/
def provisional (k : Core) (seqNo : BitVec 32) : Bool := k.snaps.any fun cp => decide (cp.seqNo ≤ seqNo)

/-- The commands in progress on the engines of a cell, with their queues. -/
def inProgress (x : Cell) : List (Nat × QEntry) :=
  (match x.me.run with | some r => [(0, r.entry)] | none => []) ++
  (match x.me.done with | some d => [(0, d.1)] | none => []) ++
  (match x.ve.run with | some r => [(1, r.entry)] | none => []) ++
  (match x.ve.done with | some d => [(1, d.1)] | none => []) ++
  (match x.qe.done with | some d => [(2, d.1)] | none => []) ++
  (match x.ue.run with | some r => [(3, r.entry)] | none => []) ++
  (match x.ue.done with | some d => [(3, d.1)] | none => []) ++
  (x.dm.map fun r => (4, r.entry))

/-- The commands of a cell, queued or in progress, with their queues. -/
def allCommands (x : Cell) : List (Nat × QEntry) :=
  inProgress x ++ (x.queues.toList.zipIdx.map fun q => q.1.map fun e => (q.2, e)).flatten

/-- The commands of a cell without a record yet: those that have completed while provisional too. -/
def unrecorded (x : Cell) : List (Nat × QEntry) := allCommands x ++ x.heldDone.map fun h => (h.queue, h.entry)

/-- The commands for which a test holds taken off a cell. -/
def dropCommands (x : Cell) (t : Nat → QEntry → Bool) : Cell :=
  { x with
    queues := Vector.ofFn fun i : Fin 5 => (vget x.queues i []).filter fun e => !t i e,
    me := { x.me with run := x.me.run.filter fun r => !t 0 r.entry, done := x.me.done.filter fun d => !t 0 d.1 },
    ve := { x.ve with run := x.ve.run.filter fun r => !t 1 r.entry, done := x.ve.done.filter fun d => !t 1 d.1 },
    qe := { x.qe with done := x.qe.done.filter fun d => !t 2 d.1 },
    ue := { x.ue with run := x.ue.run.filter fun r => !t 3 r.entry, done := x.ue.done.filter fun d => !t 3 d.1 },
    dm := x.dm.filter fun r => !t 4 r.entry }

/-- Every command from a sequence number on squashed, one that has completed while provisional too: taken off the cell, a
SQUASHED record each, in program order (07 R210); the provisional region becomes undefined (07 R207). -/
def squashFrom (c : Nat) (from' : BitVec 32) (s : State) : State :=
  let hit := fun (_ : Nat) (e : QEntry) => decide (from' ≤ e.seqNo)
  let l := sortBy (fun (a b : Nat × QEntry) => decide (a.2.seqNo ≤ b.2.seqNo))
    ((unrecorded (s.cell c)).filter fun x => hit x.1 x.2)
  let s := s.onCell c fun x =>
    let x := dropCommands x hit
    { x with samples := x.samples.filter fun t => !decide (from' ≤ t.seqNo),
             heldDone := x.heldDone.filter fun h => !decide (from' ≤ h.entry.seqNo),
             dupBad := x.dupBad.filter fun t => !decide (from' ≤ t.2),
             me := { x.me with past := x.me.past.filter fun t => !decide (from' ≤ t.seqNo) } }
  let s := freeProvisional c s
  forEach l (fun x s => writeSquashed c x.1 x.2 s) s

/-- The provisional window of a cell squashed (04 R124, 07 R209): no check point stays open. -/
def squashProvisional (c : Nat) (s : State) : State :=
  match (s.cell c).core.snaps with
  | [] => s
  | cp :: r =>
    let lo := r.foldl (fun m x => if x.seqNo < m then x.seqNo else m) cp.seqNo
    let s := squashFrom c lo s
    s.onCell c fun x => { x with core := { x.core with snaps := [] } }

end Sys2Proof.Machine
end

