-- ==== Sys2Proof/Machine/Frames.lean ====
section
/-! DEFINITION. VRT frames on the ring ports: the header, sending under credits, PFC and link-level retry,
arbitration, and what a port does with a frame it receives (10 R281 to R295, 13 R356, R357). -/

set_option Elab.async false

namespace Sys2Proof.Machine

/-- Header bytes of a frame in network order, HCRC last (10 R283). -/
def vrtHeaderNat (f : VrtFrame) : Nat :=
  f.ver.toNat * 2 ^ 252 + f.type.toNat * 2 ^ 248 + f.cls.toNat * 2 ^ 246 + f.rsvd.toNat * 2 ^ 240
    + f.dstRing.toNat * 2 ^ 224 + f.srcRing.toNat * 2 ^ 208 + f.dstPart.toNat * 2 ^ 205 + f.srcPart.toNat * 2 ^ 202
    + (if f.last then 2 ^ 201 else 0) + (if f.retx then 2 ^ 200 else 0) + f.stream.toNat * 2 ^ 192
    + f.hopsLeft.toNat * 2 ^ 176 + f.len.toNat * 2 ^ 160 + f.hseq.toNat * 2 ^ 128 + f.eseq.toNat * 2 ^ 96
    + f.xid.toNat * 2 ^ 64 + f.aux.toNat * 2 ^ 32

/-- Header bytes 0 to 27, which HCRC and the tag of a DESC frame cover. -/
def vrtHead28 (f : VrtFrame) : List Byte := (beBytes 32 (vrtHeaderNat f)).take 28

/-- The sum of the 16-bit words of a list of bytes, an odd last byte filled with zero. -/
def wordSum : List Byte → Nat
  | a :: b :: r => a.toNat * 256 + b.toNat + wordSum r
  | [a] => a.toNat * 256
  | [] => 0

/-- Its one's complement form. -/
def onesSum (l : List Byte) : Nat :=
  let t := wordSum l
  let t := t % 65536 + t / 65536
  t % 65536 + t / 65536

/-- The UDP checksum of a frame over IP (10 R282): pseudo-header, UDP header, VRT header, payload. -/
def udpChecksum (u : UdpIp) (f : VrtFrame) : BitVec 16 :=
  let n := 40 + f.payload.length
  let addr := fun (a : BitVec 128) => if u.v6 then beBytes 16 a.toNat else beBytes 4 (a.toNat % 2 ^ 32)
  let head := addr u.src ++ addr u.dst ++ beBytes 4 n ++ beBytes 4 17
  let c := 65535 - onesSum (head ++ beBytes 2 u.sport.toNat ++ beBytes 2 u.dport.toNat ++ beBytes 2 n ++
    beBytes 32 (vrtHeaderNat f + f.hcrc.toNat) ++ f.payload)
  BitVec.ofNat 16 (if c = 0 then 65535 else c)

/-- The checksum of a received frame, where one is given (10 R282). -/
def sumOk (f : VrtFrame) : Bool :=
  match f.link.ip with
  | some u => decide (u.csum = 0) || decide (u.csum = udpChecksum u f)
  | none => true

/-- A frame with its LEN and HCRC filled in. -/
def sealFrame (f : VrtFrame) : VrtFrame :=
  let f := { f with len := BitVec.ofNat 16 f.payload.length }
  { f with hcrc := crc32c (vrtHead28 f), fcsOk := true }

/-- A frame this device originates (10 R281): HOPS_LEFT the ring size. -/
def newFrame (s : State) (type cls : Nat) (dstRing : BitVec 16) (dstPart srcPart : Nat) (payload : List Byte) :
    VrtFrame :=
  { ver := 1, type := BitVec.ofNat 4 type, cls := BitVec.ofNat 2 cls, rsvd := 0, dstRing := dstRing,
    srcRing := s.nv.ringId, dstPart := BitVec.ofNat 3 dstPart, srcPart := BitVec.ofNat 3 srcPart, last := false,
    retx := false, stream := 0, hopsLeft := s.nv.ringSize, len := 0, hseq := 0, eseq := 0, xid := 0, aux := 0,
    hcrc := 0, payload := payload, fcsOk := true }

/-- A port is up in states 2 and 3 only (10 R277). -/
def Port.up (p : Port) : Bool := decide (p.st = 2) || decide (p.st = 3)

/-- The one-way delay of a port's hop, in 0.1 µs (10 R293). -/
def Port.hopDelay (p : Port) : Nat := max p.cfg.delay.toNat p.measured.toNat

/-- A short hop uses link-level retry (10 R294). -/
def Port.short (p : Port) : Bool := decide (p.hopDelay ≤ 100)

/-- The ring id of the neighbour at a port in ring order (10 R275, R280), which a hop's own frames name (log entry 58). -/
def neighbour (s : State) (port : Nat) : BitVec 16 :=
  let n := s.nv.ringSize.toNat
  if n = 0 then 0 else
  BitVec.ofNat 16 ((s.nv.ringId.toNat + (if port = 0 then 1 else n - 1)) % n)

/-- The 802.1Q priority of a class at a port (10 R280). -/
def Port.priority (p : Port) (cls : Nat) : Nat := fld p.classes.prio (3 * cls + 2) (3 * cls)

/-- How a port carries a frame (10 R282, R283): on a direct hop a raw Ethernet frame to the broadcast address, padded to
the Ethernet minimum; on a switched attachment UDP to the configured peer, tagged with the priority of its class. The
source UDP port is the VRT port (DESIGN CHOICE, log entry 98). -/
def carrierOf (s : State) (port : Nat) (f : VrtFrame) : Carrier :=
  let p := s.port port
  let mac := vget s.fuse.macRing port 0
  if p.cfg.attach = 0 then
    { dst := 0xFFFFFFFFFFFF, src := mac, prio := none, ethType := p.cfg.etherType, ip := none, pad := 14 - f.payload.length }
  else
    let v6 := decide (p.cfg.attach = 1)
    let u : UdpIp := { v6 := v6, src := p.cfg.localIp, dst := p.cfg.peerIp, df := !v6, sport := p.cfg.udpPort,
                       dport := p.cfg.udpPort, csum := 0 }
    { dst := p.cfg.peerMac, src := mac, prio := some (BitVec.ofNat 3 (p.priority f.cls.toNat)),
      ethType := if v6 then 0x86DD else 0x0800, ip := some { u with csum := if v6 then udpChecksum u f else 0 }, pad := 0 }

/-- A frame that a port takes for one of its VRT frames (10 R282): the EtherType and no tag on a direct hop; UDP of the
configured version to the local address and the VRT port on a switched attachment. -/
def carried (p : Port) (f : VrtFrame) : Bool :=
  match f.link.ip with
  | none => decide (p.cfg.attach = 0) && decide (f.link.ethType = p.cfg.etherType) && f.link.prio.isNone
  | some u => decide (p.cfg.attach ≠ 0) && (u.v6 == decide (p.cfg.attach = 1)) && decide (u.dst = p.cfg.localIp) &&
      decide (u.dport = p.cfg.udpPort)

/-- A finished frame put on a port's fibre; a port that is not up carries nothing (10 R291). -/
def emitRaw (port : Nat) (f : VrtFrame) (s : State) : State :=
  if (s.port port).up then
    { s with out := { s.out with ring := s.out.ring ++ [(port, { f with link := carrierOf s port f })] } }
  else s

/-- A frame put on a port's fibre. -/
def emit (port : Nat) (f : VrtFrame) (s : State) : State := emitRaw port (sealFrame f) s

/-- A class 0 frame is sent at once (10 R286, R290). -/
def sendClass0 (port : Nat) (f : VrtFrame) (s : State) : State := emit port f s

/-- A CREDIT frame with the cumulative grants, all freed buffers reported (10 R287). -/
def sendCredit (port : Nat) (s : State) : State :=
  let p := s.port port
  let rx := p.rx.map fun x : PortRx => { x with granted := x.granted + BitVec.ofNat 32 x.unreported, unreported := 0 }
  let s := s.onPort port fun p => { p with rx := rx }
  sendClass0 port (newFrame s 1 0 (neighbour s port) 0 0
    ((rx.toList.map fun x => leBytes 4 x.granted.toNat).flatten)) s

/-- A receive buffer of a class freed: a CREDIT frame leaves once 64 wait to be reported (10 R287). -/
def freeBuffer (port cls : Nat) (s : State) : State :=
  let s := s.onPort port fun p => { p with
    rx := vmod p.rx (cls - 1) fun x => { x with inUse := x.inUse - 1, unreported := x.unreported + 1 } }
  if (vget (s.port port).rx (cls - 1) PortRx.reset).unreported ≥ 64 ∧ (s.port port).cfg.attach = 0 then
    sendCredit port s else s

/-- A PFC frame for the priority of a class sent by a port: a pause or a release (10 R288). -/
def sendPfc (port cls : Nat) (pause : Bool) (s : State) : State :=
  let m := (1 : BitVec 8) <<< (s.port port).priority cls
  let s := s.onPort port fun p => { p with
    pfcOn := if pause then p.pfcOn ||| ((1 : BitVec 4) <<< cls) else p.pfcOn &&& ~~~((1 : BitVec 4) <<< cls) }
  if (s.port port).up then { s with out := { s.out with pfc := s.out.pfc ++ [(port, m, if pause then m else 0)] } } else s

/-- PFC of a switched attachment (10 R288): a pause when fewer than 1,024 buffers of a class remain free, its release at
2,048. -/
def pfcUpdate (port cls : Nat) (s : State) : State :=
  let p := s.port port
  let free := (vget p.classes.pool (cls - 1) 0).toNat - (vget p.rx (cls - 1) PortRx.reset).inUse
  if p.cfg.attach = 0 then s
  else if free < 1024 ∧ flag p.pfcOn cls = false then sendPfc port cls true s
  else if free ≥ 2048 ∧ flag p.pfcOn cls = true then sendPfc port cls false s
  else s

/-- A frame of this device's own: not one it forwards. -/
def ownFrame (s : State) (f : VrtFrame) : Bool := decide (f.srcRing = s.nv.ringId)

/-- A port may send a frame of a class now: credit on a direct hop (modulo 2^32), no pause on a switched attachment
(10 R287, R288). -/
def classOpen (p : Port) (cls : Nat) : Bool :=
  p.up &&
  (if p.cfg.attach = 0 then
    decide ((vget p.credit (cls - 1) 0) - (vget p.sent (cls - 1) 0) ≠ 0) &&
    decide ((vget p.credit (cls - 1) 0 - vget p.sent (cls - 1) 0).toNat < 2 ^ 31)
  else !flag p.paused cls)

/-- A frame may be sent now: its class is open, and there is room in the replay buffer of a short hop (10 R294). -/
def mayTransmit (p : Port) (f : VrtFrame) : Bool :=
  classOpen p f.cls.toNat &&
  (!p.short || decide (sumN (p.replayBuf.map fun g => 32 + g.payload.length) + 32 + f.payload.length ≤ 2 ^ 23))

/-- The next partition in turn with a waiting frame: its own first while it has frames left (13 R357). -/
def wrrPick (t : ClassTurn) (waiting : List Nat) : Nat :=
  if t.left > 0 ∧ t.part ∈ waiting then t.part
  else match ((List.range 8).map fun i => (t.part + 1 + i) % 8).find? (fun p => p ∈ waiting) with
    | some p => p
    | none => t.part

/-- The frame of a class the arbiter serves (13 R357): originated frames in weighted round robin, forwarded
frames alternating with them. Its place in the queue, and the arbiter's new state. -/
def arbitrate (s : State) (port cls : Nat) : Option (Nat × ClassTurn) :=
  let p := s.port port
  let t := vget p.turns (cls - 1) ClassTurn.reset
  let cand := p.txq.zipIdx.filter fun x => decide (x.1.cls.toNat = cls) && mayTransmit p x.1
  let own := cand.filter fun x => ownFrame s x.1
  let fwd := cand.filter fun x => !ownFrame s x.1
  let q := wrrPick t (own.map fun x => x.1.srcPart.toNat)
  let ownPick := own.find? fun x => decide (x.1.srcPart.toNat = q)
  let t' : ClassTurn :=
    if t.left > 0 ∧ t.part = q then { fwd := false, part := q, left := t.left - 1 }
    else { fwd := false, part := q, left := defWeight (s.defOf q) cls - 1 }
  match ownPick, fwd.head? with
  | some a, some b => if t.fwd then some (a.2, t') else some (b.2, { t with fwd := true })
  | some a, none => some (a.2, t')
  | none, some b => some (b.2, { t with fwd := true })
  | none, none => none

/-- One frame of the queue at a place sent: its HSEQ on a short hop, its copy in the replay buffer, the
receive buffer of a forwarded frame freed at the port it came in by. -/
def transmitAt (port i cls : Nat) (t : ClassTurn) (s : State) : State :=
  let p := s.port port
  match p.txq[i]? with
  | none => s
  | some f =>
    let short := p.short
    let f' := { f with hseq := if short then p.hseqTx else 0 }
    let fwd := !ownFrame s f
    let s := s.onPort port fun p => { p with
      txq := p.txq.eraseIdx i,
      lastCls := cls - 1,
      turns := vmod p.turns (cls - 1) fun _ => t,
      sent := vmod p.sent (cls - 1) (· + 1),
      hseqTx := if short then p.hseqTx + 1 else p.hseqTx,
      replayBuf := if short then p.replayBuf ++ [f'] else p.replayBuf,
      replayAt := if short then p.replayAt + 1 else p.replayAt }
    let s := emit port f' s
    if fwd then pfcUpdate (1 - port) cls (freeBuffer (1 - port) cls s) else s

/-- A port that came up again has frames in its replay buffer that it has not sent since (10 R294). -/
def replayWaits (p : Port) : Bool := p.short && (p.awaitLack || decide (p.replayAt < p.replayBuf.length))

/-- The next of them that may leave: after the first LACK, in order, under the credits of the new count (10 R287, R294;
DEDUCED, log entry 58). -/
def replayNext (p : Port) : Option VrtFrame :=
  if p.awaitLack then none else
  match p.replayBuf[p.replayAt]? with
  | some g => if classOpen p g.cls.toNat then some g else none
  | none => none

/-- It sent, counted like a first transmission. -/
def replayOne (port : Nat) (g : VrtFrame) (s : State) : State :=
  emit port g (s.onPort port fun p => { p with
    replayAt := p.replayAt + 1, sent := vmod p.sent (g.cls.toNat - 1) (· + 1) })

/-- Frames leave while a class has one that may be sent; classes take turns (13 R357). Frames kept over a restart go
first. -/
def pump : Nat → Nat → State → State
  | 0, _, s => s
  | n + 1, port, s =>
    if replayWaits (s.port port) then
      match replayNext (s.port port) with
      | some g => pump n port (replayOne port g s)
      | none => s
    else
    let order := (List.range 3).map fun i => ((s.port port).lastCls + 1 + i) % 3 + 1
    match order.findSome? fun c => (arbitrate s port c).map fun a => (c, a) with
    | some (c, (i, t)) => pump n port (transmitAt port i c t s)
    | none => s

/-- The waiting frames of a port sent as far as credit goes. -/
def pumpPort (port : Nat) (s : State) : State := pump ((s.port port).txq.length + (s.port port).replayBuf.length) port s

/-- A frame of class 1 to 3 queued at a port and sent as far as credit goes. -/
def sendFrame (port : Nat) (f : VrtFrame) (s : State) : State :=
  if f.cls = 0 then sendClass0 port f s
  else pumpPort port (s.onPort port fun p => { p with txq := p.txq ++ [f] })

/-- A LACK with the highest HSEQ received in order, and whether a replay is wanted (10 R294). -/
def sendLack (port : Nat) (replay : Bool) (s : State) : State :=
  let h := (s.port port).hseqRx - 1
  sendClass0 port (newFrame s 2 0 (neighbour s port) 0 0 (leBytes 4 h.toNat ++ [if replay then 1 else 0])) s

/-- The class a type's frames carry (10 R283): 0, or 1 to 3. -/
def classOk (f : VrtFrame) : Bool :=
  match f.type.toNat with
  | 0 | 4 => decide (f.cls ≠ 0)
  | 7 | 8 => decide (f.cls = 1)
  | 1 | 2 | 3 | 5 | 6 | 9 => decide (f.cls = 0)
  | _ => false

/-- The checks of 10 R284, with LEN within the class's payload limit (10 R285), the payload there, and the UDP checksum of
10 R282 (DEDUCED, log entry 98: a frame that fails it is dropped and counted like the others). -/
def frameOk (f : VrtFrame) : Bool :=
  decide (f.ver = 1) && decide (f.rsvd = 0) && classOk f && f.fcsOk && sumOk f && decide (f.hcrc = crc32c (vrtHead28 f)) &&
  decide (f.len.toNat ≤ (if f.cls = 0 then 256 else 4096)) && decide (f.len.toNat ≤ f.payload.length)

/-- Receive buffers of a class that a partition may hold on a port (13 R356). -/
def poolShare (s : State) (port p cls : Nat) : Nat :=
  let b := (vget (s.port port).classes.pool (cls - 1) 0).toNat
  let w := sumN ((List.range 8).map fun q => defWeight (s.defOf q) cls)
  if w = 0 then 0 else b * defWeight (s.defOf p) cls / w

/-- Buffers of a class a partition holds on a port. -/
def heldBy (s : State) (port p cls : Nat) : Nat :=
  ((s.port port).held.filter fun x => decide (x = (cls, p))).length

/-- A STREAM_CREDIT_VIOLATION of a partition counted (10 R288). -/
def creditViolation (p : Nat) (s : State) : State :=
  s.onPart p fun q => { q with credViol := satInc q.credViol }

/-- A dropped frame counted in OD 0x5p20:08. -/
def headerDrop (port : Nat) (s : State) : State :=
  s.onPort port fun p => { p with hdrDrops := satInc p.hdrDrops }

/-- The link-level receive of a class 1 to 3 frame: false when it is dropped as out of sequence or a repeat on a short hop,
or beyond credit on a direct hop; the partition of this device it was addressed to counts that (10 R288, R294). -/
def linkReceive (port : Nat) (f : VrtFrame) (s : State) : Bool × State :=
  let p := s.port port
  let c := f.cls.toNat - 1
  if p.short ∧ f.hseq ≠ p.hseqRx then
    if (f.hseq - p.hseqRx).toNat < 2 ^ 31 then (false, sendLack port true s) else (false, s)
  else
    let s := if p.short then s.onPort port fun p => { p with hseqRx := p.hseqRx + 1 } else s
    if p.cfg.attach ≠ 0 then
      (true, pfcUpdate port f.cls.toNat
        (s.onPort port fun p => { p with rx := vmod p.rx c fun x => { x with inUse := x.inUse + 1 } }))
    else
      let x := vget p.rx c PortRx.reset
      if x.recvd = x.granted then
        let s := s.onPort port fun p => { p with beyond := satInc p.beyond }
        (false, if f.dstRing = s.nv.ringId then creditViolation f.dstPart.toNat s else s)
      else
        (true, s.onPort port fun p => { p with
          rx := vmod p.rx c fun x => { x with recvd := x.recvd + 1, inUse := x.inUse + 1 } })

/-- The payload of a frame within its LEN, without padding (10 R283). -/
def frameBody (f : VrtFrame) : List Byte := f.payload.take f.len.toNat

/-- A CREDIT, a LACK or a PROBE that is no cupping frame concerns one hop: the port at its other end consumes it, whatever
devices are by-passed between (10 R287, R293, R294, R309; DEDUCED, log entry 58). -/
def hopLocal (f : VrtFrame) : Bool :=
  decide (f.type = 1) || decide (f.type = 2) || (decide (f.type = 6) && decide ((frameBody f).head? ≠ some 0x10))

/-- Bytes of a class 0 buffer a frame takes (10 R286). -/
def class0Size (f : VrtFrame) : Nat := 32 + f.payload.length

/-- A class 0 frame finds room in the 2 MiB of class 0 buffers (10 R286). -/
def class0Room (p : Port) (f : VrtFrame) : Bool := decide (p.c0held + class0Size f ≤ 2 ^ 21)

/-- A class 0 frame taken into the class 0 buffers, or dropped and counted in OD 0x5p20:07 (10 R286). -/
def class0Receive (port : Nat) (f : VrtFrame) (s : State) : Bool × State :=
  if class0Room (s.port port) f then (true, s.onPort port fun p => { p with c0held := p.c0held + class0Size f })
  else (false, s.onPort port fun p => { p with c0drops := satInc p.c0drops })

/-- The damaged copy of a class 0 frame that was forwarded by cut-through from direct hop to direct hop before its FCS
failed: it ends with an inverted FCS (10 R284, R289; DESIGN CHOICE, log entry 62: every such frame is cut through). -/
def cutThrough (port : Nat) (f : VrtFrame) (s : State) : State :=
  if f.fcsOk = false ∧ frameOk { f with fcsOk := true } = true ∧ f.cls = 0 ∧ hopLocal f = false ∧ f.dstRing ≠ s.nv.ringId ∧
      f.srcRing ≠ s.nv.ringId ∧ f.hopsLeft ≠ 0 ∧ (s.port port).cfg.attach = 0 ∧ (s.port (1 - port)).cfg.attach = 0 then
    emitRaw (1 - port) { sealFrame { f with hopsLeft := f.hopsLeft - 1, payload := f.payload.take f.len.toNat } with fcsOk := false } s
  else s

/-- What a port does with a frame (10 R281, R284): the payload cut to LEN when the frame is consumed here;
otherwise the frame is dropped or forwarded. A consumed frame of class 1 to 3 holds a buffer. -/
def receive (port : Nat) (f : VrtFrame) (s : State) : Option VrtFrame × State :=
  if (s.port port).up = false ∨ carried (s.port port) f = false then (none, s)
  else if frameOk f = false then
    let s := cutThrough port f (headerDrop port s)
    (none, if (s.port port).short then sendLack port true s else s)
  else
    let g := { f with payload := f.payload.take f.len.toNat }
    let r := if f.cls = 0 then class0Receive port g s else linkReceive port g s
    if r.1 = false then (none, r.2)
    else
      let s := r.2
      if f.dstRing = s.nv.ringId ∨ hopLocal g = true then (some g, s)
      else if f.srcRing = s.nv.ringId ∨ f.hopsLeft = 0 then
        (none, (if f.cls = 0 then id else freeBuffer port f.cls.toNat) (headerDrop port s))
      else (none, sendFrame (1 - port) { g with hopsLeft := g.hopsLeft - 1 } s)

/-- A consumed frame of class 1 to 3 takes a buffer of its partition's part, or is dropped, its buffer
returned, and counted (13 R356). -/
def holdBuffer (port : Nat) (f : VrtFrame) (s : State) : Bool × State :=
  let p := f.dstPart.toNat
  let c := f.cls.toNat
  if heldBy s port p c ≥ poolShare s port p c then (false, creditViolation p (freeBuffer port c s))
  else (true, s.onPort port fun q => { q with held := q.held ++ [(c, p)] })

/-- A buffer held for a partition freed. -/
def releaseBuffer (port cls p : Nat) (s : State) : State :=
  pfcUpdate port cls (freeBuffer port cls (s.onPort port fun q => { q with held := q.held.erase (cls, p) }))

/-- A frame sent in both directions (10 R305). -/
def sendBoth (f : VrtFrame) (s : State) : State := sendClass0 1 f (sendClass0 0 f s)

/-- The first 16 bytes of the digest of a group's member list (10 R301). -/
def groupDigest (l : List Byte) : List Byte := (sha256Bytes l).take 16

/-- Members of a group list: ring id and partition (10 R301). -/
def groupMembers (l : List Byte) : List (Nat × Nat) :=
  (List.range (l.length / 4)).map fun i => (leNat (slice l (4 * i) 2), leNat (slice l (4 * i + 2) 1))

/-- Payload of a CCTL frame: kind, list digest, operation, RTYPE, length (10 R283; log entry 34). -/
def cctlPayload (kind : Nat) (digest : List Byte) (cop : Nat) (rtype : Bool) (len : Nat) : List Byte :=
  [BitVec.ofNat 8 kind] ++ digest ++ [BitVec.ofNat 8 cop, if rtype then 1 else 0] ++ leBytes 4 len

/-- A CCTL frame of a collective; the group number stands in STREAM (log entry 34). -/
def cctlFrame (s : State) (kind p : Nat) (x : Coll) (dst : Nat × Nat) : VrtFrame :=
  { newFrame s 5 0 (BitVec.ofNat 16 dst.1) dst.2 p
      (cctlPayload kind (groupDigest (vget (s.part p).groups x.group [])) x.cop.toNat x.rtype x.len) with
    stream := BitVec.ofNat 8 x.group, xid := x.inst }

/-- Payload of a cupping frame (16 R412). -/
def cupPayload (kind : Nat) (point seen : BitVec 64) (run d : BitVec 256) : List Byte :=
  [0x10, BitVec.ofNat 8 kind] ++ zeros 6 ++ leBytes 8 point.toNat ++ leBytes 8 seen.toNat ++
  beBytes 32 run.toNat ++ beBytes 32 d.toNat

/-- The peer of a partition's cupping configuration: ring id and partition (16 R411). -/
def cupPeer (cfg : BitVec 32) : BitVec 16 × Nat := (BitVec.ofNat 16 (fld cfg 15 0), fld cfg 23 16 % 8)
/-- Enable of a cupping configuration. -/
def cupEnabled (cfg : BitVec 32) : Bool := decide (fld cfg 31 24 = 1)

/-- The port a frame for a ring id leaves by: the shorter way round, E on a tie (log entry 35). -/
def routePort (s : State) (ring : BitVec 16) : Nat :=
  let n := s.nv.ringSize.toNat
  if n = 0 then 0 else
  let up := (ring.toNat + n - s.nv.ringId.toNat % n) % n
  if 2 * up ≤ n then 0 else 1

/-- The control cores of a partition leave the commit point they hold at (07 R214, 16 R413), unless a save
waits there (08 R238). -/
def releaseCores (p : Nat) (s : State) : State :=
  if (s.part p).saveReq ≠ none then s else
  forEach (s.cellsOf p) (fun c s => s.onCell c fun x =>
    if x.core.run = .atMark then { x with core := { x.core with run := .running } } else x)
    (s.onPart p fun q => { q with atPoint := false })

/-- The trace stores of a partition's cells emptied (16 R407). -/
def emptyTraces (p : Nat) (s : State) : State :=
  forEach (s.liveCells p) (fun c s => s.onCell c fun x => { x with trace := [], ovf := false }) s

/-- Cupping ends without a mismatch: state 4; cores that wait at a point leave it, and the interval after it begins with
empty trace stores (16 R407, R413, R415). -/
def cupOver (p : Nat) (s : State) : State :=
  let s' := s.onPart p fun q => { q with cup := { q.cup with st := 4, point := none } }
  if (s.part p).cup.point = none then s' else releaseCores p (emptyTraces p s')

/-- What a peer partition does with END: state 4, cupping over, its cores released (16 R415). -/
def cupEndAt (p : Nat) (s : State) : State :=
  let q := s.part p
  if cupEnabled q.det.cup = true ∧ q.cup.st ≠ 0 ∧ q.cup.st ≠ 3 ∧ q.cup.st ≠ 4 then cupOver p s else s

/-- POINT of a partition's present commit point (16 R412). -/
def pointOf (q : Part) : BitVec 64 := BitVec.ofNat 64 (q.replays.toNat * 2 ^ 16 + q.commitN)

/-- END to the peer that a configuration names (16 R412, R415); a peer partition of this device is reached on the link
die (R411). -/
def endPeerOf (p : Nat) (cfg : BitVec 32) (s : State) : State :=
  let q := s.part p
  let peer := cupPeer cfg
  if peer.1 = s.nv.ringId then (if cupPeer (s.part peer.2).det.cup = (s.nv.ringId, p) then cupEndAt peer.2 s else s)
  else sendClass0 (routePort s peer.1)
    (newFrame s 6 0 peer.1 peer.2 p (cupPayload 2 (pointOf q) q.cup.seen q.det.run q.det.d)) s

/-- END to the peer of a partition whose module was loaded with cupping enabled (16 R415). -/
def sendCupEnd (p : Nat) (s : State) : State :=
  if cupEnabled (s.part p).det.cup then endPeerOf p (s.part p).det.cup s else s

end Sys2Proof.Machine
end

