-- ==== Sys2Proof/Machine/Decisions.lean ====
section
/-! DEFINITION. The end of a collective at a member, and the decisions of a coordinator (10 R305). -/

set_option Elab.async false

namespace Sys2Proof.Machine

/-- The collective, or the barrier, of a group and instance in progress at a member. -/
def workOf (s : State) (p g : Nat) (barrier : Bool) (inst : BitVec 32) : Option Coll :=
  (s.part p).colls.find? fun x => decide (x.group = g ∧ x.inst = inst ∧ x.barrier = barrier)
def collOf (s : State) (p g : Nat) (inst : BitVec 32) : Option Coll := workOf s p g false inst

/-- One collective or barrier changed at a member. -/
def onColl (p g : Nat) (barrier : Bool) (inst : BitVec 32) (f : Coll → Coll) (s : State) : State :=
  s.onPart p fun q => { q with colls := q.colls.map fun x =>
    if x.group = g ∧ x.inst = inst ∧ x.barrier = barrier then f x else x }

/-- The outcome of a data-mover command in progress, set once: status, the hash AUX holds under HASH_EN, and the
bytes it landed (09 R269, R270). -/
def finishDm (c : Nat) (seqNo : BitVec 32) (status : Nat) (hash : BitVec 64) (landed : List Byte) (s : State) : State :=
  s.onCell c fun x => { x with dm := x.dm.map fun r =>
    if r.entry.seqNo = seqNo ∧ r.done = none then
      { r with
        landed := contentHash landed, landLen := landed.length,
        done := some ⟨BitVec.ofNat 8 status, r.counts, if status = stOk ∧ flag r.entry.word 48 = true then hash else 0⟩ }
    else r }

/-- The members of a partition's group list. -/
def membersOf (s : State) (p g : Nat) : List (Nat × Nat) := groupMembers (vget (s.part p).groups g [])

/-- The index of a partition of this device in a group (10 R301). -/
def memberIndex (s : State) (p g : Nat) : Option Nat := (membersOf s p g).findIdx? fun m => decide (m = (s.nv.ringId.toNat, p))

/-- The collectives of a member act while its partition runs (13 R361). -/
def memberActs (s : State) (p : Nat) : Bool := s.running p

/-- An instance that a member has not issued yet (10 R301). -/
def notYet (s : State) (p g : Nat) (barrier : Bool) (inst : BitVec 32) : Bool :=
  let n := vget (if barrier then (s.part p).binst else (s.part p).inst) g 0
  decide ((inst - n).toNat < 2 ^ 31)

/-- A frame for an instance not yet issued kept; `port` 2 is the link die itself. -/
def keepEarly (p port : Nat) (f : VrtFrame) (s : State) : State :=
  s.onPart p fun q => { q with early := q.early ++ [(port, f)] }

/-- A collective or barrier ends at a member: its command gets its status, OD 0x5610 the decision (a barrier
has none). -/
def endColl (p : Nat) (x : Coll) (status decision : Nat) (landed : List Byte) (s : State) : State :=
  let s := finishDm x.cell x.seqNo status (contentHash landed) landed s
  let s := s.onRing fun r => { r with tx := r.tx.filter fun t => !(decide (t.part = p) && (match t.origin with
    | .seg g i _ _ => decide (g = x.group ∧ i = x.inst) && !x.barrier
    | _ => false)) }
  s.onPart p fun q => { q with
    colls := q.colls.filter fun y => !decide (y.group = x.group ∧ y.inst = x.inst ∧ y.barrier = x.barrier),
    decision := if x.barrier then q.decision else vmod q.decision x.group fun _ => BitVec.ofNat 8 decision }

/-- A member acts on ABORT: COLLECTIVE_ABORTED, DADDR unchanged (10 R305 order 6). -/
def memberAbort (p g : Nat) (inst : BitVec 32) (s : State) : State :=
  match collOf s p g inst with
  | some x => if memberActs s p then endColl p x stAborted stAborted [] s else s
  | none => s

/-- The members of a group on this device, by partition. -/
def localMembers (s : State) (l : List (Nat × Nat)) : List Nat :=
  (l.filter fun m => decide (m.1 = s.nv.ringId.toNat)).map Prod.snd

/-- A decision frame sent to every remote member in both directions (10 R305). -/
def sendDecision (p kind : Nat) (x : Coll) (s : State) : State :=
  forEach ((membersOf s p x.group).filter fun m => decide (m.1 ≠ s.nv.ringId.toNat))
    (fun m s => sendBoth (cctlFrame s kind p x m) s) s

/-- The coordinator decides abort, unless it has decided (10 R305 order 4): ABORT to every member. -/
def coordAbort (p g : Nat) (inst : BitVec 32) (s : State) : State :=
  match collOf s p g inst with
  | none => s
  | some x =>
    if x.decided.isSome ∨ (s.part p).st = 2 then s else
    let s := onColl p g false inst (fun y => { y with decided := some false }) s
    let s := sendDecision p 4 x s
    forEach (localMembers s (membersOf s p g)) (fun q s => memberAbort q g inst s) s

/-- ABORT_REQ from a member: in both directions to the coordinator, or to it on the link die; one for an
instance the coordinator has not issued waits there. -/
def sendAbortReq (p : Nat) (x : Coll) (s : State) : State :=
  match (membersOf s p x.group).head? with
  | none => s
  | some m =>
    if m.1 ≠ s.nv.ringId.toNat then sendBoth (cctlFrame s 2 p x m) s
    else if notYet s m.2 x.group false x.inst then keepEarly m.2 2 (cctlFrame s 2 p x m) s
    else coordAbort m.2 x.group x.inst s

/-- A member that detects a failure sends ABORT_REQ and stops its work on the collective (10 R305 order 3). -/
def failColl (p g : Nat) (inst : BitVec 32) (s : State) : State :=
  match collOf s p g inst with
  | none => s
  | some x =>
    if x.aborted ∨ memberActs s p = false then s
    else sendAbortReq p x (onColl p g false inst (fun y => { y with aborted := true }) s)

end Sys2Proof.Machine
end

