-- ==== Sys2Proof/Machine/Resets.lean ====
section
/-! DEFINITION. Stopping a partition (13 R361, 04 R124) and starting a partition reset (13 R362 orders 1 to 3). -/

set_option Elab.async false

namespace Sys2Proof.Machine

/-- A pending save ends without a record: NOT_READY (08 R238, R240). -/
def dropSave (p : Nat) (s : State) : State :=
  match (s.part p).saveReq with
  | none => s
  | some a =>
    notify p 0x03 stNotReady a.toNat
      (s.onPart p fun q => { q with saveReq := none, saving := false, ctxStatus := BitVec.ofNat 8 stNotReady })

/-- One cell when its partition stops (04 R124): the provisional window is squashed; in the faulting cell the
committed data-mover commands before the faulting one stay, in the others the committed ones in progress; all
else ends without a record. -/
def stopCell (fault : Option (Nat × BitVec 32)) (c : Nat) (s : State) : State :=
  let s := squashProvisional c s
  s.onCell c fun x =>
    let keep := fun (q : Nat) (e : QEntry) =>
      decide (q = 4) && (match fault with
        | some (c', n) => if c = c' then decide (e.seqNo < n) else (x.dm.any fun r => decide (r.entry.seqNo = e.seqNo))
        | none => x.dm.any fun r => decide (r.entry.seqNo = e.seqNo))
    let y := dropCommands x fun q e => !keep q e
    { y with samples := [], dupBad := [], stopped := true,
             core := { y.core with run := if y.core.run = .ended then .ended else .halted, gate := none } }

/-- What an outgoing transfer comes from is over: the command was dropped, or it is a segment of a collective, which
issues nothing once its partition has stopped (04 R124, 13 R361). A stream-engine descriptor runs on. -/
def txOver (s : State) (t : TxXfer) : Bool :=
  match t.origin with
  | .cmd c n => !((s.cell c).dm.any fun r => decide (r.entry.seqNo = n))
  | .seg _ _ _ _ => true
  | _ => false

/-- The ring traffic of a partition that has stopped (04 R124, 13 R361; log entry 95): no frame of a dropped command's
transfer and no segment leaves or is sent again. -/
def dropTraffic (p : Nat) (s : State) : State :=
  let ended := fun (t : TxXfer) => decide (t.part = p) && txOver s t
  let gone := fun (f : VrtFrame) => decide (f.srcRing = s.nv.ringId ∧ f.srcPart.toNat = p) &&
    (decide (f.type = 4) || (decide (f.type = 0) && s.ring.tx.any fun t => ended t && decide (t.xid = f.xid)))
  let s := s.onRing fun r => { r with tx := r.tx.filter fun t => !ended t }
  forEach [0, 1] (fun n s => s.onPort n fun q => { q with txq := q.txq.filter fun f => !gone f }) s

/-- What a stop does to a partition (13 R361): OD 0x2030 reads 2, the replay state 3, a pending save ends, a step
replay takes the status as its verdict (16 R410). -/
def haltPartition (p status : Nat) (fault : Option (Nat × BitVec 32)) (s : State) : State :=
  let s := dropTraffic p (forEach (s.cellsOf p) (stopCell fault) s)
  let s := s.onPart p fun q => { q with
    st := 2, rst := if q.rst = 0 then 0 else 3, atPoint := false,
    stepStatus := if q.step = none then q.stepStatus else BitVec.ofNat 8 status, step := none }
  dropSave p s

/-- A partition stops on a status, raised at a cell (13 R361), with notice 0x05. -/
def stopPartition (p cell status : Nat) (fault : Option (Nat × BitVec 32)) (s : State) : State :=
  if (s.part p).st ≠ 1 then s else notify p 0x05 status cell (haltPartition p status fault s)

/-- A cell brought to rest by a partition reset: control core, queues, engines and their state (13 R362). -/
def clearCell (c : Nat) (s : State) : State :=
  s.onCell c fun x => { Cell.reset with
    core := { x.core with run := .halted, snaps := [], gate := none }, k := x.k, kSeen := x.kSeen, guard := x.guard,
    corr := x.corr, scrubPos := x.scrubPos, recs := x.recs, firstFault := x.firstFault, framePos := x.framePos,
    trace := x.trace, ovf := x.ovf, provBase := x.provBase, provSize := x.provSize, stopped := true }

/-- ABORT_REQ for a collective of a resetting member, unless its commit has been sent (10 R309). -/
def abortColl (p : Nat) (x : Coll) (s : State) : State :=
  if x.barrier || decide (x.decided = some true) then s else sendAbortReq p x s

/-- Incoming transfers of a partition dropped: the buffers they hold are returned (13 R362 order 3). -/
def dropHeld (p : Nat) (s : State) : State :=
  forEach [0, 1] (fun port s =>
    forEach ((s.port port).held.filter fun x => decide (x.2 = p)) (fun x s => releaseBuffer port x.1 p s) s) s

/-- Orders 1 to 3 of a partition reset (13 R362). A reset while one runs merges with it (13 R366). `unc` is
the cause of a memory-caused reset: partition-relative address and location (09 R251 order 4). -/
def startReset (p : Nat) (unc : Option (Nat × Nat)) (s : State) : State :=
  if (s.part p).st = 3 then s else
  let s := sendCupEnd p (s.onPart p fun q => { q with st := 3 })
  let s := forEach (s.part p).colls (abortColl p) s
  let s := dropSave p s
  let s := dropHeld p s
  let s := forEach (s.cellsOf p) clearCell s
  let s := s.onRing fun r => { r with
    tx := r.tx.filter fun t => decide (t.part ≠ p), rx := r.rx.filter fun t => decide (t.part ≠ p) }
  let s := s.onEop fun e => { e with segs := e.segs.filter fun t => decide ((if t.index = 0x5600 then t.part.val else 0) ≠ p) }
  let s := s.onPort 0 fun q => { q with txq := q.txq.filter fun f => !(decide (f.srcRing = s.nv.ringId ∧ f.srcPart.toNat = p)) }
  let s := s.onPort 1 fun q => { q with txq := q.txq.filter fun f => !(decide (f.srcRing = s.nv.ringId ∧ f.srcPart.toNat = p)) }
  s.onPart p fun q =>
    let q := { q with
      st := 3, atPoint := false, trees := [], paced := Vector.replicate 3 [], recvs := [], colls := [], early := [],
      restoring := none, saving := false, step := none, cup := { q.cup with point := none },
      resetCause := if unc.isSome then BitVec.ofNat 8 stUncorrectable else 0 }
    match unc with
    | some (a, loc) => { q with
        mrAddr := BitVec.ofNat 64 a, mrLoc := BitVec.ofNat 8 loc, mrStatus := BitVec.ofNat 8 stUncorrectable,
        mrCount := satInc q.mrCount }
    | none => q

end Sys2Proof.Machine
end

