-- ==== Sys2Proof/Machine/Access.lean ====
section
/-! DEFINITION. Memory by device physical address (09 R241): places, reads and writes of stored words,
corrections and their log, uncorrectable words, the flip-mask, and repairs (09 R246 to R261). -/

set_option Elab.async false

namespace Sys2Proof.Machine

/-- Where a device physical address lies (09 R241): a stack and its offset, a steward region (0 firmware,
1 shared), a cell store and its offset, the link-die buffers, or nowhere. -/
inductive Place where
  | stack (s x : Nat)
  | steward (r y : Nat)
  | cell (n o : Nat)
  | ldb (o : Nat)
  | none
  deriving DecidableEq, Repr

def stewardBase : Nat := 0x4000000000
def stackBase (s : Nat) : Nat := s * 0x200000000
def ldbWindow : Nat := 0xC000000000
/-- The partition shares within the link-die buffers (10 R279). -/
def shareArea : Nat := 0x0E000000

/-- The compute die of a cell, 0 for N (01 R19). -/
def dieOf (c : Nat) : Nat := if c < 17 then 0 else 1

/-- The map of device physical addresses. -/
def placeOf (a : Nat) : Place :=
  if a < 0x4000000000 then .stack (a / 0x200000000) (a % 0x200000000)
  else if a < 0x4008000000 then .steward 0 (a - 0x4000000000)
  else if a < 0x4010000000 then .steward 1 (a - 0x4008000000)
  else if 0x8000000000 ≤ a ∧ a < 0x8000000000 + 34 * 0x2000000 ∧ (a - 0x8000000000) % 0x2000000 < cellSize then
    .cell ((a - 0x8000000000) / 0x2000000) ((a - 0x8000000000) % 0x2000000)
  else if 0xC000000000 ≤ a ∧ a < 0xC010000000 then .ldb (a - 0xC000000000)
  else .none

/-- The partition whose link-die buffer share holds an offset. -/
def State.shareOwner (s : State) (o : Nat) : Option Nat :=
  if o < shareArea then none else
  (List.range 8).find? fun p => decide (s.ldbBase p ≤ o - shareArea) &&
    decide (o - shareArea < s.ldbBase p + defLdb (s.defOf p) * 2 ^ 20)

/-- The partition that owns a place. -/
def State.placeOwner (s : State) : Place → Option Nat
  | .stack n _ => s.stackOwner n
  | .cell n _ => s.cellOwner n
  | .ldb o => s.shareOwner o
  | _ => none

/-- A partition-relative stack address in device terms: the stacks in ascending order (09 R242). -/
def State.stackAddr (s : State) (p a : Nat) : Option Nat :=
  ((s.stacksOf p)[a / 2 ^ 33]?).map fun st => stackBase st + a % 2 ^ 33

/-- Bytes in a partition's stack range. -/
def State.stackBytes (s : State) (p : Nat) : Nat := (s.stacksOf p).length * 2 ^ 33

/-- The partition-relative address of a stack offset; of an unowned stack the offset itself (log entry 36). -/
def State.relAddr (s : State) (st x : Nat) : Nat :=
  match s.stackOwner st with
  | some p => ((s.stacksOf p).findIdx fun y => decide (y = st)) * 2 ^ 33 + x
  | none => x

/-- Channel, bank, row, column and subarray of a place in a stack, and whether its row is reserved (09 R243). -/
structure DramPos where
  stack : Nat
  chan  : Nat
  bank  : Nat
  row   : Nat
  col   : Nat
  rsv   : Bool
  deriving DecidableEq, Repr

def DramPos.sub (d : DramPos) : Nat := if d.rsv then 15 else d.row / 1024

/-- The position of a stack offset or of an offset in a steward region (09 R243). -/
def dramPos (stack x : Nat) (rsv : Bool) : DramPos :=
  { stack := stack, chan := bits x 11 8 ^^^ bits x 19 16, bank := bits x 18 14,
    row := if rsv then bits x 26 19 else bits x 32 19, col := bits x 13 12 * 8 + bits x 7 5, rsv := rsv }

def placePos : Place → Option DramPos
  | .stack n x => some (dramPos n x false)
  | .steward r y => some (dramPos (16 * r) y true)
  | _ => none

/-- A channel in the hold of a retrain: new accesses to it wait until it is released (09 R258 orders 2 to 7). -/
def channelHeld (s : State) (st ch : Nat) : Bool :=
  decide ((vget (s.stack st).chans ch Chan.reset).phase = .held)

/-- A device range of one place meets a held channel: every granule of 256 bytes lies in one channel, and 32 granules
in a row meet all sixteen (09 R243). -/
def accessHeld (s : State) (a n : Nat) : Bool :=
  decide (0 < n) && (List.range (min 32 ((a + n - 1) / 256 - a / 256 + 1))).any fun i =>
    match placePos (placeOf (a + 256 * i)) with
    | some d => channelHeld s d.stack d.chan
    | none => false

/-- A soft-repair entry without its spare index: kind, place, target (09 R253). -/
def softTarget (column : Bool) (d : DramPos) : Nat :=
  if column then d.sub * 2 ^ 10 + d.col * 2 ^ 5 else d.row

def softEntry (column : Bool) (d : DramPos) (spare : Nat) : BitVec 64 :=
  BitVec.ofNat 64 (2 ^ 63 + (if column then 2 ^ 62 else 0) + d.stack * 2 ^ 57 + d.chan * 2 ^ 53 + d.bank * 2 ^ 48
    + softTarget column d * 2 ^ 34 + spare * 2 ^ 30 + (if d.rsv && !column then 2 ^ 29 else 0))

/-- The spare a soft entry names. -/
def softKey (e : BitVec 64) : SpareKey :=
  { stack := fld e 61 57, chan := fld e 56 53, bank := fld e 52 48,
    sub := if flag e 62 then fld e 47 44 else 16, spare := fld e 33 30 }

/-- A channel classed permanent: its stack goes out of service at the next device reset (09 R254). -/
def channelPermanent (d : DramPos) (s : State) : State :=
  s.onUnit 2 (d.stack * 16 + d.chan) fun u => if u.cls = 3 then u else { u with cls := 2, pend := true }

/-- A row or column classed permanent: a soft entry on a spare that nothing uses, or the channel permanent
when none is free (09 R253, R254). A row or column already on the list is not entered again. -/
def addSoft (column : Bool) (d : DramPos) (s : State) : State :=
  if s.nv.soft.any fun e => setFld e 33 30 0 = softEntry column d 0 then s else
  let used := s.fuse.usedSpares ++ s.nv.soft.map softKey
  let key := fun (i : Nat) => SpareKey.mk d.stack d.chan d.bank (if column then d.sub else 16) i
  match (List.range (if column then 4 else 16)).find? fun i => decide (key i ∉ used) with
  | some i =>
    if s.nv.soft.length ≥ 4096 then channelPermanent d s else
    let e := softEntry column d i
    recordEvent 0x10 2 (d.stack * 16 + d.chan) 0 15 (fld e 63 24)
      (s.onNv fun nv => { nv with soft := nv.soft ++ [e] })
  | none => channelPermanent d s

/-- A word of a stack as one number: offset / 32, the reserved rows above. -/
def wordKey (d : DramPos) (x : Nat) : Nat := (if d.rsv then 2 ^ 28 else 0) + x / 32

/-- Position of a word by its number. -/
def keyPos (stack k : Nat) : DramPos :=
  if k ≥ 2 ^ 28 then dramPos stack ((k - 2 ^ 28) * 32) true else dramPos stack (k * 32) false

/-- The log entry of a correction without REPEAT (09 R249). -/
def logWord (d : DramPos) (scrub : Bool) (sym err : Nat) : BitVec 64 :=
  BitVec.ofNat 64 (2 ^ 63 + (if scrub then 2 ^ 62 else 0) + sym * 2 ^ 56 + err * 2 ^ 48 + d.chan * 2 ^ 44
    + d.bank * 2 ^ 39 + d.row * 2 ^ 25 + d.col * 2 ^ 20 + (if d.rsv then 2 ^ 11 else 0))

/-- Whether a log entry names a word. -/
def logSame (d : DramPos) (e : BitVec 64) : Bool :=
  decide (fld e 47 44 = d.chan ∧ fld e 43 39 = d.bank ∧ fld e 38 25 = d.row ∧ fld e 24 20 = d.col) && (flag e 11 == d.rsv)

/-- The log of a stack after a correction (09 R249). -/
def logCorrection (d : DramPos) (scrub : Bool) (sym err : Nat) (t : Stack) : Stack :=
  let t := { t with corr := t.corr + 1 }
  if t.log.any (logSame d) then
    { t with log := t.log.map fun e => if logSame d e then setFld e 19 12 (min (fld e 19 12 + 1) 255) else e }
  else if t.log.length < 32 then { t with log := t.log ++ [logWord d scrub sym err] }
  else { t with overflow := t.overflow + 1 }

/-- Classification of the row and column of a corrected word (15 R390). -/
def classifyRow (d : DramPos) (s : State) : State :=
  let t := s.stack d.stack
  let pos := t.words.map (keyPos d.stack)
  let sameRow := (pos.filter fun q => decide (q.chan = d.chan ∧ q.bank = d.bank ∧ q.row = d.row ∧ q.rsv = d.rsv)).length
  let sameCol := (pos.filter fun q => decide (q.chan = d.chan ∧ q.bank = d.bank ∧ q.sub = d.sub ∧ q.col = d.col)).length
  let repeat16 := t.log.any fun e => logSame d e && decide (fld e 19 12 ≥ 16)
  let s := if repeat16 || decide (sameRow ≥ 4) then addSoft false d s else s
  if sameCol ≥ 8 then addSoft true d s else s

/-- A correction counted and reported (09 R249, 15 R389). -/
def noteCorrection (a : Nat) (scrub : Bool) (sym err : Nat) (s : State) : State :=
  match placeOf a with
  | .cell n _ =>
    (s.onCell n fun x => { x with corr := satInc x.corr }).onUnit 1 n fun u => { u with corrected := satInc u.corrected }
  | pl =>
    match placePos pl with
    | none => s
    | some d =>
      let x := match pl with | .stack _ x => x | .steward _ y => y | _ => 0
      let s := s.onUnit 2 (d.stack * 16 + d.chan) fun u => { u with corrected := satInc u.corrected }
      let s := s.onStack d.stack fun t =>
        let t := logCorrection d scrub sym err t
        let k := wordKey d x
        { t with words := if k ∈ t.words then t.words else t.words ++ [k] }
      classifyRow d s

/-- What follows an uncorrectable word (09 R251): a partition reset, a device reset, or the word rewritten as
zero. -/
def uncorrectable (w : Nat) (s : State) : State :=
  let a := 32 * w
  let pl := placeOf a
  match pl, s.placeOwner pl with
  | .stack n x, some p =>
    let d := dramPos n x false
    recordEvent 0x11 2 (n * 16 + d.chan) stUncorrectable p (s.relAddr n x)
      (startReset p (some (s.relAddr n x, n)) s)
  | .cell n o, some p => recordEvent 0x16 1 n stUncorrectable p o (startReset p (some (o, 0x40 + n)) s)
  | .ldb o, some p =>
    let r := o - shareArea - s.ldbBase p
    recordEvent 0x18 8 0 stUncorrectable p r (startReset p (some (r, 0x80)) s)
  | .stack n x, none =>
    let d := dramPos n x false
    recordEvent 0x11 2 (n * 16 + d.chan) stUncorrectable 15 x { s with mem := s.mem.clear a 32 }
  | .cell n o, none => recordEvent 0x16 1 n stUncorrectable 15 o { s with mem := s.mem.clear a 32 }
  | .none, _ => s
  | _, _ =>
    deviceReset (countBoot ((recordEvent 0x17 8 0 stUncorrectable 15 a s).onNv
      fun nv => { nv with stwResets := satInc nv.stwResets }))

/-- One stored word read (09 R247): false when it is uncorrectable. -/
def checkWord (scrub : Bool) (w : Nat) (s : State) : Bool × State :=
  if mapGet 0 s.mem.errs w = 0 then (true, s) else
  match rsDecode (s.mem.stored w) with
  | .clean => (true, s)
  | .corrected sym err c =>
    (true, noteCorrection (32 * w) scrub sym err
      { s with mem := s.mem.writeN (32 * w) ((c.take 32).map (BitVec.ofNat 8)) })
  | .bad => (false, uncorrectable w s)

/-- Words checked in order until one is uncorrectable. -/
def checkWords (scrub : Bool) : List Nat → State → Bool × State
  | [], s => (true, s)
  | w :: r, s =>
    let c := checkWord scrub w s
    if c.1 then checkWords scrub r c.2 else c

/-- The words of a range that are not valid codewords. -/
def errWords (s : State) (a n : Nat) : List Nat :=
  let w := wordSpan a n
  (s.mem.errs.map Prod.fst).filter fun k => decide (w.1 ≤ k ∧ k < w.1 + w.2)

/-- n bytes read from a device address: none, with what follows, when a word is uncorrectable (09 R251). -/
def memRead (a n : Nat) (s : State) : Option (List Byte) × State :=
  let c := checkWords false (errWords s a n) s
  if c.1 then (some (c.2.mem.readN a n), c.2) else (none, c.2)

/-- Several ranges read in order. -/
def memReads : List (Nat × Nat) → State → Option (List (List Byte)) × State
  | [], s => (some [], s)
  | (a, n) :: r, s =>
    match memRead a n s with
    | (none, s) => (none, s)
    | (some b, s) =>
      match memReads r s with
      | (none, s) => (none, s)
      | (some l, s) => (some (b :: l), s)

/-- The persistent instances of a module by TID, then slot: TID, slot, address, bytes (08 R221, R237). -/
def Module.instances (m : Module) : List (Nat × Nat × Nat × Nat) :=
  (sortBy (fun (a b : TensorDecl) => decide (a.tid ≤ b.tid)) (m.tensors.filter fun t => t.persist)).flatMap fun t =>
    (List.range (if t.slotted then m.nSlots else 1)).map fun i =>
      (t.tid.toNat, i, t.addr + i * alignUp 4096 t.nbytes, t.nbytes)

/-- The persistent instances a stack write touches are marked as written (16 R403). -/
def touch (a n : Nat) (s : State) : State :=
  match placeOf a with
  | .stack st x =>
    match s.stackOwner st with
    | none => s
    | some p =>
      let r := s.relAddr st x
      s.onPart p fun q => match q.mod with
        | none => q
        | some m =>
          let hit := (m.instances.zipIdx.filter fun e =>
            decide (e.1.2.2.1 < r + n ∧ r < e.1.2.2.1 + e.1.2.2.2)).map Prod.snd
          { q with det := { q.det with touched := q.det.touched ++ hit.filter fun i => i ∉ q.det.touched } }
  | _ => s

/-- ADDR, MASK and ARM of a flip-mask (09 R261). -/
def flipAddr (f : BitVec 384) : Nat := fld f 63 0
def flipMask (f : BitVec 384) : BitVec 288 := BitVec.ofNat 288 (fld f 351 64)
def flipArmed (f : BitVec 384) : Bool := flag f 352

/-- The armed mask of the stack written is consumed by a write to its word (09 R261). -/
def consumeMask (a n : Nat) (s : State) : State :=
  match placeOf a with
  | .stack st x =>
    let f := (s.stack st).flip
    let base := flipAddr f % 2 ^ 33
    if flipArmed f = true ∧ base < x + n ∧ x < base + 32 then
      let w := (stackBase st + base) / 32
      let s := { s with mem := s.mem.storeWord w (s.mem.readN (32 * w) 32) (flipMask f) }
      s.onStack st fun t => { t with flip := setFld t.flip 352 352 0 }
    else s
  | _ => s

/-- Bytes written at a device address within one place: a partial word is read and merged first (09 R248);
`dm` for a data-mover write or the result of a memory-side add, which consume a flip-mask. False when a merged
word is uncorrectable. -/
def memWrite (dm : Bool) (a : Nat) (bs : List Byte) (s : State) : Bool × State :=
  if bs.isEmpty then (true, s) else
  let w := wordSpan a bs.length
  let part := (if a % 32 ≠ 0 then [w.1] else []) ++
    (if (a + bs.length) % 32 ≠ 0 then [w.1 + w.2 - 1] else [])
  let c := checkWords false (part.filter fun k => mapGet 0 s.mem.errs k ≠ 0) s
  if c.1 then
    let s := touch a bs.length { c.2 with mem := c.2.mem.writeN a bs }
    (true, if dm then consumeMask a bs.length s else s)
  else (false, c.2)

/-- A sequence of writes, stopping at an uncorrectable word. -/
def memWrites (dm : Bool) : List (Nat × List Byte) → State → Bool × State
  | [], s => (true, s)
  | (a, bs) :: r, s =>
    let c := memWrite dm a bs s
    if c.1 then memWrites dm r c.2 else c

/-- A byte range of one space cut where it crosses a stack boundary of a partition's range: device address and
length of each piece. -/
def stackPieces (s : State) (p : Nat) : Nat → Nat → Nat → List (Nat × Nat)
  | 0, _, _ => []
  | k + 1, a, n =>
    if n = 0 then [] else
    let m := min n (2 ^ 33 - a % 2 ^ 33)
    match s.stackAddr p a with
    | some d => (d, m) :: stackPieces s p k (a + m) (n - m)
    | none => []

/-- Pieces of a partition-relative range: at most one stack more than the partition owns. -/
def relPieces (s : State) (p a n : Nat) : List (Nat × Nat) := stackPieces s p ((s.stacksOf p).length + 1) a n

/-- Bytes read from a partition's stacks. -/
def relRead (p a n : Nat) (s : State) : Option (List Byte) × State :=
  match memReads (relPieces s p a n) s with
  | (some l, s) => (some l.flatten, s)
  | (none, s) => (none, s)

/-- A byte string cut by lengths. -/
def cutBytes : List (Nat × Nat) → List Byte → List (Nat × List Byte)
  | [], _ => []
  | (a, n) :: r, bs => (a, bs.take n) :: cutBytes r (bs.drop n)

/-- Bytes written into a partition's stacks. -/
def relWrite (dm : Bool) (p a : Nat) (bs : List Byte) (s : State) : Bool × State :=
  memWrites dm (cutBytes (relPieces s p a bs.length) bs) s

/-- Bytes of a cell's own store. -/
def ownRead (c o n : Nat) (s : State) : Option (List Byte) × State := memRead (cellBase c + o) n s
def ownWrite (c o : Nat) (bs : List Byte) (s : State) : Bool × State := memWrite false (cellBase c + o) bs s

/-- The repairs in force at a stack after the fuse map and the soft list have been applied (09 R253): an entry
whose spare is already used is not applied, and event 0x13 is recorded. -/
def applyRepairs (st : Nat) (s : State) : State :=
  let l := s.nv.soft.filter fun e => flag e 63 && decide (fld e 61 57 = st)
  let step := fun (acc : List (BitVec 64) × List SpareKey × State) (e : BitVec 64) =>
    let k := softKey e
    if k ∈ acc.2.1 then
      (acc.1, acc.2.1, recordEvent 0x13 2 (fld e 61 57 * 16 + fld e 56 53) 0 15 (fld e 63 24) acc.2.2)
    else (acc.1 ++ [e], acc.2.1 ++ [k], acc.2.2)
  let r := l.foldl step ([], s.fuse.usedSpares.filter (fun k => decide (k.stack = st)), s)
  r.2.2.onStack st fun t => { t with applied := r.1 }

end Sys2Proof.Machine
end

