-- ==== Sys2Proof/Machine/Operands.lean ====
section
/-! DEFINITION. The operands of a control-core instruction: its formats and fields, and when it is illegal
(07 R187 to R189); the general and parameter registers. -/

set_option Elab.async false

namespace Sys2Proof.Machine

def opcodeOf (w : BitVec 32) : Nat := fld w 31 26
def rdOf (w : BitVec 32) : Nat := fld w 25 21
def rs1Of (w : BitVec 32) : Nat := fld w 20 16
def rs2Of (w : BitVec 32) : Nat := fld w 15 11
def immOf (w : BitVec 32) : Nat := fld w 15 0

/-- A general register; g0 reads zero (07 R184). -/
def Core.greg (k : Core) (n : Nat) : BitVec 64 := if n = 0 then 0 else vget k.g n 0
/-- A general register written; g0 ignores writes (07 R184). -/
def Core.setG (k : Core) (n : Nat) (v : BitVec 64) : Core :=
  if n = 0 then k else { k with g := vmod k.g n fun _ => v }

/-- The instruction the program counter names; unused words are zero (07 R190). -/
def Core.fetch (k : Core) : BitVec 32 := (k.imem[k.pc]?).getD 0

/-- Highest index of instruction memory. -/
def imemSize : Nat := 16384

/-- The target of a branch, of JAL or of a CHKP, relative to its own address (07 R187). -/
def relTarget (pc : Nat) (n w : Nat) : Int := (pc : Int) + sext n w
def targetOk (t : Int) : Bool := decide (0 ≤ t) && decide (t < imemSize)

/-- A legal instruction in every respect that its word and the core's state decide (07 R188, R189). -/
def Core.legal (k : Core) (w : BitVec 32) : Bool :=
  let op := opcodeOf w
  if op ∈ [0x01, 0x02, 0x03, 0x04, 0x05, 0x06, 0x07, 0x08, 0x09, 0x0A, 0x0B, 0x0C, 0x0D] then
    decide (fld w 10 0 = 0)
  else if op ∈ [0x10, 0x11, 0x12, 0x13] then true
  else if op ∈ [0x14, 0x15, 0x16] then decide (fld w 15 6 = 0)
  else if op = 0x17 then decide (fld w 20 18 = 0)
  else if op = 0x18 then decide (rs1Of w = 0) && decide (fld w 15 7 = 0)
  else if op ∈ [0x20, 0x21, 0x22, 0x23, 0x24, 0x25] then targetOk (relTarget k.pc 16 (immOf w))
  else if op = 0x26 then targetOk (relTarget k.pc 26 (fld w 25 0))
  else if op = 0x27 then
    decide (rdOf w = 0) && decide (immOf w = 0) && decide ((k.greg (rs1Of w)).toNat < imemSize)
  else if op ∈ [0x28, 0x35] then decide (fld w 25 0 = 0)
  else if op = 0x30 then
    decide (rdOf w = 0) && decide (rs1Of w = 0) && decide (fld w 15 10 = 0) && decide (fld w 9 0 < k.tmpl.length)
  else if op = 0x31 then decide (fld w 6 0 = 0) && decide (fld w 20 13 + fld w 12 7 + 1 ≤ 256)
  else if op = 0x32 then decide (fld w 21 0 = 0) && decide (fld w 25 23 < 5)
  else if op = 0x33 then decide (immOf w = 0)
  else if op = 0x34 then
    decide (fld w 25 23 < 5) && decide (fld w 22 21 ≠ 3) && targetOk (relTarget k.pc 16 (immOf w)) &&
    (vget k.lastPush (fld w 25 23) none).isSome
  else false

/-- The instruction a running core executes next, if it is one of an opcode and legal. -/
def coreFetch (c op : Nat) (s : State) : Option (BitVec 32) :=
  let k := (s.cell c).core
  match s.works c with
  | none => none
  | some _ =>
    if k.run = .running ∧ k.pc < imemSize ∧ opcodeOf k.fetch = op ∧ k.legal k.fetch = true then some k.fetch else none

/-- A control core changed. -/
def State.onCore (s : State) (c : Nat) (f : Core → Core) : State :=
  s.onCell c fun x => { x with core := f x.core }

end Sys2Proof.Machine
end

