-- ==== Sys2Proof/Machine/Checkpoints.lean ====
section
/-! DEFINITION. Check points: opening, resolution, squash (07 R205, R209, R210). -/

set_option Elab.async false

namespace Sys2Proof.Machine

/-- The count a check point selects (07 R205). -/
def selectCount (sel : BitVec 2) (n : Counts) : Nat :=
  if sel = 0 then n.sat else if sel = 1 then n.flu else n.awn

/-- The prediction failed: the selected count, as the record holds it, exceeds the threshold (07 R209). -/
def predictionFailed (cp : CheckPoint) (n : Counts) : Bool :=
  decide (cp.threshold.toNat < sat32 (selectCount cp.count n))

/-- A check point squashes (07 R210 orders 1, 2, 5, 6): every later command is squashed, younger check points
are discarded, and the core waits to resume. -/
def squash (c : Nat) (cp : CheckPoint) (s : State) : State :=
  let s := match s.cellOwner c with
    | some p => s.onPart p fun q => { q with cSquash := satAdd q.cSquash 1 }
    | none => s
  let s := squashFrom c cp.seqNo s
  s.onCore c fun k => { k with
    run := .squashing cp,
    snaps := k.snaps.takeWhile fun x => decide (x ≠ cp),
    lastPush := k.lastPush.map fun l => match l with
      | some y => if cp.seqNo ≤ y.seqNo then some { y with squashed := true } else some y
      | none => none }

/-- The check points on one command, oldest first, resolved by its counts (07 R209): each closes, or squashes
and ends the matter. -/
def resolveAll (c : Nat) (n : Counts) : List CheckPoint → State → State
  | [], s => s
  | cp :: r, s =>
    if predictionFailed cp n then squash c cp s
    else resolveAll c n r (s.onCore c fun k => { k with snaps := k.snaps.filter fun x => decide (x ≠ cp) })

/-- The check points whose checked command has completed resolve (07 R209). -/
def resolve (c queue : Nat) (seqNo : BitVec 32) (n : Counts) (s : State) : State :=
  resolveAll c n ((s.cell c).core.snaps.filter fun cp => decide (cp.queue.val = queue ∧ cp.target = seqNo)) s

/-- CHKP: the snapshot saved (07 R205); a checked command that has already completed resolves it at once, a
squashed one discards it. -/
def openCheckPoint (c : Nat) (w : BitVec 32) (s : State) : State :=
  let k := (s.cell c).core
  let q := fld w 25 23
  match vget k.lastPush q none with
  | none => s
  | some l =>
    let cp : CheckPoint :=
      { queue := Fin.ofNat 5 q, target := l.seqNo, count := BitVec.ofNat 2 (fld w 22 21), threshold := k.greg (rs1Of w),
        regs := k.g, cw := k.cw, cwT := k.cwT, gate := k.gate, seqNo := k.seqNo, fallback := (relTarget k.pc 16 (immOf w)).toNat }
    let s := s.onCore c fun k => { k with pc := k.pc + 1 }
    if l.squashed then s else
    let s := s.onCore c fun k => { k with snaps := k.snaps ++ [cp] }
    match l.counts with
    | some n => resolveAll c n [cp] s
    | none => s

end Sys2Proof.Machine
end

