-- ==== Sys2Proof/Machine/Arrivals.lean ====
section
/-! DEFINITION. Arrivals on event counters and channels (07 R201, 09 R270, 16 R403), and the completion of a
command that stops its partition (04 R124, R127; 15 R386). -/

set_option Elab.async false

namespace Sys2Proof.Machine

/-- An event counter of a cell takes one arrival (07 R201). -/
def bumpCounter (cell ctr : Nat) (s : State) : State :=
  s.onCore cell fun k => { k with ev := vmod k.ev ctr (· + 1) }

/-- A running digest is kept while any of the three is in force (16 R403). -/
def Det.on (d : Det) : Bool := d.prov || cupEnabled d.cup || decide (d.caps > 0)

/-- The loaded module of a partition, or an empty one. -/
def modOf (s : State) (p : Nat) : Module := ((s.part p).mod).getD Module.reset

/-- Bytes of a capsule slot (16 R405, R408). -/
def slotSize (d : Det) : Nat := if cupEnabled d.cup then 0x800000 else 0x4800000

/-- D, the size of the determinism region (16 R405). -/
def regionSize (d : Det) : Nat :=
  if d.on then 0x400000 + (if cupEnabled d.cup then 0x4000000 else 0) + d.caps * slotSize d else 0

/-- Start of the region in the partition's range. -/
def regionBase (s : State) (p : Nat) : Nat := (modOf s p).foot

/-- Device ranges of which one lies in the determinism region, into which no command may write (16 R405). -/
def inRegion (s : State) (p : Nat) (l : List (Nat × Nat)) : Bool :=
  let r := if (s.part p).mod.isNone then [] else relPieces s p (regionBase s p) (regionSize (s.part p).det)
  l.any fun a => r.any fun b => decide (a.1 < b.1 + b.2 ∧ b.1 < a.1 + a.2)

/-- A step replay compares an arrival with the capsule's entry of the same cell, channel and index; a difference, or no
such entry, gives its verdict (16 R409 order 5). -/
def checkArrival (a : Arrival) (q : Part) : Part :=
  match q.step with
  | some x =>
    if x.hashing || x.expect.any (fun b => decide (b = a)) then q
    else { q with step := some { x with diff := true }, stepStatus := BitVec.ofNat 8 stDigest }
  | none => q

/-- An arrival on a channel of a logical cell: its entry, with its index since the load (16 R403). -/
def countChannel (p l ch : Nat) (h : BitVec 64) (len : Nat) (s : State) : State :=
  s.onPart p fun q =>
    let n := mapGet 0 q.det.counts (32 * l + ch)
    let a : Arrival := ⟨BitVec.ofNat 8 l, BitVec.ofNat 8 ch, n, h, BitVec.ofNat 64 len⟩
    let q := checkArrival a q
    { q with det := { q.det with
      counts := mapSet q.det.counts (32 * l + ch) (n + 1),
      arrivals := if q.det.on then q.det.arrivals ++ [a] else q.det.arrivals,
      stepArr := if q.det.caps > 0 then q.det.stepArr ++ [a] else q.det.stepArr } }

/-- The channel declaration of a logical cell's channel. -/
def Module.chan (m : Module) (l ch : Nat) : Option ChanDecl := m.chans.find? fun d => decide (d.cons = l ∧ d.chan = ch)

/-- An arrival named by logical cell and channel (10 R297): the counter translation assigned, if any, and the
digest entry. -/
def arriveChannel (p l ch : Nat) (h : BitVec 64) (len : Nat) (s : State) : State :=
  match (s.part p).mod with
  | none => s
  | some m =>
    match m.chan l ch, m.hosts[l]? with
    | some d, some c =>
      let s := match d.ctr with | some t => bumpCounter c t s | none => s
      countChannel p l ch h len s
    | _, _ => s

/-- The arrival of a completed data-mover command on its NCELL and NCTR (09 R270). -/
def arriveCommand (p : Nat) (e : QEntry) (h : BitVec 64) (len : Nat) (s : State) : State :=
  let n := fld e.word 59 54
  let s := if n = 0x3F then s else bumpCounter n (fld e.word 53 49) s
  match e.chan with
  | some (l, ch) => countChannel p l ch h len s
  | none => s

/-- The last pushed command of a queue has completed with these counts. -/
def notePushed (c q : Nat) (seqNo : BitVec 32) (n : Counts) (s : State) : State :=
  s.onCore c fun k => { k with lastPush := vmod k.lastPush q fun l => match l with
    | some y => if y.seqNo = seqNo ∧ y.squashed = false then some { y with counts := some n } else some y
    | none => none }

/-- Events of the stopping statuses raised (15 R389), each recorded against the cell. -/
def stopEvent (c p : Nat) (seqNo : BitVec 32) (status : Nat) (s : State) : State :=
  let et := if status = stSched then 0x03 else if status = stResidue then 0x01 else 0x02
  recordEvent et 1 c status p seqNo.toNat s

/-- RSD_EN of an MMUL: a command that completes without the residue check takes its partition out of the
silent-error bound (15 R383). -/
def noteResidue (p q : Nat) (e : QEntry) (s : State) : State :=
  if q = 0 ∧ fld e.word 255 252 = 1 ∧ flag e.word 50 = false then s.onPart p fun x => { x with rsdOff := true } else s

/-- A command that completes with a stopping status (04 R124): its record, then the partition stops; no check
point resolves (07 R209). -/
def completeStopping (c q : Nat) (e : QEntry) (status : Nat) (cnt : Counts) (aux : Nat) (s : State) : State :=
  match s.cellOwner c with
  | none => s
  | some p =>
    let s := writeRecord c q e status cnt aux s
    let s := s.onCell c fun x => dropCommands x fun q' e' => decide (q' = q ∧ e'.seqNo = e.seqNo)
    stopPartition p c status (some (c, e.seqNo)) (noteResidue p q e s)

end Sys2Proof.Machine
end

