-- ==== Sys2Proof/Machine/Numbers.lean ====
section
/-! DEFINITION. Exact arithmetic and rounding. Every value an engine handles is an integer times a power of
two until it is rounded; divisions are rounded straight from the exact quotient (04 R114, 05 R138). -/

set_option Elab.async false

namespace Sys2Proof.Machine

/-- An exact value m × 2^e. -/
structure Dy where
  m : Int
  e : Int
  deriving DecidableEq, Repr

namespace Exact

/-- 2^k for a shift that may be negative: the numerator side. -/
def up (k : Int) : Int := (2 ^ k.toNat : Nat)

def zero : Dy := ⟨0, 0⟩
def one : Dy := ⟨1, 0⟩
def ofInt (i : Int) : Dy := ⟨i, 0⟩
def mul (a b : Dy) : Dy := ⟨a.m * b.m, a.e + b.e⟩
def neg (a : Dy) : Dy := ⟨-a.m, a.e⟩
def scale (a : Dy) (k : Int) : Dy := ⟨a.m, a.e + k⟩
def add (a b : Dy) : Dy :=
  if a.m = 0 then b else if b.m = 0 then a else
  let e := min a.e b.e
  ⟨a.m * up (a.e - e) + b.m * up (b.e - e), e⟩
def sub (a b : Dy) : Dy := add a (neg b)
def abs (a : Dy) : Dy := ⟨a.m.natAbs, a.e⟩
def isZero (a : Dy) : Bool := a.m = 0
/-- a < b, exactly. -/
def lt (a b : Dy) : Bool := decide ((sub a b).m < 0)
def le (a b : Dy) : Bool := decide ((sub a b).m ≤ 0)
def sum (l : List Dy) : Dy := l.foldl add zero

end Exact

/-- A binary floating format: precision, least and largest exponent of a normal number. -/
structure FFmt where
  p    : Nat
  emin : Int
  emax : Int
  deriving DecidableEq, Repr

def f32 : FFmt := ⟨24, -126, 127⟩
def bf16 : FFmt := ⟨8, -126, 127⟩
def f16 : FFmt := ⟨11, -14, 15⟩

/-- Bits of a format's code without the sign. -/
def FFmt.magBits (f : FFmt) : Nat := (f.p - 1) + ((f.emax - f.emin + 3).toNat).log2

/-- Quotient rounded to nearest, ties to even. -/
def rneDiv (n d : Nat) : Nat :=
  let q := n / d
  let r := n % d
  if 2 * r > d ∨ (2 * r = d ∧ q % 2 = 1) then q + 1 else q

/-- floor(log2(n / d)) for n, d > 0. -/
def floorLog (n d : Nat) : Int :=
  let t : Int := (n.log2 : Int) - (d.log2 : Int)
  if n * 2 ^ (-t).toNat ≥ d * 2 ^ t.toNat then t else t - 1

/-- The magnitude n/d × 2^e rounded to nearest, ties to even, subnormals kept, as the code without its sign;
a result at or beyond the overflow threshold is the largest finite code, marked clamped (04 R114). -/
def roundMag (f : FFmt) (n d : Nat) (e : Int) : Nat × Bool :=
  if n = 0 then (0, false) else
  let xmin := f.emin - (f.p - 1 : Nat)
  let x := max (floorLog n d + e) f.emin - (f.p - 1 : Nat)
  let q := rneDiv (n * 2 ^ (e - x).toNat) (d * 2 ^ (x - e).toNat)
  let code := (x - xmin).toNat * 2 ^ (f.p - 1) + q
  let top := (f.emax - f.emin + 2).toNat * 2 ^ (f.p - 1)
  if code ≥ top then (top - 1, true) else (code, false)

/-- A code with its sign; a zero is written with sign 0 (log entry 11). -/
def signed (f : FFmt) (neg : Bool) (mag : Nat) : Nat := (if neg && decide (mag ≠ 0) then 2 ^ f.magBits else 0) + mag

/-- An exact value rounded into a format: the code, and whether it was clamped. -/
def roundTo (f : FFmt) (a : Dy) : Nat × Bool :=
  let r := roundMag f a.m.natAbs 1 a.e
  (signed f (decide (a.m < 0)) r.1, r.2)

/-- The exact quotient a / b rounded into a format. -/
def roundQuot (f : FFmt) (a b : Dy) : Nat × Bool :=
  let r := roundMag f a.m.natAbs b.m.natAbs (a.e - b.e)
  (signed f (decide (a.m < 0) != decide (b.m < 0)) r.1, r.2)

/-- Exponent field of a code. -/
def expField (f : FFmt) (c : Nat) : Nat := (c % 2 ^ f.magBits) / 2 ^ (f.p - 1)
/-- Infinity or NaN. -/
def isSpecial (f : FFmt) (c : Nat) : Bool := decide (expField f c ≥ (f.emax - f.emin + 2).toNat)
def isNaN (f : FFmt) (c : Nat) : Bool := isSpecial f c && decide (c % 2 ^ (f.p - 1) ≠ 0)
def isNeg (f : FFmt) (c : Nat) : Bool := c.testBit f.magBits

/-- The value of a finite code. -/
def value (f : FFmt) (c : Nat) : Dy :=
  let ex := expField f c
  let fr := c % 2 ^ (f.p - 1)
  let xmin := f.emin - (f.p - 1 : Nat)
  let m : Nat := if ex = 0 then fr else fr + 2 ^ (f.p - 1)
  ⟨if isNeg f c then -(m : Int) else m, xmin + ((ex - 1 : Nat) : Int)⟩

/-- The largest finite magnitude. -/
def maxFinite (f : FFmt) : Dy := ⟨2 ^ f.p - 1, f.emax - (f.p - 1 : Nat)⟩

/-- A code read as an input: a NaN is 0, an infinity the largest value of its sign; the flag says that the
code was replaced (05 R138, 09 R272). -/
def readIn (f : FFmt) (c : Nat) : Dy × Bool :=
  if isSpecial f c then
    (if isNaN f c then Exact.zero else if isNeg f c then Exact.neg (maxFinite f) else maxFinite f, true)
  else (value f c, false)

/-- The rounded value itself, with its clamp flag: rne32 of 04 R114 and 05 R138 for `f32`. -/
def rne (f : FFmt) (a : Dy) : Dy × Bool :=
  let r := roundTo f a
  (value f r.1, r.2)

/-- An exact value rounded, with counting: the running count of clamps and the rounded value. -/
def rneC (f : FFmt) (n : Nat) (a : Dy) : Nat × Dy :=
  let r := rne f a
  (n + (if r.2 then 1 else 0), r.1)

/-- Spacing of the format at a magnitude (06, "Rounding to sixteen bits"): the step to the next larger
magnitude; at 0 the smallest subnormal. -/
def ulpExp (f : FFmt) (a : Dy) : Int :=
  if a.m = 0 then f.emin - (f.p - 1 : Nat)
  else max (floorLog a.m.natAbs 1 + a.e) f.emin - (f.p - 1 : Nat)

/-- The code of an exactly representable value. -/
def code (f : FFmt) (a : Dy) : Nat := (roundTo f a).1

end Sys2Proof.Machine
end

