-- ==== Sys2Proof/Machine/Formats.lean ====
section
/-! DEFINITION. Block-scaled formats: the format word (03 R70, R71), element and scale codes (03 R72 to R78),
blocks and planes (03 R79 to R82), decoding to S4 (03 R83 to R85). -/

set_option Elab.async false

namespace Sys2Proof.Machine

/-- Element encodings (03 R72 to R75). -/
inductive Enc where
  | e2m1 | int4 | tern | int2 | g1 | e4m3 | e5m2 | int8
  deriving DecidableEq, Repr

/-- A decoded format word (03 R70). `rot` is the rotation size, 1 for none. -/
structure Fmt where
  baseW   : Nat
  enc     : Enc
  fbEnc   : Enc
  fbEn    : Bool
  blk     : Nat
  f8      : Bool
  nearest : Bool
  rot     : Nat
  awnC    : Nat
  ratio   : Nat
  deriving DecidableEq, Repr

/-- The encoding a width and an encoding field name, if defined (03 R70). -/
def encOf : Nat → Nat → Option Enc
  | 0, 0 => some .g1
  | 1, 0 => some .tern
  | 1, 1 => some .int2
  | 2, 0 => some .e2m1
  | 2, 1 => some .int4
  | 3, 0 => some .e4m3
  | 3, 1 => some .e5m2
  | 3, 2 => some .int8
  | _, _ => none

/-- A valid format word, decoded; none for an invalid one (03 R71). -/
def fmtOf (w : BitVec 32) : Option Fmt :=
  match encOf (fld w 31 30) (fld w 29 28), encOf 3 (fld w 27 26) with
  | some e, some fe =>
    if fld w 20 18 ≤ 4 ∧ fld w 17 14 ≤ 8 ∧ fld w 11 0 = 0 ∧
       ¬(flag w 25 = true ∧ (fld w 31 30 = 3 ∨ fld w 31 30 = 0)) then
      some { baseW := fld w 31 30, enc := e, fbEnc := fe, fbEn := flag w 25, blk := 16 * 2 ^ fld w 24 23,
             f8 := flag w 22, nearest := flag w 21,
             rot := if fld w 20 18 = 0 then 1 else 8 * 2 ^ fld w 20 18,
             awnC := fld w 17 14, ratio := 2 * 2 ^ fld w 13 12 }
    else none
  | _, _ => none

/-- Bits of an element at the base width. -/
def Fmt.width (f : Fmt) : Nat := 2 ^ f.baseW
/-- Held elements per multiplier (04 R100). -/
def Fmt.pack (f : Fmt) : Nat := if f.baseW = 0 then 4 else if f.baseW = 1 ∧ f.fbEn = false then 2 else 1
/-- What a compensated-pair head must be (04 R104). -/
def Fmt.cpOk (f : Fmt) : Bool := f.enc = .int4 && !f.nearest && !f.fbEn

/-- Largest magnitude the quantize engine writes (03 R75). -/
def Enc.qmax : Enc → Int
  | .e2m1 => 6 | .int4 => 7 | .tern => 1 | .int2 => 1 | .g1 => 1 | .e4m3 => 448 | .e5m2 => 57344 | .int8 => 127

def Enc.width : Enc → Nat
  | .g1 => 1 | .tern | .int2 => 2 | .e2m1 | .int4 => 4 | .e4m3 | .e5m2 | .int8 => 8

/-- Magnitude of a floating G8 element as i × 2^(t - bias), t = max(e, 1) (03 R84), specials read under R85. -/
def g8Parts (mant : Nat) (c : Nat) : Nat × Nat :=
  let e := (c % 128) / 2 ^ mant
  let m := c % 2 ^ mant
  if mant = 3 ∧ e = 15 ∧ m = 7 then (14, 15)
  else if mant = 2 ∧ e = 31 then (7, 30)
  else if e = 0 then (m, 1) else (m + 2 ^ mant, e)

/-- Codes the quantize engine never writes and a consumer counts as saturated (03 R85). -/
def g8Special (enc : Enc) (c : Nat) : Bool :=
  match enc with
  | .e4m3 => c % 128 = 127
  | .e5m2 => c % 128 ≥ 124
  | _ => false

/-- The value of an element code (03 R72 to R75, R85). -/
def elemVal (enc : Enc) (c : Nat) : Dy :=
  match enc with
  | .e2m1 =>
    let m : Int := [0, 1, 2, 3, 4, 6, 8, 12].getD (c % 8) 0
    ⟨if c / 8 % 2 = 1 then -m else m, -1⟩
  | .int4 => ⟨sext 4 c, 0⟩
  | .tern => ⟨if c % 4 = 1 then 1 else if c % 4 = 2 then -1 else 0, 0⟩
  | .int2 => ⟨sext 2 c, 0⟩
  | .g1 => ⟨if c % 2 = 0 then 1 else -1, 0⟩
  | .e4m3 => let q := g8Parts 3 c; ⟨if c / 128 % 2 = 1 then -(q.1 : Int) else q.1, (q.2 : Int) - 10⟩
  | .e5m2 => let q := g8Parts 2 c; ⟨if c / 128 % 2 = 1 then -(q.1 : Int) else q.1, (q.2 : Int) - 17⟩
  | .int8 => ⟨sext 8 c, 0⟩

/-- The value of a scale code (03 R76, R77, R85). -/
def scaleVal (f8 : Bool) (c : Nat) : Dy :=
  if f8 then (if c / 8 = 0 then Exact.zero else ⟨8 + (c % 8 : Nat), (c / 8 : Nat) - 18⟩)
  else ⟨1, (min c 254 : Nat) - 127⟩

/-- One block as stored: element bits, header, awn entries, tail bits, CP tail and third bits (03 R79 to R82,
04 R104). -/
structure RawBlk where
  elem  : Nat
  hdr   : Nat
  awn   : List Nat
  tail  : Nat
  cpt   : Nat
  cp3   : Nat
  deriving DecidableEq, Repr

/-- One nibble pass of a block: its pass exponent and the signed S4 values (03 R83). -/
structure Pass where
  p : Int
  v : List Int
  deriving DecidableEq, Repr

/-- A decoded block: passes, scale value, awn entries by position, saturations counted (03 R85). -/
structure DBlk where
  passes : List Pass
  scale  : Dy
  awn    : List (Nat × Dy)
  sat    : Nat
  deriving DecidableEq, Repr

/-- Whether a stored block breaks 03 R85: width tag, awn count, awn order, reserved bits. -/
def blkBad (f : Fmt) (r : RawBlk) : Bool :=
  let wtag := bits r.hdr 7 6
  let n := bits r.hdr 5 2
  let used := r.awn.take n
  let idx := used.map fun a => bits a 22 16
  !(decide (wtag = f.baseW) || (f.fbEn && decide (wtag = 3)))
  || decide (n > f.awnC) || decide (bits r.hdr 1 0 ≠ 0)
  || used.any (fun a => bit a 23) || idx.any (fun i => decide (i ≥ f.blk))
  || (List.zipWith (fun a b => decide (b ≤ a)) idx (idx.drop 1)).any id

/-- The element codes of a block: at the base width, or the eight-bit codes of a fall-back block (03 R82). -/
def blkCodes (f : Fmt) (r : RawBlk) : List Nat :=
  let w := f.width
  if bits r.hdr 7 6 = 3 ∧ f.baseW ≠ 3 then
    (List.range f.blk).map fun i =>
      bits r.elem (w * i + w - 1) (w * i) * 2 ^ (8 - w) + bits r.tail ((8 - w) * i + (7 - w)) ((8 - w) * i)
  else (List.range f.blk).map fun i => bits r.elem (w * i + w - 1) (w * i)

/-- Sign applied to a magnitude. -/
def sgn (neg : Bool) (m : Nat) : Int := if neg then -(m : Int) else m

/-- The S4 passes of a list of codes in one encoding (03 R83, R84). -/
def s4Passes (enc : Enc) (cs : List (Option Nat)) : List Pass :=
  match enc with
  | .e2m1 | .int4 | .tern | .int2 | .g1 =>
    [⟨(elemVal enc 0).e, cs.map fun c => match c with | some c => (elemVal enc c).m | none => 0⟩]
  | .int8 =>
    [⟨4, cs.map fun c => match c with
        | some c => let v := sext 8 c; sgn (decide (v < 0)) (v.natAbs / 16) | none => 0⟩,
     ⟨0, cs.map fun c => match c with
        | some c => let v := sext 8 c; sgn (decide (v < 0)) (v.natAbs % 16) | none => 0⟩]
  | .e4m3 | .e5m2 =>
    let mant := if enc = .e4m3 then 3 else 2
    let sh := if enc = .e4m3 then 4 else 5
    let base : Int := if enc = .e4m3 then 10 else 18
    let e := cs.foldl (fun a c => match c with
      | some c => let q := g8Parts mant c; if q.1 = 0 then a else max a q.2
      | none => a) 1
    let mag := fun (c : Nat) => let q := g8Parts mant c
      if q.2 + sh ≥ e then q.1 * 2 ^ (q.2 + sh - e) else rneDiv q.1 (2 ^ (e - q.2 - sh))
    [⟨(e : Int) - base, cs.map fun c => match c with
        | some c => sgn (decide (c / 128 % 2 = 1)) (mag c / 16) | none => 0⟩,
     ⟨(e : Int) - base - 4, cs.map fun c => match c with
        | some c => sgn (decide (c / 128 % 2 = 1)) (mag c % 16) | none => 0⟩]

/-- INT4 terms of a CP tail or third plane, zero at the head's awn positions (04 R104). -/
def cpPass (f : Fmt) (p : Int) (plane : Nat) (pos : List Nat) : Pass :=
  ⟨p, (List.range f.blk).map fun i => if i ∈ pos then 0 else sext 4 (bits plane (4 * i + 3) (4 * i))⟩

/-- A block decoded to S4, with the replacements of 03 R85; none where it breaks that rule. `kind`: 0 plain,
1 CP2, 2 CP3. In a block whose scale is 0xFF every element counts once, whatever its code (DEDUCED, log entry 93). -/
def decodeBlk (f : Fmt) (kind : Nat) (r : RawBlk) : Option DBlk :=
  if blkBad f r then none else
  let used := r.awn.take (bits r.hdr 5 2)
  let pos := used.map fun a => bits a 22 16
  let fb := bits r.hdr 7 6 = 3 ∧ f.baseW ≠ 3
  let enc := if fb then f.fbEnc else f.enc
  let cs := (blkCodes f r).zipIdx.map fun x => if x.2 ∈ pos then none else some x.1
  let sc := bits r.hdr 15 8
  let aw := used.map fun a => (bits a 22 16, readIn f16 (bits a 15 0))
  let sat := (if f.f8 = false ∧ sc = 255 then f.blk
      else (cs.filter fun c => match c with | some c => g8Special enc c | none => false).length)
    + (aw.filter fun a => a.2.2).length
  some { passes := s4Passes enc cs
           ++ (if kind ≥ 1 then [cpPass f (-4) r.cpt pos] else [])
           ++ (if kind ≥ 2 then [cpPass f (-8) r.cp3 pos] else []),
         scale := scaleVal f.f8 sc, awn := aw.map fun a => (a.1, a.2.1), sat := sat }

/-- Decoded value of element i, its tensor scale excluded and 0 at an awn position (04 R114). -/
def DBlk.val (b : DBlk) (i : Nat) : Dy :=
  Exact.mul b.scale (Exact.sum (b.passes.map fun q => ⟨q.v.getD i 0, q.p⟩))

/-- Bytes of each plane per block: element, header, awn, tail, CP tail, CP third (03 R79, 04 R104). -/
def planeBytes (f : Fmt) (kind : Nat) : List Nat :=
  [f.width * f.blk / 8, 2, 3 * f.awnC, if f.fbEn then (8 - f.width) * f.blk / 8 else 0,
   if kind ≥ 1 then f.blk / 2 else 0, if kind ≥ 2 then f.blk / 2 else 0]

/-- Offsets of the six planes of n blocks, each present plane at the next 32-byte boundary, from `o`; last
the end of the last present plane (04 R106, 05 R145). -/
def planeOffs : Nat → Nat → List Nat → List Nat
  | _, o, [] => [o]
  | n, o, b :: bs =>
    let s := if b = 0 then o else alignUp 32 o
    s :: planeOffs n (s + n * b) bs

/-- Awn entries of a block's bytes, 24 bits each. -/
def awnEntries (f : Fmt) (bs : List Byte) : List Nat :=
  (List.range f.awnC).map fun i => leNat (slice bs (3 * i) 3)

/-- Block b of planes laid out from offset 0 of a byte string at the given plane offsets. -/
def planeBlk (f : Fmt) (kind : Nat) (offs : List Nat) (bs : List Byte) (b : Nat) : RawBlk :=
  let pb := planeBytes f kind
  let at' := fun k => slice bs (offs.getD k 0 + b * pb.getD k 0) (pb.getD k 0)
  { elem := leNat (at' 0), hdr := leNat (at' 1), awn := awnEntries f (at' 2), tail := leNat (at' 3),
    cpt := leNat (at' 4), cp3 := leNat (at' 5) }

/-- Bytes of a held tile of n outer rows of k elements, prefix included (04 R106). -/
def heldSize (f : Fmt) (kind n k : Nat) : Nat :=
  (planeOffs (n * (k / f.blk)) 32 (planeBytes f kind)).getLastD 0

/-- The blocks of a held tile, column by column; none if one breaks 03 R85. -/
def heldBlks (f : Fmt) (kind n k : Nat) (bs : List Byte) : Option (List (List DBlk)) :=
  let offs := planeOffs (n * (k / f.blk)) 32 (planeBytes f kind)
  (List.range n).mapM fun c => (List.range (k / f.blk)).mapM fun j =>
    decodeBlk f kind (planeBlk f kind offs bs (c * (k / f.blk) + j))

/-- Bytes of one streamed row record (04 R106). -/
def rowSize (f : Fmt) (kind k : Nat) : Nat := alignUp 32 (sumN ((planeBytes f kind).map (· * (k / f.blk))))

/-- The blocks of a streamed row record: its planes stand one after the other without padding (04 R106). -/
def rowBlks (f : Fmt) (kind k : Nat) (bs : List Byte) : Option (List DBlk) :=
  let nb := k / f.blk
  let pb := planeBytes f kind
  let offs := (List.range 6).map fun i => sumN ((pb.take i).map (· * nb))
  (List.range nb).mapM fun j => decodeBlk f kind (planeBlk f kind offs bs j)

/-- A tensor scale must be a binary32 value greater than zero and finite (03 R78, 04 R106). -/
def scaleOk (w : BitVec 32) : Bool := !isSpecial f32 w.toNat && !isNeg f32 w.toNat && decide (w ≠ 0)

end Sys2Proof.Machine
end

