-- ==== Sys2Proof/Machine/Quantize.lean ====
section
/-! DEFINITION. Quantisation on write (03 R86 to R92), compensated pairs (05 R133, R134) and the planes a
quantisation writes (05 R145). -/

set_option Elab.async false

namespace Sys2Proof.Machine

/-- saturated, flushed, awn_overflow (03 R92). -/
structure Trouble where
  sat : Nat
  flu : Nat
  awn : Nat
  deriving DecidableEq, Repr

def Trouble.zero : Trouble := ⟨0, 0, 0⟩
def Trouble.add (a b : Trouble) : Trouble := ⟨a.sat + b.sat, a.flu + b.flu, a.awn + b.awn⟩
def Trouble.sum (l : List Trouble) : Trouble := l.foldl Trouble.add Trouble.zero

/-- Prepared source y = x × rcp(S_t), clamps counted (03 R86 step 2). -/
def prepare (rcp : Dy) (x : Dy) : Dy × Nat :=
  let r := rne f32 (Exact.mul x rcp)
  (r.1, if r.2 then 1 else 0)

/-- One butterfly stage of the transform on one group (03 R87). -/
def butterfly (t : Nat) (y : List Dy) : List Dy × Nat :=
  let r := (List.range y.length).map fun i =>
    if i.testBit t then rne f32 (Exact.sub (y.getD (i - 2 ^ t) Exact.zero) (y.getD i Exact.zero))
    else rne f32 (Exact.add (y.getD i Exact.zero) (y.getD (i + 2 ^ t) Exact.zero))
  (r.map Prod.fst, (r.filter Prod.snd).length)

/-- Stages t, t + 1, …: n of them. -/
def rotStages : Nat → Nat → List Dy → List Dy × Nat
  | 0, _, y => (y, 0)
  | n + 1, t, y =>
    let a := butterfly t y
    let b := rotStages n (t + 1) a.1
    (b.1, a.2 + b.2)

/-- A list cut into pieces of n elements. -/
def chunks {α : Type} (n : Nat) : Nat → List α → List (List α)
  | 0, _ => []
  | k + 1, l => l.take n :: chunks n k (l.drop n)

/-- Rotation of a row along the reduction axis, group by group (03 R87). -/
def rotate (n : Nat) (row : List Dy) : List Dy × Nat :=
  if n ≤ 1 then (row, 0) else
  let g := (chunks n (row.length / n) row).map (rotStages n.log2 0)
  ((g.map Prod.fst).flatten, sumN (g.map Prod.snd))

/-- The limit of an encoding for the sign of v (03 R89). -/
def encLimit (enc : Enc) (neg : Bool) : Int := if enc = .int2 ∧ neg then 2 else enc.qmax

/-- The largest valid scale code c with q × s(c) ≤ m, or the least valid code if there is none; found bit
by bit, since scale values rise with their codes. -/
def scaleSearch (f8 : Bool) (q : Dy) (m : Dy) : Nat → Nat → Nat
  | 0, c => c
  | b + 1, c =>
    let t := c + 2 ^ b
    if t ≤ (if f8 then 255 else 254) ∧ Exact.le (Exact.mul q (scaleVal f8 t)) m then scaleSearch f8 q m b t
    else scaleSearch f8 q m b c

/-- The scale code for a block maximum m = num / den under a scale rule (03 R89 choose_scale): `q` is
q_max × den, so that q_max × s is compared with m exactly. -/
def chooseScale (f8 nearest : Bool) (q num : Dy) : Nat :=
  if num.m = 0 then 0 else
  let top := if f8 then 255 else 254
  let lo := scaleSearch f8 q num 8 (if f8 then 8 else 0)
  let lo := if f8 ∧ lo < 8 then 8 else lo
  let slo := Exact.mul q (scaleVal f8 lo)
  if Exact.le num slo then lo
  else if lo = top then top
  else if nearest then
    let shi := Exact.mul q (scaleVal f8 (lo + 1))
    if Exact.le (Exact.sub shi num) (Exact.sub num slo) then lo + 1 else lo
  else lo + 1

/-- Largest of a list of magnitudes. -/
def maxDy (l : List Dy) : Dy := l.foldl (fun a b => if Exact.lt a b then b else a) Exact.zero

/-- The scale code of a block, the excluded positions left out (03 R89). -/
def blockScale (f : Fmt) (enc : Enc) (y : List Dy) (excl : List Nat) : Nat :=
  let ys := (y.zipIdx.filter fun x => x.2 ∉ excl).map Prod.fst
  match enc with
  | .g1 => chooseScale f.f8 true (Exact.ofInt ys.length) (Exact.sum (ys.map Exact.abs))
  | .int2 =>
    let pos := maxDy (ys.filter fun v => decide (v.m > 0))
    let neg := maxDy ((ys.filter fun v => decide (v.m < 0)).map Exact.abs)
    chooseScale f.f8 f.nearest Exact.one (maxDy [pos, Exact.scale neg (-1)])
  | _ => chooseScale f.f8 f.nearest (Exact.ofInt enc.qmax) (maxDy (ys.map Exact.abs))

/-- Outliers by ratio: the largest j at most c with a[j+1] > 0 and a[j] > f × a[j+1] (03 R89). -/
def ratioOut (f : Fmt) (y : List Dy) : List Nat :=
  let order := sortBy (fun (a b : Dy × Nat) => Exact.lt (Exact.abs b.1) (Exact.abs a.1)
      || (!Exact.lt (Exact.abs a.1) (Exact.abs b.1) && decide (a.2 ≤ b.2))) y.zipIdx
  let a := order.map fun x => Exact.abs x.1
  let n := (List.range f.awnC).foldl (fun n i =>
    let aj := a.getD i Exact.zero
    let an := a.getD (i + 1) Exact.zero
    if an.m > 0 ∧ Exact.lt (Exact.mul (Exact.ofInt f.ratio) an) aj then i + 1 else n) 0
  (order.take n).map Prod.snd

/-- y / s as it is rounded to the grid: exact for E8M0, one binary32 rounding for F8 (03 R90). -/
def overScale (f8 : Bool) (y s : Dy) : Dy :=
  if f8 then (if s.m = 0 then Exact.zero else value f32 (roundQuot f32 y s).1) else ⟨y.m, y.e - s.e⟩

/-- Magnitude rounded to an integer, ties to even. -/
def rneInt (a : Dy) : Nat :=
  if a.e ≥ 0 then a.m.natAbs * 2 ^ a.e.toNat else rneDiv a.m.natAbs (2 ^ (-a.e).toNat)

/-- The code written for y, whose y/s is v: round_to_grid of v, zero with sign 0; ternary tells a y that is zero from
one that rounds to zero, and G1 takes the sign, by y itself (03 R90). -/
def gridCode (enc : Enc) (y v : Dy) : Nat :=
  let neg := decide (y.m < 0)
  let int := fun (w : Nat) =>
    let m := min (rneInt v) (encLimit enc neg).toNat
    if neg then (2 ^ w - m) % 2 ^ w else m
  let flt := fun (f : FFmt) (top w : Nat) =>
    let m := min (roundMag f v.m.natAbs 1 v.e).1 top
    if m = 0 then 0 else if neg then 2 ^ (w - 1) + m else m
  match enc with
  | .e2m1 => flt ⟨2, 0, 2⟩ 7 4
  | .int4 => int 4
  | .tern => if y.m = 0 then 0 else if rneInt v = 0 then 3 else if neg then 2 else 1
  | .int2 => int 2
  | .g1 => if neg then 1 else 0
  | .e4m3 => flt ⟨4, -6, 8⟩ 126 8
  | .e5m2 => flt ⟨3, -14, 15⟩ 123 8
  | .int8 => int 8

/-- The awn entries of a block in ascending index, and the values clamped (03 R81, R90). -/
def awnOf (y : List Dy) (out : List Nat) : List Nat × Nat :=
  let idx := sortBy (fun (a b : Nat) => decide (a ≤ b)) out
  (idx.map fun i => i * 2 ^ 16 + (roundTo f16 (y.getD i Exact.zero)).1,
   (idx.filter fun i => Exact.lt (maxFinite f16) (Exact.abs (y.getD i Exact.zero))).length)

/-- Codes of w bits packed from the least significant bit. -/
def packCodes (w : Nat) (cs : List Nat) : Nat := cs.foldr (fun c a => a * 2 ^ w + c) 0

/-- Awn entries filled up with zero entries to the capacity. -/
def fillAwn (f : Fmt) (a : List Nat) : List Nat := (a ++ List.replicate f.awnC 0).take f.awnC

/-- Elements written as a zero code though their y is non-zero, awn positions apart (03 R92). -/
def flushedOf (enc : Enc) (y : List Dy) (out : List Nat) (cs : List Nat) : Nat :=
  if enc = .g1 then 0 else
  ((y.zip cs).zipIdx.filter fun x => x.1.1.m ≠ 0 ∧ x.2 ∉ out ∧ (elemVal enc x.1.2).m = 0).length

/-- A block written at the base width or, on overflow of the awn lane, as a fall-back block (03 R89, R91). -/
def quantPlain (f : Fmt) (y : List Dy) : RawBlk × Trouble :=
  let ro := ratioOut f y
  let c := blockScale f f.enc y ro
  let s := scaleVal f.f8 c
  let above := fun (enc : Enc) (s : Dy) (i : Nat) =>
    let v := y.getD i Exact.zero
    Exact.lt (Exact.mul (Exact.ofInt (encLimit enc (decide (v.m < 0)))) s) (Exact.abs v)
  let satu := if f.enc = .g1 then [] else
    (List.range y.length).filter fun i => decide (i ∉ ro) && above f.enc s i
  let write := fun (out : List Nat) (satN ovf : Nat) =>
    let cs := y.zipIdx.map fun x => if x.2 ∈ out then 0 else gridCode f.enc x.1 (overScale f.f8 x.1 s)
    let aw := awnOf y out
    (({ elem := packCodes f.width cs, hdr := c * 256 + f.baseW * 64 + out.length * 4, awn := fillAwn f aw.1,
        tail := 0, cpt := 0, cp3 := 0 } : RawBlk),
     (⟨satN + aw.2, flushedOf f.enc y out cs, ovf⟩ : Trouble))
  if satu.length = 0 then write ro 0 0
  else if ro.length + satu.length ≤ f.awnC then write (ro ++ satu) 0 0
  else if f.fbEn then
    let fc := blockScale f f.fbEnc y ro
    let fs := scaleVal f.f8 fc
    let cs := y.zipIdx.map fun x => if x.2 ∈ ro then 0 else gridCode f.fbEnc x.1 (overScale f.f8 x.1 fs)
    let clamp := ((List.range y.length).filter fun i => decide (i ∉ ro) && above f.fbEnc fs i).length
    let aw := awnOf y ro
    let w := f.width
    ({ elem := packCodes w (cs.map (· / 2 ^ (8 - w))), hdr := fc * 256 + 192 + ro.length * 4,
       awn := fillAwn f aw.1, tail := packCodes (8 - w) (cs.map (· % 2 ^ (8 - w))), cpt := 0, cp3 := 0 },
     ⟨clamp + aw.2, flushedOf f.fbEnc y ro cs, 1⟩)
  else write ro satu.length 1

/-- The nearest integer in -7..7 to k × r / s, ties to even (05 R133). -/
def cpTerm (f8 : Bool) (k : Int) (r s : Dy) : Int :=
  let q := overScale f8 (Exact.mul (Exact.ofInt k) r) s
  let m := min (rneInt q) 7
  if q.m < 0 then -(m : Int) else m

/-- A four-bit two's complement code. -/
def int4Code (v : Int) : Nat := (v % 16).toNat

/-- A block of a compensated pair or triple (05 R133, R134). -/
def quantCp (f : Fmt) (third : Bool) (y : List Dy) : RawBlk × Trouble :=
  let h := quantPlain f y
  let pos := (h.1.awn.take (bits h.1.hdr 5 2)).map fun a => bits a 22 16
  let s := scaleVal f.f8 (bits h.1.hdr 15 8)
  let terms := y.zipIdx.map fun x =>
    if x.2 ∈ pos then ((0 : Int), (0 : Int), (0 : Int)) else
    let hc := sext 4 (bits h.1.elem (4 * x.2 + 3) (4 * x.2))
    let r := Exact.sub x.1 (Exact.mul (Exact.ofInt hc) s)
    let t := cpTerm f.f8 16 r s
    let r2 := Exact.sub r (Exact.mul ⟨t, -4⟩ s)
    (hc, t, if third then cpTerm f.f8 256 r2 s else 0)
  let flu := ((y.zip terms).zipIdx.filter fun x =>
    x.1.1.m ≠ 0 ∧ x.2 ∉ pos ∧ x.1.2 = ((0 : Int), (0 : Int), (0 : Int))).length
  ({ h.1 with cpt := packCodes 4 (terms.map fun t => int4Code t.2.1),
              cp3 := if third then packCodes 4 (terms.map fun t => int4Code t.2.2) else 0 },
   { h.2 with flu := flu })

/-- A tensor quantised row by row: `kind` 0 plain, 1 CP2, 2 CP3; rows along the reduction axis, of values
already read in; `pre` is the number of replacements of 03 R86 step 1. A reciprocal of S_t that overflows is counted
once for each block, whose step 2 it is (DEDUCED, log entry 93). -/
def quantRows (f : Fmt) (kind : Nat) (st : BitVec 32) (rows : List (List Dy)) (pre : Nat) :
    List RawBlk × Trouble :=
  let rc := roundQuot f32 Exact.one (value f32 st.toNat)
  let rcp := value f32 rc.1
  let per := rows.map fun row =>
    let p := row.map (prepare rcp)
    let rot := rotate f.rot (p.map Prod.fst)
    let nb := row.length / f.blk
    let bl := (chunks f.blk nb rot.1).map fun y =>
      if kind = 0 then quantPlain f y else quantCp f (decide (kind = 2)) y
    (bl.map Prod.fst, Trouble.add ⟨sumN (p.map Prod.snd) + rot.2 + (if rc.2 then nb else 0), 0, 0⟩
      (Trouble.sum (bl.map Prod.snd)))
  ((per.map Prod.fst).flatten, Trouble.add ⟨pre, 0, 0⟩ (Trouble.sum (per.map Prod.snd)))

/-- The bytes of one plane of a list of blocks. -/
def planeOf (f : Fmt) (kind k : Nat) (bs : List RawBlk) : List Byte :=
  let n := (planeBytes f kind).getD k 0
  (bs.map fun b => match k with
    | 0 => leBytes n b.elem
    | 1 => leBytes n b.hdr
    | 2 => (b.awn.map (leBytes 3)).flatten
    | 3 => leBytes n b.tail
    | 4 => leBytes n b.cpt
    | _ => leBytes n b.cp3).flatten

/-- The planes of a tensor in the order of 05 R145, each from the next 32-byte boundary, the gaps zero. -/
def planesOf (f : Fmt) (kind : Nat) (bs : List RawBlk) : List Byte :=
  (List.range 6).foldl (fun acc k =>
    let p := planeOf f kind k bs
    if p.isEmpty then acc else padTo 32 acc ++ p) []

/-- Bytes of a tensor in plane layout: o outer rows, reduction length k (05 R145, 08 R221). -/
def planesSize (f : Fmt) (kind o k : Nat) : Nat :=
  (planeOffs (o * (k / f.blk)) 0 (planeBytes f kind)).getLastD 0

/-- Columns of a matrix as rows. -/
def transpose {α : Type} (d : α) (cols : Nat) (m : List (List α)) : List (List α) :=
  (List.range cols).map fun j => m.map fun r => r.getD j d

end Sys2Proof.Machine
end

