-- ==== Sys2Proof/Machine/Commands.lean ====
section
/-! DEFINITION. The command words of the five engines and their parameter records, field by field (04 R109,
05 R142, R143, 06 R159, R160, 07 R195, 09 R263, R265, 10 R300), the regions they name (07 R200), and when a
queued command is eligible (07 R199 to R201, R208). -/

set_option Elab.async false

namespace Sys2Proof.Machine

/-- Bytes of an element: 0b00 binary32, 0b01 bfloat16, 0b10 binary16. -/
def esize (t : Nat) : Nat := if t = 0 then 4 else 2
/-- The format of an element type: 0 binary32, 1 bfloat16, 2 binary16. -/
def efmt (t : Nat) : FFmt := if t = 0 then f32 else if t = 1 then bf16 else f16

/-- Bytes of a row of n elements of e bytes, padded (04 R107). -/
def rowPad (e n : Nat) : Nat := alignUp 32 (n * e)
/-- Columns of panel p of a row of l columns (05 R144). -/
def panelCols (l p : Nat) : Nat := min 512 (l - 512 * p)
/-- Panels of a row. -/
def panels (l : Nat) : Nat := ceilDiv l 512
/-- Bytes of a panel region (05 R144). -/
def panelSize (e m l : Nat) : Nat := sumN ((List.range (panels l)).map fun p => m * rowPad e (panelCols l p))
/-- Start of panel p. -/
def panelOff (e m p : Nat) : Nat := p * (m * rowPad e 512)

/-- A matrix-engine command (04 R109). -/
structure MeCmd where
  opc : Nat
  acc : Bool
  outKind : Nat
  hFmt : BitVec 32
  sFmt : BitVec 32
  hAddr : Nat
  sAddr : Nat
  outAddr : Nat
  hKind : Nat
  sKind : Nat
  kLen : Nat
  n : Nat
  m : Nat
  run : Nat
  hold : Nat
  stOff : Nat
  resOff : Nat
  rsd : Bool
  sSrc : Bool
  rsvd : Nat
  deriving DecidableEq, Repr

def meCmd (w : BitVec 256) : MeCmd :=
  { opc := fld w 255 252, acc := flag w 251, outKind := fld w 250 248, hFmt := BitVec.ofNat 32 (fld w 231 200),
    sFmt := BitVec.ofNat 32 (fld w 199 168), hAddr := 32 * fld w 167 148, sAddr := fld w 147 128,
    outAddr := 32 * fld w 127 108, hKind := fld w 107 106, sKind := fld w 105 104, kLen := fld w 103 92,
    n := fld w 91 83 + 1, m := fld w 82 67 + 1, run := 16 * 2 ^ fld w 66 65, hold := fld w 64 63, stOff := fld w 62 57,
    resOff := fld w 56 51, rsd := flag w 50, sSrc := flag w 49, rsvd := fld w 48 0 }

/-- The value of a stored tensor of kind 0 plain, 1 CP2, 2 CP3. -/
def heldBytes (c : MeCmd) : Nat :=
  match fmtOf c.hFmt with
  | some f => heldSize f c.hKind c.n c.kLen
  | none => 0
/-- Bytes of the streamed tile, prefix and rows (04 R106). -/
def streamBytes (c : MeCmd) : Nat :=
  match fmtOf c.sFmt with
  | some f => 32 + c.m * rowSize f c.sKind c.kLen
  | none => 0
/-- Bytes of the output region (04 R107). -/
def outBytes (c : MeCmd) : Nat := c.m * rowPad (esize c.outKind) c.n

/-- A quantize-engine command (07 R195). -/
structure QeCmd where
  opc : Nat
  fmt : BitVec 32
  ts : BitVec 32
  src : Nat
  dst : Nat
  srcT : Nat
  kind : Nat
  axis : Bool
  m : Nat
  l : Nat
  hash : Bool
  rsvd : Nat
  deriving DecidableEq, Repr

def qeCmd (w : BitVec 256) : QeCmd :=
  { opc := fld w 255 252, fmt := BitVec.ofNat 32 (fld w 235 204), ts := BitVec.ofNat 32 (fld w 203 172),
    src := 32 * fld w 171 152, dst := 32 * fld w 151 132, srcT := fld w 131 130, kind := fld w 129 128,
    axis := flag w 127, m := fld w 126 111 + 1, l := fld w 110 93 + 1, hash := flag w 92, rsvd := fld w 91 0 }

/-- Outer rows and reduction length of a quantised output: along the row, or along the column (05 R145). -/
def axisDims (axis : Bool) (m l : Nat) : Nat × Nat := if axis then (l, m) else (m, l)

/-- Bytes of quantised planes of an m × l tensor; QKIND 1 plain, 2 CP2, 3 CP3. -/
def qBytes (fmt : BitVec 32) (kind : Nat) (axis : Bool) (m l : Nat) : Nat :=
  match fmtOf fmt with
  | some f => let d := axisDims axis m l; planesSize f (kind - 1) d.1 d.2
  | none => 0

/-- A vector-engine command with its parameter record (05 R142, R143). -/
structure VeCmd where
  opc : Nat
  kern : Nat
  joinTag : Nat
  join : Bool
  inAddr : Nat
  aux : Nat
  save : Nat
  out : Nat
  q : Nat
  red : Nat
  prm : Nat
  m : Nat
  l : Nat
  func : Nat
  dmode : Bool
  saveT : Nat
  outT : Nat
  qkind : Nat
  qaxis : Bool
  inT : Nat
  q2 : Nat
  q2En : Bool
  outEn : Bool
  rsvd : Nat
  qfmt : BitVec 32
  qfmt2 : BitVec 32
  qscale : BitVec 32
  eps : BitVec 32
  alpha : BitVec 32
  gamma : Nat
  beta : Nat
  aux2 : Nat
  aux3 : Nat
  norm : Nat
  causal : Bool
  aux3En : Bool
  row0 : Nat
  col0 : Nat
  prsvd : Nat
  deriving DecidableEq, Repr

def veCmd (w : BitVec 256) (r : Nat) : VeCmd :=
  { opc := fld w 255 252, kern := fld w 251 246, joinTag := fld w 229 214, join := flag w 213, inAddr := 32 * fld w 212 193,
    aux := 32 * fld w 192 173, save := 32 * fld w 172 153, out := 32 * fld w 152 133, q := 32 * fld w 132 113,
    red := 32 * fld w 112 93, prm := 32 * fld w 92 73, m := fld w 72 57 + 1, l := fld w 56 39 + 1,
    func := fld w 37 34, dmode := flag w 33, saveT := fld w 32 31, outT := fld w 30 29, qkind := fld w 28 27,
    qaxis := flag w 26, inT := fld w 25 24, q2 := 32 * fld w 23 4, q2En := flag w 3, outEn := flag w 2,
    rsvd := fld w 38 38 + fld w 1 0,
    qfmt := BitVec.ofNat 32 (bits r 511 480), qfmt2 := BitVec.ofNat 32 (bits r 479 448),
    qscale := BitVec.ofNat 32 (bits r 447 416), eps := BitVec.ofNat 32 (bits r 415 384),
    alpha := BitVec.ofNat 32 (bits r 383 352), gamma := 32 * bits r 351 332, beta := 32 * bits r 331 312,
    aux2 := 32 * bits r 311 292, aux3 := 32 * bits r 291 272, norm := bits r 271 270, causal := bit r 269,
    aux3En := bit r 268, row0 := bits r 267 236, col0 := bits r 235 204, prsvd := bits r 203 0 }

/-- OUT_T and the type codes: 0b00 bfloat16, 0b01 binary16, 0b10 binary32, as the codes of `efmt`. -/
def outCode (t : Nat) : Nat := if t = 0 then 1 else if t = 1 then 2 else 0
/-- SAVE_T 0b01 bfloat16, 0b10 binary16; a saved tensor read under 0b00 is a binary32 recomputation (05 R157;
log entry 37). -/
def saveCode (t : Nat) : Nat := t

/-- Columns of IN, of AUX and of the primary output (05 R149). -/
def VeCmd.inCols (c : VeCmd) : Nat := if c.kern = 8 then 2 * c.l else c.l
def VeCmd.outCols (c : VeCmd) : Nat := if c.kern = 9 then 2 * c.l else c.l
def VeCmd.auxCols (c : VeCmd) : Nat := if c.kern = 9 then 2 * c.l else c.l
/-- Columns saved: [a | b] for GACT_FWD. -/
def VeCmd.saveCols (c : VeCmd) : Nat := if c.kern = 8 then 2 * c.l else c.l

/-- Which tensors a kernel reads and writes (05 R149). `native` says that the FUNC pair is a native SiLU used
under DMODE 0, whose gate is saved beside y at AUX2. -/
def VeCmd.usesAux (c : VeCmd) : Bool := c.kern ∈ [3, 5, 7, 9]
def VeCmd.usesGamma (c : VeCmd) : Bool := c.kern ∈ [2, 3]
def VeCmd.usesBeta (c : VeCmd) : Bool := decide (c.kern = 2 ∧ c.norm = 0)
def VeCmd.saves (c : VeCmd) : Bool := decide (c.saveT ≠ 0) && decide (c.kern ∈ [2, 4, 6, 8])
def VeCmd.usesRed (c : VeCmd) : Bool := c.kern ∈ [2, 3, 10]
def VeCmd.usesFunc (c : VeCmd) : Bool := c.kern ∈ [6, 7, 8, 9]
/-- Bytes of RED: per row, or dγ then dβ per column. -/
def VeCmd.redBytes (c : VeCmd) : Nat :=
  if c.kern = 3 then (if c.norm = 0 then 2 else 1) * alignUp 32 (4 * c.l) else alignUp 32 (4 * c.m)

/-- An update-engine command with its parameter record (06 R159, R160). -/
structure UeCmd where
  opc : Nat
  opt : Nat
  mode : Nat
  three : Bool
  f16m : Bool
  copy : Bool
  tensor : Nat
  step : Nat
  w : Nat
  g : Nat
  m1 : Nat
  m2 : Nat
  gl : Nat
  prm : Nat
  fwd : Nat
  trn : Nat
  rsvd : Nat
  lr : BitVec 32
  beta1 : BitVec 32
  beta2 : BitVec 32
  eps : BitVec 32
  wd : BitVec 32
  gscale : BitVec 32
  bc1 : BitVec 32
  bc2 : BitVec 32
  rows : Nat
  cols : Nat
  gtype : Nat
  purp : Nat
  row0 : Nat
  col0 : Nat
  prsvd : Nat
  kfull : Nat
  fmtF : BitVec 32
  fmtT : BitVec 32
  tsF : BitVec 32
  tsT : BitVec 32
  deriving DecidableEq, Repr

def ueCmd (w : BitVec 256) (r : Nat) : UeCmd :=
  { opc := fld w 255 252, opt := fld w 251 248, mode := fld w 247 246, three := flag w 245, f16m := flag w 244,
    copy := flag w 243, tensor := fld w 226 203, step := fld w 202 163, w := 32 * fld w 162 143, g := 32 * fld w 142 123,
    m1 := 32 * fld w 122 103, m2 := 32 * fld w 102 83, gl := 32 * fld w 82 63, prm := 32 * fld w 62 43,
    fwd := 32 * fld w 42 23, trn := 32 * fld w 22 3, rsvd := fld w 2 0,
    lr := BitVec.ofNat 32 (bits r 511 480), beta1 := BitVec.ofNat 32 (bits r 479 448),
    beta2 := BitVec.ofNat 32 (bits r 447 416), eps := BitVec.ofNat 32 (bits r 415 384),
    wd := BitVec.ofNat 32 (bits r 383 352), gscale := BitVec.ofNat 32 (bits r 351 320),
    bc1 := BitVec.ofNat 32 (bits r 319 288), bc2 := BitVec.ofNat 32 (bits r 287 256),
    rows := bits r 255 242 + 1, cols := bits r 241 228 + 1, gtype := bits r 227 226, purp := bits r 225 218,
    row0 := bits r 217 190, col0 := bits r 189 162, prsvd := bits r 161 160, kfull := bits r 159 128,
    fmtF := BitVec.ofNat 32 (bits r 127 96), fmtT := BitVec.ofNat 32 (bits r 95 64),
    tsF := BitVec.ofNat 32 (bits r 63 32), tsT := BitVec.ofNat 32 (bits r 31 0) }

def UeCmd.copies (c : UeCmd) : Bool := decide (c.opc = 2) || (decide (c.opc = 1) && c.copy)
/-- Bytes of a sixteen-bit tile, a gradient tile, a glean tile (06 R161). -/
def UeCmd.tile (c : UeCmd) : Nat := c.rows * rowPad 2 c.cols
def UeCmd.gradTile (c : UeCmd) : Nat := c.rows * rowPad (esize c.gtype) c.cols
def UeCmd.gleanTile (c : UeCmd) : Nat := c.rows * rowPad 1 c.cols
/-- Bytes of the words RBITS writes: 16 for each 32-element sub-block of each block (06 R163). -/
def UeCmd.rbytes (c : UeCmd) : Nat :=
  match fmtOf c.fmtF with
  | some f => c.rows * (c.cols / f.blk) * (16 * ceilDiv f.blk 32)
  | none => 0

/-- A data-mover command with its parameter record, and the ring fields of the same record (09 R263, R265;
10 R300). -/
structure DmCmd where
  opc : Nat
  sspace : Nat
  saddr : Nat
  dspace : Nat
  daddr : Nat
  len : Nat
  prm : Nat
  atype : Nat
  src32 : Bool
  ord : Bool
  init : Bool
  last : Bool
  tree : Nat
  tag : Nat
  ncell : Nat
  nctr : Nat
  hash : Bool
  rate : Nat
  rsvd : Nat
  fmt : BitVec 32
  tkind : Nat
  form : Bool
  mxf : Nat
  prsvd : Nat
  ts : BitVec 32
  kdim : Nat
  odim : Nat
  r0 : Nat
  k0 : Nat
  rows : Nat
  klen : Nat
  xaddr : Nat
  prec : Nat
  deriving DecidableEq, Repr

def dmCmd (w : BitVec 256) (r : Nat) : DmCmd :=
  { opc := fld w 255 252, sspace := fld w 235 233, saddr := fld w 232 193, dspace := fld w 192 190, daddr := fld w 189 150,
    len := fld w 149 118, prm := 32 * fld w 117 98, atype := fld w 97 96, src32 := flag w 95, ord := flag w 94,
    init := flag w 93, last := flag w 92, tree := fld w 91 76, tag := fld w 75 60, ncell := fld w 59 54,
    nctr := fld w 53 49, hash := flag w 48, rate := fld w 47 36, rsvd := fld w 35 0,
    fmt := BitVec.ofNat 32 (bits r 511 480), tkind := bits r 479 478, form := bit r 477, mxf := bits r 476 473,
    prsvd := bits r 472 448 + bits r 215 0, ts := BitVec.ofNat 32 (bits r 447 416), kdim := bits r 415 384,
    odim := bits r 383 352, r0 := bits r 351 320, k0 := bits r 319 288, rows := bits r 287 272 + 1,
    klen := bits r 271 256 + 1, xaddr := bits r 255 216, prec := r }

/-- Bytes of one ADD element in the destination, and in the source. -/
def DmCmd.asize (c : DmCmd) : Nat := if c.atype = 0 ∨ c.atype = 3 then 4 else 2
def DmCmd.ssize (c : DmCmd) : Nat := if c.src32 then 4 else c.asize
/-- Bytes a source of an ADD of LEN bytes takes: LEN is bytes of source elements (09 R266). -/
def DmCmd.addBytes (c : DmCmd) : Nat := c.len / c.ssize * c.asize

/-- A parameter record in a cell's own store, as it stands. -/
def prmAt (s : State) (c a : Nat) : Nat := leNat (s.mem.readN (cellBase c + a) 64)

/-- A byte range at device addresses, and whether it is written. -/
structure Region where
  base : Nat
  len  : Nat
  wr   : Bool
  deriving DecidableEq, Repr

/-- A range of the cell's own store. -/
def ownReg (c : Nat) (wr : Bool) (a n : Nat) : Region := ⟨cellBase c + a, n, wr⟩

/-- MX geometry: bits of an element code (03 R94). -/
def mxBits (mxf : Nat) : Nat := if mxf = 0 then 4 else if mxf ≤ 2 then 6 else 8
/-- Bytes of the MX element array and scale array of an o × k tensor: blocks of 32, codes packed (03 R95). -/
def mxElemBytes (mxf o k : Nat) : Nat := ceilDiv (o * k * mxBits mxf) 8
def mxScaleBytes (o k : Nat) : Nat := o * (k / 32)

/-- Bytes of the tensor-wide planes of a command's tensor (09 R262). -/
def DmCmd.wideBytes (c : DmCmd) : Nat :=
  match fmtOf c.fmt with
  | some f => planesSize f c.tkind c.odim c.kdim
  | none => 0
/-- Bytes of the tile GATHER writes or SCATTER reads. -/
def DmCmd.tileBytes (c : DmCmd) : Nat :=
  match fmtOf c.fmt with
  | none => 0
  | some f =>
    if c.opc = 3 then planesSize f c.tkind c.rows c.klen
    else if c.form then 32 + c.rows * rowSize f c.tkind c.klen else heldSize f c.tkind c.rows c.klen

/-- Source bytes at SADDR and destination bytes at DADDR, by opcode (09 R266). -/
def DmCmd.srcBytes (c : DmCmd) : Nat :=
  match c.opc with
  | 1 | 4 => c.len
  | 2 => c.wideBytes
  | 3 => c.tileBytes
  | 5 => mxElemBytes c.mxf c.odim c.kdim
  | 6 => c.wideBytes
  | 8 | 10 => c.len
  | _ => 0
def DmCmd.dstBytes (c : DmCmd) : Nat :=
  match c.opc with
  | 1 | 7 => c.len
  | 2 => c.tileBytes
  | 3 => c.wideBytes
  | 4 => c.addBytes
  | 5 => c.wideBytes
  | 6 => mxElemBytes c.mxf c.odim c.kdim
  | _ => 0

/-- The device ranges of a range in a space (09 R264): none where the space or the range does not exist. A
device physical range must lie in one place. -/
def spaceRange (s : State) (p c space a n : Nat) : Option (List (Nat × Nat)) :=
  match space with
  | 0 => if a + n ≤ s.stackBytes p then some (relPieces s p a n) else none
  | 1 => if a + n ≤ cellSize then some [(cellBase c + a, n)] else none
  | 2 => if bits a 33 25 = 0 ∧ bits a 24 0 + n ≤ cellSize ∧ bits a 39 34 < 34 then
      some [(cellBase (bits a 39 34) + bits a 24 0, n)] else none
  | 3 => if a + n ≤ defLdb (s.defOf p) * 2 ^ 20 then some [(ldbWindow + shareArea + s.ldbBase p + a, n)] else none
  | 5 =>
    match placeOf a, placeOf (a + n - 1) with
    | .stack _ _, .stack _ _ => if n = 0 then some [] else some (physPieces 33 a n)
    | .cell i o, .cell j _ => if i = j ∧ o + n ≤ cellSize then some [(a, n)] else none
    | _, _ => none
  | _ => none
where
  /-- A range of stack addresses cut at the stack boundaries. -/
  physPieces : Nat → Nat → Nat → List (Nat × Nat)
    | 0, _, _ => []
    | k + 1, a, n => if n = 0 then [] else
        let m := min n (2 ^ 33 - a % 2 ^ 33)
        (a, m) :: physPieces k (a + m) (n - m)

/-- One row of one plane of a tile in its tensor-wide tensor: plane, offset from the tensor's base, bytes
(03 R79, 09 R262). -/
structure TilePiece where
  plane : Nat
  off   : Nat
  len   : Nat
  deriving DecidableEq, Repr

/-- The pieces of a tile in the planes of its tensor: rows of plane k. -/
def planeRows (f : Fmt) (d : DmCmd) (k : Nat) : List TilePiece :=
  let pb := planeBytes f d.tkind
  let nb := d.kdim / f.blk
  let offs := planeOffs (d.odim * nb) 0 pb
  let b := pb.getD k 0
  if b = 0 then [] else
  (List.range d.rows).map fun r =>
    ⟨k, offs.getD k 0 + ((d.r0 + r) * nb + d.k0 / f.blk) * b, b * (d.klen / f.blk)⟩

/-- Bytes of a member's source, and of the staging region (10 R303). -/
def sourceLen (cop len n : Nat) : Nat := if cop = 3 then len / n else len
def stageLen (cop len n : Nat) : Nat :=
  match cop with
  | 1 => 2 * len
  | 2 => len + len / n
  | _ => len

/-- The ranges a collective reads and writes (10 R303): its source, if this member has one, its result and its staging
region. -/
def collRegions (s : State) (p : Nat) (d : DmCmd) : List (Bool × Nat × Nat) :=
  let cop := bits d.prec 511 508
  let g := bits d.prec 476 473
  let n := (membersOf s p g).length
  let silent := decide (cop = 4) && decide (memberIndex s p g ≠ some (bits d.prec 472 461))
  [(false, d.saddr, if silent then 0 else sourceLen cop d.len n), (true, d.daddr, if cop = 2 then d.len / n else d.len),
   (true, bits d.prec 447 408, stageLen cop d.len n)]

/-- The rows of a tile in its tensor-wide tensor, as offsets and lengths. -/
def tileRows (d : DmCmd) : List TilePiece :=
  match fmtOf d.fmt with
  | some f => (List.range 6).flatMap fun k => planeRows f d k
  | none => []

/-- Regions of a data-mover command: the cell-store and stack bytes its fields name (07 R200). -/
def dmRegions (s : State) (p c : Nat) (d : DmCmd) : List Region :=
  let reg := fun (wr : Bool) (sp a n : Nat) =>
    if n = 0 ∨ sp = 3 then [] else ((spaceRange s p c sp a n).getD []).map fun x => Region.mk x.1 x.2 wr
  let prm := if d.opc ∈ [2, 3, 5, 6, 8, 9, 10, 11] then [ownReg c false d.prm 64] else []
  prm ++
  (match d.opc with
   | 2 => (tileRows d).flatMap (fun t => reg false d.sspace (d.saddr + t.off) t.len) ++ reg true d.dspace d.daddr d.dstBytes
   | 3 => reg false d.sspace d.saddr d.srcBytes ++ (tileRows d).flatMap fun t => reg true d.dspace (d.daddr + t.off) t.len
   | 10 => (collRegions s p d).flatMap fun x => reg x.1 0 x.2.1 x.2.2
   | _ => reg false d.sspace d.saddr d.srcBytes ++ reg true d.dspace d.daddr d.dstBytes) ++
  (if d.opc = 5 then reg false d.sspace d.xaddr (mxScaleBytes d.odim d.kdim) else []) ++
  (if d.opc = 6 then reg true d.dspace d.xaddr (mxScaleBytes d.odim d.kdim) else [])

/-- The forward kind of a table pair (05 R154): the most significant byte of its header; none for an empty slot. -/
def pairKind (x : Cell) (func : Nat) : Option Nat :=
  (vget x.ve.tables func none).map fun t => (t.getD 31 0).toNat

/-- The IN region of a vector-engine command (05 R144). -/
def veIn (c : Nat) (v : VeCmd) : Region := ownReg c false v.inAddr (panelSize (esize v.inT) v.m v.inCols)

/-- Regions of a vector-engine command (05 R144, R149) but its record and IN; `silu`: its FUNC pair is native SiLU. -/
def veOthers (c : Nat) (silu : Bool) (v : VeCmd) : List Region :=
  let rd := fun (a n : Nat) => ownReg c false a n
  let wr := fun (a n : Nat) => ownReg c true a n
  (if v.usesAux then [rd v.aux (panelSize (esize (saveCode v.saveT)) v.m v.auxCols)] else []) ++
  (if v.usesGamma then [rd v.gamma (alignUp 32 (4 * v.l))] else []) ++
  (if v.usesBeta then [rd v.beta (alignUp 32 (4 * v.l))] else []) ++
  (if v.kern = 3 ∨ v.kern = 10 then [rd v.aux2 (alignUp 32 (4 * v.m))] else []) ++
  (if v.kern = 3 ∧ v.aux3En = true then [rd v.aux3 (panelSize (esize (outCode v.outT)) v.m v.l)] else []) ++
  (if v.kern = 7 ∧ v.dmode = false ∧ silu = true then [rd v.aux2 (panelSize (esize (saveCode v.saveT)) v.m v.l)] else []) ++
  (if v.kern = 6 ∧ v.dmode = false ∧ silu = true ∧ v.saveT ≠ 0 then [wr v.aux2 (panelSize (esize (saveCode v.saveT)) v.m v.l)] else []) ++
  (if v.saves then [wr v.save (panelSize (esize (saveCode v.saveT)) v.m v.saveCols)] else []) ++
  (if v.outEn then [wr v.out (panelSize (esize (outCode v.outT)) v.m v.outCols)] else []) ++
  (if v.qkind ≠ 0 then [wr v.q (qBytes v.qfmt v.qkind v.qaxis v.m v.outCols)] else []) ++
  (if v.q2En ∧ v.qkind ≠ 0 then [wr v.q2 (qBytes v.qfmt2 v.qkind (!v.qaxis) v.m v.outCols)] else []) ++
  (if v.usesRed then [wr v.red v.redBytes] else [])

/-- All regions of a vector-engine command, its parameter record first. -/
def veRegions (c : Nat) (silu : Bool) (v : VeCmd) : List Region :=
  ownReg c false v.prm 64 :: veIn c v :: veOthers c silu v

/-- Regions of an update-engine command (06 R161, R163). -/
def ueRegions (c : Nat) (u : UeCmd) : List Region :=
  let rd := fun (a n : Nat) => ownReg c false a n
  let wr := fun (a n : Nat) => ownReg c true a n
  [rd u.prm 64] ++
  (if u.opc = 1 then
    [rd u.g u.gradTile, wr u.w u.tile, wr u.m1 u.tile] ++
    (if u.opt = 1 then [wr u.m2 u.tile] else []) ++ (if u.mode = 1 then [wr u.gl u.gleanTile] else [])
   else if u.opc = 2 then [rd u.w u.tile] else [wr u.w u.rbytes]) ++
  (if u.copies then
    [wr u.fwd (qBytes u.fmtF 1 false u.rows u.cols), wr u.trn (qBytes u.fmtT 1 true u.rows u.cols)] else [])

/-- The regions of a queued command (07 R200). -/
def regionsOf (s : State) (c q : Nat) (w : BitVec 256) : List Region :=
  match q with
  | 0 =>
    let m := meCmd w
    if m.opc = 2 then [ownReg c false m.hAddr (heldBytes m)] else
    (if m.hold = 0 then [ownReg c false m.hAddr (heldBytes m)] else []) ++
    (if m.sSrc then [] else [ownReg c false (32 * m.sAddr) (streamBytes m)]) ++
    [ownReg c true m.outAddr (outBytes m)]
  | 1 => veRegions c (pairKind (s.cell c) (fld w 37 34) == some 3) (veCmd w (prmAt s c (32 * fld w 92 73)))
  | 2 =>
    let m := qeCmd w
    [ownReg c false m.src (panelSize (esize m.srcT) m.m m.l), ownReg c true m.dst (qBytes m.fmt m.kind m.axis m.m m.l)]
  | 3 => ueRegions c (ueCmd w (prmAt s c (32 * fld w 62 43)))
  | _ =>
    match s.cellOwner c with
    | some p => dmRegions s p c (dmCmd w (prmAt s c (32 * fld w 117 98)))
    | none => []

/-- Two byte ranges share a byte. -/
def overlap (a b : Region) : Bool :=
  decide (a.base < b.base + b.len) && decide (b.base < a.base + a.len)

/-- A hazard of regions x on earlier regions y: y writes what x touches, or y reads what x writes (07 R200). -/
def hazard (x y : List Region) : Bool := x.any fun a => y.any fun b => overlap a b && (a.wr || b.wr)

/-- A gate is satisfied (07 R201). -/
def gateOk (k : Core) (g : Option GateSpec) : Bool :=
  match g with
  | none => true
  | some g => decide ((vget k.ev g.ctr 0 - g.thr).toNat < 2 ^ 31)

/-- Whether a region list's writes lie in the provisional region (07 R207, R208). -/
def inProv (c : Nat) (x : Cell) (l : List Region) : Bool :=
  l.all fun r => !r.wr || decide (r.len = 0) ||
    (decide (cellBase c + x.provBase ≤ r.base) && decide (r.base + r.len ≤ cellBase c + x.provBase + x.provSize))

/-- A read of the data mover from a stack or from the own cell store. -/
def readsNear (c : Nat) (r : Region) : Bool :=
  r.wr || (match placeOf r.base with | .stack _ _ => true | .cell i _ => decide (i = c) | _ => false)

/-- A data-mover transfer that may run while provisional (07 R208): it reads the own cell store or a stack, and feeds
a stream or writes the provisional region, however its spaces name them. -/
def dmProvisional (s : State) (c : Nat) (w : BitVec 256) (rs : List Region) : Bool :=
  let d := dmCmd w (prmAt s c (32 * fld w 117 98))
  let named := fun (sp a n : Nat) => match s.cellOwner c with
    | some p => decide (n = 0) || (spaceRange s p c sp a n).isSome
    | none => false
  decide (d.opc ∈ [1, 2, 3, 5, 6, 7]) && rs.all (readsNear c) && named d.sspace d.saddr d.srcBytes &&
  ((decide (d.opc ≤ 2) && decide (d.dspace = 4)) ||
    (decide (0 < d.dstBytes) && named d.dspace d.daddr d.dstBytes && inProv c (s.cell c) rs))

/-- A command kind may run while provisional (07 R208). -/
def mayRunProvisional (s : State) (c q : Nat) (w : BitVec 256) : Bool :=
  let rs := regionsOf s c q w
  match q with
  | 0 => decide (fld w 255 252 = 1) && decide (fld w 64 63 = 1) && inProv c (s.cell c) rs
  | 1 | 2 => decide (fld w 255 252 = 1) && inProv c (s.cell c) rs
  | 3 => false
  | _ => dmProvisional s c w rs

/-- The earlier incomplete commands of a cell. -/
def earlier (x : Cell) (seqNo : BitVec 32) : List (Nat × QEntry) :=
  (allCommands x).filter fun e => decide (e.2.seqNo < seqNo)

/-- The MMUL a joined command names: the last MMUL before it in program order (05 R146). -/
def joinedMmul (x : Cell) (seqNo : BitVec 32) : Option QEntry :=
  ((earlier x seqNo).filter fun e => decide (e.1 = 0 ∧ fld e.2.word 255 252 = 1)).foldl
    (fun m e => match m with
      | none => some e.2
      | some y => if y.seqNo < e.2.seqNo then some e.2 else some y) none

/-- The regions of a command for which a hazard on the earlier command y holds it (07 R200): a command with JOIN = 1
does not wait to read IN from the MMUL it joins. -/
def heldRegions (s : State) (c q : Nat) (e : QEntry) (y : Nat × QEntry) : List Region :=
  if q = 1 ∧ flag e.word 213 = true ∧ y.1 = 0 ∧ some y.2 = joinedMmul (s.cell c) e.seqNo then
    (regionsOf s c q e.word).eraseIdx 1
  else regionsOf s c q e.word

/-- A command's hazards are clear of the earlier commands `l` (07 R200). -/
def clearOf (s : State) (c q : Nat) (e : QEntry) (l : List (Nat × QEntry)) : Bool :=
  !(l.any fun y => hazard (heldRegions s c q e y) (regionsOf s c y.1 y.2.word))

/-- A command's hazards are clear (07 R200). -/
def hazardsClear (s : State) (c q : Nat) (e : QEntry) : Bool := clearOf s c q e (earlier (s.cell c) e.seqNo)

/-- A data-mover command that feeds a stream of the cell (09 R266). -/
def feedsStream (n : Nat) (w : BitVec 256) : Bool :=
  decide (fld w 255 252 ∉ [8, 9, 11]) && decide (fld w 192 190 = 4) && decide (fld w 189 150 = n)

/-- The oldest incomplete data-mover command that feeds a stream. -/
def feederOf (x : Cell) (n : Nat) : Option QEntry :=
  ((allCommands x).filter fun y => decide (y.1 = 4) && feedsStream n y.2.word).foldl
    (fun m y => match m with
      | none => some y.2
      | some z => if y.2.seqNo < z.seqNo then some y.2 else some z) none

/-- The source of the stream of an MMUL with S_SRC = 1 has no hazard (07 R200), and its feeding command's gate is
satisfied (02 R67; log entry 92): the stream holds the tile or has failed, nothing is to feed it, its feeding command
is in progress, or that command waits for nothing but its turn. Another command has no such source. -/
def streamReady (s : State) (c q : Nat) (e : QEntry) : Bool :=
  let x := s.cell c
  let m := meCmd e.word
  if q = 0 ∧ m.opc = 1 ∧ m.sSrc = true then
    let w := mapGet ⟨[], false⟩ x.me.streams m.sAddr
    w.failed || decide (streamBytes m ≤ w.bytes.length) ||
    (match feederOf x m.sAddr with
      | none => true
      | some f => (x.dm.any fun r => decide (r.entry.seqNo = f.seqNo)) ||
          (gateOk x.core f.gate && clearOf s c 4 f ((earlier x f.seqNo).filter fun y => decide (y.2.seqNo ≠ e.seqNo))))
  else true

/-- The partition for which a queued command may start: the cell works, or its partition has stopped and the
command is one that 04 R124 lets run to completion. -/
def runsFor (s : State) (c q : Nat) : Option Nat :=
  match s.works c with
  | some p => some p
  | none =>
    match s.cellOwner c with
    | some p => if q = 4 ∧ (s.part p).st = 2 ∧ s.dev.devState = 1 then some p else none
    | none => none

/-- The head of a queue, if it may start (07 R199): gate satisfied, hazards clear, committed or permitted to
run provisionally. -/
def eligible (s : State) (c q : Nat) : Option (Nat × QEntry) :=
  let x := s.cell c
  match runsFor s c q, (vget x.queues q []).head? with
  | some p, some e =>
    if gateOk x.core e.gate && hazardsClear s c q e && streamReady s c q e &&
       (!provisional x.core e.seqNo || mayRunProvisional s c q e.word) then some (p, e) else none
  | _, _ => none

/-- The head of a queue taken off. -/
def popQueue (c q : Nat) (s : State) : State :=
  s.onCell c fun x => { x with queues := vmod x.queues q fun l => l.drop 1 }

/-- A done outcome. -/
def mkDone (st : Nat) (n : Counts) (aux : Nat) : Done := ⟨BitVec.ofNat 8 st, n, BitVec.ofNat 64 aux⟩

end Sys2Proof.Machine
end

