-- ==== Sys2Proof/Machine/Product.lean ====
section
/-! DEFINITION. The arithmetic of a product command: decoded tiles, passes, awn demand, leaves, the pairwise
tree and the result of a row (04 R99 to R118, R126, R129). -/

set_option Elab.async false

namespace Sys2Proof.Machine

/-- The tensor scale in a tile prefix (04 R106). The prefix's reserved bits are not judged: 00 R15 speaks of the fields
a command carries (DEDUCED, log entry 38). -/
def tileScale (bs : List Byte) : BitVec 32 := BitVec.ofNat 32 (leNat (bs.take 4))

/-- A held tile decoded, column by column. -/
def HeldTile.blks (t : HeldTile) : Option (List (List DBlk)) :=
  match fmtOf t.fmt with
  | some f => heldBlks f t.kind.toNat t.nCols t.kLen t.bytes
  | none => none

/-- Multiplier rows a tile's plane takes, R (04 R112). -/
def multRows (f : Fmt) (kLen : Nat) : Nat := ceilDiv kLen f.pack

/-- Pass count of a list of blocks (04 R103). -/
def passCount (l : List DBlk) : Nat := l.foldl (fun a b => max a b.passes.length) 0

/-- Block j of column c of a held tile, if it keeps 03 R85. -/
def HeldTile.blkAt (t : HeldTile) (f : Fmt) (c j : Nat) : Option DBlk :=
  let nb := t.kLen / f.blk
  decodeBlk f t.kind.toNat
    (planeBlk f t.kind.toNat (planeOffs (t.nCols * nb) 32 (planeBytes f t.kind.toNat)) t.bytes (c * nb + j))

/-- The blocks of a held tile that keep 03 R85. -/
def HeldTile.goodBlks (t : HeldTile) (f : Fmt) : List DBlk :=
  ((List.range t.nCols).map fun c => (List.range (t.kLen / f.blk)).filterMap fun j => t.blkAt f c j).flatten

/-- Whether a tile occupies both planes: G8, CP2, or a block with WTAG 0b11 (04 R101), judged over the blocks that
keep 03 R85 (log entry 38). -/
def twoPlanes (t : HeldTile) : Bool :=
  match fmtOf t.fmt with
  | some f => decide (f.baseW = 3 ∨ t.kind = 1) || decide (passCount (t.goodBlks f) ≥ 2)
  | none => false

/-- The first multiplier row whose blocks break 03 R85, if any: a load under LOAD ends there (log entry 38). -/
def brokenRow (t : HeldTile) : Option Nat :=
  match fmtOf t.fmt with
  | none => none
  | some f =>
    ((List.range (t.kLen / f.blk)).find? fun j => (List.range t.nCols).any fun c => (t.blkAt f c j).isNone).map
      fun j => j * f.blk / f.pack

/-- Saturations of the decode of a list of blocks (03 R85). -/
def satCount (l : List DBlk) : Nat := sumN (l.map DBlk.sat)

/-- Positions along the row of the awn entries of a list of blocks, with their values. -/
def awnAt (blk : Nat) (l : List DBlk) : List (Nat × Dy) :=
  (l.zipIdx.map fun b => b.1.awn.map fun a => (b.2 * blk + a.1, a.2)).flatten

/-- The awn demand D_m of a streamed row (04 R118). -/
def awnDemand (hf sf : Fmt) (n : Nat) (cols : List (List DBlk)) (row : List DBlk) : Nat :=
  let held := cols.map (awnAt hf.blk)
  let str := awnAt sf.blk row
  let meet := fun (c : List (Nat × Dy)) => (c.filter fun a => str.any fun b => decide (a.1 = b.1)).length
  sumN (held.map List.length) * passCount row + str.length * n * passCount cols.flatten + 3 * sumN (held.map meet)

/-- P_m and b_m of a streamed row (04 R103, R118). -/
def rowBeats (hf sf : Fmt) (n : Nat) (cols : List (List DBlk)) (row : List DBlk) : Nat × Nat :=
  let p := passCount cols.flatten * passCount row
  (p, max p (ceilDiv (awnDemand hf sf n cols row) 4096))

/-- The narrow accumulator of a run in a pass pair (04 R113); an absent nibble enters as zero (04 R103). -/
def narrowSum (hb sb : DBlk) (ho so run a b : Nat) : Int :=
  let hv := (hb.passes.getD a ⟨0, []⟩).v
  let sv := (sb.passes.getD b ⟨0, []⟩).v
  (List.range run).foldl (fun t i => t + hv.getD (ho + i) 0 * sv.getD (so + i) 0) 0

/-- An empty block. -/
def DBlk.none : DBlk := ⟨[], Exact.zero, [], 0⟩

/-- The exact leaf of a run, before its rounding (04 R114). `ho`, `so` are the run's offsets in its blocks and
`up a b` the upset of a narrow accumulator. -/
def leafOf (hb sb : DBlk) (ho so run rot : Nat) (up : Nat → Nat → Int) : Dy :=
  let pairs := (List.range hb.passes.length).flatMap fun a => (List.range sb.passes.length).map fun b => (a, b)
  let main := Exact.sum (pairs.map fun x =>
    ⟨narrowSum hb sb ho so run x.1 x.2 + up x.1 x.2,
      (hb.passes.getD x.1 ⟨0, []⟩).p + (sb.passes.getD x.2 ⟨0, []⟩).p⟩)
  let held := hb.awn.filter fun a => decide (ho ≤ a.1 ∧ a.1 < ho + run)
  let str := sb.awn.filter fun a => decide (so ≤ a.1 ∧ a.1 < so + run)
  let t1 := Exact.sum (held.map fun a => Exact.mul a.2 (sb.val (a.1 - ho + so)))
  let t2 := Exact.sum (str.map fun a => Exact.mul a.2 (hb.val (a.1 - so + ho)))
  let t3 := Exact.sum (held.flatMap fun a => (str.filter fun b => decide (a.1 - ho = b.1 - so)).map fun b =>
    Exact.mul a.2 b.2)
  let x := Exact.add (Exact.add (Exact.mul main (Exact.mul hb.scale sb.scale)) t1) (Exact.add t2 t3)
  Exact.scale x (-(rot.log2 : Nat))

/-- One level of the tree: pairs in index order, clamps counted (04 R114). -/
def treeLevel : Nat → List Dy → Nat × List Dy
  | n, a :: b :: r =>
    let x := rneC f32 n (Exact.add a b)
    let y := treeLevel x.1 r
    (y.1, x.2 :: y.2)
  | n, l => (n, l)

/-- d levels of the tree. -/
def treeSum : Nat → Nat → List Dy → Nat × Dy
  | 0, n, l => (n, l.headD Exact.zero)
  | d + 1, n, l => let r := treeLevel n l; treeSum d r.1 r.2

/-- One output value: the clamps of its leaves, tree, tensor-scale product and prior add, and r (04 R114). -/
def columnResult (hf sf : Fmt) (run kLen : Nat) (t : Dy) (prior : Option Nat) (up : Nat → Nat → Nat → Int)
    (col row : List DBlk) : Nat × Dy :=
  let jn := kLen / run
  let leaves := (List.range jn).foldl (fun (acc : Nat × List Dy) j =>
    let k := j * run
    let x := rneC f32 acc.1 (leafOf (col.getD (k / hf.blk) DBlk.none) (row.getD (k / sf.blk) DBlk.none)
      (k % hf.blk) (k % sf.blk) run hf.rot (up j))
    (x.1, acc.2 ++ [x.2])) (0, [])
  let d := ceilLog2 jn
  let tr := treeSum d leaves.1 (leaves.2 ++ List.replicate (2 ^ d - jn) Exact.zero)
  let r := rneC f32 tr.1 (Exact.mul tr.2 t)
  match prior with
  | none => r
  | some c =>
    let p := readIn f32 c
    rneC f32 (r.1 + (if p.2 then 1 else 0)) (Exact.add p.1 r.2)

/-- A row's output codes with the clamps of promotion and conversion and the values flushed (04 R107, R129). -/
def rowResult (hf sf : Fmt) (run kLen outKind : Nat) (t : Dy) (priors : List (Option Nat))
    (up : Nat → Nat → Nat → Nat → Int) (cols : List (List DBlk)) (row : List DBlk) : List Nat × Nat × Nat :=
  let per := cols.zipIdx.map fun x =>
    let r := columnResult hf sf run kLen t (priors.getD x.2 none) (up x.2) x.1 row
    let o := roundTo (efmt outKind) r.2
    (o.1, r.1 + (if o.2 then 1 else 0), if r.2.m ≠ 0 ∧ (value (efmt outKind) o.1).m = 0 then 1 else 0)
  (per.map Prod.fst, sumN (per.map fun x => x.2.1), sumN (per.map fun x => x.2.2))

/-- The bytes of an output row (04 R107). -/
def rowBytes (outKind : Nat) (codes : List Nat) : List Byte :=
  padTo 32 ((codes.map (leBytes (esize outKind))).flatten)

/-- Staging latency λ (04 R121). -/
def stagingLatency (hf sf : Fmt) : Nat :=
  3 + (if hf.awnC > 0 ∨ sf.awnC > 0 then 1 else 0) +
  (if (sf.baseW = 3 ∧ (sf.enc = .e4m3 ∨ sf.enc = .e5m2)) ∨ (sf.fbEn = true ∧ (sf.fbEnc = .e4m3 ∨ sf.fbEnc = .e5m2))
    then 1 else 0)

/-- Drain latency δ (04 R121). -/
def drainLatency (run kLen : Nat) (acc : Bool) : Nat := 3 + ceilLog2 (kLen / run) + (if acc then 1 else 0)

/-- The residue r_k of a plane at a reduction position: the held values of the column sum, modulo 127 (04 R126). -/
def heldResidue (cols : List (List DBlk)) (blk a k : Nat) : Int :=
  (cols.foldl (fun t c => t + (((c.getD (k / blk) DBlk.none).passes.getD a ⟨0, []⟩).v.getD (k % blk) 0)) 0) % 127

/-- The residue comparison of a run in a pass pair: the columns' accumulators with their upsets against the
residue column (04 R126). -/
def residueOk (hf sf : Fmt) (run : Nat) (cols : List (List DBlk)) (row : List DBlk) (up : Int) (j a b : Nat) : Bool :=
  let k := j * run
  let sb := row.getD (k / sf.blk) DBlk.none
  let accs := cols.foldl (fun t c =>
    t + narrowSum (c.getD (k / hf.blk) DBlk.none) sb (k % hf.blk) (k % sf.blk) run a b) 0
  let res := (List.range run).foldl (fun t i =>
    t + (sb.passes.getD b ⟨0, []⟩).v.getD (k % sf.blk + i) 0 * heldResidue cols hf.blk a (k + i)) 0
  decide ((accs + up - res) % 127 = 0)

/-- The stream input a command reads. -/
def streamOf (x : Cell) (m : MeCmd) : StreamIn := mapGet ⟨[], false⟩ x.me.streams m.sAddr
def onStream (c n : Nat) (f : StreamIn → StreamIn) (s : State) : State :=
  s.onCell c fun x => { x with me := { x.me with
    streams := mapSet x.me.streams n (f (mapGet ⟨[], false⟩ x.me.streams n)) } }

end Sys2Proof.Machine
end

