-- ==== Sys2Proof/Machine/VectorMath.lean ====
section
/-! DEFINITION. Vector-engine arithmetic: counted binary32 operations, trees, and the native functions, whose
values are free within the bounds of 05 R139 (log entry 3). The bounds are computed from exact enclosures. -/

set_option Elab.async false

namespace Sys2Proof.Machine

/-- Fractional bits of the enclosures. -/
def encBits : Nat := 512

/-- Terms of e^x in fixed point: x^i / i! for i ≥ 1, the running sum (each division truncates). -/
def expTerms : Nat → Nat → Int → Int → Int → Int
  | 0, _, _, _, s => s
  | n + 1, i, x, t, s =>
    let t' := t * x / ((i * 2 ^ encBits : Nat) : Int)
    expTerms n (i + 1) x t' (s + t')

/-- An exact value in fixed point, truncated. -/
def toFixed (a : Dy) : Int :=
  let k := a.e + encBits
  if k ≥ 0 then a.m * 2 ^ k.toNat else a.m / (2 ^ (-k).toNat : Nat)

/-- e^x for |x| at most 128, within 2^-300: 600 terms. -/
def expNear (x : Dy) : Dy :=
  let one : Int := (2 ^ encBits : Nat)
  ⟨expTerms 600 1 (toFixed x) one one, -(encBits : Int)⟩

/-- Terms z^(2i+1) / (2i+1), the running sum. -/
def atanhTerms : Nat → Nat → Int → Int → Int → Int
  | 0, _, _, _, s => s
  | n + 1, i, z2, t, s =>
    atanhTerms n (i + 1) z2 (t * z2 / (2 ^ encBits : Nat)) (s + t / ((2 * i + 1 : Nat) : Int))

/-- ln((1 + z) / (1 - z)) for z in fixed point at most 1/3, within 2^-300. -/
def lnRatio (z : Int) : Int := 2 * atanhTerms 200 0 (z * z / (2 ^ encBits : Nat)) z 0

/-- ln x for x > 0, within 2^-280. -/
def lnNear (x : Dy) : Dy :=
  let k := x.m.natAbs.log2
  let one : Int := (2 ^ encBits : Nat)
  let m := toFixed ⟨x.m, -(k : Int)⟩
  ⟨((k : Int) + x.e) * lnRatio (one / 3) + lnRatio ((m - one) * one / (m + one)), -(encBits : Int)⟩

/-- A quotient in fixed point. -/
def divNear (a b : Dy) : Dy :=
  ⟨toFixed a * (2 ^ encBits : Nat) / toFixed b, -(encBits : Int)⟩

/-- The integer square root, bit by bit. -/
def isqrt : Nat → Nat → Nat → Nat
  | 0, _, r => r
  | b + 1, n, r => if (r + 2 ^ b) * (r + 2 ^ b) ≤ n then isqrt b n (r + 2 ^ b) else isqrt b n r

/-- 1 / sqrt(x) for x > 0, to 2^-250 of it. -/
def rsqrtNear (x : Dy) : Dy :=
  -- 1/x = 2^(512 - e) / m; an even exponent makes the root exact in its exponent
  let e : Int := if x.e % 2 = 0 then x.e else x.e - 1
  let m := if x.e % 2 = 0 then x.m.natAbs else 2 * x.m.natAbs
  ⟨isqrt 520 (2 ^ 1024 / m) 0, -512 - e / 2⟩

/-- What the enclosures leave out. -/
def slack : Dy := ⟨1, -240⟩

/-- The binary32 value next to an exact value: the least at or above it, or the greatest at or below it. -/
def nextTo (above : Bool) (a : Dy) : Dy :=
  let x := ulpExp f32 a
  let q : Int :=
    if x ≤ a.e then a.m * 2 ^ (a.e - x).toNat
    else if above then -(-a.m / (2 ^ (x - a.e).toNat : Nat)) else a.m / (2 ^ (x - a.e).toNat : Nat)
  let top := maxFinite f32
  if Exact.lt top ⟨q, x⟩ then top else if Exact.lt ⟨q, x⟩ (Exact.neg top) then Exact.neg top else ⟨q, x⟩

/-- A free binary32 value held to within `b` of an enclosure `y`: every value a device may return is one of these, and
no other but for the slack of the enclosure (log entry 3). -/
def within (free : BitVec 32) (y b : Dy) : Dy :=
  let v := (readIn f32 free.toNat).1
  let b := Exact.add b (Exact.mul slack (Exact.add Exact.one (Exact.abs y)))
  let lo := nextTo true (Exact.sub y b)
  let hi := nextTo false (Exact.add y b)
  if Exact.lt v lo then lo else if Exact.lt hi v then hi else v

/-- n units in the last place of a result near y. -/
def ulps (n : Int) (y : Dy) : Dy := ⟨n, ulpExp f32 y⟩

/-- The larger of two bounds. -/
def maxB (a b : Dy) : Dy := if Exact.lt a b then b else a

/-- The code of a value. -/
def code32 (a : Dy) : BitVec 32 := BitVec.ofNat 32 (code f32 a)

/-- exp (05 R139): 0 below -103.97, clamped and counted above 88.72. -/
def nativeExp (n : Nat) (x : Dy) : Nat × Dy :=
  if Exact.lt (Exact.mul x (Exact.ofInt 100)) (Exact.ofInt (-10397)) then (n, Exact.zero)
  else if Exact.lt (Exact.ofInt 8872) (Exact.mul x (Exact.ofInt 100)) then (n + 1, maxFinite f32)
  else let y := expNear x; (n, within (Config.veExp (code32 x)) y (ulps 2 y))

/-- ln, for x > 0. -/
def nativeLn (x : Dy) : Dy := let y := lnNear x; within (Config.veLn (code32 x)) y (ulps 2 y)

/-- rcp, for x ≠ 0; an exact reciprocal beyond the range clamps and is counted. -/
def nativeRcp (n : Nat) (x : Dy) : Nat × Dy :=
  let q := roundQuot f32 Exact.one x
  if q.2 then (n + 1, value f32 q.1) else
  let y := divNear Exact.one x
  (n, within (Config.veRcp (code32 x)) y (ulps 1 y))

/-- rsqrt, for x > 0. -/
def nativeRsqrt (x : Dy) : Dy := let y := rsqrtNear x; within (Config.veRsqrt (code32 x)) y (ulps 1 y)

/-- An argument held to the range in which e^x is enclosed; beyond it the functions are constant within the
bounds. -/
def clip (x : Dy) : Dy :=
  if Exact.lt (Exact.ofInt 120) x then Exact.ofInt 120
  else if Exact.lt x (Exact.ofInt (-120)) then Exact.ofInt (-120) else x

/-- sigmoid (05 R139): 3 ulp or 2^-25. -/
def nativeSigmoid (x : Dy) : Dy :=
  let e := expNear (clip x)
  let y := divNear e (Exact.add Exact.one e)
  within (Config.veSigmoid (code32 x)) y (maxB (ulps 3 y) ⟨1, -25⟩)

/-- tanh (05 R139): 3 ulp or 2^-25. -/
def nativeTanh (x : Dy) : Dy :=
  let e := expNear (clip (Exact.scale x 1))
  let y := divNear (Exact.sub e Exact.one) (Exact.add e Exact.one)
  within (Config.veTanh (code32 x)) y (maxB (ulps 3 y) ⟨1, -25⟩)

/-- A counted operation over a list, in order. -/
def mapC {α β : Type} (f : Nat → α → Nat × β) : Nat → List α → Nat × List β
  | n, [] => (n, [])
  | n, a :: r =>
    let x := f n a
    let y := mapC f x.1 r
    (y.1, x.2 :: y.2)

/-- A counted binary32 rounding of a function of each element. -/
def mapR {α : Type} (f : α → Dy) (n : Nat) (l : List α) : Nat × List Dy := mapC (fun n a => rneC f32 n (f a)) n l

/-- tree(): the pairwise tree of 04 R114 over the values padded with zeros to a power of two (05 R138). -/
def treeC (n : Nat) (l : List Dy) : Nat × Dy :=
  let d := ceilLog2 l.length
  treeSum d n (l ++ List.replicate (2 ^ d - l.length) Exact.zero)

/-- A code read as an input: a NaN is 0, an infinity the largest binary32 value of its sign (03 R86, 05 R138). -/
def readAs32 (f : FFmt) (c : Nat) : Dy × Bool :=
  if isSpecial f c then
    (if isNaN f c then Exact.zero else if isNeg f c then Exact.neg (maxFinite f32) else maxFinite f32, true)
  else (value f c, false)

/-- Codes read as inputs, the replacements counted. -/
def readCodes (f : FFmt) (n : Nat) (l : List Nat) : Nat × List Dy :=
  mapC (fun n c => let r := readAs32 f c; (n + (if r.2 then 1 else 0), r.1)) n l

/-- Values converted into a format: clamps, values flushed to zero, codes (05 R148). -/
def convertAll (f : FFmt) (l : List Dy) : Nat × Nat × List Nat :=
  let r := l.map fun a => (a, roundTo f a)
  ((r.filter fun x => x.2.2).length, (r.filter fun x => decide (x.1.m ≠ 0 ∧ (value f x.2.1).m = 0)).length,
   r.map fun x => x.2.1)

/-- A binary32 parameter or table constant. For a NaN or an infinity the spec states no reading; its value is
free (log entry 40). -/
def constOf (w : BitVec 32) : Dy :=
  if isSpecial f32 w.toNat then (readIn f32 (Config.specialConst w).toNat).1 else value f32 w.toNat

/-- The header of a table of a pair: its 256 bits (05 R154). -/
def tableHdr (t : List Byte) (deriv : Bool) : Nat := leNat (slice t (if deriv then 8224 else 0) 32)
/-- VAL and SLOPE of an entry. -/
def tableEntry (t : List Byte) (deriv : Bool) (i : Nat) : Nat × Nat :=
  let b := slice t ((if deriv then 8224 else 0) + 32 + 8 * i) 8
  (leNat (b.drop 4), leNat (b.take 4))

/-- floor of an exact value. -/
def floorDy (a : Dy) : Int := if a.e ≥ 0 then a.m * 2 ^ a.e.toNat else a.m / (2 ^ (-a.e).toNat : Nat)

/-- A linear or constant rule outside the domain (05 R155). -/
def outside (linear : Bool) (a b : BitVec 32) (n : Nat) (x : Dy) : Nat × Dy :=
  if linear then
    let p := rneC f32 n (Exact.mul (constOf a) x)
    rneC f32 p.1 (Exact.add p.2 (constOf b))
  else (n, constOf b)

/-- A table evaluated at x (05 R155). -/
def tableEval (t : List Byte) (deriv : Bool) (n : Nat) (x : Dy) : Nat × Dy :=
  let h := tableHdr t deriv
  let w : Int := (bits h 247 240 : Nat) - 127
  let lo := constOf (BitVec.ofNat 32 (bits h 239 208))
  let d := Exact.sub x lo
  let i := floorDy (Exact.scale d (-w))
  if Exact.lt x lo then outside (decide (bits h 207 206 = 1)) (BitVec.ofNat 32 (bits h 203 172)) (BitVec.ofNat 32 (bits h 171 140)) n x
  else if i ≥ 1024 then outside (decide (bits h 205 204 = 1)) (BitVec.ofNat 32 (bits h 139 108)) (BitVec.ofNat 32 (bits h 107 76)) n x
  else
    let e := tableEntry t deriv i.toNat
    let v := readIn f32 e.1
    let sl := readIn f32 e.2
    let n := n + (if v.2 then 1 else 0) + (if sl.2 then 1 else 0)
    let dx := rneC f32 n (Exact.sub x (Exact.add lo ⟨i, w⟩))
    let p := rneC f32 dx.1 (Exact.mul sl.1 dx.2)
    rneC f32 p.1 (Exact.add v.1 p.2)

end Sys2Proof.Machine
end

