-- ==== Sys2Proof/Machine/Kernels.lean ====
section
/-! DEFINITION. The fused kernels row by row (05 R149 to R153). -/

set_option Elab.async false

namespace Sys2Proof.Machine

/-- What a kernel computes of one row: the primary output before OUT_T, what SAVE and the gate take, the
per-row value, the column-reduction terms, and the clamps counted. -/
structure KRow where
  y     : List Dy
  save  : List Dy
  gate  : List Dy
  red   : Option Dy
  terms : List Dy
  sat   : Nat
  deriving Repr

/-- The inputs of one row as they are read, replacements already made (05 R138). -/
structure KIn where
  x     : List Dy
  aux   : List Dy
  gate  : List Dy
  gamma : List Dy
  beta  : List Dy
  res   : List Dy
  word  : Nat
  deriving Repr

/-- rne32(1 / L). -/
def rcpLen (l : Nat) : Dy := value f32 (roundQuot f32 Exact.one (Exact.ofInt l)).1

/-- Rounded sums, differences and products of two lists, counted. -/
def zipMul (n : Nat) (a b : List Dy) : Nat × List Dy := mapR (fun x : Dy × Dy => Exact.mul x.1 x.2) n (a.zip b)
def zipAdd (n : Nat) (a b : List Dy) : Nat × List Dy := mapR (fun x : Dy × Dy => Exact.add x.1 x.2) n (a.zip b)
def zipSub (n : Nat) (a b : List Dy) : Nat × List Dy := mapR (fun x : Dy × Dy => Exact.sub x.1 x.2) n (a.zip b)
/-- rne32(tree(l) × rcpl). -/
def meanC (n : Nat) (l : List Dy) : Nat × Dy :=
  let t := treeC n l
  rneC f32 t.1 (Exact.mul t.2 (rcpLen l.length))

/-- norm_fwd (05 R150). -/
def normFwd (rms : Bool) (eps : Dy) (i : KIn) : KRow :=
  let mu := if rms then (0, Exact.zero) else meanC 0 i.x
  let d := mapR (fun a => Exact.sub a mu.2) mu.1 i.x
  let sq := mapR (fun a => Exact.mul a a) d.1 d.2
  let v := meanC sq.1 sq.2
  let ve := rneC f32 v.1 (Exact.add v.2 eps)
  let rstd := nativeRsqrt ve.2
  let xh := mapR (fun a => Exact.mul a rstd) ve.1 d.2
  let g := zipMul xh.1 i.gamma xh.2
  let y := if rms then g else zipAdd g.1 g.2 i.beta
  { y := y.2, save := xh.2, gate := [], red := some rstd, terms := [], sat := y.1 }

/-- norm_bwd (05 R150): `x` is dy, `aux` the saved x̂, `word` the code of rstd. -/
def normBwd (rms aux3 : Bool) (i : KIn) : KRow :=
  let rs := readIn f32 i.word
  let n0 := if rs.2 then 1 else 0
  let g := zipMul n0 i.gamma i.x
  let a := if rms then (g.1, Exact.zero) else meanC g.1 g.2
  let gx := zipMul a.1 g.2 i.aux
  let b := meanC gx.1 gx.2
  let u := mapR (fun t => Exact.sub t a.2) b.1 g.2
  let w := mapR (fun t => Exact.mul t b.2) u.1 i.aux
  let d := zipSub w.1 u.2 w.2
  let dx := mapR (fun t => Exact.mul rs.1 t) d.1 d.2
  let dx := if aux3 then zipAdd dx.1 dx.2 i.res else dx
  let t := zipMul dx.1 i.x i.aux
  { y := dx.2, save := [], gate := [], red := none, terms := t.2, sat := t.1 }

/-- The soft-maximum of a row: e[j], the maximum, tree(e) and p[j]; masked places are `none` (05 R150, R151). -/
def softmax (n : Nat) (z : List (Option Dy)) : Nat × List Dy × Dy × Dy :=
  let un := z.filterMap id
  match un with
  | [] => (n, z.map fun _ => Exact.zero, Exact.zero, Exact.zero)
  | a :: r =>
    let mx := r.foldl (fun m b => if Exact.lt m b then b else m) a
    let e := mapC (fun n t => match t with
      | none => (n, Exact.zero)
      | some t => let d := rneC f32 n (Exact.sub t mx); nativeExp d.1 d.2) n z
    let t := treeC e.1 e.2
    let rc := nativeRcp t.1 t.2
    let p := mapR (fun a => Exact.mul a rc.2) rc.1 e.2
    (p.1, (p.2.zip z).map (fun x => if x.2.isSome then x.1 else Exact.zero), mx, t.2)

/-- smax_fwd (05 R150): column j of row m is masked where CAUSAL and COL0 + j > ROW0 + m. -/
def smaxFwd (alpha : Dy) (causal : Bool) (row col0 : Nat) (i : KIn) : KRow :=
  let z := mapC (fun n (x : Dy × Nat) =>
    if causal = true ∧ col0 + x.2 > row then (n, none)
    else let r := rneC f32 n (Exact.mul alpha x.1); (r.1, some r.2)) 0 i.x.zipIdx
  let p := softmax z.1 z.2
  { y := p.2.1, save := p.2.1, gate := [], red := none, terms := [], sat := p.1 }

/-- smax_bwd (05 R150): `x` is dP, `aux` is P. -/
def smaxBwd (alpha : Dy) (i : KIn) : KRow :=
  let a := zipMul 0 i.aux i.x
  let dd := treeC a.1 a.2
  let d := mapR (fun t => Exact.sub t dd.2) dd.1 i.x
  let m := zipMul d.1 i.aux d.2
  let y := mapR (fun t => Exact.mul alpha t) m.1 m.2
  { y := y.2, save := [], gate := [], red := none, terms := [], sat := y.1 }

/-- xent (05 R150, R151): `word` is the target; one of L or above marks the row as ignored. -/
def xent (alpha : Dy) (i : KIn) : KRow :=
  if i.word ≥ i.x.length then
    { y := i.x.map fun _ => Exact.zero, save := [], gate := [], red := some Exact.zero, terms := [], sat := 0 }
  else
    let p := softmax 0 (i.x.map some)
    let l := rneC f32 p.1 (Exact.add p.2.2.1 (nativeLn p.2.2.2))
    let loss := rneC f32 l.1 (Exact.sub l.2 (i.x.getD i.word Exact.zero))
    let d := mapR (fun x : Dy × Nat => Exact.sub x.1 (if x.2 = i.word then Exact.one else Exact.zero)) loss.1 p.2.1.zipIdx
    let y := mapR (fun t => Exact.mul alpha t) d.1 d.2
    { y := y.2, save := [], gate := [], red := some loss.2, terms := [], sat := y.1 }

/-- f of a table pair at x: interpolated or native (05 R139, R154). -/
def forwardAt (t : List Byte) (n : Nat) (x : Dy) : Nat × Dy :=
  match (t.getD 31 0).toNat with
  | 1 => (n, nativeSigmoid x)
  | 2 => (n, nativeTanh x)
  | 3 => rneC f32 n (Exact.mul x (nativeSigmoid x))
  | _ => tableEval t false n x

/-- deriv() (05 R153): from the saved output `a`, with the gate of SiLU, or from the saved input. -/
def derivAt (t : List Byte) (dmode : Bool) (n : Nat) (a g : Dy) : Nat × Dy :=
  if dmode then tableEval t true n a else
  match (t.getD 31 0).toNat with
  | 1 =>
    let u := rneC f32 n (Exact.sub Exact.one a)
    rneC f32 u.1 (Exact.mul a u.2)
  | 2 =>
    let u := rneC f32 n (Exact.mul a a)
    rneC f32 u.1 (Exact.sub Exact.one u.2)
  | _ =>
    let u := rneC f32 n (Exact.sub Exact.one g)
    let w := rneC f32 u.1 (Exact.mul a u.2)
    rneC f32 w.1 (Exact.add g w.2)

/-- act_fwd (05 R149, R150). -/
def actFwd (t : List Byte) (dmode : Bool) (i : KIn) : KRow :=
  let y := mapC (forwardAt t) 0 i.x
  { y := y.2, save := if dmode then i.x else y.2,
    gate := if dmode = false ∧ (t.getD 31 0).toNat = 3 then i.x.map nativeSigmoid else [],
    red := none, terms := [], sat := y.1 }

/-- act_bwd (05 R150): `aux` the saved y or h. -/
def actBwd (t : List Byte) (dmode : Bool) (i : KIn) : KRow :=
  let d := mapC (fun n (x : Dy × Nat) => derivAt t dmode n x.1 (i.gate.getD x.2 Exact.zero)) 0 i.aux.zipIdx
  let y := zipMul d.1 i.x d.2
  { y := y.2, save := [], gate := [], red := none, terms := [], sat := y.1 }

/-- gact_fwd (05 R149, R150): IN is [a | b]. -/
def gactFwd (t : List Byte) (l : Nat) (i : KIn) : KRow :=
  let f := mapC (forwardAt t) 0 (i.x.take l)
  let y := zipMul f.1 f.2 (i.x.drop l)
  { y := y.2, save := i.x, gate := [], red := none, terms := [], sat := y.1 }

/-- gact_bwd (05 R149, R150): AUX is [a | b]; the output is [da | db]. -/
def gactBwd (t : List Byte) (l : Nat) (i : KIn) : KRow :=
  let a := i.aux.take l
  let m := zipMul 0 i.x (i.aux.drop l)
  let d := mapC (fun n x => derivAt t true n x Exact.zero) m.1 a
  let da := zipMul d.1 m.2 d.2
  let f := mapC (forwardAt t) da.1 a
  let db := zipMul f.1 i.x f.2
  { y := da.2 ++ db.2, save := [], gate := [], red := none, terms := [], sat := db.1 }

/-- The row of a kernel (05 R149). -/
def kernelRow (v : VeCmd) (t : List Byte) (m : Nat) (i : KIn) : KRow :=
  match v.kern with
  | 2 => normFwd (decide (v.norm = 1)) (value f32 v.eps.toNat) i
  | 3 => normBwd (decide (v.norm = 1)) v.aux3En i
  | 4 => smaxFwd (constOf v.alpha) v.causal (v.row0 + m) v.col0 i
  | 5 => smaxBwd (constOf v.alpha) i
  | 6 => actFwd t v.dmode i
  | 7 => actBwd t v.dmode i
  | 8 => gactFwd t v.l i
  | 9 => gactBwd t v.l i
  | 10 => xent (constOf v.alpha) i
  | _ => { y := i.x, save := [], gate := [], red := none, terms := [], sat := 0 }

end Sys2Proof.Machine
end

