-- ==== Sys2Proof/Machine/VectorEngine.lean ====
section
/-! DEFINITION. The vector engine: VKERN and the rows of a joined command (05 R142 to R155, 15 R384). -/

set_option Elab.async false

namespace Sys2Proof.Machine

/-- The neighbour's buffer for the cell's sampled tiles is full: the sampling engine waits (15 R388). -/
def bufferFull (x : Cell) : Bool := decide (64 ≤ x.samples.length)

/-- A tile completed by the vector or the update engine of a cell: every 2^v-th is sampled, its inputs passed to the
neighbour and its hash formed (15 R384, R385). -/
def sampleTile (c : Nat) (t : Sample) (s : State) : State :=
  let v := match s.cellOwner c with | some p => (s.part p).sampleV.toNat | none => 0
  s.onCell c fun x =>
    { x with
      tiles := x.tiles + 1,
      samples := if x.tiles % 2 ^ v = 0 then x.samples ++ [t] else x.samples }

/-- The last MMUL before a command in program order, complete or not (05 R146). -/
def joinedOf (x : Cell) (seqNo : BitVec 32) : Option (BitVec 32 × BitVec 256) :=
  let past := (x.me.past.filter fun t => decide (t.seqNo < seqNo)).foldl
    (fun (m : Option (BitVec 32 × BitVec 256)) t => match m with
      | some y => if y.1 < t.seqNo then some (t.seqNo, t.word) else m
      | none => some (t.seqNo, t.word)) none
  match joinedMmul x seqNo, past with
  | some e, some y => if y.1 < e.seqNo then some (e.seqNo, e.word) else some y
  | some e, none => some (e.seqNo, e.word)
  | none, y => y

/-- The status with which an MMUL has completed. -/
def mmulStatus (x : Cell) (seqNo : BitVec 32) : Option Nat :=
  match x.me.done with
  | some (e, d) => if e.seqNo = seqNo then some d.status.toNat else
      (x.me.past.find? fun t => decide (t.seqNo = seqNo)).map fun t => t.status.toNat
  | none => (x.me.past.find? fun t => decide (t.seqNo = seqNo)).map fun t => t.status.toNat

/-- An MMUL has landed a row. -/
def mmulLanded (x : Cell) (seqNo : BitVec 32) (m : Nat) : Bool :=
  match x.me.run with
  | some r => decide (r.entry.seqNo = seqNo) && (match r.rows[m]? with | some w => w.landed | none => false)
  | none => false

/-- A joined command does not fit the MMUL it names (05 R146). -/
def joinBad (x : Cell) (e : QEntry) (v : VeCmd) : Bool :=
  v.join && (match joinedOf x e.seqNo with
    | none => true
    | some (_, w) =>
      let m := meCmd w
      let p := panels v.inCols - 1
      decide (v.joinTag ≠ cmdTag 0 w) || decide (v.inT ≠ 0) || decide (m.outKind ≠ 0) ||
      decide (m.outAddr ≠ v.inAddr + panelOff 4 v.m p) || decide (m.m ≠ v.m) || decide (m.n ≠ panelCols v.inCols p))

/-- Output regions overlap one another or an input region, or a region passes the populated store (05 R146). -/
def regionsBad (c : Nat) (rs : List Region) : Bool :=
  (rs.any fun r => decide (r.base + r.len > cellBase c + cellSize)) ||
  (rs.zipIdx.any fun a => rs.zipIdx.any fun b => decide (a.2 ≠ b.2) && a.1.wr && overlap a.1 b.1)

/-- A quantised output does not fit its format (05 R145, R146). -/
def quantBad (fmt : BitVec 32) (kind : Nat) (len : Nat) : Bool :=
  match fmtOf fmt with
  | none => true
  | some f => (decide (kind ≥ 2) && !f.cpOk) || decide (len % f.blk ≠ 0) || decide (len % f.rot ≠ 0)

/-- The conditions of 05 R146 and R154; true when one holds. FUNC is a field of the command word, and its pair is judged
for every kernel: only fields of the parameter record go unread (DEDUCED, log entry 40). -/
def veRange (x : Cell) (c : Nat) (e : QEntry) (v : VeCmd) : Bool :=
  let kind := pairKind x v.func
  decide (v.opc ≠ 1) || decide (v.kern = 0) || decide (v.kern > 10) || decide (v.rsvd ≠ 0) || decide (v.prsvd ≠ 0) ||
  decide (v.saveT = 3) || decide (v.outT = 3) || decide (v.inT = 3) ||
  (decide (v.kern ∈ [2, 3]) && decide (v.norm > 1)) ||
  (decide (v.qkind ≠ 0) && (quantBad v.qfmt v.qkind (axisDims v.qaxis v.m v.outCols).2 || !scaleOk v.qscale)) ||
  (v.q2En && (decide (v.qkind = 0) || quantBad v.qfmt2 v.qkind (axisDims (!v.qaxis) v.m v.outCols).2)) ||
  (decide (v.kern = 2) && !scaleOk v.eps) ||
  (decide (v.outT = 2) && decide (v.kern ∉ [1, 2, 4, 6, 8])) ||
  (decide (v.kern ∈ [8, 9]) && (!v.dmode || decide (v.l % 512 ≠ 0))) ||
  kind.isNone || (!v.dmode && decide (kind ∉ [some 1, some 2, some 3])) ||
  joinBad x e v || regionsBad c ((veRegions c (kind == some 3) v).drop 1) || decide (v.prm + 64 > cellSize)

/-- A chain of reads, ended by the first that fails. -/
def andThen {α β : Type} (x : Option α × State) (f : α → State → Option β × State) : Option β × State :=
  match x with
  | (some a, s) => f a s
  | (none, s) => (none, s)

/-- Ranges of a cell's store read in order, as one byte string. -/
def readParts (c a : Nat) (l : List (Nat × Nat)) (s : State) : Option (List Byte) × State :=
  match memReads (l.map fun x => (cellBase c + a + x.1, x.2)) s with
  | (some b, s) => (some b.flatten, s)
  | (none, s) => (none, s)

/-- Ranges of row i of a panel region (05 R144). -/
def panelRow (e rows l i : Nat) : List (Nat × Nat) :=
  (List.range (panels l)).map fun p => (panelOff e rows p + i * rowPad e (panelCols l p), e * panelCols l p)

/-- Elements of e bytes. -/
def codesOf (e : Nat) (bs : List Byte) : List Nat := (chunks e (bs.length / e) bs).map leNat

/-- A row of a panel region read as inputs of an element type, if the kernel uses it. -/
def readRow (use : Bool) (c a t rows l i n : Nat) (s : State) : Option (Nat × List Dy) × State :=
  if use then andThen (readParts c a (panelRow (esize t) rows l i) s) fun b s =>
    (some (readCodes (efmt t) n (codesOf (esize t) b)), s)
  else (some (n, []), s)

/-- A dense binary32 array read as inputs. -/
def readDense (use : Bool) (c a l n : Nat) (s : State) : Option (Nat × List Dy) × State :=
  if use then andThen (readParts c a [(0, 4 * l)] s) fun b s => (some (readCodes f32 n (codesOf 4 b)), s)
  else (some (n, []), s)

/-- The inputs of row i of a command, and the replacements counted (05 R138, R149). -/
def readKIn (c : Nat) (v : VeCmd) (silu : Bool) (i : Nat) (s : State) : Option (Nat × KIn) × State :=
  andThen (readRow true c v.inAddr v.inT v.m v.inCols i 0 s) fun x s =>
  andThen (readRow v.usesAux c v.aux (saveCode v.saveT) v.m v.auxCols i x.1 s) fun a s =>
  andThen (readRow (decide (v.kern = 7) && !v.dmode && silu) c v.aux2 (saveCode v.saveT) v.m v.l i a.1 s) fun g s =>
  andThen (readDense v.usesGamma c v.gamma v.l g.1 s) fun ga s =>
  andThen (readDense v.usesBeta c v.beta v.l ga.1 s) fun be s =>
  andThen (readRow (decide (v.kern = 3) && v.aux3En) c v.aux3 (outCode v.outT) v.m v.l i be.1 s) fun re s =>
  andThen (readParts c v.aux2 (if v.kern = 3 ∨ v.kern = 10 then [(4 * i, 4)] else []) s) fun w s =>
  (some (re.1, ⟨x.2, a.2, g.2, ga.2, be.2, re.2, leNat w⟩), s)

/-- Writes of a cell's store, until a word is uncorrectable. -/
def writeParts (c : Nat) (l : List (Nat × List Byte)) (s : State) : Bool × State :=
  memWrites false (l.map fun x => (cellBase c + x.1, x.2)) s

/-- Row i of a panel region written: each panel's part padded to 32 bytes (04 R107, 05 R144). -/
def rowParts (a t rows l i : Nat) (codes : List Nat) : List (Nat × List Byte) :=
  (List.range (panels l)).map fun p =>
    (a + panelOff (esize t) rows p + i * rowPad (esize t) (panelCols l p),
     padTo 32 (((codes.drop (512 * p)).take (panelCols l p)).map (leBytes (esize t))).flatten)

/-- The sampled bytes of a row: its output in binary32, and its per-row value (15 R384). -/
def tileBytes (r : KRow) : List Byte :=
  ((r.y.map (code f32)).map (leBytes 4)).flatten ++ (match r.red with | some d => leBytes 4 (code f32 d) | none => [])

/-- The inputs of a row as captured, and back (15 R385): every one is a binary32 value. -/
def KIn.captured (i : KIn) : List (List (BitVec 32)) :=
  [i.x, i.aux, i.gate, i.gamma, i.beta, i.res].map (fun l => l.map code32) ++ [[BitVec.ofNat 32 i.word]]
def kinOf (l : List (List (BitVec 32))) : KIn :=
  let at' := fun k => (l.getD k []).map fun w => value f32 w.toNat
  ⟨at' 0, at' 1, at' 2, at' 3, at' 4, at' 5, ((l.getD 6 []).headD 0).toNat⟩

/-- The table pair a command names. -/
def tableOf (x : Cell) (v : VeCmd) : List Byte := (vget x.ve.tables v.func none).getD []

/-- One row of a command: read, computed, converted and written; what Q and the column reductions take is
kept (05 R145, R148, R150). -/
def veRow (c : Nat) (v : VeCmd) (r : VeRun) (s : State) : Option VeRun × State :=
  let x := s.cell c
  let silu := pairKind x v.func == some 3
  let t := tableOf x v
  andThen (readKIn c v silu r.rows s) fun i s =>
    let k := kernelRow v t r.rows i.2
    let o := convertAll (efmt (outCode v.outT)) k.y
    let sv := if v.saves then convertAll (efmt (saveCode v.saveT)) k.save else (0, 0, [])
    let gt := if v.saves && !k.gate.isEmpty then convertAll (efmt (saveCode v.saveT)) k.gate else (0, 0, [])
    let w := writeParts c
      ((if v.saves then rowParts v.save (saveCode v.saveT) v.m v.saveCols r.rows sv.2.2 else []) ++
       (if v.saves && !k.gate.isEmpty then rowParts v.aux2 (saveCode v.saveT) v.m v.l r.rows gt.2.2 else []) ++
       (if v.outEn then rowParts v.out (outCode v.outT) v.m v.outCols r.rows o.2.2 else []) ++
       (match k.red with | some d => [(v.red + 4 * r.rows, leBytes 4 (code f32 d))] | none => [])) s
    if w.1 then
      (some { r with
        rows := r.rows + 1,
        out := if v.qkind = 0 then r.out else r.out ++ [o.2.2.map (BitVec.ofNat 32)],
        red := if v.kern = 3 then r.red ++ [(k.terms ++ i.2.x).map fun d => BitVec.ofNat 32 (code f32 d)] else r.red,
        counts := r.counts.add ⟨i.1 + k.sat + o.1 + sv.1 + gt.1, o.2.1 + sv.2.1 + gt.2.1, 0⟩ },
       sampleTile c ⟨1, r.entry.seqNo, r.entry.word, r.prm, r.rows, i.2.captured, contentHash (tileBytes k)⟩ w.2)
    else (none, w.2)

/-- A quantised output: its planes and counts (05 R145). -/
def quantOut (fmt : BitVec 32) (kind : Nat) (axis : Bool) (st : BitVec 32) (cols : Nat) (rows : List (List Dy)) :
    List Byte × Trouble :=
  match fmtOf fmt with
  | none => ([], Trouble.zero)
  | some f =>
    let m := if axis then transpose Exact.zero cols rows else rows
    let q := quantRows f (kind - 1) st m 0
    (planesOf f (kind - 1) q.1, q.2)

/-- A column reduction over the rows of a command (05 R150). -/
def columnTrees (n l : Nat) (rows : List (List Dy)) : Nat × List Dy :=
  mapC (fun n j => treeC n (rows.map fun r => r.getD j Exact.zero)) n (List.range l)

/-- What a command writes after its last row: Q, Q2, the column reductions, and the end of RED (05 R144, R145,
R150); its counts. -/
def veTail (v : VeCmd) (r : VeRun) : List (Nat × List Byte) × Counts :=
  let rows := r.out.map fun l => l.map fun w => value (efmt (outCode v.outT)) w.toNat
  let q := if v.qkind = 0 then ([], Trouble.zero) else quantOut v.qfmt v.qkind v.qaxis v.qscale v.outCols rows
  let q2 := if v.q2En then quantOut v.qfmt2 v.qkind (!v.qaxis) v.qscale v.outCols rows else ([], Trouble.zero)
  let terms := r.red.map fun l => l.map fun w => value f32 w.toNat
  let dg := if v.kern = 3 then columnTrees 0 v.l (terms.map (List.take v.l)) else (0, [])
  let db := if v.kern = 3 ∧ v.norm = 0 then columnTrees 0 v.l (terms.map (List.drop v.l)) else (0, [])
  let dense := fun (l : List Dy) => padTo 32 ((l.map (code f32)).map (leBytes 4)).flatten
  ((if v.qkind = 0 then [] else [(v.q, q.1)]) ++ (if v.q2En then [(v.q2, q2.1)] else []) ++
   (if v.kern = 3 then [(v.red, dense dg.2 ++ dense db.2)] else []) ++
   (if v.kern = 2 ∨ v.kern = 10 then [(v.red + 4 * v.m, zeros (alignUp 32 (4 * v.m) - 4 * v.m))] else []),
   ⟨q.2.sat + q2.2.sat + dg.1 + db.1, q.2.flu + q2.2.flu, q.2.awn + q2.2.awn⟩)

/-- An outcome of the vector engine. -/
def endVe (c : Nat) (e : QEntry) (status : Nat) (n : Counts) (s : State) : State :=
  s.onCell c fun x => { x with ve := { x.ve with run := none, done := some (e, mkDone status n 0) } }

/-- The end of a command whose rows are done. -/
def finishVe (c : Nat) (v : VeCmd) (r : VeRun) (s : State) : State :=
  let t := veTail v r
  let w := writeParts c t.1 s
  if w.1 then endVe c r.entry stOk (r.counts.add t.2) w.2 else w.2

/-- n rows of a command that is not joined, then its end; with the neighbour's buffer full it waits before a row. -/
def veRows (c : Nat) (v : VeCmd) : Nat → VeRun → State → State
  | 0, r, s => finishVe c v r s
  | n + 1, r, s =>
    if bufferFull (s.cell c) then s.onCell c fun x => { x with ve := { x.ve with run := some r } } else
    match veRow c v r s with
    | (some r, s) => veRows c v n r s
    | (none, s) => s

/-- The parameter record of a command, read (05 R143). -/
def readPrm (c a : Nat) (s : State) : Option Nat × State :=
  andThen (ownRead c a 64 s) fun b s => (some (leNat b), s)

/-- VKERN (05 R142 to R155): the command at the head of the vector-engine queue, once eligible, is checked; one
that is not joined runs its rows and writes its outputs, a joined one waits for its rows. -/
def execVkern (c : Fin 34) (s : State) : Host.Outcome State Fault Refusal :=
  match eligible s c 1 with
  | some (_, e) =>
    let x := s.cell c
    if x.ve.run.isSome ∨ x.ve.done.isSome then .next s else
    let s := popQueue c 1 s
    let a := 32 * fld e.word 92 73
    if a + 64 > cellSize then .next (endVe c e stRange Counts.reset s) else
    match readPrm c a s with
    | (none, s) => .next s
    | (some prm, s) =>
      let v := veCmd e.word prm
      if veRange x c e v then .next (endVe c e stRange Counts.reset s)
      else
        let r := { VeRun.reset with entry := e, prm := BitVec.ofNat 512 prm, joined := if v.join then (joinedOf x e.seqNo).map Prod.fst else none }
        if v.join then .next (s.onCell c fun x => { x with ve := { x.ve with run := some r } })
        else .next (veRows c v v.m r s)
  | none => .next s

/-- A command that is not joined goes on after a wait (15 R388). -/
def resumeVe (c : Nat) (s : State) : State :=
  match (s.cell c).ve.run with
  | some r =>
    if r.joined.isSome then s else
    let v := veCmd r.entry.word r.prm.toNat
    veRows c v (v.m - r.rows) r (s.onCell c fun x => { x with ve := { x.ve with run := none } })
  | none => s

/-- The output regions of a joined command become undefined (05 R147). -/
def voidOutputs (rs : List Region) (s : State) : State :=
  forEach (rs.filter fun r => r.wr) (fun r s => freeBytes r.base r.len s) s

/-- VE_JOIN_ROW (05 R147): the next row of a joined command, once its MMUL has landed it and the neighbour's buffer has
room (15 R388); the last row ends the command. A joined MMUL that completes otherwise gives the command its status. -/
def execVeJoinRow (c : Fin 34) (s : State) : Host.Outcome State Fault Refusal :=
  let x := s.cell c
  match s.works c, x.ve.run with
  | some _, some r =>
    match r.joined with
    | none => .next s
    | some j =>
      let v := veCmd r.entry.word r.prm.toNat
      let st := mmulStatus x j
      let ok := st = some stOk ∨ st = some stFallback
      if st.isSome ∧ ¬ok then
        .next (endVe c r.entry (st.getD 0) r.counts
          (voidOutputs ((veRegions c (pairKind x v.func == some 3) v).drop 1) s))
      else if (ok ∨ mmulLanded x j r.rows = true) ∧ bufferFull x = false then
        match veRow c v r s with
        | (none, s) => .next s
        | (some r, s) =>
          if r.rows ≥ v.m then .next (finishVe c v r s)
          else .next (s.onCell c fun x => { x with ve := { x.ve with run := some r } })
      else .next s
  | _, _ => .next s

end Sys2Proof.Machine
end

