-- ==== Sys2Proof/Machine/QuantizeEngine.lean ====
section
/-! DEFINITION. The quantize engine: QUANT (03 R86 to R93, 05 R133, R134; 07 R195, R196). -/

set_option Elab.async false

namespace Sys2Proof.Machine

/-- The conditions under which a QUANT is OUT_OF_RANGE (07 R195, R196). -/
def qeRange (s : State) (c : Nat) (e : QEntry) (m : QeCmd) : Bool :=
  decide (m.opc ≠ 1) || decide (m.srcT = 3) || decide (m.kind = 0) || decide (m.rsvd ≠ 0) || !scaleOk m.ts ||
  quantBad m.fmt m.kind (axisDims m.axis m.m m.l).2 || regionsBad c (regionsOf s c 2 e.word)

/-- The rows of a panel region read, one after the other (05 R144). -/
def readRows (c a t rows l : Nat) : Nat → Nat → Nat → State → Option (Nat × List (List Dy)) × State
  | 0, _, n, s => (some (n, []), s)
  | k + 1, i, n, s =>
    andThen (readRow true c a t rows l i n s) fun x s =>
    andThen (readRows c a t rows l k (i + 1) x.1 s) fun y s => (some (y.1, x.2 :: y.2), s)

/-- An outcome of the quantize engine. -/
def endQe (c : Nat) (e : QEntry) (status : Nat) (n : Counts) (aux : Nat) (s : State) : State :=
  s.onCell c fun x => { x with qe := { x.qe with done := some (e, mkDone status n aux) } }

/-- QUANT (07 R196): the command at the head of the quantize-engine queue, once eligible, quantises its source
and writes the planes; with HASH_EN the content hash of the planes stands in AUX. A reserved opcode completes
with OUT_OF_RANGE. -/
def execQuant (c : Fin 34) (s : State) : Host.Outcome State Fault Refusal :=
  match eligible s c 2 with
  | some (_, e) =>
    if (s.cell c).qe.done.isSome then .next s else
    let m := qeCmd e.word
    let s := popQueue c 2 s
    if qeRange s c e m then .next (endQe c e stRange Counts.reset 0 s) else
    match readRows c m.src m.srcT m.m m.l m.m 0 0 s with
    | (none, s) => .next s
    | (some (n, rows), s) =>
      let q := quantOut m.fmt m.kind m.axis m.ts m.l rows
      let w := writeParts c [(m.dst, q.1)] s
      if w.1 then
        .next (endQe c e stOk ⟨n + q.2.sat, q.2.flu, q.2.awn⟩ (if m.hash then (contentHash q.1).toNat else 0) w.2)
      else .next w.2
  | none => .next s

end Sys2Proof.Machine
end

