-- ==== Sys2Proof/Machine/UpdateEngine.lean ====
section
/-! DEFINITION. The update engine: UPDATE, REQUANT and RBITS (06 R158 to R183). -/

set_option Elab.async false

namespace Sys2Proof.Machine

/-- Feedback masks of the four expansion registers (06 R177). -/
def lfsrMask (q : Nat) : Nat :=
  match q with
  | 0 => 0x87
  | 1 => 0x40000028000000000000000000000001
  | 2 => 0x28000005
  | _ => 0x10000004000000081

/-- n steps of register q (06 R177). -/
def lfsrSteps (mask : Nat) : Nat → Nat → Nat
  | 0, s => s
  | n + 1, s =>
    let t := (s <<< 1) % 2 ^ 128
    lfsrSteps mask n (if s.testBit 127 then t ^^^ mask else t)

/-- The counter block of a random-bit block (06 R174). -/
def counterBlock (purp step tensor b : Nat) : Nat :=
  (purp % 256) * 2 ^ 112 + (step % 2 ^ 40) * 2 ^ 72 + (tensor % 2 ^ 24) * 2 ^ 48 + b % 2 ^ 48

/-- The word of sub-block q of a random-bit block (06 R173, R176). -/
def randomWord (seed : BitVec 128) (purp step tensor blk b q : Nat) : Nat :=
  let w := beNat (aes128 (beBytes 16 seed.toNat) (beBytes 16 (counterBlock purp step tensor b)))
  if blk ≤ 32 then w else lfsrSteps (lfsrMask q) 128 w

/-- Block index of the block at a column of a tile row (06 R174). -/
def randomBlock (u : UeCmd) (blk r c : Nat) : Nat := (u.row0 + r) * (u.kfull / blk) + (u.col0 + c) / blk

/-- The words of a tile row: one per 32-element sub-block of each block (06 R163, R176). -/
def rowWords (seed : BitVec 128) (u : UeCmd) (blk purp r : Nat) : List Nat :=
  (List.range (u.cols / blk)).flatMap fun j => (List.range (ceilDiv blk 32)).map fun q =>
    randomWord seed purp u.step u.tensor blk (randomBlock u blk r (j * blk)) q

/-- The random values of a tile row, an element at a time (06 R176). -/
def rowRandom (seed : BitVec 128) (u : UeCmd) (blk purp r : Nat) : List Nat :=
  let n := min blk 32
  (rowWords seed u blk purp r).flatMap fun w => (List.range n).map fun j =>
    if u.three then bits w (4 * j + 3) (4 * j + 1) else bits w (4 * j + 3) (4 * j)

/-- p = round_even(x × 2^n) of an exact x at least 0. -/
def roundBits (n : Nat) (x : Dy) : Nat := rneInt (Exact.scale x n)

/-- sr16 (06 R166): the value, its saturations and flushes. -/
def sr16 (f : FFmt) (n r : Nat) (x : Dy) : Dy × Nat × Nat :=
  let a := Exact.abs x
  let sgnOf := fun (m : Dy) => if x.m < 0 then Exact.neg m else m
  if Exact.lt (maxFinite f) a then (sgnOf (maxFinite f), 1, 0) else
  let u := ulpExp f a
  let lo : Dy := ⟨floorDy (Exact.scale a (-u)), u⟩
  let p := roundBits n (Exact.scale (Exact.sub a lo) (-u))
  let m := if r < p then Exact.add lo ⟨1, u⟩ else lo
  (sgnOf m, 0, if m.m = 0 ∧ a.m ≠ 0 then 1 else 0)

/-- The neighbour of a value towards larger values. -/
def nextUp (f : FFmt) (a : Dy) : Dy :=
  let c := code f a
  value f (if isNeg f c then c - 1 else c + 1)

/-- srg (06 R168): the master, the glean code, saturations and flushes. -/
def srg (f : FFmt) (n r : Nat) (x : Dy) : Dy × Int × Nat × Nat :=
  if Exact.lt (maxFinite f) (Exact.abs x) then (if x.m < 0 then Exact.neg (maxFinite f) else maxFinite f, 0, 1, 0) else
  let w1 := (rne f x).1
  let q := Exact.scale (Exact.sub x w1) (8 - ulpExp f w1)
  let qi := floorDy q
  let p := roundBits n (Exact.sub q (Exact.ofInt qi))
  let gl := qi + (if r < p then 1 else 0)
  let res : Dy × Int :=
    if gl = 128 then
      let w2 := nextUp f w1
      let s := Exact.sub w2 w1
      let d := Exact.sub ⟨128, ulpExp f w1⟩ (Exact.mul (Exact.ofInt 256) s)
      (w2, floorDy (Exact.scale d (-(ulpExp f w2))))
    else (w1, gl)
  (res.1, res.2, 0, if res.1.m = 0 ∧ res.2 = 0 ∧ x.m ≠ 0 then 1 else 0)

/-- What one element of an UPDATE reads. -/
structure UeIn where
  g  : Nat
  w  : Nat
  m1 : Nat
  m2 : Nat
  gl : Nat
  r1 : Nat
  r2 : Nat
  r3 : Nat
  deriving Repr

/-- What one element of an UPDATE writes, and its counts. -/
structure UeOut where
  w   : Nat
  m1  : Nat
  m2  : Nat
  gl  : Nat
  sat : Nat
  flu : Nat
  deriving Repr

/-- One element of UPDATE (06 R164). -/
def updateElem (u : UeCmd) (i : UeIn) : UeOut :=
  let f := if u.f16m then f16 else bf16
  let n := if u.three then 3 else 4
  let k := fun (w : BitVec 32) => value f32 w.toNat
  let g := readAs32 (efmt u.gtype) i.g
  let w := readIn f i.w
  let m1 := readIn f i.m1
  let m2r := if u.opt = 1 then readIn f i.m2 else (Exact.zero, false)
  let m2 := if m2r.1.m < 0 then (Exact.zero, true) else m2r
  let n0 := ([g.2, w.2, m1.2, m2r.2, m2.2 && !m2r.2].filter id).length
  let gr := rneC f32 n0 (Exact.mul (k u.gscale) g.1)
  let b1 := rneC f32 gr.1 (Exact.mul (k u.beta1) m1.1)
  -- u and the moments before their rounding
  let o : Nat × Dy × Dy × Dy :=
    if u.opt = 0 then
      let v := rneC f32 b1.1 (Exact.add b1.2 gr.2)
      (v.1, v.2, v.2, Exact.zero)
    else
      let omb1 := (rne f32 (Exact.sub Exact.one (k u.beta1))).1
      let omb2 := (rne f32 (Exact.sub Exact.one (k u.beta2))).1
      let p1 := rneC f32 b1.1 (Exact.mul omb1 gr.2)
      let a1 := rneC f32 p1.1 (Exact.add b1.2 p1.2)
      let b2 := rneC f32 a1.1 (Exact.mul (k u.beta2) m2.1)
      let p2 := rneC f32 b2.1 (Exact.mul omb2 gr.2)
      let p3 := rneC f32 p2.1 (Exact.mul p2.2 gr.2)
      let a2 := rneC f32 p3.1 (Exact.add b2.2 p3.2)
      let mh := rneC f32 a2.1 (Exact.mul a1.2 (k u.bc1))
      let vh := rneC f32 mh.1 (Exact.mul a2.2 (k u.bc2))
      let sd := if vh.2.m = 0 then (vh.1, Exact.zero) else rneC f32 vh.1 (Exact.mul vh.2 (nativeRsqrt vh.2))
      let se := rneC f32 sd.1 (Exact.add sd.2 (k u.eps))
      let rc := nativeRcp se.1 se.2
      let uu := rneC f32 rc.1 (Exact.mul mh.2 rc.2)
      (uu.1, uu.2, a1.2, a2.2)
  let wd := rneC f32 o.1 (Exact.mul (k u.wd) w.1)
  let s1 := rneC f32 wd.1 (Exact.add o.2.1 wd.2)
  let s2 := rneC f32 s1.1 (Exact.mul (k u.lr) s1.2)
  let delta := Exact.neg s2.2
  let q1 := sr16 f n i.r2 o.2.2.1
  let q2 := if u.opt = 1 then sr16 f n i.r3 o.2.2.2 else (Exact.zero, 0, 0)
  let base := Exact.add w.1 delta
  let q : Dy × Int × Nat × Nat :=
    if u.mode = 0 then let r := sr16 f n i.r1 base; (r.1, 0, r.2.1, r.2.2)
    else srg f n i.r1 (Exact.add base ⟨sext 8 i.gl, ulpExp f w.1 - 8⟩)
  { w := code f q.1, m1 := code f q1.1, m2 := if u.opt = 1 then code f q2.1 else i.m2,
    gl := if u.mode = 1 then (q.2.1 % 256).toNat else i.gl,
    sat := s2.1 + q1.2.1 + q2.2.1 + q.2.2.1, flu := q1.2.2 + q2.2.2 + q.2.2.2 }

/-- The codes of a dense tile, row-major, each row padded to 32 bytes (06 R161). -/
def tileCodes (e rows cols : Nat) (bs : List Byte) : List Nat :=
  (List.range rows).flatMap fun r => codesOf e (slice bs (r * rowPad e cols) (cols * e))
/-- A binary32 field in range: finite, and as `p` wants its value. -/
def fieldOk (w : BitVec 32) (p : Dy → Bool) : Bool := !isSpecial f32 w.toNat && p (value f32 w.toNat)
def positive (a : Dy) : Bool := decide (0 < a.m)
def unitRange (a : Dy) : Bool := decide (0 ≤ a.m) && Exact.lt a Exact.one

/-- The conditions of 06 R160 and R162; true when one holds. -/
def ueRange (c : Nat) (u : UeCmd) : Bool :=
  let upd := decide (u.opc = 1)
  let adam := upd && decide (u.opt = 1)
  decide (u.opc = 0) || decide (u.opc > 3) || decide (u.rsvd ≠ 0) || decide (u.prsvd ≠ 0) ||
  (upd && (decide (u.opt > 1) || decide (u.mode > 1) || decide (u.gtype = 3))) ||
  (decide (u.opc = 3) && (decide (u.purp = 0) || decide (u.purp > 3))) ||
  (upd && !(fieldOk u.lr (fun _ => true) && fieldOk u.beta1 unitRange && fieldOk u.wd (fun _ => true) &&
    fieldOk u.gscale (fun _ => true))) ||
  (adam && !(fieldOk u.beta2 unitRange && fieldOk u.eps positive && fieldOk u.bc1 positive && fieldOk u.bc2 positive)) ||
  (u.copies && !(scaleOk u.tsF && scaleOk u.tsT)) ||
  decide (u.col0 + u.cols > u.kfull) ||
  (match fmtOf u.fmtF with
    | none => true
    | some f =>
      decide (u.col0 % f.blk ≠ 0) || decide (u.cols % f.blk ≠ 0) || decide (u.kfull % f.blk ≠ 0) ||
      (u.copies && decide (u.cols % f.rot ≠ 0))) ||
  (u.copies && (match fmtOf u.fmtT with
    | none => true
    | some f => decide (u.row0 % f.blk ≠ 0) || decide (u.rows % f.blk ≠ 0) || decide (u.row0 % f.rot ≠ 0) ||
        decide (u.rows % f.rot ≠ 0))) ||
  regionsBad c (ueRegions c u)

/-- An outcome of the update engine. -/
def endUe (c : Nat) (e : QEntry) (status : Nat) (n : Counts) (s : State) : State :=
  s.onCell c fun x => { x with ue := { x.ue with done := some (e, mkDone status n 0) } }

/-- Both copies of a master tile (06 R172): writes and counts. -/
def copiesOf (u : UeCmd) (w : List Nat) : List (Nat × List Byte) × Trouble :=
  if u.copies then
    let f := if u.f16m then f16 else bf16
    let rows := chunks u.cols u.rows (w.map fun c => (readAs32 f c).1)
    let pre := (w.filter fun c => (readAs32 f c).2).length
    let a := quantOut u.fmtF 1 false u.tsF u.cols rows
    let b := quantOut u.fmtT 1 true u.tsT u.cols rows
    ([(u.fwd, a.1), (u.trn, b.1)], Trouble.add ⟨2 * pre, 0, 0⟩ (Trouble.add a.2 b.2))
  else ([], Trouble.zero)

/-- Elements of a tile of the sampling (15 R384). -/
def sampleElems : Nat := 512

/-- n elements from element a of a dense tile, row by row: offsets and lengths in bytes (06 R161). -/
def spanRows (e cols a n : Nat) : List (Nat × Nat) :=
  (List.range ((a + n - 1) / cols - a / cols + 1)).map fun i =>
    let r := a / cols + i
    let lo := if i = 0 then a % cols else 0
    (r * rowPad e cols + lo * e, (min cols (a + n - r * cols) - lo) * e)

/-- The elements of a tile of 512 read from a dense tile, if the command uses it. -/
def readSpan (use : Bool) (c base e cols a n : Nat) (s : State) : Option (List Nat) × State :=
  if use then andThen (readParts c base (spanRows e cols a n) s) fun b s => (some (codesOf e b), s)
  else (some (List.replicate n 0), s)

/-- The writes of n elements from element a of a dense tile; the end of a row brings its padding (log entry 13). -/
def spanWrites (base e cols a n : Nat) (codes : List Nat) : List (Nat × List Byte) :=
  ((spanRows e cols a n).foldl (fun (acc : List (Nat × List Byte) × List Nat) x =>
    let k := x.2 / e
    let bs := ((acc.2.take k).map (leBytes e)).flatten
    let bs := if x.1 % rowPad e cols + x.2 = e * cols then bs ++ zeros (rowPad e cols - e * cols) else bs
    (acc.1 ++ [(base + x.1, bs)], acc.2.drop k)) ([], codes)).1

/-- The elements of tile k of an UPDATE from their inputs as read: gradient, master, moments, glean (06 R164, R176). -/
def ueElems (seed : BitVec 128) (u : UeCmd) (k : Nat) (ins : List (List (BitVec 32))) : List UeOut :=
  let blk := match fmtOf u.fmtF with | some f => f.blk | none => 16
  let a := sampleElems * k
  let n := (ins.headD []).length
  let rows := (List.range ((a + n - 1) / u.cols - a / u.cols + 1)).map (· + a / u.cols)
  let rnd := fun (purp : Nat) => ((rows.flatMap (rowRandom seed u blk purp)).drop (a % u.cols)).take n
  let at' := fun i => (ins.getD i []).map BitVec.toNat
  (List.zipWith (fun (a : Nat × Nat × Nat × Nat × Nat) (r : Nat × Nat × Nat) =>
      (⟨a.1, a.2.1, a.2.2.1, a.2.2.2.1, a.2.2.2.2, r.1, r.2.1, r.2.2⟩ : UeIn))
    ((at' 0).zip ((at' 1).zip ((at' 2).zip ((at' 3).zip (at' 4))))) ((rnd 1).zip ((rnd 2).zip (rnd 3)))).map (updateElem u)

/-- The sampled bytes of a tile: its masters, moments and glean in the stored types (15 R384, 16 R402). -/
def ueTileBytes (u : UeCmd) (l : List UeOut) : List Byte :=
  (l.flatMap fun x => leBytes 2 x.w) ++ (l.flatMap fun x => leBytes 2 x.m1) ++
  (if u.opt = 1 then l.flatMap fun x => leBytes 2 x.m2 else []) ++ (if u.mode = 1 then l.flatMap fun x => leBytes 1 x.gl else [])

/-- One tile of an UPDATE: read, computed, written in place, sampled (06 R164, 15 R384, R385). -/
def ueTile (c p : Nat) (u : UeCmd) (r : UeRun) (s : State) : Option UeRun × State :=
  let a := sampleElems * r.tile
  let n := min sampleElems (u.rows * u.cols - a)
  andThen (readSpan true c u.g (esize u.gtype) u.cols a n s) fun g s =>
  andThen (readSpan true c u.w 2 u.cols a n s) fun w s =>
  andThen (readSpan true c u.m1 2 u.cols a n s) fun m1 s =>
  andThen (readSpan (decide (u.opt = 1)) c u.m2 2 u.cols a n s) fun m2 s =>
  andThen (readSpan (decide (u.mode = 1)) c u.gl 1 u.cols a n s) fun gl s =>
    let ins := [g, w, m1, m2, gl].map fun l => l.map (BitVec.ofNat 32)
    let o := ueElems (s.part p).seed u r.tile ins
    let wr := writeParts c
      (spanWrites u.w 2 u.cols a n (o.map UeOut.w) ++ spanWrites u.m1 2 u.cols a n (o.map UeOut.m1) ++
       (if u.opt = 1 then spanWrites u.m2 2 u.cols a n (o.map UeOut.m2) else []) ++
       (if u.mode = 1 then spanWrites u.gl 1 u.cols a n (o.map UeOut.gl) else [])) s
    if wr.1 then
      (some { r with
        tile := r.tile + 1, out := r.out ++ o.map fun x => BitVec.ofNat 16 x.w,
        counts := r.counts.add ⟨sumN (o.map UeOut.sat), sumN (o.map UeOut.flu), 0⟩ },
       sampleTile c ⟨3, r.entry.seqNo, r.entry.word, r.prm, r.tile, ins, contentHash (ueTileBytes u o)⟩ wr.2)
    else (none, wr.2)

/-- The end of an UPDATE: both copies of the master tile, if asked (06 R172). -/
def finishUpdate (c : Nat) (u : UeCmd) (r : UeRun) (s : State) : State :=
  let cp := copiesOf u (r.out.map BitVec.toNat)
  let wr := writeParts c cp.1 s
  if wr.1 then endUe c r.entry stOk (r.counts.add ⟨cp.2.sat, cp.2.flu, cp.2.awn⟩) wr.2 else wr.2

/-- n tiles of an UPDATE, then its end; with the neighbour's buffer full it waits before a tile (15 R388). -/
def ueTiles (c p : Nat) (u : UeCmd) : Nat → UeRun → State → State
  | 0, r, s => finishUpdate c u r s
  | n + 1, r, s =>
    if bufferFull (s.cell c) then s.onCell c fun x => { x with ue := { x.ue with run := some r } } else
    match ueTile c p u r s with
    | (some r, s) => ueTiles c p u n r s
    | (none, s) => s

/-- Tiles of an UPDATE. -/
def UeCmd.tiles (u : UeCmd) : Nat := ceilDiv (u.rows * u.cols) sampleElems

/-- UPDATE once its fields are in range (06 R163, R164, R172). -/
def runUpdate (c p : Nat) (e : QEntry) (u : UeCmd) (prm : Nat) (s : State) : State :=
  ueTiles c p u u.tiles { UeRun.reset with entry := e, prm := BitVec.ofNat 512 prm } s

/-- An UPDATE goes on after a wait (15 R388). -/
def resumeUe (c p : Nat) (s : State) : State :=
  match (s.cell c).ue.run with
  | some r =>
    let u := ueCmd r.entry.word r.prm.toNat
    ueTiles c p u (u.tiles - r.tile) r (s.onCell c fun x => { x with ue := { x.ue with run := none } })
  | none => s

/-- REQUANT once its fields are in range (06 R163, R172). -/
def runRequant (c : Nat) (e : QEntry) (u : UeCmd) (s : State) : State :=
  match ownRead c u.w u.tile s with
  | (none, s) => s
  | (some b, s) =>
    let cp := copiesOf u (tileCodes 2 u.rows u.cols b)
    let wr := writeParts c cp.1 s
    if wr.1 then endUe c e stOk ⟨cp.2.sat, cp.2.flu, cp.2.awn⟩ wr.2 else wr.2

/-- RBITS once its fields are in range (06 R163, R173 to R177). -/
def runRbits (c p : Nat) (e : QEntry) (u : UeCmd) (s : State) : State :=
  let blk := match fmtOf u.fmtF with | some f => f.blk | none => 16
  let l := (List.range u.rows).flatMap (rowWords (s.part p).seed u blk u.purp)
  let wr := writeParts c [(u.w, l.flatMap (leBytes 16))] s
  if wr.1 then endUe c e stOk Counts.reset wr.2 else wr.2

/-- A command of the update engine of one opcode taken from the head of its queue, its record read and its
fields checked (06 R159 to R162); `run` does the rest. -/
def takeUe (c : Nat) (mine : Nat → Bool) (run : Nat → QEntry → UeCmd → Nat → State → State) (s : State) : State :=
  match eligible s c 3 with
  | none => s
  | some (p, e) =>
    if (s.cell c).ue.done.isSome ∨ (s.cell c).ue.run.isSome ∨ mine (fld e.word 255 252) = false then s else
    let s := popQueue c 3 s
    let a := 32 * fld e.word 62 43
    if a + 64 > cellSize then endUe c e stRange Counts.reset s else
    match readPrm c a s with
    | (none, s) => s
    | (some prm, s) =>
      let u := ueCmd e.word prm
      if ueRange c u then endUe c e stRange Counts.reset s else run p e u prm s

/-- UPDATE (06 R163, R164): the optimizer step of a tile, stochastically rounded, and both copies if asked. A
reserved opcode completes with OUT_OF_RANGE. -/
def execUpdate (c : Fin 34) (s : State) : Host.Outcome State Fault Refusal :=
  .next (takeUe c (fun o => decide (o ≠ 2 ∧ o ≠ 3)) (runUpdate c) s)

/-- REQUANT (06 R163, R172): both copies from the master, no random bits. -/
def execRequant (c : Fin 34) (s : State) : Host.Outcome State Fault Refusal :=
  .next (takeUe c (fun o => decide (o = 2)) (fun _ e u _ => runRequant c e u) s)

/-- RBITS (06 R163): the random words an UPDATE with the same coordinates would use. -/
def execRbits (c : Fin 34) (s : State) : Host.Outcome State Fault Refusal :=
  .next (takeUe c (fun o => decide (o = 3)) (fun p e u _ => runRbits c p e u) s)

end Sys2Proof.Machine
end

