-- ==== Sys2Proof/Machine/Transfers.lean ====
section
/-! DEFINITION. What the data-mover commands share: the checks of 09 R264 and R268, the planes of a
tensor-wide tensor, the parts of a command and how they land (09 R262 to R270). -/

set_option Elab.async false

namespace Sys2Proof.Machine

/-- A command that names a cell: absent, or another partition's (09 R264, 07 R215, 13 R359). -/
def namedCell (s : State) (p n : Nat) : Nat :=
  if n ≥ 34 then stRange
  else if s.present n = false then stAbsent
  else if s.cellOwner n ≠ some p then stRange else stOk

/-- The cell a device physical address names, if it lies in a cell's store window. -/
def windowCell (a : Nat) : Option Nat :=
  if 0x8000000000 ≤ a ∧ a < 0x8000000000 + 34 * 0x2000000 then some ((a - 0x8000000000) / 0x2000000) else none

/-- What the cell an address names gives: by the store window of a device physical address, or by the cell number of
another cell's store (09 R264). -/
def namedAt (s : State) (p space a : Nat) : Nat :=
  if space = 5 then (match windowCell a with | some n => namedCell s p n | none => stOk)
  else if space = 2 then namedCell s p (bits a 39 34) else stOk

/-- The cells a command word names, and what each gives (09 R264). -/
def wordNamed (s : State) (p : Nat) (d : DmCmd) : Nat :=
  worst [when' (decide (d.ncell ≠ 0x3F)) (namedCell s p d.ncell), when' (decide (d.sspace = 5)) (namedAt s p 5 d.saddr),
    namedAt s p d.dspace d.daddr]

/-- The cells a command names, the scale array of an MX command among them: XADDR lies in the space of the element
array (09 R264, R265). -/
def namedStatus (s : State) (p : Nat) (d : DmCmd) : Nat :=
  worst [wordNamed s p d, when' (decide (d.opc = 5) && decide (d.sspace = 5)) (namedAt s p 5 d.xaddr),
    when' (decide (d.opc = 6)) (namedAt s p d.dspace d.xaddr)]

/-- A range of a space that a command of partition p may not use: outside its space, unaligned, or outside the
partition's resources (09 R241, R264, R268). -/
def rangeBad (s : State) (p c space a n align : Nat) : Bool :=
  if space = 4 then decide (a ≥ 16) else
  decide (a % align ≠ 0) || (match spaceRange s p c space a n with
    | none => true
    | some l => decide (space = 5) && l.any fun x => match placeOf x.1 with
        | .stack st _ => decide (s.stackOwner st ≠ some p)
        | .cell n _ => decide (s.cellOwner n ≠ some p)
        | _ => true)

/-- Whether an opcode may read a space, write a space (09 R264, R266; log entry 41). FILL reads none, and its SSPACE may
hold any code but a reserved one (00 R15). -/
def srcOk (opc sp a : Nat) : Bool :=
  match opc with
  | 1 | 4 | 5 => decide (sp ∈ [0, 1, 3, 5])
  | 2 | 6 => decide (sp = 0) || (decide (sp = 5) && decide (a < 0x4000000000))
  | 3 => decide (sp = 1)
  | _ => decide (sp ≤ 5)
def dstOk (opc sp a : Nat) : Bool :=
  match opc with
  | 1 | 2 => decide (sp ≤ 5)
  | 6 | 7 => decide (sp ≤ 5) && decide (sp ≠ 4)
  | _ => decide (sp = 0) || (decide (sp = 5) && decide (a < 0x4000000000))

/-- The format word that an MX format maps to (03 R96): base, encoding; E8M0, block 32, nearest. -/
def mxFmt (mxf : Nat) : BitVec 32 :=
  let b := match mxf with
    | 0 => 2 * 2 ^ 30 | 1 | 2 | 3 => 3 * 2 ^ 30 | 4 => 3 * 2 ^ 30 + 1 * 2 ^ 28 | _ => 3 * 2 ^ 30 + 2 * 2 ^ 28
  BitVec.ofNat 32 (b + 1 * 2 ^ 23 + 2 ^ 21)

/-- The FMT of an import has the properties that 03 R96 gives the result; FB_ENC and AWN_F, which it does not name, are
free (DEDUCED, log entry 54: an import whose FMT has others is OUT_OF_RANGE). -/
def mxImportFmt (w : BitVec 32) (mxf : Nat) : Bool :=
  decide (w &&& BitVec.ofNat 32 (0xFFFFFFFF - 3 * 2 ^ 26 - 3 * 2 ^ 12) = mxFmt mxf)

/-- The properties of a format word that MX needs: block 32, E8M0, ROT none, c = 0, FB_EN = 0 (03 R96, R97). -/
def mxShape (f : Fmt) : Bool := decide (f.blk = 32) && !f.f8 && decide (f.rot = 1) && decide (f.awnC = 0) && !f.fbEn

/-- Whether an encoding may be exported to an MX format (03 R97). -/
def mxTarget (enc : Enc) (mxf : Nat) : Bool :=
  match enc with
  | .e2m1 => decide (mxf = 0)
  | .e4m3 => decide (mxf ∈ [1, 2, 3])
  | .e5m2 => decide (mxf ∈ [2, 4])
  | .int8 => decide (mxf = 5)
  | _ => false

/-- A positive power of two, and its exponent. -/
def powerOfTwo (w : BitVec 32) : Option Int :=
  let a := value f32 w.toNat
  if scaleOk w = true ∧ a.m.natAbs = 2 ^ a.m.natAbs.log2 then some (a.e + (a.m.natAbs.log2 : Nat)) else none

/-- The parameter record of a command breaks 09 R265 or R268, or the tile its tensor (03 R97 for MX). -/
def prmBad (d : DmCmd) : Bool :=
  match fmtOf d.fmt with
  | none => true
  | some f =>
    let multiple := fun (n : Nat) => decide (n % f.blk = 0) && decide (n % f.rot = 0)
    decide (d.prsvd ≠ 0) || decide (d.tkind = 3) || decide (d.mxf > 5) || !multiple d.kdim ||
    (decide (d.opc ∈ [2, 3]) &&
      (!multiple d.k0 || !multiple d.klen || decide (d.r0 + d.rows > d.odim) || decide (d.k0 + d.klen > d.kdim) ||
       (decide (d.opc = 2) && !d.form && (decide (d.rows > 512) || decide (d.klen > 2048))))) ||
    (decide (d.opc ∈ [5, 6]) &&
      (decide (d.tkind ≠ 0) || !mxShape f || decide (d.r0 ≠ 0) || decide (d.k0 ≠ 0) ||
       decide (d.xaddr % 32 ≠ 0))) ||
    (decide (d.opc = 5) && !mxImportFmt d.fmt d.mxf) ||
    (decide (d.opc = 6) && (!mxTarget f.enc d.mxf || (powerOfTwo d.ts).isNone))

/-- Whether a command reads a parameter record. -/
def DmCmd.usesPrm (d : DmCmd) : Bool := decide (d.opc ∈ [2, 3, 5, 6, 8, 9, 10, 11])

/-- The device ranges of a range in a space. -/
def devRanges (s : State) (p c space a n : Nat) : List (Nat × Nat) :=
  if n = 0 then [] else (spaceRange s p c space a n).getD []

/-- The device ranges a command writes: the rows of a SCATTER, both arrays of an MX_EXPORT, one range for the rest. -/
def destRanges (s : State) (p c : Nat) (d : DmCmd) : List (Nat × Nat) :=
  match d.opc with
  | 3 => (tileRows d).flatMap fun t => devRanges s p c d.dspace (d.daddr + t.off) t.len
  | 6 => devRanges s p c d.dspace d.daddr d.dstBytes ++ devRanges s p c d.dspace d.xaddr (mxScaleBytes d.odim d.kdim)
  | _ => devRanges s p c d.dspace d.daddr d.dstBytes

/-- The unit of a device address: a stack, a cell store, or the link-die buffers (09 R269). -/
def unitOf (a : Nat) : Nat :=
  match placeOf a with
  | .stack st _ => st
  | .cell n _ => 32 + n
  | _ => 99

/-- Ranges in ascending address, with those that meet in one unit joined. -/
def joinRanges : List (Nat × Nat) → List (Nat × Nat)
  | [] => []
  | x :: r =>
    match joinRanges r with
    | [] => [x]
    | y :: t => if x.1 + x.2 = y.1 ∧ unitOf x.1 = unitOf y.1 then (x.1, x.2 + y.2) :: t else x :: y :: t

/-- The parts of a destination: the maximal byte ranges that each lie in one unit, in ascending address (09 R269;
log entry 52). -/
def partsOf (l : List (Nat × Nat)) : List (Nat × Nat) :=
  joinRanges (sortBy (fun a b => decide (a.1 ≤ b.1)) (l.filter fun x => decide (0 < x.2)))

/-- The status a memory command is refused with before any effect, 0 if none (09 R264, R268; 00 R17). -/
def dmRefusal (s : State) (p c : Nat) (d : DmCmd) : Nat :=
  let align := if d.opc = 4 then d.asize else 32
  worst [namedStatus s p d,
    when' (decide (d.opc = 0) || decide (d.opc > 11) || decide (d.rsvd ≠ 0) || !srcOk d.opc d.sspace d.saddr ||
      !dstOk d.opc d.dspace d.daddr || (d.usesPrm && prmBad d) ||
      (decide (d.opc ≠ 7) && rangeBad s p c d.sspace d.saddr d.srcBytes 32) ||
      rangeBad s p c d.dspace d.daddr d.dstBytes align || inRegion s p (destRanges s p c d) ||
      (decide (d.opc = 5) && rangeBad s p c d.sspace d.xaddr (mxScaleBytes d.odim d.kdim) 32) ||
      (decide (d.opc = 6) && rangeBad s p c d.dspace d.xaddr (mxScaleBytes d.odim d.kdim) 32) ||
      (decide (d.opc = 4) && ((d.src32 && decide (d.atype = 3)) || decide (d.len % d.ssize ≠ 0) ||
        (d.ord && d.init && decide (d.tag ≠ 0)))) ||
      (decide (d.dspace = 4) && (decide (d.rate = 0) || (decide (d.opc = 2) && !d.form))) ||
      decide (64 < (partsOf (destRanges s p c d)).length)) stRange]

/-- The bytes of a tile read from a tensor-wide tensor, plane by plane and row by row. -/
def readTile (p c : Nat) (f : Fmt) (d : DmCmd) (s : State) : Option (List (List (List Byte))) × State :=
  let ps := (List.range 6).map fun k => planeRows f d k
  let rs := ps.flatten.flatMap fun t => (devRanges s p c d.sspace (d.saddr + t.off) t.len)
  match memReads rs s with
  | (none, s) => (none, s)
  | (some l, s) =>
    let all := l.flatten
    let cut := fun (acc : List (List (List Byte)) × List Byte) (x : List TilePiece) =>
      let n := match x with | [] => 0 | t :: _ => t.len
      (acc.1 ++ [chunks n x.length acc.2], acc.2.drop (n * x.length))
    (some (ps.foldl cut ([], all)).1, s)

/-- The staged bytes of a tile (04 R106): prefix, then the planes of a held tile each at a 32-byte boundary, or
the row records of a streamed tile. -/
def stagedTile (d : DmCmd) (planes : List (List (List Byte))) : List Byte :=
  let pre := leBytes 4 d.ts.toNat ++ zeros 28
  if d.form then
    pre ++ ((List.range d.rows).map fun r => padTo 32 (planes.map fun l => l.getD r []).flatten).flatten
  else planes.foldl (fun acc l => if l.isEmpty then acc else padTo 32 acc ++ l.flatten) pre

/-- A failed part holds its earlier or its new bytes, unit by unit (09 R269). -/
def blend (k unit a : Nat) (old new : List Byte) : List Byte :=
  (old.zip new).zipIdx.map fun x => if Config.freeChoice k ((a + x.2) / unit) then x.1.2 else x.1.1

/-- The pieces as they land: those of failed parts blended (09 R269). -/
def blendPieces (s : State) (unit : Nat) (failed : List (Nat × Nat)) (l : List (Nat × List Byte)) : List (Nat × List Byte) :=
  l.map fun x =>
    if failed.any fun r => decide (r.1 ≤ x.1 ∧ x.1 < r.1 + r.2) then
      (x.1, blend s.free unit x.1 (s.mem.readN x.1 x.2.length) x.2)
    else x

/-- Event 0x28 of a failed part, against the link that failed (15 R394). -/
def partEvent (p addr : Nat) (u : LinkUnit) (s : State) : State :=
  match u with
  | .link l => recordEvent 0x28 4 l stPart p addr s
  | .bridge st ch => recordEvent 0x28 2 (st.val * 16 + ch.val) stPart p addr s

/-- The address a part's event names: partition-relative in the stacks (15 R389). -/
def partAddr (s : State) (d : DmCmd) (a : Nat) : Nat :=
  match placeOf a with
  | .stack st x => if d.dspace = 5 then a else s.relAddr st x
  | _ => d.daddr

/-- The failing parts of a command among its parts, each once (09 R269). -/
def failingParts (parts : List (Nat × Nat)) (fails : List PartFail) : List ((Nat × Nat) × Nat × LinkUnit) :=
  (parts.zipIdx.filterMap fun u => (fails.find? fun f => decide (f.part = u.2)).map fun f => (u.1, u.2, f.unit))

/-- The mask of failed parts. -/
def partMask (l : List Nat) : Nat := sumN (l.map fun i => 2 ^ i)

/-- A data-mover command in progress, with an outcome. -/
def addDm (c : Nat) (r : DmRun) (s : State) : State := s.onCell c fun x => { x with dm := x.dm ++ [r] }

/-- The outcome of a command whose pieces have landed: its status, hash and arrival bytes (09 R269, R270). -/
def landedRun (e : QEntry) (d : DmCmd) (n : Counts) (failed : List Nat) (bytes : List Byte) : DmRun :=
  let h := contentHash bytes
  { DmRun.reset with
    entry := e, failed := failed, counts := n, landed := h, landLen := bytes.length,
    done := some (if failed = [] then mkDone stOk n (if d.hash then h.toNat else 0) else mkDone stPart n (partMask failed)) }

/-- A command refused: its record, and a stream destination marked failed, whatever the opcode that has a
destination (04 R123). -/
def refuseDm (c : Nat) (e : QEntry) (d : DmCmd) (status : Nat) (s : State) : State :=
  let s := addDm c { DmRun.reset with entry := e, done := some (mkDone status Counts.reset 0) } s
  if d.dspace = 4 ∧ d.opc ∉ [8, 9, 11] then onStream c (d.daddr % 16) (fun w => { w with failed := true }) s else s

/-- A command's destination pieces landed (09 R269): the parts that fail hold earlier or new bytes, the others
the new ones; events, then the outcome. -/
def landPieces (c p : Nat) (e : QEntry) (d : DmCmd) (fails : List PartFail) (n : Counts)
    (l : List (Nat × List Byte)) (s : State) : State :=
  let f := failingParts (partsOf (l.map fun x => (x.1, x.2.length))) fails
  let w := memWrites true (blendPieces s 32 (f.map Prod.fst) l) s
  if w.1 = false then w.2 else
  let s := if f = [] then w.2 else { w.2 with free := w.2.free + 1 }
  let s := forEach f (fun x s => partEvent p (partAddr s d x.1.1) x.2.2 s) s
  addDm c (landedRun e d n (f.map fun x => x.2.1) (l.map Prod.snd).flatten) s

/-- Bytes delivered to a stream input (04 R123, 09 R266): a part that fails delivers nothing and marks the
stream failed. -/
def feedStream (c p : Nat) (e : QEntry) (d : DmCmd) (fails : List PartFail) (bs : List Byte) (s : State) : State :=
  match fails.find? fun f => decide (f.part = 0) with
  | some f =>
    addDm c (landedRun e d Counts.reset [0] [])
      (partEvent p d.daddr f.unit (onStream c d.daddr (fun w => { w with failed := true }) s))
  | none =>
    addDm c (landedRun e d Counts.reset [] bs) (onStream c d.daddr (fun w => { w with bytes := w.bytes ++ bs }) s)

/-- Bytes landed at the destination of a command: a stream, or device ranges. -/
def deliver (c p : Nat) (e : QEntry) (d : DmCmd) (fails : List PartFail) (bs : List Byte) (s : State) : State :=
  if d.dspace = 4 then feedStream c p e d fails bs s
  else landPieces c p e d fails Counts.reset (cutBytes (devRanges s p c d.dspace d.daddr bs.length) bs) s

/-- Ranges of a space read in order. -/
def readSpace (p c space a n : Nat) (s : State) : Option (List Byte) × State :=
  match memReads (devRanges s p c space a n) s with
  | (some l, s) => (some l.flatten, s)
  | (none, s) => (none, s)

/-- A command of the data mover's queue meets a channel that a retrain holds: its accesses wait, and so does it (09
R258). -/
def waitsHeld (s : State) (c : Nat) (e : QEntry) : Bool :=
  (regionsOf s c 4 e.word).any fun r => accessHeld s r.base r.len

/-- A data-mover command of some opcodes taken from the head of its queue: at most 16 are in progress (07
R199); its parameter record is read where it has one, and its fields checked. -/
def takeDm (c : Nat) (mine : Nat → Bool) (run : Nat → QEntry → DmCmd → State → State) (s : State) : State :=
  match eligible s c 4 with
  | none => s
  | some (p, e) =>
    if (s.cell c).dm.length ≥ 16 ∨ mine (fld e.word 255 252) = false ∨ waitsHeld s c e = true then s else
    let s := popQueue c 4 s
    let w := dmCmd e.word 0
    if w.usesPrm = false then
      let st := dmRefusal s p c w
      if st ≠ 0 then refuseDm c e w st s else run p e w s
    else if w.prm + 64 > cellSize then refuseDm c e w (max stRange (wordNamed s p w)) s
    else
      match readPrm c w.prm s with
      | (none, s) => s
      | (some prm, s) =>
        let d := dmCmd e.word prm
        let st := dmRefusal s p c d
        if st ≠ 0 then refuseDm c e d st s else run p e d s

end Sys2Proof.Machine
end

