-- ==== Sys2Proof/Machine/DataMover.lean ====
section
/-! DEFINITION. The data-mover commands over memory (03 R95 to R97, 09 R263 to R274). -/

set_option Elab.async false

namespace Sys2Proof.Machine

/-- COPY (09 R266): LEN bytes from one space to another, or to a stream input. A reserved opcode completes with
OUT_OF_RANGE. -/
def execCopy (c : Fin 34) (fails : List PartFail) (s : State) : Host.Outcome State Fault Refusal :=
  .next (takeDm c (fun o => decide (o ≤ 1 ∨ o ≥ 12)) (fun p e d s =>
    match readSpace p c d.sspace d.saddr d.len s with
    | (some bs, s) => deliver c p e d fails bs s
    | (none, s) => s) s)

/-- GATHER (09 R266): a tile of a tensor-wide tensor staged as a held or a streamed tile. -/
def execGather (c : Fin 34) (fails : List PartFail) (s : State) : Host.Outcome State Fault Refusal :=
  .next (takeDm c (fun o => decide (o = 2)) (fun p e d s =>
    match fmtOf d.fmt with
    | none => s
    | some f =>
      match readTile p c f d s with
      | (some planes, s) => deliver c p e d fails (stagedTile d planes) s
      | (none, s) => s) s)

/-- The pieces a SCATTER writes, with their place in the tile (05 R145, 09 R266). -/
def scatterPieces (s : State) (p c : Nat) (f : Fmt) (d : DmCmd) (tile : List Byte) : List (Nat × List Byte) :=
  let pb := planeBytes f d.tkind
  let offs := planeOffs (d.rows * (d.klen / f.blk)) 0 pb
  ((List.range 6).flatMap fun k => (planeRows f d k).zipIdx).flatMap fun t =>
    cutBytes (devRanges s p c d.dspace (d.daddr + t.1.off) t.1.len)
      (slice tile (offs.getD t.1.plane 0 + t.2 * t.1.len) t.1.len)

/-- SCATTER (09 R266): a tile in plane layout written to its places in a tensor-wide tensor. -/
def execScatter (c : Fin 34) (fails : List PartFail) (s : State) : Host.Outcome State Fault Refusal :=
  .next (takeDm c (fun o => decide (o = 3)) (fun p e d s =>
    match fmtOf d.fmt with
    | none => s
    | some f =>
      match readSpace p c 1 d.saddr d.srcBytes s with
      | (some tile, s) => landPieces c p e d fails Counts.reset (scatterPieces s p c f d tile) s
      | (none, s) => s) s)

/-- One element added (09 R272): the code, saturations, flushes. -/
def addElem (d : DmCmd) (prior x : Nat) : Nat × Nat × Nat :=
  if d.atype = 3 then (((if d.init then 0 else prior) + x) % 2 ^ 32, 0, 0) else
  let f := efmt d.atype
  let a := if d.init then (Exact.zero, false) else readIn f prior
  let b := readIn (if d.src32 then f32 else f) x
  let v := Exact.add a.1 b.1
  let r := roundTo f v
  (r.1, (if a.2 then 1 else 0) + (if b.2 then 1 else 0) + (if r.2 then 1 else 0),
   if v.m ≠ 0 ∧ (value f r.1).m = 0 then 1 else 0)

/-- The destination of an ADD by part: device ranges, with the element offset of each. -/
def addParts (s : State) (p c : Nat) (d : DmCmd) : List (Nat × Nat × Nat) :=
  ((devRanges s p c d.dspace d.daddr d.dstBytes).foldl
    (fun (acc : List (Nat × Nat × Nat) × Nat) x => (acc.1 ++ [(x.1, x.2, acc.2)], acc.2 + x.2 / d.asize)) ([], 0)).1

/-- One part of an ADD applied at its stack (09 R272): the prior read, the sums written; its counts and bytes,
or none when a word is uncorrectable. A failed part holds old or new elements. -/
def applyPart (c p : Nat) (d : DmCmd) (part : Nat × Nat × Nat) (failed : Bool) (s : State) :
    Option (Counts × List Byte) × State :=
  let n := part.2.1 / d.asize
  andThen (readSpace p c d.sspace (d.saddr + part.2.2 * d.ssize) (n * d.ssize) s) fun src s =>
  andThen (memRead part.1 (if d.init then 0 else part.2.1) s) fun pr s =>
    let xs := codesOf d.ssize src
    let ps := if d.init then List.replicate n 0 else codesOf d.asize pr
    let r := List.zipWith (addElem d) ps xs
    let new := (r.map fun x => leBytes d.asize x.1).flatten
    let bs := if failed then blend s.free d.asize part.1 (s.mem.readN part.1 part.2.1) new else new
    let w := memWrite true part.1 bs s
    let s := if failed then { w.2 with free := w.2.free + 1 } else w.2
    if w.1 then (some (if failed then (Counts.reset, []) else
      (⟨sumN (r.map fun x => x.2.1), sumN (r.map fun x => x.2.2), 0⟩, new)), s)
    else (none, s)

/-- An open tree of a partition at a stack. -/
def treeAt (s : State) (p st tree : Nat) : Option OpenTree :=
  (s.part p).trees.find? fun t => decide (t.stack = st ∧ t.tree.toNat = tree)

/-- A contribution may be applied at a stack now (09 R272, R274). -/
def treeReady (s : State) (p st : Nat) (d : DmCmd) : Bool :=
  !d.ord || (match treeAt s p st d.tree with
    | none => decide (d.tag = 0) &&
        decide (((s.part p).trees.filter fun t => decide (t.stack = st)).length < 64)
    | some t => decide (d.tag ≠ 0) && decide (t.next = d.tag))

/-- The tree of a stack after a contribution: closed by LAST, else one tag further, abandoned if it failed
(09 R272). -/
def treeStep (p st : Nat) (d : DmCmd) (failed : Bool) (s : State) : State :=
  if d.ord = false then s else
  s.onPart p fun q =>
    let rest := q.trees.filter fun t => !decide (t.stack = st ∧ t.tree.toNat = d.tree)
    let old := q.trees.find? fun t => decide (t.stack = st ∧ t.tree.toNat = d.tree)
    { q with trees := if d.last then rest else
        rest ++ [⟨st, BitVec.ofNat 16 d.tree, d.tag + 1, failed || (match old with | some t => t.abandoned | none => false)⟩] }

/-- An ADD with the parts that remain: what has landed so far. -/
structure AddAcc where
  waiting : List Nat
  failed  : List Nat
  counts  : Counts
  pieces  : List (Nat × List Byte)
  deriving Repr

/-- One part of an ADD: applied if its turn has come, failed if its link fails or its tree is abandoned, else
left waiting (09 R269, R272). -/
def addPart (c p : Nat) (d : DmCmd) (fails : List PartFail) (i : Nat) (part : Nat × Nat × Nat) (a : AddAcc)
    (s : State) : Option AddAcc × State :=
  let st := unitOf part.1
  if treeReady s p st d = false then (some { a with waiting := a.waiting ++ [i] }, s) else
  let dead := match treeAt s p st d.tree with | some t => d.ord && t.abandoned | none => false
  if dead then (some { a with failed := a.failed ++ [i] }, treeStep p st d true s) else
  match fails.find? fun f => decide (f.part = i) with
  | some f =>
    andThen (applyPart c p d part true s) fun _ s =>
      (some { a with failed := a.failed ++ [i] },
       treeStep p st d true (partEvent p (partAddr s d part.1) f.unit s))
  | none =>
    andThen (applyPart c p d part false s) fun r s =>
      (some { a with counts := a.counts.add r.1, pieces := a.pieces ++ [(i, r.2)] }, treeStep p st d false s)

/-- Parts of an ADD in order, until a word is uncorrectable. -/
def addPartList (c p : Nat) (d : DmCmd) (fails : List PartFail) :
    List ((Nat × Nat × Nat) × Nat) → AddAcc → State → Option AddAcc × State
  | [], a, s => (some a, s)
  | x :: r, a, s =>
    match addPart c p d fails x.2 x.1 a s with
    | (some a, s) => addPartList c p d fails r a s
    | (none, s) => (none, s)

/-- The state of an ADD after some parts: done once none waits (09 R269, R270). -/
def addRun (e : QEntry) (d : DmCmd) (a : AddAcc) : DmRun :=
  let bytes := ((sortBy (fun (x y : Nat × List Byte) => decide (x.1 ≤ y.1)) a.pieces).map Prod.snd).flatten
  if a.waiting = [] then landedRun e d a.counts a.failed bytes
  else { DmRun.reset with entry := e, waiting := a.waiting, failed := a.failed, counts := a.counts, pieces := a.pieces }

/-- DM_ADD (09 R272, R273): source elements added at the stacks of the destination; under ORD a part waits
until its tag is next. -/
def execDmAdd (c : Fin 34) (fails : List PartFail) (s : State) : Host.Outcome State Fault Refusal :=
  .next (takeDm c (fun o => decide (o = 4)) (fun p e d s =>
    match addPartList c p d fails (addParts s p c d).zipIdx ⟨[], [], Counts.reset, []⟩ s with
    | (some a, s) => addDm c (addRun e d a) s
    | (none, s) => s) s)

/-- ORDERED_ADD_APPLY (09 R272): the waiting parts of an ordered add whose turn has come are applied, unless a retrain
holds its channels (09 R258); the command is done when none waits. -/
def execOrderedAddApply (c : Fin 34) (seqNo : BitVec 32) (fails : List PartFail) (s : State) :
    Host.Outcome State Fault Refusal :=
  match s.cellOwner c, (s.cell c).dm.find? fun r =>
      decide (r.entry.seqNo = seqNo) && r.done.isNone && !r.waiting.isEmpty && !waitsHeld s c r.entry with
  | some p, some r =>
    let d := dmCmd r.entry.word 0
    let parts := (addParts s p c d).zipIdx.filter fun x => decide (x.2 ∈ r.waiting)
    match addPartList c p d fails parts ⟨[], r.failed, r.counts, r.pieces⟩ s with
    | (some a, s) =>
      let upd := fun (y : DmRun) => if y.entry.seqNo = seqNo then addRun r.entry d a else y
      .next (s.onCell c fun x => { x with dm := x.dm.map upd })
    | (none, s) => .next s
  | _, _ => .next s

/-- Element i of an MX array, w bits, packed from the least significant bit (03 R95). -/
def mxCode (w : Nat) (bs : List Byte) (i : Nat) : Nat :=
  bits (leNat (slice bs (w * i / 8) 2)) (w * i % 8 + w - 1) (w * i % 8)

/-- An MX element or scale that an import rejects (03 R96). -/
def mxBadElem (mxf c : Nat) : Bool :=
  match mxf with
  | 3 => decide (c % 128 = 127)
  | 4 => decide (c % 128 ≥ 124)
  | _ => false

/-- An MXFP6 grid (03 R95): E2M3 or E3M2. -/
def mx6 (mxf : Nat) : FFmt := if mxf = 1 then ⟨4, 0, 2⟩ else ⟨3, -2, 4⟩

/-- The value of an MXFP6 code. -/
def mx6Val (mxf c : Nat) : Dy :=
  let f := mx6 mxf
  let ex := (c % 32) / 2 ^ (f.p - 1)
  let fr := c % 2 ^ (f.p - 1)
  let m : Nat := if ex = 0 then fr else fr + 2 ^ (f.p - 1)
  ⟨if c / 32 % 2 = 1 then -(m : Int) else m, f.emin - (f.p - 1 : Nat) + ((ex - 1 : Nat) : Int)⟩

/-- The element code an import writes (03 R96). -/
def mxImportCode (mxf c : Nat) : Nat := if mxf = 1 ∨ mxf = 2 then gridCode .e4m3 (mx6Val mxf c) (mx6Val mxf c) else c

/-- The blocks an import writes, or none where it meets a special (03 R96). -/
def mxImportBlks (f : Fmt) (d : DmCmd) (elems scales : List Byte) : Option (List RawBlk) :=
  let w := mxBits d.mxf
  (List.range (d.odim * (d.kdim / 32))).mapM fun b =>
    let cs := (List.range 32).map fun i => mxCode w elems (32 * b + i)
    let sc := (scales.getD b 0).toNat
    if sc = 255 ∨ cs.any (mxBadElem d.mxf) = true then none
    else some { elem := packCodes f.width (cs.map (mxImportCode d.mxf)), hdr := sc * 256 + f.baseW * 64, awn := [],
                tail := 0, cpt := 0, cp3 := 0 }

/-- MX_IMPORT (03 R95, R96): an MX tensor carried exactly into block-scaled planes; one that holds a special
is OUT_OF_RANGE and writes nothing. -/
def execMxImport (c : Fin 34) (fails : List PartFail) (s : State) : Host.Outcome State Fault Refusal :=
  .next (takeDm c (fun o => decide (o = 5)) (fun p e d s =>
    match fmtOf d.fmt with
    | none => s
    | some f =>
      match readSpace p c d.sspace d.saddr d.srcBytes s with
      | (none, s) => s
      | (some el, s) =>
        match readSpace p c d.sspace d.xaddr (mxScaleBytes d.odim d.kdim) s with
        | (none, s) => s
        | (some sc, s) =>
          match mxImportBlks f d el sc with
          | none => refuseDm c e d stRange s
          | some b => deliver c p e d fails (planesOf f 0 b) s) s)

/-- An exported element: its code, clamped, flushed, and a stored special that was replaced (03 R85, R97). -/
def mxExportCode (enc : Enc) (mxf c : Nat) : Nat × Nat × Nat :=
  let sp := g8Special enc c
  let v := elemVal enc c
  if mxf = 1 ∨ mxf = 2 then
    let f := mx6 mxf
    let r := roundMag f v.m.natAbs 1 v.e
    let above := Exact.lt (maxFinite f) (Exact.abs v)
    ((if v.m < 0 ∧ r.1 ≠ 0 then 32 else 0) + r.1, (if sp || above then 1 else 0), if v.m ≠ 0 ∧ r.1 = 0 then 1 else 0)
  else if sp then ((if c ≥ 128 then 128 else 0) + (if enc = .e4m3 then 126 else 123), 1, 0)
  else (c, 0, 0)

/-- One exported block: scale code, element codes, counts; none where its header breaks 03 R85 or the scale leaves
its range (03 R97). A stored scale 0xFF is 0xFE and each element of its block saturated, once (03 R85; log entry 54). -/
def mxExportBlk (f : Fmt) (d : DmCmd) (k : Int) (r : RawBlk) : Option (Nat × List (Nat × Nat × Nat)) :=
  let ff := decide (bits r.hdr 15 8 = 255)
  let sc : Int := ((if ff then 254 else bits r.hdr 15 8 : Nat) : Int) + k + (if d.mxf = 5 then 6 else 0)
  if blkBad f r = true ∨ sc < 0 ∨ 254 < sc then none
  else some (sc.toNat, (blkCodes f r).map fun c =>
    let x := mxExportCode f.enc d.mxf c
    if ff then (x.1, 1, x.2.2) else x)

/-- MX_EXPORT (03 R95, R97): block-scaled planes written as an MX element and scale array. -/
def execMxExport (c : Fin 34) (fails : List PartFail) (s : State) : Host.Outcome State Fault Refusal :=
  .next (takeDm c (fun o => decide (o = 6)) (fun p e d s =>
    match fmtOf d.fmt, powerOfTwo d.ts with
    | some f, some k =>
      match readSpace p c d.sspace d.saddr d.srcBytes s with
      | (none, s) => s
      | (some bs, s) =>
        let n := d.odim * (d.kdim / 32)
        let offs := planeOffs n 0 (planeBytes f 0)
        match (List.range n).mapM fun b => mxExportBlk f d k (planeBlk f 0 offs bs b) with
        | none => refuseDm c e d stRange s
        | some l =>
          let codes := l.flatMap fun b => b.2
          let el := leBytes d.dstBytes (packCodes (mxBits d.mxf) (codes.map Prod.fst))
          let sc := l.map fun b => BitVec.ofNat 8 b.1
          let w := cutBytes (devRanges s p c d.dspace d.daddr el.length) el ++
            cutBytes (devRanges s p c d.dspace d.xaddr sc.length) sc
          landPieces c p e d fails
            ⟨sumN (codes.map fun x => x.2.1), sumN (codes.map fun x => x.2.2), 0⟩
            (sortBy (fun (a b : Nat × List Byte) => decide (a.1 ≤ b.1)) w) s
    | _, _ => s) s)

/-- FILL (09 R266): LEN zero bytes. -/
def execFill (c : Fin 34) (fails : List PartFail) (s : State) : Host.Outcome State Fault Refusal :=
  .next (takeDm c (fun o => decide (o = 7)) (fun p e d s => deliver c p e d fails (zeros d.len) s) s)

end Sys2Proof.Machine
end

