-- ==== Sys2Proof/Machine/Transport.lean ====
section
/-! DEFINITION. Stream transfers end to end (10 R296 to R299): frames of an outgoing transfer, acknowledgement,
matching of descriptors, landing, and the retirement of descriptors. -/

set_option Elab.async false

namespace Sys2Proof.Machine

/-- Fields of a stream descriptor (10 R297). -/
def dOp (d : BitVec 256) : Nat := fld d 255 252
def dClass (d : BitVec 256) : Nat := fld d 251 250
def dDir (d : BitVec 256) : Nat := fld d 249 249
def dHash (d : BitVec 256) : Bool := flag d 248
def dStream (d : BitVec 256) : Nat := fld d 247 240
def dRing (d : BitVec 256) : Nat := fld d 239 224
def dPart (d : BitVec 256) : Nat := fld d 223 221
def dSpace (d : BitVec 256) : Nat := fld d 220 219
def dAddr (d : BitVec 256) : Nat := fld d 215 176
def dLen (d : BitVec 256) : Nat := fld d 175 144
def dCell (d : BitVec 256) : Nat := fld d 143 139
def dChan (d : BitVec 256) : Nat := fld d 138 134
def dNotify (d : BitVec 256) : Bool := flag d 133
def dUser (d : BitVec 256) : Nat := fld d 127 64

/-- A descriptor that its engine refuses (10 R297): a reserved field or space, no bytes, bytes outside the partition, or a
write into the determinism region (16 R405). `own`: RPOST, which may name the cell's own store. -/
def descBad (s : State) (p : Nat) (own : Bool) (d : BitVec 256) : Bool :=
  decide (fld d 218 216 ≠ 0) || decide (fld d 132 128 ≠ 0) || decide (fld d 63 0 ≠ 0) ||
  decide (dOp d = 2 ∧ dClass d = 0) || decide (dLen d = 0) || decide (dAddr d % 32 ≠ 0) ||
  (decide (dOp d ≠ 2 ∧ dSpace d = 0) && inRegion s p (relPieces s p (dAddr d) (dLen d))) ||
  !(if dSpace d = 0 then decide (dAddr d + dLen d ≤ s.stackBytes p)
    else own && decide (dSpace d = 1) && decide (dAddr d + dLen d ≤ cellSize))

/-- Part of a list of ranges: n bytes from offset o. -/
def cutRanges : List (Nat × Nat) → Nat → Nat → List (Nat × Nat)
  | [], _, _ => []
  | (a, m) :: r, o, n =>
    if n = 0 then [] else
    if m ≤ o then cutRanges r (o - m) n
    else (a + o, min n (m - o)) :: cutRanges r 0 (n - min n (m - o))

/-- Payload bytes of a frame (10 R283). -/
def frameBytes : Nat := 4096

/-- A frame of an outgoing transfer (10 R283): a DATA frame, or the CSEG frame of a segment (log entry 34). -/
def txFrame (s : State) (t : TxXfer) (i : Nat) (retx : Bool) (bytes : List Byte) : VrtFrame :=
  match t.origin with
  | .seg _ inst seg phase =>
    let me := (memberIndex s t.part t.stream.toNat).getD 0
    { newFrame s 4 t.cls.toNat t.dstRing t.dstPart.toNat t.part bytes with
      retx := retx, stream := t.stream, eseq := BitVec.ofNat 32 seg, xid := inst,
      aux := BitVec.ofNat 32 (phase * 2 ^ 30 + me) }
  | _ =>
    { newFrame s 0 t.cls.toNat t.dstRing t.dstPart.toNat t.part bytes with
      last := decide (i + 1 = t.sends.length), retx := retx, stream := t.stream, eseq := BitVec.ofNat 32 i,
      xid := t.xid, aux := if i = 0 then BitVec.ofNat 32 t.len else 0 }

/-- An outgoing transfer changed. -/
def onTx (xid : BitVec 32) (f : TxXfer → TxXfer) (s : State) : State :=
  s.onRing fun r => { r with tx := r.tx.map fun t => if t.xid = xid then f t else t }

def txOf (s : State) (xid : BitVec 32) : Option TxXfer := s.ring.tx.find? fun t => decide (t.xid = xid)

/-- Frame i of a transfer sent, its bytes read again from where they stand (10 R296). -/
def sendTx (xid : BitVec 32) (retx : Bool) (i : Nat) (s : State) : State :=
  match txOf s xid with
  | none => s
  | some t =>
    match memReads (cutRanges t.srcs (frameBytes * i) (min frameBytes (t.len - frameBytes * i))) s with
    | (none, s) => s
    | (some l, s) =>
      sendFrame t.port (txFrame s t i retx l.flatten)
        (onTx xid (fun t => { t with sends := t.sends.zipIdx.map fun x => if x.2 = i then x.1 + 1 else x.1 }) s)

/-- A transfer opened under the next transfer id, and all its frames sent (10 R296, R299). -/
def startTx (t : TxXfer) (s : State) : State :=
  let n := max 1 (ceilDiv t.len frameBytes)
  let t := { t with xid := s.ring.nextXid, sends := List.replicate n 0, acked := List.replicate n false }
  let s := s.onRing fun r => { r with tx := r.tx ++ [t], nextXid := r.nextXid + 1 }
  forEach (List.range n) (sendTx t.xid false) s

/-- The DONE frame of a host's descriptor (10 R299): USER, status, content hash. -/
def doneFrame (s : State) (p : Nat) (d : BitVec 256) (status : Nat) (hash : BitVec 64) : VrtFrame :=
  { newFrame s 8 1 0xFFFF p p (leBytes 8 (dUser d) ++ [BitVec.ofNat 8 status] ++ leBytes 8 hash.toNat) with
    stream := BitVec.ofNat 8 (dStream d), aux := BitVec.ofNat 32 status }

/-- A paced queue without the first started descriptor of these words. -/
def dropTaken (d : BitVec 256) (l : List PacedDesc) : List PacedDesc :=
  l.eraseIdx (l.findIdx fun x => decide (x.desc = d) && x.taken)

/-- A host's descriptor retires (07 R203, 10 R299): its slot is free, DONE is sent. -/
def retireDesc (p engine port : Nat) (d : BitVec 256) (status : Nat) (hash : BitVec 64) (s : State) : State :=
  let s := s.onPart p fun q => { q with paced := vmod q.paced engine (dropTaken d) }
  sendFrame port (doneFrame s p d status (if dHash d then hash else 0)) s

/-- A transfer ends at its sender (10 R296, R299, R305). -/
def finishTx (t : TxXfer) (status : Nat) (s : State) : State :=
  let s := s.onRing fun r => { r with tx := r.tx.filter fun x => decide (x.xid ≠ t.xid) }
  match t.origin with
  | .none => s
  | .cmd c n => finishDm c n status t.hash [] s
  | .desc e d port => retireDesc t.part e port d status t.hash s
  | .seg g inst _ _ => if status = stOk then s else failColl t.part g inst s

/-- A posted descriptor is outstanding no more at its cell: a waiting RPOST posts (10 R300). -/
def postNext (c : Nat) (s : State) : State :=
  let x := s.cell c
  match s.cellOwner c, x.dm.find? fun r => decide (fld r.entry.word 255 252 = 9) && r.done.isNone with
  | some p, some r =>
    if x.rposts ≥ 64 then s else
    let d := BitVec.ofNat 256 (leNat (r.pieces.flatMap Prod.snd))
    let s := finishDm c r.entry.seqNo stOk (contentHash []) [] s
    let s := s.onCell c fun x => { x with rposts := x.rposts + 1 }
    s.onPart p fun q => { q with recvs := q.recvs ++ [{ RecvPost.reset with desc := d, cell := some c }] }
  | _, _ => s

/-- A receive descriptor retires with a status (10 R299, R300). -/
def retireRecv (p : Nat) (r : RecvPost) (status : Nat) (hash : BitVec 64) (s : State) : State :=
  match r.cell with
  | some c => postNext c (s.onCell c fun x => { x with rposts := x.rposts - 1 })
  | none => retireDesc p r.engine r.port r.desc status hash s

/-- Whether a frame belongs to an incoming transfer. -/
def sameRx (a b : RxXfer) : Bool :=
  decide (a.srcRing = b.srcRing ∧ a.srcPart = b.srcPart ∧ a.part = b.part ∧ a.stream = b.stream ∧ a.xid = b.xid)

def onRx (k : RxXfer) (f : RxXfer → RxXfer) (s : State) : State :=
  s.onRing fun r => { r with rx := r.rx.map fun x => if sameRx x k then f x else x }

def rxOf (s : State) (k : RxXfer) : Option RxXfer := s.ring.rx.find? fun x => sameRx x k

/-- The number of frames received in order from ESEQ 0; all of them once the transfer has ended. -/
def inOrder (x : RxXfer) : Nat :=
  if x.finished then x.last.getD 0 + 1 else
  ((List.range (x.frames.length + 1)).find? fun i => (mapFind x.frames i).isNone).getD x.frames.length

/-- ESEQs missing below the highest received, at most 32 (10 R296). -/
def missingOf (x : RxXfer) : List Nat :=
  let hi := x.frames.foldl (fun m f => max m f.1) 0
  ((List.range hi).filter fun i => (mapFind x.frames i).isNone).take 32

/-- A SACK to the sender of a transfer: highest ESEQ in order, then missing indices (10 R283, R296). A transfer
that was refused says so in AUX (log entry 42). -/
def sendSack (k : RxXfer) (s : State) : State :=
  match rxOf s k with
  | none => s
  | some x =>
    let hi : BitVec 32 := BitVec.ofNat 32 (inOrder x) - 1
    let body := leBytes 4 hi.toNat ++ (missingOf x).flatMap (leBytes 4)
    sendClass0 x.port { newFrame s 3 0 x.srcRing x.srcPart.toNat x.part body with
        stream := x.stream, eseq := hi, xid := x.xid, aux := x.status.setWidth 32 }
      (onRx k (fun x => { x with unacked := 0 }) s)

/-- The receive buffers of a transfer that waited for its descriptor freed. -/
def freeWaiting (x : RxXfer) (s : State) : State :=
  forEach x.frames (fun _ s => releaseBuffer x.port x.cls.toNat x.part s) s

/-- Whether every frame of a transfer is here. -/
def rxComplete (x : RxXfer) : Bool :=
  match x.last with
  | some n => decide (inOrder x = n + 1)
  | none => false

/-- A transfer whose frames are all here, with a descriptor, lands: its bytes are written, the descriptor
retires, the arrival counts, the sender is acknowledged (10 R296, R299). -/
def landRx (k : RxXfer) (s : State) : State :=
  match rxOf s k with
  | none => s
  | some x =>
    match x.recv with
    | none => s
    | some r =>
      if x.finished ∨ rxComplete x = false then s else
      let bs := (x.frames.flatMap Prod.snd).take x.total
      let w := match r.cell with
        | some c => if dSpace r.desc = 1 then ownWrite c (dAddr r.desc) bs s else relWrite false x.part (dAddr r.desc) bs s
        | none => relWrite false x.part (dAddr r.desc) bs s
      if w.1 = false then w.2 else
      let h := contentHash bs
      let s := onRx k (fun x => { x with finished := true, recv := none }) w.2
      let s := sendSack k s
      let s := onRx k (fun x => { x with frames := [] }) s
      let s := retireRecv x.part r stOk h s
      if dNotify r.desc then arriveChannel x.part (dCell r.desc) (dChan r.desc) h bs.length s else s

/-- A transfer longer than its descriptor is refused at its first frame (10 R299). -/
def refuseRx (x : RxXfer) (r : RecvPost) (s : State) : State :=
  let s := freeWaiting x s
  let s := onRx x (fun x => { x with finished := true, status := BitVec.ofNat 8 stRange }) s
  let s := onRx x (fun x => { x with frames := [] }) (sendSack x s)
  retireRecv x.part r stRange 0 s

/-- Whether a posted descriptor names the stream of a transfer; a PUT takes a transfer of the host that sent it, the one at
the port its DESC frame came by (10 R282, R299). -/
def recvMatches (x : RxXfer) (r : RecvPost) : Bool :=
  decide (dStream r.desc = x.stream.toNat) &&
  (if r.put then decide (x.srcRing = 0xFFFF ∧ x.port = r.port)
   else decide (dRing r.desc = x.srcRing.toNat) && decide (dPart r.desc = x.srcPart.toNat))

/-- The first transfer that waits and has a descriptor: matched, and refused or landed (10 R299). -/
def matchStep (p : Nat) (s : State) : Option State :=
  s.ring.rx.findSome? fun x =>
    if x.part ≠ p ∨ x.finished ∨ x.recv.isSome ∨ (mapFind x.frames 0).isNone then none else
    match (s.part p).recvs.findIdx? (recvMatches x) with
    | none => none
    | some i =>
      let r := ((s.part p).recvs[i]?).getD RecvPost.reset
      let s := s.onPart p fun q => { q with recvs := q.recvs.eraseIdx i }
      if x.total > dLen r.desc then some (refuseRx x r s)
      else
        let s := freeWaiting x s
        some (landRx x (onRx x (fun x => { x with recv := some r }) s))

/-- Transfers matched while any can be. -/
def matchAll : Nat → Nat → State → State
  | 0, _, s => s
  | n + 1, p, s => match matchStep p s with
    | some s => matchAll n p s
    | none => s

/-- The transfers of a partition matched with its posted descriptors. -/
def matchStreams (p : Nat) (s : State) : State := matchAll s.ring.rx.length p s

/-- A receive descriptor posted (10 R299). -/
def postRecv (p : Nat) (r : RecvPost) (s : State) : State :=
  matchStreams p (s.onPart p fun q => { q with recvs := q.recvs ++ [r] })

/-- A DATA frame taken for a partition (10 R296, R299): kept once; its buffer is held while its transfer waits
for a descriptor. -/
def takeData (port : Nat) (f : VrtFrame) (s : State) : State :=
  let p := f.dstPart.toNat
  let k : RxXfer := { RxXfer.reset with
    srcRing := f.srcRing, srcPart := f.srcPart, part := p, stream := f.stream, xid := f.xid, port := port, cls := f.cls }
  let s := match rxOf s k with
    | some _ => s
    | none => s.onRing fun r => { r with rx := r.rx ++ [k] }
  match rxOf s k with
  | none => s
  | some x =>
    let i := f.eseq.toNat
    if x.finished then sendSack k (releaseBuffer port f.cls.toNat p s)
    else if (mapFind x.frames i).isSome then releaseBuffer port f.cls.toNat p s
    else
      let gap := decide (i ≠ inOrder x)
      let s := onRx k (fun x => { x with
        frames := mapSet x.frames i f.payload, total := if i = 0 then f.aux.toNat else x.total,
        last := if f.last then some i else x.last, unacked := x.unacked + 1 }) s
      let s := if x.recv.isSome then releaseBuffer port f.cls.toNat p s else s
      let s := if gap ∨ x.unacked + 1 ≥ 64 then sendSack k s else s
      matchStreams p (landRx k s)

/-- A SACK at the sender of a transfer (10 R296): covered frames, then the missing ones sent again; a refusal
ends the transfer with OUT_OF_RANGE, whatever code AUX holds (10 R299). -/
def takeSack (f : VrtFrame) (t : TxXfer) (s : State) : State :=
  if f.aux ≠ 0 ∧ (match t.origin with | .seg _ _ _ _ => false | _ => true) = true then finishTx t stRange s else
  let hi := (BitVec.ofNat 32 (leNat (f.payload.take 4)) + 1).toNat
  let missing := (List.range ((f.payload.length - 4) / 4)).map fun i => leNat (slice f.payload (4 + 4 * i) 4)
  let s := onTx t.xid (fun t => { t with acked := t.acked.zipIdx.map fun a => a.1 || decide (a.2 < hi) }) s
  match txOf s t.xid with
  | none => s
  | some t =>
    if t.acked.all id then finishTx t stOk s
    else forEach (missing.filter fun i => (t.acked[i]?) == some false) (sendTx t.xid true) s

end Sys2Proof.Machine
end

