-- ==== Sys2Proof/Machine/Entries.lean ====
section
/-! DEFINITION. The object dictionary: its entries with type, access and scope, and the value each one reads as
(11 R324 to R335 and the rules that R333 names). -/

set_option Elab.async false

namespace Sys2Proof.Machine

/-- The type of an entry (11 R324): a fixed number of bytes, BOOLEAN, or a DOMAIN with its longest length. -/
inductive EType where
  | bytes (n : Nat)
  | bool
  | domain (max : Nat)
  deriving DecidableEq, Repr

/-- Access codes (00 R14). -/
inductive Acc where
  | const | ro | wo | rws
  deriving DecidableEq, Repr

/-- Scope of an entry (11 R325). -/
inductive Scope where
  | device | partition
  | ofPart (p : Nat)
  | ofStack (st : Nat)
  | ofCell (n : Nat)
  deriving DecidableEq, Repr

structure Entry where
  ty    : EType
  acc   : Acc
  scope : Scope
  deriving DecidableEq, Repr

/-- Entries by subindex from 1. -/
def pick (l : List Entry) (sub : Nat) : Option Entry := if sub = 0 then none else l[sub - 1]?

def ent (n : Nat) (a : Acc) (sc : Scope) : Entry := ⟨.bytes n, a, sc⟩

/-- The same entry for subindices 1 to n. -/
def many (n : Nat) (e : Nat → Entry) (sub : Nat) : Option Entry := if 1 ≤ sub ∧ sub ≤ n then some (e (sub - 1)) else none

/-- Entries of the ring ports, group nn of 0x51nn and 0x52nn (10 R280). -/
def portEntry (grp sub : Nat) : Option Entry :=
  let d := Scope.device
  match grp with
  | 0x00 => pick [ent 1 .rws d, ent 1 .ro d, ent 1 .ro d, ent 1 .rws d, ent 2 .rws d, ent 6 .const d, ent 1 .wo d] sub
  | 0x10 => pick [ent 6 .rws d, ent 16 .rws d, ent 16 .rws d, ent 4 .rws d, ent 2 .rws d, ent 4 .ro d, ent 1 .ro d] sub
  | 0x20 => pick [ent 4 .ro d, ent 8 .ro d, ent 8 .ro d, ent 8 .ro d, ent 4 .ro d, ent 4 .ro d, ent 4 .ro d, ent 4 .ro d] sub
  | _ => none

/-- The entry an index and subindex name (11 R331, R333, R334). -/
def entryAt (idx sub : Nat) : Option Entry :=
  let d := Scope.device
  let p := Scope.partition
  match idx with
  | 0x1000 => pick [ent 8 .const d, ent 2 .const d, ent 12 .const d, ent 4 .const d, ent 1 .const d, ent 1 .ro d] sub
  | 0x1010 => pick [ent 1 .rws d, ent 6 .const d, ent 16 .rws d, ent 1 .rws d, ent 4 .rws d, ent 1 .rws d, ent 16 .rws d,
      ent 2 .rws d, ent 2 .rws d] sub
  | 0x1020 => many 4 (fun _ => ent 4 .ro d) sub
  | 0x2000 => many 2 (fun _ => ent 1 .ro p) sub
  | 0x2010 => many 8 (fun i => ent 64 .rws (.ofPart i)) sub
  | 0x2020 => many 8 (fun i => ent 32 .wo (.ofPart i)) sub
  | 0x2030 => many 8 (fun i => ent 1 .ro (.ofPart i)) sub
  | 0x2040 => many 8 (fun i => ent 1 .wo (.ofPart i)) sub
  | 0x2050 => many 1 (fun _ => ent 1 .ro p) sub
  | 0x2060 => many 1 (fun _ => ⟨.domain 1024, .ro, p⟩) sub
  | 0x3000 => pick [ent 2 .rws d, ent 1 .rws d, ent 2 .const d] sub
  | 0x4000 => many 2 (fun _ => ent 4 .ro p) sub
  | 0x4010 => many 32 (fun i => ⟨.domain 264, .ro, .ofStack i⟩) sub
  | 0x4011 => many 32 (fun i => ent 8 .ro (.ofStack i)) sub
  | 0x4012 => many 32 (fun i => ent 1 .rws (.ofStack i)) sub
  | 0x4013 => many 34 (fun i => ent 8 .ro (.ofCell i)) sub
  | 0x4020 => many 1 (fun _ => ⟨.domain 32768, .ro, d⟩) sub
  | 0x4030 => pick [ent 8 .ro p, ent 1 .ro p, ent 1 .ro p, ent 4 .ro p, ent 4 .ro p, ent 2 .ro p] sub
  | 0x4040 => many 32 (fun i => ent 2 .rws (.ofStack i)) sub
  | 0x4050 => many 32 (fun i => ent 48 .rws (.ofStack i)) sub
  | 0x4060 => many 32 (fun i => ent 4 .ro (.ofStack i)) sub
  | 0x4061 => many 32 (fun i => ent 4 .ro (.ofStack i)) sub
  | 0x5000 => pick [ent 2 .rws d, ent 2 .rws d, ent 1 .rws d, ent 1 .wo d, ent 1 .ro d] sub
  | 0x5010 => many 1 (fun _ => ⟨.domain 16384, .rws, d⟩) sub
  | 0x5300 => many 4 (fun _ => ent 2 .rws d) sub
  | 0x5400 => many 3 (fun _ => ent 2 .ro p) sub
  | 0x5410 => many 2 (fun _ => ent 4 .ro p) sub
  | 0x5600 => many 16 (fun _ => ⟨.domain 16384, .rws, p⟩) sub
  | 0x5610 => many 16 (fun _ => ent 1 .ro p) sub
  | 0x6000 => pick [ent 8 .const d, ent 8 .ro d, ent 8 .ro p] sub
  | 0x6001 => many 1 (fun _ => ent 4 .const d) sub
  | 0x6010 => pick [ent 8 .rws p, ent 1 .ro p, ent 1 .ro p, ent 32 .ro p, ⟨.bool, .ro, p⟩, ent 1 .ro p] sub
  | 0x6020 => pick [ent 8 .rws p, ent 16 .rws p, ent 1 .ro p, ent 1 .ro p] sub
  | 0x6030 => many 32 (fun _ => ent 1 .ro p) sub
  | 0x6040 => many 32 (fun _ => ⟨.domain 32768, .ro, p⟩) sub
  | 0x6041 => many 32 (fun _ => ent 32 .ro p) sub
  | 0x6050 => pick [ent 72 .rws p, ent 1 .ro p, ent 8 .ro p] sub
  | 0x7000 => many 1 (fun _ => ⟨.domain 74704, .ro, d⟩) sub
  | 0x7010 => pick [ent 1 .rws p, ⟨.bool, .ro, p⟩] sub
  | 0x7020 => pick [ent 1 .wo d, ent 2 .wo d] sub
  | 0x7030 => many 1 (fun _ => ent 1 .ro d) sub
  | 0x8000 => pick [ent 60 .const d, ent 4 .ro d] sub
  | 0x8010 => many 5 (fun _ => ent 32 .ro d) sub
  | 0x8020 => many 8 (fun _ => ⟨.domain 3580, .ro, d⟩) sub
  | 0x8030 => pick [ent 1 .ro d, ent 4 .ro d, ent 4 .ro d, ent 4 .ro d] sub
  | 0x8040 => pick [⟨.domain 16777216, .wo, d⟩, ent 1 .ro d] sub
  | 0x9010 => many 1 (fun _ => ent 16 .rws p) sub
  | 0x9020 => many 1 (fun _ => ⟨.bool, .rws, p⟩) sub
  | 0x9030 => pick [ent 4 .rws p, ent 1 .ro p] sub
  | 0x9040 => pick [ent 1 .rws p, ent 8 .rws p, ent 1 .ro p] sub
  | 0xA010 => many 1 (fun _ => ent 4 .rws p) sub
  | 0xA020 => if sub = 7 then some (ent 1 .wo p) else many 6 (fun _ => ent 8 .ro p) sub
  | _ => if idx / 256 = 0x51 ∨ idx / 256 = 0x52 then portEntry (idx % 256) sub else none

/-- The dictionary of the moment: husk mode holds less (11 R335). -/
def entryOf (s : State) (idx sub : Nat) : Option Entry :=
  if s.dev.devState = 2 ∧ ¬ (idx / 4096 = 1 ∨ idx / 4096 = 8 ∨ (idx = 0x7000 ∧ sub = 1) ∨ (idx = 0x7030 ∧ sub = 1)) then none
  else entryAt idx sub

/-- Entries that a partition reset clears, which are not served while it runs (11 R327, R336). -/
def clearedIndex (idx : Nat) : Bool :=
  idx ∈ [0x4010, 0x4011, 0x4012, 0x4013, 0x4040, 0x4050, 0x4060, 0x4061, 0x5400, 0x5410, 0x5600, 0x6010, 0x6020, 0x6030,
    0x6040, 0x6041, 0x6050, 0x7010, 0x9010, 0x9020, 0x9030, 0x9040, 0xA010]

/-- The ordering code (00 R2, 11 R331), zero-padded to 8 bytes. -/
def orderingCode (g : Grade) : List Byte := (ascii (match g with | .a32 => "VZ4-32A" | .a28 => "VZ4-28A")) ++ [0]

/-- The package power limit (11 R331 OD 0x3000:03; 14). -/
def packageLimit (g : Grade) : Nat := match g with | .a32 => 1800 | .a28 => 1600

/-- Identity signatures remaining (12 R346, R347). -/
def leavesLeft (s : State) : Nat := if s.att.usable then 2 ^ 30 - s.att.q else 0

/-- Class and index of a summary by its place (15 R389). -/
def unitName (i : Nat) : Nat × Nat :=
  if i < 34 then (1, i) else if i < 546 then (2, i - 34) else if i < 562 then (3, i - 546)
  else if i < 566 then (4, i - 562) else if i < 568 then (5, i - 566) else if i < 569 then (6, 0) else (7, i - 569)

/-- The 128 bits of a unit summary (15 R389). -/
def summaryWord (i : Nat) (u : UnitSummary) : Nat :=
  let n := unitName i
  n.1 * 2 ^ 120 + n.2 * 2 ^ 108 + u.cls.toNat * 2 ^ 106 + (if u.pend then 2 ^ 105 else 0)
    + (if u.proofFailed then 2 ^ 104 else 0) + u.window.toNat * 2 ^ 96 + u.lastBoot.toNat * 2 ^ 64
    + u.events.toNat * 2 ^ 48 + u.bootEvents.toNat * 2 ^ 40 + u.proofPasses.toNat * 2 ^ 32 + u.corrected.toNat

/-- The 256 bits of the fault-history header (15 R389). -/
def historyHeader (s : State) : Nat :=
  2 ^ 240 + 571 * 2 ^ 224 + 4096 * 2 ^ 208 + s.nv.fhNext.toNat * 2 ^ 192 + s.nv.bootCount.toNat * 2 ^ 160
    + s.dev.huskCause.toNat * 2 ^ 152 + s.nv.stwResets.toNat * 2 ^ 144 + s.nv.noReady.toNat * 2 ^ 136

/-- An event record as a session of partition p reads it (15 R389). -/
def eventFor (p : Nat) (e : BitVec 128) : BitVec 128 :=
  let q := fld e 91 88
  if p ≠ 0 ∧ q ≠ p ∧ q ≠ 15 then setFld e 39 0 0 else e

/-- OD 0x7000:01: header, summaries, event ring (15 R389). -/
def faultHistory (s : State) (p : Nat) : List Byte :=
  leBytes 32 (historyHeader s) ++
  ((List.range 571).flatMap fun i => leBytes 16 (summaryWord i (mapGet UnitSummary.reset s.nv.units i))) ++
  ((List.range 4096).flatMap fun i => leBytes 16 (eventFor p (mapGet 0 s.nv.events i)).toNat)

/-- OD 0x7010:02: the first four conditions of R382, for the reading partition (15 R383; log entry 44). -/
def silentBound (s : State) (p : Nat) : Bool :=
  let q := s.part p
  decide ((s.liveCells p).length ≥ 2) && !q.rsdOff && decide (q.sampleV.toNat ≤ 5) &&
  (s.stacksOf p).all fun st => !flag s.dev.inService st || decide ((s.stack st).rate.toNat ≥ 64)

/-- The physical cell that hosts a logical cell (08 R230). -/
def hostOf (s : State) (p l : Nat) : Option Nat := match (s.part p).mod with | some m => m.hosts[l]? | none => none

/-- The retry method in force at a port (10 R295): link-level on a short direct hop. -/
def retryMethod (q : Port) : Nat := if q.short then 0 else 1

def b1 (b : Bool) : List Byte := [if b then 1 else 0]

/-- Values of the entries of a ring port (10 R280). -/
def portValue (s : State) (port grp sub : Nat) : List Byte :=
  let q := s.port port
  let c := vget s.nv.ports port PortCfg.reset
  match grp, sub with
  | 0x00, 1 => leBytes 1 c.phy.toNat
  | 0x00, 2 => leBytes 1 q.st.toNat
  | 0x00, 3 => leBytes 1 q.good.toNat
  | 0x00, 4 => leBytes 1 c.attach.toNat
  | 0x00, 5 => leBytes 2 c.etherType.toNat
  | 0x00, 6 => beBytes 6 (vget s.fuse.macRing port 0).toNat
  | 0x10, 1 => beBytes 6 c.peerMac.toNat
  | 0x10, 2 => beBytes 16 c.localIp.toNat
  | 0x10, 3 => beBytes 16 c.peerIp.toNat
  | 0x10, 4 => leBytes 4 c.delay.toNat
  | 0x10, 5 => leBytes 2 c.udpPort.toNat
  | 0x10, 6 => leBytes 4 q.measured.toNat
  | 0x10, 7 => leBytes 1 (retryMethod q)
  | 0x20, 1 => leBytes 4 q.hopTimeouts.toNat
  | 0x20, 2 => leBytes 8 q.fecCorr.toNat
  | 0x20, 3 => leBytes 8 q.fecUncorr.toNat
  | 0x20, 4 => leBytes 8 q.replays.toNat
  | 0x20, 5 => leBytes 4 q.restarts.toNat
  | 0x20, 6 => leBytes 4 q.beyond.toNat
  | 0x20, 7 => leBytes 4 q.c0drops.toNat
  | 0x20, 8 => leBytes 4 q.hdrDrops.toNat
  | _, _ => zeros 1

/-- Values of the index range 0x4000 (09 R250). -/
def memoryValue (s : State) (p idx sub : Nat) : List Byte :=
  let q := s.part p
  let t := s.stack (sub - 1)
  match idx, sub with
  | 0x4000, 1 => leBytes 4 s.dev.inService.toNat
  | 0x4000, _ => leBytes 4 (defStacks (s.defOf p)).toNat
  | 0x4010, _ => ((t.log ++ List.replicate (32 - t.log.length) 0).flatMap fun (e : BitVec 64) => leBytes 8 e.toNat) ++ leBytes 8 t.overflow.toNat
  | 0x4011, _ => leBytes 8 t.corr.toNat
  | 0x4013, n => leBytes 8 (s.cell (n - 1)).corr.toNat
  | 0x4020, _ => s.nv.soft.flatMap fun e => leBytes 8 e.toNat
  | 0x4030, 1 => leBytes 8 q.mrAddr.toNat
  | 0x4030, 2 => leBytes 1 q.mrLoc.toNat
  | 0x4030, 3 => leBytes 1 q.mrStatus.toNat
  | 0x4030, 4 => leBytes 4 q.mrCount.toNat
  | 0x4030, 5 => leBytes 4 q.rtCount.toNat
  | 0x4030, _ => leBytes 2 q.rtLast.toNat
  | 0x4040, _ => leBytes 2 t.rate.toNat
  | 0x4050, _ => leBytes 48 t.flip.toNat
  | 0x4060, _ => leBytes 4 t.retrains.toNat
  | 0x4061, _ => leBytes 4 t.timeouts.toNat
  | _, _ => zeros 1

/-- Values of the index range 0x6000 (07 R192, R193, R198; 08 R229 to R239; 11 R331). -/
def moduleValue (s : State) (p idx sub : Nat) : List Byte :=
  let q := s.part p
  match idx, sub with
  | 0x6000, 1 => leBytes 8 s.fuse.enabled.toNat
  | 0x6000, 2 => leBytes 8 s.dev.fenced.toNat
  | 0x6000, _ => leBytes 8 (defCells (s.defOf p)).toNat
  | 0x6001, _ => leBytes 4 1
  | 0x6010, 1 => leBytes 8 q.loadAddr.toNat
  | 0x6010, 2 => leBytes 1 q.loadSt.toNat
  | 0x6010, 3 => leBytes 1 q.loadCode.toNat
  | 0x6010, 4 => beBytes 32 q.modDigest.toNat
  | 0x6010, 5 => b1 (match q.mod with | some m => m.unord | none => false)
  | 0x6010, _ => leBytes 1 q.reason.toNat
  | 0x6020, 1 => leBytes 8 q.saveReg.toNat
  | 0x6020, 2 => leBytes 16 q.restReg.toNat
  | 0x6020, 3 => b1 (q.saveReq.isSome || q.saving)
  | 0x6020, _ => leBytes 1 q.ctxStatus.toNat
  | 0x6030, l => leBytes 1 ((hostOf s p (l - 1)).getD 0xFF)
  | 0x6040, l => match hostOf s p (l - 1) with
    | some c => (s.cell c).recs.flatMap fun r => leBytes 32 r.toNat
    | none => []
  | 0x6041, l => match hostOf s p (l - 1) with
    | some c => leBytes 32 (s.cell c).firstFault.toNat
    | none => zeros 32
  | 0x6050, 1 => leBytes 72 q.replayReg.toNat
  | 0x6050, 2 => leBytes 1 q.rst.toNat
  | 0x6050, _ => leBytes 8 q.replays.toNat
  | _, _ => zeros 1

/-- The value an entry reads as from a session of partition p (11 R331, R333); a write-only entry reads as
zeros (00 R14). -/
def valueOf (s : State) (p idx sub : Nat) : List Byte :=
  let q := s.part p
  match entryAt idx sub with
  | none => []
  | some e =>
    if e.acc = .wo then (match e.ty with | .bytes n => zeros n | .bool => zeros 1 | .domain _ => []) else
    match idx, sub with
    | 0x1000, 1 => orderingCode s.fuse.grade
    | 0x1000, 2 => ascii "B0"
    | 0x1000, 3 => beBytes 12 s.fuse.serial.toNat
    | 0x1000, 4 => leBytes 4 0x1D04A4B3
    | 0x1000, 5 => leBytes 1 1
    | 0x1000, _ => leBytes 1 s.dev.devState.toNat
    | 0x1010, 1 => leBytes 1 s.nv.portM.mode.toNat
    | 0x1010, 2 => beBytes 6 s.fuse.macM.toNat
    | 0x1010, 3 => beBytes 16 s.nv.portM.ip6.toNat
    | 0x1010, 4 => leBytes 1 s.nv.portM.pfx6.toNat
    | 0x1010, 5 => beBytes 4 s.nv.portM.ip4.toNat
    | 0x1010, 6 => leBytes 1 s.nv.portM.pfx4.toNat
    | 0x1010, 7 => beBytes 16 s.nv.portM.gateway.toNat
    | 0x1010, 8 => leBytes 2 s.nv.portM.udpPort.toNat
    | 0x1010, _ => leBytes 2 s.nv.portM.idle.toNat
    | 0x1020, 1 => leBytes 4 s.eop.discarded.toNat
    | 0x1020, 2 => leBytes 4 s.eop.badTag.toNat
    | 0x1020, 3 => leBytes 4 s.eop.overRate.toNat
    | 0x1020, _ => leBytes 4 s.eop.badProof.toNat
    | 0x2000, 1 => leBytes 1 (sumN ((List.range 8).map fun i => if s.defined i then 2 ^ i else 0))
    | 0x2000, _ => leBytes 1 p
    | 0x2010, i => leBytes 64 (s.defEntry (i - 1)).toNat
    | 0x2030, i => leBytes 1 (s.part (i - 1)).st.toNat
    | 0x2050, _ => leBytes 1 (s.eop.sessions.filter fun x => x.isOpen && decide (x.part.val = p)).length
    | 0x2060, _ => q.notices.flatMap fun n => leBytes 16 n.toNat
    | 0x3000, 1 => leBytes 2 s.nv.capW.toNat
    | 0x3000, 2 => leBytes 1 s.nv.capWindow.toNat
    | 0x3000, _ => leBytes 2 (packageLimit s.fuse.grade)
    | 0x5000, 1 => leBytes 2 s.nv.ringId.toNat
    | 0x5000, 2 => leBytes 2 s.nv.ringSize.toNat
    | 0x5000, 3 => leBytes 1 s.nv.insertMode.toNat
    | 0x5000, _ => leBytes 1 s.dev.ringState.toNat
    | 0x5010, _ => s.nv.delayMap ++ zeros (4 * s.nv.ringSize.toNat - s.nv.delayMap.length)
    | 0x5300, 4 => leBytes 2 s.nv.classes.prio.toNat
    | 0x5300, i => leBytes 2 (vget s.nv.classes.pool (i - 1) 0).toNat
    | 0x5400, i => leBytes 2 ((if i = 3 then 256 else 1024) - (vget q.paced (i - 1) []).length)
    | 0x5410, 1 => leBytes 4 q.credViol.toNat
    | 0x5410, _ => leBytes 4 q.badDesc.toNat
    | 0x5600, g => vget q.groups (g - 1) []
    | 0x5610, g => leBytes 1 (vget q.decision (g - 1) 1).toNat
    | 0x7000, _ => faultHistory s p
    | 0x7010, 1 => leBytes 1 q.sampleV.toNat
    | 0x7010, _ => b1 (silentBound s p)
    | 0x7030, _ => leBytes 1 s.dev.huskCause.toNat
    | 0x8000, 1 => hssPublic s.nv.idKey
    | 0x8000, _ => leBytes 4 (leavesLeft s)
    | 0x8010, i => beBytes 32 (vget s.dev.meas (i - 1) 0).toNat
    | 0x8020, i => (vget s.att.slots (i - 1) AttSlot.reset).value
    | 0x8030, 1 => leBytes 1 s.nv.active.val
    | 0x8030, 4 => leBytes 4 s.nv.rollbackMin.toNat
    | 0x8030, i =>
      let f := vget s.nv.slots (i - 2) FwSlot.reset
      leBytes 4 (if f.valid then f.version.toNat else 0)
    | 0x8040, _ => leBytes 1 s.test.fwStatus.toNat
    | 0x9010, _ => beBytes 16 q.seed.toNat
    | 0x9020, _ => b1 q.provOn
    | 0x9030, 1 => leBytes 4 q.cupCfg.toNat
    | 0x9030, _ => leBytes 1 q.cup.st.toNat
    | 0x9040, 1 => leBytes 1 q.capsN.toNat
    | 0x9040, 2 => leBytes 8 q.stepReg.toNat
    | 0x9040, _ => leBytes 1 q.stepStatus.toNat
    | 0xA010, _ => leBytes 4 q.fmt.toNat
    | 0xA020, 1 => leBytes 8 q.cSat.toNat
    | 0xA020, 2 => leBytes 8 q.cFlu.toNat
    | 0xA020, 3 => leBytes 8 q.cAwn.toNat
    | 0xA020, 4 => leBytes 8 q.cSquash.toNat
    | 0xA020, 5 => leBytes 8 q.cFall.toNat
    | 0xA020, _ => leBytes 8 q.cBad.toNat
    | _, _ =>
      if idx / 4096 = 4 then memoryValue s p idx sub
      else if idx / 4096 = 6 then moduleValue s p idx sub
      else portValue s (idx / 256 - 0x51) (idx % 256) sub

end Sys2Proof.Machine
end

