-- ==== Sys2Proof/Machine/Requests.lean ====
section
/-! DEFINITION. How the device serves an EOP request (11 R313 to R329): framing, tag, sequence, authority,
conditions, the response, and then the effect if the status is OK. -/

set_option Elab.async false

namespace Sys2Proof.Machine

/-- EOP opcodes (11 R313). -/
def opRead : Nat := 1
def opWrite : Nat := 2
def opSegRead : Nat := 3
def opSegWrite : Nat := 4
def opOpen : Nat := 5
def opProve : Nat := 6
def opClose : Nat := 7
def opNotify : Nat := 8
def opAttest : Nat := 9

/-- Data and tag of a request, cut by its LEN. -/
def reqData (r : EopReq) : List Byte := (r.data ++ r.tag).take r.len.toNat
def reqTag (r : EopReq) : List Byte := (r.data ++ r.tag).drop r.len.toNat

/-- The header of a request as sent (11 R313). -/
def reqHeader (opc : Nat) (r : EopReq) : List Byte :=
  beBytes 16 (r.ver.toNat * 2 ^ 124 + opc * 2 ^ 120 + (if r.rsp then 2 ^ 119 else 0) + r.rsvd.toNat * 2 ^ 112
    + r.status.toNat * 2 ^ 104 + r.session.toNat * 2 ^ 88 + r.seqNo.toNat * 2 ^ 56 + r.index.toNat * 2 ^ 40
    + r.sub.toNat * 2 ^ 32 + r.len.toNat * 2 ^ 16 + r.rsvd2.toNat)

/-- The bytes of a request. -/
def reqBytes (opc : Nat) (r : EopReq) : List Byte := reqHeader opc r ++ r.data ++ r.tag

/-- Port M serves requests from boot order 11 on, and in husk mode (12 R342, R349). -/
def portMOn (s : State) : Bool :=
  s.dev.powered && s.dev.porstN && !s.dev.thermLatched && (decide (s.dev.bootOrder ≥ 11) || decide (s.dev.devState = 2))

/-- The addresses of port M (11 R310): the link-local one formed from its MAC address by modified EUI-64, the IPv6 and
the IPv4 address where they are set; an IPv4 address stands as its IPv4-mapped form. -/
def portMAddresses (s : State) : List (BitVec 128) :=
  let m := s.fuse.macM.toNat
  let eui := ((m / 2 ^ 24) ^^^ 0x020000) * 2 ^ 40 + 0xFFFE * 2 ^ 24 + m % 2 ^ 24
  let c := s.eop.cfg
  [BitVec.ofNat 128 (0xFE80 * 2 ^ 112 + eui)] ++ (if c.ip6 = 0 then [] else [c.ip6]) ++
    (if c.ip4 = 0 then [] else [BitVec.ofNat 128 (0xFFFF * 2 ^ 32 + c.ip4.toNat)])

/-- A datagram that reaches the EOP service (11 R310, R311): whole, to one of the addresses and the port. -/
def reaches (s : State) (r : EopReq) : Bool :=
  portMOn s && !r.frag && decide (r.dip ∈ portMAddresses s) && decide (r.dport = s.eop.cfg.udpPort)

/-- A datagram that is discarded (11 R314 step 1). -/
def badFraming (opc : Nat) (r : EopReq) : Bool :=
  decide (r.data.length + r.tag.length ≠ r.len.toNat + 16) || decide (r.ver ≠ 1) || (r.rsp && decide (opc ≠ opNotify))

/-- Interval counts in 10 ms (02 R50). -/
def tenMs : Nat := 1562500

/-- Requests taken in the last 10 ms (11 R315). -/
def recentTimes (s : State) : List (BitVec 64) := s.eop.times.filter fun t => decide ((s.dev.interval - t).toNat < tenMs)

/-- A response of a request (11 R311, R313, R322): from the address and port the request was sent to, tagged under a
key, or with an all-zero tag. -/
def answer (opc : Nat) (r : EopReq) (session : BitVec 16) (key : Option (BitVec 256)) (status : Nat) (data : List Byte) :
    EopOut :=
  let h := eopHeader opc true status session.toNat r.seqNo.toNat r.index.toNat r.sub.toNat data.length
  match key with
  | some k => eopMessage ⟨r.dip, r.dport⟩ r.src k h data
  | none => { src := ⟨r.dip, r.dport⟩, dst := r.src, header := h, data := data, tag := 0 }

/-- What the sequence rule says of a request in a session (11 R323). -/
inductive SeqRule where
  | accept | resend | discard
  deriving DecidableEq, Repr

def seqRule (opc : Nat) (r : EopReq) (x : Session) : SeqRule :=
  let same := decide (r.seqNo = x.lastSeq) && decide (x.lastReq = reqBytes opc r)
  if same then .resend
  else if x.lastSeq = 0xFFFFFFFF then (if opc = opClose then .accept else .discard)
  else if x.lastSeq < r.seqNo then .accept else .discard

def sessionOf (s : State) (num : BitVec 16) : Option Session := s.eop.sessions.find? fun x => decide (x.num = num)

def onSession (num : BitVec 16) (f : Session → Session) (s : State) : State :=
  s.onEop fun e => { e with sessions := e.sessions.map fun x => if x.num = num then f x else x }

/-- BAD_TAG, with an all-zero tag, counted (11 R314 step 2). -/
def badTagAnswer (opc : Nat) (r : EopReq) (s : State) : State :=
  sendM (answer opc r r.session none stBadTag []) (s.onEop fun e => { e with badTag := satInc e.badTag })

/-- The tag of a request holds under a session's key (11 R322). -/
def tagHolds (opc : Nat) (r : EopReq) (x : Session) : Bool :=
  decide ((reqTag r).length = 16) && decide (beNat (reqTag r) = (tagOf x.key (reqHeader opc r ++ reqData r)).toNat)

/-- Steps 1 to 3 of 11 R314 and the rate limit of R315: what a datagram comes to. The proof of a pending session
is judged by its own row. -/
inductive Gate where
  | drop (s : State)
  | open' (x : Option Session) (s : State)

def eopGate (opc : Nat) (r : EopReq) (s : State) : Gate :=
  if reaches s r = false then .drop s
  else if badFraming opc r then .drop (s.onEop fun e => { e with discarded := satInc e.discarded })
  else if (recentTimes s).length ≥ 100 then .drop (s.onEop fun e => { e with overRate := satInc e.overRate })
  else
    let s := s.onEop fun e => { e with times := recentTimes s ++ [s.dev.interval] }
    if r.session = 0 then
      if reqTag r = zeros 16 then .open' none s else .drop (badTagAnswer opc r s)
    else match sessionOf s r.session with
      | none => .drop (sendM (answer opc r r.session none stNoSession []) s)
      | some x =>
        if tagHolds opc r x = false then
          if opc = opProve ∧ x.isOpen = false then .open' (some x) s else .drop (badTagAnswer opc r s)
        else match seqRule opc r x with
          | .accept => .open' (some x) s
          | .resend => .drop (match x.lastResp with | some o => sendM o s | none => s)
          | .discard => .drop s

/-- A request served (11 R314): `judge` gives the status and the data of an OK response; the response is sent
and stored; `act` is the effect, which knows the status. -/
def eopRun (opc : Nat) (r : EopReq) (judge : Option Session → State → Nat × List Byte)
    (act : Nat → Option Session → State → State) (s : State) : State :=
  match eopGate opc r s with
  | .drop s => s
  | .open' none s =>
    let j := judge none s
    act j.1 none (sendM (answer opc r 0 none j.1 (if j.1 = stOk then j.2 else [])) s)
  | .open' (some x) s =>
    let j := if x.isOpen then judge (some x) s else (stNoSession, [])
    let o := answer opc r x.num (some x.key) j.1 (if j.1 = stOk then j.2 else [])
    let s := onSession x.num (fun x => { x with lastSeq := r.seqNo, lastReq := reqBytes opc r, lastResp := some o }) s
    act j.1 (some x) (sendM o s)

/-- The effect of a request takes place only with OK. -/
def onOk (f : Option Session → State → State) (status : Nat) (x : Option Session) (s : State) : State :=
  if status = stOk then f x s else s

/-- Entries served without a session (11 R326). -/
def publicIndex (idx : Nat) : Bool := decide (idx = 0x1000 ∨ idx = 0x8000 ∨ (0x8010 ≤ idx ∧ idx ≤ 0x8030))

/-- Step 4 of 11 R314 for a read: R317, R325, R326. -/
def readAuthority (s : State) (x : Option Session) (idx sub : Nat) : Nat :=
  if publicIndex idx then stOk else
  match x with
  | none => stNoSession
  | some y =>
    let p := y.part.val
    if y.unkeyed then stDenied else
    match entryOf s idx sub with
    | none => stOk
    | some e =>
      match e.scope with
      | .device | .partition => stOk
      | .ofPart q => if p = q ∨ p = 0 then stOk else stDenied
      | .ofStack st => match s.stackOwner st with
        | some q => if p = q then stOk else stDenied
        | none => stOk
      | .ofCell n => match s.cellOwner n with
        | some q => if p = q then stOk else stDenied
        | none => stOk

/-- Step 4 of 11 R314 for a write: the access code, then the owner (R317, R325, R355). -/
def writeAuthority (s : State) (x : Option Session) (idx sub : Nat) : Nat :=
  match x with
  | none => stNoSession
  | some y =>
    let p := y.part.val
    if y.unkeyed = true ∧ ¬ (idx = 0x2020 ∧ sub = 1) then stDenied else
    match entryOf s idx sub with
    | none => stOk
    | some e =>
      if e.acc = .const ∨ e.acc = .ro then stDenied else
      match e.scope with
      | .device => if p = 0 then stOk else stDenied
      | .partition => stOk
      | .ofPart q => if p = 0 ∨ (p = q ∧ idx ≠ 0x2010) then stOk else stDenied
      | .ofStack st => if p = (s.stackOwner st).getD 0 then stOk else stDenied
      | .ofCell n => if p = (s.cellOwner n).getD 0 then stOk else stDenied

/-- Reserved header bits (11 R313, 00 R15). -/
def reservedSet (r : EopReq) : Bool := decide (r.rsvd ≠ 0) || decide (r.rsvd2 ≠ 0)

/-- An entry of a partition that is resetting is not served (11 R336). -/
def beingCleared (s : State) (p idx sub : Nat) : Bool :=
  clearedIndex idx &&
  (match entryOf s idx sub with
  | none => false
  | some e =>
    match e.scope with
    | .partition => decide ((s.part p).st = 3)
    | .ofStack st => (match s.stackOwner st with | some q => decide ((s.part q).st = 3) | none => false)
    | .ofCell n => (match s.cellOwner n with | some q => decide ((s.part q).st = 3) | none => false)
    | _ => false)

/-- The partition a request speaks for. -/
def partOf (x : Option Session) : Nat := match x with | some y => y.part.val | none => 0

/-- While the device boots only reads of OD 0x1000 and ATTEST have their normal result (11 R315). -/
def booting (s : State) : Bool := decide (s.dev.devState = 0)

/-- Whether a written value has the size of its type, and is a legal BOOLEAN (11 R324). -/
def sizeStatus (e : Entry) (data : List Byte) : Nat :=
  match e.ty with
  | .bytes n => if data.length = n then stOk else stType
  | .bool => if data.length ≠ 1 then stType else if leNat data ≤ 1 then stOk else stRange
  | .domain _ => stType

/-- The judgement of a WRITE (11 R314, R324, R325): `check` gives the entry's own refusals for a value of the
right size. -/
def judgeWrite (r : EopReq) (check : State → Nat → Nat → Nat) (x : Option Session) (s : State) : Nat × List Byte :=
  let idx := r.index.toNat
  let sub := r.sub.toNat
  let a := writeAuthority s x idx sub
  if booting s then (stNotReady, [])
  else if a ≠ stOk then (a, [])
  else
    let p := partOf x
    match entryOf s idx sub with
    | none => (worst [stNoEntry, when' (reservedSet r) stRange], [])
    | some e =>
      let z := sizeStatus e (reqData r)
      (worst [z, when' (reservedSet r) stRange, when' (beingCleared s p idx sub) stNotReady,
        if z = stOk then check s p (leNat (reqData r)) else stOk], [])

/-- A WRITE of one entry (11 R324): a request for another entry is not this row's event (log entry 1). `check`
and `act` see the writing partition and the value. -/
def eopWrite (mine : Nat → Nat → Bool) (r : EopReq) (check : State → Nat → Nat → Nat)
    (act : Nat → Nat → Option Session → State → State) (s : State) : State :=
  if mine r.index.toNat r.sub.toNat then
    eopRun opWrite r (judgeWrite r check) (onOk fun x s => act (partOf x) (leNat (reqData r)) x s) s
  else s

/-- One entry. -/
def onlyEntry (idx sub : Nat) (i j : Nat) : Bool := decide (i = idx ∧ j = sub)
/-- Every subindex of one index. -/
def wholeIndex (idx : Nat) (i _ : Nat) : Bool := decide (i = idx)

/-- The value a written octet string stands for, first byte most significant. -/
def reqBe (r : EopReq) : Nat := beNat (reqData r)

/-- A session ends: its number waits 60 s (11 R319, R320). -/
def closeSession (num : BitVec 16) (s : State) : State :=
  s.onEop fun e => { e with
    sessions := e.sessions.filter fun x => decide (x.num ≠ num),
    quarantine := if e.sessions.any (fun x => decide (x.num = num)) then e.quarantine ++ [num] else e.quarantine }

/-- Every session of a partition ends, but one. -/
def closeSessions (p : Nat) (keep : Option (BitVec 16)) (s : State) : State :=
  forEach (s.eop.sessions.filter fun x => decide (x.part.val = p ∧ some x.num ≠ keep)) (fun x s => closeSession x.num s) s

end Sys2Proof.Machine
end

