-- ==== Sys2Proof/Machine/Dictionary.lean ====
section
/-! DEFINITION. Reads, writes and segmented transfers of dictionary entries, and the writes of the seed and of the
counter clear (11 R324 to R331). -/

set_option Elab.async false

namespace Sys2Proof.Machine

/-- SEED_WRITE (06 R173, R180): refused with NOT_READY while a UE command of the partition is queued or in
progress, or a restore runs (08). -/
def execSeedWrite (req : EopReq) (s : State) : Host.Outcome State Fault Refusal :=
  .next (eopWrite (onlyEntry 0x9010 1) req
    (fun s p _ => when' ((s.part p).restoring.isSome || (s.cellsOf p).any fun c =>
      !(vget (s.cell c).queues 3 []).isEmpty || (s.cell c).ue.done.isSome || (s.cell c).ue.run.isSome) stNotReady)
    (fun p _ _ s => s.onPart p fun q => { q with seed := BitVec.ofNat 128 (reqBe req) }) s)

/-- COUNTER_CLEAR (11 R331 OD 0xA020:07): 1 clears the partition's numeric counters. -/
def execCounterClear (req : EopReq) (s : State) : Host.Outcome State Fault Refusal :=
  .next (eopWrite (onlyEntry 0xA020 7) req (fun _ _ v => when' (decide (v ≠ 1)) stRange)
    (fun p _ _ s => s.onPart p fun q => { q with cSat := 0, cFlu := 0, cAwn := 0, cSquash := 0, cFall := 0, cBad := 0 }) s)

/-- The judgement of a READ (11 R314, R324). -/
def judgeRead (r : EopReq) (x : Option Session) (s : State) : Nat × List Byte :=
  let idx := r.index.toNat
  let sub := r.sub.toNat
  let a := readAuthority s x idx sub
  if booting s ∧ idx ≠ 0x1000 then (stNotReady, [])
  else if a ≠ stOk then (a, [])
  else match entryOf s idx sub with
    | none => (worst [stNoEntry, when' (reservedSet r) stRange], [])
    | some e =>
      let dom := match e.ty with | .domain _ => true | _ => false
      (worst [when' (dom || decide (r.len ≠ 0)) stType, when' (reservedSet r) stRange,
        when' (beingCleared s (partOf x) idx sub) stNotReady], valueOf s (partOf x) idx sub)

/-- READ (11 R324): an entry's value. -/
def execRead (req : EopReq) (s : State) : Host.Outcome State Fault Refusal :=
  .next (eopRun opRead req (judgeRead req) (fun _ _ s => s) s)

/-- Entries whose write is a row of its own. -/
def ownRow (idx sub : Nat) : Bool :=
  decide (idx = 0x2010 ∨ idx = 0x2020 ∨ idx = 0x2040 ∨ idx = 0x4012 ∨ idx = 0x4050 ∨ idx = 0x7020) && (entryAt idx sub).isSome
  || decide ((idx, sub) ∈ [(0x3000, 1), (0x3000, 2), (0x5000, 4), (0x5100, 7), (0x5200, 7), (0x6010, 1), (0x6020, 1),
      (0x6020, 2), (0x6050, 1), (0x9010, 1), (0x9020, 1), (0x9030, 1), (0x9040, 1), (0x9040, 2), (0xA020, 7)])

/-- A value outside the range of an entry that has no behaviour of its own (11 R331; 09 R250; 10 R280; 03 R71). -/
def writeRange (s : State) (idx sub v : Nat) : Bool :=
  let port := decide (idx / 256 = 0x51 ∨ idx / 256 = 0x52)
  if port then
    (decide (idx % 256 = 0) && ((decide (sub = 1) && decide (v > 1)) || (decide (sub = 4) && decide (v > 2))))
  else match idx, sub with
    | 0x1010, 1 => decide (v > 2)
    | 0x1010, 4 => decide (v < 1) || decide (v > 128)
    | 0x1010, 6 => decide (v < 1) || decide (v > 32)
    | 0x1010, 8 => decide (v < 1024)
    | 0x1010, 9 => decide (v < 10) || decide (v > 3600)
    | 0x4040, _ => decide (v > 4096)
    | 0x5000, 1 => decide (v ≥ s.nv.ringSize.toNat)
    | 0x5000, 2 => decide (v < 1) || decide (v > 4096)
    | 0x5000, 3 => decide (v > 1)
    | 0x5300, 4 => decide (v ≥ 4096)
    | 0x5300, i => decide (sumN ((vmod s.nv.classes.pool (i - 1) fun _ => BitVec.ofNat 16 v).toList.map BitVec.toNat) > 24576)
    | 0x7010, 1 => decide (v < 2) || decide (v > 8)
    | 0xA010, 1 => (fmtOf (BitVec.ofNat 32 v)).isNone
    | _, _ => false

/-- A port M setting written (11 R331). -/
def setPortM (sub v be : Nat) (c : PortMCfg) : PortMCfg :=
  match sub with
  | 1 => { c with mode := BitVec.ofNat 8 v }
  | 3 => { c with ip6 := BitVec.ofNat 128 be }
  | 4 => { c with pfx6 := BitVec.ofNat 8 v }
  | 5 => { c with ip4 := BitVec.ofNat 32 be }
  | 6 => { c with pfx4 := BitVec.ofNat 8 v }
  | 7 => { c with gateway := BitVec.ofNat 128 be }
  | 8 => { c with udpPort := BitVec.ofNat 16 v }
  | _ => { c with idle := BitVec.ofNat 16 v }

/-- A ring port setting written (10 R280). -/
def setPort (grp sub v be : Nat) (c : PortCfg) : PortCfg :=
  match grp, sub with
  | 0x00, 1 => { c with phy := BitVec.ofNat 8 v }
  | 0x00, 4 => { c with attach := BitVec.ofNat 8 v }
  | 0x00, _ => { c with etherType := BitVec.ofNat 16 v }
  | _, 1 => { c with peerMac := BitVec.ofNat 48 be }
  | _, 2 => { c with localIp := BitVec.ofNat 128 be }
  | _, 3 => { c with peerIp := BitVec.ofNat 128 be }
  | _, 4 => { c with delay := BitVec.ofNat 32 v }
  | _, _ => { c with udpPort := BitVec.ofNat 16 v }

/-- The write of an entry that has no behaviour of its own: port M and port entries take effect later (R280,
R311). -/
def writeEntry (p idx sub v be : Nat) (s : State) : State :=
  match idx with
  | 0x1010 => s.onNv fun n => { n with portM := setPortM sub v be n.portM }
  | 0x4040 => s.onStack (sub - 1) fun t => { t with rate := BitVec.ofNat 16 v }
  | 0x5000 => s.onNv fun n => match sub with
    | 1 => { n with ringId := BitVec.ofNat 16 v }
    | 2 => { n with ringSize := BitVec.ofNat 16 v }
    | _ => { n with insertMode := BitVec.ofNat 8 v }
  | 0x5300 => s.onNv fun n => { n with classes :=
      if sub = 4 then { n.classes with prio := BitVec.ofNat 16 v }
      else { n.classes with pool := vmod n.classes.pool (sub - 1) fun _ => BitVec.ofNat 16 v } }
  | 0x7010 => s.onPart p fun q => { q with sampleV := BitVec.ofNat 8 v }
  | 0xA010 => s.onPart p fun q => { q with fmt := BitVec.ofNat 32 v }
  | _ => s.onNv fun n => { n with ports := vmod n.ports (idx / 256 - 0x51) (setPort (idx % 256) sub v be) }

/-- WRITE (11 R324): an entry that has no behaviour of its own, or one that takes no write at all. -/
def execWrite (req : EopReq) (s : State) : Host.Outcome State Fault Refusal :=
  .next (eopWrite (fun i j => !ownRow i j) req
    (fun s _ v => when' (writeRange s req.index.toNat req.sub.toNat v) stRange)
    (fun p v _ s => writeEntry p req.index.toNat req.sub.toNat v (reqBe req) s) s)

/-- Whether a DOMAIN entry. -/
def domainMax (e : Entry) : Option Nat := match e.ty with | .domain m => some m | _ => none

/-- The snapshot a request reads from: its session's, or that of the requests without a session. -/
def snapOf (x : Option Session) (s : State) : Option Snapshot := match x with
  | some y => (sessionOf s y.num).bind fun z => z.snap
  | none => s.eop.snap0

def setSnap (x : Option Session) (v : Option Snapshot) (s : State) : State := match x with
  | some y => onSession y.num (fun z => { z with snap := v }) s
  | none => s.onEop fun e => { e with snap0 := v }

/-- The snapshot a SEG_READ reads: at offset 0 a fresh one. -/
def segSource (r : EopReq) (x : Option Session) (s : State) : Option (List Byte) :=
  if leNat (reqData r) = 0 then some (valueOf s (partOf x) r.index.toNat r.sub.toNat) else
  match snapOf x s with
  | some y => if y.index = r.index ∧ y.sub = r.sub then some y.bytes else none
  | none => none

/-- The judgement of a SEG_READ (11 R328). -/
def judgeSegRead (r : EopReq) (x : Option Session) (s : State) : Nat × List Byte :=
  let idx := r.index.toNat
  let sub := r.sub.toNat
  let a := readAuthority s x idx sub
  if booting s ∧ idx ≠ 0x1000 then (stNotReady, [])
  else if a ≠ stOk then (a, [])
  else match entryOf s idx sub with
    | none => (worst [stNoEntry, when' (reservedSet r) stRange], [])
    | some e =>
      let o := leNat (reqData r)
      let ok := (domainMax e).isSome && decide (r.len = 4)
      let src := segSource r x s
      let bs := src.getD []
      (worst [when' (!ok) stType, when' (reservedSet r) stRange,
        when' (beingCleared s (partOf x) idx sub || (decide (idx = 0x8020) && (vget s.att.slots (sub - 1) AttSlot.reset).waiting))
          stNotReady,
        when' (ok && decide (o ≠ 0) && (src.isNone || decide (o ≥ bs.length))) stRange],
       leBytes 4 o ++ leBytes 4 bs.length ++ slice bs o 1024)

/-- SEG_READ (11 R328): a segment of a snapshot, which ends with its last byte. -/
def execSegRead (req : EopReq) (s : State) : Host.Outcome State Fault Refusal :=
  .next (eopRun opSegRead req (judgeSegRead req) (onOk fun x s =>
    match segSource req x s with
    | none => s
    | some bs =>
      setSnap x (if leNat (reqData req) + 1024 ≥ bs.length then none else some ⟨req.index, req.sub, bs⟩) s) s)

/-- The segmented write of an entry in progress (11 R329). -/
def segOf (r : EopReq) (s : State) : Option SegXfer := s.eop.segs.find? fun t => decide (t.index = r.index ∧ t.sub = r.sub)

/-- OFFSET, TOTAL and bytes of a segment. -/
def segOffset (r : EopReq) : Nat := leNat ((reqData r).take 4)
def segTotal (r : EopReq) : Nat := leNat (slice (reqData r) 4 4)
def segBytes (r : EopReq) : List Byte := (reqData r).drop 8
/-- The bytes of the value up to a segment. -/
def segValue (r : EopReq) (s : State) : List Byte :=
  if segOffset r = 0 then segBytes r else (match segOf r s with | some t => t.data | none => []) ++ segBytes r
/-- The last segment of a value. -/
def segLast (r : EopReq) : Bool := decide (segOffset r + (segBytes r).length = segTotal r)

/-- The refusal of a segment (11 R329): `check` judges a whole value, `busy` a start. -/
def segStatus (r : EopReq) (max : Nat) (busy : State → Bool) (check : State → Nat → List Byte → Nat)
    (y : Session) (s : State) : Nat :=
  let n := (segBytes r).length
  let bad := decide (segOffset r + n > segTotal r) || (!segLast r && decide (n ≠ 1024))
  if segOffset r = 0 then
    worst [when' ((segOf r s).isSome || busy s) stNotReady, when' (decide (segTotal r > max) || bad) stRange,
      if segLast r && !bad then check s y.part.val (segValue r s) else stOk]
  else match segOf r s with
    | none => stRange
    | some t =>
      if t.session ≠ y.num ∨ t.data.length ≠ segOffset r ∨ t.total ≠ segTotal r ∨ bad = true then stRange
      else if segLast r then check s y.part.val (segValue r s) else stOk

/-- The judgement of a SEG_WRITE. -/
def judgeSegWrite (r : EopReq) (busy : State → Bool) (check : State → Nat → List Byte → Nat) (x : Option Session)
    (s : State) : Nat × List Byte :=
  let idx := r.index.toNat
  let sub := r.sub.toNat
  let a := writeAuthority s x idx sub
  if booting s then (stNotReady, [])
  else if a ≠ stOk then (a, [])
  else match entryOf s idx sub, x with
    | some e, some y =>
      match domainMax e with
      | none => (worst [stType, when' (reservedSet r) stRange], [])
      | some m =>
        let fits := decide (8 ≤ (reqData r).length) && decide ((reqData r).length ≤ 1032)
        (worst [when' (!fits) stType, when' (reservedSet r) stRange, when' (beingCleared s y.part.val idx sub) stNotReady,
          if fits then segStatus r m busy check y s else stOk], [])
    | _, _ => (worst [stNoEntry, when' (reservedSet r) stRange], [])

/-- What a segment does (11 R329): kept, committed, or its transfer discarded; `keep` is what an accepted segment does
besides, with the bytes so far. -/
def segEffect (r : EopReq) (keep : List Byte → State → State) (commit : Nat → List Byte → State → State) (status : Nat)
    (x : Option Session) (s : State) : State :=
  match x with
  | none => s
  | some y =>
    let v := segValue r s
    let drop := fun (s : State) => s.onEop fun e => { e with segs := e.segs.filter fun t => !decide (t.index = r.index ∧ t.sub = r.sub) }
    let mine := match segOf r s with | some t => decide (t.session = y.num) | none => false
    if status = stOk then
      let s := keep v s
      if segLast r then commit y.part.val v (drop s)
      else (drop s).onEop fun e => { e with segs := e.segs ++ [⟨r.index, r.sub, y.num, y.part, segTotal r, v⟩] }
    else if mine = true ∧ segOffset r ≠ 0 ∧ status ≠ stDenied ∧ status ≠ stType ∧ status ≠ stNoSession then drop s else s

/-- A SEG_WRITE of some entries. -/
def eopSegWrite (mine : Nat → Nat → Bool) (r : EopReq) (busy : State → Bool) (check : State → Nat → List Byte → Nat)
    (keep : List Byte → State → State) (commit : Nat → List Byte → State → State) (s : State) : State :=
  if mine r.index.toNat r.sub.toNat then eopRun opSegWrite r (judgeSegWrite r busy check) (segEffect r keep commit) s else s

/-- The firmware slot that is not active (12 R340). -/
def idleSlot (s : State) : Nat := 1 - s.nv.active.val

/-- A ring delay map: 4 bytes for each ring id (10 R280). -/
def delayMapBad (s : State) (bs : List Byte) : Bool := decide (bs.length % 4 ≠ 0) || decide (bs.length > 4 * s.nv.ringSize.toNat)

/-- SEG_WRITE (11 R329) of the ring delay map and of the firmware image, whose segments go into the idle slot, which
the first of them makes invalid (12 R340 orders 1 to 3). -/
def execSegWrite (req : EopReq) (s : State) : Host.Outcome State Fault Refusal :=
  let fw := decide (req.index = 0x8040)
  .next (eopSegWrite (fun i j => !(decide (i = 0x5600) && (entryAt i j).isSome)) req
    (fun s => fw && s.test.fwBusy)
    (fun s _ bs => when' (!fw && delayMapBad s bs) stRange)
    (fun bs s => if fw then s.onNv fun n => { n with
        slots := vmod n.slots (idleSlot s) fun f => { f with valid := false, pending := false, image := bs } } else s)
    (fun _ bs s => if fw then s.onTest fun t => { t with fwBusy := true, fwStatus := BitVec.ofNat 8 stNotReady }
      else s.onNv fun n => { n with delayMap := bs }) s)

end Sys2Proof.Machine
end

