-- ==== Sys2Proof/Machine/Firmware.lean ====
section
/-! DEFINITION. Firmware images and their verification (12 R337, R338). -/

set_option Elab.async false

namespace Sys2Proof.Machine

/-- Bits of the 192-byte image header, network byte order (12 R337). -/
def imageField (img : List Byte) (hi lo : Nat) : Nat := bits (beNat (img.take 192)) hi lo

/-- The lengths of the four components. -/
def imageLens (img : List Byte) : List Nat :=
  [imageField img 1407 1376, imageField img 1375 1344, imageField img 1343 1312, imageField img 1311 1280]

/-- Components of given lengths, each from the next 32-byte boundary after what precedes it. -/
def partsFrom (img : List Byte) : Nat → List Nat → List (List Byte)
  | _, [] => []
  | o, n :: r => slice img o n :: partsFrom img (alignUp 32 (o + n)) r

/-- Stage 1, steward firmware, cell microcode, translator; stage 1 starts at byte 1,984. -/
def imageParts (img : List Byte) : List (List Byte) := partsFrom img 1984 (imageLens img)

/-- The digests the header names. -/
def imageDigests (img : List Byte) : List Nat :=
  [imageField img 1279 1024, imageField img 1023 768, imageField img 767 512, imageField img 511 256]

def imageVersion (img : List Byte) : Nat := imageField img 1471 1440
def imageMinVer (img : List Byte) : Nat := imageField img 1439 1408

/-- What 12 R338 asks of a header and its signature, under the vendor key of the boot ROM. -/
def headerValid (key : BitVec 448) (rollbackMin : Nat) (img : List Byte) : Bool :=
  let mib := 2 ^ 20
  decide (imageField img 1535 1504 = 0x565A4657) && decide (imageField img 1503 1488 = 1) &&
  decide (imageField img 1487 1472 = 0x4230) && decide (imageMinVer img ≤ imageVersion img) &&
  decide (rollbackMin ≤ imageVersion img) &&
  ((List.zipWith (fun (a b : Nat) => decide (a ≤ b)) (imageLens img) [mib, 11 * mib, mib, 2 * mib]).all fun b => b) &&
  decide (imageField img 255 0 = 0) &&
  lmsVerify 8 20 (beBytes 56 key.toNat) (slice img 192 1772) (img.take 192)

/-- Whether component i stands whole in the image and hashes to its digest. -/
def partValid (img : List Byte) (i : Nat) : Bool :=
  let b := (imageParts img).getD i []
  decide (b.length = (imageLens img).getD i 0) && decide (sha256 b = (imageDigests img).getD i 0)

/-- The image is valid for the device (12 R338). -/
def imageValid (key : BitVec 448) (rollbackMin : Nat) (img : List Byte) : Bool :=
  headerValid key rollbackMin img && (List.range 4).all (partValid img)

/-- The boot order at which the verification of a stored image fails (12 R342 orders 3 to 5). -/
def imageFault (key : BitVec 448) (rollbackMin : Nat) (img : List Byte) : Option Nat :=
  if headerValid key rollbackMin img = false then some 3
  else if partValid img 0 = false then some 4
  else if (partValid img 1 && partValid img 2 && partValid img 3) = false then some 5
  else none

/-- M2 to M5 (12 R343): the digests of the components as stored. -/
def imageMeasures (img : List Byte) : Vector (BitVec 256) 4 :=
  Vector.ofFn fun i => BitVec.ofNat 256 (sha256 ((imageParts img).getD i.val []))

/-- Steward firmware, cell microcode and translator as they stand in the steward firmware region (12 R342 order 8):
in that order from its start, each from a 32-byte boundary (log entry 24). -/
def regionBytes (img : List Byte) : List Byte := ((imageParts img).drop 1).flatMap (padTo 32)

end Sys2Proof.Machine
end

