-- ==== Sys2Proof/Machine/Attestation.lean ====
section
/-! DEFINITION. The verification of an update, attestation reports and the leaf state (11 R332, 12 R340 to
R348). -/

set_option Elab.async false

namespace Sys2Proof.Machine

/-- FIRMWARE_VERIFY_END of a slot (12 R340 orders 5 and 6): the slot becomes valid and pending, or stays invalid; notice
0x07. Only the slot that is not active is ever under verification. -/
def execFirmwareVerifyEnd (slot : Fin 2) (s : State) : Host.Outcome State Fault Refusal :=
  if s.test.fwBusy = false ∨ slot.val ≠ idleSlot s then .next s else
  let img := (vget s.nv.slots (idleSlot s) FwSlot.reset).image
  let ok := imageValid s.fuse.vendorKey s.nv.rollbackMin.toNat img
  let st := if ok then stOk else stSignature
  let s := s.onTest fun t => { t with fwBusy := false, fwStatus := BitVec.ofNat 8 st }
  let ver : BitVec 32 := BitVec.ofNat 32 (imageVersion img)
  let judged := fun (f : FwSlot) =>
    if ok then { f with valid := true, pending := true, failed := false, version := ver }
    else { f with valid := false, pending := false }
  .next (notify 0 0x07 st ver.toNat (s.onNv fun n => { n with slots := vmod n.slots (idleSlot s) judged }))

/-- The 296-byte body of a report (12 R348). -/
def reportBody (s : State) (number : BitVec 32) (nonce : List Byte) : List Byte :=
  let v := valueOf s 0
  ascii "VZAR" ++ leBytes 2 1 ++ zeros 2 ++ leBytes 4 number.toNat ++
  v 0x1000 6 ++ v 0x8030 1 ++ v 0x7030 1 ++ zeros 1 ++
  v 0x1000 1 ++ v 0x1000 2 ++ v 0x1000 3 ++ zeros 2 ++
  v 0x8030 2 ++ v 0x8030 3 ++ v 0x8030 4 ++ leBytes 4 s.nv.bootCount.toNat ++ nonce ++
  ((List.range 5).flatMap fun i => v 0x8010 (i + 1)) ++ beBytes 32 s.dev.chain.toNat ++ v 0x6000 1 ++ v 0x6000 2

/-- The slot an ATTEST takes: the oldest (11 R332). -/
def oldestSlot (s : State) : Nat := s.att.age.head?.getD 0

/-- The judgement of an ATTEST (11 R332, 12 R348): a leaf that a waiting report will take is not unused. -/
def judgeAttest (r : EopReq) (s : State) : Nat × List Byte :=
  (worst [when' (decide (r.len ≠ 32)) stType, when' (reservedSet r) stRange, when' (decide (s.att.fifo.length ≥ 8)) stNotReady,
     when' (decide (leavesLeft s ≤ s.att.fifo.length)) stExhausted],
   leBytes 1 (oldestSlot s) ++ leBytes 4 s.att.number.toNat)

/-- ATTEST (11 R332): the oldest slot cleared, a report number, the report waiting for its signature. -/
def execAttest (req : EopReq) (s : State) : Host.Outcome State Fault Refusal :=
  .next (eopRun opAttest req (fun _ s => judgeAttest req s)
    (onOk fun _ s =>
      let n := oldestSlot s
      let body := reportBody s s.att.number (reqData req)
      s.onAtt fun a => { a with
        slots := vmod a.slots n fun _ => ⟨true, body⟩, age := a.age.drop 1 ++ [n], fifo := a.fifo ++ [n], number := a.number + 1 }) s)

/-- A new reservation record, if the next leaf is not covered by one (12 R347). -/
def reserveLeaves (s : State) : State :=
  if s.att.q ≠ s.att.lim then s else
  let lim := min (s.att.lim + 1024) (2 ^ 30)
  let top := if s.att.q % 2 ^ 15 = 0 then topSignature s.nv.idKey (s.att.q / 2 ^ 15) else s.att.topSig
  let seqNo := (s.nv.idRing.map fun r => r.2.seqNo.toNat).foldl max 0 + 1
  let s := s.onNv fun n => { n with
    idRing := mapSet n.idRing n.idPos ⟨BitVec.ofNat 32 seqNo, lim, top⟩, idPos := (n.idPos + 1) % 32 }
  s.onAtt fun a => { a with lim := lim, topSig := top }

/-- ATTEST_SIGN_END (12 R347, R348): the oldest waiting report is signed with the next leaf. -/
def execAttestSignEnd (s : State) : Host.Outcome State Fault Refusal :=
  match s.att.fifo with
  | [] => .next s
  | n :: r =>
    if leavesLeft s = 0 then .next s else
    let s := reserveLeaves s
    let q := s.att.q
    let sign := fun (x : AttSlot) => (⟨false, x.value ++ hssSignature s.nv.idKey s.att.topSig q x.value⟩ : AttSlot)
    .next (s.onAtt fun a => { a with slots := vmod a.slots n sign, fifo := r, q := q + 1 })

end Sys2Proof.Machine
end

