-- ==== Sys2Proof/Machine/Completion.lean ====
section
/-! DEFINITION. Completion of engine commands and the end of a squash (07 R197, R209, R210). -/

set_option Elab.async false

namespace Sys2Proof.Machine

/-- The outcome an engine has reached for a command, with its entry and the bytes it landed. -/
def outcomeOf (x : Cell) (q : Nat) (seqNo : BitVec 32) : Option (QEntry × Done × BitVec 64 × Nat) :=
  let pick := fun (d : Option (QEntry × Done)) => match d with
    | some (e, o) => if e.seqNo = seqNo then some (e, o, (0 : BitVec 64), (0 : Nat)) else none
    | none => none
  match q with
  | 0 => pick x.me.done
  | 1 => pick x.ve.done
  | 2 => pick x.qe.done
  | 3 => pick x.ue.done
  | _ => x.dm.findSome? fun r => match r.done with
    | some o => if r.entry.seqNo = seqNo then some (r.entry, o, r.landed, r.landLen) else none
    | none => none

/-- A completed MMUL kept as long as a command before the next MMUL may name it (05 R146, R147). -/
def notePast (c : Nat) (e : QEntry) (st : Nat) (s : State) : State :=
  s.onCell c fun x =>
    let l := allCommands x
    let keep := fun (t : PastMmul) => l.any fun y => decide (y.1 = 1 ∧ t.seqNo < y.2.seqNo ∧ y.2.seqNo < e.seqNo)
    { x with me := { x.me with past := x.me.past.filter keep ++ [⟨e.seqNo, e.word, BitVec.ofNat 8 st⟩] } }

/-- The neighbouring cell: the next present cell of the partition, wrapping (04 R119). -/
def neighbourCell (s : State) (p c : Nat) : Nat :=
  let l := s.liveCells p
  ((l.find? fun d => decide (c < d)).orElse fun _ => l.head?).getD c

/-- The output regions of a vector-engine or update-engine command. -/
def sampledOutputs (s : State) (c q : Nat) (w : BitVec 256) : List Region :=
  if q = 1 then
    let v := veCmd w (prmAt s c (32 * fld w 92 73))
    (veRegions c (pairKind (s.cell c) v.func == some 3) v).drop 1
  else (ueRegions c (ueCmd w (prmAt s c (32 * fld w 62 43)))).drop 1

/-- DUP_MISMATCH (15 R386): the outputs become undefined, an event against each of the two cells, the record, and
the partition stops. -/
def dupMismatch (c p q : Nat) (e : QEntry) (n : Counts) (s : State) : State :=
  let d := neighbourCell s p c
  let ev := fun (a b : Nat) (s : State) => recordEvent 0x02 1 a stDup p (b * 2 ^ 32 + e.seqNo.toNat) s
  let s := if d = c then ev c c s else ev d c (ev c d s)
  completeStopping c q e stDup n 0 (voidOutputs (sampledOutputs s c q e.word) s)

/-- The record of a completed command, and its arrival (07 R197, 09 R270). -/
def recordDone (c p : Nat) (h : HeldDone) (s : State) : State :=
  let st := h.done.status.toNat
  let s := writeRecord c h.queue h.entry st h.done.counts h.done.aux.toNat s
  if h.queue = 4 ∧ (st = stOk ∨ st = stFallback) then arriveCommand p h.entry h.hash h.len s else s

/-- The commands that completed while provisional and are committed now: their records (07 R206, R209). -/
def settleHeld (c p : Nat) (s : State) : State :=
  let x := s.cell c
  let l := x.heldDone.filter fun h => !provisional x.core h.entry.seqNo
  forEach l (recordDone c p) (s.onCell c fun y => { y with
    heldDone := y.heldDone.filter fun h => provisional x.core h.entry.seqNo })

/-- COMMAND_COMPLETION (07 R197): the record of a command whose engine has reached its outcome, once every
sampled tile of it has been compared (15 R386); its counts, its arrival (09 R270) and the check points on it
(07 R209). The record and the arrival of a provisional command wait until it is committed (07 R206, R210; DEDUCED,
log entry 99). A command of a partition that has stopped, which 04 R124 lets complete, completes in the same way. -/
def execCommandCompletion (c : Fin 34) (q : Fin 5) (seqNo : BitVec 32) (s : State) :
    Host.Outcome State Fault Refusal :=
  let x := s.cell c
  match s.cellOwner c, outcomeOf x q seqNo with
  | some p, some (e, o, h, len) =>
    if x.samples.any fun t => decide (t.queue = q ∧ t.seqNo = seqNo) then .next s else
    if (q, seqNo) ∈ x.dupBad then .next (dupMismatch c p q e o.counts s) else
    let st := withFb e.fb o.status.toNat
    let s := s.onCell c fun x => dropCommands x fun q' e' => decide (q' = q.val ∧ e'.seqNo = seqNo)
    let s := if q.val = 0 ∧ fld e.word 255 252 = 1 then notePast c e st s else s
    let s := noteResidue p q e (notePushed c q seqNo o.counts s)
    let d : HeldDone := ⟨q.val, e, ⟨BitVec.ofNat 8 st, o.counts, o.aux⟩, h, len⟩
    let s := if provisional x.core seqNo then s.onCell c fun x => { x with heldDone := x.heldDone ++ [d] } else recordDone c p d s
    .next (settleHeld c p (resolve c q seqNo o.counts s))
  | _, _ => .next s

/-- SQUASH_RESUME (07 R210 order 7): the snapshot restored, execution at the fall-back target. -/
def execSquashResume (c : Fin 34) (s : State) : Host.Outcome State Fault Refusal :=
  match (s.cell c).core.run, s.works c with
  | .squashing cp, some _ =>
    .next (s.onCore c fun k => { k with
      g := cp.regs, cw := cp.cw, cwT := cp.cwT, gate := cp.gate, seqNo := cp.seqNo, pc := cp.fallback, run := .running })
  | _, _ => .next s

end Sys2Proof.Machine
end

