-- ==== Sys2Proof/Machine/MatrixEngine.lean ====
section
/-! DEFINITION. The matrix engine: MMUL and HPRELOAD as they start, and the slot loop beat by beat (02 R51 to
R65, 04 R99 to R129). -/

set_option Elab.async false

namespace Sys2Proof.Machine


/-- k_droop(d) (14 R367, R372). -/
def kDroop (s : State) (d : Nat) : Nat := if (vget s.power.rails d Rail.reset).droop then 16 else 64
/-- k_alert(d) (14 R367, R374, R377). -/
def kAlert (s : State) (d : Nat) : Nat :=
  if s.power.lowest || s.power.returning || (vget s.power.rails d Rail.reset).hold then 8 else 64
/-- The effective issue value of a cell (14 R367). -/
def effectiveK (s : State) (c : Nat) : Nat :=
  min s.power.kCap (min (kDroop s (dieOf c)) (kAlert s (dieOf c)))

/-- Whether the slot at a frame position is issued under a limiter value (02 R61). -/
def slotIssued (k j : Nat) : Bool := decide ((j + 1) * k / 64 - j * k / 64 = 1)

/-- A tile that a command names in its cell's store (04 R106). -/
def MeCmd.tile (m : MeCmd) (bs : List Byte) (tag : Nat) : HeldTile :=
  { fmt := m.hFmt, kind := BitVec.ofNat 2 m.hKind, kLen := m.kLen, nCols := m.n, bytes := bs,
    tags := List.replicate (match fmtOf m.hFmt with | some f => multRows f m.kLen | none => 0) (BitVec.ofNat 2 tag) }

/-- A tile was loaded with a command's H_FMT, H_KIND, K_LEN and N_M1 (04 R110). -/
def sameTile (t : HeldTile) (m : MeCmd) : Bool :=
  decide (t.fmt = m.hFmt) && decide (t.kind.toNat = m.hKind) && decide (t.kLen = m.kLen) && decide (t.nCols = m.n)

/-- Whether a held tile's own fields are in range: its reduction length against its blocks, rotation and the
multipliers, and the compensated-pair rule (04 R100, R104, R110). -/
def heldOk (m : MeCmd) (f : Fmt) : Bool :=
  decide (m.hKind ≤ 1) && decide (1 ≤ m.kLen) && decide (m.kLen ≤ 2048) && decide (m.kLen % f.blk = 0) &&
  decide (m.kLen % f.rot = 0) && decide (m.kLen ≤ 512 * f.pack) && (decide (m.hKind = 0) || f.cpOk)

/-- The conditions of 04 R110 that need no tile contents; true when one holds. -/
def mmulRange (x : Cell) (m : MeCmd) : Bool :=
  match fmtOf m.hFmt, fmtOf m.sFmt with
  | some h, some f =>
    decide (m.opc ≠ 1) || decide (m.rsvd ≠ 0) || decide (m.outKind > 2) || (m.acc && decide (m.outKind ≠ 0)) ||
    decide (m.hold > 2) || decide (m.sKind > 2) || (m.sSrc && decide (m.sAddr ≥ 16)) ||
    decide (h.rot ≠ f.rot) || decide (h.blk % m.run ≠ 0) || decide (f.blk % m.run ≠ 0) ||
    !heldOk m h || decide (m.kLen % m.run ≠ 0) || decide (m.kLen % f.blk ≠ 0) ||
    (decide (m.sKind ≠ 0) && !f.cpOk) || (decide (m.sKind = 2) && decide (h.baseW = 3)) ||
    (decide (m.hold = 0) && decide (m.hAddr + heldBytes m > cellSize)) ||
    (!m.sSrc && decide (32 * m.sAddr + streamBytes m > cellSize)) ||
    decide (m.outAddr + outBytes m > cellSize) ||
    (decide (m.hold = 1) && (match x.me.cur with | some t => !sameTile t m | none => true)) ||
    (decide (m.hold = 2) && (match x.me.pre with | some p => !sameTile p.tile m | none => true))
  | _, _ => true

/-- An outcome of the matrix engine: issued and stall beats in AUX (07 R197). -/
def endMe (c : Nat) (e : QEntry) (status : Nat) (n : Counts) (issued stalls : Nat) (s : State) : State :=
  s.onCell c fun x => { x with me := { x.me with
    run := none, done := some (e, mkDone status n (sat32 issued * 2 ^ 32 + sat32 stalls)) } }

/-- A command begun: its load beats, or none when it only waits to run its beats; the planes as it found them (04 R110)
and the tag its beat 0 expects (04 R122). -/
def startMe (x : Me) (e : QEntry) (load : Nat) (bad : Bool) (tag : Option (BitVec 2)) : MeRun :=
  { MeRun.reset with entry := e, load := load, loadTotal := load, bad := bad, saved := (x.cur, x.pre), tag := tag }

/-- HOLD LOAD: the tile read and checked; a preload is discarded (04 R110 to R112, R125). A tile that breaks 03 R85
ends the command with the load beat that finds it, and leaves the planes and the preload (log entry 38). -/
def loadTile (c : Nat) (e : QEntry) (m : MeCmd) (s : State) : State :=
  match ownRead c m.hAddr (heldBytes m) s with
  | (none, s) => s
  | (some bs, s) =>
    let t := m.tile bs (cmdTag 0 e.word)
    if scaleOk (tileScale bs) = false then endMe c e stRange Counts.reset 0 0 s else
    match brokenRow t with
    | some r => s.onCell c fun x => { x with me := { x.me with run := some (startMe x.me e (r + 1) true none) } }
    | none =>
      let l := t.tags.length * (if twoPlanes t then 2 else 1)
      let g := BitVec.ofNat 2 (cmdTag 0 e.word)
      s.onCell c fun x => { x with me := { x.me with
        cur := some t, pre := none, run := some (startMe x.me e l false (some g)) } }

/-- Load beats of a SWAP: the head rows the loader has not filled, and the tail plane (04 R112). -/
def swapLoad (p : Preload) : Nat :=
  p.tile.tags.length - p.filled + (if p.needsTail then p.tile.tags.length else 0)

/-- HOLD SWAP: the pending preload becomes current, unless it breaks 03 R85 (04 R110 to R112). Its TSCALE is judged
first and leaves the preload pending (log entry 38); a preload the loader has marked invalid is discarded at once;
one whose break is in the rows still to fill is discarded after its load, which the break does not stop (04 R111). -/
def swapTile (c : Nat) (e : QEntry) (p : Preload) (s : State) : State :=
  if scaleOk (tileScale p.tile.bytes) = false then endMe c e stRange Counts.reset 0 0 s else
  match brokenRow p.tile with
  | some r =>
    if r < p.filled then
      endMe c e stRange Counts.reset 0 0 (s.onCell c fun x => { x with me := { x.me with pre := none } })
    else s.onCell c fun x => { x with me := { x.me with
      pre := none, run := some (startMe x.me e (swapLoad p) true none) } }
  | none =>
    s.onCell c fun x => { x with me := { x.me with
      cur := some p.tile, pre := none, run := some (startMe x.me e (swapLoad p) false (some p.tag)) } }

/-- The TSCALE prefix of a tile streamed from the cell's own store, read before beat 0 (04 R110). -/
def streamScaleBad (c : Nat) (m : MeCmd) (s : State) : Bool × State :=
  if m.sSrc then (false, s) else
  match ownRead c (32 * m.sAddr) 32 s with
  | (some b, s) => (!scaleOk (tileScale b), s)
  | (none, s) => (false, s)

/-- The matrix engine of a cell is idle. -/
def Me.idle (m : Me) : Bool := m.run.isNone && m.done.isNone

/-- MMUL (04 R110): the command at the head of the matrix-engine queue, once eligible, is checked and its held
tile taken per HOLD; its beats follow slot by slot. A reserved opcode completes with OUT_OF_RANGE. -/
def execMmul (c : Fin 34) (s : State) : Host.Outcome State Fault Refusal :=
  match eligible s c 0 with
  | some (_, e) =>
    let m := meCmd e.word
    if m.opc = 2 ∨ (s.cell c).me.idle = false then .next s else
    let s := popQueue c 0 s
    if mmulRange (s.cell c) m then .next (endMe c e stRange Counts.reset 0 0 s) else
    let r := streamScaleBad c m s
    let s := r.2
    if (s.works c).isNone then .next s else
    if r.1 then .next (endMe c e stRange Counts.reset 0 0 s) else
    if m.hold = 0 then .next (loadTile c e m s)
    else if m.hold = 1 then
      .next (s.onCell c fun x => { x with me := { x.me with run := some (startMe x.me e 0 false none) } })
    else match (s.cell c).me.pre with
      | some p => .next (swapTile c e p s)
      | none => .next s
  | none => .next s

/-- The fields HPRELOAD uses; all others must be zero (04 R111). -/
def preloadFields : BitVec 256 := BitVec.ofNat 256
  (0xF * 2 ^ 252 + 0xFFFF * 2 ^ 232 + 0xFFFFFFFF * 2 ^ 200 + 0xFFFFF * 2 ^ 148 + 3 * 2 ^ 106 + 0xFFF * 2 ^ 92 + 0x1FF * 2 ^ 83)

/-- The conditions under which HPRELOAD is OUT_OF_RANGE (04 R111; its own fields: log entry 39). -/
def preloadRange (x : Cell) (w : BitVec 256) (m : MeCmd) : Bool :=
  decide (w &&& ~~~preloadFields ≠ 0) || x.me.pre.isSome ||
  (match x.me.cur with | some t => twoPlanes t | none => false) ||
  (match fmtOf m.hFmt with
    | some f => decide (f.baseW = 3) || decide (m.hKind ≠ 0) || !heldOk m f || decide (m.hAddr + heldBytes m > cellSize)
    | none => true)

/-- HPRELOAD (04 R111): a held tile for the idle plane; it completes with OK as it leaves the queue, and the
loader fills its rows in the issued beats of the KEEP commands that follow. -/
def execHpreload (c : Fin 34) (s : State) : Host.Outcome State Fault Refusal :=
  match eligible s c 0 with
  | some (_, e) =>
    let m := meCmd e.word
    if m.opc ≠ 2 ∨ (s.cell c).me.idle = false then .next s else
    let s := popQueue c 0 s
    if preloadRange (s.cell c) e.word m then .next (endMe c e stRange Counts.reset 0 0 s) else
    match ownRead c m.hAddr (heldBytes m) s with
    | (none, s) => .next s
    | (some bs, s) =>
      let t := m.tile bs (cmdTag 0 e.word)
      let p : Preload :=
        { tile := t, filled := 0, invalid := (brokenRow t).isSome, needsTail := twoPlanes t,
          tag := BitVec.ofNat 2 (cmdTag 0 e.word) }
      .next (endMe c e stOk Counts.reset 0 0 (s.onCell c fun x => { x with me := { x.me with pre := some p } }))
  | none => .next s

/-- What the beats of a running command need: its fields, formats, current tile's columns, tensor scales. -/
structure MeCtx where
  m    : MeCmd
  hf   : Fmt
  sf   : Fmt
  cols : List (List DBlk)
  t    : Dy × Bool
  deriving Repr

/-- The tensor scale of the streamed tile: from the stream, kept at the head of row 0's bytes, or from the
store. -/
def streamScale (c : Nat) (m : MeCmd) (r : MeRun) (s : State) : BitVec 32 :=
  if m.sSrc then tileScale ((r.rows.head?.map MeRow.bytes).getD [])
  else tileScale (s.mem.readN (cellBase c + 32 * m.sAddr) 32)

def meCtx (s : State) (c : Nat) (r : MeRun) : Option MeCtx :=
  let m := meCmd r.entry.word
  match fmtOf m.hFmt, fmtOf m.sFmt, (s.cell c).me.cur with
  | some h, some f, some t =>
    match t.blks with
    | some cols =>
      some ⟨m, h, f, cols, rne f32 (Exact.mul (value f32 (tileScale t.bytes).toNat) (value f32 (streamScale c m r s).toNat))⟩
    | none => none
  | _, _, _ => none

/-- Bytes of one row record in a run's rows: row 0 of a streamed tile carries the 32-byte prefix before it. -/
def rowOffset (m : MeCmd) (i : Nat) : Nat := if m.sSrc ∧ i = 0 then 32 else 0

/-- The blocks of fetched row i. -/
def fetchedBlks (k : MeCtx) (i : Nat) (r : MeRow) : Option (List DBlk) :=
  rowBlks k.sf k.m.sKind k.m.kLen (r.bytes.drop (rowOffset k.m i))

/-- Vectors of the rows fetched so far. -/
def vectorsOf (r : MeRun) : Nat := sumN (r.rows.map MeRow.beats)
/-- All M rows have been fetched. -/
def allFetched (m : MeCmd) (r : MeRun) : Bool := decide (r.rows.length = m.m)
/-- The row to fetch at a beat: its F_m is this beat (04 R121). -/
def fetchDue (m : MeCmd) (r : MeRun) : Bool := !allFetched m r && decide (vectorsOf r = r.beat)

/-- Last consumption beat c_m of a fetched row (04 R120). -/
def lastBeat (m : MeCmd) (w : MeRow) : Nat := m.stOff + w.first + w.beats - 1

/-- Bytes of the next row record, with the prefix before row 0 of a stream. -/
def nextBytes (k : MeCtx) (r : MeRun) : Nat := rowOffset k.m r.rows.length + rowSize k.sf k.m.sKind k.m.kLen

/-- A run changed. -/
def onRun (c : Nat) (f : MeRun → MeRun) (s : State) : State :=
  s.onCell c fun x => { x with me := { x.me with run := x.me.run.map f } }

/-- The next row record fetched (04 R121): its b_m follows from its blocks; a row that breaks 03 R85 is taken
as one beat and stops the command a beat later. -/
def fetchRow (c : Nat) (k : MeCtx) (r : MeRun) (s : State) : State :=
  let n := nextBytes k r
  let i := r.rows.length
  let got : Option (List Byte) × State :=
    if k.m.sSrc then
      (some ((streamOf (s.cell c) k.m).bytes.take n), onStream c k.m.sAddr (fun w => { w with bytes := w.bytes.drop n }) s)
    else ownRead c (32 * k.m.sAddr + 32 + i * rowSize k.sf k.m.sKind k.m.kLen) n s
  match got with
  | (none, s) => s
  | (some bs, s) =>
    let w : MeRow := { first := r.beat, beats := 1, passes := 1, bytes := bs, landed := false }
    let w := match fetchedBlks k i w with
      | some row => let b := rowBeats k.hf k.sf k.m.n k.cols row; { w with passes := b.1, beats := b.2 }
      | none => w
    onRun c (fun r => { r with rows := r.rows ++ [w] }) s

/-- The upsets of an accumulator in a run (04 R126). -/
def upsetOf (r : MeRun) (row col j a b : Nat) : Int :=
  (r.upsets.filter fun u => decide (u.row = row ∧ u.col = col ∧ u.run = j ∧ u.a = a ∧ u.b = b)).foldl
    (fun t u => t + u.delta) 0

/-- The residue comparison of a row's promotions raises a mismatch (04 R126): only an upset can make it. -/
def residueFault (k : MeCtx) (r : MeRun) (i : Nat) (w : MeRow) : Bool :=
  k.m.rsd && (match fetchedBlks k i w with
    | none => false
    | some row => r.upsets.any fun u => decide (u.row = i) &&
        !residueOk k.hf k.sf k.m.run k.cols row
          ((r.upsets.filter fun v => decide (v.row = i ∧ v.run = u.run ∧ v.a = u.a ∧ v.b = u.b)).foldl
            (fun t v => t + v.delta) 0) u.run u.a u.b)

/-- The array finds something else than the tag it expects, or the empty marker, at a consumption beat
(04 R122). -/
def arrayFault (k : MeCtx) (r : MeRun) : Bool :=
  let t := r.beat
  let lam := stagingLatency k.hf k.sf
  let consumes := decide (k.m.stOff ≤ t) && (!allFetched k.m r || decide (t - k.m.stOff < vectorsOf r))
  let holds := decide (lam ≤ t) && (!allFetched k.m r || decide (t - lam < vectorsOf r))
  consumes && (!holds || decide ((t - lam) % 4 ≠ (t - k.m.stOff) % 4))

/-- Tag of a row's result: its last consumption index modulo 4 (04 R122). -/
def rowTag (w : MeRow) : Nat := (w.first + w.beats - 1) % 4

/-- The row whose result the writer expects at this beat, and the row in the promotion path's output. -/
def writerRow (k : MeCtx) (r : MeRun) : Option (MeRow × Nat) :=
  r.rows.zipIdx.find? fun w => decide (lastBeat k.m w.1 + k.m.resOff = r.beat)
def promotedRow (k : MeCtx) (r : MeRun) : Option (MeRow × Nat) :=
  r.rows.zipIdx.find? fun w => decide (lastBeat k.m w.1 + drainLatency k.m.run k.m.kLen k.m.acc = r.beat)

/-- The writer finds the empty marker or another tag (04 R122). -/
def writerFault (k : MeCtx) (r : MeRun) : Bool :=
  match writerRow k r with
  | none => false
  | some w => match promotedRow k r with
    | some v => decide (rowTag v.1 ≠ rowTag w.1)
    | none => true

/-- At beat 0 the rows of the current planes carry the tag of the command that loaded them: the MMUL's own under
LOAD, the HPRELOAD's under SWAP, one common tag under KEEP (04 R122). -/
def planeFault (x : Cell) (r : MeRun) : Bool :=
  decide (r.beat = 0) && (match x.me.cur with
    | some t => !t.tags.all fun g => decide (some g = (match r.tag with | some h => some h | none => t.tags.head?))
    | none => true)

/-- A row found at its second fetch stage to break 03 R85 (04 R125). -/
def rowBroken (k : MeCtx) (r : MeRun) : Bool :=
  r.rows.zipIdx.any fun w => decide (w.1.first + 1 = r.beat) && (fetchedBlks k w.2 w.1).isNone

/-- Start of an output row. -/
def outRow (m : MeCmd) (i : Nat) : Nat := m.outAddr + i * rowPad (esize m.outKind) m.n

/-- The prior values of a row (04 R107). -/
def priorsOf (k : MeCtx) (i : Nat) (bs : List Byte) : List (Option Nat) :=
  if k.m.acc then (List.range k.m.n).map fun j => some (leNat (slice bs (4 * j) 4)) else (fun _ => []) i

/-- The result in the promotion path written to the row the writer is at (04 R107, R114, R120). -/
def landRow (c : Nat) (k : MeCtx) (r : MeRun) (dst src : Nat) (w : MeRow) (s : State) : State :=
  match ownRead c (outRow k.m dst) (if k.m.acc then 4 * k.m.n else 0) s, fetchedBlks k src w with
  | (some pb, s), some row =>
    let o := rowResult k.hf k.sf k.m.run k.m.kLen k.m.outKind k.t.1 (priorsOf k dst pb)
      (fun col j a b => upsetOf r src col j a b) k.cols row
    let first := r.rows.all fun v => !v.landed
    let cnt : Counts := ⟨o.2.1 + (if first && k.t.2 then 1 else 0), o.2.2, 0⟩
    (ownWrite c (outRow k.m dst) (rowBytes k.m.outKind o.1)
      (onRun c (fun r => { r with
        rows := r.rows.modify dst fun v => { v with landed := true }, counts := r.counts.add cnt }) s)).2
  | (_, s), _ => s

/-- Output values already written overwritten with zero (04 R123, R125). -/
def zeroLanded (c : Nat) (m : MeCmd) (r : MeRun) (s : State) : State :=
  forEach (r.rows.zipIdx.filter fun w => w.1.landed)
    (fun w s => (ownWrite c (outRow m w.2) (zeros (rowPad (esize m.outKind) m.n)) s).2) s

/-- Saturations of the rows that passed their second fetch stage at or before a beat (04 R129). -/
def streamSat (k : MeCtx) (r : MeRun) (t : Nat) : Nat :=
  sumN ((r.rows.zipIdx.filter fun w => decide (w.1.first + 1 ≤ t)).map fun w =>
    match fetchedBlks k w.2 w.1 with | some row => satCount row | none => 0)

/-- Saturations of the held planes this command loaded or made current (04 R129). -/
def heldSat (k : MeCtx) : Nat := if k.m.hold = 1 then 0 else satCount k.cols.flatten

/-- Rows in which the awn lane exceeds the passes, their first vector consumed at or before a beat (04 R129). -/
def awnExcess (k : MeCtx) (r : MeRun) (t : Nat) : Nat :=
  (r.rows.filter fun w => decide (w.beats > w.passes ∧ k.m.stOff + w.first ≤ t)).length

/-- The counts of a command that ends with beat t (04 R129). -/
def finalCounts (k : MeCtx) (r : MeRun) (t : Nat) : Counts :=
  ⟨r.counts.sat + heldSat k + streamSat k r t, r.counts.flu, awnExcess k r t⟩

/-- SCHED_FAULT and RESIDUE_MISMATCH (04 R124, R127): the whole output region becomes undefined, the record is
written and the partition stops. -/
def stopMe (c p : Nat) (k : MeCtx) (r : MeRun) (status : Nat) (events : List Nat) (s : State) : State :=
  let n := finalCounts k r r.beat
  let s := forEach events (fun st s => stopEvent c p r.entry.seqNo st s) s
  let s := freeBytes (cellBase c + k.m.outAddr) (outBytes k.m) s
  completeStopping c 0 r.entry status n (sat32 (r.issued + 1) * 2 ^ 32 + sat32 r.stalls) s

/-- A slot that is a stall: the command waits for its stream (02 R51, 04 R123). -/
def stallSlot (c : Nat) (s : State) : State := onRun c (fun r => { r with stalls := r.stalls + 1 }) s

/-- The loader fills one row of a pending preload (04 R111). -/
def loaderStep (c : Nat) (s : State) : State :=
  s.onCell c fun x => { x with me := { x.me with pre := x.me.pre.map fun p =>
    { p with filled := min p.tile.tags.length (p.filled + 1) } } }

/-- The beat after its checks: the landing, then the end of the command or the next beat (04 R120). -/
def advanceBeat (c : Nat) (k : MeCtx) (s : State) : State :=
  match (s.cell c).me.run with
  | none => s
  | some r =>
    let s := onRun c (fun r => { r with before := r.counts }) s
    let s := match writerRow k r, promotedRow k r with
      | some w, some v => landRow c k r w.2 v.2 v.1 s
      | _, _ => s
    match (s.cell c).me.run with
    | none => s
    | some r =>
      let s := if k.m.hold = 1 then loaderStep c s else s
      if allFetched k.m r && decide (r.beat + 1 ≥ k.m.stOff + vectorsOf r + k.m.resOff) then
        endMe c r.entry stOk (finalCounts k r r.beat) (r.issued + 1) r.stalls s
      else onRun c (fun r => { r with beat := r.beat + 1, issued := r.issued + 1 }) s

/-- The checks of a beat, the highest status first (00 R17; 04 R122, R125, R126). A broken row's beat is an issued
beat: the loader takes its step in it (04 R111). What the stream still holds after any early end stays for its next
reader (log entry 91). -/
def checkBeat (c p : Nat) (k : MeCtx) (s : State) : State :=
  match (s.cell c).me.run with
  | none => s
  | some r =>
    let residue := r.rows.zipIdx.any fun w => decide (lastBeat k.m w.1 + 1 = r.beat) && residueFault k r w.2 w.1
    let sched := planeFault (s.cell c) r || arrayFault k r || writerFault k r
    let events := (if residue then [stResidue] else []) ++ (if sched then [stSched] else [])
    if residue || sched then stopMe c p k r (if residue then stResidue else stSched) events s
    else if rowBroken k r then
      endMe c r.entry stRange (finalCounts k r r.beat) (r.issued + 1) r.stalls
        (zeroLanded c k.m r (if k.m.hold = 1 then loaderStep c s else s))
    else advanceBeat c k s

/-- A command whose stream failed (04 R123): what it wrote is zero, the mark is cleared. Its last beat is the stopping
beat: the clamps of the rows landed before it count (04 R129). -/
def failStream (c : Nat) (k : MeCtx) (r : MeRun) (s : State) : State :=
  let s := onStream c k.m.sAddr (fun w => { w with failed := false }) (zeroLanded c k.m r s)
  endMe c r.entry stRange
    (if r.beat = 0 then Counts.reset else finalCounts k { r with counts := r.before } (r.beat - 1)) r.issued r.stalls s

/-- A hold of the operand path that can arise for the partition's streams (02 R65): refresh activity on its own
stacks, or a retry on a link of the device, on the bridge of one of its stacks, or on a short ring hop. -/
def holdInForce (s : State) (p : Nat) : HoldCause → Bool
  | .refresh st _ => decide (s.stackOwner st = some p)
  | .link (.link _) => true
  | .link (.bridge st _) => decide (s.stackOwner st = some p)
  | .hop port => (s.port (portNum port)).up && (s.port (portNum port)).short

/-- A slot the limiter issues at or after beat 0 (02 R51, R65, R66; 04 R121, R123): a stall while a hold keeps the row
it fetches from arriving, or while nothing is to feed the stream; no slot while a command that feeds the stream has
yet to run, a wait for a command and not for an operand (02 R67; log entry 92); otherwise one beat. A streamed tile's
prefix is checked before beat 0, and a bad TSCALE leaves the planes as the command found them (04 R110). -/
def issueBeat (c p : Nat) (held : Bool) (k : MeCtx) (r : MeRun) (s : State) : State :=
  let w := streamOf (s.cell c) k.m
  if k.m.sSrc ∧ w.failed = true ∧ allFetched k.m r = false then failStream c k r s
  else if k.m.sSrc ∧ fetchDue k.m r = true ∧ (held = true ∨ w.bytes.length < nextBytes k r) then
    stallSlot c s
  else if k.m.sSrc ∧ r.beat = 0 ∧ scaleOk (tileScale w.bytes) = false then
    endMe c r.entry stRange Counts.reset r.issued r.stalls
      (s.onCell c fun x => { x with me := { x.me with cur := r.saved.1, pre := r.saved.2 } })
  else
    let s := if fetchDue k.m r then fetchRow c k r s else s
    match (s.cell c).me.run with
    | some r => (match meCtx s c r with | some k => checkBeat c p k s | none => s)
    | none => s

/-- A slot the limiter issues: a load beat, or a beat (04 R112, R120). -/
def issueSlot (c p : Nat) (held : Bool) (r : MeRun) (s : State) : State :=
  if r.load > 0 then
    if r.load = 1 ∧ r.bad = true then endMe c r.entry stRange Counts.reset (r.issued + 1) r.stalls s
    else onRun c (fun r => { r with load := r.load - 1, issued := r.issued + 1 }) s
  else match meCtx s c r with
    | some k => issueBeat c p held k r s
    | none => s

/-- An upset of an accumulator that its row's promotion has not yet read (04 R126). -/
def takeUpset (c : Nat) (u : Upset) (s : State) : State :=
  match (s.cell c).me.run with
  | none => s
  | some r =>
    let m := meCmd r.entry.word
    let late := match r.rows[u.row]? with | some w => decide (lastBeat m w + 1 < r.beat) | none => false
    if late = true ∨ u.col ≥ 512 ∨ u.run ≥ m.kLen / m.run then s else onRun c (fun r => { r with upsets := r.upsets ++ [u] }) s

/-- The command in progress waits for a command that is to feed its stream (02 R67). -/
def awaitsFeeder (s : State) (c : Nat) (held : Bool) : Bool :=
  match (s.cell c).me.run with
  | none => false
  | some r =>
    match meCtx s c r with
    | none => false
    | some k =>
      let w := streamOf (s.cell c) k.m
      decide (r.load = 0) && k.m.sSrc && !w.failed && fetchDue k.m r && !held &&
      decide (w.bytes.length < nextBytes k r) && (feederOf (s.cell c) k.m.sAddr).isSome

/-- The limiter value of a slot (02 R61, R62): taken at frame position 0. A request that changes it at that very
instant, between the cell's last slot and this one and in no other interval count, may be put off (`late`) to the next
frame; every earlier one is in force. -/
def slotK (s : State) (c : Nat) (late : Bool) : Nat :=
  let x := s.cell c
  if x.framePos ≠ 0 then x.k else
  match x.kSeen with
  | some (k, t) => if late = true ∧ t = s.dev.interval then k else effectiveK s c
  | none => effectiveK s c

/-- SLOT_BEGIN (02 R51 to R53, R61, R62; 04 R110 to R127): one slot of a cell's loop; `held` is a hold of 02 R65 on
the operand path, `upset` an upset of a narrow accumulator. A paused loop performs no slot, and neither does a loop whose
command waits for a command to feed its stream (`awaitsFeeder`; log entry 92). While an eligible command stands at the
queue's head and has not begun, the loop cycles (02 R52): such a slot, issued or not, advances the frame position and is
counted in no command (DESIGN CHOICE, log entry 92). -/
def execSlotBegin (c : Fin 34) (held : Option HoldCause) (late : Bool) (upset : Option Upset) (s : State) :
    Host.Outcome State Fault Refusal :=
  match s.works c with
  | none => .next s
  | some p =>
    let x := s.cell c
    let hold := match held with | some h => holdInForce s p h | none => false
    if (x.me.run.isNone ∧ (eligible s c 0).isNone) ∨ awaitsFeeder s c hold = true then .next s else
    let j := x.framePos.val
    let k := slotK s c late
    let seen := some (effectiveK s c, s.dev.interval)
    let s := s.onCell c fun x => { x with framePos := x.framePos + 1, k := k, kSeen := seen }
    let s := match upset with | some u => takeUpset c u s | none => s
    if slotIssued k j then
      match (s.cell c).me.run with
      | some r => .next (issueSlot c p hold r s)
      | none => .next s
    else .next s

end Sys2Proof.Machine
end

