-- ==== Sys2Proof/Machine/Integrity.lean ====
section
/-! DEFINITION. Sampled duplicate execution and the in-service tests of a cell and of a stack channel (15 R384 to
R393). -/

set_option Elab.async false

namespace Sys2Proof.Machine

/-- The neighbour's hash of a sampled tile (15 R385): recomputed from the captured inputs with the neighbour's loaded
tables and the partition's seed. -/
def recomputed (s : State) (p d : Nat) (t : Sample) : BitVec 64 :=
  contentHash (if t.queue = 1 then
    let v := veCmd t.word t.prm.toNat
    tileBytes (kernelRow v (tableOf (s.cell d) v) t.tile (kinOf t.ins))
   else
    let u := ueCmd t.word t.prm.toNat
    ueTileBytes u (ueElems (s.part p).seed u t.tile t.ins))

/-- The awn lane of a cell holds the neighbour's spare slots: an MMUL is in progress whose held tile, or a row it has
fetched, has awn entries (04 R119; log entry 94). -/
def awnHolds (s : State) (c : Nat) : Bool :=
  match (s.cell c).me.run with
  | none => false
  | some r =>
    match meCtx s c r with
    | none => false
    | some k => (k.cols.any fun l => l.any fun b => !b.awn.isEmpty) ||
        (r.rows.zipIdx.any fun w => match fetchedBlks k w.2 w.1 with
          | some l => l.any fun b => !b.awn.isEmpty
          | none => false)

/-- The engines of a cell that waited for room in the neighbour's buffer go on (15 R388). -/
def resumeEngines (c p : Nat) (s : State) : State := resumeUe c p (resumeVe c s)

/-- A comparison whose hashes differ is kept until every sampled tile of its command has been compared, and the command
then completes with DUP_MISMATCH (15 R386): here, if its engine has finished with it, else at its completion. -/
def noteMismatch (c p : Nat) (t : Sample) (s : State) : State :=
  let s := s.onCell c fun x => { x with dupBad := x.dupBad ++ [(t.queue, t.seqNo)] }
  let x := s.cell c
  match outcomeOf x t.queue t.seqNo with
  | some (e, o, _, _) =>
    if x.samples.any fun y => decide (y.queue = t.queue ∧ y.seqNo = t.seqNo) then s
    else dupMismatch c p t.queue e o.counts s
  | none => s

/-- DUP_COMPARE (15 R385, R386, R388): the neighbour recomputes the oldest sampled tile of a cell and the hashes are
compared, unless the awn lane holds the neighbour's slots; `upset` is the difference an upset of either computation
makes. The room it leaves lets a waiting engine go on. -/
def execDupCompare (c : Fin 34) (upset : BitVec 64) (s : State) : Host.Outcome State Fault Refusal :=
  match s.works c, (s.cell c).samples with
  | some p, t :: r =>
    if awnHolds s c then .next s else
    let same := decide (t.hash = recomputed s p (neighbourCell s p c) t ^^^ upset)
    let s := s.onCell c fun x => { x with samples := r }
    let s := if same then s else noteMismatch c p t s
    .next (if (s.works c).isSome then resumeEngines c p s else s)
  | _, _ => .next s

/-- CELL_PROOF (15 R392): a fenced cell's proof begins. -/
def execCellProof (req : EopReq) (s : State) : Host.Outcome State Fault Refusal :=
  .next (eopWrite (onlyEntry 0x7020 1) req
    (fun s _ v => worst [when' (decide (v > 33) || !flag s.fuse.enabled v || !flag s.dev.fenced v) stRange,
      when' s.test.proof.isSome stNotReady])
    (fun _ v _ s => s.onTest fun t => { t with proof := some (Fin.ofNat 34 v) }) s)

/-- CELL_PROOF_END (15 R391, R392): the cell store is cleared; a pass counts, a failed step ends the cell's way back
to service; event and notice 0x09. -/
def execCellProofEnd (failed : Option (BitVec 40)) (s : State) : Host.Outcome State Fault Refusal :=
  match s.test.proof with
  | none => .next s
  | some n =>
    let s := { s.onTest (fun t => { t with proof := none }) with mem := s.mem.clear (cellBase n) cellSize }
    let unit := 0x010000 + n.val
    match failed with
    | none =>
      let s := s.onUnit 1 n fun u => { u with proofPasses := satInc u.proofPasses }
      .next (notify 0 0x09 stOk unit (recordEvent 0x06 1 n stOk 15 0 s))
    | some step =>
      let s := s.onUnit 1 n fun u => { u with proofPasses := 0 }
      .next (notify 0 0x09 stResidue unit (recordEvent 0x05 1 n stResidue 15 step.toNat s))

/-- CHANNEL_TEST (15 R393): a stack in [12:8], a channel in [3:0]. -/
def execChannelTest (req : EopReq) (s : State) : Host.Outcome State Fault Refusal :=
  .next (eopWrite (onlyEntry 0x7020 2) req
    (fun s _ v => worst [when' (decide (bits v 15 13 ≠ 0 ∨ bits v 7 4 ≠ 0) || !flag s.dev.inService (bits v 12 8)) stRange,
      when' s.test.chan.isSome stNotReady])
    (fun _ v _ s => s.onTest fun t => { t with chan := some (bits v 12 8, bits v 3 0) }) s)

/-- Words of a channel that are not valid codewords, in ascending order. -/
def channelErrs (s : State) (st ch : Nat) : List Nat :=
  (errWords s (stackBase st) (2 ^ 33)).filter fun w => decide ((dramPos st (32 * w - stackBase st) false).chan = ch)

/-- CHANNEL_TEST_END (15 R393): every word has been read under R247 and rewritten; `bad` are the stack-local
offsets whose complement did not come back: their rows are permanent, and so is the channel. A test whose channel a
retrain holds is paused and has not ended (R395). -/
def execChannelTestEnd (bad : List Nat) (s : State) : Host.Outcome State Fault Refusal :=
  match s.test.chan with
  | none => .next s
  | some (st, ch) =>
    if channelHeld s st ch then .next s else
    let s := s.onTest fun t => { t with chan := none }
    let s := forEach (channelErrs s st ch) (fun w s => (checkWord true w s).2) s
    let unit := 0x020000 + st * 256 + ch
    match sortBy (fun a b => decide (a ≤ b)) (bad.filter fun x => decide (x < 2 ^ 33 ∧ (dramPos st x false).chan = ch)) with
    | [] => .next (notify 0 0x09 stOk unit (recordEvent 0x15 2 (st * 16 + ch) stOk 15 0 s))
    | x :: r =>
      let s := forEach (x :: r) (fun y s => addSoft false (dramPos st y false) s) s
      .next (notify 0 0x09 stResidue unit (recordEvent 0x14 2 (st * 16 + ch) stResidue 15 x s))

end Sys2Proof.Machine
end

