-- ==== Sys2Proof/Machine/Partitions.lean ====
section
/-! DEFINITION. Partition keys, definitions and resets (11 R316 to R321, 13 R352 to R366). -/

set_option Elab.async false

namespace Sys2Proof.Machine

/-- The key a KEY_WRITE carries, unwrapped under the writing session (11 R321). -/
def unwrapped (r : EopReq) (x : Option Session) : BitVec 256 :=
  match x with
  | none => 0
  | some y => BitVec.ofNat 256 (reqBe r) ^^^
      BitVec.ofNat 256 (beNat (hmac y.key (ascii "VZ4-WRAP" ++ slice (reqHeader opWrite r) 3 6)))

/-- The partition a write of an entry by partition names. -/
def reqPart (r : EopReq) : Nat := r.sub.toNat - 1

/-- KEY_WRITE (11 R320, R321; 13 R355): the key replaced, every other session of the partition closed. -/
def execKeyWrite (req : EopReq) (s : State) : Host.Outcome State Fault Refusal :=
  let p := reqPart req
  let k := unwrapped req (sessionOf s req.session)
  .next (eopWrite (wholeIndex 0x2020) req
    (fun s _ _ => worst [when' (!s.defined p) stNotReady, when' (decide (p ≠ 0) && decide (k = 0)) stRange])
    (fun _ _ _ s =>
      closeSessions p (some req.session) (s.onNv fun n => { n with keys := vmod n.keys p fun _ => k })) s)

/-- The cells, stacks and buffers that the other partitions own or have claimed (13 R354, R366). -/
def claimedBy (s : State) (q : Nat) : BitVec 34 × BitVec 32 × Nat :=
  let a := s.defOf q
  let b := (s.part q).nextDef.getD a
  (defCells a ||| defCells b, defStacks a ||| defStacks b, max (defLdb a) (defLdb b))

/-- A definition that may be accepted (13 R353, R354). -/
def definitionValid (s : State) (p : Nat) (d : BitVec 512) : Bool :=
  let others := ((List.range 8).filter fun q => decide (q ≠ p)).map (claimedBy s)
  let cells := others.foldl (fun a c => a ||| c.1) 0
  let taken := others.foldl (fun a c => a ||| c.2.1) 0
  decide (fld d 511 128 = 0) && decide (fld d 63 34 = 0) &&
  decide (defCells d ≠ 0) && decide (defCells d &&& ~~~s.fuse.enabled = 0) && decide (defCells d &&& cells = 0) &&
  decide (defStacks d ≠ 0) && decide (defStacks d &&& ~~~s.dev.inService = 0) && decide (defStacks d &&& taken = 0) &&
  decide (defLdb d ≥ 1) && decide (defLdb d + sumN (others.map fun c => c.2.2) ≤ 32) &&
  decide (defWeight d 1 ≥ 1) && decide (defWeight d 2 ≥ 1) && decide (defWeight d 3 ≥ 1)

/-- An accepted definition (13 R355): a partition that owns something is reset with its old resources first. -/
def acceptDefinition (p : Nat) (d : BitVec 512) (s : State) : State :=
  if s.defOf p = 0 then
    if d = 0 then s else s.onPart p fun q => { q with st := 3, nextDef := some d, resetCause := 0 }
  else (startReset p none s).onPart p fun q => { q with nextDef := some d }

/-- PARTITION_DEFINITION_WRITE (13 R355). -/
def execPartitionDefinitionWrite (req : EopReq) (s : State) : Host.Outcome State Fault Refusal :=
  let p := reqPart req
  .next (eopWrite (wholeIndex 0x2010) req
    (fun s _ v => worst [when' (decide ((s.part p).st = 3)) stNotReady,
      when' (decide (v ≠ 0) && !definitionValid s p (BitVec.ofNat 512 v)) stRange])
    (fun _ v _ s => acceptDefinition p (BitVec.ofNat 512 v) s) s)

/-- PARTITION_RESET (13 R362): a write of 1 to OD 0x2040, or a word found uncorrectable (09 R251). -/
def execPartitionReset (cause : ResetCause) (s : State) : Host.Outcome State Fault Refusal :=
  match cause with
  | .request r => .next (eopWrite (wholeIndex 0x2040) r
      (fun s _ v => worst [when' (decide (v ≠ 1)) stRange,
        when' (!s.defined (reqPart r) && decide ((s.part (reqPart r)).st ≠ 3)) stNotReady])
      (fun _ _ _ s => startReset (reqPart r) none s) s)
  | .uncorrectable a => .next (if rsDecode (s.mem.stored (a / 32)) = .bad then uncorrectable (a / 32) s else s)

/-- Fences that take effect at a reset of a cell's owner (15 R390). -/
def settleFence (c : Nat) (s : State) : State :=
  if (s.unit 1 c).pend then
    (s.onUnit 1 c fun u => { u with cls := 3, pend := false }).onDev fun d => { d with fenced := d.fenced ||| (1 <<< c) }
  else s

/-- A cell store cleared, its cell idle (13 R362 orders 4 and 5). -/
def wipeCell (c : Nat) (s : State) : State :=
  let s := { s with mem := s.mem.clear (cellBase c) cellSize }
  s.onCell c fun x => { Cell.reset with k := x.k, kSeen := x.kSeen, guard := x.guard, scrubPos := x.scrubPos }

/-- A stack cleared, its entries at their defaults (09 R250). -/
def wipeStack (st : Nat) (s : State) : State :=
  let s := { s with mem := s.mem.clear (stackBase st) (2 ^ 33) }
  s.onStack st fun t => { Stack.reset with
    scrubPos := t.scrubPos, stewPos := t.stewPos, chans := t.chans, applied := t.applied, words := t.words }

/-- The share of a partition cleared, at the size its definition gives; the shares above keep their contents. -/
def wipeShare (p : Nat) (d : BitVec 512) (s : State) : State :=
  let a := ldbWindow + shareArea + s.ldbBase p
  { s with mem := s.mem.resize a (defLdb (s.defOf p) * 2 ^ 20) (defLdb d * 2 ^ 20) }

/-- What an open transfer of another partition reads again stands where its share now stands (13 R364, 10 R296). -/
def moveSources (p : Nat) (d : BitVec 512) (s : State) : State :=
  let old := ldbWindow + shareArea + s.ldbBase p + defLdb (s.defOf p) * 2 ^ 20
  let new := ldbWindow + shareArea + s.ldbBase p + defLdb d * 2 ^ 20
  s.onRing fun r => { r with tx := r.tx.map fun t =>
    { t with srcs := t.srcs.map fun x => if old ≤ x.1 then (x.1 - old + new, x.2) else x } }

/-- The resources of a reset: those of the definition in force, with the soft repairs of its stacks applied
(09 R253), and those newly owned (13 R355). -/
def wipeFor (old new : BitVec 512) (s : State) : State :=
  let d := old ||| new
  forEach (bitList (defStacks old)) applyRepairs
    (forEach (bitList (defStacks d)) wipeStack (forEach (bitList (defCells d)) wipeCell s))

/-- What a partition reset leaves of a partition: its definition, notices, 0x4030 group, OD 0x5610 and counters
(13 R363). -/
def clearedPart (q : Part) : Part :=
  { Part.reset with
    st := q.st, resetCause := q.resetCause, nextDef := q.nextDef, notices := q.notices,
    mrAddr := q.mrAddr, mrLoc := q.mrLoc, mrStatus := q.mrStatus, mrCount := q.mrCount, rtCount := q.rtCount,
    rtLast := q.rtLast, decision := q.decision,
    cSat := q.cSat, cFlu := q.cFlu, cAwn := q.cAwn, cSquash := q.cSquash, cFall := q.cFall, cBad := q.cBad }

/-- The state a partition rests in (13 R362 order 6, R365): stopped while its definition is not valid or none of its
cells is present. -/
def restState (s : State) (p : Nat) : BitVec 8 :=
  if s.defOf p = 0 then (if p = 0 then 1 else 0)
  else if s.liveCells p = [] ∨ definitionValid s p (s.defOf p) = false then 2 else 1

/-- Notice 0x04 to a partition and to partition 0 (11 R330, 13 R362). -/
def notifyReset (p : Nat) (s : State) : State :=
  let q := s.part p
  let detail := if q.resetCause.toNat = stUncorrectable then q.mrAddr.toNat else 0
  let s := notify p 0x04 q.resetCause.toNat detail s
  if p = 0 then s else notify 0 0x04 q.resetCause.toNat detail s

/-- A deleted partition's key and sessions (13 R355). -/
def dropPartition (p : Nat) (s : State) : State :=
  if p ≠ 0 ∧ s.defOf p = 0 then
    closeSessions p none (s.onNv fun n => { n with keys := vmod n.keys p fun _ => 0 })
  else s

/-- PARTITION_RESET_END (13 R355, R362 orders 4 to 6): resources cleared, fences and repairs in effect, entries at
their defaults, the accepted definition in force, the state, notice 0x04. -/
def execPartitionResetEnd (p : Fin 8) (s : State) : Host.Outcome State Fault Refusal :=
  if (s.part p).st ≠ 3 then .next s else
  let old := s.defOf p
  let d := (s.part p).nextDef.getD old
  let s := forEach (s.cellsOf p) settleFence s
  let fresh := decide (old = 0) && (s.part p).nextDef.isSome
  let s := wipeFor old d (wipeShare p d (moveSources p d s))
  let s := if fresh then s else s.onPart p clearedPart
  let s := s.onNv fun n => { n with defs := vmod n.defs p fun _ => d }
  let s := s.onPart p fun q => { q with nextDef := none }
  let s := s.onPart p fun q => { q with st := restState s p }
  .next (dropPartition p (notifyReset p s))

end Sys2Proof.Machine
end

