-- ==== Sys2Proof/Machine/CollectiveEngine.lean ====
section
/-! DEFINITION. The collective engine (10 R301 to R306): the order of a reduction, the way of each segment, the
staging region, READY and the decision. Between members on one device everything passes on the link die
(10 R302), in the same order and protocol. Log entry 43 says what the spec leaves to the model here. -/

set_option Elab.async false

namespace Sys2Proof.Machine

/-- Segments of a collective (10 R303). -/
def segCount (x : Coll) : Nat := ceilDiv x.len 4096
def segLen (x : Coll) (i : Nat) : Nat := min 4096 (x.len - 4096 * i)

/-- All-reduce and reduce-scatter reduce; reduce-scatter and all-gather have chunks. -/
def Coll.reduces (x : Coll) : Bool := decide (x.cop = 1 ∨ x.cop = 2)
def Coll.chunked (x : Coll) : Bool := decide (x.cop = 2 ∨ x.cop = 3)

/-- The chunk a segment lies in (10 R303). -/
def chunkOf (x : Coll) (n i : Nat) : Nat := if x.chunked then 4096 * i / (x.len / n) else 0

/-- The member that begins a segment's way: the first of the reduction order, or the source (10 R304). -/
def firstMember (x : Coll) (n i : Nat) : Nat :=
  if x.reduces then (if i % 2 = 0 then 0 else n - 1)
  else if x.cop = 3 then chunkOf x n i else x.root

/-- The next member in the direction of a segment (10 R304). -/
def nextMember (n i m : Nat) : Nat := if i % 2 = 0 then (m + 1) % n else (m + n - 1) % n

/-- How many members a segment has come by, from where its way begins. -/
def wayTo (x : Coll) (n i m : Nat) : Nat :=
  let a := firstMember x n i
  if i % 2 = 0 then (m + n - a) % n else (a + n - m) % n

/-- Whether a member's result holds a segment. -/
def wants (x : Coll) (n me i : Nat) : Bool := if x.cop = 2 then decide (chunkOf x n i = me) else true

/-- Bytes of a member's result (10 R303). -/
def resultLen (x : Coll) (n : Nat) : Nat := if x.cop = 2 then x.len / n else x.len

/-- Where a segment's result stands in staging, from its start: the result first, then the partials. -/
def resultOff (x : Coll) (n i : Nat) : Nat := if x.cop = 2 then 4096 * i - chunkOf x n i * (x.len / n) else 4096 * i
def partialOff (x : Coll) (n i : Nat) : Nat := resultLen x n + 4096 * i
/-- Where a segment stands in a member's source. -/
def sourceOff (x : Coll) (n i : Nat) : Nat := if x.cop = 3 then 4096 * i - chunkOf x n i * (x.len / n) else 4096 * i

/-- One element of a partial: rnd(acc + x) in RTYPE, its special values and clamps counted (10 R304, 09 R272). -/
def reduceElem (rtype : Bool) (acc v : Nat) : Nat × Nat × Nat :=
  let f := if rtype then f32 else bf16
  let a := readIn f acc
  let b := readIn f v
  let e := Exact.add a.1 b.1
  let r := roundTo f e
  (r.1, (if a.2 then 1 else 0) + (if b.2 then 1 else 0) + (if r.2 then 1 else 0),
   if e.m ≠ 0 ∧ (value f r.1).m = 0 then 1 else 0)

/-- A reduced segment, with its counts. -/
def reduceSeg (rtype : Bool) (acc own : List Byte) : List Byte × Counts :=
  let k := if rtype then 4 else 2
  let r := List.zipWith (reduceElem rtype) (codesOf k acc) (codesOf k own)
  ((r.map fun x => leBytes k x.1).flatten, ⟨sumN (r.map fun x => x.2.1), sumN (r.map fun x => x.2.2), 0⟩)

/-- Counts added to a data-mover command in progress. -/
def addDmCounts (c : Nat) (seqNo : BitVec 32) (n : Counts) (s : State) : State :=
  s.onCell c fun x => { x with dm := x.dm.map fun r =>
    if r.entry.seqNo = seqNo ∧ r.done = none then { r with counts := r.counts.add n } else r }

/-- What a READY says of its collective (10 R301): list digest, operation, RTYPE, length. -/
def readyInfo (s : State) (p : Nat) (x : Coll) : List Byte :=
  (cctlPayload 1 (groupDigest (vget (s.part p).groups x.group [])) x.cop.toNat x.rtype x.len).drop 1

/-- A member acts on COMMIT (10 R305 order 5): staging copied to DADDR by its data mover, OK. -/
def memberCommit (p g : Nat) (inst : BitVec 32) (s : State) : State :=
  match collOf s p g inst with
  | none => s
  | some x =>
    if memberActs s p = false then s else
    let n := (membersOf s p g).length
    match relRead p x.stage (resultLen x n) s with
    | (none, s) => s
    | (some bs, s) =>
      let w := relWrite true p x.dst bs s
      if w.1 then endColl p x stOk stOk bs w.2 else w.2

/-- The coordinator holds READY from all members: it decides commit (10 R305 order 4). -/
def coordCommit (p g : Nat) (inst : BitVec 32) (s : State) : State :=
  match collOf s p g inst with
  | none => s
  | some x =>
    let s := onColl p g false inst (fun y => { y with decided := some true }) s
    let s := sendDecision p 3 x s
    forEach (localMembers s (membersOf s p g)) (fun q s => memberCommit q g inst s) s

/-- READY of member `idx` at the coordinator (10 R301, R305): a difference decides abort. -/
def coordReady (p g : Nat) (inst : BitVec 32) (idx : Nat) (info : List Byte) (s : State) : State :=
  match collOf s p g inst with
  | none => s
  | some x =>
    if x.decided.isSome ∨ memberActs s p = false then s
    else if info ≠ readyInfo s p x then coordAbort p g inst s
    else
      let l := if idx ∈ x.readyFrom then x.readyFrom else x.readyFrom ++ [idx]
      let s := onColl p g false inst (fun y => { y with readyFrom := l }) s
      if l.length = (membersOf s p g).length then coordCommit p g inst s else s

/-- A member whose result is complete sends READY in both directions, once (10 R305 order 2); between members
of one device it passes on the link die. -/
def sendReady (p g : Nat) (inst : BitVec 32) (s : State) : State :=
  match collOf s p g inst, memberIndex s p g, (membersOf s p g).head? with
  | some x, some me, some m =>
    let n := (membersOf s p g).length
    let full := (List.range (segCount x)).all fun i => !wants x n me i || decide (i ∈ x.haveSegs)
    if x.ready ∨ x.aborted ∨ full = false then s else
    let s := onColl p g false inst (fun y => { y with ready := true }) s
    let f := cctlFrame s 1 p x m
    if m.1 ≠ s.nv.ringId.toNat then sendBoth f s
    else if notYet s m.2 g false inst then keepEarly m.2 2 f s
    else coordReady m.2 g inst me (f.payload.drop 1) s
  | _, _, _ => s

/-- The frame of a segment between two members of this device, as it waits at one that has not issued. -/
def localSeg (s : State) (p me : Nat) (x : Coll) (m : Nat × Nat) (phase seg : Nat) (bytes : List Byte) : VrtFrame :=
  { newFrame s 4 x.cls.toNat (BitVec.ofNat 16 m.1) m.2 p bytes with
    stream := BitVec.ofNat 8 x.group, eseq := BitVec.ofNat 32 seg, xid := x.inst,
    aux := BitVec.ofNat 32 (phase * 2 ^ 30 + me) }

/-- A segment sent to a member on another device: a transfer of one frame, its bytes re-read from where they stand, in the
direction of its parity: even segments leave by port E, odd ones by port W (10 R296, R304; log entry 35). -/
def sendSegRemote (p : Nat) (x : Coll) (m : Nat × Nat) (phase seg addr len : Nat) (s : State) : State :=
  startTx { TxXfer.reset with
    part := p, port := seg % 2, cls := x.cls, dstRing := BitVec.ofNat 16 m.1,
    dstPart := BitVec.ofNat 3 m.2, stream := BitVec.ofNat 8 x.group, srcs := relPieces s p addr len, len := len,
    origin := .seg x.group x.inst seg phase } s

/-- A segment written into a member's staging. -/
def stageSeg (p : Nat) (x : Coll) (off : Nat) (bs : List Byte) (s : State) : Bool × State :=
  relWrite false p (x.stage + off) bs s

/-- A segment at a member (10 R304): phase 0 a partial, phase 1 a result. It is formed or kept in staging and
sent on; between members of one device at once. -/
def takeSeg : Nat → Nat → Nat → BitVec 32 → Nat → Nat → List Byte → State → State
  | 0, _, _, _, _, _, _, s => s
  | fuel + 1, p, g, inst, phase, seg, bs, s =>
    match collOf s p g inst, memberIndex s p g with
    | some x, some me =>
      let ms := membersOf s p g
      let n := ms.length
      let pass := fun (phase' dst addr : Nat) (bs : List Byte) (s : State) =>
        match ms[dst]? with
        | none => s
        | some m =>
          if m.1 ≠ s.nv.ringId.toNat then sendSegRemote p x m phase' seg addr bs.length s
          else if notYet s m.2 g false inst then keepEarly m.2 2 (localSeg s p me x m phase' seg bs) s
          else takeSeg fuel m.2 g inst phase' seg bs s
      if x.aborted ∨ memberActs s p = false ∨ segCount x ≤ seg ∨ bs.length ≠ segLen x seg then s
      else if phase = 0 then
        if x.reduces = false ∨ seg ∈ x.partSegs then s else
        match relRead p (x.src + sourceOff x n seg) (segLen x seg) s with
        | (none, s) => s
        | (some own, s) =>
          let r := reduceSeg x.rtype bs own
          let s := addDmCounts x.cell x.seqNo r.2 s
          let s := onColl p g false inst (fun y => { y with partSegs := y.partSegs ++ [seg] }) s
          if wayTo x n seg me + 1 < n then
            let w := stageSeg p x (partialOff x n seg) r.1 s
            if w.1 then pass 0 (nextMember n seg me) (x.stage + partialOff x n seg) r.1 w.2 else w.2
          else if wants x n me seg then
            let w := stageSeg p x (resultOff x n seg) r.1 s
            if w.1 = false then w.2 else
            let s := onColl p g false inst (fun y => { y with haveSegs := y.haveSegs ++ [seg] }) w.2
            let s := if x.cop = 1 then pass 1 (nextMember n seg me) (x.stage + resultOff x n seg) r.1 s else s
            sendReady p g inst s
          else
            let w := stageSeg p x (partialOff x n seg) r.1 s
            if w.1 then pass 1 (chunkOf x n seg) (x.stage + partialOff x n seg) r.1 w.2 else w.2
      else if seg ∈ x.haveSegs ∨ wants x n me seg = false then s
      else
        let w := stageSeg p x (resultOff x n seg) bs s
        if w.1 = false then w.2 else
        let s := onColl p g false inst (fun y => { y with haveSegs := y.haveSegs ++ [seg] }) w.2
        -- the next member has the result already when it is the one the result's way began at
        let last := decide (nextMember n seg me = (if x.cop = 1 then (if seg % 2 = 0 then n - 1 else 0) else firstMember x n seg))
        let s := if x.cop = 2 ∨ last then s
                 else pass 1 (nextMember n seg me) (x.stage + resultOff x n seg) bs s
        sendReady p g inst s
    | _, _ => s

/-- A member begins the segments whose way begins at it (10 R304): a reduction's first term is its source
segment; a gathered or broadcast segment is also its own result. -/
def beginSeg (p : Nat) (x : Coll) (n me seg : Nat) (s : State) : State :=
  if firstMember x n seg ≠ me then s else
  match relRead p (x.src + sourceOff x n seg) (segLen x seg) s with
  | (none, s) => s
  | (some bs, s) =>
    let send := fun (phase : Nat) (s : State) =>
      match (membersOf s p x.group)[nextMember n seg me]? with
      | none => s
      | some m =>
        if m.1 ≠ s.nv.ringId.toNat then sendSegRemote p x m phase seg (x.src + sourceOff x n seg) bs.length s
        else if notYet s m.2 x.group false x.inst then keepEarly m.2 2 (localSeg s p me x m phase seg bs) s
        else takeSeg (2 * n + 2) m.2 x.group x.inst phase seg bs s
    if x.reduces then send 0 (onColl p x.group false x.inst (fun y => { y with partSegs := y.partSegs ++ [seg] }) s)
    else
      let w := stageSeg p x (resultOff x n seg) bs s
      if w.1 = false then w.2 else
      send 1 (onColl p x.group false x.inst (fun y => { y with haveSegs := y.haveSegs ++ [seg] }) w.2)

/-- A COLL of a group of one member (10 R302): the result is its source, committed at once. -/
def soloColl (p : Nat) (x : Coll) (s : State) : State :=
  match relRead p x.src x.len s with
  | (none, s) => s
  | (some bs, s) =>
    let w := relWrite true p x.dst bs s
    if w.1 then endColl p x stOk stOk bs w.2 else w.2

/-- A segment frame handed to a member, from the link die or from a port. -/
def segFrame (p : Nat) (f : VrtFrame) (s : State) : State :=
  let g := f.stream.toNat
  takeSeg (2 * (membersOf s p g).length + 2) p g f.xid (fld f.aux 31 30) f.eseq.toNat f.payload s

/-- A control frame handed to a member (10 R305): at the coordinator READY and ABORT_REQ, at a member COMMIT and
ABORT. -/
def controlFrame (p : Nat) (f : VrtFrame) (s : State) : State :=
  let g := f.stream.toNat
  match f.payload.head? with
  | none => s
  | some k =>
    match k.toNat with
    | 1 =>
      match (membersOf s p g).findIdx? fun m => decide (m = (f.srcRing.toNat, f.srcPart.toNat)), memberIndex s p g with
      | some i, some 0 => coordReady p g f.xid i (f.payload.drop 1) s
      | _, _ => s
    | 2 => if memberIndex s p g = some 0 then coordAbort p g f.xid s else s
    | 3 => memberCommit p g f.xid s
    | 4 => memberAbort p g f.xid s
    | _ => s

/-- Member i of a barrier's group has arrived at the coordinator; with all arrived, the release goes to every
member (10 R300). -/
def barrierArrive (p g : Nat) (inst : BitVec 32) (i : Nat) (s : State) : State :=
  match workOf s p g true inst with
  | none => s
  | some x =>
    if memberActs s p = false then s else
    let l := if i ∈ x.readyFrom then x.readyFrom else x.readyFrom ++ [i]
    let s := onColl p g true inst (fun y => { y with readyFrom := l }) s
    let ms := membersOf s p g
    if l.length < ms.length then s else
    let s := forEach (ms.filter fun m => decide (m.1 ≠ s.nv.ringId.toNat))
      (fun m s => sendBoth { newFrame s 9 0 (BitVec.ofNat 16 m.1) m.2 p [Config.barrierKind 1] with
        stream := BitVec.ofNat 8 g, xid := inst } s) s
    forEach (localMembers s ms) (fun q s =>
      match workOf s q g true inst with
      | some y => if memberActs s q then endColl q y stOk stOk [] s else s
      | none => s) s

/-- A barrier frame handed to a member: an arrival at the coordinator, a release elsewhere. -/
def barrierFrame (p : Nat) (f : VrtFrame) (s : State) : State :=
  let g := f.stream.toNat
  match memberIndex s p g with
  | none => s
  | some 0 =>
    match (membersOf s p g).findIdx? fun m => decide (m = (f.srcRing.toNat, f.srcPart.toNat)) with
    | some i => barrierArrive p g f.xid i s
    | none => s
  | some _ =>
    match workOf s p g true f.xid with
    | some x => if memberActs s p then endColl p x stOk stOk [] s else s
    | none => s

/-- A kept frame is of an instance. -/
def earlyIs (g : Nat) (barrier : Bool) (inst : BitVec 32) (f : VrtFrame) : Bool :=
  decide (f.stream.toNat = g ∧ f.xid = inst) && (decide (f.type = 9) == barrier)

/-- The frames that came before a member issued its collective or barrier, taken in order. -/
def takeEarly (p g : Nat) (barrier : Bool) (inst : BitVec 32) (s : State) : State :=
  let l := (s.part p).early.filter fun e => earlyIs g barrier inst e.2
  let s := s.onPart p fun q => { q with early := q.early.filter fun e => !earlyIs g barrier inst e.2 }
  forEach l (fun e s =>
    let s := if e.1 < 2 ∧ e.2.cls ≠ 0 then releaseBuffer e.1 e.2.cls.toNat p s else s
    if e.2.type = 9 then barrierFrame p e.2 s
    else if e.2.type = 5 then controlFrame p e.2 s else segFrame p e.2 s) s

/-- COLL issued at a member (10 R304, R305). -/
def issueColl (p : Nat) (x : Coll) (s : State) : State :=
  let ms := membersOf s p x.group
  let n := ms.length
  let x := { x with inst := vget (s.part p).inst x.group 0 }
  let s := s.onPart p fun q => { q with
    colls := q.colls ++ [x], inst := vmod q.inst x.group (· + 1), decision := vmod q.decision x.group fun _ => 1 }
  if n = 1 then soloColl p x s else
  match memberIndex s p x.group with
  | none => s
  | some me =>
    let s := forEach (List.range (segCount x)) (beginSeg p x n me) s
    takeEarly p x.group false x.inst (sendReady p x.group x.inst s)

/-- BARRIER issued at a member: its arrival goes to the coordinator in both directions (10 R300). -/
def issueBarrier (p : Nat) (x : Coll) (s : State) : State :=
  let x := { x with inst := vget (s.part p).binst x.group 0, barrier := true }
  let s := s.onPart p fun q => { q with colls := q.colls ++ [x], binst := vmod q.binst x.group (· + 1) }
  match memberIndex s p x.group, (membersOf s p x.group).head? with
  | some me, some m =>
    let f := { newFrame s 9 0 (BitVec.ofNat 16 m.1) m.2 p [Config.barrierKind 0] with
               stream := BitVec.ofNat 8 x.group, xid := x.inst }
    let s := if m.1 ≠ s.nv.ringId.toNat then sendBoth f s
             else if notYet s m.2 x.group true x.inst then keepEarly m.2 2 f s
             else barrierArrive m.2 x.group x.inst me s
    takeEarly p x.group true x.inst s
  | _, _ => s

end Sys2Proof.Machine
end

