-- ==== Sys2Proof/Machine/Receipt.lean ====
section
/-! DEFINITION. Frames received at a ring port: the type a row is for, the buffer a consumed frame holds, and
acknowledgement of a segment path (10 R281, R284, R296, R309; 13 R356, R362). -/

set_option Elab.async false

namespace Sys2Proof.Machine

/-- A frame of the type of a row received at a port; a frame of another type is not this row's event (log entry
1). `k` runs on a frame that is consumed here. -/
def onFrame (port type : Nat) (f : VrtFrame) (k : VrtFrame → State → State) (s : State) : State :=
  if frameOk f = true ∧ f.type.toNat ≠ type then s else
  match receive port f s with
  | (some g, s) => k g s
  | (none, s) => s

/-- A consumed frame of class 1 to 3 takes a buffer of its partition; a frame for a partition that is being
reset is dropped, its buffer returned, and counted at the port (10 R309). -/
def consume (port : Nat) (f : VrtFrame) (k : State → State) (s : State) : State :=
  if (s.part f.dstPart.toNat).st = 3 then
    headerDrop port (if f.cls = 0 then s else freeBuffer port f.cls.toNat s)
  else if f.cls = 0 then k s
  else
    let h := holdBuffer port f s
    if h.1 then k h.2 else h.2

/-- The buffer of a consumed frame freed. -/
def doneWith (port : Nat) (f : VrtFrame) (s : State) : State :=
  if f.cls = 0 then s else releaseBuffer port f.cls.toNat f.dstPart.toNat s

/-- A frame of a collective or barrier for an instance the member has not issued yet waits there (10 R301); any
other is taken. -/
def orEarly (port : Nat) (f : VrtFrame) (k : State → State) (s : State) : State :=
  let p := f.dstPart.toNat
  if (s.part p).st = 0 ∨ f.stream.toNat ≥ 16 then doneWith port f s
  else if notYet s p f.stream.toNat (decide (f.type = 9)) f.xid then keepEarly p port f s
  else doneWith port f (k s)

/-- Two segments of one path between two members (10 R296, R304): of the same direction, and of the same chunk where the
result of one source member travels. -/
def onePath (s : State) (p g : Nat) (inst : BitVec 32) (phase a b : Nat) : Bool :=
  decide (a % 2 = b % 2) && (decide (phase = 0) || (match collOf s p g inst with
    | some x => decide (chunkOf x (membersOf s p g).length a = chunkOf x (membersOf s p g).length b)
    | none => true))

/-- The segments of a phase that a member holds: those it has formed or kept, and those that wait for its command. -/
def heldSegs (s : State) (p g : Nat) (inst : BitVec 32) (phase : Nat) : List Nat :=
  (match collOf s p g inst with
    | some x => if phase = 0 then x.partSegs else x.haveSegs
    | none => []) ++
  (((s.part p).early.filter fun e => earlyIs g false inst e.2 && decide (e.2.type = 4 ∧ fld e.2.aux 31 30 = phase)).map
    fun e => e.2.eseq.toNat)

/-- Segments missing on the path of a segment just received, below the highest there; none of a collective that the
member has ended (10 R296). -/
def missingSegs (s : State) (p g : Nat) (inst : BitVec 32) (phase seg : Nat) : List Nat :=
  if (collOf s p g inst).isNone ∧ notYet s p g false inst = false then [] else
  let have' := seg :: heldSegs s p g inst phase
  let hi := (have'.filter (onePath s p g inst phase seg)).foldl max 0
  (List.range hi).filter fun t => onePath s p g inst phase seg t && decide (t ∉ have')

/-- The highest segment of the path that has come in order: all before the first that is missing, none as 2³² − 1. -/
def segInOrder (s : State) (p g : Nat) (inst : BitVec 32) (phase seg : Nat) : BitVec 32 :=
  let have' := seg :: heldSegs s p g inst phase
  let top := match (missingSegs s p g inst phase seg).head? with
    | some m => have'.filter fun t => onePath s p g inst phase seg t && decide (t < m)
    | none => have'.filter (onePath s p g inst phase seg)
  match top with
  | [] => 0xFFFFFFFF
  | _ => BitVec.ofNat 32 (top.foldl max 0)

/-- The SACK of a segment frame (10 R296; log entry 42): AUX bit 31 marks a segment path, bit 30 the phase. -/
def sackSeg (port : Nat) (f : VrtFrame) (s : State) : State :=
  let p := f.dstPart.toNat
  let g := f.stream.toNat
  let phase := fld f.aux 31 30
  let hi := segInOrder s p g f.xid phase f.eseq.toNat
  let missing := (missingSegs s p g f.xid phase f.eseq.toNat).take 32
  sendClass0 port { newFrame s 3 0 f.srcRing f.srcPart.toNat p (leBytes 4 hi.toNat ++ missing.flatMap (leBytes 4)) with
    stream := f.stream, eseq := hi, xid := f.xid, aux := BitVec.ofNat 32 (2 ^ 31 + phase % 2 * 2 ^ 30) } s

/-- A SACK of a segment path at the segments' sender: those of the path up to the highest in order are acknowledged,
missing ones are sent again (10 R296). -/
def takeSegSack (f : VrtFrame) (s : State) : State :=
  let phase := fld f.aux 30 30
  let hi := leNat (f.payload.take 4)
  let mine := fun (sel : Nat → Bool) (t : TxXfer) =>
    decide (t.part = f.dstPart.toNat ∧ t.dstRing = f.srcRing ∧ t.dstPart = f.srcPart) &&
    (match t.origin with
      | .seg g i q ph => decide (g = f.stream.toNat ∧ i = f.xid ∧ ph = phase) && sel q
      | _ => false)
  let upTo := fun (q : Nat) => decide (hi < 2 ^ 32 - 1 ∧ q ≤ hi) && onePath s f.dstPart.toNat f.stream.toNat f.xid phase hi q
  let missing := (List.range ((f.payload.length - 4) / 4)).map fun i => leNat (slice f.payload (4 + 4 * i) 4)
  let s := s.onRing fun r => { r with tx := r.tx.filter fun t => !mine upTo t }
  forEach missing (fun q s => match s.ring.tx.find? (mine fun x => decide (x = q)) with
    | some t => sendTx t.xid true 0 s
    | none => s) s

end Sys2Proof.Machine
end

