-- ==== Sys2Proof/Machine/RingPorts.lean ====
section
/-! DEFINITION. The ring ports: lanes, training, restarts, insertion and removal, credits, link-level retry, probes
and PFC (10 R277 to R295, R307, R308). -/

set_option Elab.async false

namespace Sys2Proof.Machine

/-- A port's state changed, with notice 0x06 to partition 0 (11 R330). -/
def setPortState (port : Nat) (st : BitVec 8) (s : State) : State :=
  if (s.port port).st = st then s else
  notify 0 0x06 stOk ((port + 1) * 256 + st.toNat) (s.onPort port fun q => { q with st := st })

/-- Lanes that a permanent class excludes (15 R390). -/
def excludedLanes (s : State) (port : Nat) : BitVec 8 :=
  BitVec.ofNat 8 (sumN ((List.range 8).map fun l => if (s.unit 3 (port * 8 + l)).cls.toNat ≥ 2 then 2 ^ l else 0))

/-- Lanes classed permanent become retired at a restart (15 R390). -/
def retireLanes (port : Nat) (s : State) : State :=
  forEach (List.range 8) (fun l s => s.onUnit 3 (port * 8 + l) fun u =>
    if u.pend then { u with cls := 3, pend := false } else u) s

/-- A link restart (10 R277, R280): training, with the settings written since the last one. -/
def restartPort (port : Nat) (s : State) : State :=
  let s := retireLanes port s
  setPortState port 1 (s.onPort port fun q => { q with
    restarts := satInc q.restarts, cfg := vget s.nv.ports port PortCfg.reset, classes := s.nv.classes, probes := [] })

/-- LANE_FAILURE (10 R278): a lane of an up port fails; the port restarts, at 4 lanes at most. -/
def execLaneFailure (port : RingPort) (lane : Fin 8) (s : State) : Host.Outcome State Fault Refusal :=
  let n := portNum port
  if (s.port n).up = false then .next s else
  let s := s.onPort n fun q => { q with good := q.good &&& ~~~((1 : BitVec 8) <<< lane.val), full := false }
  .next (restartPort n (recordEvent 0x20 3 (n * 8 + lane.val) 0 15 1 s))

/-- A port that has come up (10 R287): the whole pool is granted afresh; frames still held count against it. The replay
buffer of a short hop has survived, and is sent again under the new credits (R294). -/
def comeUp (port : Nat) (s : State) : State :=
  s.onPort port fun q => { q with
    credit := Vector.replicate 3 0, sent := Vector.replicate 3 0, probes := [], probed := false, peerLeft := false,
    paused := 0, pfcOn := 0, replayAt := 0, replayBuf := if q.short then q.replayBuf else [],
    awaitLack := q.short && !q.replayBuf.isEmpty,
    rx := Vector.ofFn fun c : Fin 3 =>
      let x := vget q.rx c PortRx.reset
      { x with granted := 0, recvd := 0, unreported := (vget q.classes.pool c 0).toNat - x.inUse } }

/-- A good group of four lanes, 0 to 3 or 4 to 7 (10 R278). -/
def groupGood (g : BitVec 8) : Bool := decide (fld g 3 0 = 15) || decide (fld g 7 4 = 15)

/-- PORT_TRAINING_END (10 R278): the port comes up at 8 lanes, at 4 on a good lane group, or fails. Behind the by-pass it was
a test in local loop-back, and the port is down again (R307, 12 R344). -/
def execPortTrainingEnd (port : RingPort) (lanes : BitVec 8) (s : State) : Host.Outcome State Fault Refusal :=
  let n := portNum port
  if (s.port n).st ≠ 1 then .next s else
  let good := lanes &&& ~~~excludedLanes s n
  let s := s.onPort n fun q => { q with good := good }
  if s.dev.bypCmd = false then .next (setPortState n 0 s)
  else if (s.port n).full = true ∧ good = 0xFF then .next (setPortState n 2 (comeUp n s))
  else
    let s := s.onPort n fun q => { q with full := false }
    if groupGood good then .next (setPortState n 3 (comeUp n s)) else .next (setPortState n 4 s)

/-- PORT_RESTART_RETRY (10 R277): a failed port attempts a restart every 1 s. -/
def execPortRestartRetry (port : RingPort) (s : State) : Host.Outcome State Fault Refusal :=
  let n := portNum port
  .next (if (s.port n).st = 4 then restartPort n s else s)

/-- The ring port an index of 0x51nn or 0x52nn names. -/
def reqPort (r : EopReq) : Nat := r.index.toNat / 256 - 0x51

/-- PORT_RESTART (10 R278): a write of 1 to OD 0x5p00:07 restarts the port at 8 lanes; behind the by-pass it tests itself in
local loop-back (R307, 12 R344). -/
def execPortRestart (req : EopReq) (s : State) : Host.Outcome State Fault Refusal :=
  .next (eopWrite (fun i j => decide (j = 7) && decide (i = 0x5100 ∨ i = 0x5200)) req
    (fun _ _ v => when' (decide (v ≠ 1)) stRange)
    (fun _ _ _ s =>
      let n := reqPort req
      restartPort n (s.onPort n fun q => { q with full := true })) s)

/-- The insertion condition (12 R344): a good lane group was found in the loop-back test of boot order 10, or in the latest
restart. -/
def insertOk (s : State) : Bool :=
  decide (s.dev.devState = 1) && !s.dev.bypFault && !s.dev.thermLatched &&
  [0, 1].all fun p => groupGood (vget s.dev.loopGood p 0) || groupGood (s.port p).good

/-- Both switches commanded to the inserted position (10 R307 order 2); no automatic insertion is outstanding. -/
def commandInsert (s : State) : State := s.onDev fun d => { d with bypCmd := true, autoInsert := false }

/-- INSERT (10 R307): the one automatic insertion that follows boot order 12 when OD 0x5000:03 is 0 (12 R344), or a write of
1 to OD 0x5000:04, which is NOT_READY while the condition does not hold. -/
def execInsert (req : Option EopReq) (s : State) : Host.Outcome State Fault Refusal :=
  match req with
  | none => .next (if insertOk s = true ∧ s.dev.autoInsert = true ∧ s.dev.bypCmd = false then commandInsert s else s)
  | some r => .next (if (reqData r).length = 1 ∧ leNat (reqData r) = 2 then s else
      eopWrite (onlyEntry 0x5000 4) r
        (fun s _ v => worst [when' (decide (v ≠ 1)) stRange, when' (!insertOk s) stNotReady])
        (fun _ _ _ s => if s.dev.bypCmd then s else commandInsert s) s)

/-- A LEAVE notice on a port's hop (10 R308). -/
def sendLeave (port : Nat) (s : State) : State :=
  sendClass0 port (newFrame s 6 0 (neighbour s port) 0 0 [Config.probeKind 2]) s

/-- REMOVE (10 R308): a write of 2 to OD 0x5000:04 sends LEAVE on both ports; new ring work is refused from then
on. -/
def execRemove (req : EopReq) (s : State) : Host.Outcome State Fault Refusal :=
  .next (if (reqData req).length = 1 ∧ leNat (reqData req) = 2 then
    eopWrite (onlyEntry 0x5000 4) req (fun _ _ _ => stOk)
      (fun _ _ _ s => if s.dev.bypCmd = true ∧ s.dev.removing = false then
        sendLeave 1 (sendLeave 0 (s.onDev fun d => { d with removing := true })) else s) s
   else s)

/-- A port that has lost its hop to the by-pass: down, its frames in transit lost (10 R277, R308), and with them the
buffers they held at the port they came in by. Frames that wait for a descriptor keep theirs. -/
def dropPort (port : Nat) (s : State) : State :=
  let s := forEach ((s.port port).txq.filter fun f => !ownFrame s f) (fun f s => s.onPort (1 - port) fun q => { q with
    rx := vmod q.rx (f.cls.toNat - 1) fun x => { x with inUse := x.inUse - 1 } }) s
  setPortState port 0 (s.onPort port fun q => { q with
    txq := [], replayBuf := [], replayAt := 0, awaitLack := false, c0held := 0, probes := [], probed := false,
    rx := q.rx.map fun x => { x with granted := 0, unreported := 0, recvd := 0 } })

/-- REMOVE_COMPLETE (10 R308 order 4): with the outgoing transfers acknowledged, or 100 ms past, the by-pass
position is commanded. -/
def execRemoveComplete (s : State) : Host.Outcome State Fault Refusal :=
  .next (if s.dev.removing then
    dropPort 1 (dropPort 0 (s.onDev fun d => { d with bypCmd := false, removing := false, ringState := 0, autoInsert := false }))
   else s)

/-- CREDIT (10 R287): the counts granted so far replace the earlier ones; waiting frames leave. -/
def execCredit (port : RingPort) (f : VrtFrame) (s : State) : Host.Outcome State Fault Refusal :=
  let n := portNum port
  .next (onFrame n 1 f (fun f s =>
    if (s.port n).cfg.attach ≠ 0 then s else
    let grants : Vector (BitVec 32) 3 := Vector.ofFn fun c => BitVec.ofNat 32 (leNat (slice f.payload (4 * c.val) 4))
    pumpPort n (s.onPort n fun q => { q with credit := grants })) s)

/-- Every frame of the replay buffer that was sent since the port came up sent again (10 R294). -/
def replayAll (port : Nat) (s : State) : State :=
  let l := (s.port port).replayBuf.take (s.port port).replayAt
  if l = [] then s else
  forEach l (fun f s => emit port f s) (s.onPort port fun q => { q with replays := satInc q.replays })

/-- LACK (10 R294): frames up to the acknowledged HSEQ leave the replay buffer; a request replays the rest. -/
def execLack (port : RingPort) (f : VrtFrame) (s : State) : Host.Outcome State Fault Refusal :=
  let n := portNum port
  .next (onFrame n 2 f (fun f s =>
    let h : BitVec 32 := BitVec.ofNat 32 (leNat (f.payload.take 4))
    let s := s.onPort n fun q =>
      let l := q.replayBuf.filter fun g => decide ((h - g.hseq).toNat ≥ 2 ^ 31)
      { q with replayBuf := l, replayAt := q.replayAt - (q.replayBuf.length - l.length), awaitLack := false }
    pumpPort n (if f.payload[4]? = some 1 then replayAll n s else s)) s)

/-- A PROBE frame of a hop at a port, not a cupping frame (10 R283, 16 R412). -/
def onProbe (port : Nat) (f : VrtFrame) (k : State → State) (s : State) : State :=
  if frameOk f = true ∧ hopLocal f = false then s else onFrame port 6 f (fun _ s => k s) s

/-- PROBE (10 R293): answered with a probe reply, which carries the probe's XID (DESIGN CHOICE, log entry 58). -/
def execProbe (port : RingPort) (f : VrtFrame) (s : State) : Host.Outcome State Fault Refusal :=
  let n := portNum port
  .next (onProbe n f (fun s => sendClass0 n { newFrame s 6 0 (neighbour s n) 0 0 [Config.probeKind 1] with xid := f.xid } s) s)

/-- One-way delay in 0.1 µs from the counts of a probe's round trip (10 R293, 02 R50): 6.4 ns a count, halved,
rounded up. -/
def hopFrom (counts : Nat) : Nat := ceilDiv (counts * 32) 1000

/-- PROBE_REPLY (10 R293): the hop's delay is measured from the probe it answers; with both hops measured an inserted device reads 1 in OD
0x5000:05 (R307 order 5). -/
def execProbeReply (port : RingPort) (f : VrtFrame) (s : State) : Host.Outcome State Fault Refusal :=
  let n := portNum port
  .next (onProbe n f (fun s =>
    match (s.port n).probes.find? fun x => decide (x.num = f.xid) with
    | none => s
    | some x =>
    let d := hopFrom (s.dev.interval - x.sentAt).toNat
    let s := s.onPort n fun q => { q with
      measured := BitVec.ofNat 32 d, probes := q.probes.filter fun y => decide (y.num ≠ x.num), probed := true }
    if s.dev.bypCmd = true ∧ s.dev.ringState = 0 ∧ s.dev.removing = false ∧ (s.port 0).probed = true ∧ (s.port 1).probed = true
    then s.onDev fun d => { d with ringState := 1 } else s) s)

/-- LEAVE (10 R308): the neighbour is leaving the ring. -/
def execLeave (port : RingPort) (f : VrtFrame) (s : State) : Host.Outcome State Fault Refusal :=
  let n := portNum port
  .next (onProbe n f (fun s => s.onPort n fun q => { q with peerLeft := true }) s)

/-- A PROBE sent on a port's hop, numbered in XID (log entry 58). -/
def sendProbe (port : Nat) (again : Bool) (s : State) : State :=
  let n := (s.port port).probeNum
  sendClass0 port { newFrame s 6 0 (neighbour s port) 0 0 [Config.probeKind 0] with xid := n }
    (s.onPort port fun q => { q with probes := q.probes ++ [⟨n, s.dev.interval, again⟩], probeNum := n + 1 })

/-- PROBE_TIMER (10 R293): every 100 µs an up port sends a PROBE. -/
def execProbeTimer (port : RingPort) (s : State) : Host.Outcome State Fault Refusal :=
  let n := portNum port
  .next (if (s.port n).up then sendProbe n false s else s)

/-- HOP_TIMEOUT (10 R293): the oldest probe has no reply within T_hop; the probe is sent once more, and a second miss counts a hop
timeout and restarts the port. -/
def execHopTimeout (port : RingPort) (s : State) : Host.Outcome State Fault Refusal :=
  let n := portNum port
  let q := s.port n
  match q.probes with
  | [] => .next s
  | x :: r =>
  if q.up = false then .next s
  else if x.again = false then .next (sendProbe n true (s.onPort n fun q => { q with probes := r }))
  else .next (restartPort n (s.onPort n fun q => { q with hopTimeouts := satInc q.hopTimeouts }))

/-- Link-level retry is in force at a port (10 R294). -/
def linkRetry (q : Port) : Bool := q.up && q.short

/-- LACK_TIMER (10 R294): at least every 2 µs on a short hop. -/
def execLackTimer (port : RingPort) (s : State) : Host.Outcome State Fault Refusal :=
  let n := portNum port
  .next (if linkRetry (s.port n) then sendLack n false s else s)

/-- LACK_TIMEOUT (10 R294): no LACK within T_hop; the sender replays from the first unacknowledged frame. -/
def execLackTimeout (port : RingPort) (s : State) : Host.Outcome State Fault Refusal :=
  let n := portNum port
  .next (if linkRetry (s.port n) then replayAll n s else s)

/-- CREDIT_TIMER (10 R287): at least every 2 µs while any freed buffer is unreported. -/
def execCreditTimer (port : RingPort) (s : State) : Host.Outcome State Fault Refusal :=
  let n := portNum port
  let q := s.port n
  .next (if q.up = true ∧ q.cfg.attach = 0 ∧ (q.rx.toList.any fun x => decide (x.unreported > 0)) = true then sendCredit n s else s)

/-- PFC_FRAME (10 R288): pause bits of the priorities of classes 1 to 3 are obeyed; that of class 0 is not. -/
def execPfcFrame (port : RingPort) (enable : BitVec 8) (pause : BitVec 8) (s : State) :
    Host.Outcome State Fault Refusal :=
  let n := portNum port
  let q := s.port n
  if q.up = false ∨ q.cfg.attach = 0 then .next s else
  let bits := (List.range 4).map fun c =>
    if c ≠ 0 ∧ flag enable (q.priority c) = true then flag pause (q.priority c) else flag q.paused c
  let w : BitVec 4 := BitVec.ofNat 4 (sumN (bits.zipIdx.map fun b => if b.1 then 2 ^ b.2 else 0))
  .next (pumpPort n (s.onPort n fun q => { q with paused := w }))

end Sys2Proof.Machine
end

