-- ==== Sys2Proof/Machine/Pins.lean ====
section
/-! DEFINITION. Pins, rails, REFCLK, the thermal trip and the by-pass switch pair (01 R25 to R46; 10 R307). -/

set_option Elab.async false

namespace Sys2Proof.Machine

/-- Number of a rail in the order of the table *Rails* (01 R28). -/
def railNumber : RailName → Nat
  | .cellN => 0
  | .cellS => 1
  | .stk => 2
  | .vpp => 3
  | .io => 4
  | .link => 5
  | .opt => 6
  | .nv => 7

/-- The device runs, or boots: it is powered, PORST_N is high and no thermal trip is latched. -/
def outOfReset (s : State) : Bool := s.dev.powered && s.dev.porstN && !s.dev.thermLatched

/-- The level of PORST_N; EXTEST drives its chain while it is low and not while it is high (01 R47). -/
def setPorst (high : Bool) (s : State) : State :=
  { s with
    dev := { s.dev with porstN := high },
    jtag := { s.jtag with drive := if high || decide (s.jtag.ir ≠ 0) then none else some s.jtag.chain } }

/-- PORST_N_ASSERT (01 R33): a device reset, unless a thermal trip is latched; a boot it cuts off counts in NO_READY
(log entry 56). -/
def execPorstNAssert (s : State) : Host.Outcome State Fault Refusal :=
  .next (if s.dev.powered = false ∨ s.dev.porstN = false then s
    else if s.dev.thermLatched then setPorst false s
    else deviceReset (setPorst false (countBoot s)))

/-- PORST_N_RELEASE (01 R32; 02 R50): the interval counter starts at zero, rails and REFCLK are watched from now on;
a boot may begin. During a latched trip only the pin rises. -/
def execPorstNRelease (s : State) : Host.Outcome State Fault Refusal :=
  .next (if s.dev.powered = false ∨ s.dev.porstN = true then s
    else if s.dev.thermLatched then setPorst true s
    else setPorst true (s.onDev fun d => { d with interval := 0, actedRails := 0, actedRef := false }))

/-- POWER_UP (01 R32): the rails within tolerance, PORST_N held low, VR_ALERT_N high (the level of that input is open:
log entry 10). -/
def execPowerUp (s : State) : Host.Outcome State Fault Refusal :=
  .next (if s.dev.powered then s else
    s.onDev fun d => { d with powered := true, porstN := false, vrAlertN := true, interval := 0 })

/-- The whole device stops: VDD_NV or every rail has fallen (01 R31, R35, R45). Only the fuses, the NV die and what
the device has already put out remain; a latched trip ends, and a rollback minimum being written is lost (12 R350). -/
def losePower (s : State) : State :=
  let s := deviceReset (countBoot (s.onDev fun d => { d with minPending := none }))
  { s with
    mem := Memory.reset,
    dev := { s.dev with
      powered := false, porstN := false, railBad := 0, actedRails := 0, actedRef := false, vrAlertN := true,
      thermLatched := false, interval := 0, evOrd := 0 },
    jtag := Jtag.reset }

/-- POWER_LOSS (01 R35). -/
def execPowerLoss (s : State) : Host.Outcome State Fault Refusal :=
  .next (if s.dev.powered then losePower s else s)

/-- RAIL_WINDOW_EXCURSION (01 R31): a monitored rail causes one device reset and event 0x30 while it is outside its
window with PORST_N high; VDD_NV is not monitored and stops the whole device. -/
def execRailWindowExcursion (r : RailName) (s : State) : Host.Outcome State Fault Refusal :=
  let n := railNumber r
  if s.dev.powered = false then .next s
  else if n = 7 then .next (losePower s)
  else
    let b := (1 : BitVec 8) <<< n
    let s := s.onDev fun d => { d with railBad := d.railBad ||| b }
    if outOfReset s = false ∨ flag s.dev.actedRails n = true then .next s
    else .next (deviceReset (countBoot (recordEvent 0x30 8 0 0 15 n (s.onDev fun d => { d with actedRails := d.actedRails ||| b }))))

/-- RAIL_RECOVERED (01 R31): the rail has been back in its range for 10 ms. -/
def execRailRecovered (r : RailName) (s : State) : Host.Outcome State Fault Refusal :=
  let b := ~~~((1 : BitVec 8) <<< railNumber r)
  .next (s.onDev fun d => { d with railBad := d.railBad &&& b, actedRails := d.actedRails &&& b })

/-- REFCLK_LOSS (01 R37): REFCLK has been absent for more than 10 µs; with PORST_N high one device reset and event 0x31,
also for an absence that began while PORST_N was low. -/
def execRefclkLoss (s : State) : Host.Outcome State Fault Refusal :=
  let s := s.onDev fun d => { d with refclkOk := false }
  .next (if outOfReset s = false ∨ s.dev.actedRef = true then s
    else deviceReset (countBoot (recordEvent 0x31 8 0 0 15 0 (s.onDev fun d => { d with actedRef := true }))))

/-- REFCLK_RESTORED (01 R37): REFCLK has met its requirements for 1 ms. -/
def execRefclkRestored (s : State) : Host.Outcome State Fault Refusal :=
  .next (s.onDev fun d => { d with refclkOk := true, actedRef := false })

/-- THERMAL_TRIP (01 R45): THERMTRIP_N asserted and latched, every die stopped, the by-pass closed; the trip is
recorded at the next boot. -/
def execThermalTrip (s : State) : Host.Outcome State Fault Refusal :=
  .next (if s.dev.powered = true ∧ s.dev.thermLatched = false then
    deviceReset ((countBoot s).onDev fun d => { d with thermLatched := true, tripToRecord := true }) else s)

/-- BYPASS_CHECK_TIMEOUT (01 R41): 8 ms after a command the switches do not both show the commanded position. -/
def execBypassCheckTimeout (e w : Bool) (s : State) : Host.Outcome State Fault Refusal :=
  if outOfReset s = false then .next s else
  let cmd := s.dev.bypCmd
  let s := s.onDev fun d => { d with bypE := e, bypW := w }
  if e = cmd ∧ w = cmd then .next s else
  let s := recordEvent 0x34 6 0 0 15 (2 * e.toNat + w.toNat) s
  .next (dropPort 1 (dropPort 0 (s.onDev fun d => { d with
    bypCmd := false, bypFault := true, removing := false, ringState := 2 })))

/-- BYPASS_POSITION_SENSED (10 R307 orders 3 and 4): with both switches at the commanded inserted position the ports
train with their neighbours. With PORST_N low the outputs are low whatever is sensed (01 R27). -/
def execBypassPositionSensed (e w : Bool) (s : State) : Host.Outcome State Fault Refusal :=
  if s.dev.powered = false ∨ s.dev.porstN = false then .next s else
  let s := s.onDev fun d => { d with bypE := e, bypW := w }
  .next (if s.dev.bypCmd = true ∧ e = true ∧ w = true then
    forEach [0, 1] (fun n s => if (s.port n).up then s else restartPort n s) s
   else s)

/-- AGEING_GUARD_STEP (02 R59): 0.25 % more, at most 4.00 %, in the NV die; a cell takes it at the next device
reset. -/
def execAgeingGuardStep (c : Fin 34) (s : State) : Host.Outcome State Fault Refusal :=
  .next (if s.dev.devState = 1 then s.onNv fun n => { n with
    guards := vmod n.guards c fun g => if g.toNat ≥ 16 then g else g + 1 } else s)

end Sys2Proof.Machine
end

