-- ==== Sys2Proof/Machine/PowerManager.lean ====
section
/-! DEFINITION. The power manager: the average-power cap, the droop clamps, the regulator alert, the PMBus and the
voltage steps (14 R367 to R379). -/

set_option Elab.async false

namespace Sys2Proof.Machine

/-- The rail of a compute die. -/
def State.rail (s : State) (d : Nat) : Rail := vget s.power.rails d Rail.reset

/-- One rail changed. -/
def onRail (d : Nat) (f : Rail → Rail) (s : State) : State :=
  s.onPower fun p => { p with rails := vmod p.rails d f }

/-- The power manager works: out of reset, past boot order 6, not in husk mode (14 R374, R379). -/
def managing (s : State) : Bool :=
  s.dev.powered && s.dev.porstN && !s.dev.thermLatched && decide (s.dev.bootOrder ≥ 6) && decide (s.dev.devState ≠ 2)

/-! ### The average-power cap (14 R368 to R371). Energies of one bin in 1/64 mJ. -/

/-- Package energy of a millisecond drawn at issue value k: links, memory and fixed loads whole, compute scaled. -/
def drawn (est : Vector Nat 4) (k : Nat) : Int := ((est[0] + est[1] + est[2]) * 64 + est[3] * k : Nat)

/-- `select`: the greatest ladder value whose draw fits the room; 8 if none does. -/
def selectK (room : Int) (est : Vector Nat 4) : Nat :=
  [16, 24, 32, 40, 48, 56, 64].foldl (fun k r => if drawn est r ≤ room then r else k) 8

/-- Bins of the window: 1,000 a second. -/
def windowBins (s : State) : Nat := 1000 * s.nv.capWindow.toNat
def capUnits (s : State) : Int := (64 * s.nv.capW.toNat : Nat)
def limUnits (s : State) : Int := (64 * packageLimit s.fuse.grade : Nat)

/-- `reset_window`: at boot order 9 and on any write of the cap or the window. -/
def resetWindow (s : State) : State :=
  s.onPower fun p => { p with
    bins := List.replicate (windowBins s) (capUnits s), e := capUnits s * (windowBins s : Nat), oldest := 0,
    kCap := selectK (min (capUnits s) (limUnits s)) p.est }

/-- CAP_WRITE (14 R370): a write of OD 0x3000:01 or 0x3000:02. -/
def execCapWrite (req : EopReq) (s : State) : Host.Outcome State Fault Refusal :=
  let cap := decide (req.sub.toNat = 1)
  .next (eopWrite (fun i j => decide (i = 0x3000) && decide (j = 1 ∨ j = 2)) req
    (fun s _ v => when' (if cap then decide (v < 900) || decide (v > packageLimit s.fuse.grade)
      else decide (v < 2) || decide (v > 32)) stRange)
    (fun _ v _ s => resetWindow (s.onNv fun n =>
      if cap then { n with capW := BitVec.ofNat 16 v } else { n with capWindow := BitVec.ofNat 8 v })) s)

/-- One millisecond of the cap loop (14 R370) with its estimates. -/
def capUpdate (s : State) (est : Vector Nat 4) (p : Power) : Power :=
  let n := windowBins s
  let now := drawn est p.kCap
  let e := p.e - p.bins.getD p.oldest 0 + now
  let bins := p.bins.set p.oldest now
  let oldest := (p.oldest + 1) % n
  let room := min (capUnits s * (n : Nat) - (e - bins.getD oldest 0)) (limUnits s)
  { p with bins := bins, e := e, oldest := oldest, est := est, kCap := selectK room est }

/-- CAP_STEP (14 R370). In husk mode the loop is suspended (R379). -/
def execCapStep (pl pm pf pc : Nat) (s : State) : Host.Outcome State Fault Refusal :=
  .next (if managing s = true ∧ s.dev.bootOrder ≥ 9 then s.onPower (capUpdate s #v[pl, pm, pf, pc]) else s)

/-! ### The PMBus (14 R376 to R379). -/

/-- A VOUT_COMMAND word: ULINEAR16 at the regulator's exponent, a negative number of five bits, rounded to nearest. -/
def voutWord (exp : BitVec 5) (mV : Nat) : BitVec 16 :=
  BitVec.ofNat 16 ((mV * 2 ^ (32 - exp.toNat) * 2 + 1000) / 2000)

/-- The target of a step, in mV; a restore goes to the previous target, which stands as the target already. -/
def stepTarget (k : StepKind) (r : Rail) : Nat :=
  match k with
  | .boot => 750
  | .lowest => 550
  | .ret => 750
  | .restore => r.target

/-- The write of a voltage step. -/
def stepTxn (d : Nat) (k : StepKind) : PmTxn := { PmTxn.reset with rail := Fin.ofNat 2 d, cmd := 0x21, step := some k }
/-- Another transaction. -/
def plainTxn (d : Nat) (cmd data : Nat) : PmTxn :=
  { PmTxn.reset with rail := Fin.ofNat 2 d, cmd := BitVec.ofNat 8 cmd, data := BitVec.ofNat 16 data }

/-- A rail at the start of a step's write transaction (14 R378). -/
def beginStep (k : StepKind) (r : Rail) : Rail :=
  if k = .restore then r else { r with prev := r.target, target := stepTarget k r, step := some k, sent := false }

/-- One bit of the PEC, CRC-8 with x^8 + x^2 + x + 1 (PMBus 1.4, which 14 R376 names). -/
def pecBit (c : Nat) : Nat := if c ≥ 128 then (2 * c) ^^^ 0x107 else 2 * c
/-- The PEC over bytes. -/
def pecOf (bs : List Byte) : Nat := bs.foldl (fun c b => (List.range 8).foldl (fun x _ => pecBit x) (c ^^^ b.toNat)) 0

/-- The address bytes of a rail's regulator (14 R376): 0x60 for VDD_CELL_N, 0x61 for VDD_CELL_S, with the direction bit. -/
def busAddr (rail : Nat) (read : Bool) : Byte := BitVec.ofNat 8 (2 * (0x60 + rail) + read.toNat)

/-- Bytes a command reads (14 R376): none for a write. -/
def readLen (cmd : BitVec 8) : Nat := if cmd = 0x20 then 1 else if cmd = 0x79 then 2 else 0

/-- The bytes the master sends (14 R376): address, command and, in a write, the word and the PEC. -/
def busBytes (t : PmTxn) : List Byte :=
  let head := [busAddr t.rail false, t.cmd]
  if readLen t.cmd ≠ 0 then head ++ [busAddr t.rail true]
  else
    let bs := if t.cmd = 0x03 then head else head ++ leBytes 2 t.data.toNat
    bs ++ [BitVec.ofNat 8 (pecOf bs)]

/-- The PEC of what a read has brought (14 R376, R377); in a write the regulator checks it. -/
def pecHolds (t : PmTxn) (rd : BitVec 16) (pec : BitVec 8) : Bool :=
  decide (readLen t.cmd = 0) || decide (pecOf (busBytes t ++ leBytes (readLen t.cmd) rd.toNat) = pec.toNat)

/-- The transaction at the head of the bus goes out. -/
def sendTxn (s : State) : State :=
  match s.power.bus with
  | [] => s
  | t :: _ => { s with out := { s.out with pmbus := s.out.pmbus ++ [busBytes t] } }

/-- The transaction at the head of the bus starts: a voltage step is in progress from then on, unless the
transaction is a later attempt. -/
def beginTxn (s : State) : State :=
  match s.power.bus with
  | [] => s
  | t :: l =>
    match t.step with
    | none => sendTxn s
    | some k =>
      let s := if t.retry then s else onRail t.rail (beginStep k) s
      sendTxn (s.onPower fun p =>
        { p with bus := { t with data := voutWord (s.rail t.rail).exp (s.rail t.rail).target } :: l })

/-- Transactions put behind those waiting. -/
def enqueue (l : List PmTxn) (s : State) : State :=
  let idle := decide (s.power.bus = [])
  let s := s.onPower fun p => { p with bus := p.bus ++ l }
  if idle then beginTxn s else s

/-- A transaction put next on the bus. -/
def enqueueNext (t : PmTxn) (s : State) : State :=
  match s.power.bus with
  | [] => enqueue [t] s
  | h :: l => s.onPower fun p => { p with bus := h :: t :: l }

/-- A rail whose target the power manager may write (14 R377). -/
def commanded (r : Rail) : Bool := !r.noVout && decide (r.exp ≠ 0)

/-- Writes of a rail's target that a later step replaces: the waiting ones end, the running one no longer counts. -/
def dropSteps (d : Nat) (s : State) : State :=
  let old := fun (t : PmTxn) => decide (t.rail.val = d) && t.step.isSome && decide (t.step ≠ some .restore)
  s.onPower fun p => { p with
    bus := match p.bus with
      | [] => []
      | h :: l => (if old h then { h with step := none } else h) :: l.filter fun t => !old t
    retries := p.retries.filter fun t => !old t }

/-- A step in progress is abandoned and the previous target written at once; the restore write is never abandoned
(14 R379). `again`: a return is tried again later. -/
def abandonStep (d : Nat) (again : Bool) (s : State) : State :=
  let r := s.rail d
  if r.step = none ∨ r.step = some .restore then s else
  let s := onRail d (fun r => { r with
    target := r.prev, prev := r.target, step := some .restore, sent := false,
    next := if again && decide (r.step = some .ret) then some .ret else none }) (dropSteps d s)
  enqueueNext (stepTxn d .restore) s

/-- Whether a rail has made its return: its step has completed, or its regulator is in a hold (14 R375, R377). -/
def railReturned (s : State) (d : Nat) : Bool :=
  let r := s.rail d
  r.hold || (r.next.isNone && decide (r.step ≠ some .ret ∧ r.step ≠ some .restore) &&
    !((s.power.bus ++ s.power.retries).any fun t => decide (t.rail.val = d) && t.step.isSome))

/-- The return of R375 ends once both rails have made it and both regulators have been read and cleared: k_alert
is 64 again, but for a regulator-fault hold. -/
def finishReturn (s : State) : State :=
  if railReturned s 0 && railReturned s 1 && !(s.power.bus.any fun t => decide (t.cmd = 0x79 ∨ t.cmd = 0x03)) then
    s.onPower fun p => { p with returning := false }
  else s

/-- A regulator fault recorded (14 R377; 15 R389). -/
def regulatorFault (d cmd : Nat) (s : State) : State := recordEvent 0x33 5 d 0 15 cmd s

/-- VOUT_MODE reports linear mode with exponent −9 to −13 (14 R376). -/
def modeSupported (rd : BitVec 16) : Bool := decide (fld rd 7 5 = 0) && decide (19 ≤ fld rd 4 0) && decide (fld rd 4 0 ≤ 23)

/-- What an acknowledged transaction does. -/
def transactionDone (t : PmTxn) (rd : BitVec 16) (s : State) : State :=
  let d := t.rail.val
  if t.cmd = 0x20 then
    if modeSupported rd then
      enqueue [plainTxn d 0x27 1, stepTxn d (if s.power.lowest then .lowest else .boot)]
        (onRail d (fun r => { r with exp := BitVec.ofNat 5 (fld rd 4 0) }) s)
    else regulatorFault d 0x20 (onRail d (fun r => { r with noVout := true }) s)
  else if t.step.isSome ∧ (s.rail d).step = t.step then onRail d (fun r => { r with sent := true }) s
  else s

/-- A regulator-fault hold ends with the success of what was repeated (14 R377). -/
def releaseHold (d : Nat) (s : State) : State :=
  if (s.power.bus ++ s.power.retries).any fun t => decide (t.rail.val = d) && t.retry then s
  else onRail d (fun r => { r with hold := false }) s

/-- A transaction that failed: repeated up to three times, then a regulator fault, a hold and a repeat every
10 ms (14 R377). The write of an abandoned step is not repeated. -/
def transactionFailed (t : PmTxn) (l : List PmTxn) (s : State) : State :=
  let put := fun (bus : List PmTxn) (s : State) => s.onPower fun p => { p with bus := bus }
  if t.cmd = 0x21 ∧ t.step = none then beginTxn (put l s)
  else if t.retry then
    beginTxn ((put l s).onPower fun p => { p with retries := p.retries ++ [t] })
  else if t.tries < 3 then sendTxn (put ({ t with tries := t.tries + 1 } :: l) s)
  else
    let s := (put l s).onPower fun p => { p with retries := p.retries ++ [{ t with retry := true }] }
    beginTxn (regulatorFault t.rail t.cmd.toNat (onRail t.rail (fun r => { r with hold := true }) s))

/-- PMBUS_TRANSACTION_END (14 R376, R377): the running transaction ends, acknowledged or not, with what it has read and
its PEC; the next one starts. -/
def execPmbusTransactionEnd (ack : Bool) (rd : PmbusData) (s : State) : Host.Outcome State Fault Refusal :=
  match s.power.bus with
  | [] => .next s
  | t :: l =>
    if ack && pecHolds t rd.word rd.pec then
      let s := transactionDone t rd.word (beginTxn (s.onPower fun p => { p with bus := l }))
      .next (finishReturn (releaseHold t.rail s))
    else .next (finishReturn (transactionFailed t l s))

/-- PMBUS_RETRY (14 R377): every 10 ms what failed on a rail is repeated. -/
def execPmbusRetry (d : Die) (s : State) : Host.Outcome State Fault Refusal :=
  let mine := fun (t : PmTxn) => decide (t.rail.val = dieNum d)
  let l := s.power.retries.filter mine
  .next (if l = [] then s else
    enqueue l (s.onPower fun p => { p with retries := p.retries.filter fun t => !mine t }))

/-! ### Droop and the regulator alert (14 R372 to R375). -/

/-- DROOP_TRIP (14 R372, R379): the clamp becomes active; a step in progress on the rail is abandoned, but for the
step down of the lowest state. -/
def execDroopTrip (d : Die) (det : Fin 16) (s : State) : Host.Outcome State Fault Refusal :=
  let n := dieNum d
  if managing s = false then .next s else
  let s := onRail n (fun r => { r with droop := true, tripped := r.tripped ||| ((1 : BitVec 16) <<< det.val) }) s
  .next (if (s.rail n).step = some .lowest then s else abandonStep n true s)

/-- A return that an ended condition lets start again (14 R379). -/
def resumeReturn (d : Nat) (s : State) : State :=
  let r := s.rail d
  if r.next = some .ret ∧ r.step = none ∧ r.droop = false ∧ s.power.lowest = false then
    enqueue [stepTxn d .ret] (onRail d (fun r => { r with next := none }) s)
  else s

/-- DROOP_CLAMP_RELEASE (14 R372): no detector of the die has been tripped for 10 µs. -/
def execDroopClampRelease (d : Die) (s : State) : Host.Outcome State Fault Refusal :=
  let n := dieNum d
  .next (if (s.rail n).droop then resumeReturn n (onRail n (fun r => { r with droop := false, tripped := 0 }) s) else s)

/-- The lowest state entered at one rail: a step in progress is abandoned, otherwise 0.55 V is requested. -/
def lowerRail (d : Nat) (s : State) : State :=
  let r := s.rail d
  let s := onRail d (fun r => { r with next := none }) s
  match r.step with
  | none => if commanded r then enqueue [stepTxn d .lowest] (dropSteps d s) else s
  | some _ => abandonStep d false s

/-- The lowest state entered (14 R374): the return sequence ends at once; what a regulator fault holds is still repeated
(R377). -/
def enterLowest (s : State) : State :=
  let seqCmd := fun (t : PmTxn) => decide (t.cmd = 0x79 ∨ t.cmd = 0x03) && !t.retry
  let s := s.onPower fun p => { p with
    lowest := true, returning := false, bus := p.bus.take 1 ++ (p.bus.drop 1).filter fun t => !seqCmd t }
  lowerRail 1 (lowerRail 0 s)

/-- VR_ALERT_ASSERT (14 R374): ignored, but for the level of the pin, while PORST_N is low and in husk mode. -/
def execVrAlertAssert (s : State) : Host.Outcome State Fault Refusal :=
  if s.dev.powered = false ∨ s.dev.vrAlertN = false then .next s
  else
    let s := s.onDev fun d => { d with vrAlertN := false }
    .next (if managing s then enterLowest s else s)

/-- The return of one rail: at once, or after a restore in progress (14 R375, R379). -/
def returnRail (d : Nat) (s : State) : State :=
  let r := s.rail d
  if commanded r = false then s
  else if r.step = some .restore then onRail d (fun r => { r with next := some .ret }) s
  else enqueue [stepTxn d .ret] s

/-- VR_ALERT_RELEASE (14 R375): status read and faults cleared at both regulators, then both rails stepped back,
N first; ignored in husk mode (R379). -/
def execVrAlertRelease (s : State) : Host.Outcome State Fault Refusal :=
  if s.dev.powered = false ∨ s.dev.vrAlertN = true then .next s else
  let s := s.onDev fun d => { d with vrAlertN := true }
  if managing s = false ∨ s.power.lowest = false then .next s else
  let s := s.onPower fun p => { p with lowest := false, returning := true }
  let s := enqueue [plainTxn 0 0x79 0, plainTxn 1 0x79 0, plainTxn 0 0x03 0, plainTxn 1 0x03 0] (waitingSteps 1 (waitingSteps 0 s))
  .next (returnRail 1 (returnRail 0 s))
where
  /-- Lowest-state writes that have not begun are replaced by the return. -/
  waitingSteps (d : Nat) (s : State) : State :=
    let old := fun (t : PmTxn) => decide (t.rail.val = d) && decide (t.step = some .lowest)
    s.onPower fun p => { p with
      bus := p.bus.take 1 ++ (p.bus.drop 1).filter fun t => !old t, retries := p.retries.filter fun t => !old t }

/-- VOLTAGE_STEP_END (14 R378, R379): a restore is followed by the lowest-state write, or by the return it
interrupted. -/
def execVoltageStepEnd (d : Die) (s : State) : Host.Outcome State Fault Refusal :=
  let n := dieNum d
  let r := s.rail n
  if r.step = none ∨ r.sent = false then .next s else
  let s := onRail n (fun r => { r with step := none, sent := false }) s
  .next (if r.step = some .restore ∧ s.power.lowest = true then enqueue [stepTxn n .lowest] s
    else finishReturn (resumeReturn n s))

end Sys2Proof.Machine
end

