-- ==== Sys2Proof/Machine/Boot.lean ====
section
/-! DEFINITION. The boot sequence, slot selection, husk mode (12 R341 to R344; 15 R390, R391, R396 to R398). -/

set_option Elab.async false

namespace Sys2Proof.Machine

/-- The chain value over the measurements (12 R343). -/
def chainOf (m : Vector (BitVec 256) 5) : BitVec 256 :=
  m.toList.foldl (fun x d => BitVec.ofNat 256 (sha256 (beBytes 32 x.toNat ++ beBytes 32 d.toNat))) 0

/-- The measurements taken so far (12 R343, R349): the boot ROM's, and those of the slot. -/
def measured (slot : Vector (BitVec 256) 4) (s : State) : State :=
  let m : Vector (BitVec 256) 5 := #v[s.fuse.romDigest, slot[0], slot[1], slot[2], slot[3]]
  s.onDev fun d => { d with meas := m, chain := chainOf m }

/-- The identity-state record with the highest sequence number and its place (12 R346). -/
def latestIdRec (l : List (Nat × IdRec)) : Option (Nat × IdRec) :=
  l.foldl (fun b r => match b with
    | none => some r
    | some y => if y.2.seqNo.toNat < r.2.seqNo.toNat then some r else some y) none

/-- Order 2 (12 R342, R346, R347; 01 R45): a new boot count, the identity state, a thermal trip recorded. -/
def bootRead (s : State) : State :=
  let s := (s.onDev fun d => { d with resetPending := false, evOrd := 0, bootOrder := 2 }).onNv
    fun n => { n with bootCount := n.bootCount + 1 }
  let s := match latestIdRec s.nv.idRing with
    | none => s.onAtt fun a => { a with usable := false }
    | some (i, r) =>
      (s.onAtt fun a => { a with q := r.lim, lim := r.lim, topSig := r.topSig, usable := true }).onNv fun n => { n with idPos := (i + 1) % 32 }
  let s := measured (Vector.replicate 4 0) s
  if s.dev.tripToRecord then recordEvent 0x32 8 0 0 15 0 (s.onDev fun d => { d with tripToRecord := false }) else s

/-- Port M trained, with its persistent settings (12 R342 order 11, R349; 11 R311, R327). -/
def startPortM (s : State) : State := s.onEop fun e => { e with cfg := s.nv.portM }

/-- Husk mode entered (15 R397; 12 R349): the husk service answers at port M. -/
def enterHusk (cause : Nat) (s : State) : State :=
  recordEvent 0x40 8 0 0 15 cause
    (startPortM (s.onDev fun d => { d with devState := 2, huskCause := BitVec.ofNat 8 cause }))

def State.slot (s : State) (i : Nat) : FwSlot := vget s.nv.slots i FwSlot.reset
def onSlot (i : Nat) (f : FwSlot → FwSlot) (s : State) : State := s.onNv fun n => { n with slots := vmod n.slots i f }

/-- A trial that never reached ready (12 R341). -/
def abandonTrial (i : Nat) (s : State) : State :=
  let f := s.slot i
  if f.trial then recordEvent 0x39 7 i 0 15 f.version.toNat (onSlot i (fun f => { f with pending := false, trial := false }) s)
  else s

/-- The candidates in order: a pending slot first, then the active one, then the other (12 R341). -/
def candidates (s : State) : List Nat :=
  let pend := [0, 1].filter fun i => (s.slot i).pending && !(s.slot i).failed
  let good := fun (i : Nat) => (s.slot i).valid && !(s.slot i).failed && decide (s.nv.rollbackMin.toNat ≤ (s.slot i).version.toNat)
  pend ++ ([s.nv.active.val, 1 - s.nv.active.val].filter good)

/-- A pending slot that is tried is marked in its record. -/
def markTrials (s : State) : State :=
  forEach [0, 1] (fun i s => if (s.slot i).pending && !(s.slot i).failed then onSlot i (fun f => { f with trial := true }) s else s) s

/-- The order at which the verification of a slot's stored image fails, if it does (12 R338, R341, R342). -/
def slotFault (s : State) (i : Nat) : Option Nat :=
  imageFault s.fuse.vendorKey s.nv.rollbackMin.toNat (s.slot i).image

/-- A slot that fails at a boot order (12 R341). -/
def failSlot (i order : Nat) (s : State) : State :=
  deviceReset (recordEvent 0x38 7 i 0 15 order (onSlot i (fun f => { f with failed := true }) s))

/-- A cell's class at a device reset: back in service after three passed proofs (15 R391), or fenced once permanent
(R390). -/
def settleCell (c : Nat) (s : State) : State :=
  let u := s.unit 1 c
  if u.cls = 3 ∧ u.proofPasses.toNat ≥ 3 ∧ u.proofFailed = false then
    s.onUnit 1 c fun u => { u with cls := 1, window := 0, proofPasses := 0 }
  else if u.pend then s.onUnit 1 c fun u => { u with cls := 3, pend := false } else s

/-- A unit classed permanent becomes retired. -/
def retireUnit (uclass i : Nat) (s : State) : State :=
  if (s.unit uclass i).pend then s.onUnit uclass i fun u => { u with cls := 3, pend := false } else s

/-- Units of a list that are retired, as a bit mask. -/
def retiredMask (l : List Nat) (bad : Nat → Bool) : Nat := sumN (l.map fun i => if bad i then 2 ^ i else 0)

/-- Order 6 (12 R342): the regulators read over PMBus; the fault history's fences, stacks and links in effect. -/
def bootHistory (s : State) : State :=
  let s := s.onDev fun d => { d with bootOrder := 6 }
  let s := enqueue [plainTxn 0 0x20 0, plainTxn 1 0x20 0] s
  let s := if s.dev.vrAlertN then s else enterLowest s
  let s := forEach (List.range 34) settleCell s
  let s := forEach (List.range 512) (retireUnit 2) s
  let s := forEach (List.range 4) (retireUnit 4) s
  let stackOut := fun (st : Nat) => (List.range 16).any fun ch => decide ((s.unit 2 (st * 16 + ch)).cls.toNat ≥ 2)
  s.onDev fun d => { d with
    fenced := BitVec.ofNat 34 (retiredMask (List.range 34) fun c => decide ((s.unit 1 c).cls = 3)),
    inService := ~~~BitVec.ofNat 32 (retiredMask (List.range 32) stackOut) }

/-- The husk cause evaluated at order 6, 0 if none (15 R396). -/
def huskAt6 (s : State) : Nat :=
  if popCount (s.fuse.enabled &&& ~~~s.dev.fenced) < 8 then 3
  else if popCount s.dev.inService < 8 || !flag s.dev.inService 0 || !flag s.dev.inService 16 then 4
  else if (List.range 4).any fun i => decide ((s.unit 4 i).cls.toNat ≥ 2) then 5
  else 0

/-- Order 7 (12 R342; 09 R253): stacks trained, repaired, cleared and tested. -/
def bootStacks (o : BootFindings) (s : State) : State :=
  let s := forEach (List.range 32) applyRepairs { s with mem := Memory.reset, dev := { s.dev with bootOrder := 7 } }
  forEach o.badChans (fun x s => recordEvent 0x14 2 (x.1.val * 16 + x.2.1.val) 0 15 x.2.2 s) s

/-- Order 8 (12 R342): the three components copied into the steward firmware region. -/
def bootCopy (img : List Byte) (s : State) : State :=
  { s with mem := s.mem.writeN stewardBase (regionBytes img), dev := { s.dev with bootOrder := 8 } }

/-- A cell that fails cell proof at order 9 is fenced at once (15 R390). -/
def bootCell (x : Fin 34 × BitVec 40) (s : State) : State :=
  if s.present x.1 then
    (recordEvent 0x05 1 x.1 stResidue 15 x.2.toNat s).onUnit 1 x.1 (fun u => { u with cls := 3, pend := false }) |>.onDev
      fun d => { d with fenced := d.fenced ||| ((1 : BitVec 34) <<< x.1.val) }
  else s

/-- Order 9 (12 R342; 02 R59; 14 R370): cells at their ageing guards and proved; the cap window reset. -/
def bootCells (o : BootFindings) (s : State) : State :=
  let s := forEach (List.range 34) (fun c s => s.onCell c fun x => { x with guard := vget s.nv.guards c 0 }) s
  resetWindow (forEach o.failedCells bootCell (s.onDev fun d => { d with bootOrder := 9 }))

/-- Order 10 at one port (12 R342; 10 R278, R280): persistent settings in force, every lane tested in loop-back. -/
def bootPort (n : Nat) (good : BitVec 8) (s : State) : State :=
  let s := retireLanes n s
  let out := excludedLanes s n
  let s := s.onPort n fun q => { q with cfg := vget s.nv.ports n PortCfg.reset, classes := s.nv.classes }
  let s := s.onDev fun d => { d with loopGood := vmod d.loopGood n fun _ => good &&& ~~~out }
  forEach ((List.range 8).filter fun l => !flag good l && !flag out l) (fun l s => recordEvent 0x20 3 (n * 8 + l) 0 15 0 s) s

/-- Orders 10 and 11: the ring ports tested, port M up, and the partitions defined again (13 R365). -/
def bootRest (o : BootFindings) (s : State) : State :=
  let s := bootPort 1 o.goodW (bootPort 0 o.goodE s)
  let s := forEach (List.range 8) (fun p s => s.onPart p fun q => { q with st := restState s p }) s
  startPortM (s.onDev fun d => { d with bootOrder := 11 })

/-- Orders 4 to 11 with a verified slot. -/
def bootSlot (o : BootFindings) (i : Nat) (s : State) : State :=
  let img := (s.slot i).image
  let s := bootHistory (measured (imageMeasures img) (s.onDev fun d => { d with slot := some (Fin.ofNat 2 i) }))
  if huskAt6 s ≠ 0 then enterHusk (huskAt6 s) s else
  let s := bootCopy img (bootStacks o s)
  if o.copyBad then failSlot i 8 s else bootRest o (bootCells o s)

/-- Orders 3 to 5 (12 R341, R342): one slot tried and its image verified. -/
def bootChoose (o : BootFindings) (s : State) : State :=
  let s := abandonTrial 1 (abandonTrial 0 s)
  let l := candidates s
  let s := markTrials s
  match l with
  | [] => enterHusk 1 s
  | i :: _ => match slotFault s i with
    | none => bootSlot o i s
    | some n => failSlot i n s

/-- BOOT_START (12 R341, R342; 15 R396): one boot attempt, orders 1 to 11. -/
def execBootStart (o : BootFindings) (s : State) : Host.Outcome State Fault Refusal :=
  if outOfReset s = false ∨ s.dev.refclkOk = false ∨ s.dev.railBad ≠ 0 ∨ s.dev.resetPending = false then .next s else
  let s := bootRead s
  .next (if s.nv.stwResets.toNat ≥ 2 then enterHusk 2 (s.onNv fun n => { n with stwResets := 1 })
    else if s.nv.noReady.toNat ≥ 3 then enterHusk 6 s
    else bootChoose o s)

/-- DEVICE_READY (12 R341, R342 order 12, R344; 15 R396): the slot is the active one, the rollback minimum that follows it
begins to be written (R350), insertion follows at once where OD 0x5000:03 is 0, the hour begins. -/
def execDeviceReady (s : State) : Host.Outcome State Fault Refusal :=
  match s.dev.slot with
  | some i =>
    if s.dev.bootOrder ≠ 11 ∨ s.dev.devState ≠ 0 then .next s else
    let least := imageMinVer (s.slot i).image
    let s := onSlot i (fun f => { f with pending := false, trial := false, failed := false }) s
    let s := s.onNv fun n => { n with active := i }
    .next (s.onDev fun d => { d with
      devState := 1, bootOrder := 12, hourArmed := true, autoInsert := decide (s.nv.insertMode = 0),
      minPending := if s.nv.rollbackMin.toNat < least then some (BitVec.ofNat 32 least) else none })
  | none => .next s

/-- BOOT_TIMEOUT (12 R342; 15 R389): order 12 not reached within 4.0 s; `order` is the last one completed. -/
def execBootTimeout (order : BitVec 8) (s : State) : Host.Outcome State Fault Refusal :=
  .next (if outOfReset s = true ∧ s.dev.resetPending = false ∧ s.dev.devState = 0 then
    deviceReset (countBoot (recordEvent 0x3A 8 0 0 15 order.toNat s)) else s)

/-- READY_HOUR_EXPIRY (15 R396). -/
def execReadyHourExpiry (s : State) : Host.Outcome State Fault Refusal :=
  .next (if s.dev.hourArmed = true ∧ s.dev.devState = 1 then
    (s.onDev fun d => { d with hourArmed := false }).onNv fun n => { n with stwResets := 0, noReady := 0 } else s)

end Sys2Proof.Machine
end

