-- ==== Sys2Proof/Machine/BoundaryScan.lean ====
section
/-! DEFINITION. The test access port (01 R47): one command loads an instruction and shifts its data register.
Bits are listed in the order in which they are shifted (log entry 28). -/

set_option Elab.async false

namespace Sys2Proof.Machine

/-- The port works whenever VDD_NV and VDD_LINK are within tolerance. -/
def tapWorks (s : State) : Bool := s.dev.powered && !flag s.dev.railBad 5

/-- A register shifted: its captured bits come out first, then what came in; what stays is the last bits in. -/
def shiftOut (reg tdi : List Bool) : List Bool := (reg ++ tdi).take tdi.length
def shiftIn (reg tdi : List Bool) : List Bool := (reg ++ tdi).drop tdi.length

/-- Levels of the status outputs (01 R26, R27): THERMTRIP_N, HUSK_N, BYP_E_N, BYP_W_N; released without power. -/
def statusLevels (s : State) : List Bool :=
  let d := s.dev
  [!d.powered || !d.thermLatched, !d.powered || !(d.porstN && decide (d.devState = 2)),
   !d.powered || (d.porstN && d.bypE), !d.powered || (d.porstN && d.bypW)]

/-- Levels of the single-ended signal lands in the order of the table *Signal and sense lands*: PORST_N, VR_ALERT_N,
the status outputs, PMB_SCL, PMB_SDA in and out. The lands of the port itself are not in the chain (log entry 28). -/
def landLevels (s : State) : List Bool := [s.dev.porstN, s.dev.vrAlertN] ++ statusLevels s ++ [true, true, true]

/-- Test-Logic-Reset, in which a low TRST_N holds the port (IEEE 1149.1): IDCODE loaded, nothing driven, TDO high
impedance. -/
def tapReset (j : Jtag) : Jtag := { j with trstN := false, ir := 0x02, drive := none, tdo := [] }

/-- One operation of the port, with the level of TRST_N. -/
def tapShift (tap : TapInput) (ir : Nat) (reg : List Bool) (f : Jtag → List Bool → Jtag) (s : State) : State :=
  if tapWorks s then
    if tap.trst = false then { s with jtag := tapReset s.jtag } else
    let out := shiftOut reg tap.tdi
    let stay := shiftIn reg tap.tdi
    { s with jtag := f { s.jtag with trstN := true, ir := BitVec.ofNat 8 ir, tdo := out } stay }
  else s

/-- JTAG_BYPASS (01 R47): one bit, captured as 0; outputs that EXTEST drove are released. -/
def execJtagBypass (tap : TapInput) (s : State) : Host.Outcome State Fault Refusal :=
  .next (tapShift tap 0xFF [false] (fun j r => { j with bypass := r.headD false, drive := none }) s)

/-- The 32 bits of a word, least significant first. -/
def wordBits (w : BitVec 32) : List Bool := (List.range 32).map fun i => w.getLsbD i

/-- JTAG_IDCODE (01 R47): 0x1D04_A4B3 shifted out, least significant bit first. -/
def execJtagIdcode (tap : TapInput) (s : State) : Host.Outcome State Fault Refusal :=
  .next (tapShift tap 0x02 (wordBits s.jtag.idcode) (fun j _ => { j with drive := none }) s)

/-- JTAG_SAMPLE_PRELOAD (01 R47): the lands sampled, the chain loaded. -/
def execJtagSamplePreload (tap : TapInput) (s : State) : Host.Outcome State Fault Refusal :=
  .next (tapShift tap 0x01 (landLevels s) (fun j r => { j with chain := r, drive := none }) s)

/-- JTAG_EXTEST (01 R47): drives the chain while PORST_N is low, and acts as SAMPLE/PRELOAD otherwise. -/
def execJtagExtest (tap : TapInput) (s : State) : Host.Outcome State Fault Refusal :=
  .next (tapShift tap 0x00 (landLevels s)
    (fun j r => { j with chain := r, drive := if s.dev.porstN then none else some r }) s)

end Sys2Proof.Machine
end

