-- ==== Sys2Proof/Machine/Collectives.lean ====
section
/-! DEFINITION. Collectives and barriers as frames bring them, and their timeout (10 R300 to R305). -/

set_option Elab.async false

namespace Sys2Proof.Machine

/-- A group list that 10 R302 refuses: its length, a reserved byte, a ring id, a partition, a repeated pair. -/
def groupBad (s : State) (bs : List Byte) : Bool :=
  decide (bs.length % 4 ≠ 0) || decide (bs.length > 16384) ||
  ((List.range (bs.length / 4)).any fun i =>
    decide (bs.getD (4 * i + 3) 0 ≠ 0) || decide (leNat (slice bs (4 * i) 2) ≥ s.nv.ringSize.toNat) ||
    decide ((bs.getD (4 * i + 2) 0).toNat > 7)) ||
  hasDup (groupMembers bs)

/-- GROUP_LIST_WRITE (10 R301, R302): a member list, sent by SEG_WRITE, checked; the group's instance numbers start
again. -/
def execGroupListWrite (req : EopReq) (s : State) : Host.Outcome State Fault Refusal :=
  let g := req.sub.toNat - 1
  .next (eopSegWrite (fun i j => decide (i = 0x5600) && (entryAt i j).isSome) req
    (fun _ => false)
    (fun s p bs => worst [when' (groupBad s bs) stRange, when' ((s.part p).colls.any fun x => decide (x.group = g)) stNotReady])
    (fun _ s => s)
    (fun p bs s => s.onPart p fun q => { q with
      groups := vmod q.groups g fun _ => bs, inst := vmod q.inst g fun _ => 0, binst := vmod q.binst g fun _ => 0 }) s)

/-- CSEG (10 R304): a segment is reduced into staging, or kept there, and sent onward. -/
def execCseg (port : RingPort) (f : VrtFrame) (s : State) : Host.Outcome State Fault Refusal :=
  .next (onFrame (portNum port) 4 f (fun f s => consume (portNum port) f (fun s =>
    sackSeg (portNum port) f (orEarly (portNum port) f (segFrame f.dstPart.toNat f) s)) s) s)

/-- A CCTL frame of one kind. -/
def onControl (port : RingPort) (kind : Nat) (f : VrtFrame) (s : State) : State :=
  if frameOk f = true ∧ f.type = 5 ∧ (frameBody f).head? ≠ some (BitVec.ofNat 8 kind) then s
  else onFrame (portNum port) 5 f (fun f s => consume (portNum port) f (orEarly (portNum port) f (controlFrame f.dstPart.toNat f)) s) s

/-- CCTL_READY (10 R305): the coordinator records a member's READY, and commits once it holds all. -/
def execCctlReady (port : RingPort) (f : VrtFrame) (s : State) : Host.Outcome State Fault Refusal :=
  .next (onControl port 1 f s)

/-- CCTL_ABORT_REQ (10 R305): the coordinator decides abort if it has not yet decided. -/
def execCctlAbortReq (port : RingPort) (f : VrtFrame) (s : State) : Host.Outcome State Fault Refusal :=
  .next (onControl port 2 f s)

/-- CCTL_COMMIT (10 R305): the member copies staging to DADDR and completes with OK. -/
def execCctlCommit (port : RingPort) (f : VrtFrame) (s : State) : Host.Outcome State Fault Refusal :=
  .next (onControl port 3 f s)

/-- CCTL_ABORT (10 R305): the member completes with COLLECTIVE_ABORTED. -/
def execCctlAbort (port : RingPort) (f : VrtFrame) (s : State) : Host.Outcome State Fault Refusal :=
  .next (onControl port 4 f s)

/-- COLLECTIVE_TIMEOUT (10 R305 order 7) of one collective or barrier: CTIMEOUT after READY or ABORT_REQ without a decision
completes with RING_HOP_TIMEOUT; before READY it is a failure, which sends ABORT_REQ. A barrier completes with
RING_HOP_TIMEOUT. -/
def execCollectiveTimeout (p : Fin 8) (w : WorkName) (s : State) : Host.Outcome State Fault Refusal :=
  match workOf s p w.group w.barrier w.inst with
  | none => .next s
  | some x =>
    if memberActs s p = false then .next s
    else if x.barrier ∨ x.ready ∨ x.aborted then .next (endColl p x stHop stNotReady [] s)
    else .next (failColl p w.group x.inst s)

/-- BARRIER_FRAME (10 R300): a barrier arrival at the coordinator, or a release at a member. -/
def execBarrierFrame (port : RingPort) (f : VrtFrame) (s : State) : Host.Outcome State Fault Refusal :=
  .next (onFrame (portNum port) 9 f (fun f s => consume (portNum port) f (orEarly (portNum port) f (barrierFrame f.dstPart.toNat f)) s) s)

end Sys2Proof.Machine
end

