-- ==== Sys2Proof/Machine/Digests.lean ====
section
/-! DEFINITION. The running digest, the determinism region and the replay capsules of a partition (16 R402 to R408), and
the tensor entries of a context record (08 R237). -/

set_option Elab.async false

namespace Sys2Proof.Machine

/-- 32 bytes of a digest. -/
def digestBytes (d : BitVec 256) : List Byte := beBytes 32 d.toNat
def sha (bs : List Byte) : BitVec 256 := BitVec.ofNat 256 (sha256 bs)

/-- A tensor entry: TID, slot, byte count, content hash (08 R237). -/
def tensorEntry (x : Nat × Nat × Nat × Nat) (h : BitVec 64) : List Byte :=
  leBytes 32 (x.1 * 2 ^ 232 + x.2.1 % 4 * 2 ^ 230 + x.2.2.2 * 2 ^ 64 + h.toNat)

/-- The content hashes of persistent instances, by their places in TID-then-slot order (16 R402, R403); an
uncorrectable word ends it (16 R416). -/
def rehash (p : Nat) : List Nat → State → Bool × State
  | [], s => (true, s)
  | i :: r, s =>
    match (modOf s p).instances[i]? with
    | none => rehash p r s
    | some x =>
      match relRead p x.2.2.1 x.2.2.2 s with
      | (none, s) => (false, s)
      | (some bs, s) => rehash p r (s.onPart p fun q => { q with det := { q.det with
          hashes := mapSet q.det.hashes i (contentHash bs) } })

/-- Every instance of the loaded module. -/
def allInstances (s : State) (p : Nat) : List Nat := List.range (modOf s p).instances.length

/-- The tensor entries of all persistent instances with the hashes held. -/
def tensorEntries (s : State) (p : Nat) : List Byte :=
  (modOf s p).instances.zipIdx.flatMap fun x => tensorEntry x.1 (mapGet 0 (s.part p).det.hashes x.2)

/-- Parameter registers p0 to p127, the same on every cell of the partition (07 R191). -/
def paramBytes (s : State) (p : Nat) : List Byte :=
  ((vget (s.cell ((s.liveCells p).head?.getD 34)).core.p · 0) <$> List.range 128).flatMap fun (v : BitVec 64) => leBytes 8 v.toNat

/-- Replay arguments. -/
def argBytes (q : Part) : List Byte := q.args.toList.flatMap fun (v : BitVec 64) => leBytes 8 v.toNat

/-- An arrival entry (16 R403). -/
def arrivalBytes (a : Arrival) : List Byte :=
  leBytes 1 a.lcell.toNat ++ leBytes 1 a.chan.toNat ++ zeros 6 ++ leBytes 8 a.index.toNat ++ leBytes 8 a.hash.toNat ++ leBytes 8 a.len.toNat

/-- Arrivals by logical cell, channel, index. -/
def sortArrivals (l : List Arrival) : List Arrival :=
  let key := fun (a : Arrival) => (a.lcell.toNat * 256 + a.chan.toNat) * 2 ^ 64 + a.index.toNat
  sortBy (fun a b => decide (key a ≤ key b)) l

/-- The arrival counts at present, 32 a logical cell. -/
def countBytes (s : State) (p : Nat) : List Byte :=
  (List.range (32 * (modOf s p).nLogical)).flatMap fun i => leBytes 4 (mapGet 0 (s.part p).det.counts i).toNat

/-- Start of a capsule slot in the partition's range. -/
def slotBase (s : State) (p k : Nat) : Nat :=
  let d := (s.part p).det
  regionBase s p + 0x400000 + (if cupEnabled d.cup then 0x4000000 else 0) + k * slotSize d

/-- Steward firmware's write into the region. -/
def putRegion (p a : Nat) (bs : List Byte) (s : State) : State := (relWrite false p a bs s).2

/-- A range of the partition's stacks cleared. -/
def clearRel (p a n : Nat) (s : State) : State :=
  { s with mem := (relPieces s p a n).foldl (fun m x => m.clear x.1 x.2) s.mem }

/-- The region header (16 R405). -/
def putHeader (p : Nat) (s : State) : State :=
  let q := s.part p
  let n := if q.det.prov then (modOf s p).instances.length else 0
  let w := 0x445A5231 * 2 ^ 480 + q.det.caps * 2 ^ 464 + (if cupEnabled q.det.cup then 2 ^ 463 else 0)
    + (if q.det.prov then 2 ^ 462 else 0) + q.commitN * 2 ^ 416 + q.replays.toNat * 2 ^ 352 + n % 2 ^ 32 * 2 ^ 320
    + leNat (digestBytes q.det.run) * 2 ^ 64
  if q.det.on then putRegion p (regionBase s p) (leBytes 64 w) s else s

/-- The running digest takes a value, and the header with it. -/
def setRun (p : Nat) (d : BitVec 256) (s : State) : State :=
  putHeader p (s.onPart p fun q => { q with det := { q.det with run := d } })

/-- What a module load makes effective (16 R403, R405, R406): the settings, an empty digest, the region cleared. -/
def loadDet (p : Nat) (s : State) : State :=
  let s := s.onPart p fun q => { q with
    det := { Det.reset with prov := q.provOn, cup := q.cupCfg, caps := q.capsN.toNat },
    cup := { Cup.reset with st := if cupEnabled q.cupCfg then 1 else 0 } }
  let s := clearRel p (regionBase s p) (regionSize (s.part p).det) s
  putHeader p (if (s.part p).det.on then (rehash p (allInstances s p) s).2 else s)

/-- Size of the contents before the tensor entries of a capsule. -/
def capsuleFixed (nL : Nat) : Nat := 64 + 64 + 32 + 64 + 1024 + 128 * nL + 128

/-- Entries that fit into a capsule beside its fixed parts (16 R408). -/
def capsuleRoom : Nat := 261972

/-- Order 1 of a capsule (16 R408). -/
def capsuleHead (flags : Nat) (replays : BitVec 64) (pset : BitVec 16) (nEnt nArr nL : Nat) : List Byte :=
  ascii "VZCP" ++ leBytes 2 1 ++ leBytes 1 flags ++ zeros 1 ++ leBytes 8 replays.toNat ++ leBytes 2 pset.toNat ++ zeros 6 ++
  leBytes 4 nEnt ++ leBytes 4 nArr ++ leBytes 1 nL ++ zeros 31

/-- A capsule slot filled at a replay start, before the step-start update of the running digest; the instances written since
they were last hashed are hashed for it (16 R408). -/
def openCapsule (p : Nat) (s : State) : State :=
  let q := s.part p
  if q.det.caps = 0 then s else
  let r := rehash p q.det.touched s
  if r.1 = false then r.2 else
  let s := r.2
  let k := q.replays.toNat % q.det.caps
  let m := modOf s p
  let n := m.instances.length
  let a := slotBase s p k
  let s := clearRel p a (slotSize q.det) s
  let s := putRegion p a (capsuleHead 0 q.replays q.pset n 0 m.nLogical ++ argBytes q ++ sha256Bytes (beBytes 16 q.seed.toNat) ++
    digestBytes q.det.run ++ zeros 32 ++ paramBytes s p ++ countBytes s p ++ zeros 128 ++
    (if n ≤ capsuleRoom then tensorEntries s p else [])) s
  s.onPart p fun q => { q with det := { q.det with cap := some k } }

/-- Order 9 of a capsule: the arrivals of the step so far, as many as fit. -/
def putArrivals (p : Nat) (s : State) : State :=
  match (s.part p).det.cap with
  | none => s
  | some k =>
    let m := modOf s p
    let n := m.instances.length
    putRegion p (slotBase s p k + capsuleFixed m.nLogical + 32 * n)
      (((s.part p).det.stepArr.take (capsuleRoom - n)).flatMap arrivalBytes) s

/-- The trace store of each present cell copied out, 2 MiB apart (16 R408, R414). -/
def dumpTraces (p a : Nat) (s : State) : State :=
  forEach (s.liveCells p).zipIdx (fun x s =>
    putRegion p (a + x.2 * 0x200000) ((s.cell x.1).trace.flatMap fun (e : BitVec 128) => leBytes 16 e.toNat) s) s

/-- A capsule completed at the replay's end (16 R408): positions, arrivals, traces, the last digest, the flags. -/
def closeCapsule (p : Nat) (s : State) : State :=
  match (s.part p).det.cap with
  | none => s
  | some k =>
    let q := s.part p
    let m := modOf s p
    let n := m.instances.length
    let a := slotBase s p k
    let trace := !cupEnabled q.det.cup
    let ovf := (s.liveCells p).any fun c => (s.cell c).ovf
    let fits := decide (n + q.det.stepArr.length ≤ capsuleRoom)
    let flags := 1 + (if trace then 2 else 0) + (if ovf then 4 else 0) + (if fits then 8 else 0)
    let s := putArrivals p s
    let s := if trace then dumpTraces p (a + 0x800000) s else s
    -- REPLAYS of the start: the count has not yet moved on
    let s := putRegion p a (capsuleHead flags q.replays q.pset n (min q.det.stepArr.length (capsuleRoom - n)) m.nLogical) s
    let s := putRegion p (a + 192) (digestBytes q.det.run) s
    let s := putRegion p (a + 1248 + 128 * m.nLogical) (q.det.ord.toList.flatMap (leBytes 4)) s
    s.onPart p fun q => { q with det := { q.det with cap := none } }

/-- The step-start update of the running digest (16 R403). -/
def startRun (p : Nat) (s : State) : State :=
  let q := s.part p
  if q.det.on then
    setRun p (sha (ascii "VZ4-STEP" ++ digestBytes q.det.run ++ digestBytes q.modDigest ++ sha256Bytes (beBytes 16 q.seed.toNat) ++
      leBytes 8 q.replays.toNat ++ leBytes 2 q.pset.toNat ++ argBytes q ++ paramBytes s p)) s
  else s

/-- A provenance entry of an instance (16 R404). -/
def putProvenance (p : Nat) (i : Nat) (s : State) : State :=
  let q := s.part p
  match (modOf s p).instances[i]? with
  | none => s
  | some x =>
    let h := (mapGet 0 q.det.hashes i).toNat
    let name := leBytes 3 x.1 ++ leBytes 1 x.2.1
    putRegion p (regionBase s p + 4096 + 64 * i) (name ++ leBytes 4 q.commitN ++ leBytes 8 q.replays.toNat ++ leBytes 8 h ++ zeros 8 ++
      sha256Bytes (ascii "VZ4-PROV" ++ digestBytes q.det.run ++ name ++ leBytes 8 h)) s

/-- The update of the running digest at a partition commit point (16 R403, R404): false when an instance cannot be
read. -/
def commitRun (p : Nat) (s : State) : Bool × State :=
  if (s.part p).det.on = false then (true, s) else
  let hit := (s.part p).det.touched
  let r := rehash p hit s
  if r.1 = false then r else
  let s := r.2
  let q := s.part p
  let t := sha256Bytes (tensorEntries s p)
  let a := sha256Bytes ((sortArrivals q.det.arrivals).flatMap arrivalBytes)
  let d := sha (q.det.ta.toList.flatMap fun (v : BitVec 64) => leBytes 8 v.toNat)
  let s := s.onPart p fun q => { q with det := { q.det with d := d, touched := [], arrivals := [] } }
  let s := setRun p (sha (ascii "VZ4-COMMIT" ++ digestBytes q.det.run ++ leBytes 4 q.commitN ++ t ++ a ++ digestBytes d)) s
  (true, putArrivals p (if q.det.prov then forEach hit (putProvenance p) s else s))

end Sys2Proof.Machine
end

