-- ==== Sys2Proof/Machine/StepReplay.lean ====
section
/-! DEFINITION. Reading a capsule back, and the verdict of a step replay (16 R408 to R410). -/

set_option Elab.async false

namespace Sys2Proof.Machine

/-- The contents of a capsule slot up to order 9; none when a word is uncorrectable. -/
def readCapsule (p k : Nat) (s : State) : Option (List Byte) × State :=
  let a := slotBase s p k
  match relRead p a 64 s with
  | (none, s) => (none, s)
  | (some h, s) =>
    relRead p a (capsuleFixed (leNat (slice h 32 1)) + 32 * min (leNat (slice h 24 4) + leNat (slice h 28 4)) capsuleRoom) s

/-- Fields of a capsule (16 R408). -/
def capValid (c : List Byte) : Bool := decide (c.take 6 = ascii "VZCP" ++ leBytes 2 1) && bit (leNat (slice c 6 1)) 0
def capTrace (c : List Byte) : Bool := bit (leNat (slice c 6 1)) 1
def capOvf (c : List Byte) : Bool := bit (leNat (slice c 6 1)) 2
def capComplete (c : List Byte) : Bool := bit (leNat (slice c 6 1)) 3
def capReplays (c : List Byte) : Nat := leNat (slice c 8 8)
def capPset (c : List Byte) : Nat := leNat (slice c 16 2)
def capEnts (c : List Byte) : Nat := leNat (slice c 24 4)
def capArrs (c : List Byte) : Nat := leNat (slice c 28 4)
def capCells (c : List Byte) : Nat := leNat (slice c 32 1)
def capArgs (c : List Byte) : List Nat := (chunks 8 8 (c.drop 64)).map leNat
def capSeed (c : List Byte) : List Byte := slice c 128 32
def capRun0 (c : List Byte) : List Byte := slice c 160 32
def capRun1 (c : List Byte) : List Byte := slice c 192 32
def capParams (c : List Byte) : List Nat := (chunks 8 128 (c.drop 224)).map leNat
def capCounts (c : List Byte) : List Nat := (chunks 4 (32 * capCells c) (c.drop 1248)).map leNat
def capTensors (c : List Byte) : List Byte := slice c (capsuleFixed (capCells c)) (32 * capEnts c)
def capArrivals (c : List Byte) : List (List Byte) :=
  chunks 32 (capArrs c) (c.drop (capsuleFixed (capCells c) + 32 * capEnts c))

/-- The slot that holds a valid, complete capsule of a replay count (16 R409 order 1). -/
def capsuleFor (s : State) (p replays : Nat) : Option Nat :=
  (List.range (s.part p).det.caps).find? fun k =>
    let c := (relPieces s p (slotBase s p k) 64).flatMap fun x => s.mem.readN x.1 x.2
    capValid c && capComplete c && decide (capReplays c = replays)

/-- An arrival entry read back (16 R403). -/
def arrivalOf (b : List Byte) : Arrival :=
  ⟨BitVec.ofNat 8 (leNat (slice b 0 1)), BitVec.ofNat 8 (leNat (slice b 1 1)), BitVec.ofNat 64 (leNat (slice b 8 8)),
   BitVec.ofNat 64 (leNat (slice b 16 8)), BitVec.ofNat 64 (leNat (slice b 24 8))⟩

/-- The entries of a trace area: those in use. -/
def traceOf (bs : List Byte) : List (BitVec 128) :=
  ((chunks 16 (bs.length / 16) bs).map fun b => BitVec.ofNat 128 (leNat b)).filter fun e => flag e 127

/-- Logical cell and ORD of a trace entry as one number. -/
def traceKey (e : BitVec 128) : Nat := fld e 126 122 * 2 ^ 20 + fld e 118 99

/-- The first difference of two traces by logical cell and ORD: the entries there (16 R409 order 6, R410). -/
def firstDifference (a b : List (BitVec 128)) : Option (Option (BitVec 128) × Option (BitVec 128)) :=
  let keys := sortBy (fun x y => decide (x ≤ y)) ((a ++ b).map traceKey)
  keys.findSome? fun k =>
    let x := a.find? fun e => decide (traceKey e = k)
    let y := b.find? fun e => decide (traceKey e = k)
    if x = y then none else some (x, y)

/-- The first-difference record (16 R410). -/
def differenceRecord (x y : Option (BitVec 128)) : List Byte :=
  let e := (y.orElse fun _ => x).getD 0
  let h := fun (o : Option (BitVec 128)) => match o with | some e => fld e 63 0 | none => 0
  leBytes 1 (fld e 126 122) ++ leBytes 1 (fld e 121 119) ++ zeros 2 ++ leBytes 4 (fld e 118 99) ++ leBytes 8 (h x) ++
  leBytes 8 (h y) ++ zeros 8

/-- The traces of the replay compared with the capsule's (16 R409 order 6): whether they differ; the difference is
recorded in order 10. -/
def compareTraces (p k : Nat) (c : List Byte) (s : State) : Option Bool × State :=
  let n := (s.liveCells p).length
  match memReads ((List.range n).flatMap fun j => relPieces s p (slotBase s p k + 0x800000 + j * 0x200000) 0x200000) s with
  | (none, s) => (none, s)
  | (some l, s) =>
    match firstDifference (l.flatMap traceOf) ((s.liveCells p).flatMap fun x => (s.cell x).trace) with
    | none => (some false, s)
    | some d => (some true, putRegion p (slotBase s p k + capsuleFixed (capCells c) + 32 * (capEnts c + capArrs c))
        (differenceRecord d.1 d.2) s)

/-- Orders 6 and 7 of a step replay at the replay's end (16 R409): the verdict in OD 0x9040:03. -/
def stepVerdict (p : Nat) (s : State) : State :=
  match (s.part p).step with
  | none => s
  | some x =>
    match readCapsule p x.slot s with
    | (none, s) => s
    | (some c, s) =>
      let r := if x.check && capTrace c && !capOvf c then compareTraces p x.slot c s else (some false, s)
      match r with
      | (none, s) => s
      | (some t, s) =>
        let q := s.part p
        let bad := x.diff || t || decide (digestBytes q.det.run ≠ capRun1 c)
        s.onPart p fun q => { q with step := none, stepStatus := BitVec.ofNat 8 (if bad then stDigest else stOk) }

end Sys2Proof.Machine
end

