-- ==== Sys2Proof/Machine/Images.lean ====
section
/-! DEFINITION. The module image: its parts, and the checks steward firmware makes of it (08 R217 to R226). -/

set_option Elab.async false

namespace Sys2Proof.Machine

/-- The fields of a module header (08 R217). -/
structure ModHeader where
  magic    : Nat
  level    : Nat
  nL       : Nat
  nSlots   : Nat
  unord    : Bool
  nTables  : Nat
  imgLen   : Nat
  nTensors : Nat
  nTempl   : Nat
  nChan    : Nat
  nPatch   : Nat
  nTrees   : Nat
  nPhases  : Nat
  nCommit  : Nat
  foot     : Nat
  treeOff  : Nat
  progOff  : Nat
  rsvd     : Nat
  deriving DecidableEq, Repr

/-- The header of an image; `imgLen`, `foot`, `treeOff` and `progOff` in bytes. -/
def modHeader (img : List Byte) : ModHeader :=
  let h := leNat (img.take 64)
  { magic := bits h 511 480, level := bits h 479 464, nL := bits h 463 459 + 1, nSlots := bits h 458 457 + 1,
    unord := bit h 456, nTables := bits h 455 448, imgLen := 32 * bits h 447 416, nTensors := bits h 415 400,
    nTempl := bits h 399 384, nChan := bits h 383 368, nPatch := bits h 367 352, nTrees := bits h 351 336,
    nPhases := bits h 335 320, nCommit := bits h 319 304, foot := bits h 303 272 * 65536,
    treeOff := 32 * bits h 271 240, progOff := 32 * bits h 239 208, rsvd := bits h 207 0 }

/-- Starts of the first six sections, each at the next 32-byte boundary, and the end of the last (08 R217). -/
def ModHeader.offs (h : ModHeader) : List Nat :=
  [16 * h.nL, 32 * h.nTensors, 16 * h.nChan, 32 * h.nTempl, 16448 * h.nTables, 2056 * h.nPatch].foldl
    (fun l n => l ++ [alignUp 32 (l.getLastD 64 + n)]) [64]

/-- n records of a size from an offset, as numbers. -/
def recordsAt (img : List Byte) (o size n : Nat) : List Nat :=
  (chunks size n (img.drop o)).map leNat

/-- A cell declaration (08 R220), in bytes. -/
structure CellDecl where
  nCode   : Nat
  res     : Nat
  scr     : Nat
  prov    : Nat
  nTpl    : Nat
  codeOff : Nat
  rsvd    : Nat
  deriving DecidableEq, Repr

def cellDecl (w : Nat) : CellDecl :=
  { nCode := bits w 127 114 + 1, res := 1024 * bits w 95 80, scr := 1024 * bits w 79 64, prov := 1024 * bits w 63 48,
    nTpl := bits w 47 32, codeOff := 32 * bits w 31 0, rsvd := bits w 113 96 }

/-- A tensor declaration (08 R221), and its reserved bits. -/
def tensorDecl (w : Nat) : TensorDecl × Nat :=
  ({ tid := BitVec.ofNat 24 (bits w 255 232), fmt := BitVec.ofNat 32 (bits w 231 200), kind := BitVec.ofNat 4 (bits w 199 196),
     persist := bit w 195, slotted := bit w 194, addr := bits w 191 152, nbytes := bits w 151 112, kdim := bits w 111 80,
     odim := bits w 79 48 }, bits w 193 192 + bits w 47 0)

/-- A channel declaration (08 R222), its range in bytes, and its reserved bits. -/
def chanDecl (w : Nat) : ChanDecl × Nat :=
  ({ prod := bits w 127 123, cons := bits w 122 118, chan := bits w 117 113, dstOff := 32 * bits w 112 93,
     dstLen := 32 * bits w 92 73, ctr := none, image := none }, bits w 72 0)

/-- A patch-set entry: register, selector (0xFF for none), constant (07 R191; log entry 45); none if it is not
well formed. -/
def patchEntry (w : Nat) : Option PatchEntry :=
  let sel := bits w 15 8
  if bits w 7 0 < 128 ∧ (sel < 8 ∨ sel = 0xFF) ∧ bits w 63 16 = 0 then
    some ⟨bits w 7 0, if sel = 0xFF then none else some (Fin.ofNat 8 sel), BitVec.ofNat 64 (bits w 127 64)⟩
  else none

/-- A patch set: no more than 128 entries, no register twice. -/
def patchSet (bs : List Byte) : Option (List PatchEntry) :=
  let n := leNat (bs.take 8)
  if n > 128 then none else
  match (recordsAt bs 8 16 n).mapM patchEntry with
  | some l => if hasDup (l.map PatchEntry.reg) then none else some l
  | none => none

/-- A reduction tree (08 R218); contributions as logical cell, slot, template, reserved bits. -/
structure Tree where
  num      : Nat
  tid      : Nat
  slot     : Nat
  atype    : Nat
  ord      : Bool
  src32    : Bool
  rsvd     : Nat
  start    : Nat
  len      : Nat
  contribs : List (Nat × Nat × Nat × Nat)
  deriving DecidableEq, Repr

/-- The trees of a section, and what follows them. -/
def treesAt : Nat → List Byte → List Tree
  | 0, _ => []
  | k + 1, bs =>
    let w := leNat (bs.take 64)
    let n := bits w 367 352
    let size := alignUp 32 (64 + 8 * n)
    let pad := leNat (slice bs (64 + 8 * n) (size - (64 + 8 * n)))
    { num := bits w 511 496, tid := bits w 495 472, slot := bits w 471 470, atype := bits w 469 468, ord := bit w 467,
      src32 := bit w 466, rsvd := bits w 465 448 + bits w 351 0 + pad, start := bits w 447 408, len := bits w 407 368,
      contribs := (recordsAt bs 64 8 n).map fun e => (bits e 63 59, bits e 58 57, bits e 56 41, bits e 40 0) } ::
    treesAt k (bs.drop size)

/-- Bytes of a tree record. -/
def Tree.size (t : Tree) : Nat := alignUp 32 (64 + 8 * t.contribs.length)

/-- The parts of a module image. -/
structure Image where
  h       : ModHeader
  cells   : List CellDecl
  tensors : List (TensorDecl × Nat)
  chans   : List (ChanDecl × Nat)
  templ   : List (BitVec 256)
  tables  : List (List Byte)
  patches : List (Option (List PatchEntry))
  trees   : List Tree
  commits : List Nat
  phases  : List (List Nat)
  code    : List (List (BitVec 32))
  pads    : Nat
  deriving DecidableEq, Repr

/-- The image cut into its parts; `pads` collects the padding of the program section. -/
def imageOf (img : List Byte) : Image :=
  let h := modHeader img
  let o := h.offs
  let cells := (recordsAt img 64 16 h.nL).map cellDecl
  let commitPad := alignUp 32 (2 * h.nCommit) - 2 * h.nCommit
  let phasePad := alignUp 32 (2 * h.nPhases) - 2 * h.nPhases
  { h := h, cells := cells,
    tensors := (recordsAt img (o.getD 1 0) 32 h.nTensors).map tensorDecl,
    chans := (recordsAt img (o.getD 2 0) 16 h.nChan).map chanDecl,
    templ := (recordsAt img (o.getD 3 0) 32 h.nTempl).map (BitVec.ofNat 256),
    tables := chunks 16448 h.nTables (img.drop (o.getD 4 0)),
    patches := (chunks 2056 h.nPatch (img.drop (o.getD 5 0))).map patchSet,
    trees := treesAt h.nTrees (img.drop h.treeOff),
    commits := recordsAt img h.progOff 2 h.nCommit,
    phases := cells.map fun c => recordsAt img (h.progOff + c.codeOff) 2 h.nPhases,
    code := cells.map fun c =>
      (recordsAt img (h.progOff + c.codeOff + alignUp 32 (2 * h.nPhases)) 4 c.nCode).map (BitVec.ofNat 32),
    pads := leNat (slice img (h.progOff + 2 * h.nCommit) commitPad) +
      sumN (cells.map fun c => leNat (slice img (h.progOff + c.codeOff + 2 * h.nPhases) phasePad)) }

/-- The header and the layout (08 R217, R219). -/
def headerOk (i : Image) : Bool :=
  let h := i.h
  let ends := i.cells.map fun c => h.progOff + c.codeOff + alignUp 32 (2 * h.nPhases) + 4 * c.nCode
  decide (h.magic = 0x43484952) && decide (h.rsvd = 0) && decide (h.nTables ≤ 16) && decide (h.nPatch ≥ 1) &&
  decide (h.nPhases ≥ 1) && decide (h.nCommit ≥ 1) && decide (h.offs.getLastD 0 ≤ h.treeOff) &&
  decide (h.treeOff + sumN (i.trees.map Tree.size) ≤ h.progOff) &&
  decide (h.progOff + alignUp 32 (2 * h.nCommit) ≤ h.imgLen) && (ends.all fun e => decide (e ≤ h.imgLen)) &&
  decide (i.pads = 0) && (i.patches.all Option.isSome) &&
  ((i.commits.zip (i.commits.drop 1)).all fun x => decide (x.1 < x.2)) &&
  decide (i.commits.getLast? = some (h.nPhases - 1))

/-- Bytes of a physical or logical cell's store (08 R220). -/
def storeKib : Nat := 24576 * 1024

/-- The ranges of the instances of a tensor (08 R221). -/
def instancesOf (nSlots : Nat) (t : TensorDecl) : List (Nat × Nat) :=
  (List.range (if t.slotted then nSlots else 1)).map fun i => (t.addr + i * alignUp 4096 t.nbytes, t.nbytes)

/-- Ranges that share a byte. -/
def spansMeet (a b : Nat × Nat) : Bool := decide (a.1 < b.1 + b.2) && decide (b.1 < a.1 + a.2)

/-- One tensor declaration (08 R221, R226; 03 R71, 04 R104). 08 R221 gives a declaration no code for the default format
word of 03 R70, so every FMT is taken as it stands (DESIGN CHOICE, log entry 96). -/
def tensorOk (h : ModHeader) (t : TensorDecl × Nat) : Bool :=
  let k := t.1.kind.toNat
  decide (k ≤ 7) && decide (t.2 = 0) && decide (t.1.addr % 4096 = 0) &&
  (if k ≤ 2 then (match fmtOf t.1.fmt with | some f => decide (k = 0) || f.cpOk | none => false) else decide (t.1.fmt = 0)) &&
  ((instancesOf h.nSlots t.1).all fun r => decide (r.1 + r.2 ≤ h.foot))

/-- The tensors together: unique ids, no overlap (08 R221). -/
def tensorsOk (i : Image) : Bool :=
  let l := i.tensors.map Prod.fst
  (i.tensors.all (tensorOk i.h)) && !hasDup (l.map TensorDecl.tid) &&
  (l.zipIdx.all fun a => l.zipIdx.all fun b => decide (b.2 ≤ a.2) ||
    !((instancesOf i.h.nSlots a.1).any fun x => (instancesOf i.h.nSlots b.1).any (spansMeet x)))

/-- The channel declarations (08 R222). -/
def chansOk (i : Image) : Bool :=
  (i.chans.all fun c => decide (c.2 = 0) && decide (c.1.prod < i.h.nL) && decide (c.1.cons < i.h.nL) &&
    (match i.cells[c.1.cons]? with | some d => decide (c.1.dstOff + c.1.dstLen ≤ d.res) | none => false)) &&
  !hasDup (i.chans.map fun c => (c.1.cons, c.1.chan))

/-- One tree (08 R218, 09 R268). -/
def treeOk (i : Image) (t : Tree) : Bool :=
  let e := if t.atype = 0 ∨ t.atype = 3 then 4 else 2
  decide (t.rsvd = 0) && decide (t.contribs.length ≥ 1) && decide (t.start % e = 0) && decide (t.len % e = 0) &&
  !(decide (t.atype = 3) && t.src32) &&
  (match i.tensors.find? fun x => decide (x.1.tid.toNat = t.tid) with
    | some x => decide (t.start + t.len ≤ x.1.nbytes) &&
        (if x.1.slotted then decide (t.slot < i.h.nSlots) else decide (t.slot = 0))
    | none => false) &&
  (t.contribs.all fun c => decide (c.1 < i.h.nL) && decide (c.2.1 < i.h.nSlots) && decide (c.2.2.2 = 0) &&
    (match i.templ[c.2.2.1]? with
      | some w => decide (fld w 255 252 = 4 ∧ fld w 97 96 = t.atype) && (flag w 95 == t.src32) && (flag w 94 == t.ord) &&
          decide (fld w 92 60 = 0)
      | none => false))

/-- The trees together (08 R218). -/
def treesOk (i : Image) : Bool :=
  (i.trees.all (treeOk i)) && ((i.trees.zip (i.trees.drop 1)).all fun x => decide (x.1.num < x.2.num)) &&
  !hasDup (i.trees.flatMap fun t => t.contribs.map fun c => c.2.2.1) && (i.h.unord == i.trees.any fun t => !t.ord)

/-- A word that level-1 code may hold anywhere (07 R188, R189; 08 R223): index, number of templates, channels of
the logical cell. -/
def wordOk (nTempl : Nat) (chans : List Nat) (i : Nat) (w : BitVec 32) : Bool :=
  let op := opcodeOf w
  let k : Core := { Core.reset with pc := i, lastPush := Vector.replicate 5 (some LastPush.reset) }
  let writes := decide ((1 ≤ op ∧ op ≤ 0x0D) ∨ (0x10 ≤ op ∧ op ≤ 0x18))
  if op = 0x30 then decide (rdOf w = 0 ∧ rs1Of w = 0 ∧ immOf w < nTempl)
  else k.legal w && decide (op ∉ [0x26, 0x28, 0x35]) && !(writes && decide (rdOf w = 31)) &&
    !(decide (op = 0x27) && decide (rs1Of w ≠ 31)) && !(decide (op = 0x33) && decide (rs1Of w ∉ chans))

/-- JR g31. -/
def isReturn (w : BitVec 32) : Bool := decide (opcodeOf w = 0x27) && decide (rs1Of w = 31)

/-- Instructions of the phase body at an entry: up to the first JR g31 (08 R219); none if there is no such. -/
def bodyAt (code : List (BitVec 32)) (entry : Nat) : Option (List (BitVec 32)) :=
  ((code.drop entry).findIdx? isReturn).map fun n => (code.drop entry).take (n + 1)

/-- What CW and the pending gate may hold before an instruction of a body: a CLDT has executed on every path since
the entry or the last PUSH; a GATE without a later CLDT is pending on some path; the templates whose words may
stand in CW (08 R223). -/
structure CwFacts where
  fresh : Bool
  gated : Bool
  tmpl  : List Nat
  deriving DecidableEq, Repr

/-- Facts of two paths that meet. -/
def CwFacts.join (a b : CwFacts) : CwFacts :=
  ⟨a.fresh && b.fresh, a.gated || b.gated, a.tmpl ++ b.tmpl.filter fun t => t ∉ a.tmpl⟩

/-- Facts after an instruction. -/
def CwFacts.after (f : CwFacts) (w : BitVec 32) : CwFacts :=
  let op := opcodeOf w
  if op = 0x30 then ⟨true, false, [immOf w]⟩
  else if op = 0x32 then { f with fresh := false }
  else if op = 0x33 then { f with gated := true }
  else f

/-- Where control may go from index i of a body: the next instruction, a branch target, a fall-back target. -/
def successors (i : Nat) (w : BitVec 32) : List Int :=
  let op := opcodeOf w
  if op = 0x27 then []
  else if (0x20 ≤ op ∧ op ≤ 0x25) ∨ op = 0x34 then [(i : Int) + 1, relTarget i 16 (immOf w)]
  else [(i : Int) + 1]

/-- Facts brought to an index. -/
def bringTo (l : List (Option CwFacts)) (f : CwFacts) (t : Int) : List (Option CwFacts) :=
  if t < 0 then l else
  l.modify t.toNat fun o => match o with | some g => some (g.join f) | none => some f

/-- One pass over a body. -/
def factsPass (body : List (BitVec 32)) (l : List (Option CwFacts)) : List (Option CwFacts) :=
  body.zipIdx.foldl (fun l x => match (l[x.2]?).getD none with
    | some f => (successors x.2 x.1).foldl (fun l t => bringTo l (f.after x.1) t) l
    | none => l) l

/-- Passes until nothing changes. -/
def factsFix : Nat → List (BitVec 32) → List (Option CwFacts) → List (Option CwFacts)
  | 0, _, l => l
  | k + 1, body, l => let m := factsPass body l; if m = l then l else factsFix k body m

/-- The facts before each instruction of a body that control can reach. -/
def bodyFacts (body : List (BitVec 32)) : List (Option CwFacts) :=
  factsFix (body.length * (body.length + 3)) body (some ⟨false, false, []⟩ :: List.replicate (body.length - 1) none)

/-- The control flow and CW rules of a body (08 R223): targets within the body, a CLDT before every PUSH and after
every GATE. -/
def bodyOk (body : List (BitVec 32)) : Bool :=
  (body.zipIdx.all fun x => (successors x.2 x.1).all fun t => decide (0 ≤ t) && decide (t < body.length)) &&
  ((body.zip (bodyFacts body)).all fun x => match x.2 with
    | some f => !decide (opcodeOf x.1 = 0x32) || (f.fresh && !f.gated)
    | none => true)

/-- Template and queue of every PUSH of a body. -/
def pushesOf (body : List (BitVec 32)) : List (Nat × Nat) :=
  (body.zip (bodyFacts body)).flatMap fun x => match x.2 with
    | some f => if opcodeOf x.1 = 0x32 then f.tmpl.map fun t => (t, fld x.1 25 23) else []
    | none => []

/-- Templates and bit range of every CINS of a body. -/
def insertsOf (body : List (BitVec 32)) : List (Nat × Nat × Nat) :=
  (body.zip (bodyFacts body)).flatMap fun x => match x.2 with
    | some f => if opcodeOf x.1 = 0x31 then f.tmpl.map fun t => (t, fld x.1 20 13, fld x.1 20 13 + fld x.1 12 7) else []
    | none => []

/-- The bodies of a logical cell: phase entries without the empty ones. -/
def entriesOf (phases : List Nat) : List Nat := phases.filter fun e => decide (e ≠ 0xFFFF)

/-- Every body of the module. -/
def Image.bodies (i : Image) : List (List (BitVec 32)) :=
  (i.phases.zip i.code).flatMap fun x => (entriesOf x.1).filterMap (bodyAt x.2)

/-- The code of a logical cell (08 R219, R220, R223). -/
def codeOk (i : Image) (l : Nat) (c : CellDecl) (phases : List Nat) (code : List (BitVec 32)) : Bool :=
  let chans := (i.chans.filter fun x => decide (x.1.cons = l)).map fun x => x.1.chan
  let ents := entriesOf phases
  let ends := ents.filterMap fun e => (bodyAt code e).map fun b => e + b.length - 1
  let named := (code.filter fun w => decide (opcodeOf w = 0x30)).map immOf
  (code.zipIdx.all fun x => wordOk i.h.nTempl chans x.2 x.1) &&
  (code.zipIdx.all fun x => !decide (opcodeOf x.1 = 0x27) || decide (x.2 ∈ ends)) &&
  (ents.all fun e => match bodyAt code e with | some b => decide (e < c.nCode) && bodyOk b | none => false) &&
  decide (named.eraseDups.length = c.nTpl) && decide (c.rsvd = 0) && decide (c.res + c.scr + c.prov ≤ storeKib) &&
  decide (c.prov ≤ 4096 * 1024)

/-- The DM templates: those whose words reach queue 4, and those a contribution names (08 R231). -/
def Image.dmTemplates (i : Image) : List Nat :=
  ((i.bodies.flatMap pushesOf).filter (fun x => decide (x.2 = 4))).map Prod.fst ++
  i.trees.flatMap fun t => t.contribs.map fun c => c.2.2.1

/-- Bit ranges that share a bit. -/
def meets (lo hi a b : Nat) : Bool := decide (lo ≤ b) && decide (a ≤ hi)

/-- The bytes of a delivery in space 0b010 that its template fixes: LEN of a COPY or a FILL that no CINS writes, else one
(08 R222, R226). -/
def Image.deliveryLen (i : Image) (t : Nat) (w : BitVec 256) : Nat :=
  if fld w 255 252 ∈ [1, 7] ∧ ((i.bodies.flatMap insertsOf).any fun x => decide (x.1 = t) && meets x.2.1 x.2.2 118 149) = false
  then max 1 (fld w 149 118) else 1

/-- A delivery in space 0b010 lies in a declared channel range of the logical cell it names (08 R222). -/
def Image.inChannel (i : Image) (t : Nat) (w : BitVec 256) : Bool :=
  i.chans.any fun c => decide (c.1.cons = fld w 189 184 ∧ c.1.dstOff ≤ fld w 174 150 ∧
    fld w 174 150 + i.deliveryLen t w ≤ c.1.dstOff + c.1.dstLen)

/-- Logical cells with the DM templates they use: those they push to queue 4, and those their contributions
name. -/
def Image.dmUses (i : Image) : List (Nat × Nat) :=
  ((i.phases.zip i.code).zipIdx.flatMap fun x =>
    ((((entriesOf x.1.1).filterMap (bodyAt x.1.2)).flatMap pushesOf).filter fun y => decide (y.2 = 4)).map fun y => (x.2, y.1)) ++
  i.trees.flatMap fun t => t.contribs.map fun c => (c.1, c.2.2.1)

/-- The cell references of DM template t, which logical cell l uses (08 R222, R223; DEDUCED, log entry 48): NCELL and
NCTR name a declared channel, a destination in another logical cell lies in a declared range. -/
def refsOk (i : Image) (l t : Nat) : Bool :=
  let w := i.templ.getD t 0
  (decide (fld w 59 54 = 0x3F) || i.chans.any fun c => decide (c.1.cons = fld w 59 54 ∧ c.1.chan = fld w 53 49)) &&
  (decide (fld w 192 190 ≠ 2) || decide (fld w 189 184 = l) || i.inChannel t w)

/-- A CINS that writes a field naming another cell, or an address in another cell's store (08 R223). -/
def insertBad (i : Image) (dm : List Nat) (x : Nat × Nat × Nat) : Bool :=
  let w := i.templ.getD x.1 0
  decide (x.1 ∈ dm) && (meets x.2.1 x.2.2 49 59 || (decide (fld w 192 190 = 2) && meets x.2.1 x.2.2 150 192))

/-- The code and templates of the module together (08 R223). -/
def programsOk (i : Image) : Bool :=
  let dm := i.dmTemplates
  let pushes := i.bodies.flatMap pushesOf
  ((List.zip (i.cells.zip i.phases) i.code).zipIdx.all fun x => codeOk i x.2 x.1.1.1 x.1.1.2 x.1.2) &&
  (pushes.all fun a => pushes.all fun b => decide (a.1 ≠ b.1) || decide (a.2 = b.2)) &&
  (i.dmUses.all fun u => refsOk i u.1 u.2) &&
  ((i.bodies.flatMap insertsOf).all fun x => !insertBad i dm x)

/-- The checks of 08 R226 after LEVEL. -/
def imageOk (i : Image) : Bool := headerOk i && tensorsOk i && chansOk i && treesOk i && programsOk i

end Sys2Proof.Machine
end

