-- ==== Sys2Proof/Machine/Translation.lean ====
section
/-! DEFINITION. The translation of a module onto the present cells of a partition (08 R230 to R233, R417). The
layout of a translated program is the model's (log entry 46): a driver from index 0, then the phase bodies. -/

set_option Elab.async false

namespace Sys2Proof.Machine

/-- What translation works on: the image, the present cells in physical order, the bytes of stack it may use, the
channels with their counters and images, and the delivery rate it gives a stream. -/
structure Plan where
  img   : Image
  cells : List Nat
  chans : List ChanDecl
  swaps : List (Nat × Nat)
  top   : Nat
  rate  : Nat
  deriving DecidableEq, Repr

/-- The present index that hosts a logical cell (08 R230). -/
def hostIndex (n l : Nat) : Nat := if n = 0 then 0 else l % n

/-- The logical cells hosted at a present index, ascending. -/
def hostedAt (i : Image) (n j : Nat) : List Nat := (List.range i.h.nL).filter fun l => decide (hostIndex n l = j)

/-- A present cell that hosts two or more logical cells (08 R232). -/
def multiplexed (i : Image) (n j : Nat) : Bool := decide ((hostedAt i n j).length ≥ 2)

/-- A logical cell's declaration. -/
def Image.cell (i : Image) (l : Nat) : CellDecl := i.cells.getD l (cellDecl 0)

/-- The channels into the cells hosted at an index from other physical cells, in order of consumer and number: the
event counters translation assigns (08 R231). -/
def inbound (i : Image) (n j : Nat) : List (Nat × Nat) :=
  (sortBy (fun (a b : Nat × Nat) => decide (a.1 * 32 + a.2 ≤ b.1 * 32 + b.2))
    ((i.chans.filter fun c => decide (hostIndex n c.1.cons = j ∧ hostIndex n c.1.prod ≠ j)).map fun c => (c.1.cons, c.1.chan)))

/-- The images of the multiplexed cells, downward from the top of the partition's range (08 R232): the swap image of
each logical cell, then the images of its channels. -/
def placeImages (i : Image) (n : Nat) : List Nat → Nat → List (Nat × Nat) × List ((Nat × Nat) × Nat) × Nat
  | [], top => ([], [], top)
  | l :: r, top =>
    if multiplexed i n (hostIndex n l) then
      let a := top - (i.cell l).res
      let c := ((i.chans.map Prod.fst).filter fun d => decide (d.cons = l)).foldl
        (fun (acc : List ((Nat × Nat) × Nat) × Nat) d => (acc.1 ++ [((l, d.chan), acc.2 - d.dstLen)], acc.2 - d.dstLen)) ([], a)
      let t := placeImages i n r c.2
      ((l, a) :: t.1, c.1 ++ t.2.1, t.2.2)
    else placeImages i n r top

/-- Bytes of all images (08 R233 reason 2). -/
def imageBytes (i : Image) (n : Nat) : Nat :=
  sumN ((List.range i.h.nL).map fun l => if multiplexed i n (hostIndex n l) then
    (i.cell l).res + sumN (((i.chans.map Prod.fst).filter fun d => decide (d.cons = l)).map ChanDecl.dstLen) else 0)

/-- The bandwidth in GB/s that a partition is guaranteed: its own stack channels, 1.2 TB/s a stack, and, where its cells
and stacks stand on both compute dies, its part of the link between the dies (01 R20, 09 R267). -/
def guaranteedRate (s : State) (p : Nat) : Nat :=
  let dies := (s.cellsOf p).map dieOf ++ (s.stacksOf p).map fun n => n / 16
  let own := 1200 * (s.stacksOf p).length
  if 0 ∈ dies ∧ 1 ∈ dies then min own (3200 * (s.cellsOf p).length / (bitList s.fuse.enabled).length) else own

/-- The RATE that translation declares for a stream: the whole guaranteed share, within the field (02 R66, 09 R263, R266;
DESIGN CHOICE, log entry 97). -/
def streamRate (s : State) (p : Nat) : Nat := min 4095 (max 1 (guaranteedRate s p))

/-- The plan of a mapping. -/
def planOf (i : Image) (cells : List Nat) (top rate : Nat) : Plan :=
  let n := cells.length
  let p := placeImages i n (List.range i.h.nL) top
  { img := i, cells := cells, swaps := p.1, top := p.2.2, rate := rate,
    chans := i.chans.map fun c =>
      { c.1 with
        ctr := (inbound i n (hostIndex n c.1.cons)).findIdx? fun x => decide (x = (c.1.cons, c.1.chan)),
        image := (p.2.1.find? fun x => decide (x.1 = (c.1.cons, c.1.chan))).map Prod.snd } }

/-- A channel of a plan. -/
def Plan.chan (p : Plan) (l ch : Nat) : Option ChanDecl := p.chans.find? fun d => decide (d.cons = l ∧ d.chan = ch)

/-- The physical cell of a logical cell. -/
def Plan.host (p : Plan) (l : Nat) : Nat := p.cells.getD (hostIndex p.cells.length l) 0

/-- Tree number, tag and LAST of a contribution's template (08 R218). -/
def contribOf (i : Image) (t : Nat) : Option (Nat × Nat × Bool) :=
  i.trees.findSome? fun x => (x.contribs.findIdx? fun c => decide (c.2.2.1 = t)).map fun n =>
    (x.num, n, decide (n + 1 = x.contribs.length))

/-- The arrival of a DM template in physical terms (08 R231): no counter for a channel from the same cell. -/
def rewriteArrival (p : Plan) (w : BitVec 256) : BitVec 256 :=
  if fld w 59 54 = 0x3F then w else
  match p.chan (fld w 59 54) (fld w 53 49) with
  | none => w
  | some d => match d.ctr with
    | some k => setFld (setFld w 53 49 k) 59 54 (p.host d.cons)
    | none => setFld w 59 54 0x3F

/-- The destination of a DM template in physical terms (08 R231, R232): a redirected channel's image, or the physical
number of the logical cell it names. -/
def rewriteDest (p : Plan) (w : BitVec 256) : BitVec 256 :=
  if fld w 192 190 ≠ 2 then w else
  match p.chans.find? fun c => decide (c.cons = fld w 189 184 ∧ c.dstOff ≤ fld w 174 150 ∧ fld w 174 150 < c.dstOff + c.dstLen) with
  | none => setFld w 189 184 (p.host (fld w 189 184))
  | some d => match d.image with
    | some a => setFld (setFld w 192 190 0) 189 150 (a + (fld w 174 150 - d.dstOff))
    | none => setFld w 189 184 (p.host d.cons)

/-- The RATE of a DM template that delivers to a stream (09 R266). -/
def rewriteRate (p : Plan) (w : BitVec 256) : BitVec 256 :=
  if fld w 255 252 ∈ [1, 2] ∧ fld w 192 190 = 4 then setFld w 47 36 p.rate else w

/-- A DM template as translation writes it (08 R218, R231, R232; 09 R266). -/
def rewriteDm (p : Plan) (t : Nat) (w : BitVec 256) : BitVec 256 :=
  let w := rewriteRate p (rewriteDest p (rewriteArrival p w))
  match contribOf p.img t with
  | some (n, tag, last) => setFld (setFld (setFld w 91 76 n) 75 60 tag) 92 92 (if last then 1 else 0)
  | none => w

/-- A template of a translated program: a module template, a switch copy out or in, a channel copy. -/
inductive TKey where
  | mod (t : Nat)
  | swapOut (l : Nat)
  | swapIn (l : Nat)
  | chan (l ch : Nat)
  deriving DecidableEq, Repr

/-- A COPY between the stacks and the own cell store. -/
def copyWord (out : Bool) (stack own len : Nat) : BitVec 256 :=
  let s := if out then 1 else 0
  BitVec.ofNat 256 (2 ^ 252 + s * 2 ^ 233 + (if out then own else stack) * 2 ^ 193 + (1 - s) * 2 ^ 190
    + (if out then stack else own) * 2 ^ 150 + len * 2 ^ 118 + 0x3F * 2 ^ 54)

/-- The word of a template. -/
def Plan.word (p : Plan) : TKey → BitVec 256
  | .mod t => let w := p.img.templ.getD t 0
      if t ∈ p.img.dmTemplates then rewriteDm p t w else w
  | .swapOut l => copyWord true (mapGet 0 p.swaps l) 0 (p.img.cell l).res
  | .swapIn l => copyWord false (mapGet 0 p.swaps l) 0 (p.img.cell l).res
  | .chan l ch => match p.chan l ch with
    | some d => copyWord false (d.image.getD 0) d.dstOff d.dstLen
    | none => 0

/-- The channel the arrivals of a template count on (16 R403). -/
def Plan.arrival (p : Plan) : TKey → Option (Nat × Nat)
  | .mod t => let w := p.img.templ.getD t 0
      if t ∈ p.img.dmTemplates ∧ fld w 59 54 ≠ 0x3F then some (fld w 59 54, fld w 53 49) else none
  | _ => none

/-- The bodies a present cell runs: logical cell and entry, each once. -/
def Plan.bodies (p : Plan) (j : Nat) : List (Nat × Nat) :=
  ((hostedAt p.img p.cells.length j).flatMap fun l => (entriesOf (p.img.phases.getD l [])).map fun e => (l, e)).eraseDups

/-- The instructions of a body. -/
def Plan.body (p : Plan) (b : Nat × Nat) : List (BitVec 32) := (bodyAt (p.img.code.getD b.1 []) b.2).getD []

/-- The templates of a present cell, in the order of their indices. -/
def Plan.keys (p : Plan) (j : Nat) : List TKey :=
  let own := ((p.bodies j).flatMap fun b => ((p.body b).filter fun w => decide (opcodeOf w = 0x30)).map fun w => TKey.mod (immOf w))
  let mux := if multiplexed p.img p.cells.length j then
      ((hostedAt p.img p.cells.length j).flatMap fun l => [TKey.swapOut l, TKey.swapIn l]) ++
      ((p.bodies j).flatMap fun b => ((p.body b).filter fun w => decide (opcodeOf w = 0x33)).map fun w => TKey.chan b.1 (rs1Of w))
    else []
  (own ++ mux).eraseDups

/-- Instruction words the translator writes. -/
def cldtWord (i : Nat) : BitVec 32 := BitVec.ofNat 32 (0x30 * 2 ^ 26 + i)
def pushDmWord : BitVec 32 := BitVec.ofNat 32 (0x32 * 2 ^ 26 + 4 * 2 ^ 23)
def jalWord (d : Int) : BitVec 32 := BitVec.ofNat 32 (0x26 * 2 ^ 26 + (d % 2 ^ 26).toNat)

/-- The index of a template. -/
def keyIndex (ks : List TKey) (k : TKey) : Nat := (ks.findIdx? fun x => decide (x = k)).getD 0

/-- A load and a push of a translator copy. -/
def copyCode (ks : List TKey) (k : TKey) : List (BitVec 32) := [cldtWord (keyIndex ks k), pushDmWord]

/-- An instruction of a logical cell, before branch offsets (08 R231, R232): CLDT by its local index, GATE by its
counter, with the gated copy of a redirected channel. -/
def Plan.instr (p : Plan) (ks : List TKey) (l : Nat) (w : BitVec 32) : List (BitVec 32) :=
  if opcodeOf w = 0x30 then [cldtWord (keyIndex ks (.mod (immOf w)))]
  else if opcodeOf w = 0x33 then
    match p.chan l (rs1Of w) with
    | none => [w]
    | some d =>
      (match d.ctr with | some k => [setFld w 20 16 k] | none => []) ++
      (if d.image.isSome then copyCode ks (.chan l (rs1Of w)) else [])
  else [w]

/-- Start of each instruction of a body after translation, and the end. -/
def starts (sizes : List Nat) : List Nat := sizes.foldl (fun l n => l ++ [l.getLastD 0 + n]) [0]

/-- A body after translation. -/
def Plan.bodyCode (p : Plan) (ks : List TKey) (b : Nat × Nat) : List (BitVec 32) :=
  let code := p.body b
  let parts := code.map (p.instr ks b.1)
  let st := starts (parts.map List.length)
  (code.zip parts).zipIdx.flatMap fun x =>
    let op := opcodeOf x.1.1
    if (0x20 ≤ op ∧ op ≤ 0x25) ∨ op = 0x34 then
      let t := (relTarget x.2 16 (immOf x.1.1)).toNat
      [setFld x.1.1 15 0 (((st.getD t 0 : Int) - (st.getD x.2 0 : Int)) % 2 ^ 16).toNat]
    else x.1.2

/-- The pushes of a body after translation that are the logical cell's own. -/
def Plan.ownPushes (p : Plan) (ks : List TKey) (b : Nat × Nat) : List Nat :=
  let code := p.body b
  let st := starts ((code.map (p.instr ks b.1)).map List.length)
  ((code.zip st).filter fun x => decide (opcodeOf x.1 = 0x32)).map Prod.snd

/-- A step of the driver: a switch copy, a call of a body, a commit point, the end. -/
inductive DriverOp where
  | copy (k : TKey)
  | call (b : Nat × Nat)
  | mark | halt
  deriving DecidableEq, Repr

/-- The driver of one phase: each hosted cell with a body, with the switch copies where the active cell changes. -/
def Plan.phaseOps (p : Plan) (j t : Nat) (active : Option Nat) : List DriverOp × Option Nat :=
  (hostedAt p.img p.cells.length j).foldl (fun acc l =>
    let e := (p.img.phases.getD l []).getD t 0xFFFF
    if e = 0xFFFF then acc else
    let sw := match acc.2 with
      | some a => if a = l then [] else [.copy (.swapOut a), .copy (.swapIn l)]
      | none => []
    (acc.1 ++ sw ++ [.call (l, e)], some l)) ([], active)

/-- The driver of a present cell (08 R231). -/
def Plan.driver (p : Plan) (j : Nat) : List DriverOp :=
  ((List.range p.img.h.nPhases).foldl (fun (acc : List DriverOp × Option Nat) t =>
    let r := p.phaseOps j t acc.2
    let mark := if t + 1 = p.img.h.nPhases then [DriverOp.halt] else if t ∈ p.img.commits then [DriverOp.mark] else []
    (acc.1 ++ r.1 ++ mark, r.2)) ([], none)).1

def DriverOp.size : DriverOp → Nat
  | .copy _ => 2
  | _ => 1

/-- The words of a driver step at an address. -/
def driverWords (ks : List TKey) (at' : Nat) (where' : List ((Nat × Nat) × Nat)) : DriverOp → List (BitVec 32)
  | .copy k => copyCode ks k
  | .call b => [jalWord (((where'.find? fun x => decide (x.1 = b)).map Prod.snd).getD 0 - (at' : Int))]
  | .mark => [BitVec.ofNat 32 (0x35 * 2 ^ 26)]
  | .halt => [BitVec.ofNat 32 (0x28 * 2 ^ 26)]

/-- The translated program of a present cell. -/
structure CellCode where
  words  : List (BitVec 32)
  tmpl   : List (BitVec 256)
  chans  : List (Option (Nat × Nat))
  pushes : List (Nat × Nat × Nat)
  resume : List Nat
  prov   : Nat × Nat
  deriving DecidableEq, Repr

/-- The single provisional region of a present cell (08 R417). -/
def provRegion (i : Image) (l : List Nat) : Nat × Nat :=
  let d := l.map i.cell
  let base := (d.map fun c => c.res + c.scr).foldl max 0
  (base, min ((d.map fun c => c.prov).foldl max 0) (cellSize - base))

def Plan.cellCode (p : Plan) (j : Nat) : CellCode :=
  let ks := p.keys j
  let bs := p.bodies j
  let codes := bs.map (p.bodyCode ks)
  let drv := p.driver j
  let st := starts (drv.map DriverOp.size)
  let base := st.getLastD 0
  let places := bs.zip ((starts (codes.map List.length)).map (base + ·))
  { words := ((drv.zip st).flatMap fun x => driverWords ks x.2 places x.1) ++ codes.flatten,
    tmpl := ks.map p.word, chans := ks.map p.arrival,
    pushes := places.flatMap fun x => (p.ownPushes ks x.1).map fun o => (x.2 + o, 1, x.1.1),
    resume := ((drv.zip st).filter fun x => decide (x.1 = .mark)).map fun x => x.2 + 1,
    prov := provRegion p.img (hostedAt p.img p.cells.length j) }

/-- The first reason a mapping does not fit (08 R233), if any; `det` are the bytes of the determinism region
(16 R405). -/
def misfit (p : Plan) (codes : List CellCode) (stack det : Nat) : Option Nat :=
  let n := p.cells.length
  let js := List.range n
  if p.img.h.foot + imageBytes p.img n + det > stack then some 2
  else if js.any fun j => (hostedAt p.img n j).any fun l =>
      let c := p.img.cell l
      decide (c.res + c.scr + c.prov > storeKib) then some 3
  else if codes.any fun c => decide (c.words.length > imemSize) then some 4
  else if codes.any fun c => decide (c.tmpl.length > 1024) then some 5
  else if js.any fun j => decide ((inbound p.img n j).length > 32) then some 6
  else none

/-- The loaded module (08 R217 to R235). -/
def moduleOf (p : Plan) (codes : List CellCode) : Module :=
  { level := BitVec.ofNat 16 p.img.h.level, nLogical := p.img.h.nL, nSlots := p.img.h.nSlots, unord := p.img.h.unord,
    foot := p.img.h.foot, tensors := p.img.tensors.map Prod.fst, chans := p.chans,
    patches := p.img.patches.filterMap fun x => x, nCommit := p.img.h.nCommit,
    hosts := (List.range p.img.h.nL).map p.host, resume := codes.map CellCode.resume, imageTop := p.top,
    bodies := codes.map CellCode.pushes, tmplChans := codes.map CellCode.chans }

end Sys2Proof.Machine
end

