-- ==== Sys2Proof/Machine/Modules.lean ====
section
/-! DEFINITION. Module loads and replays (07 R190 to R193, 08 R230 to R236). -/

set_option Elab.async false

namespace Sys2Proof.Machine

/-- A patch set applied to the parameter registers of a core (07 R191). -/
def applyPatch (set : List PatchEntry) (args : Vector (BitVec 64) 8) (k : Core) : Core :=
  { k with p := set.foldl (fun v e => vmod v e.reg fun _ => match e.arg with
      | some a => args[a] + e.c
      | none => e.c) k.p }

/-- Every control core of a partition started at its index, with the sequence counters at zero, after n commit
points; the record ring and the first-fault record are cleared, and the engines keep no command of an earlier numbering
(07 R194, R198; 08 R239). -/
def startCores (p n : Nat) (at' : Nat → Nat) (s : State) : State :=
  let own := decide ((s.part p).det.caps > 0) && !cupEnabled (s.part p).det.cup
  let s := forEach (s.liveCells p).zipIdx (fun x s => s.onCell x.1 fun y => { y with
    recs := [], firstFault := 0, heldDone := [], tiles := 0, samples := [], me := { y.me with past := [] }, dupBad := [],
    trace := if own then [] else y.trace, ovf := if own then false else y.ovf,
    core := { y.core with
      run := .running, pc := at' x.2, seqNo := 0, lastPush := Vector.replicate 5 none, snaps := [], commits := n } }) s
  s.onPart p fun q => { q with
    rst := 2, commitN := n, atPoint := false, rsdOff := false,
    det := { q.det with ta := Vector.replicate 32 0, ord := Vector.replicate 32 0 } }

/-- A replay may not start, or a module load, a save or a restore, while one of these runs (07 R192, 08 R235 to R240). -/
def busyPart (q : Part) : Bool :=
  decide (q.st ≠ 1) || decide (q.loadSt = 1) || q.saveReq.isSome || q.restoring.isSome || q.step.isSome

/-- REPLAY_START (07 R191, R192): the patch set applied on every cell, then every core starts at index 0. -/
def execReplayStart (req : EopReq) (s : State) : Host.Outcome State Fault Refusal :=
  .next (eopWrite (onlyEntry 0x6050 1) req
    (fun s p v =>
      let n := match (s.part p).mod with | some m => m.patches.length | none => 0
      worst [when' (decide ((s.part p).rst ≠ 1) || busyPart (s.part p)) stNotReady,
        when' (decide (bits v 63 16 ≠ 0) || (decide ((s.part p).rst ≠ 0) && decide (bits v 15 0 ≥ n))) stRange])
    (fun p v _ s =>
      let args : Vector (BitVec 64) 8 := Vector.ofFn fun k => BitVec.ofNat 64 (bits v (64 * k.val + 127) (64 * k.val + 64))
      let set := ((modOf s p).patches[bits v 15 0]?).getD []
      let s := s.onPart p fun q => { q with
        replayReg := BitVec.ofNat 576 v, pset := BitVec.ofNat 16 (bits v 15 0), args := args,
        det := { q.det with stepArr := [] } }
      let s := forEach (s.liveCells p) (fun c s => s.onCore c (applyPatch set args)) s
      let s := openCapsule p s
      if (s.part p).st ≠ 1 then s else startCores p 0 (fun _ => 0) (startRun p s)) s)

/-- Every core of a partition has executed HALT and every command has completed (07 R193). -/
def replayDone (s : State) (p : Nat) : Bool :=
  let q := s.part p
  decide (q.st = 1) && decide (q.rst = 2) && !q.atPoint && decide (q.commitN = (modOf s p).nCommit) &&
  (s.liveCells p).all fun c => decide ((s.cell c).core.run = .ended) && (allCommands (s.cell c)).isEmpty

/-- REPLAY_END (07 R193): the count, the capsule or the verdict of a step replay (16 R408, R410), notice 0x01. -/
def execReplayEnd (p : Fin 8) (s : State) : Host.Outcome State Fault Refusal :=
  if replayDone s p = false then .next s else
  let s := if (s.part p).step = none then closeCapsule p s else stepVerdict p s
  if (s.part p).st ≠ 1 then .next s else
  let s := forEach (s.liveCells p) (fun c s => s.onCore c fun k => { k with run := .halted }) s
  let s := s.onPart p fun q => { q with rst := 1, replays := q.replays + 1 }
  .next (notify p 0x01 stOk (s.part p).replays.toNat s)

/-- Bytes of a partition's stacks as they stand. -/
def peekRel (s : State) (p a n : Nat) : List Byte := (relPieces s p a n).flatMap fun x => s.mem.readN x.1 x.2

/-- A range overlaps a tensor instance of a module. -/
def meetsInstance (nSlots : Nat) (l : List TensorDecl) (r : Nat × Nat) : Bool :=
  l.any fun t => (instancesOf nSlots t).any (spansMeet r)

/-- Where an image may not stand (08 R235): unaligned, beyond the range, over a tensor instance the image or the
loaded module declares. -/
def imagePlaceBad (s : State) (p a : Nat) : Bool :=
  let head := peekRel s p a 64
  let len := max 64 (modHeader head).imgLen
  let i := imageOf (peekRel s p a len)
  decide (a % 4096 ≠ 0) || decide (a + 64 > s.stackBytes p) || decide (a + len > s.stackBytes p) ||
  meetsInstance i.h.nSlots (i.tensors.map Prod.fst) (a, len) ||
  meetsInstance (modOf s p).nSlots (modOf s p).tensors (a, len)

/-- MODULE_LOAD (08 R235): the loaded module discarded, the load begins; a cupping peer gets END (16 R415). -/
def execModuleLoad (req : EopReq) (s : State) : Host.Outcome State Fault Refusal :=
  .next (eopWrite (onlyEntry 0x6010 1) req
    (fun s p v => worst [when' (busyPart (s.part p) || decide ((s.part p).rst = 2 ∨ (s.part p).rst = 3)) stNotReady,
      when' (imagePlaceBad s p v) stRange])
    (fun p v _ s => (sendCupEnd p s).onPart p fun q => { q with
      mod := none, rst := 0, replays := 0, loadSt := 1, loadCode := 0, loadAddr := BitVec.ofNat 64 v, reason := 0,
      rsdOff := false, det := Det.reset, cup := Cup.reset }) s)

/-- A load that failed, with its status and reason (08 R235). -/
def failLoad (p status reason : Nat) (s : State) : State :=
  notify p 0x02 status 0 (s.onPart p fun q => { q with
    loadSt := 3, loadCode := BitVec.ofNat 8 status, reason := BitVec.ofNat 8 reason })

/-- A cell loaded (07 R190, 08 R235 orders 4 and 5): its trace area is empty (16 R407). -/
def loadCell (tables : List (List Byte)) (k : CellCode) (x : Cell) : Cell :=
  { x with
    provBase := k.prov.1, provSize := k.prov.2,
    ve := { x.ve with tables := Vector.ofFn fun i => tables[i.val]? },
    me := { x.me with past := [] }, trace := [], ovf := false,
    core := { Core.reset with imem := k.words, tmpl := k.tmpl } }

/-- The cells of a plan loaded. -/
def loadCells (i : Image) (cells : List Nat) (codes : List CellCode) (s : State) : State :=
  forEach (cells.zip codes) (fun x s => s.onCell x.1 (loadCell i.tables x.2)) s

/-- The image checked, translated and loaded (08 R235 orders 2 to 5). -/
def loadImage (p : Nat) (i : Image) (s : State) : State :=
  let q := s.part p
  let det : Det := { Det.reset with prov := q.provOn, cup := q.cupCfg, caps := q.capsN.toNat }
  let cells := s.liveCells p
  let plan := planOf i cells (s.stackBytes p) (streamRate s p)
  let codes := (List.range cells.length).map plan.cellCode
  let m := moduleOf plan codes
  if i.h.level ≠ 1 then failLoad p stIncompatible 1 s
  else if imageOk i = false ∨ (q.provOn = true ∧ m.instances.length > 65472) then failLoad p stRange 0 s
  else match misfit plan codes (s.stackBytes p) (regionSize det) with
    | some r => failLoad p stIncompatible r s
    | none =>
      let s := loadCells i cells codes s
      let s := s.onPart p fun q => { q with
        mod := some m, loadSt := 2, loadCode := 0, reason := 0, rst := 1, replays := 0, commitN := 0 }
      let s := loadDet p s
      if (s.part p).st = 1 then notify p 0x02 stOk 0 s else s

/-- MODULE_LOAD_END (08 R235): the digest, the checks, the translation, the load, notice 0x02. LEVEL stands in the first
64 bytes, whatever length the header gives the image (08 R226). -/
def execModuleLoadEnd (p : Fin 8) (s : State) : Host.Outcome State Fault Refusal :=
  if (s.part p).st ≠ 1 ∨ (s.part p).loadSt ≠ 1 then .next s else
  let a := (s.part p).loadAddr.toNat
  match relRead p a 64 s with
  | (none, s) => .next s
  | (some h, s) =>
    match relRead p a (modHeader h).imgLen s with
    | (none, s) => .next s
    | (some img, s) =>
      let s := s.onPart p fun q => { q with modDigest := sha img }
      .next (loadImage p (imageOf (img ++ h.drop img.length)) s)

end Sys2Proof.Machine
end

