-- ==== Sys2Proof/Machine/Contexts.lean ====
section
/-! DEFINITION. Saving and restoring lane-neutral contexts (08 R237 to R240). -/

set_option Elab.async false

namespace Sys2Proof.Machine

/-- Length of a context record in bytes, whole 32-byte units (08 R237). -/
def recordLen (m : Module) : Nat := alignUp 32 (64 + 64 + 16 + 1024 + 128 * m.nLogical + 64 + 32 * m.instances.length)

/-- The header of a context record (08 R237); outside a replay the commit point is the last (log entry 47). -/
def recordHead (s : State) (p : Nat) : List Byte :=
  let q := s.part p
  let m := modOf s p
  leBytes 64 (0x4C4E4331 * 2 ^ 480 + m.level.toNat * 2 ^ 464 + m.instances.length % 2 ^ 16 * 2 ^ 448
    + recordLen m / 32 % 2 ^ 32 * 2 ^ 416 + leNat (digestBytes q.modDigest) * 2 ^ 160
    + (if q.rst = 2 then q.commitN else m.nCommit) * 2 ^ 128 + q.replays.toNat * 2 ^ 64 + q.pset.toNat * 2 ^ 48)

/-- A context record, with the hashes held (08 R237). -/
def recordBytes (s : State) (p : Nat) : List Byte :=
  padTo 32 (recordHead s p ++ argBytes (s.part p) ++ beBytes 16 (s.part p).seed.toNat ++ paramBytes s p ++ countBytes s p ++
    digestBytes (s.part p).det.run ++ zeros 32 ++ tensorEntries s p)

/-- Where a record may not stand (08 R238, 16 R405): unaligned, beyond the range, over a tensor instance, the
determinism region or a translator image. -/
def recordPlaceBad (s : State) (p a : Nat) : Bool :=
  let m := modOf s p
  let n := recordLen m
  decide (a % 4096 ≠ 0) || decide (a + n > s.stackBytes p) || meetsInstance m.nSlots m.tensors (a, n) ||
  spansMeet (a, n) (m.imageTop, s.stackBytes p - m.imageTop) || spansMeet (a, n) (regionBase s p, regionSize (s.part p).det)

/-- CONTEXT_SAVE_REQUEST (08 R238). -/
def execContextSaveRequest (req : EopReq) (s : State) : Host.Outcome State Fault Refusal :=
  .next (eopWrite (onlyEntry 0x6020 1) req
    (fun s p v =>
      let q := s.part p
      worst [when' (decide (q.st ≠ 1) || decide (q.loadSt = 1) || q.mod.isNone || q.saveReq.isSome || q.restoring.isSome) stNotReady,
        when' (recordPlaceBad s p v) stRange])
    (fun p v _ s => s.onPart p fun q => { q with saveReq := some (BitVec.ofNat 64 v), saveReg := BitVec.ofNat 64 v }) s)

/-- No stream delivery into a partition is in flight, and its paced queues are empty (08 R238). -/
def streamsQuiet (s : State) (p : Nat) : Bool :=
  (s.part p).paced.toList.all List.isEmpty &&
  !(s.ring.rx.any fun x => decide (x.part = p) && x.recv.isSome && !x.finished)

/-- The partition rests where a save may be taken: at a commit point whose comparison has passed, or idle. -/
def saveReady (s : State) (p : Nat) : Bool :=
  let q := s.part p
  decide (q.st = 1) && q.saveReq.isSome && !q.saving && streamsQuiet s p &&
  (decide (q.rst = 1) || (decide (q.rst = 2) && q.atPoint && q.cup.point.isNone))

/-- CONTEXT_SAVE (08 R238): the save begins. -/
def execContextSave (p : Fin 8) (s : State) : Host.Outcome State Fault Refusal :=
  .next (if saveReady s p then s.onPart p fun q => { q with saving := true } else s)

/-- CONTEXT_SAVE_END (08 R238): every instance hashed, the record written, the cores released, notice 0x03. -/
def execContextSaveEnd (p : Fin 8) (s : State) : Host.Outcome State Fault Refusal :=
  if (s.part p).saving = false then .next s else
  match (s.part p).saveReq with
  | none => .next s
  | some a =>
    let r := rehash p (allInstances s p) s
    if r.1 = false then .next r.2 else
    let w := relWrite false p a.toNat (recordBytes r.2 p) r.2
    if w.1 = false then .next w.2 else
    let s := w.2.onPart p fun q => { q with saveReq := none, saving := false, ctxStatus := BitVec.ofNat 8 stOk }
    let s := if (s.part p).rst = 2 then releaseCores p s else s
    .next (notify p 0x03 stOk a.toNat s)

/-- RESTORE (08 R239 order 1). -/
def execRestore (req : EopReq) (s : State) : Host.Outcome State Fault Refusal :=
  .next (eopWrite (onlyEntry 0x6020 2) req
    (fun s p v => worst [when' (decide ((s.part p).rst ≠ 1) || busyPart (s.part p)) stNotReady,
      when' (decide (bits v 127 65 ≠ 0) || decide (bits v 63 0 % 4096 ≠ 0)) stRange])
    (fun p v _ s => s.onPart p fun q => { q with restoring := some (BitVec.ofNat 128 v), restReg := BitVec.ofNat 128 v }) s)

/-- A restore ends with a status and, for an incompatible record, a reason (08 R239). -/
def endRestore (p status : Nat) (reason : Option Nat) (a : Nat) (s : State) : State :=
  notify p 0x03 status a (s.onPart p fun q => { q with
    restoring := none, ctxStatus := BitVec.ofNat 8 status,
    reason := match reason with | some r => BitVec.ofNat 8 r | none => q.reason })

/-- Length in bytes that a record's header gives it, at least the header. -/
def headLen (h : Nat) : Nat := max 64 (32 * bits h 447 416)

/-- The part of a record after its header that lies in the partition's stacks is read; none of it where the record
reaches beyond them. -/
def readBody (s : State) (p a h : Nat) : Option (List Byte) × State :=
  if a + headLen h > s.stackBytes p then (some [], s) else relRead p (a + 64) (headLen h - 64) s

/-- A reserved field of a record's body is not zero: the second half of the provenance state, or a tensor entry's
[229:104]. They stand before the record's 16 bytes of padding (08 R237, 16 R403). -/
def bodyReserved (h : Nat) (body : List Byte) : Bool :=
  let n := bits h 463 448
  let o := body.length - (16 + 32 * n)
  decide (48 + 32 * n ≤ body.length) && (decide (leNat (slice body (o - 32) 32) ≠ 0) ||
    (recordsAt body o 32 n).any fun e => decide (bits e 229 104 ≠ 0))

/-- The checks of a record (08 R239 orders 2 to 5): status and reason. -/
def headerStatus (s : State) (p a h : Nat) (body : List Byte) : Nat × Option Nat :=
  let m := modOf s p
  if bits h 511 480 ≠ 0x4C4E4331 ∨ bits h 47 0 ≠ 0 ∨ bodyReserved h body = true then (stRange, none)
  else if bits h 479 464 ≠ 1 then (stIncompatible, some 1)
  else if bits h 415 160 ≠ leNat (digestBytes (s.part p).modDigest) then (stDigest, none)
  else if a + headLen h > s.stackBytes p ∨ (m.instances.any fun x => decide (x.2.2.1 + x.2.2.2 > s.stackBytes p)) = true then
    (stIncompatible, some 2)
  else (stOk, none)

/-- What a restore leaves undefined (08 R239): cell stores, non-persistent tensors, translator images. -/
def voidContents (p : Nat) (s : State) : State :=
  let m := modOf s p
  let s := forEach (s.liveCells p) (fun c s => freeBytes (cellBase c) cellSize s) s
  let temps := (m.tensors.filter fun t => !t.persist).flatMap (instancesOf m.nSlots)
  let rel := (temps ++ [(m.imageTop, s.stackBytes p - m.imageTop)]).flatMap fun r => relPieces s p r.1 r.2
  forEach rel (fun x s => freeBytes x.1 x.2 s) s

/-- Order 7 of a restore (08 R239): seed, parameter registers, replay count, channel counts with their event
counters, the running digest; and the replay arguments and patch set of the record. -/
def setContext (p h : Nat) (body : List Byte) (s : State) : State :=
  let m := modOf s p
  let params := (chunks 8 128 (body.drop 80)).map leNat
  let counts := (chunks 4 (32 * m.nLogical) (body.drop 1104)).map leNat
  let args : Vector (BitVec 64) 8 := Vector.ofFn fun k => BitVec.ofNat 64 (leNat (slice body (8 * k.val) 8))
  let regs : Vector (BitVec 64) 128 := Vector.ofFn fun k => BitVec.ofNat 64 (params.getD k.val 0)
  let s := forEach (s.liveCells p) (fun c s => s.onCore c fun k => { k with p := regs }) s
  let s := forEach m.chans (fun d s => match d.ctr, m.hosts[d.cons]? with
    | some t, some c => s.onCore c fun k => { k with ev := vmod k.ev t fun _ => BitVec.ofNat 32 (counts.getD (32 * d.cons + d.chan) 0) }
    | _, _ => s) s
  let s := s.onPart p fun q => { q with
    seed := BitVec.ofNat 128 (beNat (slice body 64 16)), replays := BitVec.ofNat 64 (bits h 127 64),
    pset := BitVec.ofNat 16 (bits h 63 48), args := args,
    det := { q.det with counts := counts.zipIdx.map fun x => (x.2, BitVec.ofNat 64 x.1), arrivals := [], touched := [] } }
  setRun p (BitVec.ofNat 256 (beNat (slice body (1104 + 128 * m.nLogical) 32))) s

/-- Order 8 of a restore: the replay resumes at the phase after the commit point, or the partition stays idle. -/
def resumeReplay (p n : Nat) (resume : Bool) (s : State) : State :=
  let m := modOf s p
  if resume = true ∧ n < m.nCommit then
    startCores p n (fun j => if n = 0 then 0 else ((m.resume[j]?).getD []).getD (n - 1) 0) s
  else s

/-- RESTORE_END (08 R239 orders 2 to 8), notice 0x03. -/
def execRestoreEnd (p : Fin 8) (s : State) : Host.Outcome State Fault Refusal :=
  match (s.part p).restoring with
  | none => .next s
  | some v =>
    let a := fld v 63 0
    if a + 64 > s.stackBytes p then .next (endRestore p stIncompatible (some 2) a s) else
    match relRead p a 64 s with
    | (none, s) => .next s
    | (some hb, s) =>
      let h := leNat hb
      match readBody s p a h with
      | (none, s) => .next s
      | (some body, s) =>
        let m := modOf s p
        let c := headerStatus s p a h body
        if c.1 ≠ stOk then .next (endRestore p c.1 c.2 a s) else
        let r := rehash p (allInstances s p) s
        if r.1 = false then .next r.2
        else if bits h 463 448 ≠ m.instances.length ∨
            slice body (1168 + 128 * m.nLogical) (32 * m.instances.length) ≠ tensorEntries r.2 p then
          .next (endRestore p stDigest none a r.2)
        else
          let s := setContext p h body (voidContents p r.2)
          .next (endRestore p stOk none a (resumeReplay p (bits h 159 128) (flag v 64) s))

end Sys2Proof.Machine
end

