-- ==== Sys2Proof/Machine/ControlCore.lean ====
section
/-! DEFINITION. The control-core instructions (07 R188). Each runs when the core of the cell runs and its next
instruction is a legal one of that row; otherwise the state is left as it is (log entry 1). -/

set_option Elab.async false

namespace Sys2Proof.Machine

/-- A step of one opcode on a cell's core. -/
def coreStep (c op : Nat) (f : BitVec 32 → Core → Core) (s : State) : Host.Outcome State Fault Refusal :=
  match coreFetch c op s with
  | some w => .next (s.onCore c (f w))
  | none => .next s

/-- rd ← f(rs1, rs2). -/
def regOp (f : BitVec 64 → BitVec 64 → BitVec 64) (w : BitVec 32) (k : Core) : Core :=
  { k.setG (rdOf w) (f (k.greg (rs1Of w)) (k.greg (rs2Of w))) with pc := k.pc + 1 }

/-- rd ← f(rs1, imm16). -/
def immOp (f : BitVec 64 → Nat → BitVec 64) (w : BitVec 32) (k : Core) : Core :=
  { k.setG (rdOf w) (f (k.greg (rs1Of w)) (immOf w)) with pc := k.pc + 1 }

/-- A branch to the address plus offset16 when f(rs1, rs2): rs1 at [25:21], rs2 at [20:16]. -/
def branchOp (f : BitVec 64 → BitVec 64 → Bool) (w : BitVec 32) (k : Core) : Core :=
  { k with pc := if f (k.greg (rdOf w)) (k.greg (rs1Of w)) then (relTarget k.pc 16 (immOf w)).toNat else k.pc + 1 }

/-- ADD (07 R188): Control-core instruction rd ← rs1 + rs2. -/
def execAdd (c : Fin 34) (s : State) : Host.Outcome State Fault Refusal :=
  coreStep c 0x01 (regOp (fun a b => a + b)) s

/-- SUB (07 R188): Control-core instruction rd ← rs1 − rs2. -/
def execSub (c : Fin 34) (s : State) : Host.Outcome State Fault Refusal :=
  coreStep c 0x02 (regOp (fun a b => a - b)) s

/-- AND (07 R188): Control-core instruction rd ← rs1 AND rs2. -/
def execAnd (c : Fin 34) (s : State) : Host.Outcome State Fault Refusal :=
  coreStep c 0x03 (regOp (fun a b => a &&& b)) s

/-- OR (07 R188): Control-core instruction rd ← rs1 OR rs2. -/
def execOr (c : Fin 34) (s : State) : Host.Outcome State Fault Refusal :=
  coreStep c 0x04 (regOp (fun a b => a ||| b)) s

/-- XOR (07 R188): Control-core instruction rd ← rs1 XOR rs2. -/
def execXor (c : Fin 34) (s : State) : Host.Outcome State Fault Refusal :=
  coreStep c 0x05 (regOp (fun a b => a ^^^ b)) s

/-- SLL (07 R188): Control-core logical left shift by a register. -/
def execSll (c : Fin 34) (s : State) : Host.Outcome State Fault Refusal :=
  coreStep c 0x06 (regOp (fun a b => a <<< fld b 5 0)) s

/-- SRL (07 R188): Control-core logical right shift by a register. -/
def execSrl (c : Fin 34) (s : State) : Host.Outcome State Fault Refusal :=
  coreStep c 0x07 (regOp (fun a b => a >>> fld b 5 0)) s

/-- SRA (07 R188): Control-core arithmetic right shift by a register. -/
def execSra (c : Fin 34) (s : State) : Host.Outcome State Fault Refusal :=
  coreStep c 0x08 (regOp (fun a b => a.sshiftRight (fld b 5 0))) s

/-- MUL (07 R188): Control-core instruction giving the low 64 bits of a product. -/
def execMul (c : Fin 34) (s : State) : Host.Outcome State Fault Refusal :=
  coreStep c 0x09 (regOp (fun a b => a * b)) s

/-- SLTU (07 R188): Control-core unsigned set-less-than. -/
def execSltu (c : Fin 34) (s : State) : Host.Outcome State Fault Refusal :=
  coreStep c 0x0A (regOp (fun a b => if a < b then 1 else 0)) s

/-- SLT (07 R188): Control-core signed set-less-than. -/
def execSlt (c : Fin 34) (s : State) : Host.Outcome State Fault Refusal :=
  coreStep c 0x0B (regOp (fun a b => if a.slt b then 1 else 0)) s

/-- MINU (07 R188): Control-core unsigned minimum. -/
def execMinu (c : Fin 34) (s : State) : Host.Outcome State Fault Refusal :=
  coreStep c 0x0C (regOp (fun a b => if b < a then b else a)) s

/-- MAXU (07 R188): Control-core unsigned maximum. -/
def execMaxu (c : Fin 34) (s : State) : Host.Outcome State Fault Refusal :=
  coreStep c 0x0D (regOp (fun a b => if a < b then b else a)) s

/-- ADDI (07 R188): Control-core add of a signed immediate. -/
def execAddi (c : Fin 34) (s : State) : Host.Outcome State Fault Refusal :=
  coreStep c 0x10 (immOp (fun a i => a + BitVec.ofInt 64 (sext 16 i))) s

/-- ANDI (07 R188): Control-core AND with a zero-extended immediate. -/
def execAndi (c : Fin 34) (s : State) : Host.Outcome State Fault Refusal :=
  coreStep c 0x11 (immOp (fun a i => a &&& BitVec.ofNat 64 i)) s

/-- ORI (07 R188): Control-core OR with a zero-extended immediate. -/
def execOri (c : Fin 34) (s : State) : Host.Outcome State Fault Refusal :=
  coreStep c 0x12 (immOp (fun a i => a ||| BitVec.ofNat 64 i)) s

/-- XORI (07 R188): Control-core XOR with a zero-extended immediate. -/
def execXori (c : Fin 34) (s : State) : Host.Outcome State Fault Refusal :=
  coreStep c 0x13 (immOp (fun a i => a ^^^ BitVec.ofNat 64 i)) s

/-- SLLI (07 R188): Control-core logical left shift by an immediate. -/
def execSlli (c : Fin 34) (s : State) : Host.Outcome State Fault Refusal :=
  coreStep c 0x14 (immOp (fun a i => a <<< bits i 5 0)) s

/-- SRLI (07 R188): Control-core logical right shift by an immediate. -/
def execSrli (c : Fin 34) (s : State) : Host.Outcome State Fault Refusal :=
  coreStep c 0x15 (immOp (fun a i => a >>> bits i 5 0)) s

/-- SRAI (07 R188): Control-core arithmetic right shift by an immediate. -/
def execSrai (c : Fin 34) (s : State) : Host.Outcome State Fault Refusal :=
  coreStep c 0x16 (immOp (fun a i => a.sshiftRight (bits i 5 0))) s

/-- MOVK (07 R188): Control-core instruction inserting a 16-bit immediate into one halfword of rd. -/
def execMovk (c : Fin 34) (s : State) : Host.Outcome State Fault Refusal :=
  coreStep c 0x17 (fun w k =>
    let h := fld w 17 16
    { k.setG (rdOf w) (setFld (k.greg (rdOf w)) (16 * h + 15) (16 * h) (immOf w)) with pc := k.pc + 1 }) s

/-- PRD (07 R188): Control-core instruction reading a parameter register into rd. -/
def execPrd (c : Fin 34) (s : State) : Host.Outcome State Fault Refusal :=
  coreStep c 0x18 (fun w k => { k.setG (rdOf w) (vget k.p (fld w 6 0) 0) with pc := k.pc + 1 }) s

/-- BEQ (07 R188): Control-core branch if equal. -/
def execBeq (c : Fin 34) (s : State) : Host.Outcome State Fault Refusal :=
  coreStep c 0x20 (branchOp (fun a b => a == b)) s

/-- BNE (07 R188): Control-core branch if not equal. -/
def execBne (c : Fin 34) (s : State) : Host.Outcome State Fault Refusal :=
  coreStep c 0x21 (branchOp (fun a b => a != b)) s

/-- BLTU (07 R188): Control-core branch if less than, unsigned. -/
def execBltu (c : Fin 34) (s : State) : Host.Outcome State Fault Refusal :=
  coreStep c 0x22 (branchOp (fun a b => decide (a < b))) s

/-- BGEU (07 R188): Control-core branch if greater than or equal, unsigned. -/
def execBgeu (c : Fin 34) (s : State) : Host.Outcome State Fault Refusal :=
  coreStep c 0x23 (branchOp (fun a b => decide (b ≤ a))) s

/-- BLT (07 R188): Control-core branch if less than, signed. -/
def execBlt (c : Fin 34) (s : State) : Host.Outcome State Fault Refusal :=
  coreStep c 0x24 (branchOp (fun a b => a.slt b)) s

/-- BGE (07 R188): Control-core branch if greater than or equal, signed. -/
def execBge (c : Fin 34) (s : State) : Host.Outcome State Fault Refusal :=
  coreStep c 0x25 (branchOp (fun a b => !a.slt b)) s

/-- JAL (07 R188): Control-core jump and link into g31. -/
def execJal (c : Fin 34) (s : State) : Host.Outcome State Fault Refusal :=
  coreStep c 0x26 (fun w k =>
    { k.setG 31 (BitVec.ofNat 64 (k.pc + 1)) with pc := (relTarget k.pc 26 (fld w 25 0)).toNat }) s

/-- JR (07 R188): Control-core jump to the address in a register. -/
def execJr (c : Fin 34) (s : State) : Host.Outcome State Fault Refusal :=
  coreStep c 0x27 (fun w k => { k with pc := (k.greg (rs1Of w)).toNat }) s

/-- The core has come to a commit point: no check point open and every earlier command complete (07 R214). -/
def atRest (x : Cell) : Bool := x.core.snaps.isEmpty && (allCommands x).isEmpty

/-- A wait for rest, then the commit point of the cell counted. -/
def commitOp (c op : Nat) (run : CoreRun) (s : State) : Host.Outcome State Fault Refusal :=
  match coreFetch c op s with
  | some _ =>
    if atRest (s.cell c) then
      .next (s.onCore c fun k => { k with run := run, pc := k.pc + 1, commits := k.commits + 1 })
    else .next s
  | none => .next s

/-- HALT (07 R188): Ends the cell's program and implies a commit point. It waits as MARK does (07 R214). -/
def execHalt (c : Fin 34) (s : State) : Host.Outcome State Fault Refusal :=
  commitOp c 0x28 .ended s

/-- CLDT (07 R188): Loads a command template into CW. -/
def execCldt (c : Fin 34) (s : State) : Host.Outcome State Fault Refusal :=
  coreStep c 0x30 (fun w k => { k with cw := (k.tmpl[fld w 9 0]?).getD 0, cwT := some (fld w 9 0), pc := k.pc + 1 }) s

/-- CINS (07 R188): CW[lsb + width − 1 : lsb] ← rs1[width − 1 : 0]. -/
def execCins (c : Fin 34) (s : State) : Host.Outcome State Fault Refusal :=
  coreStep c 0x31 (fun w k =>
    { k with cw := setFld k.cw (fld w 20 13 + fld w 12 7) (fld w 20 13) (k.greg (rdOf w)).toNat, pc := k.pc + 1 }) s

/-- A push must wait: the queue holds 512 commands, or 384 have been pushed after the oldest uncommitted
command (07 R202). -/
def pushWaits (x : Cell) (q : Nat) : Bool :=
  decide ((vget x.queues q []).length ≥ 512) ||
  x.core.snaps.any fun cp => decide (cp.seqNo.toNat + 384 < x.core.seqNo.toNat)

/-- The logical cell whose body holds an instruction (08 R231, 16 R407). -/
def lcellAt (s : State) (c pc : Nat) : Option Nat :=
  match s.cellOwner c with
  | none => none
  | some p => match (s.part p).mod with
    | none => none
    | some m =>
      match (s.liveCells p).findIdx? fun x => decide (x = c) with
      | none => none
      | some i => ((m.bodies[i]?).getD []).findSome? fun b =>
          if b.1 ≤ pc ∧ pc < b.1 + b.2.1 then some b.2.2 else none

/-- The channel the arrivals of a template's commands count on (08 R231, 16 R403). -/
def chanOf (s : State) (c : Nat) (t : Option Nat) : Option (Nat × Nat) :=
  match s.cellOwner c, t with
  | some p, some t => match (s.part p).mod with
    | none => none
    | some m =>
      match (s.liveCells p).findIdx? fun x => decide (x = c) with
      | none => none
      | some i => ((((m.tmplChans[i]?).getD [])[t]?).getD none)
  | _, _ => none

/-- The place of the next command of a logical cell among those since the replay start, in program order: behind the traced
ones and those without a record yet (16 R407; DEDUCED, log entry 99). -/
def nextOrd (s : State) (c : Nat) (l : Option Nat) : Nat :=
  match s.cellOwner c, l with
  | some p, some l => vget (s.part p).det.ord l 0 + ((unrecorded (s.cell c)).filter fun y => decide (y.2.lcell = some l)).length
  | _, _ => 0

/-- PUSH (07 R188): Pushes CW into an engine queue with the next sequence number, once the queue and run-ahead limits allow. -/
def execPush (c : Fin 34) (s : State) : Host.Outcome State Fault Refusal :=
  match coreFetch c 0x32 s with
  | some w =>
    let x := s.cell c
    let q := fld w 25 23
    if pushWaits x q then .next s else
    let l := lcellAt s c x.core.pc
    let e : QEntry := { word := x.core.cw, seqNo := x.core.seqNo, fb := flag w 22, gate := x.core.gate, lcell := l,
                        chan := chanOf s c x.core.cwT, ord := nextOrd s c l }
    .next (s.onCell c fun x => { x with
      queues := vmod x.queues q (· ++ [e]),
      core := { x.core with
        seqNo := x.core.seqNo + 1, gate := none, pc := x.core.pc + 1,
        lastPush := vmod x.core.lastPush q fun _ => some ⟨e.seqNo, none, false⟩ } })
  | none => .next s

/-- GATE (07 R188): Sets the pending gate on an event counter and threshold. rs1 stands at [25:21], the counter index at [20:16]. -/
def execGate (c : Fin 34) (s : State) : Host.Outcome State Fault Refusal :=
  coreStep c 0x33 (fun w k =>
    { k with gate := some ⟨Fin.ofNat 32 (rs1Of w), BitVec.ofNat 32 (k.greg (rdOf w)).toNat⟩, pc := k.pc + 1 }) s

/-- CHKP (07 R188): Opens a check point on the last pushed command of a queue and saves a snapshot. -/
def execChkp (c : Fin 34) (s : State) : Host.Outcome State Fault Refusal :=
  match coreFetch c 0x34 s with
  | some w => if (s.cell c).core.snaps.length ≥ 8 then .next s else .next (openCheckPoint c w s)
  | none => .next s

/-- MARK (07 R188): Waits until no check point is open and all earlier commands have completed, then marks a commit point of the cell. -/
def execMark (c : Fin 34) (s : State) : Host.Outcome State Fault Refusal :=
  commitOp c 0x35 .atMark s

/-- The next instruction of a running core is illegal (07 R189). -/
def atIllegal (k : Core) : Bool := decide (k.run = .running) && (decide (imemSize ≤ k.pc) || !k.legal k.fetch)

/-- ILLEGAL_INSTRUCTION (07 R189): it waits until no check point is open and every committed command has completed, then
writes the control-core record and stops the partition. -/
def execIllegalInstruction (c : Fin 34) (s : State) : Host.Outcome State Fault Refusal :=
  match s.works c with
  | none => .next s
  | some p =>
    let x := s.cell c
    if atIllegal x.core && atRest x then
      let s := pushRecord c (recordWord 7 false x.core.pc x.core.seqNo.toNat stRange Counts.reset 0) s
      let s := recordEvent 0x04 1 c stRange p (x.core.pc % 2 ^ 14) s
      .next ((stopPartition p c stRange none s).onCore c fun k => { k with run := .illegal })
    else .next s

end Sys2Proof.Machine
end

