-- ==== Sys2Proof/Machine/Determinism.lean ====
section
/-! DEFINITION. Partition commit points, cupping and step replays (07 R214, 16 R403 to R416). -/

set_option Elab.async false

namespace Sys2Proof.Machine

/-- Cupping is in force: enabled at the load and not ended (16 R411). -/
def cupActive (q : Part) : Bool := cupEnabled q.det.cup && decide (q.cup.st = 1 ∨ q.cup.st = 2)

/-- The peer of a partition where it is another partition of this device, which names it in turn (16 R411). -/
def localPeer (s : State) (p : Nat) : Option Nat :=
  let peer := cupPeer (s.part p).det.cup
  if peer.1 = s.nv.ringId ∧ cupPeer (s.part peer.2).det.cup = (s.nv.ringId, p) then some peer.2 else none

/-- A cupping frame to the peer on another device. -/
def sendRemote (p : Nat) (payload : List Byte) (s : State) : State :=
  let peer := cupPeer (s.part p).det.cup
  if peer.1 = s.nv.ringId then s
  else sendClass0 (routePort s peer.1) (newFrame s 6 0 peer.1 peer.2 p payload) s

/-- The DIGEST of a partition's point. -/
def digestOf (q : Part) (point : BitVec 64) : List Byte := cupPayload 1 point q.cup.seen q.det.run q.det.d

/-- The comparison passed (16 R413 order 4): state 2, one further DIGEST by `send`, the cores released. -/
def cupPass (send : Nat → List Byte → State → State) (p : Nat) (point : BitVec 64) (s : State) : State :=
  let s := send p (digestOf (s.part p) point) s
  releaseCores p (emptyTraces p (s.onPart p fun q => { q with cup := { q.cup with st := 2, point := none } }))

/-- The comparison failed (16 R414): the partition stops with its cores held, its traces are dumped, notice 0x08. -/
def cupFail (p : Nat) (s : State) : State :=
  let n := (s.part p).commitN
  let s := s.onPart p fun q => { q with cup := { q.cup with st := 3, point := none } }
  let s := dumpTraces p (regionBase s p + 0x400000) s
  notify p 0x08 stDigest n (if (s.part p).st = 1 then haltPartition p stDigest none s else s)

/-- A point judged by the digests of the peer's frame (16 R413 orders 4 and 5). -/
def cupJudge (send : Nat → List Byte → State → State) (p : Nat) (point : BitVec 64) (payload : List Byte) (s : State) : State :=
  let q := s.part p
  if slice payload 24 64 = digestBytes q.det.run ++ digestBytes q.det.d then cupPass send p point s else cupFail p s

/-- POINT of a cupping payload. -/
def payloadPoint (b : List Byte) : BitVec 64 := BitVec.ofNat 64 (leNat (slice b 8 8))

/-- A DIGEST of the peer at a partition (16 R413): judged if it is for the point waited at, kept if for a later one,
answered with the stored frame if for one of the latest earlier points. `send` carries what it sends to the peer. -/
def takeDigest (send : Nat → List Byte → State → State) (p : Nat) (payload : List Byte) (s : State) : State :=
  let q := s.part p
  let n := payloadPoint payload
  if cupActive q = false ∧ q.cup.st ≠ 3 then s else
  let s := s.onPart p fun q => { q with cup := { q.cup with seen := if q.cup.seen < n then n else q.cup.seen } }
  if q.cup.point = some n then cupJudge send p n payload s
  else match q.cup.frames.find? fun f => decide (f.1 = n) with
    | some f => send p f.2 s
    | none =>
      if cupActive q = true ∧ (q.cup.frames.all fun f => decide (f.1 < n)) = true then
        s.onPart p fun q => { q with cup := { q.cup with early := some (n, payload) } }
      else s

/-- A cupping frame in reply: to a peer partition of this device it passes on the link die, which brings no further reply
(16 R411, R413). -/
def replyCup (p : Nat) (payload : List Byte) (s : State) : State :=
  match localPeer s p with
  | some q => takeDigest (fun _ _ s => s) q payload s
  | none => sendRemote p payload s

/-- A cupping frame to the peer, on another device or on this one. -/
def sendCup (p : Nat) (payload : List Byte) (s : State) : State :=
  match localPeer s p with
  | some q => takeDigest replyCup q payload s
  | none => sendRemote p payload s

/-- A commit point whose digests go to the peer (16 R413 orders 1 and 2); a peer partition of this device gets them
on the link die. -/
def cupPoint (p : Nat) (s : State) : State :=
  let n := pointOf (s.part p)
  let b := digestOf (s.part p) n
  let s := s.onPart p fun q => { q with cup := { q.cup with
    point := some n, frames := (q.cup.frames ++ [(n, b)]).drop ((q.cup.frames.length + 1) - 3) } }
  let s := sendCup p b s
  match (s.part p).cup.early with
  | some e =>
    if e.1 = n ∧ (s.part p).cup.point = some n then
      cupJudge replyCup p n e.2 (s.onPart p fun q => { q with cup := { q.cup with early := none } })
    else s
  | none => s

/-- Every cell has passed the partition's next commit point (07 R214). -/
def commitReached (s : State) (p : Nat) : Bool :=
  let q := s.part p
  decide (q.st = 1) && decide (q.rst = 2) && !q.atPoint && decide (q.commitN < (modOf s p).nCommit) &&
  (s.liveCells p).all fun c =>
    decide ((s.cell c).core.commits = q.commitN + 1) && decide ((s.cell c).core.run = .atMark ∨ (s.cell c).core.run = .ended)

/-- PARTITION_COMMIT_POINT (07 R214, 16 R403, R413): the digests formed; the cores leave, unless a comparison or a
save holds them. -/
def execPartitionCommitPoint (p : Fin 8) (s : State) : Host.Outcome State Fault Refusal :=
  if commitReached s p = false then .next s else
  let s := s.onPart p fun q => { q with commitN := q.commitN + 1 }
  let r := commitRun p s
  if r.1 = false then .next r.2 else
  let s := r.2.onPart p fun q => { q with atPoint := true, det := { q.det with ta := Vector.replicate 32 0 } }
  .next (if cupActive (s.part p) then cupPoint p s
    else releaseCores p (if cupEnabled (s.part p).det.cup then emptyTraces p s else s))

/-- A cupping frame of one kind for a partition of this device, from its peer (16 R411, R412). -/
def onCup (port kind : Nat) (f : VrtFrame) (k : Nat → List Byte → State → State) (s : State) : State :=
  if frameOk f = true ∧ ¬ ((frameBody f).head? = some 0x10 ∧ (frameBody f)[1]? = some (BitVec.ofNat 8 kind)) then s
  else onFrame port 6 f (fun g s =>
    let p := g.dstPart.toNat
    if cupPeer (s.part p).det.cup = (g.srcRing, g.srcPart.toNat) then k p g.payload s else s) s

/-- CUPPING_DIGEST (16 R413). -/
def execCuppingDigest (port : RingPort) (f : VrtFrame) (s : State) : Host.Outcome State Fault Refusal :=
  .next (onCup (portNum port) 1 f (fun p b s => takeDigest replyCup p b s) s)

/-- CUPPING_END (16 R415): the peer has ended cupping. -/
def execCuppingEnd (port : RingPort) (f : VrtFrame) (s : State) : Host.Outcome State Fault Refusal :=
  .next (onCup (portNum port) 2 f (fun p _ s => cupEndAt p s) s)

/-- CUPPING_RESEND (16 R413 order 3): every 1 ms while no peer frame for the point has arrived. -/
def execCuppingResend (p : Fin 8) (s : State) : Host.Outcome State Fault Refusal :=
  match (s.part p).cup.point with
  | some n => .next (sendCup p (digestOf (s.part p) n) s)
  | none => .next s

/-- CUPPING_PEER_TIMEOUT (16 R413 order 7): state 4, cupping over, the cores released. -/
def execCuppingPeerTimeout (p : Fin 8) (s : State) : Host.Outcome State Fault Refusal :=
  match (s.part p).cup.point with
  | some _ => .next (cupOver p s)
  | none => .next s

/-- The range of a cupping configuration write (16 R406, R411). -/
def cupConfigBad (idx v : Nat) : Bool :=
  if idx = 0x9030 then decide (bits v 31 24 > 1) || decide (bits v 23 16 > 7) else decide (idx = 0x9040) && decide (v > 4)

/-- CUPPING_CONFIG_WRITE (16 R406, R415): OD 0x9020:01, 0x9030:01 or 0x9040:01, in force from the next load; enable 0
sends END. -/
def execCuppingConfigWrite (req : EopReq) (s : State) : Host.Outcome State Fault Refusal :=
  .next (eopWrite (fun i j => decide (j = 1) && decide (i = 0x9020 ∨ i = 0x9030 ∨ i = 0x9040)) req
    (fun s p v => worst [when' (decide ((s.part p).rst ≠ 0)) stNotReady, when' (cupConfigBad req.index.toNat v) stRange])
    (fun p v _ s =>
      if req.index = 0x9020 then s.onPart p fun q => { q with provOn := decide (v = 1) }
      else if req.index = 0x9040 then s.onPart p fun q => { q with capsN := BitVec.ofNat 8 v }
      else
        let old := (s.part p).cupCfg
        let s := if cupEnabled old = true ∧ bits v 31 24 = 0 then endPeerOf p old s else s
        s.onPart p fun q => { q with cupCfg := BitVec.ofNat 32 v }) s)

/-- STEP_REPLAY (16 R409 order 1). -/
def execStepReplay (req : EopReq) (s : State) : Host.Outcome State Fault Refusal :=
  .next (eopWrite (onlyEntry 0x9040 2) req
    (fun s p v =>
      let q := s.part p
      worst [when' (decide (q.rst ≠ 1) || busyPart q || cupEnabled q.det.cup) stNotReady,
        when' (decide (bits v 63 49 ≠ 0) || decide (q.det.caps = 0) || (capsuleFor s p (bits v 47 0)).isNone) stRange])
    (fun p v _ s => s.onPart p fun q => { q with
      stepReg := BitVec.ofNat 64 v,
      step := some ⟨(capsuleFor s p (bits v 47 0)).getD 0, bit v 48, true, false, []⟩ }) s)

/-- A step replay that ends before it starts, with its verdict. -/
def endStep (p status : Nat) (s : State) : State :=
  s.onPart p fun q => { q with step := none, stepStatus := BitVec.ofNat 8 status }

/-- Order 4 of a step replay (16 R409): registers, event counters and arguments of the capsule, then the replay. -/
def startStep (p : Nat) (c : List Byte) (s : State) : State :=
  let m := modOf s p
  let regs : Vector (BitVec 64) 128 := Vector.ofFn fun k => BitVec.ofNat 64 ((capParams c).getD k.val 0)
  let args : Vector (BitVec 64) 8 := Vector.ofFn fun k => BitVec.ofNat 64 ((capArgs c).getD k.val 0)
  let counts := capCounts c
  let s := forEach (s.liveCells p) (fun c s => s.onCore c fun k => { k with p := regs }) s
  let s := forEach m.chans (fun d s => match d.ctr, m.hosts[d.cons]? with
    | some t, some c => s.onCore c fun k => { k with ev := vmod k.ev t fun _ => BitVec.ofNat 32 (counts.getD (32 * d.cons + d.chan) 0) }
    | _, _ => s) s
  let s := s.onPart p fun q => { q with
    pset := BitVec.ofNat 16 (capPset c), args := args,
    step := q.step.map fun x => { x with hashing := false, expect := (capArrivals c).map arrivalOf },
    det := { q.det with
      stepArr := [], arrivals := [], counts := counts.zipIdx.map fun x => (x.2, BitVec.ofNat 64 x.1) } }
  startCores p 0 (fun _ => 0) (startRun p s)

/-- STEP_REPLAY_HASH_END (16 R409 orders 2 to 4). -/
def execStepReplayHashEnd (p : Fin 8) (s : State) : Host.Outcome State Fault Refusal :=
  match (s.part p).step with
  | none => .next s
  | some x =>
    if x.hashing = false then .next s else
    match readCapsule p x.slot s with
    | (none, s) => .next s
    | (some c, s) =>
      let q := s.part p
      if capReplays c ≠ q.replays.toNat ∨ capSeed c ≠ sha256Bytes (beBytes 16 q.seed.toNat) ∨ capRun0 c ≠ digestBytes q.det.run then
        .next (endStep p stDigest s)
      else
        let r := rehash p (allInstances s p) s
        if r.1 = false then .next r.2
        else if capTensors c ≠ tensorEntries r.2 p then .next (endStep p stDigest r.2)
        else .next (startStep p c r.2)

end Sys2Proof.Machine
end

