-- ==== Sys2Proof/Machine/Eop.lean ====
section
/-! DEFINITION. Sessions and notices of the Epermal Object Protocol (11 R311, R318 to R330). -/

set_option Elab.async false

namespace Sys2Proof.Machine

/-- The next free session number from one on (11 R319): never 0, not in use, not in quarantine. -/
def freeNumber (s : State) : Nat → BitVec 16 → BitVec 16
  | 0, n => n
  | k + 1, n =>
    if n = 0 ∨ (s.eop.sessions.any fun x => decide (x.num = n)) = true ∨ n ∈ s.eop.quarantine then freeNumber s k (n + 1) else n

/-- The parts of a handshake (11 R318): label, partition, session number, two nonces. -/
def handshake (label : String) (p : Nat) (num : BitVec 16) (a b : List Byte) : List Byte :=
  ascii label ++ [BitVec.ofNat 8 p] ++ beBytes 2 num.toNat ++ a ++ b

/-- The status of a SESSION_OPEN (11 R315, R318, R335). -/
def openStatus (s : State) (r : EopReq) : Nat :=
  let p := leNat ((reqData r).take 1)
  if booting s then stNotReady else
  worst [when' (decide ((reqData r).length ≠ 17)) stType, when' (reservedSet r) stRange,
    when' (decide (p > 7) || !s.defined p || (decide (vget s.nv.keys p 0 = 0) && decide (p ≠ 0)) || flag s.eop.lockout p ||
      (decide (s.dev.devState = 2) && decide (p ≠ 0))) stDenied,
    when' (decide (s.eop.sessions.length ≥ 32) || decide ((s.eop.sessions.filter fun x => decide (x.part.val = p)).length ≥ 8))
      stNotReady]

/-- A pending session made: number, nonce, key (11 R318 order 2); its response. -/
def openSession (r : EopReq) (s : State) : State :=
  let p := leNat ((reqData r).take 1)
  let num := freeNumber s 65536 s.eop.nextNum
  let nh := (reqData r).drop 1
  let d := draw s
  let nd := beBytes 16 (Config.nonce d.1).toNat
  let kp := vget s.nv.keys p 0
  let proof := hmac kp (handshake "VZ4-DEV" p num nh nd)
  let x : Session := { Session.reset with
    num := num, unkeyed := decide (p = 0) && decide (kp = 0), part := Fin.ofNat 8 p, nonceH := nh, nonceD := nd,
    key := BitVec.ofNat 256 (beNat (hmac kp (handshake "VZ4-KEY" p num nh nd))) }
  let s := d.2.onEop fun e => { e with sessions := e.sessions ++ [x], nextNum := num + 1 }
  sendM (answer opOpen r num none stOk (nd ++ proof)) s

/-- SESSION_OPEN (11 R318): a pending session with a device nonce and proof. It carries SESSION 0; one that names a
session completes with OUT_OF_RANGE in that session (DESIGN CHOICE, log entry 70: the spec gives no status). -/
def execSessionOpen (req : EopReq) (s : State) : Host.Outcome State Fault Refusal :=
  match eopGate opOpen req s with
  | .drop s => .next s
  | .open' (some x) s =>
    let o := answer opOpen req x.num (some x.key) (if booting s then stNotReady else stRange) []
    .next (sendM o (onSession x.num (fun x => { x with lastSeq := req.seqNo, lastReq := reqBytes opOpen req, lastResp := some o }) s))
  | .open' none s =>
    let st := openStatus s req
    .next (if st = stOk then openSession req s else sendM (answer opOpen req 0 none st []) s)

/-- A failed proof counted (11 R318): 8 within 60 s close SESSION_OPEN on the partition for 60 s. -/
def countFailure (p : Nat) (s : State) : State :=
  let recent := (s.eop.fails.filter fun f => decide ((s.dev.interval - f.2).toNat < 60 * 156250000)) ++ [(p, s.dev.interval)]
  s.onEop fun e => { e with
    badProof := satInc e.badProof, fails := recent,
    lockout := if (recent.filter fun f => decide (f.1 = p)).length ≥ 8 then e.lockout ||| ((1 : BitVec 8) <<< p) else e.lockout }

/-- SESSION_PROVE (11 R318 orders 4 and 5): the host proof opens the pending session, or it is discarded. A proof with a
reserved bit set completes with OUT_OF_RANGE and leaves the session pending (00 R15). On a session that is open already
it completes with ACCESS_DENIED (DESIGN CHOICE, log entry 70: the spec gives no status). -/
def execSessionProve (req : EopReq) (s : State) : Host.Outcome State Fault Refusal :=
  match eopGate opProve req s with
  | .drop s => .next s
  | .open' none s => .next (sendM (answer opProve req 0 none (if booting s then stNotReady else stNoSession) []) s)
  | .open' (some x) s =>
    let p := x.part.val
    let h := hmac (vget s.nv.keys p 0) (handshake "VZ4-HOST" p x.num x.nonceD x.nonceH)
    if x.isOpen = false ∧ ¬ (tagHolds opProve req x = true ∧ reqData req = h) then
      .next (badTagAnswer opProve req (countFailure p (closeSession x.num s)))
    else
      let st := worst [when' (reservedSet req) stRange, when' x.isOpen stDenied]
      let o := answer opProve req x.num (some x.key) st []
      let s := onSession x.num (fun x => { x with lastSeq := req.seqNo, lastReq := reqBytes opProve req, lastResp := some o }) s
      .next (sendM o (if st = stOk then onSession x.num (fun x => { x with isOpen := true, host := req.src, answers := req.dip }) s else s))

/-- SESSION_CLOSE (11 R320): closes the session after its OK response. -/
def execSessionClose (req : EopReq) (s : State) : Host.Outcome State Fault Refusal :=
  .next (eopRun opClose req
    (fun x s => if booting s then (stNotReady, []) else match x with
      | none => (stNoSession, [])
      | some _ => (worst [when' (decide (req.len ≠ 0)) stType, when' (reservedSet req) stRange], []))
    (onOk fun x s => match x with | some y => closeSession y.num s | none => s) s)

/-- The status of a notice acknowledgement: it needs a session, LEN 0 and no reserved bit (11 R314, R326, R330; 00 R15). -/
def ackStatus (req : EopReq) (x : Option Session) (s : State) : Nat :=
  if booting s then stNotReady
  else match x with
    | none => stNoSession
    | some _ => worst [when' (decide (req.len ≠ 0)) stType, when' (reservedSet req) stRange]

/-- NOTIFY_ACK (11 R314, R330): a tagged acknowledgement stops the retransmission of its notice and has no response; one
that is refused is answered with the status (DEDUCED, log entry 70). -/
def execNotifyAck (req : EopReq) (s : State) : Host.Outcome State Fault Refusal :=
  if reaches s req = false ∨ req.rsp = false then .next s
  else if badFraming opNotify req then .next (s.onEop fun e => { e with discarded := satInc e.discarded })
  else if req.session = 0 then
    .next (if reqTag req = zeros 16 then sendM (answer opNotify req 0 none (ackStatus req none s) []) s
      else badTagAnswer opNotify req s)
  else match sessionOf s req.session with
    | none => .next (sendM (answer opNotify req req.session none stNoSession []) s)
    | some x =>
      if tagHolds opNotify req x = false then .next (badTagAnswer opNotify req s)
      else
        let st := ackStatus req (some x) s
        .next (if st = stOk then onSession x.num (fun x => { x with unacked := x.unacked.filter fun u => decide (u.1 ≠ req.seqNo) }) s
          else sendM (answer opNotify req x.num (some x.key) st []) s)

/-- SESSION_PROVE_TIMEOUT (11 R318): a pending session not proved within 1 s is discarded. -/
def execSessionProveTimeout (num : BitVec 16) (s : State) : Host.Outcome State Fault Refusal :=
  match sessionOf s num with
  | some x => .next (if x.isOpen then s else closeSession num s)
  | none => .next s

/-- SESSION_IDLE_TIMEOUT (11 R320): an open session without a valid request for the idle time closes. -/
def execSessionIdleTimeout (num : BitVec 16) (s : State) : Host.Outcome State Fault Refusal :=
  match sessionOf s num with
  | some x => .next (if x.isOpen then closeSession num s else s)
  | none => .next s

/-- PROOF_LOCKOUT_EXPIRY (11 R318): 60 s after the 8th failed proof. -/
def execProofLockoutExpiry (p : Fin 8) (s : State) : Host.Outcome State Fault Refusal :=
  .next (s.onEop fun e => { e with
    lockout := e.lockout &&& ~~~((1 : BitVec 8) <<< p.val), fails := e.fails.filter fun f => decide (f.1 ≠ p.val) })

/-- SESSION_NUMBER_QUARANTINE_END (11 R319): 60 s after a session closed its number may be reused. -/
def execSessionNumberQuarantineEnd (num : BitVec 16) (s : State) : Host.Outcome State Fault Refusal :=
  .next (s.onEop fun e => { e with quarantine := e.quarantine.filter fun n => decide (n ≠ num) })

/-- SNAPSHOT_TIMEOUT (11 R328): a snapshot is released after 10 s; number 0 is that of requests without a
session. -/
def execSnapshotTimeout (num : BitVec 16) (s : State) : Host.Outcome State Fault Refusal :=
  .next (if num = 0 then s.onEop fun e => { e with snap0 := none } else onSession num (fun x => { x with snap := none }) s)

/-- SEG_WRITE_TIMEOUT (11 R329): a segmented write of a session with no segment for 10 s is discarded. -/
def execSegWriteTimeout (num : BitVec 16) (s : State) : Host.Outcome State Fault Refusal :=
  .next (s.onEop fun e => { e with segs := e.segs.eraseIdx (e.segs.findIdx fun t => decide (t.session = num)) })

/-- NOTIFY_RETRANSMIT (11 R330): an unacknowledged notice is sent again, up to four more times. -/
def execNotifyRetransmit (num : BitVec 16) (seqNo : BitVec 32) (s : State) : Host.Outcome State Fault Refusal :=
  match sessionOf s num with
  | none => .next s
  | some x =>
    match x.unacked.find? fun u => decide (u.1 = seqNo) with
    | none => .next s
    | some u =>
      if u.2.1 = 0 then .next (onSession num (fun x => { x with unacked := x.unacked.filter fun v => decide (v.1 ≠ seqNo) }) s)
      else .next (sendM (noticeOf s.eop.cfg.udpPort x seqNo u.2.2) (onSession num (fun x => { x with
        unacked := x.unacked.map fun v => if v.1 = seqNo then (v.1, v.2.1 - 1, v.2.2) else v }) s))

/-- PORT_M_ADDRESS_CHANGE (11 R311): the settings of port M take effect 1 ms after the response to the write. -/
def execPortMAddressChange (s : State) : Host.Outcome State Fault Refusal :=
  .next (if portMOn s then s.onEop fun e => { e with cfg := s.nv.portM } else s)

end Sys2Proof.Machine
end

