-- ==== Sys2Proof/Machine/RingCommands.lean ====
section
/-! DEFINITION. The ring commands of the data mover: RSEND, RPOST, COLL, BARRIER (10 R300 to R306). -/

set_option Elab.async false

namespace Sys2Proof.Machine

/-- Fields of the ring parameter record (10 R300). -/
def rCop (r : Nat) : Nat := bits r 511 508
def rType (r : Nat) : Bool := bit r 507
def rClass (r : Nat) : Nat := bits r 506 505
def rDir (r : Nat) : Nat := bits r 504 504
def rStream (r : Nat) : Nat := bits r 503 496
def rPeerRing (r : Nat) : Nat := bits r 495 480
def rPeerPart (r : Nat) : Nat := bits r 479 477
def rGroup (r : Nat) : Nat := bits r 476 473
def rRoot (r : Nat) : Nat := bits r 472 461
def rStage (r : Nat) : Nat := bits r 447 408
def rReserved (r : Nat) : Bool := decide (bits r 460 448 ≠ 0) || decide (bits r 391 0 ≠ 0)
/-- The descriptor an RPOST record holds. -/
def rDesc (r : Nat) : BitVec 256 := BitVec.ofNat 256 (bits r 511 256)

/-- Two ranges of the partition stacks share a byte. -/
def rangesMeet (a n b m : Nat) : Bool := decide (0 < n) && decide (0 < m) && decide (a < b + m) && decide (b < a + n)

/-- A COLL that 10 R302 or R303 refuses; n members, me this member. -/
def collBad (s : State) (p c : Nat) (d : DmCmd) (n me : Nat) : Bool :=
  let r := d.prec
  let cop := rCop r
  let src := if cop = 4 ∧ me ≠ rRoot r then 0 else sourceLen cop d.len n
  let dst := if cop = 2 then d.len / n else d.len
  let stg := stageLen cop d.len n
  decide (cop = 0) || decide (cop > 4) || decide (rClass r = 0) || decide (d.sspace ≠ 0) || decide (d.dspace ≠ 0) ||
  decide (d.len % (if rType r then 4 else 2) ≠ 0) ||
  (decide (cop = 2 ∨ cop = 3) && (decide (d.len = 0) || decide (d.len % (4096 * n) ≠ 0))) ||
  (decide (cop = 4) && decide (rRoot r ≥ n)) ||
  rangeBad s p c 0 d.saddr src 32 || rangeBad s p c 0 d.daddr dst 32 || rangeBad s p c 0 (rStage r) stg 4096 ||
  inRegion s p (relPieces s p d.daddr dst ++ relPieces s p (rStage r) stg) ||
  rangesMeet d.saddr src d.daddr dst || rangesMeet d.saddr src (rStage r) stg || rangesMeet d.daddr dst (rStage r) stg

/-- The status a ring command is refused with before any effect, 0 if none (10 R300 to R303, 09 R264, R268). -/
def ringRefusal (s : State) (p c : Nat) (d : DmCmd) : Nat :=
  let r := d.prec
  let bad := match d.opc with
    | 8 => rReserved r || decide (rCop r ≠ 0) || decide (rClass r = 0) || decide (d.len = 0) ||
        !decide (d.sspace ∈ [0, 1, 3, 5]) || rangeBad s p c d.sspace d.saddr d.len 32
    | 9 => decide (bits r 255 0 ≠ 0) || decide (dOp (rDesc r) ≠ 1) || descBad s p true (rDesc r)
    | 10 => rReserved r || (match memberIndex s p (rGroup r) with
        | none => true
        | some me => collBad s p c d (membersOf s p (rGroup r)).length me)
    | _ => rReserved r || decide (rCop r ≠ 0) || (memberIndex s p (rGroup r)).isNone
  worst [wordNamed s p d, when' (decide (d.rsvd ≠ 0) || decide (d.sspace > 5) || decide (d.dspace > 5) || bad) stRange,
    when' (decide (s.dev.ringState ≠ 1) || s.dev.removing) stNotReady]

/-- A ring command taken from the head of the data mover's queue of a running partition; it takes one of the 16
places (07 R199) and is checked. -/
def takeRing (c opc : Nat) (run : Nat → QEntry → DmCmd → State → State) (s : State) : State :=
  match s.works c, eligible s c 4 with
  | some _, some (p, e) =>
    if (s.cell c).dm.length ≥ 16 ∨ fld e.word 255 252 ≠ opc ∨ waitsHeld s c e = true then s else
    let s := popQueue c 4 s
    let w := dmCmd e.word 0
    if w.prm + 64 > cellSize then refuseDm c e w (max stRange (wordNamed s p w)) s
    else
      match readPrm c w.prm s with
      | (none, s) => s
      | (some prm, s) =>
        let d := dmCmd e.word prm
        let st := ringRefusal s p c d
        if st ≠ 0 then refuseDm c e d st s else run p e d (addDm c { DmRun.reset with entry := e } s)
  | _, _ => s

/-- RSEND (10 R300): LEN bytes sent as one transfer; it completes when every frame is acknowledged. -/
def execRsend (c : Fin 34) (s : State) : Host.Outcome State Fault Refusal :=
  .next (takeRing c 8 (fun p e d s =>
    match readSpace p c d.sspace d.saddr d.len s with
    | (none, s) => s
    | (some bs, s) =>
      let r := d.prec
      startTx { TxXfer.reset with
        part := p, port := rDir r, cls := BitVec.ofNat 2 (rClass r), dstRing := BitVec.ofNat 16 (rPeerRing r),
        dstPart := BitVec.ofNat 3 (rPeerPart r), stream := BitVec.ofNat 8 (rStream r),
        srcs := devRanges s p c d.sspace d.saddr d.len, len := d.len, origin := .cmd c e.seqNo,
        hash := contentHash bs } s) s)

/-- The descriptor an RPOST posts (08 R232): a destination in the range of a redirected channel of its logical cell
stands in the channel's image in the stacks. -/
def redirected (s : State) (p : Nat) (lcell : Option Nat) (d : BitVec 256) : BitVec 256 :=
  let hit := fun (x : ChanDecl) =>
    decide (some x.cons = lcell) && x.image.isSome && decide (x.dstOff ≤ dAddr d) && decide (dAddr d < x.dstOff + x.dstLen)
  match dSpace d, ((s.part p).mod.bind fun (m : Module) => m.chans.find? hit) with
  | 1, some x => setFld (setFld d 220 219 0) 215 176 (x.image.getD 0 + (dAddr d - x.dstOff))
  | _, _ => d

/-- RPOST (10 R300): a receive descriptor posted once fewer than 64 of its cell's are outstanding. -/
def execRpost (c : Fin 34) (s : State) : Host.Outcome State Fault Refusal :=
  .next (takeRing c 9 (fun p e d s =>
    let desc := leBytes 32 (redirected s p e.lcell (rDesc d.prec)).toNat
    let s := s.onCell c fun x => { x with dm := x.dm.map fun r =>
      if r.entry.seqNo = e.seqNo then { r with pieces := [(0, desc)] } else r }
    matchStreams p (postNext c s)) s)

/-- The record of a collective or barrier at its member. -/
def ringWork (c : Nat) (e : QEntry) (d : DmCmd) : Coll :=
  let r := d.prec
  { Coll.reset with
    group := rGroup r, cell := c, seqNo := e.seqNo, cop := BitVec.ofNat 4 (rCop r), rtype := rType r,
    cls := BitVec.ofNat 2 (rClass r), len := d.len, src := d.saddr, dst := d.daddr, stage := rStage r, root := rRoot r }

/-- COLL (10 R300, R304): a collective over a group in the fixed order. -/
def execColl (c : Fin 34) (s : State) : Host.Outcome State Fault Refusal :=
  .next (takeRing c 10 (fun p e d s => issueColl p (ringWork c e d) s) s)

/-- BARRIER (10 R300): completes at every member once every member has issued it. -/
def execBarrier (c : Fin 34) (s : State) : Host.Outcome State Fault Refusal :=
  .next (takeRing c 11 (fun p e d s => issueBarrier p (ringWork c e d) s) s)

end Sys2Proof.Machine
end

