-- ==== Sys2Proof/Machine/Stacks.lean ====
section
/-! DEFINITION. The memory stacks on their own: scrubbing, refresh windows, retraining, flip-masks and logs (09 R245,
R249, R255 to R261). -/

set_option Elab.async false

namespace Sys2Proof.Machine

/-- A stack that works: the device is ready and the stack is in service. -/
def stackWorks (s : State) (st : Nat) : Bool := decide (s.dev.devState = 1) && flag s.dev.inService st

/-- Words read by a scrubber, while the device is up (09 R247, R255). -/
def scrubWords (l : List Nat) (s : State) : State :=
  forEach l (fun w s => if s.dev.devState = 1 then (checkWord true w s).2 else s) s

/-- A granule of 256 bytes scrubbed at a device address; one whose channel is held, or under a channel test, is skipped
(09 R255, R256; 15 R395). -/
def scrubGranule (st a : Nat) (d : DramPos) (s : State) : State :=
  if (vget (s.stack st).chans d.chan Chan.reset).phase = .held ∨ s.test.chan = some (st, d.chan) then s else scrubWords (errWords s a 256) s

/-- The next granule of a stack's data, unless its rate is 0 (09 R255). -/
def scrubData (st : Nat) (s : State) : State :=
  let t := s.stack st
  if t.rate = 0 then s else
  let x := 256 * t.scrubPos
  let s := s.onStack st fun t => { t with scrubPos := (t.scrubPos + 1) % 2 ^ 25 }
  scrubGranule st (stackBase st + x) (dramPos st x false) s

/-- The next granule of the steward region of stacks 00 and 16, whatever the rate (09 R255). -/
def scrubSteward (st : Nat) (s : State) : State :=
  if st % 16 ≠ 0 then s else
  let x := 256 * (s.stack st).stewPos
  let s := s.onStack st fun t => { t with stewPos := (t.stewPos + 1) % 2 ^ 19 }
  scrubGranule st (stewardBase + st / 16 * 0x8000000 + x) (dramPos st x true) s

/-- SCRUB_GRANULE (09 R255). -/
def execScrubGranule (st : Fin 32) (s : State) : Host.Outcome State Fault Refusal :=
  .next (if stackWorks s st then scrubSteward st (scrubData st s) else s)

/-- CELL_STORE_SCRUB (09 R245): the next word of a cell store. -/
def execCellStoreScrub (c : Fin 34) (s : State) : Host.Outcome State Fault Refusal :=
  .next (if s.dev.devState = 1 ∧ flag s.fuse.enabled c = true then
    let w := cellBase c / 32 + (s.cell c).scrubPos
    let s := s.onCell c fun x => { x with scrubPos := (x.scrubPos + 1) % (cellSize / 32) }
    scrubWords (errWords s (32 * w) 32) s
   else s)

/-- One channel changed. -/
def onChan (st ch : Nat) (f : Chan → Chan) (s : State) : State :=
  s.onStack st fun t => { t with chans := vmod t.chans ch f }

/-- REFRESH_WINDOW (09 R257, R258): a requested retrain begins, unless the channel is locked out; refreshes of a held
channel are postponed. -/
def execRefreshWindow (st : Fin 32) (ch : Fin 16) (s : State) : Host.Outcome State Fault Refusal :=
  .next (if stackWorks s st then onChan st ch (fun c => match c.phase with
      | .idle => c
      | .requested => if c.lockout then c else { c with phase := .held }
      | .held => { c with postponed := min 8 (c.postponed + 1) }) s
   else s)

/-- RETRAIN_REQUEST (09 R258 order 1). -/
def execRetrainRequest (st : Fin 32) (ch : Fin 16) (s : State) : Host.Outcome State Fault Refusal :=
  .next (if stackWorks s st then
    onChan st ch (fun c => if c.phase = .idle then { c with phase := .requested } else c) s else s)

/-- A channel in the hold of a retrain. -/
def chanHeld (s : State) (st ch : Nat) : Bool :=
  stackWorks s st && decide ((vget (s.stack st).chans ch Chan.reset).phase = .held)

/-- RETRAIN_END (09 R258 orders 6 and 7): a new calibration in force, held accesses and postponed refreshes released. -/
def execRetrainEnd (st : Fin 32) (ch : Fin 16) (s : State) : Host.Outcome State Fault Refusal :=
  .next (if chanHeld s st ch then
    (onChan st ch (fun c => { c with phase := .idle, postponed := 0, cal := c.cal + 1 }) s).onStack st
      fun t => { t with retrains := satInc t.retrains }
   else s)

/-- RETRAIN_TIMEOUT (09 R259): the previous calibration stays, the channel is locked out for 1 s, and the timeout is
recorded for the stack, its owner and the fault history. -/
def execRetrainTimeout (st : Fin 32) (ch : Fin 16) (s : State) : Host.Outcome State Fault Refusal :=
  if chanHeld s st ch = false then .next s else
  let s := onChan st ch (fun c => { c with phase := .idle, postponed := 0, lockout := true }) s
  let s := s.onStack st fun t => { t with timeouts := satInc t.timeouts }
  let owner := s.stackOwner st
  let s := match owner with
    | some p => s.onPart p fun q => { q with
        rtCount := satInc q.rtCount, rtLast := BitVec.ofNat 16 (st.val * 256 + ch.val) }
    | none => s
  .next (recordEvent 0x12 2 (st.val * 16 + ch.val) stRetrain (owner.getD 15) 0 s)

/-- RETRAIN_LOCKOUT_EXPIRY (09 R259). -/
def execRetrainLockoutExpiry (st : Fin 32) (ch : Fin 16) (s : State) : Host.Outcome State Fault Refusal :=
  .next (onChan st ch (fun c => { c with lockout := false }) s)

/-- A flip-mask that may not be written (09 R261): reserved bits, or an armed address that is unaligned or not in
the stack. -/
def flipBad (s : State) (st v : Nat) : Bool :=
  decide (bits v 383 353 ≠ 0) ||
  (bit v 352 && (decide (bits v 63 0 % 32 ≠ 0) || decide (s.relAddr st (bits v 63 0 % 2 ^ 33) ≠ bits v 63 0)))

/-- FLIP_MASK_WRITE (09 R261): all 48 bytes replaced, armed or disarmed. -/
def execFlipMaskWrite (req : EopReq) (s : State) : Host.Outcome State Fault Refusal :=
  .next (eopWrite (wholeIndex 0x4050) req (fun s _ v => when' (flipBad s (req.sub.toNat - 1) v) stRange)
    (fun _ v _ s => s.onStack (req.sub.toNat - 1) fun t => { t with flip := BitVec.ofNat 384 v }) s)

/-- LOG_CLEAR (09 R249, R250): 1 clears a stack's log and its overflow counter. -/
def execLogClear (req : EopReq) (s : State) : Host.Outcome State Fault Refusal :=
  .next (eopWrite (wholeIndex 0x4012) req (fun _ _ v => when' (decide (v ≠ 1)) stRange)
    (fun _ _ _ s => s.onStack (req.sub.toNat - 1) fun t => { t with log := [], overflow := 0 }) s)

end Sys2Proof.Machine
end

