-- ==== Sys2Proof/Machine/Streams.lean ====
section
/-! DEFINITION. Streams: the DATA, SACK, DESC and DONE frames, the acknowledgement timers, and the descriptors of
the paced engines (10 R296 to R299, 07 R203, R204). -/

set_option Elab.async false

namespace Sys2Proof.Machine

/-- DATA (10 R299): a stream frame is dropped, forwarded, or consumed under credit and landed at its matched
descriptor. -/
def execData (port : RingPort) (f : VrtFrame) (s : State) : Host.Outcome State Fault Refusal :=
  .next (onFrame (portNum port) 0 f (fun f s => consume (portNum port) f (takeData (portNum port) f) s) s)

/-- SACK (10 R296): an acknowledgement retires frames and brings the missing ones again. -/
def execSack (port : RingPort) (f : VrtFrame) (s : State) : Host.Outcome State Fault Refusal :=
  .next (onFrame (portNum port) 3 f (fun f s => consume (portNum port) f (fun s =>
    if flag f.aux 31 then takeSegSack f s else
    match s.ring.tx.find? fun t => decide (t.xid = f.xid ∧ t.dstRing = f.srcRing ∧ t.part = f.dstPart.toNat) &&
        (match t.origin with | .seg _ _ _ _ => false | _ => true) with
    | some t => takeSack f t s
    | none => s) s) s)

/-- SACK_TIMER (10 R296): at least every 10 µs the receiver of a transfer acknowledges what it holds. -/
def execSackTimer (xfer : Nat) (s : State) : Host.Outcome State Fault Refusal :=
  match s.ring.rx[xfer]? with
  | some x => .next (if x.unacked > 0 then sendSack x s else s)
  | none => .next s

/-- PATH_TIMEOUT (10 R296): the first frame of a transfer that no SACK has covered is sent again, or declared lost
once it has been sent 8 times and 100 ms have passed (`lapsed`); a lost frame fails the transfer. -/
def execPathTimeout (xid : BitVec 32) (lapsed : Bool) (s : State) : Host.Outcome State Fault Refusal :=
  match txOf s xid with
  | none => .next s
  | some t =>
    match t.acked.findIdx? (fun a => !a) with
    | none => .next s
    | some i =>
      if lapsed ∧ (t.sends[i]?).getD 0 ≥ 8 then .next (finishTx t stHop s) else .next (sendTx xid true i s)

/-- The engine a DESC frame names by STREAM (10 R298): stream engine 0 or 1, or the host-ingress path (2). -/
def descEngine (stream : BitVec 8) : Option Nat :=
  if stream = 0xFE then some 0 else if stream = 0xFF then some 1 else if stream = 0xFD then some 2 else none

/-- Slots of a paced queue (07 R203). -/
def pacedDepth (engine : Nat) : Nat := if engine = 2 then 256 else 1024

/-- The tag and sequence of a DESC frame hold (10 R298): the session AUX names, of the same partition. -/
def descSession (f : VrtFrame) (s : State) : Option Session :=
  match s.eop.sessions.find? fun x => x.isOpen && decide (x.num.toNat = f.aux.toNat ∧ x.part.val = f.dstPart.toNat) with
  | none => none
  | some x =>
    let body := f.payload.take 32
    let tag := (f.payload.drop 32).take 16
    let fresh := match x.descSeq with
      | some n => decide (n < f.eseq)
      | none => true
    if f.payload.length = 48 ∧ fresh = true ∧ tag = (hmac x.key (vrtHead28 f ++ body)).take 16 then some x else none

/-- DESC (10 R298): a host's descriptor, tag and sequence checked, queued at its paced engine; a full queue
discards it (07 R204), a removal refuses it (R308). -/
def execDesc (port : RingPort) (f : VrtFrame) (s : State) : Host.Outcome State Fault Refusal :=
  .next (onFrame (portNum port) 7 f (fun f s => consume (portNum port) f (fun s =>
    let p := f.dstPart.toNat
    let s := doneWith (portNum port) f s
    match descSession f s, descEngine f.stream with
    | none, _ => s.onPart p fun q => { q with badDesc := satInc q.badDesc }
    | some _, none => s
    | some x, some e =>
      let s := s.onEop fun o => { o with sessions := o.sessions.map fun y =>
        if y.num = x.num then { y with descSeq := some f.eseq } else y }
      let d : BitVec 256 := BitVec.ofNat 256 (leNat (f.payload.take 32))
      let q := vget (s.part p).paced e []
      if q.length ≥ pacedDepth e then creditViolation p s
      else if s.dev.removing then sendFrame (portNum port) (doneFrame s p d stNotReady 0) s
      else if (if e = 2 then decide (dOp d = 3) else decide (dOp d = 1 ∨ dOp d = 2)) = false then
        sendFrame (portNum port) (doneFrame s p d stRange 0) s
      else s.onPart p fun y => { y with paced := vmod y.paced e (· ++ [⟨d, x.num, (portNum port), false⟩]) }) s) s)

/-- DONE (10 R299): the report of a descriptor's retirement is consumed; this device submits none. -/
def execDone (port : RingPort) (f : VrtFrame) (s : State) : Host.Outcome State Fault Refusal :=
  .next (onFrame (portNum port) 8 f (fun f s => consume (portNum port) f (doneWith (portNum port) f) s) s)

/-- The next descriptor of a paced queue to start, of the given operation; a stopped partition's descriptors
run on (13 R361). -/
def nextDesc (s : State) (p engine op : Nat) : Option PacedDesc :=
  if (s.part p).st = 1 ∨ (s.part p).st = 2 then
    match (vget (s.part p).paced engine []).find? fun x => !x.taken with
    | some x => if dOp x.desc = op then some x else none
    | none => none
  else none

/-- The first waiting descriptor of a queue marked as started. -/
def markTaken (l : List PacedDesc) : List PacedDesc :=
  match l with
  | [] => []
  | x :: r => if x.taken then x :: markTaken r else { x with taken := true } :: r

/-- A descriptor started: refused if its fields are bad, else run (10 R297, R299). -/
def startDesc (p engine op : Nat) (run : PacedDesc → State → State) (s : State) : State :=
  match nextDesc s p engine op with
  | none => s
  | some x =>
    let s := s.onPart p fun q => { q with paced := vmod q.paced engine markTaken }
    if descBad s p false x.desc then retireDesc p engine x.port x.desc stRange 0 s else run x s

/-- RECV (10 R299): a stream descriptor posts a destination. -/
def execRecv (eng : Fin 2) (p : Fin 8) (s : State) : Host.Outcome State Fault Refusal :=
  .next (startDesc p eng 1 (fun x =>
    postRecv p { RecvPost.reset with desc := x.desc, host := some x.session, engine := eng, port := x.port }) s)

/-- SEND (10 R299): LEN bytes at ADDR sent as one transfer. -/
def execSend (eng : Fin 2) (p : Fin 8) (s : State) : Host.Outcome State Fault Refusal :=
  .next (startDesc p eng 2 (fun x s =>
    match relRead p (dAddr x.desc) (dLen x.desc) s with
    | (none, s) => s
    | (some bs, s) =>
      startTx { TxXfer.reset with
        part := p, port := dDir x.desc, cls := BitVec.ofNat 2 (dClass x.desc), dstRing := BitVec.ofNat 16 (dRing x.desc),
        dstPart := BitVec.ofNat 3 (dPart x.desc), stream := BitVec.ofNat 8 (dStream x.desc),
        srcs := relPieces s p (dAddr x.desc) (dLen x.desc), len := dLen x.desc,
        origin := .desc eng x.desc x.port, hash := contentHash bs } s) s)

/-- PUT (10 R299): the host-ingress path accepts one transfer of the host. -/
def execPut (p : Fin 8) (s : State) : Host.Outcome State Fault Refusal :=
  .next (startDesc p 2 3 (fun x =>
    postRecv p { RecvPost.reset with desc := x.desc, host := some x.session, put := true, engine := 2, port := x.port }) s)

end Sys2Proof.Machine
end

