-- ==== Sys2Proof/Machine/Dispatch.lean ====
section
/-! DEFINITION. The dispatch: one arm per command, each a call of its meaning. -/

namespace Sys2Proof.Machine

def exec (i : Instr) (s : State) : Host.Outcome State Fault Refusal :=
  match i with
  | .porstNAssert => Sys2Proof.Machine.execPorstNAssert s
  | .porstNRelease => Sys2Proof.Machine.execPorstNRelease s
  | .bootStart o => Sys2Proof.Machine.execBootStart o s
  | .deviceReady => Sys2Proof.Machine.execDeviceReady s
  | .bootTimeout order => Sys2Proof.Machine.execBootTimeout order s
  | .readyHourExpiry => Sys2Proof.Machine.execReadyHourExpiry s
  | .railWindowExcursion r => Sys2Proof.Machine.execRailWindowExcursion r s
  | .railRecovered r => Sys2Proof.Machine.execRailRecovered r s
  | .powerLoss => Sys2Proof.Machine.execPowerLoss s
  | .refclkLoss => Sys2Proof.Machine.execRefclkLoss s
  | .refclkRestored => Sys2Proof.Machine.execRefclkRestored s
  | .thermalTrip => Sys2Proof.Machine.execThermalTrip s
  | .bypassCheckTimeout e w => Sys2Proof.Machine.execBypassCheckTimeout e w s
  | .ageingGuardStep c => Sys2Proof.Machine.execAgeingGuardStep c s
  | .jtagBypass tap => Sys2Proof.Machine.execJtagBypass tap s
  | .jtagIdcode tap => Sys2Proof.Machine.execJtagIdcode tap s
  | .jtagSamplePreload tap => Sys2Proof.Machine.execJtagSamplePreload tap s
  | .jtagExtest tap => Sys2Proof.Machine.execJtagExtest tap s
  | .slotBegin c held late upset => Sys2Proof.Machine.execSlotBegin c held late upset s
  | .mmul c => Sys2Proof.Machine.execMmul c s
  | .hpreload c => Sys2Proof.Machine.execHpreload c s
  | .vkern c => Sys2Proof.Machine.execVkern c s
  | .veJoinRow c => Sys2Proof.Machine.execVeJoinRow c s
  | .quant c => Sys2Proof.Machine.execQuant c s
  | .update c => Sys2Proof.Machine.execUpdate c s
  | .requant c => Sys2Proof.Machine.execRequant c s
  | .rbits c => Sys2Proof.Machine.execRbits c s
  | .copy c fails => Sys2Proof.Machine.execCopy c fails s
  | .gather c fails => Sys2Proof.Machine.execGather c fails s
  | .scatter c fails => Sys2Proof.Machine.execScatter c fails s
  | .dmAdd c fails => Sys2Proof.Machine.execDmAdd c fails s
  | .orderedAddApply c seqNo fails => Sys2Proof.Machine.execOrderedAddApply c seqNo fails s
  | .mxImport c fails => Sys2Proof.Machine.execMxImport c fails s
  | .mxExport c fails => Sys2Proof.Machine.execMxExport c fails s
  | .fill c fails => Sys2Proof.Machine.execFill c fails s
  | .rsend c => Sys2Proof.Machine.execRsend c s
  | .rpost c => Sys2Proof.Machine.execRpost c s
  | .coll c => Sys2Proof.Machine.execColl c s
  | .barrier c => Sys2Proof.Machine.execBarrier c s
  | .commandCompletion c q seqNo => Sys2Proof.Machine.execCommandCompletion c q seqNo s
  | .squashResume c => Sys2Proof.Machine.execSquashResume c s
  | .dupCompare c upset => Sys2Proof.Machine.execDupCompare c upset s
  | .add c => Sys2Proof.Machine.execAdd c s
  | .sub c => Sys2Proof.Machine.execSub c s
  | .and c => Sys2Proof.Machine.execAnd c s
  | .or c => Sys2Proof.Machine.execOr c s
  | .xor c => Sys2Proof.Machine.execXor c s
  | .sll c => Sys2Proof.Machine.execSll c s
  | .srl c => Sys2Proof.Machine.execSrl c s
  | .sra c => Sys2Proof.Machine.execSra c s
  | .mul c => Sys2Proof.Machine.execMul c s
  | .sltu c => Sys2Proof.Machine.execSltu c s
  | .slt c => Sys2Proof.Machine.execSlt c s
  | .minu c => Sys2Proof.Machine.execMinu c s
  | .maxu c => Sys2Proof.Machine.execMaxu c s
  | .addi c => Sys2Proof.Machine.execAddi c s
  | .andi c => Sys2Proof.Machine.execAndi c s
  | .ori c => Sys2Proof.Machine.execOri c s
  | .xori c => Sys2Proof.Machine.execXori c s
  | .slli c => Sys2Proof.Machine.execSlli c s
  | .srli c => Sys2Proof.Machine.execSrli c s
  | .srai c => Sys2Proof.Machine.execSrai c s
  | .movk c => Sys2Proof.Machine.execMovk c s
  | .prd c => Sys2Proof.Machine.execPrd c s
  | .beq c => Sys2Proof.Machine.execBeq c s
  | .bne c => Sys2Proof.Machine.execBne c s
  | .bltu c => Sys2Proof.Machine.execBltu c s
  | .bgeu c => Sys2Proof.Machine.execBgeu c s
  | .blt c => Sys2Proof.Machine.execBlt c s
  | .bge c => Sys2Proof.Machine.execBge c s
  | .jal c => Sys2Proof.Machine.execJal c s
  | .jr c => Sys2Proof.Machine.execJr c s
  | .halt c => Sys2Proof.Machine.execHalt c s
  | .cldt c => Sys2Proof.Machine.execCldt c s
  | .cins c => Sys2Proof.Machine.execCins c s
  | .push c => Sys2Proof.Machine.execPush c s
  | .gate c => Sys2Proof.Machine.execGate c s
  | .chkp c => Sys2Proof.Machine.execChkp c s
  | .mark c => Sys2Proof.Machine.execMark c s
  | .illegalInstruction c => Sys2Proof.Machine.execIllegalInstruction c s
  | .partitionCommitPoint p => Sys2Proof.Machine.execPartitionCommitPoint p s
  | .contextSave p => Sys2Proof.Machine.execContextSave p s
  | .replayStart req => Sys2Proof.Machine.execReplayStart req s
  | .replayEnd p => Sys2Proof.Machine.execReplayEnd p s
  | .moduleLoad req => Sys2Proof.Machine.execModuleLoad req s
  | .moduleLoadEnd p => Sys2Proof.Machine.execModuleLoadEnd p s
  | .restore req => Sys2Proof.Machine.execRestore req s
  | .restoreEnd p => Sys2Proof.Machine.execRestoreEnd p s
  | .stepReplay req => Sys2Proof.Machine.execStepReplay req s
  | .seedWrite req => Sys2Proof.Machine.execSeedWrite req s
  | .scrubGranule st => Sys2Proof.Machine.execScrubGranule st s
  | .cellStoreScrub c => Sys2Proof.Machine.execCellStoreScrub c s
  | .refreshWindow st ch => Sys2Proof.Machine.execRefreshWindow st ch s
  | .retrainRequest st ch => Sys2Proof.Machine.execRetrainRequest st ch s
  | .retrainEnd st ch => Sys2Proof.Machine.execRetrainEnd st ch s
  | .retrainTimeout st ch => Sys2Proof.Machine.execRetrainTimeout st ch s
  | .retrainLockoutExpiry st ch => Sys2Proof.Machine.execRetrainLockoutExpiry st ch s
  | .flipMaskWrite req => Sys2Proof.Machine.execFlipMaskWrite req s
  | .logClear req => Sys2Proof.Machine.execLogClear req s
  | .laneFailure port lane => Sys2Proof.Machine.execLaneFailure port lane s
  | .portTrainingEnd port lanes => Sys2Proof.Machine.execPortTrainingEnd port lanes s
  | .portRestartRetry port => Sys2Proof.Machine.execPortRestartRetry port s
  | .portRestart req => Sys2Proof.Machine.execPortRestart req s
  | .insert req => Sys2Proof.Machine.execInsert req s
  | .remove req => Sys2Proof.Machine.execRemove req s
  | .removeComplete => Sys2Proof.Machine.execRemoveComplete s
  | .groupListWrite req => Sys2Proof.Machine.execGroupListWrite req s
  | .data port f => Sys2Proof.Machine.execData port f s
  | .credit port f => Sys2Proof.Machine.execCredit port f s
  | .lack port f => Sys2Proof.Machine.execLack port f s
  | .sack port f => Sys2Proof.Machine.execSack port f s
  | .cseg port f => Sys2Proof.Machine.execCseg port f s
  | .cctlReady port f => Sys2Proof.Machine.execCctlReady port f s
  | .cctlAbortReq port f => Sys2Proof.Machine.execCctlAbortReq port f s
  | .cctlCommit port f => Sys2Proof.Machine.execCctlCommit port f s
  | .cctlAbort port f => Sys2Proof.Machine.execCctlAbort port f s
  | .collectiveTimeout p w => Sys2Proof.Machine.execCollectiveTimeout p w s
  | .probe port f => Sys2Proof.Machine.execProbe port f s
  | .probeReply port f => Sys2Proof.Machine.execProbeReply port f s
  | .leave port f => Sys2Proof.Machine.execLeave port f s
  | .probeTimer port => Sys2Proof.Machine.execProbeTimer port s
  | .hopTimeout port => Sys2Proof.Machine.execHopTimeout port s
  | .lackTimer port => Sys2Proof.Machine.execLackTimer port s
  | .lackTimeout port => Sys2Proof.Machine.execLackTimeout port s
  | .creditTimer port => Sys2Proof.Machine.execCreditTimer port s
  | .sackTimer xfer => Sys2Proof.Machine.execSackTimer xfer s
  | .pathTimeout xid lapsed => Sys2Proof.Machine.execPathTimeout xid lapsed s
  | .pfcFrame port enable pause => Sys2Proof.Machine.execPfcFrame port enable pause s
  | .desc port f => Sys2Proof.Machine.execDesc port f s
  | .done port f => Sys2Proof.Machine.execDone port f s
  | .barrierFrame port f => Sys2Proof.Machine.execBarrierFrame port f s
  | .recv eng p => Sys2Proof.Machine.execRecv eng p s
  | .send eng p => Sys2Proof.Machine.execSend eng p s
  | .put p => Sys2Proof.Machine.execPut p s
  | .cuppingDigest port f => Sys2Proof.Machine.execCuppingDigest port f s
  | .cuppingEnd port f => Sys2Proof.Machine.execCuppingEnd port f s
  | .cuppingResend p => Sys2Proof.Machine.execCuppingResend p s
  | .cuppingPeerTimeout p => Sys2Proof.Machine.execCuppingPeerTimeout p s
  | .cuppingConfigWrite req => Sys2Proof.Machine.execCuppingConfigWrite req s
  | .read req => Sys2Proof.Machine.execRead req s
  | .write req => Sys2Proof.Machine.execWrite req s
  | .segRead req => Sys2Proof.Machine.execSegRead req s
  | .segWrite req => Sys2Proof.Machine.execSegWrite req s
  | .sessionOpen req => Sys2Proof.Machine.execSessionOpen req s
  | .sessionProve req => Sys2Proof.Machine.execSessionProve req s
  | .sessionClose req => Sys2Proof.Machine.execSessionClose req s
  | .notifyAck req => Sys2Proof.Machine.execNotifyAck req s
  | .attest req => Sys2Proof.Machine.execAttest req s
  | .attestSignEnd => Sys2Proof.Machine.execAttestSignEnd s
  | .sessionProveTimeout num => Sys2Proof.Machine.execSessionProveTimeout num s
  | .sessionIdleTimeout num => Sys2Proof.Machine.execSessionIdleTimeout num s
  | .proofLockoutExpiry p => Sys2Proof.Machine.execProofLockoutExpiry p s
  | .sessionNumberQuarantineEnd num => Sys2Proof.Machine.execSessionNumberQuarantineEnd num s
  | .snapshotTimeout num => Sys2Proof.Machine.execSnapshotTimeout num s
  | .segWriteTimeout num => Sys2Proof.Machine.execSegWriteTimeout num s
  | .notifyRetransmit num seqNo => Sys2Proof.Machine.execNotifyRetransmit num seqNo s
  | .portMAddressChange => Sys2Proof.Machine.execPortMAddressChange s
  | .keyWrite req => Sys2Proof.Machine.execKeyWrite req s
  | .partitionDefinitionWrite req => Sys2Proof.Machine.execPartitionDefinitionWrite req s
  | .partitionReset cause => Sys2Proof.Machine.execPartitionReset cause s
  | .partitionResetEnd p => Sys2Proof.Machine.execPartitionResetEnd p s
  | .counterClear req => Sys2Proof.Machine.execCounterClear req s
  | .firmwareVerifyEnd slot => Sys2Proof.Machine.execFirmwareVerifyEnd slot s
  | .cellProof req => Sys2Proof.Machine.execCellProof req s
  | .cellProofEnd failed => Sys2Proof.Machine.execCellProofEnd failed s
  | .channelTest req => Sys2Proof.Machine.execChannelTest req s
  | .channelTestEnd bad => Sys2Proof.Machine.execChannelTestEnd bad s
  | .capWrite req => Sys2Proof.Machine.execCapWrite req s
  | .capStep pl pm pf pc => Sys2Proof.Machine.execCapStep pl pm pf pc s
  | .droopTrip d det => Sys2Proof.Machine.execDroopTrip d det s
  | .droopClampRelease d => Sys2Proof.Machine.execDroopClampRelease d s
  | .vrAlertAssert => Sys2Proof.Machine.execVrAlertAssert s
  | .vrAlertRelease => Sys2Proof.Machine.execVrAlertRelease s
  | .pmbusTransactionEnd ack rd => Sys2Proof.Machine.execPmbusTransactionEnd ack rd s
  | .pmbusRetry d => Sys2Proof.Machine.execPmbusRetry d s
  | .voltageStepEnd d => Sys2Proof.Machine.execVoltageStepEnd d s
  | .powerUp => Sys2Proof.Machine.execPowerUp s
  | .bypassPositionSensed e w => Sys2Proof.Machine.execBypassPositionSensed e w s
  | .contextSaveRequest req => Sys2Proof.Machine.execContextSaveRequest req s
  | .contextSaveEnd p => Sys2Proof.Machine.execContextSaveEnd p s
  | .stepReplayHashEnd p => Sys2Proof.Machine.execStepReplayHashEnd p s

end Sys2Proof.Machine
end

