-- ==== Sys2Proof/Safety.lean ====
section
/-! DEFINITION. What the claims call a safe state and a safe step, and the words they say a frame in. -/

set_option Elab.async false

namespace Sys2Proof.Machine

/-- What holds of every state a command can leave: the memory is in its canonical form. -/
def State.wf (s : State) : Bool := s.mem.wf

/-- A step that ends neither in a fault nor in a refusal. -/
def stepSafe (s : State) : Bool :=
  match step s with
  | .next _ => true
  | .fault _ => false
  | .refused _ => false

/-- The fields of the state. -/
inductive StateField where
  | pending | fuse | nv | dev | mem | cells | parts | drams | ports | ring | eop | test | att | power | jtag | out | free
  deriving DecidableEq, Repr

/-- Two states agree in a field. -/
def StateField.same (s t : State) : StateField → Prop
  | .pending => t.pending = s.pending
  | .fuse => t.fuse = s.fuse
  | .nv => t.nv = s.nv
  | .dev => t.dev = s.dev
  | .mem => t.mem = s.mem
  | .cells => t.cells = s.cells
  | .parts => t.parts = s.parts
  | .drams => t.drams = s.drams
  | .ports => t.ports = s.ports
  | .ring => t.ring = s.ring
  | .eop => t.eop = s.eop
  | .test => t.test = s.test
  | .att => t.att = s.att
  | .power => t.power = s.power
  | .jtag => t.jtag = s.jtag
  | .out => t.out = s.out
  | .free => t.free = s.free

/-- From s to t only the listed fields may differ: the frame of a command. -/
def Only (l : List StateField) (s t : State) : Prop := ∀ f, f ∉ l → StateField.same s t f

end Sys2Proof.Machine
end

