-- ==== Sys2Proof/Certificates/Slice0/Obligations.lean ====
section
/-! DEFINITION. The statements for the provers, and the words they are written in. -/

set_option Elab.async false

open Sys2Proof Sys2Proof.Machine

namespace Sys2Proof.Claims

/-- The type number of the event that a command wrote first: bits [126:120] of the record at the ring's next
place (15 R389). -/
def eventWritten (etype : Nat) (s t : State) : Prop :=
  fld (mapGet 0 t.nv.events (s.nv.fhNext.toNat % 4096)) 126 120 = etype

/-- The keys after a device reset: an accepted deletion of a partition takes effect and its key is zero, every other key
is as it was (13 R355). -/
def KeysSettled (s t : State) : Prop :=
  ∀ p, vget t.nv.keys p 0 = if p ≠ 0 ∧ p < 8 ∧ (s.part p).nextDef = some 0 then 0 else vget s.nv.keys p 0

/-- What a device reset leaves of a state (01 R33, 13 R355, R365): the fuses, the queue and the NV die's keys, slots, boot
count and identity records as they were; every part of the machine below at its reset value; no session; the by-pass
commanded closed; the cell stores and the link-die buffers reading zero, all below them as it was. -/
def ResetFrom (s t : State) : Prop :=
  t.fuse = s.fuse ∧ t.pending = s.pending ∧
  KeysSettled s t ∧ t.nv.slots = s.nv.slots ∧ t.nv.bootCount = s.nv.bootCount ∧ t.nv.idRing = s.nv.idRing ∧
  t.dev.devState = 0 ∧ t.dev.resetPending = true ∧ t.dev.bootOrder = 0 ∧ t.dev.bypCmd = false ∧ t.dev.hourArmed = false ∧
  t.cells = Vector.replicate 34 Cell.reset ∧ t.parts = State.reset.parts ∧ t.drams = State.reset.drams ∧
  t.ports = State.reset.ports ∧ t.ring = Ring.reset ∧ t.eop.sessions = [] ∧ t.test = Test.reset ∧ t.att = Att.reset ∧
  t.power = Power.reset ∧
  (∀ a, 0x8000000000 ≤ a → t.mem.read1 a = 0) ∧ (∀ a, a < 0x8000000000 → t.mem.read1 a = s.mem.read1 a)

end Sys2Proof.Claims

open Sys2Proof.Claims

namespace Sys2Proof.Claims

/-- The control core of cell c works and its next instruction is the legal word w (07 R187 to R189). -/
def Runs (c : Fin 34) (w : BitVec 32) (s : State) : Prop :=
  (s.works c).isSome = true ∧ (s.cell c).core.run = .running ∧ (s.cell c).core.pc < 16384 ∧ (s.cell c).core.fetch = w ∧
  (s.cell c).core.legal w = true

/-- Only cell c differs, and of it only the control core. -/
def CoreOnly (c : Fin 34) (s t : State) : Prop :=
  Only [.cells] s t ∧ (∀ n, n ≠ c.val → t.cell n = s.cell n) ∧ t.cell c = { s.cell c with core := (t.cell c).core }

/-- Register rd reads v afterwards, g0 reads zero, every other general register as before (07 R184). -/
def Wrote (c : Fin 34) (rd : Nat) (v : BitVec 64) (s t : State) : Prop :=
  ∀ n, (t.cell c).core.greg n = if n = rd ∧ n ≠ 0 then v else (s.cell c).core.greg n

/-- Of a control core only the general registers and the program counter differ. -/
def RegsOnly (c : Fin 34) (s t : State) : Prop :=
  (t.cell c).core = { (s.cell c).core with g := (t.cell c).core.g, pc := (t.cell c).core.pc }

/-- The register instructions of the table *Control-core instructions*: opcode, result of rs1 and rs2 (07 R188). -/
def aluTable (c : Fin 34) : List (Instr × Nat × (BitVec 64 → BitVec 64 → BitVec 64)) :=
  [(.add c, 0x01, fun a b => BitVec.ofNat 64 (a.toNat + b.toNat)),
   (.sub c, 0x02, fun a b => BitVec.ofInt 64 (a.toNat - b.toNat)),
   (.and c, 0x03, fun a b => BitVec.ofNat 64 (a.toNat &&& b.toNat)),
   (.or c, 0x04, fun a b => BitVec.ofNat 64 (a.toNat ||| b.toNat)),
   (.xor c, 0x05, fun a b => BitVec.ofNat 64 (a.toNat ^^^ b.toNat)),
   (.sll c, 0x06, fun a b => BitVec.ofNat 64 (a.toNat * 2 ^ (b.toNat % 64))),
   (.srl c, 0x07, fun a b => BitVec.ofNat 64 (a.toNat / 2 ^ (b.toNat % 64))),
   (.sra c, 0x08, fun a b => BitVec.ofInt 64 (a.toInt / 2 ^ (b.toNat % 64))),
   (.mul c, 0x09, fun a b => BitVec.ofNat 64 (a.toNat * b.toNat)),
   (.sltu c, 0x0A, fun a b => if a.toNat < b.toNat then 1 else 0),
   (.slt c, 0x0B, fun a b => if a.toInt < b.toInt then 1 else 0),
   (.minu c, 0x0C, fun a b => BitVec.ofNat 64 (min a.toNat b.toNat)),
   (.maxu c, 0x0D, fun a b => BitVec.ofNat 64 (max a.toNat b.toNat))]

/-- The signed value of a 16-bit immediate. -/
def signed16 (i : Nat) : Int := if i < 2 ^ 15 then (i : Int) else (i : Int) - 2 ^ 16

/-- The immediate instructions: opcode, result of rs1 and imm16 (07 R188). -/
def immTable (c : Fin 34) : List (Instr × Nat × (BitVec 64 → Nat → BitVec 64)) :=
  [(.addi c, 0x10, fun a i => BitVec.ofInt 64 (a.toNat + signed16 i)),
   (.andi c, 0x11, fun a i => BitVec.ofNat 64 (a.toNat &&& i)),
   (.ori c, 0x12, fun a i => BitVec.ofNat 64 (a.toNat ||| i)),
   (.xori c, 0x13, fun a i => BitVec.ofNat 64 (a.toNat ^^^ i)),
   (.slli c, 0x14, fun a i => BitVec.ofNat 64 (a.toNat * 2 ^ (i % 64))),
   (.srli c, 0x15, fun a i => BitVec.ofNat 64 (a.toNat / 2 ^ (i % 64))),
   (.srai c, 0x16, fun a i => BitVec.ofInt 64 (a.toInt / 2 ^ (i % 64)))]

/-- The branches: opcode, condition on rs1 and rs2 (07 R188). -/
def branchTable (c : Fin 34) : List (Instr × Nat × (BitVec 64 → BitVec 64 → Bool)) :=
  [(.beq c, 0x20, fun a b => decide (a.toNat = b.toNat)), (.bne c, 0x21, fun a b => decide (a.toNat ≠ b.toNat)),
   (.bltu c, 0x22, fun a b => decide (a.toNat < b.toNat)), (.bgeu c, 0x23, fun a b => decide (b.toNat ≤ a.toNat)),
   (.blt c, 0x24, fun a b => decide (a.toInt < b.toInt)), (.bge c, 0x25, fun a b => decide (b.toInt ≤ a.toInt))]

/-- The count a check point selects, as a record holds it: 0 saturated, 1 flushed, 2 awn_overflow (07 R197, R205). -/
def selected (sel : Nat) (n : Counts) : Nat :=
  min (if sel = 0 then n.sat else if sel = 1 then n.flu else n.awn) (2 ^ 32 - 1)

/-- Every sampled tile of a command of a cell has been compared, none differed, and no record of the cell waits. -/
def Compared (x : Cell) (q : Fin 5) (n : BitVec 32) : Prop :=
  (∀ t ∈ x.samples, ¬ (t.queue = q ∧ t.seqNo = n)) ∧ (q, n) ∉ x.dupBad ∧ x.heldDone = []

/-- The completion record of a command with its outcome (07 R197). -/
def RecordOf (q : Fin 5) (n : BitVec 32) (e : QEntry) (o : Done) (r : BitVec 256) : Prop :=
  fld r 255 248 = withFb e.fb o.status.toNat % 256 ∧ fld r 247 245 = q.val ∧ fld r 223 192 = n.toNat ∧
  fld r 191 160 = min o.counts.sat (2 ^ 32 - 1) ∧ fld r 159 128 = min o.counts.flu (2 ^ 32 - 1) ∧
  fld r 127 96 = min o.counts.awn (2 ^ 32 - 1) ∧ fld r 63 0 = o.aux.toNat

end Sys2Proof.Claims

/-- A step runs the command at the front of the queue on the state with the rest of the queue. On an empty queue a
step counts one interval while PORST_N is high and REFCLK present (02 R50; that a step of an empty queue is one count
is the model's choice, log entry 31). A rollback minimum being written then stands in the NV die, the class 0 buffers
are empty, and an up port counts codewords, of a free number; nothing else changes (log entries 71, 90). -/
def Obligations.StepRunsFrontOrCounts : Prop :=
  (∀ (c : Instr) (rest : List Instr) (s : State),
     step { s with pending := c :: rest } = exec c { s with pending := rest }) ∧
  (∀ s : State, s.pending = [] → ∃ t, step s = .next t ∧ Only [.dev, .nv, .ports, .free] s t ∧
     t.dev = { s.dev with
       minPending := none,
       interval := if s.dev.porstN = true ∧ s.dev.refclkOk = true then s.dev.interval + 1 else s.dev.interval } ∧
     t.nv = { s.nv with rollbackMin := s.dev.minPending.getD s.nv.rollbackMin, units := t.nv.units } ∧
     (∀ n, t.port n = { s.port n with
       c0held := 0, fecCorr := (t.port n).fecCorr, fecUncorr := (t.port n).fecUncorr }) ∧
     (∀ n, (s.port n).up = false → (t.port n).fecCorr = (s.port n).fecCorr ∧ (t.port n).fecUncorr = (s.port n).fecUncorr) ∧
     ((s.port 0).up = false → (s.port 1).up = false → t.nv.units = s.nv.units ∧ t.free = s.free))

/-- No command stops: every command answers a next state in every state. -/
def Obligations.EveryCommandAnswersNext : Prop :=
  ∀ (c : Instr) (s : State), ∃ t, exec c s = .next t

/-- No command writes a fuse, changes the IDCODE, or touches the queue. -/
def Obligations.CommandsKeepFusesAndQueue : Prop :=
  ∀ (c : Instr) (s t : State), exec c s = .next t →
    t.fuse = s.fuse ∧ t.pending = s.pending ∧ (s.jtag.idcode = 0x1D04A4B3 → t.jtag.idcode = 0x1D04A4B3)

/-- Every step keeps the memory in its canonical form. -/
def Obligations.StepKeepsMemoryCanonical : Prop :=
  ∀ s t : State, s.wf = true → step s = .next t → t.wf = true

/-- The machine held in reset has the canonical memory, and the values the spec gives for reset: the control cores
halted with g, p, CW, the gate and the event counters zero (07 R190), cap 1,800 W over 8 s (11 R331), ring
id 0 of a ring of 1 (10 R280), the by-pass closed, no session, state 0. That every byte of memory then reads zero is the model's
choice (log entry 5). -/
def Obligations.ResetValues : Prop :=
  State.reset.wf = true ∧ State.reset.pending = [] ∧
  (∀ c : Fin 34, (State.reset.cell c).core = Core.reset) ∧
  Core.reset.run = .halted ∧ (∀ n, Core.reset.greg n = 0) ∧ Core.reset.cw = 0 ∧ Core.reset.gate = none ∧
  (∀ i, vget Core.reset.p i 0 = 0) ∧ (∀ i, vget Core.reset.ev i 0 = 0) ∧
  State.reset.nv.capW = 1800 ∧ State.reset.nv.ringId = 0 ∧ State.reset.nv.ringSize = 1 ∧
  State.reset.dev.devState = 0 ∧ State.reset.dev.bypCmd = false ∧ State.reset.dev.interval = 0 ∧
  State.reset.eop.sessions = [] ∧ State.reset.jtag.idcode = 0x1D04A4B3 ∧ (∀ a, State.reset.mem.read1 a = 0)

/-- PORST_N asserted, an excursion of a monitored rail, the loss of REFCLK, a thermal trip and a boot time-out each
take the device reset when they act; the excursion, the loss, and the time-out leave their event; the pins and latches
that caused the reset read so (01 R31, R33, R37, R45; 12 R342). The loss of every rail stops the device: the fuses,
the queue and the NV die's keys, slots, boot count and rollback minimum remain, a rollback minimum that was still to
be written is lost (12 R350); memory reads zero; the test access port is as it powers up (01 R35). An excursion of
VDD_NV does the same. -/
def Obligations.ResetCausesAndPowerLoss : Prop :=
  (∀ s : State,
     (outOfReset s = true → ∃ t, exec .porstNAssert s = .next t ∧ ResetFrom s t ∧ t.dev.porstN = false) ∧
     (∀ r : RailName, r ≠ .nv → outOfReset s = true → flag s.dev.actedRails (railNumber r) = false →
       ∃ t, exec (.railWindowExcursion r) s = .next t ∧ ResetFrom s t ∧ eventWritten 0x30 s t ∧
         flag t.dev.railBad (railNumber r) = true) ∧
     (s.dev.actedRef = false → outOfReset s = true →
       ∃ t, exec .refclkLoss s = .next t ∧ ResetFrom s t ∧ eventWritten 0x31 s t ∧ t.dev.refclkOk = false) ∧
     (s.dev.powered = true → s.dev.thermLatched = false →
       ∃ t, exec .thermalTrip s = .next t ∧ ResetFrom s t ∧ t.dev.thermLatched = true ∧ t.dev.tripToRecord = true) ∧
     (∀ order : BitVec 8, outOfReset s = true → s.dev.resetPending = false → s.dev.devState = 0 →
       ∃ t, exec (.bootTimeout order) s = .next t ∧ ResetFrom s t ∧ eventWritten 0x3A s t)) ∧
  (∀ s : State, s.dev.powered = true →
     ∀ c : Instr, c = .powerLoss ∨ c = .railWindowExcursion .nv →
       ∃ t, exec c s = .next t ∧ t.dev.powered = false ∧ t.dev.porstN = false ∧ t.dev.thermLatched = false ∧
         t.fuse = s.fuse ∧ t.pending = s.pending ∧ KeysSettled s t ∧ t.nv.slots = s.nv.slots ∧
         t.nv.bootCount = s.nv.bootCount ∧ t.nv.rollbackMin = s.nv.rollbackMin ∧ t.dev.minPending = none ∧
           (∀ a, t.mem.read1 a = 0) ∧ t.jtag = Jtag.reset ∧
         t.cells = Vector.replicate 34 Cell.reset ∧ t.eop.sessions = [])

/-- The by-pass check (01 R41): switches that both show the commanded position are noted and nothing else changes; any
other reading commands both switches to the by-pass position, latches the by-pass fault, reads 2 in OD 0x5000:05 and
writes event 0x34. From then on no command commands the inserted position, until a device reset has cleared the fault. -/
def Obligations.BypassCheck : Prop :=
  (∀ (e w : Bool) (s : State), outOfReset s = true →
    (e = s.dev.bypCmd → w = s.dev.bypCmd → ∃ t, exec (.bypassCheckTimeout e w) s = .next t ∧ Only [.dev] s t ∧
      t.dev = { s.dev with bypE := e, bypW := w }) ∧
    (¬ (e = s.dev.bypCmd ∧ w = s.dev.bypCmd) → ∃ t, exec (.bypassCheckTimeout e w) s = .next t ∧
      t.dev.bypCmd = false ∧ t.dev.bypFault = true ∧ t.dev.ringState = 2 ∧ t.dev.removing = false ∧
      t.dev.bypE = e ∧ t.dev.bypW = w ∧ eventWritten 0x34 s t ∧ (t.port 0).st = 0 ∧ (t.port 1).st = 0 ∧
      Only [.dev, .nv, .ports, .parts, .eop, .out] s t)) ∧
  (∀ (c : Instr) (s t : State), exec c s = .next t → s.dev.bypFault = true → s.dev.bypCmd = false →
    t.dev.bypCmd = false ∧ (t.dev.bypFault = true ∨ t.dev.resetPending = true))

/-- Power up, the release of PORST_N, a rail and REFCLK restored, and the ageing-guard step change exactly the pin,
latch or guard they name (01 R31, R32, R37; 02 R50, R59). The sensed position: a port that is not up starts training
once the insertion was commanded and both switches show it; in every other case only the two sensed bits change (10
R307); with PORST_N low or no power nothing does (01 R27). -/
def Obligations.PinsRailsAndPlacement : Prop :=
  (∀ s : State,
     (s.dev.powered = false → ∃ t, exec .powerUp s = .next t ∧ Only [.dev] s t ∧
       t.dev = { s.dev with powered := true, porstN := false, vrAlertN := true, interval := 0 }) ∧
     (s.dev.powered = true → s.dev.porstN = false → s.dev.thermLatched = false →
       ∃ t, exec .porstNRelease s = .next t ∧ Only [.dev, .jtag] s t ∧
         t.dev = { s.dev with porstN := true, interval := 0, actedRails := 0, actedRef := false } ∧ t.jtag = { s.jtag with drive := none }) ∧
     (∀ r : RailName, ∃ t, exec (.railRecovered r) s = .next t ∧ Only [.dev] s t ∧
       t.dev = { s.dev with railBad := t.dev.railBad, actedRails := t.dev.actedRails } ∧
       ∀ n, n < 8 → flag t.dev.railBad n = (flag s.dev.railBad n && decide (n ≠ railNumber r)) ∧
         flag t.dev.actedRails n = (flag s.dev.actedRails n && decide (n ≠ railNumber r))) ∧
     (∃ t, exec .refclkRestored s = .next t ∧ Only [.dev] s t ∧
       t.dev = { s.dev with refclkOk := true, actedRef := false }) ∧
     (∀ c : Fin 34, s.dev.devState = 1 → ∃ t, exec (.ageingGuardStep c) s = .next t ∧ Only [.nv] s t ∧
       t.nv = { s.nv with guards := t.nv.guards } ∧
       (∀ n, n ≠ c.val → vget t.nv.guards n 0 = vget s.nv.guards n 0) ∧
       (vget t.nv.guards c 0).toNat =
         if (vget s.nv.guards c 0).toNat < 16 then (vget s.nv.guards c 0).toNat + 1 else (vget s.nv.guards c 0).toNat)) ∧
  (∀ (e w : Bool) (s : State),
     ((s.dev.powered = false ∨ s.dev.porstN = false) → exec (.bypassPositionSensed e w) s = .next s) ∧
     (s.dev.powered = true → s.dev.porstN = true → s.dev.bypCmd = true → e = true → w = true →
       ∃ t, exec (.bypassPositionSensed e w) s = .next t ∧ t.dev = { s.dev with bypE := true, bypW := true } ∧
         (∀ n, n < 2 → (s.port n).up = false → (t.port n).st = 1) ∧
         (∀ n, n < 2 → (s.port n).up = true → t.port n = s.port n) ∧
         Only [.dev, .nv, .ports, .parts, .eop, .out] s t) ∧
     (s.dev.powered = true → s.dev.porstN = true → ¬ (s.dev.bypCmd = true ∧ e = true ∧ w = true) →
       ∃ t, exec (.bypassPositionSensed e w) s = .next t ∧ Only [.dev] s t ∧ t.dev = { s.dev with bypE := e, bypW := w }))

/-- The test access port (01 R47; the instruction codes and the order of the bits are the model's, log entry 28):
BYPASS delays the bits by one, IDCODE gives 0x1D04A4B3 least significant bit first, SAMPLE gives the levels of the
lands, EXTEST drives what was shifted in while PORST_N is low and nothing while it is high. A low TRST_N holds the port in
Test-Logic-Reset: IDCODE is loaded and nothing is driven. -/
def Obligations.TestAccessPort : Prop :=
  ∀ (tdi : List Bool) (s : State), tapWorks s = true →
    (∀ i ∈ [Instr.jtagBypass ⟨false, tdi⟩, .jtagIdcode ⟨false, tdi⟩, .jtagSamplePreload ⟨false, tdi⟩, .jtagExtest ⟨false, tdi⟩],
      ∃ t, exec i s = .next t ∧ Only [.jtag] s t ∧
        t.jtag = { s.jtag with trstN := false, ir := 0x02, drive := none, tdo := [] }) ∧
    (∃ t, exec (.jtagBypass ⟨true, tdi⟩) s = .next t ∧ Only [.jtag] s t ∧ t.jtag.tdo = (false :: tdi).take tdi.length ∧
      t.jtag.drive = none) ∧
    (s.jtag.idcode = 0x1D04A4B3 → tdi.length = 32 → ∃ t, exec (.jtagIdcode ⟨true, tdi⟩) s = .next t ∧ Only [.jtag] s t ∧
      t.jtag.tdo = (List.range 32).map (fun i => Nat.testBit 0x1D04A4B3 i) ∧ t.jtag.drive = none) ∧
    (tdi.length = (landLevels s).length → ∃ t, exec (.jtagSamplePreload ⟨true, tdi⟩) s = .next t ∧ Only [.jtag] s t ∧
      t.jtag.tdo = landLevels s ∧ t.jtag.chain = tdi ∧ t.jtag.drive = none) ∧
    (tdi.length = (landLevels s).length → ∃ t, exec (.jtagExtest ⟨true, tdi⟩) s = .next t ∧ Only [.jtag] s t ∧
      t.jtag.tdo = landLevels s ∧ t.jtag.chain = tdi ∧
      t.jtag.drive = (if s.dev.porstN = true then none else some tdi))

/-- A boot of a device whose fault history is empty (12 R341, R342): with the image of the slot first among the
candidates verified, the boot runs to order 11 of it, in state 0, one boot further, port M with its persistent
settings; memory reads zero but for the three components of the image in the steward firmware region; the measurements
are the boot ROM's and those of the image's components (R343). Husk mode at order 2: a second steward reset running
enters it with cause 2, three boots not ready with cause 6; the device state reads 2, event 0x40 is written and port M
answers with its persistent settings (15 R396, R397). Ready, and an hour of it (12 R341, R342; 15 R396): the slot
booted becomes the active one, its marks are cleared, the write of a higher rollback minimum begins (it stands from
the next step of an empty queue on, log entry 90), and one insertion is due where OD 0x5000:03 is 0 (R344); after an
hour both counts of failed boots read zero. -/
def Obligations.BootHuskAndReady : Prop :=
  (∀ (o : BootFindings) (s : State) (i : Nat) (l : List Nat),
     outOfReset s = true → s.dev.refclkOk = true → s.dev.railBad = 0 → s.dev.resetPending = true →
     s.nv.stwResets.toNat < 2 → s.nv.noReady.toNat < 3 → s.dev.vrAlertN = true →
     s.nv.units = [] → 8 ≤ popCount s.fuse.enabled → o.copyBad = false →
     (s.slot 0).trial = false → (s.slot 1).trial = false → s.dev.devState = 0 →
     candidates s = i :: l → slotFault s i = none →
     ∃ t, exec (.bootStart o) s = .next t ∧ t.dev.bootOrder = 11 ∧ t.dev.devState = 0 ∧ t.dev.resetPending = false ∧
       t.dev.slot = some (Fin.ofNat 2 i) ∧ t.nv.bootCount = s.nv.bootCount + 1 ∧ t.dev.bypCmd = s.dev.bypCmd ∧
       t.eop.cfg = s.nv.portM ∧
       (let b := regionBytes (s.slot i).image
        ∀ a, t.mem.read1 a = if stewardBase ≤ a ∧ a < stewardBase + b.length then b.getD (a - stewardBase) 0 else 0) ∧
       t.dev.meas.toList = s.fuse.romDigest :: (imageMeasures (s.slot i).image).toList ∧ t.dev.chain = chainOf t.dev.meas) ∧
  (∀ (o : BootFindings) (s : State),
     outOfReset s = true → s.dev.refclkOk = true → s.dev.railBad = 0 → s.dev.resetPending = true →
     s.dev.tripToRecord = false →
     (2 ≤ s.nv.stwResets.toNat → ∃ t, exec (.bootStart o) s = .next t ∧ t.dev.devState = 2 ∧ t.dev.huskCause = 2 ∧
       t.nv.stwResets = 1 ∧ t.nv.bootCount = s.nv.bootCount + 1 ∧ eventWritten 0x40 s t ∧ t.eop.cfg = s.nv.portM ∧
       Only [.dev, .nv, .att, .eop] s t) ∧
     (s.nv.stwResets.toNat < 2 → 3 ≤ s.nv.noReady.toNat → ∃ t, exec (.bootStart o) s = .next t ∧
       t.dev.devState = 2 ∧ t.dev.huskCause = 6 ∧ t.nv.bootCount = s.nv.bootCount + 1 ∧ eventWritten 0x40 s t ∧
       t.eop.cfg = s.nv.portM ∧ Only [.dev, .nv, .att, .eop] s t)) ∧
  (∀ s : State,
     (∀ i : Fin 2, s.dev.slot = some i → s.dev.bootOrder = 11 → s.dev.devState = 0 →
       ∃ t, exec .deviceReady s = .next t ∧ Only [.dev, .nv] s t ∧
         t.dev = { s.dev with
           devState := 1, bootOrder := 12, hourArmed := true, autoInsert := decide (s.nv.insertMode = 0),
           minPending := if s.nv.rollbackMin.toNat < imageMinVer (s.slot i).image
             then some (BitVec.ofNat 32 (imageMinVer (s.slot i).image)) else none } ∧ t.nv.active = i ∧
         t.nv.rollbackMin = s.nv.rollbackMin ∧
         t.slot i = { s.slot i with pending := false, trial := false, failed := false } ∧
         t.slot (1 - i.val) = s.slot (1 - i.val) ∧ t.nv.keys = s.nv.keys ∧ t.nv.events = s.nv.events ∧
         t.nv.bootCount = s.nv.bootCount) ∧
     (s.dev.hourArmed = true → s.dev.devState = 1 → ∃ t, exec .readyHourExpiry s = .next t ∧ Only [.dev, .nv] s t ∧
       t.dev = { s.dev with hourArmed := false } ∧ t.nv = { s.nv with stwResets := 0, noReady := 0 }))

/-- The register instructions of the control core (07 R184, R188): rd takes the result, the program counter the next
index; a write of g0 is dropped; nothing else of the machine changes. The immediate instructions, MOVK and PRD (07
R188). MOVK puts the immediate into one halfword of rd and keeps the others; PRD reads the parameter register the
immediate names. -/
def Obligations.ArithmeticInstructions : Prop :=
  (∀ (c : Fin 34) (w : BitVec 32) (s : State), Runs c w s →
     ∀ r ∈ aluTable c, opcodeOf w = r.2.1 →
       ∃ t, exec r.1 s = .next t ∧ CoreOnly c s t ∧ RegsOnly c s t ∧ (t.cell c).core.pc = (s.cell c).core.pc + 1 ∧
         Wrote c (fld w 25 21) (r.2.2 ((s.cell c).core.greg (fld w 20 16)) ((s.cell c).core.greg (fld w 15 11))) s t) ∧
  (∀ (c : Fin 34) (w : BitVec 32) (s : State), Runs c w s →
     (∀ r ∈ immTable c, opcodeOf w = r.2.1 →
       ∃ t, exec r.1 s = .next t ∧ CoreOnly c s t ∧ RegsOnly c s t ∧ (t.cell c).core.pc = (s.cell c).core.pc + 1 ∧
         Wrote c (fld w 25 21) (r.2.2 ((s.cell c).core.greg (fld w 20 16)) (fld w 15 0)) s t) ∧
     (opcodeOf w = 0x17 →
       ∃ t v, exec (.movk c) s = .next t ∧ CoreOnly c s t ∧ RegsOnly c s t ∧
         (t.cell c).core.pc = (s.cell c).core.pc + 1 ∧ Wrote c (fld w 25 21) v s t ∧
         ∀ j, j < 64 → v.toNat.testBit j =
           if j / 16 = fld w 17 16 then (fld w 15 0).testBit (j % 16)
           else ((s.cell c).core.greg (fld w 25 21)).toNat.testBit j) ∧
     (opcodeOf w = 0x18 →
       ∃ t, exec (.prd c) s = .next t ∧ CoreOnly c s t ∧ RegsOnly c s t ∧ (t.cell c).core.pc = (s.cell c).core.pc + 1 ∧
         Wrote c (fld w 25 21) (vget (s.cell c).core.p (fld w 6 0) 0) s t))

/-- PUSH (07 R188, R194, R202): unless the queue or the run-ahead limit makes it wait, CW goes to the end of the queue
with the sequence number, F and the pending gate, the sequence counter counts, the gate is consumed; a push that must
wait changes nothing. CHKP (07 R205, R209) with fewer than 8 check points open: on a command that has neither
completed nor been squashed, one more is open, with the queue, the checked command, the selected count, the threshold
in rs1 and the snapshot of registers, CW, gate and sequence counter; on a squashed command the check point is
discarded; on a completed command, with no other open, it resolves at once: it closes, or squashes. With 8 open it
waits. -/
def Obligations.PushesAndCheckPoints : Prop :=
  (∀ (c : Fin 34) (w : BitVec 32) (s : State), Runs c w s → opcodeOf w = 0x32 →
     (pushWaits (s.cell c) (fld w 25 23) = true → exec (.push c) s = .next s) ∧
     (pushWaits (s.cell c) (fld w 25 23) = false →
       ∃ t e, exec (.push c) s = .next t ∧ Only [.cells] s t ∧ (∀ n, n ≠ c.val → t.cell n = s.cell n) ∧
         t.cell c = { s.cell c with queues := (t.cell c).queues, core := (t.cell c).core } ∧
         vget (t.cell c).queues (fld w 25 23) [] = vget (s.cell c).queues (fld w 25 23) [] ++ [e] ∧
         (∀ q, q ≠ fld w 25 23 → vget (t.cell c).queues q [] = vget (s.cell c).queues q []) ∧
         e.word = (s.cell c).core.cw ∧ e.seqNo = (s.cell c).core.seqNo ∧ e.fb = w.getLsbD 22 ∧
         e.gate = (s.cell c).core.gate ∧
         (t.cell c).core = { (s.cell c).core with
           seqNo := (s.cell c).core.seqNo + 1, gate := none, pc := (s.cell c).core.pc + 1,
           lastPush := (t.cell c).core.lastPush } ∧
         vget (t.cell c).core.lastPush (fld w 25 23) none = some ⟨(s.cell c).core.seqNo, none, false⟩)) ∧
  (∀ (c : Fin 34) (w : BitVec 32) (s : State), Runs c w s → opcodeOf w = 0x34 →
     ((s.cell c).core.snaps.length = 8 → exec (.chkp c) s = .next s) ∧
     (∀ l : LastPush, (s.cell c).core.snaps.length < 8 → vget (s.cell c).core.lastPush (fld w 25 23) none = some l →
       l.squashed = false → l.counts = none →
       ∃ t cp, exec (.chkp c) s = .next t ∧ CoreOnly c s t ∧
         (t.cell c).core = { (s.cell c).core with
           snaps := (s.cell c).core.snaps ++ [cp], pc := (s.cell c).core.pc + 1 } ∧
         cp.queue.val = fld w 25 23 ∧ cp.target = l.seqNo ∧ cp.count.toNat = fld w 22 21 ∧
         cp.threshold = (s.cell c).core.greg (fld w 20 16) ∧ cp.regs = (s.cell c).core.g ∧ cp.cw = (s.cell c).core.cw ∧
         cp.gate = (s.cell c).core.gate ∧ cp.seqNo = (s.cell c).core.seqNo ∧
         (cp.fallback : Int) = (s.cell c).core.pc + signed16 (fld w 15 0)) ∧
     (∀ l : LastPush, (s.cell c).core.snaps.length < 8 → vget (s.cell c).core.lastPush (fld w 25 23) none = some l →
       (l.squashed = true → ∃ t, exec (.chkp c) s = .next t ∧ CoreOnly c s t ∧
         (t.cell c).core = { (s.cell c).core with pc := (s.cell c).core.pc + 1 }) ∧
       (∀ n, l.squashed = false → l.counts = some n → (s.cell c).core.snaps = [] →
         (((s.cell c).core.greg (fld w 20 16)).toNat < selected (fld w 22 21) n →
           ∃ t cp, exec (.chkp c) s = .next t ∧ (t.cell c).core.run = .squashing cp ∧ (t.cell c).core.snaps = [] ∧
             cp.regs = (s.cell c).core.g ∧ cp.seqNo = (s.cell c).core.seqNo ∧
             (cp.fallback : Int) = (s.cell c).core.pc + signed16 (fld w 15 0) ∧ Only [.cells, .parts, .mem, .free] s t) ∧
         (selected (fld w 22 21) n ≤ ((s.cell c).core.greg (fld w 20 16)).toNat →
           ∃ t, exec (.chkp c) s = .next t ∧ CoreOnly c s t ∧
             (t.cell c).core = { (s.cell c).core with pc := (s.cell c).core.pc + 1 }))))

/-- Branches and jumps (07 R187, R188): a branch goes to its address plus the signed offset16 when its condition holds
and to the next index otherwise; JAL goes to its address plus the signed offset26 and leaves the next index in g31; JR
goes to the address in rs1. Only the program counter changes, and g31 for JAL. CLDT, CINS and GATE (07 R188, R201): CW
takes a template, CW takes a bit range from rs1 and keeps the rest, the pending gate takes a counter and the low 32
bits of rs1. MARK and HALT (07 R188, R214): with no check point open and no command of the cell incomplete the core
passes the commit point and waits there, HALT at the end of the program; otherwise they wait and change nothing. -/
def Obligations.BranchesCommandWordsAndHalt : Prop :=
  (∀ (c : Fin 34) (w : BitVec 32) (s : State), Runs c w s →
     (∀ r ∈ branchTable c, opcodeOf w = r.2.1 →
       ∃ t, exec r.1 s = .next t ∧ CoreOnly c s t ∧
         (t.cell c).core = { (s.cell c).core with pc := (t.cell c).core.pc } ∧
         ((t.cell c).core.pc : Int) =
           if r.2.2 ((s.cell c).core.greg (fld w 25 21)) ((s.cell c).core.greg (fld w 20 16)) = true
           then (s.cell c).core.pc + signed16 (fld w 15 0) else (s.cell c).core.pc + 1) ∧
     (opcodeOf w = 0x26 →
       ∃ t, exec (.jal c) s = .next t ∧ CoreOnly c s t ∧ RegsOnly c s t ∧
         Wrote c 31 (BitVec.ofNat 64 ((s.cell c).core.pc + 1)) s t ∧
         ((t.cell c).core.pc : Int) = (s.cell c).core.pc +
           (if fld w 25 0 < 2 ^ 25 then (fld w 25 0 : Int) else (fld w 25 0 : Int) - 2 ^ 26)) ∧
     (opcodeOf w = 0x27 →
       ∃ t, exec (.jr c) s = .next t ∧ CoreOnly c s t ∧
         (t.cell c).core = { (s.cell c).core with pc := ((s.cell c).core.greg (fld w 20 16)).toNat })) ∧
  (∀ (c : Fin 34) (w : BitVec 32) (s : State), Runs c w s →
     (opcodeOf w = 0x30 →
       ∃ t, exec (.cldt c) s = .next t ∧ CoreOnly c s t ∧ (s.cell c).core.tmpl[fld w 9 0]? = some (t.cell c).core.cw ∧
         (t.cell c).core = { (s.cell c).core with
           cw := (t.cell c).core.cw, cwT := some (fld w 9 0), pc := (s.cell c).core.pc + 1 }) ∧
     (opcodeOf w = 0x31 →
       ∃ t, exec (.cins c) s = .next t ∧ CoreOnly c s t ∧
         (t.cell c).core = { (s.cell c).core with cw := (t.cell c).core.cw, pc := (s.cell c).core.pc + 1 } ∧
         ∀ j, j < 256 → (t.cell c).core.cw.toNat.testBit j =
           if fld w 20 13 ≤ j ∧ j ≤ fld w 20 13 + fld w 12 7
           then ((s.cell c).core.greg (fld w 25 21)).toNat.testBit (j - fld w 20 13)
           else (s.cell c).core.cw.toNat.testBit j) ∧
     (opcodeOf w = 0x33 →
       ∃ t g, exec (.gate c) s = .next t ∧ CoreOnly c s t ∧
         (t.cell c).core = { (s.cell c).core with gate := some g, pc := (s.cell c).core.pc + 1 } ∧
         g.ctr.val = fld w 20 16 ∧ g.thr.toNat = ((s.cell c).core.greg (fld w 25 21)).toNat % 2 ^ 32)) ∧
  (∀ (c : Fin 34) (w : BitVec 32) (s : State), Runs c w s →
     ∀ (i : Instr) (op : Nat) (run : CoreRun), (i, op, run) ∈ [(.mark c, 0x35, CoreRun.atMark), (.halt c, 0x28, CoreRun.ended)] →
       opcodeOf w = op →
       ((s.cell c).core.snaps = [] → allCommands (s.cell c) = [] →
         ∃ t, exec i s = .next t ∧ CoreOnly c s t ∧
           (t.cell c).core = { (s.cell c).core with
             run := run, pc := (s.cell c).core.pc + 1, commits := (s.cell c).core.commits + 1 }) ∧
       (¬ ((s.cell c).core.snaps = [] ∧ allCommands (s.cell c) = []) → exec i s = .next s))

/-- ILLEGAL_INSTRUCTION (07 R189): at an illegal instruction with no check point open and every command complete, a
record with status OUT_OF_RANGE, queue 0b111, the address and the sequence counter enters the ring, event 0x04 is
written, and the partition stops: its state reads 2. Before that it waits. -/
def Obligations.IllegalInstructionStopsThePartition : Prop :=
  ∀ (c : Fin 34) (p : Nat) (s : State), s.works c = some p → atIllegal (s.cell c).core = true →
    (atRest (s.cell c) = false → exec (.illegalInstruction c) s = .next s) ∧
    (atRest (s.cell c) = true →
      ∃ t r, exec (.illegalInstruction c) s = .next t ∧ r ∈ (t.cell c).recs ∧ fld r 255 248 = stRange ∧
        fld r 247 245 = 7 ∧ fld r 239 224 = (s.cell c).core.pc % 2 ^ 16 ∧ fld r 223 192 = (s.cell c).core.seqNo.toNat ∧
        eventWritten 0x04 s t ∧ (t.part p).st = 2 ∧ (t.cell c).core.run = .illegal ∧
        (∀ n, n ∉ s.cellsOf p → t.cell n = s.cell n) ∧ (∀ q, q ≠ p → t.part q = s.part q) ∧
        Only [.cells, .parts, .nv, .dev, .eop, .out, .ports, .ring, .mem, .free] s t)

/-- SQUASH_RESUME (07 R210 order 7): the core restores the snapshot and goes on at the fall-back target.
COMMAND_COMPLETION (07 R197, R198): a command whose engine has reached an outcome, with every sampled tile of it
compared and equal (15 R386), no check point open and no record of another waiting, leaves the cell's engines and
queues, and its record with queue, sequence number, status, counts and AUX is the last of the ring. -/
def Obligations.SquashesAndCompletions : Prop :=
  (∀ (c : Fin 34) (cp : CheckPoint) (s : State), (s.cell c).core.run = .squashing cp → (s.works c).isSome = true →
     ∃ t, exec (.squashResume c) s = .next t ∧ CoreOnly c s t ∧
       (t.cell c).core = { (s.cell c).core with
         g := cp.regs, cw := cp.cw, cwT := cp.cwT, gate := cp.gate, seqNo := cp.seqNo, pc := cp.fallback, run := .running }) ∧
  (∀ (c : Fin 34) (q : Fin 5) (n : BitVec 32) (p : Nat) (e : QEntry) (o : Done) (h : BitVec 64) (len : Nat) (s : State),
     s.cellOwner c = some p → outcomeOf (s.cell c) q n = some (e, o, h, len) →
     Compared (s.cell c) q n → (s.cell c).core.snaps = [] →
     ∃ t r, exec (.commandCompletion c q n) s = .next t ∧ (t.cell c).recs.getLast? = some r ∧ RecordOf q n e o r ∧
       (∀ x ∈ allCommands (t.cell c), ¬ (x.1 = q.val ∧ x.2.seqNo = n)) ∧
       (t.cell c).core.snaps = [] ∧ Only [.cells, .parts] s t)

/-- A check point whose checked command completes (07 R209, R210 orders 1 to 6; 07 R207). The selected count of the record
not above the threshold: it closes and every other command stays. Above it: every command from the check point on leaves the
engines and queues with a SQUASHED record whose counts and AUX are zero, the core waits to resume, the squash counts, and of
memory only the provisional region may differ; no parameter register, held plane or frame position does. -/
def Obligations.CheckPointResolves : Prop :=
  ∀ (c : Fin 34) (q : Fin 5) (n : BitVec 32) (p : Nat) (e : QEntry) (o : Done) (h : BitVec 64) (len : Nat)
    (cp : CheckPoint) (s : State),
    s.cellOwner c = some p → outcomeOf (s.cell c) q n = some (e, o, h, len) → Compared (s.cell c) q n →
    (s.cell c).core.snaps = [cp] → cp.queue = q → cp.target = n → n < cp.seqNo →
    (selected cp.count.toNat o.counts ≤ cp.threshold.toNat →
      ∃ t, exec (.commandCompletion c q n) s = .next t ∧ (t.cell c).core.snaps = [] ∧
        (t.cell c).core.run = (s.cell c).core.run ∧ (∃ r, (t.cell c).recs.getLast? = some r ∧ RecordOf q n e o r) ∧
        (∀ x ∈ allCommands (s.cell c), ¬ (x.1 = q.val ∧ x.2.seqNo = n) → x ∈ allCommands (t.cell c)) ∧
        Only [.cells, .parts] s t) ∧
    (cp.threshold.toNat < selected cp.count.toNat o.counts → (allCommands (s.cell c)).length ≤ 1000 →
      ∃ t, exec (.commandCompletion c q n) s = .next t ∧ (t.cell c).core.snaps = [] ∧
        (t.cell c).core.run = .squashing cp ∧ (∃ r ∈ (t.cell c).recs, RecordOf q n e o r) ∧
        (t.part p).cSquash = satAdd (s.part p).cSquash 1 ∧
        (∀ x ∈ allCommands (t.cell c), x.2.seqNo < cp.seqNo) ∧
        (∀ x ∈ allCommands (s.cell c), x.2.seqNo < cp.seqNo → ¬ (x.1 = q.val ∧ x.2.seqNo = n) →
          x ∈ allCommands (t.cell c)) ∧
        (∀ x ∈ allCommands (s.cell c), cp.seqNo ≤ x.2.seqNo → ∃ r ∈ (t.cell c).recs,
          fld r 255 248 = stSquashed ∧ fld r 247 245 = x.1 ∧ fld r 223 192 = x.2.seqNo.toNat ∧ fld r 191 0 = 0) ∧
        (∀ a, ¬ (cellBase c + (s.cell c).provBase ≤ a ∧ a < cellBase c + (s.cell c).provBase + (s.cell c).provSize) →
          t.mem.read1 a = s.mem.read1 a) ∧
        (t.cell c).core.p = (s.cell c).core.p ∧ (t.cell c).me.cur = (s.cell c).me.cur ∧
        (t.cell c).me.pre = (s.cell c).me.pre ∧ (t.cell c).framePos = (s.cell c).framePos ∧
        Only [.cells, .parts, .mem, .free] s t)

namespace Sys2Proof.Claims

/-- Every cell but c is as it was. -/
def OthersKept (c : Fin 34) (s t : State) : Prop := ∀ n, n ≠ c.val → t.cell n = s.cell n

/-- The head of queue q of cell c has left it; the other queues are as they were. -/
def Popped (c : Fin 34) (q : Nat) (s t : State) : Prop :=
  vget (t.cell c).queues q [] = (vget (s.cell c).queues q []).drop 1 ∧
  ∀ k, k ≠ q → vget (t.cell c).queues k [] = vget (s.cell c).queues k []

/-- Of cell c only the queues and the matrix engine differ, and no other cell differs. -/
def MeOnly (c : Fin 34) (s t : State) : Prop :=
  OthersKept c s t ∧ t.cell c = { s.cell c with queues := (t.cell c).queues, me := (t.cell c).me }

/-- Memory at address a reads after a write of bs at base as the write left it. -/
def After (base : Nat) (bs : List Byte) (s : State) (a : Nat) : Byte :=
  if base ≤ a ∧ a < base + bs.length then bs.getD (a - base) 0 else s.mem.read1 a

/-- Every byte outside the written regions of a list is as it was. -/
def KeptOutside (rs : List Region) (s t : State) : Prop :=
  ∀ a, (∀ r ∈ rs, r.wr = true → a < r.base ∨ r.base + r.len ≤ a) → t.mem.read1 a = s.mem.read1 a

/-- No stored word differs from its codeword (09 R246), and no flip-mask is armed (09 R261). -/
def CleanMemory (s : State) : Prop := s.mem.errs = [] ∧ ∀ n, flipArmed (s.stack n).flip = false

/-- A byte string stands at its offset of cell c's store. -/
def Stored (c : Nat) (w : Nat × List Byte) (t : State) : Prop :=
  ∀ j, j < w.2.length → t.mem.read1 (cellBase c + w.1 + j) = w.2.getD j 0

/-- The neighbour's buffer has room before each of the next k tiles of a cell, every 2^v-th of which is sampled (15 R384,
R388). -/
def RoomFor (s : State) (c p k : Nat) : Prop :=
  ∀ j, j < k → (s.cell c).samples.length +
    ((List.range j).filter fun i => decide (((s.cell c).tiles + i) % 2 ^ (s.part p).sampleV.toNat = 0)).length < 64

/-- The cell as a slot of its loop leaves it, the matrix engine apart: the frame position one further, the limiter value in
force (02 R53, R61, R62). -/
def slotTaken (s : State) (c : Nat) (late : Bool) : Cell :=
  let x := s.cell c
  let k := match x.framePos.val, x.kSeen with
    | 0, some (k, t) => if late = true ∧ t = s.dev.interval then k else effectiveK s c
    | 0, none => effectiveK s c
    | _, _ => x.k
  { x with framePos := x.framePos + 1, k := k, kSeen := some (effectiveK s c, s.dev.interval) }

/-- A run after an upset of a narrow accumulator that its row's promotion has not yet read (04 R126). -/
def struck (u : Option Upset) (r : MeRun) : MeRun :=
  let m := meCmd r.entry.word
  match u with
  | none => r
  | some u =>
    let past := match r.rows[u.row]? with | some w => decide (m.stOff + w.first + w.beats < r.beat) | none => false
    if past = true ∨ 512 ≤ u.col ∨ m.kLen / m.run ≤ u.run then r else { r with upsets := r.upsets ++ [u] }

/-- The bytes of the row record a beat fetches: of the stream, or of the streamed tile in the cell's store (04 R106, R121). -/
def fetchBytes (s : State) (c : Nat) (z : MeCtx) (r : MeRun) : List Byte :=
  if z.m.sSrc then (streamOf (s.cell c) z.m).bytes.take (nextBytes z r)
  else s.mem.readN (cellBase c + (32 * z.m.sAddr + 32 + r.rows.length * rowSize z.sf z.m.sKind z.m.kLen)) (nextBytes z r)

/-- A run after the fetch of a beat: the row due enters with its passes and beats, a row that breaks 03 R85 as one beat
(04 R103, R118, R121, R125). -/
def fetched (s : State) (c : Nat) (z : MeCtx) (r : MeRun) : MeRun :=
  let w : MeRow := { first := r.beat, beats := 1, passes := 1, bytes := fetchBytes s c z r, landed := false }
  if fetchDue z.m r = false then r else
  match fetchedBlks z r.rows.length w with
  | some row =>
    { r with rows := r.rows ++ [{ w with
        passes := (rowBeats z.hf z.sf z.m.n z.cols row).1, beats := (rowBeats z.hf z.sf z.m.n z.cols row).2 }] }
  | none => { r with rows := r.rows ++ [w] }

/-- What a beat lands (04 R107, R114, R120, R129): the number of the row, its bytes and the counts of it. -/
def landing (s : State) (c : Nat) (z : MeCtx) (r : MeRun) : Option (Nat × List Byte × Counts) :=
  match writerRow z r, promotedRow z r with
  | some w, some v =>
    (fetchedBlks z v.2 v.1).map fun row =>
      let prior := s.mem.readN (cellBase c + outRow z.m w.2) (if z.m.acc then 4 * z.m.n else 0)
      let o := rowResult z.hf z.sf z.m.run z.m.kLen z.m.outKind z.t.1 (priorsOf z w.2 prior)
        (fun col j a b => upsetOf r v.2 col j a b) z.cols row
      (w.2, rowBytes z.m.outKind o.1,
        ⟨o.2.1 + (if (∀ x ∈ r.rows, x.landed = false) ∧ z.t.2 = true then 1 else 0), o.2.2, 0⟩)
  | _, _ => none

/-- A run after the landing of a beat. -/
def landed (s : State) (c : Nat) (z : MeCtx) (r : MeRun) : MeRun :=
  match landing s c z r with
  | some (i, _, n) => { r with
      before := r.counts, rows := r.rows.modify i fun v => { v with landed := true }, counts := r.counts.add n }
  | none => { r with before := r.counts }

/-- The last beat of a command: every row has been fetched, and the last one's result leaves the drain (04 R120). -/
def lastOf (z : MeCtx) (r : MeRun) : Bool :=
  decide (r.rows.length = z.m.m) && decide (z.m.stOff + vectorsOf r + z.m.resOff ≤ r.beat + 1)

/-- The preload after an issued beat of a KEEP command (04 R111). -/
def loaderMoved (z : MeCtx) (x : Cell) : Option Preload :=
  if z.m.hold = 1 then x.me.pre.map fun p => { p with filled := min p.tile.tags.length (p.filled + 1) } else x.me.pre

/-- The landed rows of a run read zero, all else of memory is as it was (04 R123, R125). -/
def LandedZero (c : Nat) (z : MeCtx) (r : MeRun) (s t : State) : Prop :=
  ∀ a,
    let hit := ∃ (i : Nat) (w : MeRow), r.rows[i]? = some w ∧ w.landed = true ∧ cellBase c + outRow z.m i ≤ a ∧
      a < cellBase c + outRow z.m i + rowPad (esize z.m.outKind) z.m.n
    (hit → t.mem.read1 a = 0) ∧ (¬ hit → t.mem.read1 a = s.mem.read1 a)

/-- Issued and stall beats in AUX (07 R197). -/
def beatsAux (issued stalls : Nat) : Nat := min issued (2 ^ 32 - 1) * 2 ^ 32 + min stalls (2 ^ 32 - 1)

/-- What row i of a vector-engine command takes and computes: replacements counted, inputs, results (05 R149). -/
def veRowOf (s : State) (c : Nat) (v : VeCmd) (i : Nat) : Option (Nat × KIn × KRow) :=
  ((readKIn c v (pairKind (s.cell c) v.func == some 3) i s).1).map fun k =>
    (k.1, k.2, kernelRow v (tableOf (s.cell c) v) i k.2)

/-- What row i of a vector-engine command writes: SAVE, the gate beside it, OUT, and its value in RED (05 R144, R149). -/
def veRowWrites (v : VeCmd) (i : Nat) (k : KRow) : List (Nat × List Byte) :=
  let conv := fun (t : Nat) (l : List Dy) => (convertAll (efmt t) l).2.2
  (if v.saves then rowParts v.save (saveCode v.saveT) v.m v.saveCols i (conv (saveCode v.saveT) k.save) else []) ++
  (if v.saves = true ∧ k.gate ≠ [] then rowParts v.aux2 (saveCode v.saveT) v.m v.l i (conv (saveCode v.saveT) k.gate) else []) ++
  (if v.outEn then rowParts v.out (outCode v.outT) v.m v.outCols i (conv (outCode v.outT) k.y) else []) ++
  (match k.red with | some d => [(v.red + 4 * i, leBytes 4 (code f32 d))] | none => [])

/-- A run of a vector-engine command one row further: its counts (05 R148), and what Q, Q2 and RED still take (05 R145,
R150). -/
def veRowRun (v : VeCmd) (r : VeRun) (x : Nat × KIn × KRow) : VeRun :=
  let k := x.2.2
  let o := convertAll (efmt (outCode v.outT)) k.y
  let sv := if v.saves then convertAll (efmt (saveCode v.saveT)) k.save else (0, 0, [])
  let gt := if v.saves = true ∧ k.gate ≠ [] then convertAll (efmt (saveCode v.saveT)) k.gate else (0, 0, [])
  { r with
    rows := r.rows + 1,
    out := if v.qkind = 0 then r.out else r.out ++ [o.2.2.map (BitVec.ofNat 32)],
    red := if v.kern = 3 then r.red ++ [(k.terms ++ x.2.1.x).map fun d => BitVec.ofNat 32 (code f32 d)] else r.red,
    counts := r.counts.add ⟨x.1 + k.sat + o.1 + sv.1 + gt.1, o.2.1 + sv.2.1 + gt.2.1, 0⟩ }

/-- What a tile of 512 elements of an UPDATE reads: gradient, master, moments, glean (06 R161, R164). -/
def ueInputs (s : State) (c : Nat) (u : UeCmd) (k : Nat) : List (List (BitVec 32)) :=
  let a := 512 * k
  let n := min 512 (u.rows * u.cols - a)
  let at' := fun (use : Bool) (base e : Nat) =>
    if use then codesOf e ((spanRows e u.cols a n).flatMap fun x => s.mem.readN (cellBase c + base + x.1) x.2)
    else List.replicate n 0
  [at' true u.g (esize u.gtype), at' true u.w 2, at' true u.m1 2, at' (decide (u.opt = 1)) u.m2 2,
   at' (decide (u.mode = 1)) u.gl 1].map fun l => l.map (BitVec.ofNat 32)

/-- What a tile of an UPDATE writes (06 R161, R164). -/
def ueTileWrites (u : UeCmd) (k : Nat) (o : List UeOut) : List (Nat × List Byte) :=
  let a := 512 * k
  let n := min 512 (u.rows * u.cols - a)
  spanWrites u.w 2 u.cols a n (o.map UeOut.w) ++ spanWrites u.m1 2 u.cols a n (o.map UeOut.m1) ++
  (if u.opt = 1 then spanWrites u.m2 2 u.cols a n (o.map UeOut.m2) else []) ++
  (if u.mode = 1 then spanWrites u.gl 1 u.cols a n (o.map UeOut.gl) else [])

/-- An UPDATE after its first k tiles. -/
def ueAfter (out : Nat → List UeOut) (r : UeRun) (k : Nat) : UeRun :=
  (List.range k).foldl (fun r i => { r with
    tile := i + 1, out := r.out ++ (out i).map (fun x => BitVec.ofNat 16 x.w),
    counts := r.counts.add ⟨sumN ((out i).map UeOut.sat), sumN ((out i).map UeOut.flu), 0⟩ }) r

end Sys2Proof.Claims

/-- MMUL (04 R110 to R112, R125): the eligible command at the head of the queue leaves it. One that breaks R110, or
whose own-store prefix is no tensor scale, completes with OUT_OF_RANGE. HOLD LOAD makes the tile at H_ADDR current and
starts its load beats, KEEP starts none, SWAP makes the pending preload current. A prefix of the held tile that is no
tensor scale ends a LOAD or SWAP with OUT_OF_RANGE and no other effect; a tile that breaks R85 leaves the planes,
under LOAD ends at the beat that loads the broken row, under SWAP discards the preload and ends at once or after its
load (log entry 38). HPRELOAD (04 R111): it completes as it leaves the queue, with OUT_OF_RANGE under the conditions
of R111, otherwise with OK and the tile at H_ADDR pending for the idle plane, none of its rows filled. -/
def Obligations.HeldTilesTaken : Prop :=
  (∀ (c : Fin 34) (p : Nat) (e : QEntry) (s : State), eligible s c 0 = some (p, e) → fld e.word 255 252 ≠ 2 →
     (s.cell c).me.run = none → (s.cell c).me.done = none → s.mem.errs = [] →
     ∃ t, exec (.mmul c) s = .next t ∧ Only [.cells] s t ∧ MeOnly c s t ∧ Popped c 0 s t ∧
       let m := meCmd e.word
       let me := (s.cell c).me
       let prefixOk := m.sSrc = true ∨ scaleOk (tileScale (s.mem.readN (cellBase c + 32 * m.sAddr) 32)) = true
       let tile := m.tile (s.mem.readN (cellBase c + m.hAddr) (heldBytes m)) (cmdTag 0 e.word)
       ((mmulRange (s.cell c) m = true ∨ ¬ prefixOk) →
         (t.cell c).me = { me with done := some (e, mkDone stRange Counts.reset 0) }) ∧
       (mmulRange (s.cell c) m = false → prefixOk →
         (m.hold = 0 → scaleOk (tileScale tile.bytes) = false →
           (t.cell c).me = { me with done := some (e, mkDone stRange Counts.reset 0) }) ∧
         (m.hold = 0 → scaleOk (tileScale tile.bytes) = true → brokenRow tile = none →
           (t.cell c).me = { me with
             cur := some tile, pre := none,
             run := some (startMe me e (tile.tags.length * (if twoPlanes tile then 2 else 1)) false
               (some (BitVec.ofNat 2 (cmdTag 0 e.word)))) }) ∧
         (∀ i, m.hold = 0 → scaleOk (tileScale tile.bytes) = true → brokenRow tile = some i →
           (t.cell c).me = { me with run := some (startMe me e (i + 1) true none) }) ∧
         (m.hold = 1 → (t.cell c).me = { me with run := some (startMe me e 0 false none) }) ∧
         (∀ x : Preload, m.hold = 2 → me.pre = some x →
           let load := x.tile.tags.length - x.filled + (if x.needsTail then x.tile.tags.length else 0)
           (scaleOk (tileScale x.tile.bytes) = false →
             (t.cell c).me = { me with done := some (e, mkDone stRange Counts.reset 0) }) ∧
           (scaleOk (tileScale x.tile.bytes) = true → brokenRow x.tile = none →
             (t.cell c).me = { me with
               cur := some x.tile, pre := none, run := some (startMe me e load false (some x.tag)) }) ∧
           (∀ i, scaleOk (tileScale x.tile.bytes) = true → brokenRow x.tile = some i →
             (i < x.filled →
               (t.cell c).me = { me with pre := none, done := some (e, mkDone stRange Counts.reset 0) }) ∧
             (x.filled ≤ i →
               (t.cell c).me = { me with pre := none, run := some (startMe me e load true none) }))))) ∧
  (∀ (c : Fin 34) (p : Nat) (e : QEntry) (s : State), eligible s c 0 = some (p, e) → fld e.word 255 252 = 2 →
     (s.cell c).me.run = none → (s.cell c).me.done = none → s.mem.errs = [] →
     ∃ t, exec (.hpreload c) s = .next t ∧ Only [.cells] s t ∧ MeOnly c s t ∧ Popped c 0 s t ∧
       let m := meCmd e.word
       let me := (s.cell c).me
       let tile := m.tile (s.mem.readN (cellBase c + m.hAddr) (heldBytes m)) (cmdTag 0 e.word)
       (preloadRange (s.cell c) e.word m = true →
         (t.cell c).me = { me with done := some (e, mkDone stRange Counts.reset 0) }) ∧
       (preloadRange (s.cell c) e.word m = false → ∃ x : Preload,
         (t.cell c).me = { me with pre := some x, done := some (e, mkDone stOk Counts.reset 0) } ∧
         x.tile = tile ∧ x.tag = BitVec.ofNat 2 (cmdTag 0 e.word) ∧ x.filled = 0 ∧
           (x.invalid = true ↔ (brokenRow tile).isSome = true) ∧ x.needsTail = twoPlanes tile))

/-- SLOT_BEGIN (02 R51, R53, R61, R62, R65; 04 R112, R126): the frame position advances by one modulo 64 and the limiter
value is taken at position 0, put off only for a change of that very instant; an upset enters the run. A slot that is not
issued does nothing else; an issued slot is a load beat while load beats are left, the last of a tile that breaks R85 ends in
OUT_OF_RANGE; a beat whose stream row is held, or has not come with nothing to feed the stream, stalls. A loop with no
command performs no slot, and none while the command waits for a command that is to feed its stream (log entry 92). -/
def Obligations.SlotOfTheLoop : Prop :=
  ∀ (c : Fin 34) (p : Nat) (held : Option HoldCause) (late : Bool) (u : Option Upset) (s : State), s.works c = some p →
    let hold := match held with | some h => holdInForce s p h | none => false
    let x := s.cell c
    let y := slotTaken s c late
    let slot := slotIssued y.k x.framePos.val
    (x.me.run = none → eligible s c 0 = none → exec (.slotBegin c held late u) s = .next s) ∧
    (∀ q, x.me.run = none → eligible s c 0 = some q →
      ∃ t, exec (.slotBegin c held late u) s = .next t ∧ Only [.cells] s t ∧ OthersKept c s t ∧ t.cell c = y) ∧
    (awaitsFeeder s c hold = true → exec (.slotBegin c held late u) s = .next s) ∧
    ∀ r₀, x.me.run = some r₀ → awaitsFeeder s c hold = false →
      let r := struck u r₀
      ∃ t, exec (.slotBegin c held late u) s = .next t ∧
        (slot = false → Only [.cells] s t ∧ OthersKept c s t ∧ t.cell c = { y with me := { x.me with run := some r } }) ∧
        (slot = true → 0 < r.load → ¬ (r.load = 1 ∧ r.bad = true) →
          Only [.cells] s t ∧ OthersKept c s t ∧
          t.cell c = { y with me := { x.me with run := some { r with load := r.load - 1, issued := r.issued + 1 } } }) ∧
        (slot = true → r.load = 1 → r.bad = true →
          Only [.cells] s t ∧ OthersKept c s t ∧
          t.cell c = { y with me := { x.me with run := none, done := some (r.entry, mkDone stRange Counts.reset
            (beatsAux (r.issued + 1) r.stalls)) } }) ∧
        (∀ z, slot = true → r.load = 0 → meCtx s c r = some z → z.m.sSrc = true →
          (streamOf x z.m).failed = false → fetchDue z.m r = true →
          (hold = true ∨ (streamOf x z.m).bytes.length < nextBytes z r) →
          Only [.cells] s t ∧ OthersKept c s t ∧
          t.cell c = { y with me := { x.me with run := some { r with stalls := r.stalls + 1 } } })

/-- A beat of a product (04 R107, R111, R114, R120, R121, R125, R129): in an issued slot past the load beats, its stream
neither failed nor wanting, the row due is fetched. With no fault found, the row that the writer expects is landed, its bytes
written and its counts added, and the command goes on to its next beat, or at its last beat completes with OK, its counts and
its beats. A row that breaks R85, found a beat after its fetch, ends it with OUT_OF_RANGE and zero over the rows landed. -/
def Obligations.BeatOfTheProduct : Prop :=
  ∀ (c : Fin 34) (p : Nat) (held : Option HoldCause) (late : Bool) (u : Option Upset) (r₀ : MeRun) (z y : MeCtx) (s : State),
    s.works c = some p → s.mem.errs = [] → (s.cell c).me.run = some r₀ → (struck u r₀).load = 0 →
    let hold := match held with | some h => holdInForce s p h | none => false
    let x := s.cell c
    let r := struck u r₀
    let f := fetched s c z r
    slotIssued (slotTaken s c late).k x.framePos.val = true → meCtx s c r = some z → meCtx s c f = some y →
    (z.m.sSrc = true → (streamOf x z.m).failed = false ∨ r.rows.length = z.m.m) →
    (z.m.sSrc = true → fetchDue z.m r = true → hold = false ∧ nextBytes z r ≤ (streamOf x z.m).bytes.length) →
    (z.m.sSrc = true → r.beat = 0 → scaleOk (tileScale (streamOf x z.m).bytes) = true) →
    (f.rows.zipIdx.any fun w => decide (lastBeat y.m w.1 + 1 = f.beat) && residueFault y f w.2 w.1) = false →
    planeFault x f = false → arrayFault y f = false → writerFault y f = false →
    ∃ t, exec (.slotBegin c held late u) s = .next t ∧ Only [.cells, .mem] s t ∧ OthersKept c s t ∧
      t.cell c = { slotTaken s c late with me := (t.cell c).me } ∧
      (t.cell c).me = { x.me with
        pre := loaderMoved y x, streams := (t.cell c).me.streams, run := (t.cell c).me.run, done := (t.cell c).me.done } ∧
      (∀ n, mapGet ⟨[], false⟩ (t.cell c).me.streams n =
        if z.m.sSrc = true ∧ fetchDue z.m r = true ∧ n = z.m.sAddr
        then { streamOf x z.m with bytes := (streamOf x z.m).bytes.drop (nextBytes z r) }
        else mapGet ⟨[], false⟩ x.me.streams n) ∧
      (rowBroken y f = true → LandedZero c y f s t ∧ (t.cell c).me.run = none ∧
        (t.cell c).me.done = some (f.entry, mkDone stRange (finalCounts y f f.beat) (beatsAux (f.issued + 1) f.stalls))) ∧
      (rowBroken y f = false →
        (∀ i bs n, landing s c y f = some (i, bs, n) →
          ∀ a, t.mem.read1 a = After (cellBase c + outRow y.m i) bs s a) ∧
        (landing s c y f = none → ∀ a, t.mem.read1 a = s.mem.read1 a) ∧
        let g := landed s c y f
        (lastOf y g = true → (t.cell c).me.run = none ∧ (t.cell c).me.done =
          some (g.entry, mkDone stOk (finalCounts y g g.beat) (beatsAux (g.issued + 1) g.stalls))) ∧
        (lastOf y g = false → (t.cell c).me.done = x.me.done ∧
          (t.cell c).me.run = some { g with beat := g.beat + 1, issued := g.issued + 1 }))

/-- The early ends of a product (04 R110, R122 to R127; 15 R389). A failed stream ends it with OUT_OF_RANGE, zero over the
rows landed, and the mark cleared; a streamed prefix that is no tensor scale ends it before beat 0 with the planes as it found
them. A residue mismatch, or else a tag fault, writes the record with its status and counts, with the event of it, and stops
the partition; of memory only the output region and provisional regions of the partition's cells may differ. -/
def Obligations.EarlyEndsOfTheProduct : Prop :=
  ∀ (c : Fin 34) (p : Nat) (held : Option HoldCause) (late : Bool) (u : Option Upset) (r₀ : MeRun) (z : MeCtx) (s : State),
    s.works c = some p → s.mem.errs = [] → (s.cell c).me.run = some r₀ → (struck u r₀).load = 0 →
    let hold := match held with | some h => holdInForce s p h | none => false
    let x := s.cell c
    let r := struck u r₀
    let w := streamOf x z.m
    slotIssued (slotTaken s c late).k x.framePos.val = true → meCtx s c r = some z →
    (z.m.sSrc = true → w.failed = true → r.rows.length ≠ z.m.m →
      ∃ t, exec (.slotBegin c held late u) s = .next t ∧ Only [.cells, .mem] s t ∧ OthersKept c s t ∧ LandedZero c z r s t ∧
        streamOf (t.cell c) z.m = { w with failed := false } ∧ (t.cell c).me.cur = x.me.cur ∧
        (t.cell c).me.pre = x.me.pre ∧ (t.cell c).me.run = none ∧ (t.cell c).me.done = some (r.entry, mkDone stRange
          (if r.beat = 0 then Counts.reset else finalCounts z { r with counts := r.before } (r.beat - 1))
          (beatsAux r.issued r.stalls))) ∧
    (z.m.sSrc = true → w.failed = false → hold = false → fetchDue z.m r = true → nextBytes z r ≤ w.bytes.length →
      r.beat = 0 → scaleOk (tileScale w.bytes) = false →
      ∃ t, exec (.slotBegin c held late u) s = .next t ∧ Only [.cells] s t ∧ OthersKept c s t ∧
        t.cell c = { slotTaken s c late with me := { x.me with
          cur := r.saved.1, pre := r.saved.2, run := none,
          done := some (r.entry, mkDone stRange Counts.reset (beatsAux r.issued r.stalls)) } }) ∧
    (∀ y, meCtx s c (fetched s c z r) = some y →
      (z.m.sSrc = true → w.failed = false ∨ r.rows.length = z.m.m) →
      (z.m.sSrc = true → fetchDue z.m r = true → hold = false ∧ nextBytes z r ≤ w.bytes.length) →
      (z.m.sSrc = true → r.beat = 0 → scaleOk (tileScale w.bytes) = true) → (unrecorded x).length ≤ 1000 →
      let f := fetched s c z r
      let residue := f.rows.zipIdx.any fun w => decide (lastBeat y.m w.1 + 1 = f.beat) && residueFault y f w.2 w.1
      let st := if residue then stResidue else stSched
      residue = true ∨ planeFault x f = true ∨ arrayFault y f = true ∨ writerFault y f = true →
      ∃ t, exec (.slotBegin c held late u) s = .next t ∧ (t.cell c).me.run = none ∧ (t.part p).st = 2 ∧
        eventWritten (if residue then 0x01 else 0x03) s t ∧
        (∃ b ∈ (t.cell c).recs, fld b 255 248 = st ∧ fld b 247 245 = 0 ∧ fld b 223 192 = f.entry.seqNo.toNat ∧
          fld b 191 160 = min (finalCounts y f f.beat).sat (2 ^ 32 - 1) ∧
          fld b 159 128 = min (finalCounts y f f.beat).flu (2 ^ 32 - 1) ∧
          fld b 127 96 = min (finalCounts y f f.beat).awn (2 ^ 32 - 1) ∧
          fld b 63 0 = beatsAux (f.issued + 1) f.stalls) ∧
        (∀ n, n ∉ s.cellsOf p → t.cell n = s.cell n) ∧ (∀ q, q ≠ p → t.part q = s.part q) ∧
        (∀ a, ¬ (cellBase c + y.m.outAddr ≤ a ∧ a < cellBase c + y.m.outAddr + outBytes y.m) →
          (∀ d ∈ s.cellsOf p, ¬ (cellBase d + (s.cell d).provBase ≤ a ∧
            a < cellBase d + (s.cell d).provBase + (s.cell d).provSize)) → t.mem.read1 a = s.mem.read1 a) ∧
        Only [.cells, .parts, .nv, .dev, .eop, .out, .ports, .ring, .mem, .free] s t)

/-- VKERN (05 R142 to R150; 15 R388): the eligible command leaves the queue. One that breaks R146 completes with
OUT_OF_RANGE; a joined one waits for its MMUL with no row done; any other runs its rows while the neighbour's buffer has room,
writing of each row SAVE, OUT and RED, and after the last one Q, Q2 and the column reductions, and completes with OK and the
sum of its counts. -/
def Obligations.VkernCompletes : Prop :=
  ∀ (c : Fin 34) (p : Nat) (e : QEntry) (s : State), eligible s c 1 = some (p, e) → (s.cell c).ve.run = none →
    (s.cell c).ve.done = none → s.mem.errs = [] →
    ∃ t, exec (.vkern c) s = .next t ∧ OthersKept c s t ∧ Popped c 1 s t ∧
      let x := s.cell c
      let a := 32 * fld e.word 92 73
      let v := veCmd e.word (prmAt s c a)
      let start := { VeRun.reset with entry := e, prm := BitVec.ofNat 512 (prmAt s c a) }
      ((a + 64 > cellSize ∨ veRange x c e v = true) → Only [.cells] s t ∧
        t.cell c = { x with queues := (t.cell c).queues, ve := { x.ve with done := some (e, mkDone stRange Counts.reset 0) } }) ∧
      (a + 64 ≤ cellSize → veRange x c e v = false → v.join = true → Only [.cells] s t ∧
        t.cell c = { x with queues := (t.cell c).queues, ve := { x.ve with run := some { start with
          joined := (joinedOf x e.seqNo).map Prod.fst } } }) ∧
      (a + 64 ≤ cellSize → veRange x c e v = false → v.join = false → Only [.cells, .mem] s t ∧
        ∃ rows : List (Nat × KIn × KRow), (List.range v.m).map (veRowOf s c v) = rows.map some ∧
          let after := fun k => (rows.take k).foldl (veRowRun v) start
          (RoomFor s c p v.m →
            t.cell c = { x with
              queues := (t.cell c).queues, tiles := x.tiles + v.m, samples := (t.cell c).samples,
              ve := { x.ve with
                done := some (e, mkDone stOk ((after v.m).counts.add (veTail v (after v.m)).2) 0) } } ∧
            (∀ i y, rows[i]? = some y → ∀ w ∈ veRowWrites v i y.2.2, Stored c w t) ∧
            ∀ w ∈ (veTail v (after v.m)).1, Stored c w t) ∧
          ∀ k, k < v.m → RoomFor s c p k → ¬ RoomFor s c p (k + 1) →
            t.cell c = { x with
              queues := (t.cell c).queues, tiles := x.tiles + k, samples := (t.cell c).samples,
              ve := { x.ve with run := some (after k) } } ∧
            ∀ i y, i < k → rows[i]? = some y → ∀ w ∈ veRowWrites v i y.2.2, Stored c w t)

/-- VE_JOIN_ROW (05 R147; 15 R388): a joined command takes its next row once the MMUL it names has landed that row or
completed and the neighbour's buffer has room, and writes what the row gives; with the last row it writes Q, Q2 and the column
reductions and completes with OK and its counts. Before that nothing changes. If the MMUL ends with another status than OK or
FALLBACK_TAKEN, the command completes with that status, and only its output regions may differ. -/
def Obligations.VeJoinRowFollowsTheMmul : Prop :=
  ∀ (c : Fin 34) (p : Nat) (r : VeRun) (j : BitVec 32) (s : State), s.works c = some p → (s.cell c).ve.run = some r →
    r.joined = some j → s.mem.errs = [] →
    let x := s.cell c
    let v := veCmd r.entry.word r.prm.toNat
    let rs := (veRegions c (pairKind x v.func == some 3) v).drop 1
    let ok := mmulStatus x j = some stOk ∨ mmulStatus x j = some stFallback
    (∀ st, mmulStatus x j = some st → ¬ ok → ∃ t, exec (.veJoinRow c) s = .next t ∧ Only [.cells, .mem, .free] s t ∧
      OthersKept c s t ∧ KeptOutside rs s t ∧
      t.cell c = { x with ve := { x.ve with run := none, done := some (r.entry, mkDone st r.counts 0) } }) ∧
    (mmulStatus x j = none → mmulLanded x j r.rows = false → exec (.veJoinRow c) s = .next s) ∧
    ((ok ∨ mmulStatus x j = none) → 64 ≤ x.samples.length → exec (.veJoinRow c) s = .next s) ∧
    (∀ y, (ok ∨ mmulStatus x j = none ∧ mmulLanded x j r.rows = true) → x.samples.length < 64 → r.rows < v.m →
      regionsBad c rs = false → veRowOf s c v r.rows = some y →
      let after := veRowRun v r y
      ∃ t, exec (.veJoinRow c) s = .next t ∧ Only [.cells, .mem] s t ∧ OthersKept c s t ∧
        t.cell c = { x with ve := (t.cell c).ve, tiles := x.tiles + 1, samples := (t.cell c).samples } ∧
        (∀ w ∈ veRowWrites v r.rows y.2.2, Stored c w t) ∧
        (r.rows + 1 < v.m → (t.cell c).ve = { x.ve with run := some after }) ∧
        (v.m = r.rows + 1 → (∀ w ∈ (veTail v after).1, Stored c w t) ∧
          (t.cell c).ve = { x.ve with
            run := none, done := some (r.entry, mkDone stOk (after.counts.add (veTail v after).2) 0) }))

/-- QUANT (07 R195, R196): out of range it completes with OUT_OF_RANGE and writes nothing; otherwise it reads the
source row by row, writes the planes of the quantised tensor at DST and nothing else, and completes with OK, the three
counts, and under HASH_EN the content hash of the planes in AUX. UPDATE, REQUANT and RBITS (06 R159 to R164, R172,
R176; 15 R388): the eligible command leaves the queue. One that breaks R160 or R162 completes with OUT_OF_RANGE and no
effect. UPDATE writes masters, moments and glean of its tiles of 512 elements while the neighbour's buffer has room,
then both copies of the master if asked, and completes with OK and the sum of its counts; REQUANT writes both copies
of the master tile; RBITS writes the random words of the tile at W. -/
def Obligations.QuantizeAndUpdateEngines : Prop :=
  (∀ (c : Fin 34) (p : Nat) (e : QEntry) (s : State), eligible s c 2 = some (p, e) → (s.cell c).qe.done = none →
     s.mem.errs = [] →
     ∃ t d, exec (.quant c) s = .next t ∧ OthersKept c s t ∧ Popped c 2 s t ∧
       t.cell c = { s.cell c with queues := (t.cell c).queues, qe := { done := some (e, d) } } ∧
       let m := qeCmd e.word
       (qeRange s c e m = true → Only [.cells] s t ∧ d = mkDone stRange Counts.reset 0) ∧
       (qeRange s c e m = false → Only [.cells, .mem] s t ∧ ∃ n rows,
         (readRows c m.src m.srcT m.m m.l m.m 0 0 s).1 = some (n, rows) ∧
         let q := quantOut m.fmt m.kind m.axis m.ts m.l rows
         (∀ a, t.mem.read1 a = After (cellBase c + m.dst) q.1 s a) ∧
         d = ⟨0, ⟨n + q.2.sat, q.2.flu, q.2.awn⟩, if m.hash then contentHash q.1 else 0⟩)) ∧
  (∀ (c : Fin 34) (p : Nat) (e : QEntry) (s : State) (i : Instr), eligible s c 3 = some (p, e) →
     (s.cell c).ue.done = none → (s.cell c).ue.run = none → s.mem.errs = [] →
     let op := fld e.word 255 252
     ((i = .update c ∧ op ≠ 2 ∧ op ≠ 3) ∨ (i = .requant c ∧ op = 2) ∨ (i = .rbits c ∧ op = 3)) →
     ∃ t, exec i s = .next t ∧ OthersKept c s t ∧ Popped c 3 s t ∧
       let x := s.cell c
       let a := 32 * fld e.word 62 43
       let u := ueCmd e.word (prmAt s c a)
       let seed := (s.part p).seed
       let ended := fun (st : Nat) (n : Counts) => t.cell c = { x with
         queues := (t.cell c).queues, ue := { x.ue with done := some (e, mkDone st n 0) } }
       ((a + 64 > cellSize ∨ ueRange c u = true) → Only [.cells] s t ∧ ended stRange Counts.reset) ∧
       (a + 64 ≤ cellSize → ueRange c u = false → Only [.cells, .mem] s t ∧
         (op = 3 → ended stOk Counts.reset ∧ ∀ f, fmtOf u.fmtF = some f → ∀ b,
           t.mem.read1 b = After (cellBase c + u.w)
             (((List.range u.rows).flatMap (rowWords seed u f.blk u.purp)).flatMap (leBytes 16)) s b) ∧
         (op = 2 →
           let cp := copiesOf u (tileCodes 2 u.rows u.cols (s.mem.readN (cellBase c + u.w) u.tile))
           ended stOk ⟨cp.2.sat, cp.2.flu, cp.2.awn⟩ ∧ ∀ w ∈ cp.1, Stored c w t) ∧
         (op ≠ 2 → op ≠ 3 →
           let n := ceilDiv (u.rows * u.cols) 512
           let out := fun k => ueElems seed u k (ueInputs s c u k)
           let after := ueAfter out { UeRun.reset with entry := e, prm := BitVec.ofNat 512 (prmAt s c a) }
           let cp := copiesOf u ((after n).out.map BitVec.toNat)
           (RoomFor s c p n →
             t.cell c = { x with
               queues := (t.cell c).queues, tiles := x.tiles + n, samples := (t.cell c).samples,
               ue := { x.ue with
                 done := some (e, mkDone stOk ((after n).counts.add ⟨cp.2.sat, cp.2.flu, cp.2.awn⟩) 0) } } ∧
             (∀ k, k < n → ∀ w ∈ ueTileWrites u k (out k), Stored c w t) ∧ ∀ w ∈ cp.1, Stored c w t) ∧
           (∀ k, k < n → RoomFor s c p k → ¬ RoomFor s c p (k + 1) →
             t.cell c = { x with
               queues := (t.cell c).queues, tiles := x.tiles + k, samples := (t.cell c).samples,
               ue := { x.ue with run := some (after k) } } ∧
             ∀ m, m < k → ∀ w ∈ ueTileWrites u m (out m), Stored c w t))))

/-- The quantize and the update engine change no byte outside the output regions of their command (07 R200). A
vector-engine command that is not joined changes no byte outside its output regions (05 R144, 07 R200). -/
def Obligations.EnginesStoreOnlyTheirRegions : Prop :=
  (∀ (c : Fin 34) (q p : Nat) (e : QEntry) (i : Instr) (s t : State),
     (q, i) ∈ [(2, Instr.quant c), (3, .update c), (3, .requant c), (3, .rbits c)] →
     eligible s c q = some (p, e) → s.mem.errs = [] → exec i s = .next t →
     KeptOutside (regionsOf s c q e.word) s t) ∧
  (∀ (c : Fin 34) (p : Nat) (e : QEntry) (s t : State), eligible s c 1 = some (p, e) → s.mem.errs = [] →
     flag e.word 213 = false → exec (.vkern c) s = .next t → KeptOutside (regionsOf s c 1 e.word) s t)

namespace Sys2Proof.Claims

/-- The memory commands of the data mover with no failing part: command and opcode (09 R263). -/
def moverTable (c : Fin 34) : List (Instr × Nat) :=
  [(.copy c [], 1), (.gather c [], 2), (.scatter c [], 3), (.dmAdd c [], 4), (.mxImport c [], 5), (.mxExport c [], 6),
   (.fill c [], 7)]

/-- The data-mover command of a queue entry with its parameter record, where it has one. -/
def moverCmd (s : State) (c : Fin 34) (e : QEntry) : DmCmd :=
  let w := dmCmd e.word 0
  if w.usesPrm then dmCmd e.word (prmAt s c w.prm) else w

/-- Of cell c only the queues, the commands in progress on the data mover and the stream inputs differ. -/
def MoverOnly (c : Fin 34) (s t : State) : Prop :=
  OthersKept c s t ∧ t.cell c = { s.cell c with
    queues := (t.cell c).queues, dm := (t.cell c).dm, me := { (s.cell c).me with streams := (t.cell c).me.streams } }

/-- Of the partitions only which persistent instances have been written differs (16 R403). -/
def TouchedOnly (s t : State) : Prop :=
  ∀ p, t.part p = { s.part p with det := { (s.part p).det with touched := (t.part p).det.touched } }

/-- An MX command meets no special value and no scale out of range (03 R96, R97). -/
def MxClean (s : State) (p c : Nat) (d : DmCmd) : Prop :=
  (d.opc = 5 → ∃ f el sc, fmtOf d.fmt = some f ∧ (readSpace p c d.sspace d.saddr d.srcBytes s).1 = some el ∧
    (readSpace p c d.sspace d.xaddr (mxScaleBytes d.odim d.kdim) s).1 = some sc ∧ (mxImportBlks f d el sc).isSome = true) ∧
  (d.opc = 6 → ∃ f k bs, fmtOf d.fmt = some f ∧ powerOfTwo d.ts = some k ∧
    (readSpace p c d.sspace d.saddr d.srcBytes s).1 = some bs ∧
    ∀ b, b < d.odim * (d.kdim / 32) →
      (mxExportBlk f d k (planeBlk f 0 (planeOffs (d.odim * (d.kdim / 32)) 0 (planeBytes f 0)) bs b)).isSome = true)

/-- The bytes of a range of a space (09 R264). -/
def spaceBytes (s : State) (p c sp a n : Nat) : List Byte :=
  (devRanges s p c sp a n).flatMap fun r => s.mem.readN r.1 r.2

/-- A byte string stands at a range of a space. -/
def LandedAt (s t : State) (p c sp a : Nat) (bs : List Byte) : Prop :=
  ∀ w ∈ cutBytes (devRanges s p c sp a bs.length) bs, ∀ j, j < w.2.length → t.mem.read1 (w.1 + j) = w.2.getD j 0

/-- A byte string delivered at the destination of a command: behind what the stream input held, or in memory. -/
def Delivered (s t : State) (p c : Nat) (d : DmCmd) (bs : List Byte) : Prop :=
  if d.dspace = 4 then
    let w := mapGet ⟨[], false⟩ (s.cell c).me.streams d.daddr
    mapGet ⟨[], false⟩ (t.cell c).me.streams d.daddr = { w with bytes := w.bytes ++ bs }
  else LandedAt s t p c d.dspace d.daddr bs

/-- The codes a sum writes for source bytes over the codes it finds, with its counts (09 R272). -/
def addedTo (d : DmCmd) (src dst : List Byte) : List Byte × Counts :=
  let xs := codesOf d.ssize src
  let r := List.zipWith (addElem d) (if d.init then List.replicate xs.length 0 else codesOf d.asize dst) xs
  (r.flatMap fun x => leBytes d.asize x.1, ⟨sumN (r.map fun x => x.2.1), sumN (r.map fun x => x.2.2), 0⟩)

/-- Two lists of ranges share no byte. -/
def Apart (l m : List (Nat × Nat)) : Prop := ∀ x ∈ l, ∀ y ∈ m, x.1 + x.2 ≤ y.1 ∨ y.1 + y.2 ≤ x.1

/-- A frame is on its way at a port: it waits in the port's queue, or has left on the fibre. -/
def OnItsWay (t : State) (port : Nat) (f : VrtFrame) : Prop :=
  f ∈ (t.port port).txq ∨ ∃ h l, (port, { sealFrame { f with hseq := h } with link := l }) ∈ t.out.ring

/-- No transfer under way has one of the next 2³¹ transfer ids. -/
def FreshXids (s : State) : Prop := ∀ z ∈ s.ring.tx, 2 ^ 31 ≤ (z.xid - s.ring.nextXid).toNat

end Sys2Proof.Claims

/-- The memory commands of the data mover (09 R263 to R270): an eligible command that R264 and R268 do not refuse,
whose parts all pass their link checks, leaves the queue and reaches OK with no part failed. An ordered ADD is the
subject of another statement. A command that meets a channel a retrain holds waits (09 R258). What the memory commands
write (09 R262, R266, R272; 03 R95 to R97; 04 R106): COPY the source bytes as they were, FILL zeros, GATHER the tile
staged from its rows, SCATTER each row of the tile at its place, ADD the rounded sums, an import the planes of the MX
tensor, an export its element and scale arrays; ADD and the export give their counts. Every byte outside the
destination is as it was. -/
def Obligations.MoverCommandsComplete : Prop :=
  (∀ (c : Fin 34) (p : Nat) (e : QEntry) (s : State), eligible s c 4 = some (p, e) → (s.cell c).dm.length < 16 →
     (waitsHeld s c e = true → ∀ r ∈ moverTable c, exec r.1 s = .next s) ∧
     (waitsHeld s c e = false → CleanMemory s → ∀ r ∈ moverTable c, fld e.word 255 252 = r.2 →
       let d := moverCmd s c e
       (d.usesPrm = true → d.prm + 64 ≤ cellSize) → dmRefusal s p c d = 0 → (r.2 = 4 → d.ord = false) → MxClean s p c d →
       ∃ t y o, exec r.1 s = .next t ∧ Only [.cells, .mem, .parts] s t ∧ MoverOnly c s t ∧ Popped c 4 s t ∧ TouchedOnly s t ∧
         (t.cell c).dm = (s.cell c).dm ++ [y] ∧ y.entry = e ∧ y.failed = [] ∧ y.waiting = [] ∧ y.done = some o ∧ o.status = 0 ∧
         (d.dspace ≠ 4 → (t.cell c).me = (s.cell c).me))) ∧
  (∀ (c : Fin 34) (p : Nat) (e : QEntry) (s : State), eligible s c 4 = some (p, e) → (s.cell c).dm.length < 16 →
     waitsHeld s c e = false → CleanMemory s → ∀ r ∈ moverTable c, fld e.word 255 252 = r.2 →
       let d := moverCmd s c e
       (d.usesPrm = true → d.prm + 64 ≤ cellSize) → dmRefusal s p c d = 0 → (r.2 = 4 → d.ord = false) → MxClean s p c d →
       let src := spaceBytes s p c d.sspace d.saddr d.srcBytes
       ∃ t y o, exec r.1 s = .next t ∧ (t.cell c).dm = (s.cell c).dm ++ [y] ∧ y.done = some o ∧
         (∀ a, (∀ x ∈ destRanges s p c d, a < x.1 ∨ x.1 + x.2 ≤ a) → t.mem.read1 a = s.mem.read1 a) ∧
         (r.2 = 1 → Delivered s t p c d src) ∧ (r.2 = 7 → Delivered s t p c d (zeros d.len)) ∧
         (r.2 = 4 → ((devRanges s p c d.dspace d.daddr d.dstBytes).length = 1 ∨
             Apart (devRanges s p c d.sspace d.saddr d.srcBytes) (devRanges s p c d.dspace d.daddr d.dstBytes)) →
           let z := addedTo d src (spaceBytes s p c d.dspace d.daddr d.dstBytes)
           LandedAt s t p c d.dspace d.daddr z.1 ∧ o.counts = z.2) ∧
         ∀ f, fmtOf d.fmt = some f →
           (r.2 = 2 → Delivered s t p c d (stagedTile d ((List.range 6).map fun k =>
             (planeRows f d k).map fun x => spaceBytes s p c d.sspace (d.saddr + x.off) x.len))) ∧
           (r.2 = 3 → ∀ k i x, k < 6 → (planeRows f d k)[i]? = some x →
             LandedAt s t p c d.dspace (d.daddr + x.off)
               (slice src ((planeOffs (d.rows * (d.klen / f.blk)) 0 (planeBytes f d.tkind)).getD k 0 + i * x.len) x.len)) ∧
           (r.2 = 5 → ∀ b, mxImportBlks f d src (spaceBytes s p c d.sspace d.xaddr (mxScaleBytes d.odim d.kdim)) = some b →
             LandedAt s t p c d.dspace d.daddr (planesOf f 0 b)) ∧
           (r.2 = 6 → ∀ k l, powerOfTwo d.ts = some k →
             let n := d.odim * (d.kdim / 32)
             ((List.range n).mapM fun b => mxExportBlk f d k (planeBlk f 0 (planeOffs n 0 (planeBytes f 0)) src b)) = some l →
             Apart (devRanges s p c d.dspace d.daddr d.dstBytes) (devRanges s p c d.dspace d.xaddr n) →
             let codes := l.flatMap fun b => b.2
             LandedAt s t p c d.dspace d.daddr (leBytes d.dstBytes (packCodes (mxBits d.mxf) (codes.map Prod.fst))) ∧
             LandedAt s t p c d.dspace d.xaddr (l.map fun b => BitVec.ofNat 8 b.1) ∧
             o.counts = ⟨sumN (codes.map fun x => x.2.1), sumN (codes.map fun x => x.2.2), 0⟩))

/-- A refused memory command (09 R264, R268; 04 R123): it leaves the queue with the status of the refusal and writes
nothing; a reserved opcode is OUT_OF_RANGE, and so is a record outside the cell's store, unless a cell it names is absent. A
command whose destination is a stream input marks that input failed. -/
def Obligations.RefusedMoverCommands : Prop :=
  ∀ (c : Fin 34) (p : Nat) (e : QEntry) (s : State), eligible s c 4 = some (p, e) → (s.cell c).dm.length < 16 →
    s.mem.errs = [] → waitsHeld s c e = false → ∀ r ∈ moverTable c,
      (fld e.word 255 252 = r.2 ∨ r.2 = 1 ∧ (fld e.word 255 252 = 0 ∨ 12 ≤ fld e.word 255 252)) →
      let w := dmCmd e.word 0
      let d := moverCmd s c e
      let outside := w.usesPrm = true ∧ cellSize < w.prm + 64
      let st := if w.usesPrm = true ∧ cellSize < w.prm + 64 then max stRange (wordNamed s p w) else dmRefusal s p c d
      (outside ∨ dmRefusal s p c d ≠ 0) →
      ∃ t y, exec r.1 s = .next t ∧ Only [.cells] s t ∧ MoverOnly c s t ∧ Popped c 4 s t ∧
        (t.cell c).dm = (s.cell c).dm ++ [y] ∧ y.entry = e ∧ y.done = some (mkDone st Counts.reset 0) ∧
        (w.dspace = 4 → (mapGet ⟨[], false⟩ (t.cell c).me.streams (w.daddr % 16)).failed = true) ∧
        (w.dspace ≠ 4 → (t.cell c).me = (s.cell c).me)

/-- COPY and FILL within the cell's own store (09 R266): the destination takes the source bytes as they were before
the command, or zero; every other byte is as it was. A failing part (09 R269, 15 R394): a COPY or FILL into the cell's
own store whose one part fails completes with DMA_PART_FAILED and the part's bit in AUX, writes event 0x28, and
changes no byte outside its destination. -/
def Obligations.CopyFillAndFailedParts : Prop :=
  (∀ (c : Fin 34) (p : Nat) (e : QEntry) (s : State), eligible s c 4 = some (p, e) → (s.cell c).dm.length < 16 →
     CleanMemory s → waitsHeld s c e = false →
     let d := dmCmd e.word 0
     dmRefusal s p c d = 0 → d.dspace = 1 →
     (fld e.word 255 252 = 1 → d.sspace = 1 → ∃ t, exec (.copy c []) s = .next t ∧
       ∀ a, t.mem.read1 a = if cellBase c + d.daddr ≤ a ∧ a < cellBase c + d.daddr + d.len
         then s.mem.read1 (a - (cellBase c + d.daddr) + (cellBase c + d.saddr)) else s.mem.read1 a) ∧
     (fld e.word 255 252 = 7 → ∃ t, exec (.fill c []) s = .next t ∧
       ∀ a, t.mem.read1 a = if cellBase c + d.daddr ≤ a ∧ a < cellBase c + d.daddr + d.len then 0 else s.mem.read1 a)) ∧
  (∀ (c : Fin 34) (p : Nat) (e : QEntry) (u : LinkUnit) (s : State), eligible s c 4 = some (p, e) →
     (s.cell c).dm.length < 16 → CleanMemory s → waitsHeld s c e = false →
     let d := dmCmd e.word 0
     dmRefusal s p c d = 0 → d.dspace = 1 → 0 < d.len →
     ∀ i : Instr, (i = .copy c [⟨0, u⟩] ∧ fld e.word 255 252 = 1 ∨ i = .fill c [⟨0, u⟩] ∧ fld e.word 255 252 = 7) →
       ∃ t y, exec i s = .next t ∧ (t.cell c).dm = (s.cell c).dm ++ [y] ∧ y.entry = e ∧
         y.done = some (mkDone stPart Counts.reset 1) ∧ eventWritten 0x28 s t ∧ Only [.cells, .mem, .nv, .dev, .free] s t ∧
         ∀ a, a < cellBase c + d.daddr ∨ cellBase c + d.daddr + d.len ≤ a → t.mem.read1 a = s.mem.read1 a)

/-- ORDERED_ADD_APPLY (09 R272): the one waiting part of an ordered ADD is applied when its tree's turn is its tag: each
destination element takes the rounded sum of what stands there and its source element, nothing else of memory differs; the ADD
then reaches OK, and its tree closes with LAST or waits for the next tag. While its turn has not come, or a retrain holds its
channels (09 R258), the ADD keeps waiting. -/
def Obligations.OrderedAddWaitsForItsTag : Prop :=
  ∀ (c : Fin 34) (p : Nat) (y : DmRun) (i : Nat) (a : Nat × Nat × Nat) (s : State), s.cellOwner c = some p →
    CleanMemory s → (s.cell c).dm = [y] → y.done = none → y.waiting = [i] → y.failed = [] →
    let d := dmCmd y.entry.word 0
    d.ord = true → d.sspace ≠ 4 → (addParts s p c d)[i]? = some a →
    (waitsHeld s c y.entry = true → exec (.orderedAddApply c y.entry.seqNo []) s = .next s) ∧
    (waitsHeld s c y.entry = false →
    (treeReady s p (unitOf a.1) d = false → ∃ t z, exec (.orderedAddApply c y.entry.seqNo []) s = .next t ∧ Only [.cells] s t ∧
      (t.cell c).dm = [z] ∧ z.entry = y.entry ∧ z.waiting = [i] ∧ z.done = none) ∧
    (treeReady s p (unitOf a.1) d = true → (∀ r, treeAt s p (unitOf a.1) d.tree = some r → r.abandoned = false) →
      ∃ t z o, exec (.orderedAddApply c y.entry.seqNo []) s = .next t ∧ Only [.cells, .mem, .parts] s t ∧
        (t.cell c).dm = [z] ∧ z.entry = y.entry ∧ z.waiting = [] ∧ z.done = some o ∧ o.status = 0 ∧
        (let n := a.2.1 / d.asize
         let sum := addedTo d (spaceBytes s p c d.sspace (d.saddr + a.2.2 * d.ssize) (n * d.ssize)) (s.mem.readN a.1 a.2.1)
         (∀ b, t.mem.read1 b = After a.1 sum.1 s b) ∧ o.counts = y.counts.add sum.2) ∧
        (d.last = true → treeAt t p (unitOf a.1) d.tree = none) ∧
        (d.last = false → ∃ r, treeAt t p (unitOf a.1) d.tree = some r ∧ r.next = d.tag + 1)))

/-- RSEND (10 R296, R300): the command opens one transfer of its LEN bytes under the next transfer id, hands every
frame of it to the port DIR names once, and stays in progress with none acknowledged. RPOST (10 R300): with no other
RPOST waiting and fewer than 64 descriptors of the cell outstanding the descriptor is posted and the command reaches
OK; with 64 outstanding it waits. Stated with no incoming transfer to match. -/
def Obligations.RingSendAndPost : Prop :=
  (∀ (c : Fin 34) (p : Nat) (e : QEntry) (s : State), s.works c = some p → eligible s c 4 = some (p, e) →
     (s.cell c).dm.length < 16 → fld e.word 255 252 = 8 → s.mem.errs = [] → (dmCmd e.word 0).prm + 64 ≤ cellSize →
     waitsHeld s c e = false → FreshXids s →
     let d := dmCmd e.word (prmAt s c (dmCmd e.word 0).prm)
     ringRefusal s p c d = 0 →
     ∃ t y x, exec (.rsend c) s = .next t ∧ Only [.cells, .ring, .ports, .out] s t ∧ MoverOnly c s t ∧ Popped c 4 s t ∧
       (t.cell c).dm = (s.cell c).dm ++ [y] ∧ y.entry = e ∧ y.done = none ∧
       t.ring.rx = s.ring.rx ∧ t.ring.nextXid = s.ring.nextXid + 1 ∧ x ∈ t.ring.tx ∧ x.xid = s.ring.nextXid ∧ x.part = p ∧
       x.port = rDir d.prec ∧ x.dstRing.toNat = rPeerRing d.prec ∧ x.dstPart.toNat = rPeerPart d.prec ∧
       x.stream.toNat = rStream d.prec ∧ x.len = d.len ∧ x.origin = .cmd c e.seqNo ∧
       x.sends = List.replicate (ceilDiv d.len 4096) 1 ∧ x.acked = List.replicate (ceilDiv d.len 4096) false ∧
       ∀ i, i < ceilDiv d.len 4096 → ∃ f, OnItsWay t x.port f ∧ f.type = 0 ∧ f.xid = x.xid ∧ f.eseq.toNat = i ∧
         f.payload = slice (spaceBytes s p c d.sspace d.saddr d.len) (4096 * i) 4096) ∧
  (∀ (c : Fin 34) (p : Nat) (e : QEntry) (s : State), s.works c = some p → eligible s c 4 = some (p, e) →
     (s.cell c).dm = [] → fld e.word 255 252 = 9 → s.mem.errs = [] → (dmCmd e.word 0).prm + 64 ≤ cellSize → s.ring.rx = [] →
     waitsHeld s c e = false →
     let d := dmCmd e.word (prmAt s c (dmCmd e.word 0).prm)
     ringRefusal s p c d = 0 →
     ((s.cell c).rposts < 64 → ∃ t y o x, exec (.rpost c) s = .next t ∧ Only [.cells, .parts] s t ∧ OthersKept c s t ∧
       Popped c 4 s t ∧ (t.cell c).dm = [y] ∧ y.entry = e ∧ y.done = some o ∧ o.status = 0 ∧
       (t.cell c).rposts = (s.cell c).rposts + 1 ∧ t.part p = { s.part p with recvs := (s.part p).recvs ++ [x] } ∧
       x.cell = some c.val ∧ x.desc = redirected s p e.lcell (rDesc d.prec)) ∧
     (64 ≤ (s.cell c).rposts → ∃ t y, exec (.rpost c) s = .next t ∧ Only [.cells] s t ∧ OthersKept c s t ∧ Popped c 4 s t ∧
       (t.cell c).dm = [y] ∧ y.entry = e ∧ y.done = none ∧ (t.cell c).rposts = (s.cell c).rposts))

/-- COLL completes (10 R300, R302, R305): in a group of one member an eligible COLL that no rule refuses copies its source to
DADDR, changes no other byte, decides OK and reaches OK under the next instance number of its group. -/
def Obligations.CollOfOneMemberCompletes : Prop :=
  ∀ (c : Fin 34) (p : Fin 8) (e : QEntry) (s : State), s.works c = some p.val → eligible s c 4 = some (p.val, e) →
    (s.cell c).dm.length < 16 → (∀ y ∈ (s.cell c).dm, y.entry.seqNo ≠ e.seqNo) → CleanMemory s → waitsHeld s c e = false →
    (dmCmd e.word 0).prm + 64 ≤ cellSize → fld e.word 255 252 = 10 →
    let d := dmCmd e.word (prmAt s c (dmCmd e.word 0).prm)
    let g := rGroup d.prec
    ringRefusal s p c d = 0 → membersOf s p g = [(s.nv.ringId.toNat, p.val)] → (∀ x ∈ (s.part p).colls, x.group ≠ g) →
    ∃ t y o, exec (.coll c) s = .next t ∧ Only [.cells, .mem, .parts, .ring] s t ∧ MoverOnly c s t ∧ Popped c 4 s t ∧
      LandedAt s t p c 0 d.daddr (spaceBytes s p c 0 d.saddr d.len) ∧
      (∀ a, (∀ x ∈ devRanges s p c 0 d.daddr d.len, a < x.1 ∨ x.1 + x.2 ≤ a) → t.mem.read1 a = s.mem.read1 a) ∧
      (t.cell c).dm = (s.cell c).dm ++ [y] ∧ y.entry = e ∧ y.done = some o ∧ o.status = 0 ∧
      (t.part p).colls = (s.part p).colls ∧ vget (t.part p).decision g 1 = 0 ∧
      vget (t.part p).inst g 0 = vget (s.part p).inst g 0 + 1

/-- BARRIER completes (10 R300, R302): in a group of one member an eligible BARRIER that no rule refuses reaches OK at once
under the next barrier number of its group; no byte of memory and no decision differs. -/
def Obligations.BarrierOfOneMemberCompletes : Prop :=
  ∀ (c : Fin 34) (p : Fin 8) (e : QEntry) (s : State), s.works c = some p.val → eligible s c 4 = some (p.val, e) →
    (s.cell c).dm.length < 16 → (∀ y ∈ (s.cell c).dm, y.entry.seqNo ≠ e.seqNo) → s.mem.errs = [] →
    waitsHeld s c e = false → (dmCmd e.word 0).prm + 64 ≤ cellSize → fld e.word 255 252 = 11 →
    let d := dmCmd e.word (prmAt s c (dmCmd e.word 0).prm)
    let g := rGroup d.prec
    ringRefusal s p c d = 0 → membersOf s p g = [(s.nv.ringId.toNat, p.val)] → (∀ x ∈ (s.part p).colls, x.group ≠ g) →
    (∀ x ∈ (s.part p).early, x.2.stream.toNat ≠ g) →
    ∃ t y o, exec (.barrier c) s = .next t ∧ Only [.cells, .parts, .ring] s t ∧ MoverOnly c s t ∧ Popped c 4 s t ∧
      (t.cell c).dm = (s.cell c).dm ++ [y] ∧ y.entry = e ∧ y.done = some o ∧ o.status = 0 ∧
      (t.part p).colls = (s.part p).colls ∧ (t.part p).decision = (s.part p).decision ∧
      vget (t.part p).binst g 0 = vget (s.part p).binst g 0 + 1

/-- COLL and BARRIER in a group whose other members are on other devices (10 R300, R301, R303, R304): the command stays in
progress as the next instance of its group, OD 0x5610 of a collective reads 1 until the decision. Of a collective, every
segment whose way begins at this member is on its way to the next member, an even one by port E, an odd one by port W, with
the source bytes. A barrier's arrival has left for a remote coordinator on each port that is up, or is recorded at this one. -/
def Obligations.RemoteGroupStartsItsInstance : Prop :=
  ∀ (c : Fin 34) (p : Fin 8) (e : QEntry) (me : Nat) (s : State), s.works c = some p.val →
    eligible s c 4 = some (p.val, e) → (s.cell c).dm.length < 16 → (∀ y ∈ (s.cell c).dm, y.entry.seqNo ≠ e.seqNo) →
    CleanMemory s → waitsHeld s c e = false → (dmCmd e.word 0).prm + 64 ≤ cellSize → FreshXids s →
    let d := dmCmd e.word (prmAt s c (dmCmd e.word 0).prm)
    let g := rGroup d.prec
    let ms := membersOf s p g
    let n := ms.length
    ringRefusal s p c d = 0 → 2 ≤ n → ms.Nodup → memberIndex s p g = some me →
    (∀ m ∈ ms, m.1 = s.nv.ringId.toNat → m = (s.nv.ringId.toNat, p.val)) → (∀ x ∈ (s.part p).colls, x.group ≠ g) →
    (∀ x ∈ (s.part p).early, x.2.stream.toNat ≠ g) →
    (fld e.word 255 252 = 10 → ∃ t y x, exec (.coll c) s = .next t ∧ Only [.cells, .mem, .parts, .ring, .ports, .out] s t ∧
      Popped c 4 s t ∧ (t.cell c).dm = (s.cell c).dm ++ [y] ∧ y.entry = e ∧ y.done = none ∧
      (t.part p).colls = (s.part p).colls ++ [x] ∧ x.group = g ∧ x.barrier = false ∧
      x.inst = vget (s.part p).inst g 0 ∧ x.cell = c.val ∧ x.seqNo = e.seqNo ∧ x.len = d.len ∧ x.decided = none ∧
      vget (t.part p).decision g 0 = 1 ∧ vget (t.part p).inst g 0 = vget (s.part p).inst g 0 + 1 ∧
      let cop := rCop d.prec
      ∀ i, i < ceilDiv d.len 4096 →
        me = (if cop ≤ 2 then (if i % 2 = 0 then 0 else n - 1) else if cop = 3 then 4096 * i / (d.len / n) else rRoot d.prec) →
        ∃ m z f, ms[if i % 2 = 0 then (me + 1) % n else (me + n - 1) % n]? = some m ∧ z ∈ t.ring.tx ∧
          z.origin = .seg g x.inst i (if cop ≤ 2 then 0 else 1) ∧ z.dstRing = BitVec.ofNat 16 m.1 ∧
          z.dstPart = BitVec.ofNat 3 m.2 ∧ z.port = i % 2 ∧ z.len = min 4096 (d.len - 4096 * i) ∧ z.sends = [1] ∧
          OnItsWay t (i % 2) f ∧ f.type = 4 ∧ f.eseq.toNat = i ∧ f.xid = x.inst ∧
          f.payload = spaceBytes s p c 0 (d.saddr + (4096 * i - (if cop = 3 then me * (d.len / n) else 0))) z.len) ∧
    (fld e.word 255 252 = 11 → ∃ t y x, exec (.barrier c) s = .next t ∧ Only [.cells, .parts, .out] s t ∧
      Popped c 4 s t ∧ (t.cell c).dm = (s.cell c).dm ++ [y] ∧ y.entry = e ∧ y.done = none ∧
      (t.part p).colls = (s.part p).colls ++ [x] ∧ x.group = g ∧ x.barrier = true ∧
      x.inst = vget (s.part p).binst g 0 ∧ vget (t.part p).binst g 0 = vget (s.part p).binst g 0 + 1 ∧
      (me = 0 → x.readyFrom = [0] ∧ t.out = s.out) ∧
      (me ≠ 0 → ∀ m, ms.head? = some m → ∀ k, k < 2 → (s.port k).up = true → ∃ f l,
        (k, { sealFrame f with link := l }) ∈ t.out.ring ∧ f.type = 9 ∧ f.dstRing = BitVec.ofNat 16 m.1 ∧
        f.dstPart = BitVec.ofNat 3 m.2 ∧ f.stream.toNat = g ∧ f.xid = x.inst ∧ f.payload = [Config.barrierKind 0]))

namespace Sys2Proof.Claims

/-- Port M serves a datagram: powered and out of reset from boot order 11 on or in husk mode, a whole datagram sent to
one of its addresses and to its UDP port (11 R310, R311; 12 R342). -/
def ToPortM (r : EopReq) (s : State) : Prop :=
  portMOn s = true ∧ r.frag = false ∧ r.dip ∈ portMAddresses s ∧ r.dport = s.eop.cfg.udpPort

/-- A request that the framing, the rate limit, the tag and the sequence rule of the open session x let through
(11 R314, R315, R322, R323). -/
def Heard (opc : Nat) (r : EopReq) (x : Session) (s : State) : Prop :=
  ToPortM r s ∧ badFraming opc r = false ∧ (recentTimes s).length < 100 ∧ r.session ≠ 0 ∧
  sessionOf s r.session = some x ∧ x.isOpen = true ∧ tagHolds opc r x = true ∧ seqRule opc r x = .accept

/-- One response to a request in the session x has left port M, and the session holds it (11 R313, R322, R323). -/
def Answered (opc : Nat) (r : EopReq) (x : Session) (st : Nat) (data : List Byte) (s t : State) : Prop :=
  let o := answer opc r x.num (some x.key) st data
  t.out = { s.out with portM := s.out.portM ++ [o] } ∧
  t.eop = { s.eop with
    times := recentTimes s ++ [s.dev.interval],
    sessions := s.eop.sessions.map fun y =>
      if y.num = r.session then { y with lastSeq := r.seqNo, lastReq := reqBytes opc r, lastResp := some o } else y }

/-- A WRITE that reaches the checks of its own entry e: heard, allowed to the session's partition, of the entry's size,
outside the boot and a reset of its partition (11 R314, R324, R325, R336). -/
def Granted (r : EopReq) (x : Session) (e : Entry) (s : State) : Prop :=
  Heard opWrite r x s ∧ s.dev.devState ≠ 0 ∧ entryOf s r.index.toNat r.sub.toNat = some e ∧
  writeAuthority s (some x) r.index.toNat r.sub.toNat = stOk ∧ reservedSet r = false ∧
  sizeStatus e (reqData r) = stOk ∧ beingCleared s x.part.val r.index.toNat r.sub.toNat = false

/-- The value a request carries: little-endian, and as an octet string. -/
def val (r : EopReq) : Nat := leNat (reqData r)

/-- Every partition but p is as it was. -/
def OtherParts (p : Nat) (s t : State) : Prop := ∀ q, q ≠ p → t.part q = s.part q

/-- The rows that write an entry of the writing partition p: the command, index, subindex, the entry's own condition,
and the partition afterwards. -/
def partWrites (r : EopReq) (s : State) (p : Nat) : List (Instr × Nat × Nat × Bool × (Part → Part)) :=
  let q := s.part p
  let v := val r
  [(.seedWrite r, 0x9010, 1,
      q.restoring.isNone && (s.cellsOf p).all fun c => decide (vget (s.cell c).queues 3 [] = []) &&
        (s.cell c).ue.done.isNone && (s.cell c).ue.run.isNone,
      fun q => { q with seed := BitVec.ofNat 128 (beNat (reqData r)) }),
   (.counterClear r, 0xA020, 7, decide (v = 1),
      fun q => { q with cSat := 0, cFlu := 0, cAwn := 0, cSquash := 0, cFall := 0, cBad := 0 }),
   (.write r, 0x7010, 1, decide (2 ≤ v ∧ v ≤ 8), fun q => { q with sampleV := BitVec.ofNat 8 v }),
   (.write r, 0xA010, 1, (fmtOf (BitVec.ofNat 32 v)).isSome, fun q => { q with fmt := BitVec.ofNat 32 v }),
   (.cuppingConfigWrite r, 0x9020, 1, decide (q.rst = 0), fun q => { q with provOn := decide (v = 1) }),
   (.cuppingConfigWrite r, 0x9040, 1, decide (q.rst = 0 ∧ v ≤ 4), fun q => { q with capsN := BitVec.ofNat 8 v }),
   (.cuppingConfigWrite r, 0x9030, 1,
      decide (q.rst = 0 ∧ bits v 31 24 ≤ 1 ∧ bits v 23 16 ≤ 7) && !cupEnabled q.cupCfg,
      fun q => { q with cupCfg := BitVec.ofNat 32 v }),
   (.contextSaveRequest r, 0x6020, 1,
      decide (q.st = 1 ∧ q.loadSt ≠ 1) && q.mod.isSome && q.saveReq.isNone && q.restoring.isNone && !recordPlaceBad s p v,
      fun q => { q with saveReq := some (BitVec.ofNat 64 v), saveReg := BitVec.ofNat 64 v }),
   (.restore r, 0x6020, 2,
      decide (q.rst = 1) && !busyPart q && decide (bits v 127 65 = 0 ∧ bits v 63 0 % 4096 = 0),
      fun q => { q with restoring := some (BitVec.ofNat 128 v), restReg := BitVec.ofNat 128 v }),
   (.stepReplay r, 0x9040, 2,
      decide (q.rst = 1) && !busyPart q && !cupEnabled q.det.cup && decide (bits v 63 49 = 0 ∧ q.det.caps ≠ 0) &&
        (capsuleFor s p (bits v 47 0)).isSome,
      fun q => { q with
        stepReg := BitVec.ofNat 64 v, step := some ⟨(capsuleFor s p (bits v 47 0)).getD 0, v.testBit 48, true, false, []⟩ }),
   (.moduleLoad r, 0x6010, 1,
      !busyPart q && decide (q.rst ≠ 2 ∧ q.rst ≠ 3) && !imagePlaceBad s p v && !cupEnabled q.det.cup,
      fun q => { q with
        mod := none, rst := 0, replays := 0, loadSt := 1, loadCode := 0, loadAddr := BitVec.ofNat 64 v, reason := 0,
        rsdOff := false, det := Det.reset, cup := Cup.reset })]

/-- A partition brought to rest by a reset that no memory error caused: state 3, no collective, descriptor, decision tree
or outgoing or incoming transfer left, its cells halted with their queues empty (13 R361, R362 orders 1 to 3). -/
def Resting (p : Nat) (s t : State) : Prop :=
  Only [.cells, .parts, .ports, .ring, .eop, .out] s t ∧ (t.part p).st = 3 ∧ (t.part p).resetCause = 0 ∧
  (t.part p).colls = [] ∧ (t.part p).recvs = [] ∧ (t.part p).trees = [] ∧
  (∀ k, vget (t.part p).paced k [] = []) ∧ (∀ y ∈ t.ring.tx, y.part ≠ p) ∧ (∀ y ∈ t.ring.rx, y.part ≠ p) ∧
  ∀ c ∈ s.cellsOf p, (t.cell c).core.run = .halted ∧ (t.cell c).stopped = true ∧ (t.cell c).dm = [] ∧
    ∀ k, vget (t.cell c).queues k [] = []

/-- The rows that write one entry, and the entries they take. -/
def writeRows (r : EopReq) : List (Instr × (Nat → Nat → Bool)) :=
  [(.seedWrite r, onlyEntry 0x9010 1), (.counterClear r, onlyEntry 0xA020 7), (.write r, fun i j => !ownRow i j),
   (.flipMaskWrite r, wholeIndex 0x4050), (.logClear r, wholeIndex 0x4012), (.cellProof r, onlyEntry 0x7020 1),
   (.channelTest r, onlyEntry 0x7020 2), (.keyWrite r, wholeIndex 0x2020), (.partitionDefinitionWrite r, wholeIndex 0x2010),
   (.partitionReset (.request r), wholeIndex 0x2040), (.replayStart r, onlyEntry 0x6050 1),
   (.moduleLoad r, onlyEntry 0x6010 1), (.contextSaveRequest r, onlyEntry 0x6020 1), (.restore r, onlyEntry 0x6020 2),
   (.stepReplay r, onlyEntry 0x9040 2),
   (.cuppingConfigWrite r, fun i j => decide (j = 1) && decide (i = 0x9020 ∨ i = 0x9030 ∨ i = 0x9040)),
   (.portRestart r, fun i j => decide (j = 7) && decide (i = 0x5100 ∨ i = 0x5200)),
   (.capWrite r, fun i j => decide (i = 0x3000) && decide (j = 1 ∨ j = 2))]

/-- Every row that a request datagram is, with its opcode and whether it names an entry of the row. -/
def requestRows (r : EopReq) : List (Instr × Nat × Bool) :=
  (writeRows r).map (fun w => (w.1, opWrite, w.2 r.index.toNat r.sub.toNat)) ++
  [(.read r, opRead, true), (.segRead r, opSegRead, true),
   (.segWrite r, opSegWrite, !(decide (r.index = 0x5600) && (entryAt r.index.toNat r.sub.toNat).isSome)),
   (.groupListWrite r, opSegWrite, decide (r.index = 0x5600) && (entryAt r.index.toNat r.sub.toNat).isSome),
   (.sessionOpen r, opOpen, true), (.sessionProve r, opProve, true), (.sessionClose r, opClose, true),
   (.attest r, opAttest, true)]

/-- A segment that reaches the checks of its own entry e, whose value has at most m bytes: heard, allowed, carrying the
prefix, outside the boot and a reset of its partition (11 R314, R328, R336). -/
def SegmentHeard (r : EopReq) (x : Session) (e : Entry) (m : Nat) (s : State) : Prop :=
  Heard opSegWrite r x s ∧ s.dev.devState ≠ 0 ∧ entryOf s r.index.toNat r.sub.toNat = some e ∧
  writeAuthority s (some x) r.index.toNat r.sub.toNat = stOk ∧ reservedSet r = false ∧ domainMax e = some m ∧
  8 ≤ (reqData r).length ∧ (reqData r).length ≤ 1032 ∧ beingCleared s x.part.val r.index.toNat r.sub.toNat = false

end Sys2Proof.Claims

/-- Writes of a partition's own entries (11 R314, R324; 06 R180, 07 R192, 08 R235, R238, R239, 16 R406, R409): a
granted write that meets its entry's condition is answered with OK and changes the entry it names of the writing
partition, and nothing else. -/
def Obligations.PartitionEntryWrites : Prop :=
  ∀ (r : EopReq) (x : Session) (e : Entry) (s : State), Granted r x e s →
    ∀ w ∈ partWrites r s x.part.val, r.index.toNat = w.2.1 → r.sub.toNat = w.2.2.1 → w.2.2.2.1 = true →
      ∃ t, exec w.1 s = .next t ∧ Only [.parts, .eop, .out] s t ∧ Answered opWrite r x stOk [] s t ∧
        OtherParts x.part.val s t ∧ t.part x.part.val = w.2.2.2.2 (s.part x.part.val)

/-- Writes of entries of the device and of the stacks (09 R249, R250, R261; 10 R280, R307, R308; 14 R370; 15 R392, R393): the
flip-mask, the log and the scrub rate of a stack; ring id, ring size and insertion mode; the power cap and its window; the
start of a cell proof and of a channel test; insertion, and removal with a LEAVE notice on every port that is up. -/
def Obligations.DeviceEntryWrites : Prop :=
  ∀ (r : EopReq) (x : Session) (e : Entry) (s : State), Granted r x e s →
    let v := val r
    let n := r.sub.toNat - 1
    (∀ (i : Instr) (f : Stack → Stack),
      (i = .flipMaskWrite r ∧ r.index = 0x4050 ∧ flipBad s n v = false ∧ f = (fun t => { t with flip := BitVec.ofNat 384 v }) ∨
       i = .logClear r ∧ r.index = 0x4012 ∧ v = 1 ∧ f = (fun t => { t with log := [], overflow := 0 }) ∨
       i = .write r ∧ r.index = 0x4040 ∧ v ≤ 4096 ∧ f = (fun t => { t with rate := BitVec.ofNat 16 v })) →
      ∃ t, exec i s = .next t ∧ Only [.drams, .eop, .out] s t ∧ Answered opWrite r x stOk [] s t ∧
        (∀ m, m ≠ n → t.stack m = s.stack m) ∧ t.stack n = f (s.stack n)) ∧
    (∀ f : Nv → Nv, r.index = 0x5000 →
      (r.sub = 1 ∧ v < s.nv.ringSize.toNat ∧ f = (fun y => { y with ringId := BitVec.ofNat 16 v }) ∨
       r.sub = 2 ∧ 1 ≤ v ∧ v ≤ 4096 ∧ f = (fun y => { y with ringSize := BitVec.ofNat 16 v }) ∨
       r.sub = 3 ∧ v ≤ 1 ∧ f = (fun y => { y with insertMode := BitVec.ofNat 8 v })) →
      ∃ t, exec (.write r) s = .next t ∧ Only [.nv, .eop, .out] s t ∧ Answered opWrite r x stOk [] s t ∧ t.nv = f s.nv) ∧
    (r.index = 0x3000 → r.sub = 1 → 900 ≤ v → v ≤ packageLimit s.fuse.grade →
      ∃ t, exec (.capWrite r) s = .next t ∧ Only [.nv, .power, .eop, .out] s t ∧ Answered opWrite r x stOk [] s t ∧
        t.nv = { s.nv with capW := BitVec.ofNat 16 v } ∧ t.power.bins = List.replicate (1000 * s.nv.capWindow.toNat) (64 * v) ∧
        t.power.e = 64 * v * (1000 * s.nv.capWindow.toNat) ∧ t.power.oldest = 0 ∧ t.power.bus = s.power.bus ∧
        t.power.rails = s.power.rails) ∧
    (r.index = 0x3000 → r.sub = 2 → 2 ≤ v → v ≤ 32 →
      ∃ t, exec (.capWrite r) s = .next t ∧ Only [.nv, .power, .eop, .out] s t ∧ Answered opWrite r x stOk [] s t ∧
        t.nv = { s.nv with capWindow := BitVec.ofNat 8 v } ∧
        t.power.bins = List.replicate (1000 * v) (64 * s.nv.capW.toNat : Nat) ∧
        t.power.e = 64 * s.nv.capW.toNat * (1000 * v) ∧ t.power.oldest = 0 ∧ t.power.bus = s.power.bus ∧
        t.power.rails = s.power.rails) ∧
    (r.index = 0x7020 → r.sub = 1 → v ≤ 33 → flag s.fuse.enabled v = true → flag s.dev.fenced v = true →
      s.test.proof = none → ∃ t, exec (.cellProof r) s = .next t ∧ Only [.test, .eop, .out] s t ∧
        Answered opWrite r x stOk [] s t ∧ t.test = { s.test with proof := some (Fin.ofNat 34 v) }) ∧
    (r.index = 0x7020 → r.sub = 2 → bits v 15 13 = 0 → bits v 7 4 = 0 → flag s.dev.inService (bits v 12 8) = true →
      s.test.chan = none → ∃ t, exec (.channelTest r) s = .next t ∧ Only [.test, .eop, .out] s t ∧
        Answered opWrite r x stOk [] s t ∧ t.test = { s.test with chan := some (bits v 12 8, bits v 3 0) }) ∧
    (r.index = 0x5000 → r.sub = 4 → v = 1 → insertOk s = true →
      ∃ t, exec (.insert (some r)) s = .next t ∧ Only [.dev, .eop, .out] s t ∧ Answered opWrite r x stOk [] s t ∧
        t.dev = if s.dev.bypCmd then s.dev else { s.dev with bypCmd := true, autoInsert := false }) ∧
    (r.index = 0x5000 → r.sub = 4 → v = 2 → s.dev.bypCmd = true → s.dev.removing = false →
      ∃ t, exec (.remove r) s = .next t ∧ Only [.dev, .eop, .out] s t ∧ t.dev = { s.dev with removing := true } ∧
        answer opWrite r x.num (some x.key) stOk [] ∈ t.out.portM ∧
        ∀ n, n < 2 → (s.port n).up = true → ∃ f, (n, f) ∈ t.out.ring ∧ f.type = 6 ∧ f.cls = 0 ∧
          f.srcRing = s.nv.ringId ∧ f.payload = [Config.probeKind 2])

/-- A key write (11 R321): the 32 bytes carried are the new key XOR HMAC(K_s, "VZ4-WRAP" ‖ header bytes 3 to 8); only
sessions of partition 0 and of the partition itself may write it, any other is denied; a key of zero is OUT_OF_RANGE but
for partition 0; the key replaced is the named partition's, the other sessions of that partition close (R320). -/
def Obligations.KeyWrites : Prop :=
  ∀ (r : EopReq) (x : Session) (s : State), r.index = 0x2020 → 1 ≤ r.sub.toNat → r.sub.toNat ≤ 8 →
    let p := r.sub.toNat - 1
    let w := hmac x.key (ascii "VZ4-WRAP" ++ slice (reqHeader opWrite r) 3 6)
    let key : BitVec 256 := BitVec.ofNat 256 (beNat (reqData r)) ^^^ BitVec.ofNat 256 (beNat w)
    (∀ e, Granted r x e s → s.defined p = true → (reqData r).length = 32 ∧
      (p = 0 ∨ key ≠ 0 → ∃ t, exec (.keyWrite r) s = .next t ∧ Only [.nv, .eop, .out] s t ∧
        answer opWrite r x.num (some x.key) stOk [] ∈ t.out.portM ∧ t.nv = { s.nv with keys := t.nv.keys } ∧
        vget t.nv.keys p 0 = key ∧ (∀ q, q ≠ p → vget t.nv.keys q 0 = vget s.nv.keys q 0) ∧
        ∀ y ∈ t.eop.sessions, y.part.val = p → y.num = r.session) ∧
      (p ≠ 0 → key = 0 → ∃ t, exec (.keyWrite r) s = .next t ∧ Only [.eop, .out] s t ∧
        Answered opWrite r x stRange [] s t)) ∧
    (Heard opWrite r x s → x.part.val ≠ 0 → x.part.val ≠ p →
      ∃ t, exec (.keyWrite r) s = .next t ∧ Only [.eop, .out] s t ∧ Answered opWrite r x stDenied [] s t)

/-- The settings of the digest, of cupping and of the capsules (16 R406): entries of the writing session's partition; a
write while OD 0x6050:02 does not read 0 completes with NOT_READY, and more than 4 capsules with OUT_OF_RANGE; a new
value changes nothing in force, and takes effect at the next module load. -/
def Obligations.SettingsTakeEffectAtTheNextLoad : Prop :=
  ∀ (r : EopReq) (x : Session) (e : Entry) (p : Fin 8) (s : State),
    let q := s.part x.part.val
    let v := val r
    (Granted r x e s → r.sub = 1 → (r.index = 0x9020 ∨ r.index = 0x9030 ∨ r.index = 0x9040) →
      (q.rst ≠ 0 → cupConfigBad r.index.toNat v = false →
        ∃ t, exec (.cuppingConfigWrite r) s = .next t ∧ Only [.eop, .out] s t ∧ Answered opWrite r x stNotReady [] s t) ∧
      (q.rst = 0 → r.index = 0x9040 → 4 < v →
        ∃ t, exec (.cuppingConfigWrite r) s = .next t ∧ Only [.eop, .out] s t ∧ Answered opWrite r x stRange [] s t) ∧
      (q.rst = 0 → cupConfigBad r.index.toNat v = false → (r.index = 0x9030 → cupEnabled q.cupCfg = false) →
        ∃ t, exec (.cuppingConfigWrite r) s = .next t ∧ Only [.parts, .eop, .out] s t ∧
          Answered opWrite r x stOk [] s t ∧ OtherParts x.part.val s t ∧ t.part x.part.val = { q with
            provOn := if r.index = 0x9020 then decide (v = 1) else q.provOn,
            cupCfg := if r.index = 0x9030 then BitVec.ofNat 32 v else q.cupCfg,
            capsN := if r.index = 0x9040 then BitVec.ofNat 8 v else q.capsN })) ∧
    (Heard opWrite r x s → x.unkeyed = true → ∃ t, exec (.cuppingConfigWrite r) s = .next t ∧
      (t.part x.part.val).provOn = q.provOn ∧ (t.part x.part.val).cupCfg = q.cupCfg ∧
      (t.part x.part.val).capsN = q.capsN) ∧
    (∀ t, exec (.moduleLoadEnd p) s = .next t → (s.part p).loadSt = 1 → (t.part p).loadSt = 2 → (t.part p).st = 1 →
      (t.part p).det.prov = (s.part p).provOn ∧ (t.part p).det.cup = (s.part p).cupCfg ∧
      (t.part p).det.caps = (s.part p).capsN.toNat)

/-- Definitions and resets of partitions (13 R352, R355, R361, R362): a valid definition of a partition that owns
nothing is accepted and its reset begins; a new definition or a deletion of one that owns something is accepted, and
its cells come to rest and its transfers are dropped, while its old definition stays in force; a deleted one no longer
exists; a reset request brings the partition to rest the same way. A word of an owned cell store found uncorrectable
resets its owner (09 R251; 15 R389): event 0x16, the cause, the offset and the location of the record, and the reset
begun. -/
def Obligations.PartitionWritesAndMemoryResets : Prop :=
  (∀ (r : EopReq) (x : Session) (e : Entry) (s : State), Granted r x e s →
     let p := r.sub.toNat - 1
     (r.index = 0x2010 → (s.part p).st ≠ 3 → s.defOf p = 0 → val r ≠ 0 → definitionValid s p (BitVec.ofNat 512 (val r)) = true →
       ∃ t, exec (.partitionDefinitionWrite r) s = .next t ∧ Only [.parts, .eop, .out] s t ∧
         Answered opWrite r x stOk [] s t ∧ OtherParts p s t ∧
         t.part p = { s.part p with st := 3, nextDef := some (BitVec.ofNat 512 (val r)), resetCause := 0 }) ∧
     (r.index = 0x2040 → val r = 1 → s.defined p = true → (s.part p).st ≠ 3 →
       ∃ t, exec (.partitionReset (.request r)) s = .next t ∧ Resting p s t ∧
         answer opWrite r x.num (some x.key) stOk [] ∈ t.out.portM) ∧
     (r.index = 0x2010 → (s.part p).st ≠ 3 → s.defOf p ≠ 0 →
       (val r = 0 ∨ definitionValid s p (BitVec.ofNat 512 (val r)) = true) →
       ∃ t, exec (.partitionDefinitionWrite r) s = .next t ∧ Resting p s t ∧
         answer opWrite r x.num (some x.key) stOk [] ∈ t.out.portM ∧
         (t.part p).nextDef = some (BitVec.ofNat 512 (val r)) ∧ t.defOf p = s.defOf p ∧
         (val r = 0 → p ≠ 0 → t.defined p = false))) ∧
  (∀ (n o p : Nat) (s : State), n < 34 → o < cellSize → o % 32 = 0 → s.cellOwner n = some p → (s.part p).st ≠ 3 →
     rsDecode (s.mem.stored ((cellBase n + o) / 32)) = .bad →
     ∃ t, exec (.partitionReset (.uncorrectable (cellBase n + o))) s = .next t ∧ eventWritten 0x16 s t ∧
       (t.part p).st = 3 ∧ (t.part p).resetCause.toNat = stUncorrectable ∧ (t.part p).mrAddr.toNat = o ∧
       (t.part p).mrLoc.toNat = 0x40 + n ∧ (t.part p).mrStatus.toNat = stUncorrectable ∧
       (t.part p).mrCount = satInc (s.part p).mrCount ∧ t.mem = s.mem ∧
       ∀ c ∈ s.cellsOf p, (t.cell c).core.run = .halted ∧ (t.cell c).stopped = true)

/-- REPLAY_START (07 R191 to R194, R198) in a partition that keeps no digest: every cell of the partition takes the
patch set, starts at index 0 with the sequence counter at zero, no check point and an empty record ring; OD 0x6050:02
reads 2. -/
def Obligations.ReplayStartsEveryCell : Prop :=
  ∀ (r : EopReq) (x : Session) (e : Entry) (s : State), Granted r x e s → r.index = 0x6050 → r.sub = 1 →
    let p := x.part.val
    let v := val r
    (s.part p).rst = 1 → busyPart (s.part p) = false → (s.part p).det.on = false →
    bits v 63 16 = 0 → bits v 15 0 < (modOf s p).patches.length →
    ∃ t, exec (.replayStart r) s = .next t ∧ Only [.cells, .parts, .eop, .out] s t ∧ Answered opWrite r x stOk [] s t ∧
      OtherParts p s t ∧ (t.part p).rst = 2 ∧ (t.part p).commitN = 0 ∧ (t.part p).atPoint = false ∧
      (t.part p).pset.toNat = bits v 15 0 ∧ (t.part p).replays = (s.part p).replays ∧
      (∀ k : Fin 8, (t.part p).args[k].toNat = bits v (64 * k.val + 127) (64 * k.val + 64)) ∧
      (∀ c, c ∉ s.liveCells p → t.cell c = s.cell c) ∧
      ∀ c ∈ s.liveCells p, (t.cell c).core.run = .running ∧ (t.cell c).core.pc = 0 ∧ (t.cell c).core.seqNo = 0 ∧
        (t.cell c).core.snaps = [] ∧ (t.cell c).recs = [] ∧ (t.cell c).firstFault = 0 ∧
        (t.cell c).core.g = (s.cell c).core.g ∧ (t.cell c).core.ev = (s.cell c).core.ev ∧
        (t.cell c).core.p =
          (applyPatch ((modOf s p).patches.getD (bits v 15 0) []) (t.part p).args (s.cell c).core).p

/-- What no session hears (11 R310, R311, R314, R315, R322, R323): nothing happens off port M's addresses and UDP
port; a datagram with bad framing and one beyond 100 in 10 ms are counted and discarded; one for a session that does
not exist is answered with NO_SESSION, one with a bad tag, or with a tag and no session, with BAD_TAG and counted; a
repeated request brings its stored response again and an old one brings nothing. No state but port M's changes. A
WRITE that is refused changes nothing but the session's record and answers with the status of 11 R314 step 4 and R324:
NOT_READY while the device boots, else the refusal of its authority, NO_ENTRY for an entry that does not exist, and a
status that is not OK for a value of the wrong size. -/
def Obligations.DatagramsAndRefusedWrites : Prop :=
  (∀ (r : EopReq) (s : State), ∀ w ∈ requestRows r, w.2.2 = true →
     let opc := w.2.1
     (¬ ToPortM r s → exec w.1 s = .next s) ∧
     (ToPortM r s → badFraming opc r = true → ∃ t, exec w.1 s = .next t ∧ Only [.eop] s t ∧
       t.eop = { s.eop with discarded := satInc s.eop.discarded }) ∧
     (ToPortM r s → badFraming opc r = false → 100 ≤ (recentTimes s).length → ∃ t, exec w.1 s = .next t ∧ Only [.eop] s t ∧
       t.eop = { s.eop with overRate := satInc s.eop.overRate }) ∧
     (ToPortM r s → badFraming opc r = false → (recentTimes s).length < 100 → r.session = 0 → reqTag r ≠ zeros 16 →
       ∃ t, exec w.1 s = .next t ∧ Only [.eop, .out] s t ∧
         t.eop = { s.eop with times := recentTimes s ++ [s.dev.interval], badTag := satInc s.eop.badTag } ∧
         t.out = { s.out with portM := s.out.portM ++ [answer opc r 0 none stBadTag []] }) ∧
     (ToPortM r s → badFraming opc r = false → (recentTimes s).length < 100 → r.session ≠ 0 →
       let taken := { s.eop with times := recentTimes s ++ [s.dev.interval] }
       (sessionOf s r.session = none → ∃ t, exec w.1 s = .next t ∧ Only [.eop, .out] s t ∧ t.eop = taken ∧
         t.out = { s.out with portM := s.out.portM ++ [answer opc r r.session none stNoSession []] }) ∧
       (∀ x, sessionOf s r.session = some x → tagHolds opc r x = false → (opc = opProve → x.isOpen = true) →
         ∃ t, exec w.1 s = .next t ∧ Only [.eop, .out] s t ∧ t.eop = { taken with badTag := satInc s.eop.badTag } ∧
           t.out = { s.out with portM := s.out.portM ++ [answer opc r r.session none stBadTag []] }) ∧
       (∀ x o, sessionOf s r.session = some x → tagHolds opc r x = true → seqRule opc r x = .resend → x.lastResp = some o →
         ∃ t, exec w.1 s = .next t ∧ Only [.eop, .out] s t ∧ t.eop = taken ∧
           t.out = { s.out with portM := s.out.portM ++ [o] }) ∧
       (∀ x, sessionOf s r.session = some x → tagHolds opc r x = true → seqRule opc r x = .discard →
         ∃ t, exec w.1 s = .next t ∧ Only [.eop] s t ∧ t.eop = taken))) ∧
  (∀ (r : EopReq) (x : Session) (s : State), Heard opWrite r x s →
     ∀ w ∈ writeRows r, w.2 r.index.toNat r.sub.toNat = true →
       let a := writeAuthority s (some x) r.index.toNat r.sub.toNat
       (s.dev.devState = 0 →
         ∃ t, exec w.1 s = .next t ∧ Only [.eop, .out] s t ∧ Answered opWrite r x stNotReady [] s t) ∧
       (a ≠ stOk → s.dev.devState ≠ 0 →
         ∃ t, exec w.1 s = .next t ∧ Only [.eop, .out] s t ∧ Answered opWrite r x a [] s t) ∧
       (a = stOk → s.dev.devState ≠ 0 → entryOf s r.index.toNat r.sub.toNat = none → reservedSet r = false →
         ∃ t, exec w.1 s = .next t ∧ Only [.eop, .out] s t ∧ Answered opWrite r x stNoEntry [] s t) ∧
       (∀ e, a = stOk → s.dev.devState ≠ 0 → entryOf s r.index.toNat r.sub.toNat = some e → sizeStatus e (reqData r) ≠ stOk →
         ∃ t st, exec w.1 s = .next t ∧ Only [.eop, .out] s t ∧ st ≠ stOk ∧ Answered opWrite r x st [] s t))

/-- Reads and segmented transfers (11 R324, R326, R328, R329; 10 R302): READ answers with the entry's value, the public
entries also without a session; SEG_READ at offset 0 takes a snapshot and answers with its length and first 1,024 bytes;
a value that comes whole in one segment is committed: the ring delay map, a group's member list. -/
def Obligations.ReadsAndSegments : Prop :=
  ∀ (r : EopReq) (x : Session) (e : Entry) (s : State),
    let idx := r.index.toNat
    let sub := r.sub.toNat
    entryOf s idx sub = some e → reservedSet r = false → (s.dev.devState ≠ 0 ∨ idx = 0x1000) →
    (Heard opRead r x s → readAuthority s (some x) idx sub = stOk → domainMax e = none → r.len = 0 →
      beingCleared s x.part.val idx sub = false →
      ∃ t, exec (.read r) s = .next t ∧ Only [.eop, .out] s t ∧ Answered opRead r x stOk (valueOf s x.part.val idx sub) s t) ∧
    (ToPortM r s → badFraming opRead r = false → (recentTimes s).length < 100 → r.session = 0 → reqTag r = zeros 16 →
      publicIndex idx = true → domainMax e = none → r.len = 0 →
      ∃ t, exec (.read r) s = .next t ∧ Only [.eop, .out] s t ∧
        t.eop = { s.eop with times := recentTimes s ++ [s.dev.interval] } ∧
        t.out = { s.out with portM := s.out.portM ++ [answer opRead r 0 none stOk (valueOf s 0 idx sub)] }) ∧
    (Heard opSegRead r x s → readAuthority s (some x) idx sub = stOk → (domainMax e).isSome = true → r.len = 4 → val r = 0 →
      beingCleared s x.part.val idx sub = false → idx ≠ 0x8020 →
      let bs := valueOf s x.part.val idx sub
      ∃ t y, exec (.segRead r) s = .next t ∧ Only [.eop, .out] s t ∧ sessionOf t r.session = some y ∧
        y.snap = (if bs.length ≤ 1024 then none else some ⟨r.index, r.sub, bs⟩) ∧ y.lastSeq = r.seqNo ∧
        t.out = { s.out with portM := s.out.portM ++
          [answer opSegRead r x.num (some x.key) stOk (leBytes 4 0 ++ leBytes 4 bs.length ++ bs.take 1024)] }) ∧
    (∀ m, Heard opSegWrite r x s → s.dev.devState ≠ 0 → writeAuthority s (some x) idx sub = stOk → domainMax e = some m →
      8 ≤ (reqData r).length → (reqData r).length ≤ 1032 → beingCleared s x.part.val idx sub = false →
      segOf r s = none → segOffset r = 0 → segTotal r = (segBytes r).length → segTotal r ≤ m →
      (idx = 0x5010 → delayMapBad s (segBytes r) = false →
        ∃ t, exec (.segWrite r) s = .next t ∧ Only [.nv, .eop, .out] s t ∧ Answered opSegWrite r x stOk [] s t ∧
          t.nv = { s.nv with delayMap := segBytes r }) ∧
      (idx = 0x5600 → groupBad s (segBytes r) = false →
        (∀ k ∈ (s.part x.part.val).colls, k.group ≠ sub - 1) →
        ∃ t, exec (.groupListWrite r) s = .next t ∧ Only [.parts, .eop, .out] s t ∧ Answered opSegWrite r x stOk [] s t ∧
          OtherParts x.part.val s t ∧
          t.part x.part.val = { s.part x.part.val with
            groups := vmod (s.part x.part.val).groups (sub - 1) fun _ => segBytes r,
            inst := vmod (s.part x.part.val).inst (sub - 1) fun _ => 0,
            binst := vmod (s.part x.part.val).binst (sub - 1) fun _ => 0 }))

/-- Segmented writes (11 R328, R329; 12 R340; 10 R302, R280): the first segment starts a transfer that the entry keeps,
each later one joins the bytes so far, and the last commits the whole value; one out of order, or with another TOTAL, is
OUT_OF_RANGE and discards the transfer. The segments of a firmware image go into the slot that is not active, which the
first of them makes invalid, and the last leaves OD 0x8040:02 at NOT_READY. -/
def Obligations.SegmentedWritesJoinAndCommit : Prop :=
  ∀ (r : EopReq) (x : Session) (e : Entry) (m : Nat) (i : Instr) (s : State), SegmentHeard r x e m s →
    i = (if r.index = 0x5600 then .groupListWrite r else .segWrite r) →
    let seg := segBytes r
    let o := segOffset r
    let fw := decide (r.index = 0x8040)
    let p := x.part.val
    let q := s.part p
    let held := fun (bs : List Byte) => some (⟨r.index, r.sub, r.session, x.part, segTotal r, bs⟩ : SegXfer)
    let slot := fun (bs : List Byte) => { s.nv with
      slots := vmod s.nv.slots (idleSlot s) fun f => { f with valid := false, pending := false, image := bs } }
    let sent := fun (st : Nat) (t : State) =>
      t.out = { s.out with portM := s.out.portM ++ [answer opSegWrite r r.session (some x.key) st []] }
    (segOf r s = none → (fw = true → s.test.fwBusy = false) → o = 0 → seg.length = 1024 → 1024 < segTotal r →
      segTotal r ≤ m →
      ∃ t, exec i s = .next t ∧ Only [.nv, .eop, .out] s t ∧ sent stOk t ∧ segOf r t = held seg ∧
        t.nv = if fw then slot seg else s.nv) ∧
    (∀ y, segOf r s = some y → y.session = r.session → o ≠ 0 →
      let whole := y.data ++ seg
      (y.data.length = o → y.total = segTotal r → seg.length = 1024 → o + 1024 < segTotal r →
        ∃ t, exec i s = .next t ∧ Only [.nv, .eop, .out] s t ∧ sent stOk t ∧ segOf r t = held whole ∧
          t.nv = if fw then slot whole else s.nv) ∧
      (y.data.length = o → y.total = segTotal r → o + seg.length = segTotal r →
        (r.index = 0x5010 → delayMapBad s whole = false) →
        (r.index = 0x5600 → groupBad s whole = false ∧ ∀ k ∈ q.colls, k.group ≠ r.sub.toNat - 1) →
        ∃ t, exec i s = .next t ∧ Only [.nv, .parts, .test, .eop, .out] s t ∧ sent stOk t ∧ segOf r t = none ∧
          t.nv = (if fw then slot whole else if r.index = 0x5010 then { s.nv with delayMap := whole } else s.nv) ∧
          t.test = (if fw then { s.test with fwBusy := true, fwStatus := BitVec.ofNat 8 stNotReady } else s.test) ∧
          OtherParts p s t ∧
          t.part p = if r.index = 0x5600 then { q with
            groups := vmod q.groups (r.sub.toNat - 1) fun _ => whole, inst := vmod q.inst (r.sub.toNat - 1) fun _ => 0,
            binst := vmod q.binst (r.sub.toNat - 1) fun _ => 0 } else q) ∧
      (y.data.length ≠ o ∨ y.total ≠ segTotal r →
        ∃ t, exec i s = .next t ∧ Only [.eop, .out] s t ∧ sent stRange t ∧ segOf r t = none))

namespace Sys2Proof.Claims

/-- No session has the number n. -/
def Gone (n : BitVec 16) (t : State) : Prop := ∀ y ∈ t.eop.sessions, y.num ≠ n

/-- The handshake key of a partition with a label over partition, number and two nonces (11 R318). -/
def handshakeMac (s : State) (label : String) (p : Nat) (num : BitVec 16) (a b : List Byte) : List Byte :=
  hmac (vget s.nv.keys p 0) (handshake label p num a b)

/-- The last notice of a partition is of an event with a status and a detail (11 R330). -/
def Noticed (p event status detail : Nat) (t : State) : Prop :=
  (t.part p).notices.getLast? = some (BitVec.ofNat 128 (leNat (noticeData event status detail)))

end Sys2Proof.Claims

/-- Opening, proving and closing a session (11 R318 to R320): SESSION_OPEN adds a pending session with the next free
number and the key of the handshake; the host's proof opens it for the host it came from and the address it went to; a wrong tag,
or a wrong proof under a good
tag, discards it, counts and answers BAD_TAG; SESSION_CLOSE ends it and puts its number into quarantine. -/
def Obligations.SessionLife : Prop :=
  ∀ (r : EopReq) (s : State), ToPortM r s → (recentTimes s).length < 100 →
    (badFraming opOpen r = false → r.session = 0 → reqTag r = zeros 16 → openStatus s r = stOk → s.eop.nextNum ≠ 0 →
      Gone s.eop.nextNum s → s.eop.nextNum ∉ s.eop.quarantine →
      ∃ t x nd, exec (.sessionOpen r) s = .next t ∧ Only [.eop, .out, .free] s t ∧
        t.eop.sessions = s.eop.sessions ++ [x] ∧ x.num = s.eop.nextNum ∧ x.isOpen = false ∧
        x.part.val = leNat ((reqData r).take 1) ∧ x.unkeyed = decide (x.part.val = 0 ∧ vget s.nv.keys 0 0 = 0) ∧
          x.nonceH = (reqData r).drop 1 ∧ x.nonceD = nd ∧
        x.key = BitVec.ofNat 256 (beNat (handshakeMac s "VZ4-KEY" x.part x.num x.nonceH nd)) ∧
        t.out = { s.out with portM := s.out.portM ++ [answer opOpen r x.num none stOk
          (nd ++ handshakeMac s "VZ4-DEV" x.part x.num x.nonceH nd)] }) ∧
    (∀ x, badFraming opProve r = false → r.session ≠ 0 → sessionOf s r.session = some x → x.isOpen = false →
      tagHolds opProve r x = true → seqRule opProve r x = .accept → reservedSet r = false →
      reqData r = handshakeMac s "VZ4-HOST" x.part x.num x.nonceD x.nonceH →
      ∃ t y, exec (.sessionProve r) s = .next t ∧ Only [.eop, .out] s t ∧ sessionOf t r.session = some y ∧
        y = { x with
          isOpen := true, host := r.src, answers := r.dip, lastSeq := r.seqNo, lastReq := reqBytes opProve r,
          lastResp := some (answer opProve r x.num (some x.key) stOk []) } ∧
        t.out = { s.out with portM := s.out.portM ++ [answer opProve r x.num (some x.key) stOk []] }) ∧
    (∀ x, badFraming opProve r = false → r.session ≠ 0 → sessionOf s r.session = some x → x.isOpen = false →
      tagHolds opProve r x = false ∨ seqRule opProve r x = .accept ∧
        reqData r ≠ handshakeMac s "VZ4-HOST" x.part x.num x.nonceD x.nonceH →
      ∃ t, exec (.sessionProve r) s = .next t ∧ Only [.eop, .out] s t ∧ Gone r.session t ∧
        t.eop.badProof = satInc s.eop.badProof ∧ t.eop.badTag = satInc s.eop.badTag ∧
        t.out = { s.out with portM := s.out.portM ++ [answer opProve r r.session none stBadTag []] }) ∧
    (∀ x, Heard opClose r x s → s.dev.devState ≠ 0 → r.len = 0 → reservedSet r = false →
      ∃ t, exec (.sessionClose r) s = .next t ∧ Only [.eop, .out] s t ∧ Gone r.session t ∧
        t.eop.quarantine = s.eop.quarantine ++ [r.session] ∧
        t.out = { s.out with portM := s.out.portM ++ [answer opClose r x.num (some x.key) stOk []] })

/-- The timers of sessions and the acknowledgement of notices (11 R311, R318 to R320, R328 to R330). -/
def Obligations.SessionTimersAndNotices : Prop :=
  ∀ (num : BitVec 16) (s : State),
    (∀ x, sessionOf s num = some x →
      (x.isOpen = false → ∃ t, exec (.sessionProveTimeout num) s = .next t ∧ Only [.eop] s t ∧ Gone num t) ∧
      (x.isOpen = true → exec (.sessionProveTimeout num) s = .next s) ∧
      (x.isOpen = true → ∃ t, exec (.sessionIdleTimeout num) s = .next t ∧ Only [.eop] s t ∧ Gone num t) ∧
      (x.isOpen = false → exec (.sessionIdleTimeout num) s = .next s)) ∧
    (∀ p : Fin 8, ∃ t, exec (.proofLockoutExpiry p) s = .next t ∧ Only [.eop] s t ∧
      t.eop = { s.eop with lockout := t.eop.lockout, fails := t.eop.fails } ∧
      (∀ q, q < 8 → flag t.eop.lockout q = (flag s.eop.lockout q && decide (q ≠ p.val))) ∧
      (∀ f ∈ t.eop.fails, f.1 ≠ p.val)) ∧
    (∃ t, exec (.sessionNumberQuarantineEnd num) s = .next t ∧ Only [.eop] s t ∧
      t.eop = { s.eop with quarantine := s.eop.quarantine.filter fun n => decide (n ≠ num) }) ∧
    (∃ t, exec (.snapshotTimeout num) s = .next t ∧ Only [.eop] s t ∧ (num = 0 → t.eop.snap0 = none) ∧
      (num ≠ 0 → ∀ y ∈ t.eop.sessions, y.num = num → y.snap = none)) ∧
    (∀ a b x, s.eop.segs = a ++ x :: b → (∀ y ∈ a, y.session ≠ num) → x.session = num →
      ∃ t, exec (.segWriteTimeout num) s = .next t ∧ Only [.eop] s t ∧ t.eop = { s.eop with segs := a ++ b }) ∧
    (∃ t, exec .portMAddressChange s = .next t ∧ Only [.eop] s t ∧
      t.eop = { s.eop with cfg := if portMOn s = true then s.nv.portM else s.eop.cfg }) ∧
    (∀ (x : Session) (n : BitVec 32) (k : Nat) (d : List Byte), sessionOf s num = some x → x.unacked = [(n, k, d)] →
      (0 < k → ∃ t y, exec (.notifyRetransmit num n) s = .next t ∧ Only [.eop, .out] s t ∧ sessionOf t num = some y ∧
        y.unacked = [(n, k - 1, d)] ∧ t.out = { s.out with portM := s.out.portM ++ [noticeOf s.eop.cfg.udpPort x n d] }) ∧
      (k = 0 → ∃ t y, exec (.notifyRetransmit num n) s = .next t ∧ Only [.eop] s t ∧ sessionOf t num = some y ∧
        y.unacked = [])) ∧
    (∀ (r : EopReq) (x : Session), ToPortM r s → r.rsp = true → badFraming opNotify r = false → r.len = 0 →
      r.session ≠ 0 → reservedSet r = false → s.dev.devState ≠ 0 →
      sessionOf s r.session = some x → tagHolds opNotify r x = true →
      ∃ t y, exec (.notifyAck r) s = .next t ∧ Only [.eop] s t ∧ sessionOf t r.session = some y ∧
        y = { x with unacked := x.unacked.filter fun u => decide (u.1 ≠ r.seqNo) })

/-- Attestation (11 R332; 12 R347, R348): ATTEST takes the oldest slot for a report with the next number and answers with
both; the oldest waiting report is signed with the next leaf, which is then used; a leaf no record covers is reserved
first, so that the leaves used stay below the reserved limit. -/
def Obligations.Attestation : Prop :=
  (∀ (r : EopReq) (x : Session) (s : State), Heard opAttest r x s → r.len = 32 → reservedSet r = false →
    s.att.fifo.length < 8 → s.att.fifo.length < leavesLeft s →
    let n := s.att.age.head?.getD 0
    ∃ t, exec (.attest r) s = .next t ∧ Only [.att, .eop, .out] s t ∧
      Answered opAttest r x stOk (leBytes 1 n ++ leBytes 4 s.att.number.toNat) s t ∧
      t.att = { s.att with
        slots := t.att.slots, age := s.att.age.drop 1 ++ [n], fifo := s.att.fifo ++ [n], number := s.att.number + 1 } ∧
      (n < 8 → ∃ b, vget t.att.slots n AttSlot.reset = ⟨true, b⟩ ∧ b.take 12 = ascii "VZAR" ++ leBytes 2 1 ++ zeros 2 ++
        leBytes 4 s.att.number.toNat) ∧
      ∀ k, k ≠ n → vget t.att.slots k AttSlot.reset = vget s.att.slots k AttSlot.reset) ∧
  (∀ (n : Nat) (l : List Nat) (s : State), s.att.fifo = n :: l → n < 8 → leavesLeft s ≠ 0 → s.att.q ≤ s.att.lim →
    ∃ t, exec .attestSignEnd s = .next t ∧ Only [.att, .nv] s t ∧ t.att.fifo = l ∧ t.att.q = s.att.q + 1 ∧
      t.att.q ≤ t.att.lim ∧ t.att.number = s.att.number ∧
      (let b := (vget s.att.slots n AttSlot.reset).value
       vget t.att.slots n AttSlot.reset = ⟨false, b ++ hssSignature s.nv.idKey t.att.topSig s.att.q b⟩) ∧
      (s.att.q < s.att.lim → t.nv = s.nv ∧ t.att.lim = s.att.lim ∧ t.att.topSig = s.att.topSig) ∧
      (s.att.q = s.att.lim → (mapGet IdRec.reset t.nv.idRing s.nv.idPos).lim = t.att.lim ∧
        (mapGet IdRec.reset t.nv.idRing s.nv.idPos).topSig = t.att.topSig ∧ t.att.lim = min (s.att.lim + 1024) (2 ^ 30) ∧
        t.att.topSig = if s.att.q % 2 ^ 15 = 0 then topSignature s.nv.idKey (s.att.q / 2 ^ 15) else s.att.topSig))

/-- The ends of the verification of firmware, of a cell proof and of a channel test (12 R340; 15 R391 to R393), each with
its notice to partition 0: an image in the idle slot that R338 finds valid under the vendor key makes the slot valid
and pending, any other leaves it invalid; a cell
store is cleared by its proof; a channel that passes changes no stored byte. -/
def Obligations.TestsAndVerificationEnd : Prop :=
  ∀ s : State,
    (∀ i : Fin 2, s.test.fwBusy = false ∨ i = s.nv.active → exec (.firmwareVerifyEnd i) s = .next s) ∧
    (∀ i : Fin 2, s.test.fwBusy = true → i ≠ s.nv.active →
      let img := (s.slot (1 - s.nv.active.val)).image
      let good := imageValid s.fuse.vendorKey s.nv.rollbackMin.toNat img
      ∃ t, exec (.firmwareVerifyEnd i) s = .next t ∧ Only [.test, .nv, .parts, .eop, .out] s t ∧
        t.test.fwBusy = false ∧ t.test.fwStatus.toNat = (if good = true then stOk else stSignature) ∧
        (t.slot (1 - s.nv.active.val)).valid = good ∧ (t.slot (1 - s.nv.active.val)).pending = good ∧
        (t.slot (1 - s.nv.active.val)).image = img ∧
        (good = true → (t.slot (1 - s.nv.active.val)).failed = false ∧
          (t.slot (1 - s.nv.active.val)).version.toNat = imageVersion img % 2 ^ 32) ∧
        t.slot s.nv.active = s.slot s.nv.active ∧
        Noticed 0 0x07 (if good = true then stOk else stSignature) (imageVersion img % 2 ^ 32) t) ∧
    (∀ (n : Fin 34) (failed : Option (BitVec 40)), s.test.proof = some n →
      ∃ t, exec (.cellProofEnd failed) s = .next t ∧ Only [.test, .mem, .nv, .dev, .parts, .eop, .out] s t ∧
        t.test = { s.test with proof := none } ∧
        (∀ a, t.mem.read1 a = if cellBase n ≤ a ∧ a < cellBase n + cellSize then 0 else s.mem.read1 a) ∧
        (failed = none → eventWritten 0x06 s t ∧ Noticed 0 0x09 stOk (0x010000 + n.val) t ∧
          (t.unit 1 n).proofPasses = satInc (s.unit 1 n).proofPasses) ∧
        (failed.isSome = true → eventWritten 0x05 s t ∧ Noticed 0 0x09 stResidue (0x010000 + n.val) t ∧
          (t.unit 1 n).proofPasses = 0)) ∧
    (∀ st ch : Nat, s.test.chan = some (st, ch) → channelHeld s st ch = false → s.mem.errs = [] →
      ∃ t, exec (.channelTestEnd []) s = .next t ∧ Only [.test, .nv, .dev, .parts, .eop, .out] s t ∧
        t.test = { s.test with chan := none } ∧ eventWritten 0x15 s t ∧
        Noticed 0 0x09 stOk (0x020000 + st * 256 + ch) t)

/-- DUP_COMPARE (15 R385, R386, R388): it waits while the awn lane holds the neighbour's slots; else the neighbour
recomputes the oldest sampled tile. Equal hashes take it off the cell and change nothing else while no engine waits for
room. A difference is kept while the engine has not finished with the command or another of its tiles waits; with the
last tile compared the command gets a record with status DUP_MISMATCH and its counts, event 0x02 is written and the
partition stops. -/
def Obligations.DuplicateComparison : Prop :=
  ∀ (c : Fin 34) (p : Nat) (u : Sample) (l : List Sample) (upset : BitVec 64) (s : State), s.works c = some p →
    (s.cell c).samples = u :: l →
    let same := u.hash = recomputed s p (neighbourCell s p c) u ^^^ upset
    let waits := (s.cell c).ve.run.isSome = true ∨ (s.cell c).ue.run.isSome = true
    let more := ∃ y ∈ l, y.queue = u.queue ∧ y.seqNo = u.seqNo
    (awnHolds s c = true → exec (.dupCompare c upset) s = .next s) ∧
    (awnHolds s c = false → same → ¬ waits → ∃ t, exec (.dupCompare c upset) s = .next t ∧ Only [.cells] s t ∧
      OthersKept c s t ∧ t.cell c = { s.cell c with samples := l }) ∧
    (awnHolds s c = false → ¬ same → ¬ waits → outcomeOf (s.cell c) u.queue u.seqNo = none ∨ more →
      ∃ t, exec (.dupCompare c upset) s = .next t ∧ Only [.cells] s t ∧ OthersKept c s t ∧
        t.cell c = { s.cell c with samples := l, dupBad := (s.cell c).dupBad ++ [(u.queue, u.seqNo)] }) ∧
    (∀ e o h n, awnHolds s c = false → ¬ same → outcomeOf (s.cell c) u.queue u.seqNo = some (e, o, h, n) → ¬ more →
      (s.cell c).core.snaps = [] →
      ∃ t r, exec (.dupCompare c upset) s = .next t ∧
        Only [.cells, .parts, .mem, .free, .nv, .dev, .eop, .out, .ports, .ring] s t ∧
        (t.cell c).recs.getLast? = some r ∧ RecordOf u.queue u.seqNo e { o with status := BitVec.ofNat 8 stDup, aux := 0 } r ∧
        eventWritten 0x02 s t ∧ (t.part p).st = 2)

/-- PARTITION_RESET_END (13 R355, R362 to R365): the owned cell stores and stacks read zero, every other byte below the
link-die buffers is as it was; the cells are idle; an accepted definition is in force, and a deleted partition has
neither key nor session; the partition rests in state 0, 1 or 2; notice 0x04 tells partition 0 the cause. -/
def Obligations.PartitionResetEnds : Prop :=
  ∀ (p : Fin 8) (s : State), (s.part p).st = 3 →
    let d := (s.part p).nextDef.getD (s.defOf p)
    let cells := bitList (defCells (s.defOf p ||| d))
    let drams := bitList (defStacks (s.defOf p ||| d))
    ∃ t, exec (.partitionResetEnd p) s = .next t ∧ Only [.cells, .drams, .mem, .parts, .nv, .dev, .ring, .eop, .out] s t ∧
      (defLdb d = defLdb (s.defOf p) → t.ring = s.ring) ∧
      (∀ c ∈ cells, (∀ o, o < cellSize → t.mem.read1 (cellBase c + o) = 0) ∧ (t.cell c).core = Core.reset ∧
        (∀ k, vget (t.cell c).queues k [] = []) ∧ (t.cell c).dm = [] ∧ (t.cell c).stopped = false) ∧
      (∀ n ∈ drams, ∀ o, o < 2 ^ 33 → t.mem.read1 (stackBase n + o) = 0) ∧
      (∀ a, a < ldbWindow → (∀ c ∈ cells, a < cellBase c ∨ cellBase c + cellSize ≤ a) →
        (∀ n ∈ drams, a < stackBase n ∨ stackBase n + 2 ^ 33 ≤ a) → t.mem.read1 a = s.mem.read1 a) ∧
      (∀ c, c ∉ cells → t.cell c = s.cell c) ∧ (∀ q, q ≠ p.val → q ≠ 0 → t.part q = s.part q) ∧
      t.defOf p = d ∧ (∀ q, q ≠ p.val → t.defOf q = s.defOf q) ∧ (t.part p).nextDef = none ∧
      (t.part p).st = restState t p ∧ (t.part p).st.toNat ≤ 2 ∧
      (p.val ≠ 0 → d = 0 → vget t.nv.keys p 0 = 0 ∧ ∀ y ∈ t.eop.sessions, y.part ≠ p) ∧
      Noticed 0 0x04 (s.part p).resetCause.toNat
        (if (s.part p).resetCause.toNat = stUncorrectable then (s.part p).mrAddr.toNat else 0) t

/-- MODULE_LOAD_END (08 R230, R233, R235): an image of another level and one whose mapping does not fit are INCOMPATIBLE
with their reason, a malformed image is OUT_OF_RANGE; any other is loaded on every present cell and replays may start.
Stated for a partition that is to keep no digest. -/
def Obligations.ModuleLoadEnds : Prop :=
  ∀ (p : Fin 8) (s : State), (s.part p).st = 1 →
    ((s.part p).loadSt ≠ 1 → exec (.moduleLoadEnd p) s = .next s) ∧
    (∀ h img, (s.part p).loadSt = 1 → s.mem.errs = [] → (s.part p).provOn = false → cupEnabled (s.part p).cupCfg = false →
      (s.part p).capsN = 0 → (relRead p (s.part p).loadAddr.toNat 64 s).1 = some h →
      (relRead p (s.part p).loadAddr.toNat (modHeader h).imgLen s).1 = some img →
      let i := imageOf (img ++ h.drop img.length)
      let plan := planOf i (s.liveCells p) (s.stackBytes p) (streamRate s p)
      let codes := (List.range (s.liveCells p).length).map plan.cellCode
      let failsWith := fun (st reason : Nat) => ∃ t, exec (.moduleLoadEnd p) s = .next t ∧ Only [.parts, .eop, .out] s t ∧
        OtherParts p s t ∧ (t.part p).loadSt = 3 ∧ (t.part p).loadCode = BitVec.ofNat 8 st ∧
        (t.part p).reason = BitVec.ofNat 8 reason ∧ (t.part p).modDigest = sha img ∧ (t.part p).mod = (s.part p).mod ∧
        Noticed p 0x02 st 0 t
      (i.h.level ≠ 1 → failsWith stIncompatible 1) ∧
      (i.h.level = 1 → imageOk i = false → failsWith stRange 0) ∧
      (∀ n, i.h.level = 1 → imageOk i = true → misfit plan codes (s.stackBytes p) 0 = some n → failsWith stIncompatible n) ∧
      (i.h.level = 1 → imageOk i = true → misfit plan codes (s.stackBytes p) 0 = none →
        ∃ t, exec (.moduleLoadEnd p) s = .next t ∧ Only [.cells, .parts, .eop, .out] s t ∧ OtherParts p s t ∧
          (t.part p).loadSt = 2 ∧ (t.part p).rst = 1 ∧ (t.part p).replays = 0 ∧ (t.part p).mod.isSome = true ∧
          (t.part p).modDigest = sha img ∧ Noticed p 0x02 stOk 0 t ∧ (∀ c, c ∉ s.liveCells p → t.cell c = s.cell c) ∧
          ∀ j c, (s.liveCells p)[j]? = some c → (t.cell c).core = { Core.reset with
            imem := (plan.cellCode j).words, tmpl := (plan.cellCode j).tmpl }))

/-- Partition commit points and the end of a replay (07 R193, R214), in a partition that keeps no digest: with every cell
past the next commit point the count rises and the cores waiting there go on, unless a save waits; with every core past
HALT and every command complete the replay count rises, OD 0x6050:02 reads 1 and notice 0x01 is sent. Otherwise nothing
changes. -/
def Obligations.CommitPointsAndReplayEnd : Prop :=
  ∀ (p : Fin 8) (s : State),
    (commitReached s p = false → exec (.partitionCommitPoint p) s = .next s) ∧
    (replayDone s p = false → exec (.replayEnd p) s = .next s) ∧
    (commitReached s p = true → (s.part p).det.on = false →
      ∃ t, exec (.partitionCommitPoint p) s = .next t ∧ Only [.cells, .parts] s t ∧ OtherParts p s t ∧
        (t.part p).commitN = (s.part p).commitN + 1 ∧ (t.part p).atPoint = (s.part p).saveReq.isSome ∧
        (∀ c, c ∉ s.cellsOf p → t.cell c = s.cell c) ∧
        ∀ c ∈ s.cellsOf p, t.cell c = { s.cell c with core := { (s.cell c).core with
          run := if (s.cell c).core.run = .atMark ∧ (s.part p).saveReq = none then .running else (s.cell c).core.run } }) ∧
    (replayDone s p = true → (s.part p).step = none → (s.part p).det.cap = none →
      ∃ t, exec (.replayEnd p) s = .next t ∧ Only [.cells, .parts, .eop, .out] s t ∧ OtherParts p s t ∧
        (t.part p).rst = 1 ∧ (t.part p).replays = (s.part p).replays + 1 ∧
        Noticed p 0x01 stOk ((s.part p).replays + 1).toNat t ∧
        ∀ c ∈ s.liveCells p, t.cell c = { s.cell c with core := { (s.cell c).core with run := .halted } })

/-- Saving a context (08 R237, R238): a save begins when the partition rests at a commit point or is idle; its end
writes the record and no other byte, answers OK with notice 0x03 and lets the cores go on. Restoring a context (08
R239): a record beyond the partition's stacks is INCOMPATIBLE with reason 2; one that is none of this module is
refused by its status and leaves the partition as it was; a record whose header and tensor entries match sets the
seed, the replay count, the patch set and the parameter registers, and leaves cell stores and non-persistent tensors
open. Stated without resumption and in a partition that keeps no digest. -/
def Obligations.ContextsSavedAndRestored : Prop :=
  (∀ (p : Fin 8) (s : State),
     (saveReady s p = false → exec (.contextSave p) s = .next s) ∧
     (saveReady s p = true → ∃ t, exec (.contextSave p) s = .next t ∧ Only [.parts] s t ∧ OtherParts p s t ∧
       t.part p = { s.part p with saving := true }) ∧
     ((s.part p).saving = false → exec (.contextSaveEnd p) s = .next s) ∧
     (∀ a, (s.part p).saving = true → (s.part p).saveReq = some a → s.mem.errs = [] →
       ∃ t, exec (.contextSaveEnd p) s = .next t ∧ Only [.cells, .mem, .parts, .eop, .out] s t ∧
         (t.part p).saving = false ∧ (t.part p).saveReq = none ∧ (t.part p).ctxStatus = 0 ∧
         Noticed p 0x03 stOk a.toNat t ∧ (t.part p).replays = (s.part p).replays ∧ (t.part p).seed = (s.part p).seed ∧
         (∀ b, (∀ x ∈ relPieces s p a.toNat (recordLen (modOf s p)), b < x.1 ∨ x.1 + x.2 ≤ b) →
           t.mem.read1 b = s.mem.read1 b) ∧
         ((s.part p).rst ≠ 2 → t.cells = s.cells))) ∧
  (∀ (p : Fin 8) (v : BitVec 128) (s : State), (s.part p).restoring = some v → s.mem.errs = [] →
     let a := fld v 63 0
     let m := modOf s p
     let fails := fun (st : Nat) (reason : BitVec 8) =>
       ∃ t, exec (.restoreEnd p) s = .next t ∧ Only [.parts, .eop, .out] s t ∧ OtherParts p s t ∧
         (t.part p).restoring = none ∧ (t.part p).ctxStatus = BitVec.ofNat 8 st ∧ (t.part p).reason = reason ∧
         (t.part p).seed = (s.part p).seed ∧ (t.part p).replays = (s.part p).replays ∧ Noticed p 0x03 st a t
     (s.stackBytes p < a + 64 → fails stIncompatible 2) ∧
     (∀ hb body, a + 64 ≤ s.stackBytes p → (relRead p a 64 s).1 = some hb → (readBody s p a (leNat hb)).1 = some body →
       (headerStatus s p a (leNat hb) body).1 ≠ stOk → fails (headerStatus s p a (leNat hb) body).1
         (match (headerStatus s p a (leNat hb) body).2 with | some n => BitVec.ofNat 8 n | none => (s.part p).reason)) ∧
     (∀ hb body, a + 64 ≤ s.stackBytes p → (relRead p a 64 s).1 = some hb → (readBody s p a (leNat hb)).1 = some body →
       let h := leNat hb
       (headerStatus s p a h body).1 = stOk → (s.part p).det.on = false → flag v 64 = false →
       bits h 463 448 = m.instances.length →
       slice body (1168 + 128 * m.nLogical) (32 * m.instances.length) =
         tensorEntries (rehash p (allInstances s p) s).2 p →
       ∃ t, exec (.restoreEnd p) s = .next t ∧ Only [.cells, .mem, .free, .parts, .eop, .out] s t ∧ OtherParts p s t ∧
         (t.part p).restoring = none ∧ (t.part p).ctxStatus = 0 ∧ Noticed p 0x03 stOk a t ∧
         (t.part p).seed.toNat = beNat (slice body 64 16) ∧ (t.part p).replays.toNat = bits h 127 64 ∧
         (t.part p).pset.toNat = bits h 63 48 ∧ (t.part p).rst = (s.part p).rst ∧
         ∀ c ∈ s.liveCells p, (t.cell c).core.imem = (s.cell c).core.imem ∧ (t.cell c).core.g = (s.cell c).core.g ∧
           ∀ k : Fin 128, (t.cell c).core.p[k].toNat = leNat (slice body (80 + 8 * k.val) 8)))

/-- The start of a step replay once its hashing has finished (16 R409): a capsule of another replay count, seed, digest
or of other tensor contents gives the verdict DIGEST_MISMATCH and no replay; a capsule that matches starts every cell
at index 0 with the capsule's registers. -/
def Obligations.StepReplayStartsOrFails : Prop :=
  ∀ (p : Fin 8) (s : State),
    ((s.part p).step = none → exec (.stepReplayHashEnd p) s = .next s) ∧
    (∀ x c, (s.part p).step = some x → x.hashing = true → s.mem.errs = [] → (readCapsule p x.slot s).1 = some c →
      let q := s.part p
      let same := capReplays c = q.replays.toNat ∧ capSeed c = sha256Bytes (beBytes 16 q.seed.toNat) ∧
        capRun0 c = digestBytes q.det.run
      (¬ same → ∃ t, exec (.stepReplayHashEnd p) s = .next t ∧ Only [.parts] s t ∧ OtherParts p s t ∧
        t.part p = { s.part p with step := none, stepStatus := 0x41 }) ∧
      (same → capTensors c ≠ tensorEntries (rehash p (allInstances s p) s).2 p →
        ∃ t, exec (.stepReplayHashEnd p) s = .next t ∧ Only [.parts] s t ∧ OtherParts p s t ∧
          (t.part p).step = none ∧ (t.part p).stepStatus = 0x41 ∧ (t.part p).rst = (s.part p).rst) ∧
      (same → capTensors c = tensorEntries (rehash p (allInstances s p) s).2 p →
        ∃ t, exec (.stepReplayHashEnd p) s = .next t ∧ Only [.cells, .mem, .parts] s t ∧
          (t.part p).step = some { x with hashing := false, expect := (capArrivals c).map arrivalOf } ∧ (t.part p).rst = 2 ∧ (t.part p).commitN = 0 ∧
          (t.part p).pset.toNat = capPset c ∧
          ∀ d ∈ s.liveCells p, (t.cell d).core.run = .running ∧ (t.cell d).core.pc = 0 ∧ (t.cell d).core.seqNo = 0 ∧
            (t.cell d).recs = [] ∧ ∀ k : Fin 128, (t.cell d).core.p[k].toNat = (capParams c).getD k.val 0))

/-- Stacks on their own (09 R245, R255 to R259): the scrubber moves on over words without errors and changes no other
state; a retrain requested begins at the next refresh window of a channel that is not locked out, ends with a new
calibration, or times out with the channel locked out, counted for stack and owner and recorded as event 0x12. -/
def Obligations.StacksScrubAndRetrain : Prop :=
  ∀ (n : Fin 32) (ch : Fin 16) (s : State),
    let w := stackWorks s n
    let x := s.stack n
    let k := x.chans[ch]
    let setTo := fun (k' : Chan) => { x with chans := x.chans.set ch k' }
    let kept := fun (t : State) => Only [.drams] s t ∧ ∀ m, m ≠ n.val → t.stack m = s.stack m
    (s.mem.errs = [] → ∃ t, exec (.scrubGranule n) s = .next t ∧ kept t ∧ t.stack n = if w = true then
      { x with
        scrubPos := if x.rate = 0 then x.scrubPos else (x.scrubPos + 1) % 2 ^ 25,
        stewPos := if n.val % 16 = 0 then (x.stewPos + 1) % 2 ^ 19 else x.stewPos } else x) ∧
    (∀ c : Fin 34, s.mem.errs = [] → ∃ t, exec (.cellStoreScrub c) s = .next t ∧ Only [.cells] s t ∧ OthersKept c s t ∧
      t.cell c = if s.dev.devState = 1 ∧ flag s.fuse.enabled c = true then
        { s.cell c with scrubPos := ((s.cell c).scrubPos + 1) % (cellSize / 32) } else s.cell c) ∧
    (∃ t, exec (.retrainRequest n ch) s = .next t ∧ kept t ∧
      t.stack n = if w = true ∧ k.phase = .idle then setTo { k with phase := .requested } else x) ∧
    (∃ t, exec (.refreshWindow n ch) s = .next t ∧ kept t ∧
      t.stack n = if w = true ∧ k.phase = .requested ∧ k.lockout = false then setTo { k with phase := .held }
        else if w = true ∧ k.phase = .held then setTo { k with postponed := min 8 (k.postponed + 1) } else x) ∧
    (∃ t, exec (.retrainEnd n ch) s = .next t ∧ kept t ∧
      t.stack n = if w = true ∧ k.phase = .held then
        { setTo { k with phase := .idle, postponed := 0, cal := k.cal + 1 } with retrains := satInc x.retrains } else x) ∧
    (∃ t, exec (.retrainLockoutExpiry n ch) s = .next t ∧ kept t ∧ t.stack n = setTo { k with lockout := false }) ∧
    (w = true → k.phase = .held → ∃ t, exec (.retrainTimeout n ch) s = .next t ∧ Only [.drams, .parts, .nv, .dev] s t ∧
      (∀ m, m ≠ n.val → t.stack m = s.stack m) ∧
      t.stack n = { setTo { k with phase := .idle, postponed := 0, lockout := true } with timeouts := satInc x.timeouts } ∧
      eventWritten 0x12 s t ∧ ∀ p, s.stackOwner n = some p → (t.part p).rtCount = satInc (s.part p).rtCount ∧
        (t.part p).rtLast.toNat = n.val * 256 + ch.val) ∧
    (¬ (w = true ∧ k.phase = .held) → exec (.retrainTimeout n ch) s = .next s)

namespace Sys2Proof.Claims

/-- Of the ports only port n differs. -/
def PortOnly (n : Nat) (s t : State) : Prop := Only [.ports] s t ∧ ∀ m, m ≠ n → t.port m = s.port m

/-- The rows of a received frame, and whether the frame is one of the row's kind (10 R283, R305, R308, 16 R412; that a
frame of another kind is not the row's event is the model's, log entry 1). -/
def frameRows (port : RingPort) (f : VrtFrame) : List (Instr × Bool) :=
  let control := fun (k : Nat) => decide (f.type = 5) && decide ((frameBody f).head? = some (BitVec.ofNat 8 k))
  let hop := decide (f.type = 6) && hopLocal f
  let cup := fun (k : Nat) => decide (f.type = 6) &&
    decide ((frameBody f).head? = some 0x10 ∧ (frameBody f)[1]? = some (BitVec.ofNat 8 k))
  [(.data port f, decide (f.type = 0)), (.credit port f, decide (f.type = 1)), (.lack port f, decide (f.type = 2)),
   (.sack port f, decide (f.type = 3)), (.cseg port f, decide (f.type = 4)), (.cctlReady port f, control 1),
   (.cctlAbortReq port f, control 2), (.cctlCommit port f, control 3), (.cctlAbort port f, control 4),
   (.probe port f, hop), (.probeReply port f, hop), (.leave port f, hop), (.cuppingDigest port f, cup 1),
   (.cuppingEnd port f, cup 2), (.desc port f, decide (f.type = 7)), (.done port f, decide (f.type = 8)),
   (.barrierFrame port f, decide (f.type = 9))]

/-- An up port takes a frame from its fibre: carried as its attachment asks, and passing the checks of 10 R284. -/
def Arrives (port : RingPort) (f : VrtFrame) (s : State) : Prop :=
  (s.port (portNum port)).up = true ∧ carried (s.port (portNum port)) f = true ∧ frameOk f = true

/-- A frame of class 1 to 3, or one that a port takes for this device: it names this ring id (10 R281). -/
def Reaches (port : RingPort) (f : VrtFrame) (s : State) : Prop := Arrives port f s ∧ f.dstRing = s.nv.ringId

/-- A frame of one hop that an up port takes, with room in its class 0 buffers (10 R286, R309). -/
def OfTheHop (port : RingPort) (f : VrtFrame) (s : State) : Prop :=
  Arrives port f s ∧ hopLocal f = true ∧ class0Room (s.port (portNum port)) { f with payload := frameBody f } = true

/-- A port that has taken a class 0 frame into its buffers: the VRT header and the payload (10 R286). -/
def tookClass0 (q : Port) (f : VrtFrame) : Port := { q with c0held := q.c0held + 32 + (frameBody f).length }

/-- The finished frames that left, each as its port carries it, in order after those that had left before. -/
def Left (l : List (Nat × VrtFrame)) (s t : State) : Prop :=
  t.out = { s.out with ring := s.out.ring ++ l.map fun x => (x.1, { x.2 with link := carrierOf s x.1 x.2 }) }

/-- A probe frame of a port's own hop, with its number. -/
def hopFrame (s : State) (n : Nat) (kind : Fin 3) (num : BitVec 32) : Nat × VrtFrame :=
  (n, sealFrame { newFrame s 6 0 (neighbour s n) 0 0 [Config.probeKind kind] with xid := num })

/-- A probe has left a port and waits for its reply after those of l (10 R293). -/
def Asks (n : Nat) (again : Bool) (l : List HopProbe) (s t : State) : Prop :=
  let q := s.port n
  Only [.ports, .out] s t ∧ Left [hopFrame s n 0 q.probeNum] s t ∧
  t.port n = { q with probes := l ++ [⟨q.probeNum, s.dev.interval, again⟩], probeNum := q.probeNum + 1 }

/-- The LACK of a port, which may ask for a replay. -/
def lackFrame (s : State) (n : Nat) (again : Bool) : Nat × VrtFrame :=
  (n, sealFrame (newFrame s 2 0 (neighbour s n) 0 0
    (leBytes 4 ((s.port n).hseqRx - 1).toNat ++ [if again then 1 else 0])))

/-- A frame that was cut through before its FCS failed: a class 0 frame in transit from direct hop to direct hop that is
sound but for its FCS (10 R284, R289; that every such frame is cut through is the model's choice, log entry 62). -/
def CutThrough (port : RingPort) (f : VrtFrame) (s : State) : Prop :=
  f.fcsOk = false ∧ frameOk { f with fcsOk := true } = true ∧ f.cls = 0 ∧ hopLocal f = false ∧
  f.dstRing ≠ s.nv.ringId ∧ f.srcRing ≠ s.nv.ringId ∧ f.hopsLeft ≠ 0 ∧ (s.port 0).cfg.attach = 0 ∧
  (s.port 1).cfg.attach = 0 ∧ (s.port (1 - portNum port)).up = true

end Sys2Proof.Claims

/-- Ports train, come up and restart (10 R277, R278, R280, R287, R294; 11 R330): a failed lane of an up port restarts it at
four lanes at most and writes event 0x20; training ends up at 8 lanes, up at a good lane group, or failed, with notice 0x06,
and behind the by-pass down again; a port that comes up grants its pool but for the frames it holds, and keeps the replay
buffer of a short hop; a failed port tries again; a write of 1 to OD 0x5p00:07 restarts at 8 lanes. The automatic insertion
after boot order 12 and the end of a removal move the by-pass and the ports (10 R307, R308; 12 R344). -/
def Obligations.PortsTrainAndRestart : Prop :=
  ∀ (port : RingPort) (s : State),
    let n := portNum port
    let q := s.port n
    (q.up = false → ∀ lane, exec (.laneFailure port lane) s = .next s) ∧
    (q.up = true → ∀ lane : Fin 8, ∃ t, exec (.laneFailure port lane) s = .next t ∧
      Only [.nv, .dev, .ports, .parts, .eop, .out] s t ∧ (t.port n).st = 1 ∧ (t.port n).full = false ∧
      (∀ l, l < 8 → flag (t.port n).good l = (flag q.good l && decide (l ≠ lane.val))) ∧
      (t.port n).restarts = satInc q.restarts ∧ (t.port n).cfg = vget s.nv.ports n PortCfg.reset ∧
      t.port (1 - n) = s.port (1 - n) ∧ eventWritten 0x20 s t ∧ Noticed 0 0x06 stOk ((n + 1) * 256 + 1) t) ∧
    (q.st ≠ 1 → ∀ lanes, exec (.portTrainingEnd port lanes) s = .next s) ∧
    (q.st = 1 → s.dev.bypCmd = false → ∀ lanes, ∃ t, exec (.portTrainingEnd port lanes) s = .next t ∧
      Only [.ports, .parts, .eop, .out] s t ∧ t.port n = { q with st := 0, good := lanes &&& ~~~excludedLanes s n } ∧
      t.port (1 - n) = s.port (1 - n) ∧ Noticed 0 0x06 stOk ((n + 1) * 256) t) ∧
    (q.st = 1 → s.dev.bypCmd = true → ∀ lanes, let good := lanes &&& ~~~excludedLanes s n
      let st' : BitVec 8 := if q.full = true ∧ good = 0xFF then 2 else if fld good 3 0 = 15 ∨ fld good 7 4 = 15 then 3 else 4
      ∃ t, exec (.portTrainingEnd port lanes) s = .next t ∧ Only [.ports, .parts, .eop, .out] s t ∧
        (t.port n).st = st' ∧ (t.port n).good = good ∧ (t.port n).full = decide (st' = 2) ∧
        t.port (1 - n) = s.port (1 - n) ∧ Noticed 0 0x06 stOk ((n + 1) * 256 + st'.toNat) t ∧
        (st' ≠ 4 → (t.port n).credit = Vector.replicate 3 0 ∧ (t.port n).sent = Vector.replicate 3 0 ∧
          (t.port n).replayBuf = (if q.short then q.replayBuf else []) ∧ (t.port n).replayAt = 0 ∧
          ∀ c : Fin 3, (t.port n).rx[c].unreported = (vget q.classes.pool c 0).toNat - q.rx[c].inUse)) ∧
    (q.st ≠ 4 → exec (.portRestartRetry port) s = .next s) ∧
    (q.st = 4 → ∃ t, exec (.portRestartRetry port) s = .next t ∧ Only [.nv, .ports, .parts, .eop, .out] s t ∧
      (t.port n).st = 1 ∧ (t.port n).restarts = satInc q.restarts ∧ t.port (1 - n) = s.port (1 - n)) ∧
    (∀ r x e, Granted r x e s → r.index.toNat = 0x5100 + 0x100 * n → r.sub = 7 → val r = 1 →
      ∃ t, exec (.portRestart r) s = .next t ∧ Only [.nv, .ports, .parts, .eop, .out] s t ∧ (t.port n).st = 1 ∧
        (t.port n).full = true ∧ (t.port n).restarts = satInc q.restarts ∧ t.port (1 - n) = s.port (1 - n) ∧
        answer opWrite r x.num (some x.key) stOk [] ∈ t.out.portM) ∧
    (∃ t, exec (.insert none) s = .next t ∧ Only [.dev] s t ∧
      t.dev = if insertOk s = true ∧ s.dev.autoInsert = true ∧ s.dev.bypCmd = false then
        { s.dev with bypCmd := true, autoInsert := false } else s.dev) ∧
    (s.dev.removing = false → exec .removeComplete s = .next s) ∧
    (s.dev.removing = true → ∃ t, exec .removeComplete s = .next t ∧ Only [.dev, .ports, .parts, .eop, .out] s t ∧
      t.dev = { s.dev with bypCmd := false, removing := false, ringState := 0, autoInsert := false } ∧ (t.port n).st = 0 ∧
      (t.port n).txq = [] ∧ (t.port n).replayBuf = [])

/-- What a port does with a frame before its type counts (10 R281, R282, R284, R286, R289, R294): a port that is not up, and
a frame not carried as its attachment asks, bring nothing; a frame of any class that fails a check is counted in OD 0x5p20:08
and dropped, on a short hop with a LACK that asks for a replay, and one cut through leaves damaged; a class 0 frame without
room is counted in OD 0x5p20:07; one for another device leaves by the other port with one hop less, unless it has come round
or has no hop left. -/
def Obligations.FramesDroppedOrForwarded : Prop :=
  ∀ (port : RingPort) (f : VrtFrame) (s : State), ∀ w ∈ frameRows port f,
    let n := portNum port
    let q := s.port n
    let g := { f with payload := frameBody f }
    (q.up = false ∨ carried q f = false → exec w.1 s = .next s) ∧
    (frameOk f = true → w.2 = false → exec w.1 s = .next s) ∧
    (q.up = true → carried q f = true → frameOk f = false →
      let asked := if q.short then [lackFrame s n true] else []
      let damaged := (1 - n, { sealFrame { g with hopsLeft := f.hopsLeft - 1 } with fcsOk := false })
      ∃ t, exec w.1 s = .next t ∧ Only [.ports, .out] s t ∧ t.port n = { q with hdrDrops := satInc q.hdrDrops } ∧
        (∀ m, m ≠ n → t.port m = s.port m) ∧ (CutThrough port f s → Left (damaged :: asked) s t) ∧
        (¬ CutThrough port f s → Left asked s t)) ∧
    (Arrives port f s → w.2 = true → f.cls = 0 → class0Room q g = false → ∃ t, exec w.1 s = .next t ∧ PortOnly n s t ∧
      t.port n = { q with c0drops := satInc q.c0drops }) ∧
    (Arrives port f s → w.2 = true → f.cls = 0 → class0Room q g = true → hopLocal f = false → f.dstRing ≠ s.nv.ringId →
      ((f.srcRing = s.nv.ringId ∨ f.hopsLeft = 0) → ∃ t, exec w.1 s = .next t ∧ PortOnly n s t ∧
        t.port n = { tookClass0 q f with hdrDrops := satInc q.hdrDrops }) ∧
      (f.srcRing ≠ s.nv.ringId → f.hopsLeft ≠ 0 → ∃ t, exec w.1 s = .next t ∧ Only [.ports, .out] s t ∧
        t.port n = tookClass0 q f ∧ (∀ m, m ≠ n → t.port m = s.port m) ∧
        Left (if (s.port (1 - n)).up = true then [(1 - n, sealFrame { g with hopsLeft := f.hopsLeft - 1 })] else []) s t))

/-- The frames of a hop and its timers (10 R287, R288, R293, R294, R308), with no frame waiting at the port and, where said,
its replay buffer sent: credits, acknowledgements and replays, a frame that survived a restart and leaves after the first
LACK, probes and the delay they measure, the neighbour's leave, and PFC. -/
def Obligations.HopFramesAndTimers : Prop :=
  ∀ (port : RingPort) (s : State),
    let n := portNum port
    let q := s.port n
    let sent := q.replayAt = q.replayBuf.length
    q.txq = [] →
    (∀ f, OfTheHop port f s →
      let q' := tookClass0 q f
      let b := frameBody f
      (f.type = 1 → sent → q.cfg.attach = 0 → ∃ t, exec (.credit port f) s = .next t ∧ PortOnly n s t ∧
        t.port n = { q' with credit := (t.port n).credit } ∧
        ∀ c : Fin 3, (t.port n).credit[c].toNat = leNat (slice b (4 * c.val) 4)) ∧
      (f.type = 2 → let h : BitVec 32 := BitVec.ofNat 32 (leNat (b.take 4))
        let l := q.replayBuf.filter fun g => decide ((h - g.hseq).toNat ≥ 2 ^ 31)
        let kept := { q' with replayBuf := l, replayAt := l.length, awaitLack := false }
        (sent → (b[4]? ≠ some 1 ∨ l = []) → ∃ t, exec (.lack port f) s = .next t ∧ PortOnly n s t ∧ t.port n = kept) ∧
        (sent → b[4]? = some 1 → l ≠ [] → ∃ t, exec (.lack port f) s = .next t ∧ Only [.ports, .out] s t ∧
          t.port n = { kept with replays := satInc q.replays } ∧ Left (l.map fun g => (n, sealFrame g)) s t) ∧
        (∀ g, q.replayBuf = [g] → q.replayAt = 0 → q.short = true → 2 ^ 31 ≤ (h - g.hseq).toNat → b[4]? ≠ some 1 →
          classOpen q g.cls.toNat = true → ∃ t, exec (.lack port f) s = .next t ∧ Only [.ports, .out] s t ∧
            t.port n = { q' with
              replayAt := 1, awaitLack := false, sent := vmod q.sent (g.cls.toNat - 1) fun x => x + 1 } ∧
            Left [(n, sealFrame g)] s t)) ∧
      (f.type = 6 →
        (∃ t, exec (.probe port f) s = .next t ∧ Only [.ports, .out] s t ∧ t.port n = q' ∧ Left [hopFrame s n 1 f.xid] s t) ∧
        (∃ t, exec (.leave port f) s = .next t ∧ PortOnly n s t ∧ t.port n = { q' with peerLeft := true }) ∧
        ((∀ x ∈ q.probes, x.num ≠ f.xid) → ∃ t, exec (.probeReply port f) s = .next t ∧ PortOnly n s t ∧ t.port n = q') ∧
        (∀ x, (q.probes.find? fun y => decide (y.num = f.xid)) = some x →
          ∃ t, exec (.probeReply port f) s = .next t ∧ Only [.ports, .dev] s t ∧ (∀ m, m ≠ n → t.port m = s.port m) ∧
            t.port n = { q' with
              measured := BitVec.ofNat 32 (((s.dev.interval - x.sentAt).toNat * 32 + 999) / 1000),
              probes := q.probes.filter fun y => decide (y.num ≠ f.xid), probed := true } ∧
            t.dev = { s.dev with ringState := if s.dev.bypCmd = true ∧ s.dev.ringState = 0 ∧ s.dev.removing = false ∧
              (s.port (1 - n)).probed = true then 1 else s.dev.ringState }))) ∧
    (∃ t, exec (.probeTimer port) s = .next t ∧ (q.up = false → t = s) ∧ (q.up = true → Asks n false q.probes s t)) ∧
    ((q.up = false ∨ q.probes = []) → exec (.hopTimeout port) s = .next s) ∧
    (∀ x l, q.up = true → q.probes = x :: l → x.again = false →
      ∃ t, exec (.hopTimeout port) s = .next t ∧ Asks n true l s t) ∧
    (∀ x l, q.up = true → q.probes = x :: l → x.again = true → ∃ t, exec (.hopTimeout port) s = .next t ∧
      Only [.nv, .ports, .parts, .eop, .out] s t ∧ (t.port n).st = 1 ∧
      (t.port n).hopTimeouts = satInc q.hopTimeouts ∧ (t.port n).restarts = satInc q.restarts) ∧
    (∃ t, exec (.lackTimer port) s = .next t ∧ Only [.out] s t ∧
      Left (if linkRetry q = true then [lackFrame s n false] else []) s t) ∧
    (let l := if linkRetry q = true then q.replayBuf.take q.replayAt else []
      ∃ t, exec (.lackTimeout port) s = .next t ∧ Only [.ports, .out] s t ∧
        t.port n = { q with replays := if l = [] then q.replays else satInc q.replays } ∧
        Left (l.map fun g => (n, sealFrame g)) s t) ∧
    (q.up = true → q.cfg.attach = 0 → (∃ c : Fin 3, 0 < q.rx[c].unreported) →
      ∃ t f, exec (.creditTimer port) s = .next t ∧ Only [.ports, .out] s t ∧ t.port n = { q with rx := (t.port n).rx } ∧
        (∀ c : Fin 3, (t.port n).rx[c] = { q.rx[c] with
          granted := q.rx[c].granted + BitVec.ofNat 32 q.rx[c].unreported, unreported := 0 }) ∧
        Left [(n, sealFrame (newFrame s 1 0 (neighbour s n) 0 0 f))] s t ∧ f.length = 12 ∧
        ∀ c : Fin 3, slice f (4 * c.val) 4 = leBytes 4 (t.port n).rx[c].granted.toNat) ∧
    (∀ en pa, q.up = true → q.cfg.attach ≠ 0 → sent → ∃ t, exec (.pfcFrame port en pa) s = .next t ∧ PortOnly n s t ∧
      t.port n = { q with paused := (t.port n).paused } ∧ flag (t.port n).paused 0 = flag q.paused 0 ∧
      ∀ c, 1 ≤ c → c < 4 → flag (t.port n).paused c =
        if flag en (fld q.classes.prio (3 * c + 2) (3 * c)) = true then flag pa (fld q.classes.prio (3 * c + 2) (3 * c))
        else flag q.paused c)

namespace Sys2Proof.Claims

/-- A frame of class 1 to 3 that a port takes for a partition of this device: link-level receive accepts it under credit,
the partition is not being reset, and a buffer of its part of the pool is free (10 R284, R287, R294; 13 R356, R362). -/
def Taken (port : RingPort) (f : VrtFrame) (s : State) : Prop :=
  let n := portNum port
  let g := { f with payload := frameBody f }
  Reaches port f s ∧ f.cls ≠ 0 ∧ (linkReceive n g s).1 = true ∧ (s.part f.dstPart.toNat).st ≠ 3 ∧
  (holdBuffer n g (linkReceive n g s).2).1 = true

/-- A class 0 frame that a port takes for this device, with room in its class 0 buffers (10 R286). -/
def TakenClass0 (port : RingPort) (f : VrtFrame) (s : State) : Prop :=
  Reaches port f s ∧ f.cls = 0 ∧ class0Room (s.port (portNum port)) { f with payload := frameBody f } = true

/-- The transfer a DATA frame begins. -/
def firstOf (port : RingPort) (f : VrtFrame) : RxXfer :=
  { RxXfer.reset with
    srcRing := f.srcRing, srcPart := f.srcPart, part := f.dstPart.toNat, stream := f.stream, xid := f.xid,
    port := portNum port, cls := f.cls, total := f.aux.toNat, frames := [(0, frameBody f)], last := some 0, unacked := 1 }

/-- A PMBus write with its PEC byte (14 R376). -/
def withPec (bs : List Byte) : List Byte := bs ++ [BitVec.ofNat 8 (pecOf bs)]

/-- The one command in progress on the data mover of cell c has reached a status. -/
def Reached (c : Nat) (n : BitVec 32) (status : Nat) (s t : State) : Prop :=
  ∀ y, (s.cell c).dm = [y] → y.entry.seqNo = n → y.done = none →
    ∃ z o, (t.cell c).dm = [z] ∧ z.entry = y.entry ∧ z.done = some o ∧ o.status = BitVec.ofNat 8 status

/-- Collective or barrier x is the only work of its member p, which runs, and nothing waits for it. -/
def OnlyWork (p : Nat) (x : Coll) (s : State) : Prop :=
  (s.part p).st = 1 ∧ (s.part p).colls = [x] ∧ x.group < 16 ∧
  notYet s p x.group x.barrier x.inst = false

/-- A control frame of a collective (10 R305) for the member p and the work x. -/
def Control (port : RingPort) (f : VrtFrame) (kind p : Nat) (x : Coll) (s : State) : Prop :=
  TakenClass0 port f s ∧ f.type = 5 ∧ (frameBody f).head? = some (BitVec.ofNat 8 kind) ∧
  f.dstPart.toNat = p ∧ f.stream.toNat = x.group ∧ f.xid = x.inst ∧ x.barrier = false ∧ OnlyWork p x s

/-- The other members of the work's group are on other devices, and this one has the index me. -/
def OthersRemote (p me : Nat) (x : Coll) (s : State) : Prop :=
  memberIndex s p x.group = some me ∧ 2 ≤ (membersOf s p x.group).length ∧
  ∀ i m, (membersOf s p x.group)[i]? = some m → i ≠ me → m.1 ≠ s.nv.ringId.toNat

end Sys2Proof.Claims

/-- DATA, SACK, DESC and DONE frames (10 R288, R294, R296, R298, R299; 07 R204): a frame beyond the credit granted is
counted at the port and at its partition; on a short hop one out of sequence is answered with LACK and dropped; a whole
transfer of one frame waits for its descriptor; an acknowledgement of every frame ends a transfer with OK, and one that says
it was refused with OUT_OF_RANGE, whatever code it carries (00 R16); a descriptor
with a good tag and sequence enters its paced queue and one without is counted; DONE changes nothing but the port. -/
def Obligations.StreamFrames : Prop :=
  ∀ (port : RingPort) (f : VrtFrame) (s : State),
    let n := portNum port
    let q := s.port n
    let p := f.dstPart.toNat
    (Reaches port f s → f.type = 0 → q.cfg.attach = 0 → q.short = false →
      (vget q.rx (f.cls.toNat - 1) PortRx.reset).recvd = (vget q.rx (f.cls.toNat - 1) PortRx.reset).granted →
      ∃ t, exec (.data port f) s = .next t ∧ Only [.ports, .parts] s t ∧ (∀ m, m ≠ n → t.port m = s.port m) ∧
        t.port n = { q with beyond := satInc q.beyond } ∧ OtherParts p s t ∧
        t.part p = { s.part p with credViol := satInc (s.part p).credViol }) ∧
    (Reaches port f s → f.type = 0 → q.short = true → f.hseq ≠ q.hseqRx →
      ∃ t, exec (.data port f) s = .next t ∧ Only [.out] s t ∧
        Left (if (f.hseq - q.hseqRx).toNat < 2 ^ 31 then
          [lackFrame s n true] else []) s t) ∧
    (Taken port f s → f.type = 0 → f.eseq = 0 → f.last = true → s.ring.rx = [] → (s.part p).recvs = [] →
      ∃ t, exec (.data port f) s = .next t ∧ Only [.ports, .ring, .out] s t ∧ t.ring = { s.ring with rx := [firstOf port f] }) ∧
    (∀ x c m, TakenClass0 port f s → f.type = 3 → flag f.aux 31 = false → (s.part p).st ≠ 3 → s.ring.tx = [x] →
      x.xid = f.xid → x.dstRing = f.srcRing → x.part = p → x.origin = .cmd c m →
      (f.aux = 0 → leNat ((frameBody f).take 4) + 1 < 2 ^ 32 → x.acked.length ≤ leNat ((frameBody f).take 4) + 1) →
      ∃ t, exec (.sack port f) s = .next t ∧ Only [.cells, .ring, .ports] s t ∧ t.ring = { s.ring with tx := [] } ∧
        (∀ k, k ≠ c → t.cell k = s.cell k) ∧ Reached c m (if f.aux = 0 then stOk else stRange) s t) ∧
    (Taken port f s → f.type = 7 → descSession { f with payload := frameBody f } s = none →
      ∃ t, exec (.desc port f) s = .next t ∧ Only [.ports, .parts, .out] s t ∧ OtherParts p s t ∧
        t.part p = { s.part p with badDesc := satInc (s.part p).badDesc }) ∧
    (∀ x e, Taken port f s → f.type = 7 → descSession { f with payload := frameBody f } s = some x →
      descEngine f.stream = some e → (vget (s.part p).paced e []).length < pacedDepth e → s.dev.removing = false →
      let d : BitVec 256 := BitVec.ofNat 256 (leNat ((frameBody f).take 32))
      (if e = 2 then dOp d = 3 else dOp d = 1 ∨ dOp d = 2) →
      ∃ t, exec (.desc port f) s = .next t ∧ Only [.ports, .parts, .eop, .out] s t ∧ OtherParts p s t ∧
        t.part p = { s.part p with paced := vmod (s.part p).paced e (· ++ [⟨d, x.num, n, false⟩]) } ∧
        ∀ y ∈ t.eop.sessions, y.num = x.num → y.descSeq = some f.eseq) ∧
    (Taken port f s → f.type = 8 → ∃ t, exec (.done port f) s = .next t ∧ Only [.ports, .out] s t)

/-- The descriptors of the paced engines and the timers of transfers (07 R203; 10 R296, R297, R299): RECV and PUT post
the next descriptor of their queue, SEND opens a transfer of its bytes; a descriptor with bad fields retires with
OUT_OF_RANGE; with none next nothing changes. A receiver acknowledges what it holds; an uncovered frame is sent again,
or is lost after 8 sends and 100 ms and fails its command with RING_HOP_TIMEOUT. -/
def Obligations.StreamDescriptorsAndTimers : Prop :=
  ∀ (eng : Fin 2) (p : Fin 8) (s : State),
    (∀ w ∈ [(Instr.recv eng p, eng.val, 1), (.send eng p, eng.val, 2), (.put p, 2, 3)],
      (nextDesc s p w.2.1 w.2.2 = none → exec w.1 s = .next s) ∧
      (∀ x, nextDesc s p w.2.1 w.2.2 = some x → descBad s p false x.desc = true →
        ∃ t, exec w.1 s = .next t ∧ Only [.parts, .ports, .out] s t ∧ OtherParts p s t ∧
          (vget (t.part p).paced w.2.1 []).length + 1 = (vget (s.part p).paced w.2.1 []).length ∧
          (t.part p).recvs = (s.part p).recvs)) ∧
    (∀ w ∈ [(Instr.recv eng p, eng.val, 1), (.put p, 2, 3)], ∀ x, nextDesc s p w.2.1 w.2.2 = some x →
      descBad s p false x.desc = false → s.ring.rx = [] →
      ∃ t, exec w.1 s = .next t ∧ Only [.parts] s t ∧ OtherParts p s t ∧
        t.part p = { s.part p with
          paced := vmod (s.part p).paced w.2.1 markTaken,
          recvs := (s.part p).recvs ++ [{ RecvPost.reset with
            desc := x.desc, host := some x.session, put := decide (w.2.1 = 2), engine := w.2.1, port := x.port }] }) ∧
    (∀ x, nextDesc s p eng 2 = some x → descBad s p false x.desc = false → s.mem.errs = [] → dClass x.desc ≠ 0 →
      ∃ t y, exec (.send eng p) s = .next t ∧ Only [.parts, .ring, .ports, .out] s t ∧ OtherParts p s t ∧
        t.part p = { s.part p with paced := vmod (s.part p).paced eng markTaken } ∧ t.ring.rx = s.ring.rx ∧
        t.ring.nextXid = s.ring.nextXid + 1 ∧ y ∈ t.ring.tx ∧ y.xid = s.ring.nextXid ∧ y.part = p ∧ y.port = dDir x.desc ∧
        y.len = dLen x.desc ∧ y.dstRing.toNat = dRing x.desc ∧ y.dstPart.toNat = dPart x.desc ∧
        y.stream.toNat = dStream x.desc ∧ y.origin = .desc eng x.desc x.port) ∧
    (∀ x, s.ring.rx = [x] → (x.unacked = 0 → exec (.sackTimer 0) s = .next s) ∧
      (0 < x.unacked → (s.port x.port).up = true → ∃ t f, exec (.sackTimer 0) s = .next t ∧ Only [.ring, .out] s t ∧
        t.ring = { s.ring with rx := [{ x with unacked := 0 }] } ∧ Left [(x.port, f)] s t ∧ f.type = 3 ∧
        f.dstRing = x.srcRing ∧ f.xid = x.xid ∧ f.payload.take 4 = leBytes 4 (BitVec.ofNat 32 (inOrder x) - 1).toNat)) ∧
    (∀ xid lapsed, txOf s xid = none → exec (.pathTimeout xid lapsed) s = .next s) ∧
    (∀ x i lapsed, s.ring.tx = [x] → x.acked.findIdx? (fun a => !a) = some i → s.mem.errs = [] →
      (lapsed = true → 8 ≤ (x.sends[i]?).getD 0 → ∀ c m, x.origin = .cmd c m →
        ∃ t, exec (.pathTimeout x.xid lapsed) s = .next t ∧ Only [.cells, .ring] s t ∧ t.ring = { s.ring with tx := [] } ∧
          (∀ k, k ≠ c → t.cell k = s.cell k) ∧ Reached c m stHop s t) ∧
      (¬ (lapsed = true ∧ 8 ≤ (x.sends[i]?).getD 0) → ∃ t, exec (.pathTimeout x.xid lapsed) s = .next t ∧
        Only [.ring, .ports, .out] s t ∧ t.ring = { s.ring with tx := [{ x with
          sends := x.sends.zipIdx.map fun y => if y.2 = i then y.1 + 1 else y.1 }] }))

/-- Collectives and barriers at a member (10 R300, R301, R304, R305): COMMIT copies the staged result to DADDR and ends
the command with OK; ABORT ends it with COLLECTIVE_ABORTED and stores nothing; the coordinator records a READY until it
has all, and decides abort on an ABORT_REQ; a result segment lands in staging; a barrier is released or an arrival noted;
a timeout without a decision ends with RING_HOP_TIMEOUT; a frame for an instance not yet issued waits. -/
def Obligations.CollectivesAtAMember : Prop :=
  ∀ (port : RingPort) (f : VrtFrame) (p me : Nat) (x : Coll) (s : State),
    let n := (membersOf s p x.group).length
    (Control port f 3 p x s → CleanMemory s → x.stage + resultLen x n ≤ s.stackBytes p →
      x.dst + resultLen x n ≤ s.stackBytes p →
      ∃ t, exec (.cctlCommit port f) s = .next t ∧ Only [.cells, .mem, .parts, .ring, .ports] s t ∧ (t.part p).colls = [] ∧
        vget (t.part p).decision x.group 1 = 0 ∧ Reached x.cell x.seqNo stOk s t ∧
        (relRead p x.dst (resultLen x n) t).1 = (relRead p x.stage (resultLen x n) s).1) ∧
    (Control port f 4 p x s → ∃ t, exec (.cctlAbort port f) s = .next t ∧ Only [.cells, .parts, .ring, .ports] s t ∧
      OtherParts p s t ∧ (t.part p).colls = [] ∧ vget (t.part p).decision x.group 1 = 0x31 ∧
      Reached x.cell x.seqNo stAborted s t) ∧
    (∀ i, Control port f 1 p x s → OthersRemote p 0 x s → x.decided = none → i ∉ x.readyFrom →
      (membersOf s p x.group).findIdx? (fun m => decide (m = (f.srcRing.toNat, f.srcPart.toNat))) = some i →
      (frameBody f).drop 1 = readyInfo s p x → x.readyFrom.length + 1 < n →
      ∃ t, exec (.cctlReady port f) s = .next t ∧ Only [.parts, .ports] s t ∧ OtherParts p s t ∧
        t.part p = { s.part p with colls := [{ x with readyFrom := x.readyFrom ++ [i] }] }) ∧
    (Control port f 2 p x s → OthersRemote p 0 x s →
      (x.decided.isSome = true → ∃ t, exec (.cctlAbortReq port f) s = .next t ∧ PortOnly (portNum port) s t) ∧
      (x.decided = none → ∃ t, exec (.cctlAbortReq port f) s = .next t ∧ Only [.cells, .parts, .ring, .ports, .out] s t ∧
        OtherParts p s t ∧ (t.part p).colls = [] ∧ vget (t.part p).decision x.group 1 = 0x31 ∧
        Reached x.cell x.seqNo stAborted s t)) ∧
    (Taken port f s → f.type = 4 → f.dstPart.toNat = p → OnlyWork p x s → OthersRemote p me x s → me ≠ 0 →
      f.stream.toNat = x.group → f.xid = x.inst → x.barrier = false → x.cop = 2 → x.aborted = false →
      fld f.aux 31 30 = 1 → f.eseq.toNat < segCount x → f.eseq.toNat ∉ x.haveSegs → wants x n me f.eseq.toNat = true →
      (frameBody f).length = segLen x f.eseq.toNat → s.mem.errs = [] →
      x.stage + resultOff x n f.eseq.toNat + segLen x f.eseq.toNat ≤ s.stackBytes p →
      ∃ t y, exec (.cseg port f) s = .next t ∧ Only [.mem, .ports, .parts, .out] s t ∧ (t.part p).colls = [y] ∧
        y.haveSegs = x.haveSegs ++ [f.eseq.toNat] ∧
        (relRead p (x.stage + resultOff x n f.eseq.toNat) (segLen x f.eseq.toNat) t).1 = some (frameBody f)) ∧
    (∀ i, TakenClass0 port f s → f.type = 9 → f.dstPart.toNat = p → f.stream.toNat = x.group → f.xid = x.inst →
      x.barrier = true → OnlyWork p x s → OthersRemote p me x s →
      (me ≠ 0 → ∃ t, exec (.barrierFrame port f) s = .next t ∧ Only [.cells, .parts, .ring, .ports] s t ∧ OtherParts p s t ∧
        (t.part p).colls = [] ∧ (t.part p).decision = (s.part p).decision ∧ Reached x.cell x.seqNo stOk s t) ∧
      (me = 0 → i ∉ x.readyFrom → x.readyFrom.length + 1 < n →
        (membersOf s p x.group).findIdx? (fun m => decide (m = (f.srcRing.toNat, f.srcPart.toNat))) = some i →
        ∃ t, exec (.barrierFrame port f) s = .next t ∧ Only [.parts, .ports] s t ∧ OtherParts p s t ∧
          t.part p = { s.part p with colls := [{ x with readyFrom := x.readyFrom ++ [i] }] })) ∧
    (∀ (k : Fin 8) (g : Fin 16), p = k.val → x.group = g.val → OnlyWork p x s →
      ((x.barrier = true ∨ x.ready = true ∨ x.aborted = true) → ∃ t, exec (.collectiveTimeout k ⟨g, x.barrier, x.inst⟩) s = .next t ∧
        Only [.cells, .parts, .ring] s t ∧ OtherParts p s t ∧ (t.part p).colls = [] ∧ Reached x.cell x.seqNo stHop s t) ∧
      (x.barrier = false → x.ready = false → x.aborted = false → OthersRemote p me x s → me ≠ 0 →
        ∃ t, exec (.collectiveTimeout k ⟨g, x.barrier, x.inst⟩) s = .next t ∧ Only [.parts, .out] s t ∧ OtherParts p s t ∧
          t.part p = { s.part p with colls := [{ x with aborted := true }] })) ∧
    (∀ (k : Fin 8) (g : Fin 16) (b : Bool) (i : BitVec 32),
      (∀ y ∈ (s.part k).colls, ¬ (y.group = g.val ∧ y.barrier = b ∧ y.inst = i)) →
      exec (.collectiveTimeout k ⟨g, b, i⟩) s = .next s) ∧
    (TakenClass0 port f s → f.type = 5 → f.dstPart.toNat = p → (s.part p).st ≠ 0 → (s.part p).st ≠ 3 →
      f.stream.toNat < 16 → notYet s p f.stream.toNat false f.xid = true → (frameBody f).head? = some 3 →
      ∃ t, exec (.cctlCommit port f) s = .next t ∧ Only [.parts, .ports] s t ∧ OtherParts p s t ∧
        t.part p = { s.part p with
          early := (s.part p).early ++ [(portNum port, { f with payload := frameBody f })] })

/-- Cupping (16 R411 to R415): the peer's DIGEST for the point waited at passes it and lets the cores go on when the
digests agree, and stops the partition with notice 0x08 when they differ; END and a silent peer end cupping with state 4
and let the cores go on; DIGEST is sent again while the peer's is missing. -/
def Obligations.CuppingComparesAndEnds : Prop :=
  ∀ (p : Fin 8) (s : State),
    let q := s.part p
    let freed := fun (t : State) => (t.part p).atPoint = false ∧
      ∀ c ∈ s.cellsOf p, (t.cell c).core = { (s.cell c).core with
        run := if (s.cell c).core.run = .atMark then .running else (s.cell c).core.run }
    let peer := cupPeer q.det.cup
    (∀ (port : RingPort) (f : VrtFrame) (n : BitVec 64), TakenClass0 port f s → f.type = 6 →
      f.dstPart.toNat = p → peer = (f.srcRing, f.srcPart.toNat) → (frameBody f).head? = some 0x10 → peer.1 ≠ s.nv.ringId →
      ((frameBody f)[1]? = some 1 → payloadPoint (frameBody f) = n → cupActive q = true → q.cup.point = some n →
        q.saveReq = none → s.mem.errs = [] → q.st = 1 →
        (slice (frameBody f) 24 64 = digestBytes q.det.run ++ digestBytes q.det.d →
          ∃ t, exec (.cuppingDigest port f) s = .next t ∧ Only [.cells, .parts, .ports, .out] s t ∧ OtherParts p s t ∧
            (t.part p).cup.st = 2 ∧ (t.part p).cup.point = none ∧ (t.part p).st = 1 ∧ freed t ∧
            ∀ c ∈ s.liveCells p, (t.cell c).trace = []) ∧
        (slice (frameBody f) 24 64 ≠ digestBytes q.det.run ++ digestBytes q.det.d →
          ∃ t, exec (.cuppingDigest port f) s = .next t ∧ (t.part p).cup.st = 3 ∧ (t.part p).cup.point = none ∧
            (t.part p).st = 2 ∧ Noticed p 0x08 stDigest q.commitN t ∧
            Only [.cells, .parts, .mem, .free, .ports, .ring, .eop, .out] s t)) ∧
      ((frameBody f)[1]? = some 2 → cupEnabled q.det.cup = true → q.cup.st ≠ 0 → q.cup.st ≠ 3 → q.cup.st ≠ 4 →
        q.saveReq = none → ∃ t, exec (.cuppingEnd port f) s = .next t ∧ Only [.cells, .parts, .ports] s t ∧ OtherParts p s t ∧
          (t.part p).cup = { q.cup with st := 4, point := none } ∧ (q.cup.point.isSome = true → freed t) ∧
          (q.cup.point = none → t.cells = s.cells))) ∧
    (q.cup.point = none → exec (.cuppingResend p) s = .next s ∧ exec (.cuppingPeerTimeout p) s = .next s) ∧
    (∀ n, q.cup.point = some n →
      (peer.1 ≠ s.nv.ringId → (s.port (routePort s peer.1)).up = true →
        ∃ t, exec (.cuppingResend p) s = .next t ∧ Only [.out] s t ∧
          Left [(routePort s peer.1, sealFrame (newFrame s 6 0 peer.1 peer.2 p (digestOf q n)))] s t) ∧
      (q.saveReq = none → ∃ t, exec (.cuppingPeerTimeout p) s = .next t ∧ Only [.cells, .parts] s t ∧ OtherParts p s t ∧
        (t.part p).cup = { q.cup with st := 4, point := none } ∧ freed t))

/-- The power manager (14 R370 to R379): the cap loop takes one estimate a millisecond and selects the greatest issue
value that fits; a droop clamp comes on and goes off, and abandons a step in progress; the alert enters the lowest state
and its release the return, but in husk mode and during a reset, where only the level of the pin changes; each transaction
that starts leaves on the PMBus; one not acknowledged, or with a wrong PEC, is repeated, and the fourth failure is a regulator
fault; a step ends when its write has. -/
def Obligations.PowerManager : Prop :=
  ∀ (d : Die) (s : State),
    let n := dieNum d
    let r := s.rail n
    let w := s.power
    (∀ a b c k : Nat, (¬ (managing s = true ∧ 9 ≤ s.dev.bootOrder) → exec (.capStep a b c k) s = .next s) ∧
      (managing s = true → 9 ≤ s.dev.bootOrder → ∃ t, exec (.capStep a b c k) s = .next t ∧ Only [.power] s t ∧
        let est : Vector Nat 4 := #v[a, b, c, k]
        let room := min (capUnits s * (windowBins s : Nat) - (t.power.e - t.power.bins.getD t.power.oldest 0)) (limUnits s)
        t.power = { w with
          bins := w.bins.set w.oldest (drawn est w.kCap), e := w.e - w.bins.getD w.oldest 0 + drawn est w.kCap,
          oldest := (w.oldest + 1) % windowBins s, est := est, kCap := t.power.kCap } ∧
        t.power.kCap ∈ [8, 16, 24, 32, 40, 48, 56, 64] ∧ (t.power.kCap ≠ 8 → drawn est t.power.kCap ≤ room) ∧
        ∀ v ∈ [16, 24, 32, 40, 48, 56, 64], t.power.kCap < v → room < drawn est v)) ∧
    (∀ det, (managing s = false → exec (.droopTrip d det) s = .next s) ∧
      (managing s = true → ∃ t, exec (.droopTrip d det) s = .next t ∧ Only [.power, .out] s t ∧
        t.rail (1 - n) = s.rail (1 - n) ∧ (t.rail n).droop = true ∧ flag (t.rail n).tripped det = true ∧
        ((r.step = none ∨ r.step = some .lowest ∨ r.step = some .restore) → t.power.bus = w.bus ∧ t.out = s.out ∧
          t.rail n = { r with droop := true, tripped := (t.rail n).tripped }) ∧
        ((r.step = some .boot ∨ r.step = some .ret) → (t.rail n).step = some .restore ∧ (t.rail n).target = r.prev ∧
          (t.rail n).sent = false))) ∧
    (r.droop = false → exec (.droopClampRelease d) s = .next s) ∧
    (r.droop = true → r.next = none → ∃ t, exec (.droopClampRelease d) s = .next t ∧ Only [.power] s t ∧
      t.power = { w with rails := t.power.rails } ∧ t.rail n = { r with droop := false, tripped := 0 } ∧
      t.rail (1 - n) = s.rail (1 - n)) ∧
    (s.dev.powered = false ∨ s.dev.vrAlertN = false → exec .vrAlertAssert s = .next s) ∧
    (s.dev.powered = true → s.dev.vrAlertN = true → managing s = false →
      exec .vrAlertAssert s = .next { s with dev := { s.dev with vrAlertN := false } }) ∧
    (managing s = true → s.dev.vrAlertN = true → w.bus = [] → commanded (s.rail 0) = true → commanded (s.rail 1) = true →
      (s.rail 0).step = none → (s.rail 1).step = none → ∃ t, exec .vrAlertAssert s = .next t ∧ Only [.dev, .power, .out] s t ∧
        t.out = { s.out with pmbus := s.out.pmbus ++ [withPec ([0xC0, 0x21] ++ leBytes 2 (voutWord (s.rail 0).exp 550).toNat)] } ∧
        t.dev = { s.dev with vrAlertN := false } ∧ t.power.lowest = true ∧ t.power.returning = false ∧
        t.power.kCap = w.kCap ∧ (t.rail 0).target = 550 ∧ (t.rail 0).step = some .lowest ∧ (t.rail 1).step = none ∧
        t.power.bus.map (fun b => (b.rail.val, b.cmd, b.step)) = [(0, 0x21, some .lowest), (1, 0x21, some .lowest)] ∧
        t.power.bus.map PmTxn.data = [voutWord (s.rail 0).exp 550, 0]) ∧
    (s.dev.powered = false ∨ s.dev.vrAlertN = true → exec .vrAlertRelease s = .next s) ∧
    (s.dev.powered = true → s.dev.vrAlertN = false → managing s = false ∨ w.lowest = false →
      exec .vrAlertRelease s = .next { s with dev := { s.dev with vrAlertN := true } }) ∧
    (managing s = true → s.dev.vrAlertN = false → w.lowest = true → w.bus = [] → commanded (s.rail 0) = true → commanded (s.rail 1) = true →
      (s.rail 0).step ≠ some .restore → (s.rail 1).step ≠ some .restore → ∃ t, exec .vrAlertRelease s = .next t ∧
        Only [.dev, .power, .out] s t ∧ t.out = { s.out with pmbus := s.out.pmbus ++ [[0xC0, 0x79, 0xC1]] } ∧
        t.dev = { s.dev with vrAlertN := true } ∧ t.power.lowest = false ∧
        t.power.returning = true ∧ t.power.bus.map (fun b => (b.rail.val, b.cmd, b.step)) =
          [(0, 0x79, none), (1, 0x79, none), (0, 0x03, none), (1, 0x03, none), (0, 0x21, some .ret), (1, 0x21, some .ret)]) ∧
    (∀ ack rd, w.bus = [] → exec (.pmbusTransactionEnd ack rd) s = .next s) ∧
    (∀ b rd pec, w.bus = [b] → b.cmd ≠ 0x20 → pecHolds b rd pec = true →
      ∃ t, exec (.pmbusTransactionEnd true ⟨rd, pec⟩) s = .next t ∧ Only [.power] s t ∧
      t.power.bus = [] ∧ (b.step.isSome = true → (s.rail b.rail).step = b.step → (t.rail b.rail).sent = true)) ∧
    (∀ b l ack rd pec, w.bus = b :: l → b.retry = false → ¬ (b.cmd = 0x21 ∧ b.step = none) →
      (ack && pecHolds b rd pec) = false →
      (b.tries < 3 → ∃ t, exec (.pmbusTransactionEnd ack ⟨rd, pec⟩) s = .next t ∧ Only [.power, .out] s t ∧
        t.out = { s.out with pmbus := s.out.pmbus ++ [busBytes b] } ∧ t.power.bus = { b with tries := b.tries + 1 } :: l ∧
          t.power.rails = w.rails ∧ t.power.retries = w.retries) ∧
      (3 ≤ b.tries → l = [] → ∃ t, exec (.pmbusTransactionEnd ack ⟨rd, pec⟩) s = .next t ∧ Only [.power, .nv, .dev] s t ∧
        t.power.bus = [] ∧ t.power.retries = w.retries ++ [{ b with retry := true }] ∧ (t.rail b.rail).hold = true ∧
        eventWritten 0x33 s t)) ∧
    ((∀ b ∈ w.retries, b.rail.val ≠ n) → exec (.pmbusRetry d) s = .next s) ∧
    (∃ t, exec (.pmbusRetry d) s = .next t ∧ Only [.power, .out] s t ∧
      t.power.retries = w.retries.filter (fun b => decide (b.rail.val ≠ n)) ∧
      t.power.bus.map (fun b => (b.rail, b.cmd)) =
        (w.bus ++ w.retries.filter fun b => decide (b.rail.val = n)).map fun b => (b.rail, b.cmd)) ∧
    ((r.step = none ∨ r.sent = false) → exec (.voltageStepEnd d) s = .next s) ∧
    (∀ k, r.step = some k → r.sent = true → r.next = none → ¬ (k = .restore ∧ w.lowest = true) →
      ∃ t, exec (.voltageStepEnd d) s = .next t ∧ Only [.power] s t ∧ t.power.bus = w.bus ∧
        t.rail n = { r with step := none, sent := false } ∧ t.rail (1 - n) = s.rail (1 - n))
end

