-- ==== Sys2Proof/Laws/Bytes.lean ====
section
/-! SUPPORT. Byte strings and the numbers they spell. -/

set_option Elab.async false

namespace Sys2Proof.Machine

@[simp] theorem leBytes_length (n v : Nat) : (leBytes n v).length = n := by
  induction n generalizing v with
  | zero => rfl
  | succ n ih => simp [leBytes, ih]

@[simp] theorem beBytes_length (n v : Nat) : (beBytes n v).length = n := by simp [beBytes]

theorem leNat_lt (bs : List Byte) : leNat bs < 256 ^ bs.length := by
  induction bs with
  | nil => simp [leNat]
  | cons b bs ih =>
    have := b.isLt
    simp only [leNat, List.length_cons, pow_succ]
    omega

/-- The number that the n low bytes of v spell. -/
theorem leNat_leBytes (n v : Nat) : leNat (leBytes n v) = v % 256 ^ n := by
  induction n generalizing v with
  | zero => simp [leBytes, leNat, Nat.mod_one]
  | succ n ih =>
    simp only [leBytes, leNat, ih, BitVec.toNat_ofNat]
    rw [show (2 : Nat) ^ 8 = 256 from rfl, pow_succ, Nat.mul_comm (256 ^ n), Nat.mod_mul]

theorem leNat_append (a b : List Byte) : leNat (a ++ b) = leNat a + 256 ^ a.length * leNat b := by
  induction a with
  | nil => simp [leNat]
  | cons x a ih => simp only [List.cons_append, leNat, ih, List.length_cons, pow_succ]; ring

/-- A big-endian string is its reverse read little-endian. -/
theorem beNat_eq (bs : List Byte) : beNat bs = leNat bs.reverse := by
  have h : ∀ (bs : List Byte) (a : Nat),
      bs.foldl (fun a b => a * 256 + b.toNat) a = leNat bs.reverse + 256 ^ bs.length * a := by
    intro bs
    induction bs with
    | nil => simp [leNat]
    | cons b bs ih =>
      intro a
      simp only [List.foldl_cons, ih, List.reverse_cons, leNat_append, leNat, List.length_reverse, List.length_cons,
        pow_succ]
      ring
  rw [beNat, h bs 0, Nat.mul_zero, Nat.add_zero]

theorem beNat_beBytes (n v : Nat) : beNat (beBytes n v) = v % 256 ^ n := by
  rw [beNat_eq, beBytes, List.reverse_reverse, leNat_leBytes]

/-- A byte string is the low bytes of the number it spells. -/
theorem leBytes_leNat (bs : List Byte) : leBytes bs.length (leNat bs) = bs := by
  induction bs with
  | nil => rfl
  | cons b bs ih =>
    have hb := b.isLt
    simp only [leNat, List.length_cons, leBytes, List.cons.injEq]
    refine ⟨BitVec.eq_of_toNat_eq ?_, ?_⟩
    · simp only [BitVec.toNat_ofNat]; omega
    · rw [show (b.toNat + 256 * leNat bs) / 256 = leNat bs by omega, ih]

theorem beBytes_beNat (bs : List Byte) : beBytes bs.length (beNat bs) = bs := by
  have h := leBytes_leNat bs.reverse
  rw [List.length_reverse] at h
  rw [beBytes, beNat_eq, h, List.reverse_reverse]

end Sys2Proof.Machine
end

