-- ==== Sys2Proof/Laws/Memory.lean ====
section
/-! SUPPORT. The canonical form of memory and what its operations leave at each address. -/

set_option Elab.async false

namespace Sys2Proof.Machine

/-! ### Rising lists -/

theorem rising_iff_pairwise {α : Type} (l : List (Nat × α)) :
    rising l = true ↔ l.Pairwise fun x y => x.1 < y.1 := by
  induction l with
  | nil => simp [rising]
  | cons x r ih =>
    cases r with
    | nil => simp [rising]
    | cons y r =>
      simp only [rising, Bool.and_eq_true, decide_eq_true_eq, ih, List.pairwise_cons]
      constructor
      · rintro ⟨h, h', h''⟩
        refine ⟨fun z hz => ?_, h', h''⟩
        rcases List.mem_cons.1 hz with rfl | hz
        · exact h
        · exact lt_trans h (h' z hz)
      · rintro ⟨h, h', h''⟩
        exact ⟨h y (by simp), h', h''⟩

theorem rising_filter {α : Type} {l : List (Nat × α)} (f : Nat × α → Bool) (h : rising l = true) :
    rising (l.filter f) = true :=
  (rising_iff_pairwise _).2 (((rising_iff_pairwise _).1 h).filter f)

theorem rising_append {α : Type} {l r : List (Nat × α)} (hl : rising l = true) (hr : rising r = true)
    (h : ∀ x ∈ l, ∀ y ∈ r, x.1 < y.1) : rising (l ++ r) = true :=
  (rising_iff_pairwise _).2 (List.pairwise_append.2 ⟨(rising_iff_pairwise _).1 hl, (rising_iff_pairwise _).1 hr, h⟩)

theorem mem_mapSet {α : Type} (l : List (Nat × α)) (k : Nat) (v : α) (y : Nat × α) (h : y ∈ mapSet l k v) :
    y.1 = k ∨ y ∈ l := by
  induction l with
  | nil => simp only [mapSet, List.mem_singleton] at h; simp [h]
  | cons x r ih =>
    obtain ⟨j, w⟩ := x
    unfold mapSet at h
    split at h
    · rcases List.mem_cons.1 h with rfl | h
      · exact .inl rfl
      · exact .inr h
    · split at h
      · rcases List.mem_cons.1 h with rfl | h
        · exact .inl rfl
        · exact .inr (List.mem_cons_of_mem _ h)
      · rcases List.mem_cons.1 h with rfl | h
        · exact .inr (by simp)
        · rcases ih h with h | h
          · exact .inl h
          · exact .inr (List.mem_cons_of_mem _ h)

theorem rising_mapSet {α : Type} (l : List (Nat × α)) (k : Nat) (v : α) (h : rising l = true) :
    rising (mapSet l k v) = true := by
  rw [rising_iff_pairwise] at *
  induction l with
  | nil => simp [mapSet]
  | cons x r ih =>
    obtain ⟨j, w⟩ := x
    rw [List.pairwise_cons] at h
    unfold mapSet
    split
    · rename_i hk
      exact List.pairwise_cons.2 ⟨fun y hy => by
        rcases List.mem_cons.1 hy with rfl | hy
        · exact hk
        · exact lt_trans hk (h.1 y hy), List.pairwise_cons.2 h⟩
    · split
      · rename_i hk
        subst hk
        exact List.pairwise_cons.2 h
      · rename_i h1 h2
        refine List.pairwise_cons.2 ⟨fun y hy => ?_, ih h.2⟩
        have : y.1 = k ∨ y ∈ r := mem_mapSet r k v y hy
        rcases this with hy | hy
        · simp only [hy]; omega
        · exact h.1 y hy
theorem all_mapSet {α : Type} (p : Nat × α → Bool) (l : List (Nat × α)) (k : Nat) (v : α) (h : l.all p = true)
    (hv : p (k, v) = true) : (mapSet l k v).all p = true := by
  induction l with
  | nil => simp [mapSet, hv]
  | cons x r ih =>
    obtain ⟨j, w⟩ := x
    simp only [List.all_cons, Bool.and_eq_true] at h
    unfold mapSet
    split
    · simp [hv, h]
    · split
      · simp [hv, h]
      · simp [h, ih h.2]

/-! ### Lookups -/

theorem mapGet_mapSet {α : Type} (d : α) (l : List (Nat × α)) (k x : Nat) (v : α) (h : rising l = true) :
    mapGet d (mapSet l k v) x = if x = k then v else mapGet d l x := by
  rw [rising_iff_pairwise] at h
  induction l with
  | nil => simp [mapSet, mapGet, eq_comm]
  | cons y r ih =>
    obtain ⟨j, w⟩ := y
    rw [List.pairwise_cons] at h
    unfold mapSet
    split
    · simp only [mapGet]; grind
    · split
      · simp only [mapGet]; grind
      · simp only [mapGet, ih h.2]; grind

theorem mapGet_filter {α : Type} (d : α) (l : List (Nat × α)) (f : Nat → Bool) (x : Nat) :
    mapGet d (l.filter fun e => f e.1) x = if f x then mapGet d l x else d := by
  induction l with
  | nil => simp [mapGet]
  | cons y r ih =>
    obtain ⟨j, w⟩ := y
    by_cases hj : f j = true
    · simp only [List.filter_cons, hj, if_true, mapGet, ih]; grind
    · simp only [List.filter_cons, hj, mapGet]; grind

theorem mapGet_append {α : Type} (d : α) (l r : List (Nat × α)) (x : Nat) :
    mapGet d (l ++ r) x = if (mapFind l x).isSome then mapGet d l x else mapGet d r x := by
  induction l with
  | nil => simp [mapFind]
  | cons y t ih =>
    obtain ⟨j, w⟩ := y
    simp only [List.cons_append, mapGet, mapFind]; grind

theorem mapFind_filter_isSome {α : Type} (l : List (Nat × α)) (f : Nat → Bool) (x : Nat) :
    (mapFind (l.filter fun e => f e.1) x).isSome = (f x && (mapFind l x).isSome) := by
  induction l with
  | nil => simp [mapFind]
  | cons y r ih =>
    obtain ⟨j, w⟩ := y
    by_cases hj : f j = true
    · simp only [List.filter_cons, hj, if_true, mapFind]; grind
    · simp only [List.filter_cons, hj, mapFind]; grind

theorem mapGet_of_none {α : Type} (d : α) (l : List (Nat × α)) (x : Nat) (h : (mapFind l x).isSome = false) :
    mapGet d l x = d := by
  induction l with
  | nil => simp [mapGet]
  | cons y r ih =>
    obtain ⟨j, w⟩ := y
    simp only [mapFind] at h
    simp only [mapGet]; grind

/-- What a splice leaves at a key: inside the range the new cells, outside the old ones. -/
theorem mapGet_splice {α : Type} (d : α) (l mid : List (Nat × α)) (a n x : Nat) (h : ∀ e ∈ mid, a ≤ e.1 ∧ e.1 < a + n) :
    mapGet d (splice l a n mid) x = if a ≤ x ∧ x < a + n then mapGet d mid x else mapGet d l x := by
  have hout : ∀ y, ¬ (a ≤ y ∧ y < a + n) → (mapFind mid y).isSome = false := by
    intro y hy
    clear x
    induction mid with
    | nil => simp [mapFind]
    | cons e r ih =>
      obtain ⟨j, w⟩ := e
      have := h (j, w) (by simp)
      simp only [mapFind]
      have := ih fun e he => h e (by simp [he])
      grind
  unfold splice
  rw [List.append_assoc, mapGet_append, mapGet_append,
    mapFind_filter_isSome l (fun k => decide (k < a)), mapGet_filter d l (fun k => decide (k < a)),
    mapGet_filter d l (fun k => decide (a + n ≤ k))]
  have h2 := hout x
  by_cases hx : a ≤ x ∧ x < a + n
  · have e1 : decide (x < a) = false := by simp; omega
    have e2 : decide (a + n ≤ x) = false := by simp; omega
    simp only [e1, Bool.false_and, hx, and_self, if_true]
    by_cases hm : (mapFind mid x).isSome = true
    · simp [hm]
    · have := mapGet_of_none d mid x (by simpa using hm)
      simp only [Bool.not_eq_true] at hm
      simp [hm, this, e2]
  · rw [h2 hx]
    simp only [hx, if_false]
    by_cases hl : x < a
    · simp only [hl, decide_true, Bool.true_and, if_true]
      by_cases hm : (mapFind l x).isSome = true
      · simp [hm]
      · have hm' : (mapFind l x).isSome = false := by simpa using hm
        have := mapGet_of_none d l x hm'
        have e2 : decide (a + n ≤ x) = false := by simp; omega
        simp [hm', this, e2]
    · have e2 : a + n ≤ x := by omega
      simp [hl, e2]

/-! ### The canonical form kept -/

theorem bytesCells_range (a : Nat) (bs : List Byte) :
    ∀ e ∈ bytesCells a bs, a ≤ e.1 ∧ e.1 < a + bs.length := by
  induction bs generalizing a with
  | nil => simp [bytesCells]
  | cons b r ih =>
    intro e he
    unfold bytesCells at he
    have key : e ∈ bytesCells (a + 1) r → a ≤ e.1 ∧ e.1 < a + (b :: r).length := by
      intro h
      have := ih (a + 1) e h
      simp only [List.length_cons]; omega
    split at he
    · exact key he
    · rcases List.mem_cons.1 he with rfl | he
      · simp
      · exact key he

theorem rising_bytesCells (a : Nat) (bs : List Byte) : rising (bytesCells a bs) = true := by
  rw [rising_iff_pairwise]
  induction bs generalizing a with
  | nil => simp [bytesCells]
  | cons b r ih =>
    unfold bytesCells
    split
    · exact ih _
    · refine List.pairwise_cons.2 ⟨fun e he => ?_, ih _⟩
      have := bytesCells_range (a + 1) r e he
      simp only; omega

theorem bytesCells_ne_zero (a : Nat) (bs : List Byte) : ∀ e ∈ bytesCells a bs, e.2 ≠ 0 := by
  induction bs generalizing a with
  | nil => simp [bytesCells]
  | cons b r ih =>
    intro e he
    unfold bytesCells at he
    split at he
    · exact ih _ e he
    · rcases List.mem_cons.1 he with rfl | he
      · assumption
      · exact ih _ e he

theorem rising_splice {α : Type} {l mid : List (Nat × α)} (a n : Nat) (hl : rising l = true) (hm : rising mid = true)
    (h : ∀ e ∈ mid, a ≤ e.1 ∧ e.1 < a + n) : rising (splice l a n mid) = true := by
  unfold splice
  refine rising_append (rising_append (rising_filter _ hl) hm fun x hx y hy => ?_) (rising_filter _ hl) fun x hx y hy => ?_
  · have := (List.mem_filter.1 hx).2
    have := (h y hy).1
    simp only [decide_eq_true_eq] at *; omega
  · have hy := (List.mem_filter.1 hy).2
    simp only [decide_eq_true_eq] at hy
    rcases List.mem_append.1 hx with hx | hx
    · have := (List.mem_filter.1 hx).2
      simp only [decide_eq_true_eq] at this; omega
    · have := (h x hx).2; omega

theorem all_splice {α : Type} (p : Nat × α → Bool) {l mid : List (Nat × α)} (a n : Nat) (hl : l.all p = true)
    (hm : mid.all p = true) : (splice l a n mid).all p = true := by
  simp only [splice, List.all_append, List.all_filter, Bool.and_eq_true, List.all_eq_true] at *
  refine ⟨⟨?_, hm⟩, ?_⟩ <;> intro x hx <;> simp [hl x hx]

theorem Memory.wf_iff (m : Memory) : m.wf = true ↔
    rising m.bytes = true ∧ (m.bytes.all fun e => decide (e.2 ≠ 0)) = true ∧ rising m.errs = true ∧
      (m.errs.all fun e => decide (e.2 ≠ 0)) = true := by
  simp [Memory.wf, and_assoc]

theorem Memory.wf_reset : Memory.reset.wf = true := rfl

theorem Memory.wf_writeN (m : Memory) (a : Nat) (bs : List Byte) (h : m.wf = true) : (m.writeN a bs).wf = true := by
  rw [Memory.wf_iff] at *
  refine ⟨rising_splice _ _ h.1 (rising_bytesCells _ _) (bytesCells_range _ _), all_splice _ _ _ h.2.1 ?_,
    rising_splice _ _ h.2.2.1 rfl (by simp), all_splice _ _ _ h.2.2.2 rfl⟩
  simpa using fun x y hx => bytesCells_ne_zero a bs (x, y) hx

theorem Memory.wf_clear (m : Memory) (a n : Nat) (h : m.wf = true) : (m.clear a n).wf = true := by
  rw [Memory.wf_iff] at *
  exact ⟨rising_splice _ _ h.1 rfl (by simp), all_splice _ _ _ h.2.1 rfl,
    rising_splice _ _ h.2.2.1 rfl (by simp), all_splice _ _ _ h.2.2.2 rfl⟩

theorem Memory.wf_storeWord (m : Memory) (w : Nat) (d : List Byte) (e : BitVec 288) (h : m.wf = true) :
    (m.storeWord w d e).wf = true := by
  unfold Memory.storeWord
  simp only
  split
  · exact m.wf_writeN _ _ h
  · split
    · exact m.wf_writeN _ _ h
    · have h := m.wf_writeN (32 * w) (d.take 32) h
      rw [Memory.wf_iff] at *
      exact ⟨h.1, h.2.1, rising_mapSet _ _ _ h.2.2.1, all_mapSet _ _ _ _ h.2.2.2 (by simpa)⟩

theorem Memory.wf_dropCells (m : Memory) (h : m.wf = true) : m.dropCells.wf = true := by
  rw [Memory.wf_iff] at *
  simp only [Memory.dropCells]
  refine ⟨rising_filter _ h.1, ?_, rising_filter _ h.2.2.1, ?_⟩
  · have := h.2.1
    simp only [List.all_eq_true] at *
    exact fun x hx => this x (List.mem_filter.1 hx).1
  · have := h.2.2.2
    simp only [List.all_eq_true] at *
    exact fun x hx => this x (List.mem_filter.1 hx).1

theorem rising_shiftKeys {α : Type} (l : List (Nat × α)) (a old new : Nat) (h : rising l = true) :
    rising (shiftKeys l a old new) = true := by
  unfold shiftKeys
  refine rising_append (rising_filter _ h) ?_ fun x hx y hy => ?_
  · have := (rising_iff_pairwise _).1 (rising_filter (fun e => decide (a + old ≤ e.1)) h)
    rw [rising_iff_pairwise, List.pairwise_map]
    refine (List.Pairwise.and_mem.1 this).imp fun {x y} hxy => ?_
    have h1 := (List.mem_filter.1 hxy.1).2
    simp only [decide_eq_true_eq] at h1
    have := hxy.2.2
    simp only; omega
  · have hx := (List.mem_filter.1 hx).2
    obtain ⟨z, hz, rfl⟩ := List.mem_map.1 hy
    have hz := (List.mem_filter.1 hz).2
    simp only [decide_eq_true_eq] at hx hz
    simp only; omega

theorem all_shiftKeys {α : Type} (p : α → Bool) (l : List (Nat × α)) (a old new : Nat)
    (h : (l.all fun e => p e.2) = true) : ((shiftKeys l a old new).all fun e => p e.2) = true := by
  simp only [shiftKeys, List.all_append, Bool.and_eq_true, List.all_eq_true, List.mem_map, List.mem_filter] at *
  refine ⟨fun x hx => h x hx.1, ?_⟩
  rintro x ⟨y, hy, rfl⟩
  exact h y hy.1

theorem Memory.wf_resize (m : Memory) (a old new : Nat) (h : m.wf = true) : (m.resize a old new).wf = true := by
  rw [Memory.wf_iff] at *
  exact ⟨rising_shiftKeys _ _ _ _ h.1, all_shiftKeys (fun v => decide (v ≠ 0)) _ _ _ _ h.2.1,
    rising_shiftKeys _ _ _ _ h.2.2.1, all_shiftKeys (fun v => decide (v ≠ 0)) _ _ _ _ h.2.2.2⟩

theorem Memory.wf_clears (l : List (Nat × Nat)) (m : Memory) (h : m.wf = true) :
    (l.foldl (fun m x => m.clear x.1 x.2) m).wf = true := by
  induction l generalizing m with
  | nil => exact h
  | cons x r ih => exact ih _ (m.wf_clear _ _ h)

/-! ### Reads after writes -/

theorem mapGet_bytesCells (a : Nat) (bs : List Byte) (i : Nat) (h : i < bs.length) :
    mapGet 0 (bytesCells a bs) (a + i) = bs[i] := by
  induction bs generalizing a i with
  | nil => simp at h
  | cons b r ih =>
    have hnone : ∀ (k : Nat) (r : List Byte), mapGet 0 (bytesCells (k + 1) r) k = (0 : Byte) := by
      intro k r
      apply mapGet_of_none
      cases hf : (mapFind (bytesCells (k + 1) r) k).isSome with
      | false => rfl
      | true =>
        exfalso
        have : ∀ l : List (Nat × Byte), (mapFind l k).isSome = true → ∃ e ∈ l, e.1 = k := by
          intro l
          induction l with
          | nil => simp [mapFind]
          | cons y t ih =>
            obtain ⟨j, w⟩ := y
            simp only [mapFind]
            split
            · rename_i hj; exact fun _ => ⟨(j, w), by simp, hj⟩
            · intro h
              obtain ⟨e, he, hk⟩ := ih h
              exact ⟨e, by simp [he], hk⟩
        obtain ⟨e, he, hk⟩ := this _ hf
        have := bytesCells_range (k + 1) r e he
        omega
    cases i with
    | zero =>
      unfold bytesCells
      split
      · rename_i hb; simpa [hb] using hnone a r
      · simp [mapGet]
    | succ i =>
      have hi : i < r.length := by simpa using h
      have e : a + (i + 1) = a + 1 + i := by omega
      unfold bytesCells
      split
      · rw [e, ih (a + 1) i hi]; simp
      · simp only [mapGet]
        rw [if_neg (by omega), e, ih (a + 1) i hi]; simp

/-- A read after a write: the bytes written in the range, the earlier ones outside it. -/
theorem Memory.read1_writeN (m : Memory) (a : Nat) (bs : List Byte) (x : Nat) :
    (m.writeN a bs).read1 x = if h : a ≤ x ∧ x < a + bs.length then bs[x - a]'(by omega) else m.read1 x := by
  unfold Memory.read1 Memory.writeN
  simp only
  rw [mapGet_splice 0 _ _ _ _ _ (bytesCells_range a bs)]
  split
  · rename_i h
    have := mapGet_bytesCells a bs (x - a) (by omega)
    rw [show a + (x - a) = x by omega] at this
    exact this
  · rfl

theorem Memory.read1_clear (m : Memory) (a n x : Nat) :
    (m.clear a n).read1 x = if a ≤ x ∧ x < a + n then 0 else m.read1 x := by
  unfold Memory.read1 Memory.clear
  simp only
  rw [mapGet_splice 0 _ _ _ _ _ (by simp)]
  simp [mapGet]

theorem Memory.read1_dropCells (m : Memory) (x : Nat) :
    m.dropCells.read1 x = if x < 0x8000000000 then m.read1 x else 0 := by
  unfold Memory.read1 Memory.dropCells
  simp only
  rw [mapGet_filter 0 m.bytes (fun k => decide (k < 0x8000000000))]
  simp

theorem Memory.read1_reset (x : Nat) : Memory.reset.read1 x = 0 := rfl

end Sys2Proof.Machine
end

