-- ==== Sys2Proof/Laws/State.lean ====
section
/-! SUPPORT. What each update of the state leaves in each field, so that no proof unfolds a record update. -/

set_option Elab.async false

namespace Sys2Proof.Machine

/-! ### Vectors by number -/

theorem vget_vmod {α : Type} {n : Nat} (v : Vector α n) (i j : Nat) (f : α → α) (d : α) :
    vget (vmod v i f) j d = if j = i ∧ i < n then f (vget v i d) else vget v j d := by
  unfold vget vmod
  by_cases hi : i < n
  · by_cases hj : j < n
    · simp only [hi, hj, dif_pos, Vector.getElem_set]
      grind
    · simp only [hi, hj, dif_pos, dif_neg, not_false_eq_true]
      rw [if_neg (by omega)]
  · simp only [hi, dif_neg, not_false_eq_true]
    simp

theorem vget_vmod_self {α : Type} {n : Nat} (v : Vector α n) (i : Nat) (f : α → α) (d : α) (h : i < n) :
    vget (vmod v i f) i d = f (vget v i d) := by
  simp [vget_vmod, h]

@[simp] theorem vget_vmod_ne {α : Type} {n : Nat} (v : Vector α n) (i j : Nat) (f : α → α) (d : α) (h : j ≠ i) :
    vget (vmod v i f) j d = vget v j d := by
  simp [vget_vmod, h]

@[simp] theorem vget_of_lt {α : Type} {n : Nat} (v : Vector α n) (i : Fin n) (d : α) : vget v i d = v[i] := by
  simp [vget]

theorem vget_replicate {α : Type} (n i : Nat) (x d : α) (h : i < n) : vget (Vector.replicate n x) i d = x := by
  simp [vget, h]

/-! ### onCell -/

@[simp] theorem State.onCell_pending (s : State) (n : Nat) (f : Cell → Cell) : (s.onCell n f).pending = s.pending := rfl
@[simp] theorem State.onCell_fuse (s : State) (n : Nat) (f : Cell → Cell) : (s.onCell n f).fuse = s.fuse := rfl
@[simp] theorem State.onCell_nv (s : State) (n : Nat) (f : Cell → Cell) : (s.onCell n f).nv = s.nv := rfl
@[simp] theorem State.onCell_dev (s : State) (n : Nat) (f : Cell → Cell) : (s.onCell n f).dev = s.dev := rfl
@[simp] theorem State.onCell_mem (s : State) (n : Nat) (f : Cell → Cell) : (s.onCell n f).mem = s.mem := rfl
@[simp] theorem State.onCell_cells (s : State) (n : Nat) (f : Cell → Cell) : (s.onCell n f).cells = vmod s.cells n f := rfl
@[simp] theorem State.onCell_parts (s : State) (n : Nat) (f : Cell → Cell) : (s.onCell n f).parts = s.parts := rfl
@[simp] theorem State.onCell_drams (s : State) (n : Nat) (f : Cell → Cell) : (s.onCell n f).drams = s.drams := rfl
@[simp] theorem State.onCell_ports (s : State) (n : Nat) (f : Cell → Cell) : (s.onCell n f).ports = s.ports := rfl
@[simp] theorem State.onCell_ring (s : State) (n : Nat) (f : Cell → Cell) : (s.onCell n f).ring = s.ring := rfl
@[simp] theorem State.onCell_eop (s : State) (n : Nat) (f : Cell → Cell) : (s.onCell n f).eop = s.eop := rfl
@[simp] theorem State.onCell_test (s : State) (n : Nat) (f : Cell → Cell) : (s.onCell n f).test = s.test := rfl
@[simp] theorem State.onCell_att (s : State) (n : Nat) (f : Cell → Cell) : (s.onCell n f).att = s.att := rfl
@[simp] theorem State.onCell_power (s : State) (n : Nat) (f : Cell → Cell) : (s.onCell n f).power = s.power := rfl
@[simp] theorem State.onCell_jtag (s : State) (n : Nat) (f : Cell → Cell) : (s.onCell n f).jtag = s.jtag := rfl
@[simp] theorem State.onCell_out (s : State) (n : Nat) (f : Cell → Cell) : (s.onCell n f).out = s.out := rfl
@[simp] theorem State.onCell_free (s : State) (n : Nat) (f : Cell → Cell) : (s.onCell n f).free = s.free := rfl

/-! ### onPart -/

@[simp] theorem State.onPart_pending (s : State) (p : Nat) (f : Part → Part) : (s.onPart p f).pending = s.pending := rfl
@[simp] theorem State.onPart_fuse (s : State) (p : Nat) (f : Part → Part) : (s.onPart p f).fuse = s.fuse := rfl
@[simp] theorem State.onPart_nv (s : State) (p : Nat) (f : Part → Part) : (s.onPart p f).nv = s.nv := rfl
@[simp] theorem State.onPart_dev (s : State) (p : Nat) (f : Part → Part) : (s.onPart p f).dev = s.dev := rfl
@[simp] theorem State.onPart_mem (s : State) (p : Nat) (f : Part → Part) : (s.onPart p f).mem = s.mem := rfl
@[simp] theorem State.onPart_cells (s : State) (p : Nat) (f : Part → Part) : (s.onPart p f).cells = s.cells := rfl
@[simp] theorem State.onPart_parts (s : State) (p : Nat) (f : Part → Part) : (s.onPart p f).parts = vmod s.parts p f := rfl
@[simp] theorem State.onPart_drams (s : State) (p : Nat) (f : Part → Part) : (s.onPart p f).drams = s.drams := rfl
@[simp] theorem State.onPart_ports (s : State) (p : Nat) (f : Part → Part) : (s.onPart p f).ports = s.ports := rfl
@[simp] theorem State.onPart_ring (s : State) (p : Nat) (f : Part → Part) : (s.onPart p f).ring = s.ring := rfl
@[simp] theorem State.onPart_eop (s : State) (p : Nat) (f : Part → Part) : (s.onPart p f).eop = s.eop := rfl
@[simp] theorem State.onPart_test (s : State) (p : Nat) (f : Part → Part) : (s.onPart p f).test = s.test := rfl
@[simp] theorem State.onPart_att (s : State) (p : Nat) (f : Part → Part) : (s.onPart p f).att = s.att := rfl
@[simp] theorem State.onPart_power (s : State) (p : Nat) (f : Part → Part) : (s.onPart p f).power = s.power := rfl
@[simp] theorem State.onPart_jtag (s : State) (p : Nat) (f : Part → Part) : (s.onPart p f).jtag = s.jtag := rfl
@[simp] theorem State.onPart_out (s : State) (p : Nat) (f : Part → Part) : (s.onPart p f).out = s.out := rfl
@[simp] theorem State.onPart_free (s : State) (p : Nat) (f : Part → Part) : (s.onPart p f).free = s.free := rfl

/-! ### onStack -/

@[simp] theorem State.onStack_pending (s : State) (n : Nat) (f : Stack → Stack) : (s.onStack n f).pending = s.pending := rfl
@[simp] theorem State.onStack_fuse (s : State) (n : Nat) (f : Stack → Stack) : (s.onStack n f).fuse = s.fuse := rfl
@[simp] theorem State.onStack_nv (s : State) (n : Nat) (f : Stack → Stack) : (s.onStack n f).nv = s.nv := rfl
@[simp] theorem State.onStack_dev (s : State) (n : Nat) (f : Stack → Stack) : (s.onStack n f).dev = s.dev := rfl
@[simp] theorem State.onStack_mem (s : State) (n : Nat) (f : Stack → Stack) : (s.onStack n f).mem = s.mem := rfl
@[simp] theorem State.onStack_cells (s : State) (n : Nat) (f : Stack → Stack) : (s.onStack n f).cells = s.cells := rfl
@[simp] theorem State.onStack_parts (s : State) (n : Nat) (f : Stack → Stack) : (s.onStack n f).parts = s.parts := rfl
@[simp] theorem State.onStack_drams (s : State) (n : Nat) (f : Stack → Stack) : (s.onStack n f).drams = vmod s.drams n f := rfl
@[simp] theorem State.onStack_ports (s : State) (n : Nat) (f : Stack → Stack) : (s.onStack n f).ports = s.ports := rfl
@[simp] theorem State.onStack_ring (s : State) (n : Nat) (f : Stack → Stack) : (s.onStack n f).ring = s.ring := rfl
@[simp] theorem State.onStack_eop (s : State) (n : Nat) (f : Stack → Stack) : (s.onStack n f).eop = s.eop := rfl
@[simp] theorem State.onStack_test (s : State) (n : Nat) (f : Stack → Stack) : (s.onStack n f).test = s.test := rfl
@[simp] theorem State.onStack_att (s : State) (n : Nat) (f : Stack → Stack) : (s.onStack n f).att = s.att := rfl
@[simp] theorem State.onStack_power (s : State) (n : Nat) (f : Stack → Stack) : (s.onStack n f).power = s.power := rfl
@[simp] theorem State.onStack_jtag (s : State) (n : Nat) (f : Stack → Stack) : (s.onStack n f).jtag = s.jtag := rfl
@[simp] theorem State.onStack_out (s : State) (n : Nat) (f : Stack → Stack) : (s.onStack n f).out = s.out := rfl
@[simp] theorem State.onStack_free (s : State) (n : Nat) (f : Stack → Stack) : (s.onStack n f).free = s.free := rfl

/-! ### onPort -/

@[simp] theorem State.onPort_pending (s : State) (n : Nat) (f : Port → Port) : (s.onPort n f).pending = s.pending := rfl
@[simp] theorem State.onPort_fuse (s : State) (n : Nat) (f : Port → Port) : (s.onPort n f).fuse = s.fuse := rfl
@[simp] theorem State.onPort_nv (s : State) (n : Nat) (f : Port → Port) : (s.onPort n f).nv = s.nv := rfl
@[simp] theorem State.onPort_dev (s : State) (n : Nat) (f : Port → Port) : (s.onPort n f).dev = s.dev := rfl
@[simp] theorem State.onPort_mem (s : State) (n : Nat) (f : Port → Port) : (s.onPort n f).mem = s.mem := rfl
@[simp] theorem State.onPort_cells (s : State) (n : Nat) (f : Port → Port) : (s.onPort n f).cells = s.cells := rfl
@[simp] theorem State.onPort_parts (s : State) (n : Nat) (f : Port → Port) : (s.onPort n f).parts = s.parts := rfl
@[simp] theorem State.onPort_drams (s : State) (n : Nat) (f : Port → Port) : (s.onPort n f).drams = s.drams := rfl
@[simp] theorem State.onPort_ports (s : State) (n : Nat) (f : Port → Port) : (s.onPort n f).ports = vmod s.ports n f := rfl
@[simp] theorem State.onPort_ring (s : State) (n : Nat) (f : Port → Port) : (s.onPort n f).ring = s.ring := rfl
@[simp] theorem State.onPort_eop (s : State) (n : Nat) (f : Port → Port) : (s.onPort n f).eop = s.eop := rfl
@[simp] theorem State.onPort_test (s : State) (n : Nat) (f : Port → Port) : (s.onPort n f).test = s.test := rfl
@[simp] theorem State.onPort_att (s : State) (n : Nat) (f : Port → Port) : (s.onPort n f).att = s.att := rfl
@[simp] theorem State.onPort_power (s : State) (n : Nat) (f : Port → Port) : (s.onPort n f).power = s.power := rfl
@[simp] theorem State.onPort_jtag (s : State) (n : Nat) (f : Port → Port) : (s.onPort n f).jtag = s.jtag := rfl
@[simp] theorem State.onPort_out (s : State) (n : Nat) (f : Port → Port) : (s.onPort n f).out = s.out := rfl
@[simp] theorem State.onPort_free (s : State) (n : Nat) (f : Port → Port) : (s.onPort n f).free = s.free := rfl

/-! ### onDev -/

@[simp] theorem State.onDev_pending (s : State) (f : Dev → Dev) : (s.onDev f).pending = s.pending := rfl
@[simp] theorem State.onDev_fuse (s : State) (f : Dev → Dev) : (s.onDev f).fuse = s.fuse := rfl
@[simp] theorem State.onDev_nv (s : State) (f : Dev → Dev) : (s.onDev f).nv = s.nv := rfl
@[simp] theorem State.onDev_dev (s : State) (f : Dev → Dev) : (s.onDev f).dev = f s.dev := rfl
@[simp] theorem State.onDev_mem (s : State) (f : Dev → Dev) : (s.onDev f).mem = s.mem := rfl
@[simp] theorem State.onDev_cells (s : State) (f : Dev → Dev) : (s.onDev f).cells = s.cells := rfl
@[simp] theorem State.onDev_parts (s : State) (f : Dev → Dev) : (s.onDev f).parts = s.parts := rfl
@[simp] theorem State.onDev_drams (s : State) (f : Dev → Dev) : (s.onDev f).drams = s.drams := rfl
@[simp] theorem State.onDev_ports (s : State) (f : Dev → Dev) : (s.onDev f).ports = s.ports := rfl
@[simp] theorem State.onDev_ring (s : State) (f : Dev → Dev) : (s.onDev f).ring = s.ring := rfl
@[simp] theorem State.onDev_eop (s : State) (f : Dev → Dev) : (s.onDev f).eop = s.eop := rfl
@[simp] theorem State.onDev_test (s : State) (f : Dev → Dev) : (s.onDev f).test = s.test := rfl
@[simp] theorem State.onDev_att (s : State) (f : Dev → Dev) : (s.onDev f).att = s.att := rfl
@[simp] theorem State.onDev_power (s : State) (f : Dev → Dev) : (s.onDev f).power = s.power := rfl
@[simp] theorem State.onDev_jtag (s : State) (f : Dev → Dev) : (s.onDev f).jtag = s.jtag := rfl
@[simp] theorem State.onDev_out (s : State) (f : Dev → Dev) : (s.onDev f).out = s.out := rfl
@[simp] theorem State.onDev_free (s : State) (f : Dev → Dev) : (s.onDev f).free = s.free := rfl

/-! ### onNv -/

@[simp] theorem State.onNv_pending (s : State) (f : Nv → Nv) : (s.onNv f).pending = s.pending := rfl
@[simp] theorem State.onNv_fuse (s : State) (f : Nv → Nv) : (s.onNv f).fuse = s.fuse := rfl
@[simp] theorem State.onNv_nv (s : State) (f : Nv → Nv) : (s.onNv f).nv = f s.nv := rfl
@[simp] theorem State.onNv_dev (s : State) (f : Nv → Nv) : (s.onNv f).dev = s.dev := rfl
@[simp] theorem State.onNv_mem (s : State) (f : Nv → Nv) : (s.onNv f).mem = s.mem := rfl
@[simp] theorem State.onNv_cells (s : State) (f : Nv → Nv) : (s.onNv f).cells = s.cells := rfl
@[simp] theorem State.onNv_parts (s : State) (f : Nv → Nv) : (s.onNv f).parts = s.parts := rfl
@[simp] theorem State.onNv_drams (s : State) (f : Nv → Nv) : (s.onNv f).drams = s.drams := rfl
@[simp] theorem State.onNv_ports (s : State) (f : Nv → Nv) : (s.onNv f).ports = s.ports := rfl
@[simp] theorem State.onNv_ring (s : State) (f : Nv → Nv) : (s.onNv f).ring = s.ring := rfl
@[simp] theorem State.onNv_eop (s : State) (f : Nv → Nv) : (s.onNv f).eop = s.eop := rfl
@[simp] theorem State.onNv_test (s : State) (f : Nv → Nv) : (s.onNv f).test = s.test := rfl
@[simp] theorem State.onNv_att (s : State) (f : Nv → Nv) : (s.onNv f).att = s.att := rfl
@[simp] theorem State.onNv_power (s : State) (f : Nv → Nv) : (s.onNv f).power = s.power := rfl
@[simp] theorem State.onNv_jtag (s : State) (f : Nv → Nv) : (s.onNv f).jtag = s.jtag := rfl
@[simp] theorem State.onNv_out (s : State) (f : Nv → Nv) : (s.onNv f).out = s.out := rfl
@[simp] theorem State.onNv_free (s : State) (f : Nv → Nv) : (s.onNv f).free = s.free := rfl

/-! ### onEop -/

@[simp] theorem State.onEop_pending (s : State) (f : Eop → Eop) : (s.onEop f).pending = s.pending := rfl
@[simp] theorem State.onEop_fuse (s : State) (f : Eop → Eop) : (s.onEop f).fuse = s.fuse := rfl
@[simp] theorem State.onEop_nv (s : State) (f : Eop → Eop) : (s.onEop f).nv = s.nv := rfl
@[simp] theorem State.onEop_dev (s : State) (f : Eop → Eop) : (s.onEop f).dev = s.dev := rfl
@[simp] theorem State.onEop_mem (s : State) (f : Eop → Eop) : (s.onEop f).mem = s.mem := rfl
@[simp] theorem State.onEop_cells (s : State) (f : Eop → Eop) : (s.onEop f).cells = s.cells := rfl
@[simp] theorem State.onEop_parts (s : State) (f : Eop → Eop) : (s.onEop f).parts = s.parts := rfl
@[simp] theorem State.onEop_drams (s : State) (f : Eop → Eop) : (s.onEop f).drams = s.drams := rfl
@[simp] theorem State.onEop_ports (s : State) (f : Eop → Eop) : (s.onEop f).ports = s.ports := rfl
@[simp] theorem State.onEop_ring (s : State) (f : Eop → Eop) : (s.onEop f).ring = s.ring := rfl
@[simp] theorem State.onEop_eop (s : State) (f : Eop → Eop) : (s.onEop f).eop = f s.eop := rfl
@[simp] theorem State.onEop_test (s : State) (f : Eop → Eop) : (s.onEop f).test = s.test := rfl
@[simp] theorem State.onEop_att (s : State) (f : Eop → Eop) : (s.onEop f).att = s.att := rfl
@[simp] theorem State.onEop_power (s : State) (f : Eop → Eop) : (s.onEop f).power = s.power := rfl
@[simp] theorem State.onEop_jtag (s : State) (f : Eop → Eop) : (s.onEop f).jtag = s.jtag := rfl
@[simp] theorem State.onEop_out (s : State) (f : Eop → Eop) : (s.onEop f).out = s.out := rfl
@[simp] theorem State.onEop_free (s : State) (f : Eop → Eop) : (s.onEop f).free = s.free := rfl

/-! ### onPower -/

@[simp] theorem State.onPower_pending (s : State) (f : Power → Power) : (s.onPower f).pending = s.pending := rfl
@[simp] theorem State.onPower_fuse (s : State) (f : Power → Power) : (s.onPower f).fuse = s.fuse := rfl
@[simp] theorem State.onPower_nv (s : State) (f : Power → Power) : (s.onPower f).nv = s.nv := rfl
@[simp] theorem State.onPower_dev (s : State) (f : Power → Power) : (s.onPower f).dev = s.dev := rfl
@[simp] theorem State.onPower_mem (s : State) (f : Power → Power) : (s.onPower f).mem = s.mem := rfl
@[simp] theorem State.onPower_cells (s : State) (f : Power → Power) : (s.onPower f).cells = s.cells := rfl
@[simp] theorem State.onPower_parts (s : State) (f : Power → Power) : (s.onPower f).parts = s.parts := rfl
@[simp] theorem State.onPower_drams (s : State) (f : Power → Power) : (s.onPower f).drams = s.drams := rfl
@[simp] theorem State.onPower_ports (s : State) (f : Power → Power) : (s.onPower f).ports = s.ports := rfl
@[simp] theorem State.onPower_ring (s : State) (f : Power → Power) : (s.onPower f).ring = s.ring := rfl
@[simp] theorem State.onPower_eop (s : State) (f : Power → Power) : (s.onPower f).eop = s.eop := rfl
@[simp] theorem State.onPower_test (s : State) (f : Power → Power) : (s.onPower f).test = s.test := rfl
@[simp] theorem State.onPower_att (s : State) (f : Power → Power) : (s.onPower f).att = s.att := rfl
@[simp] theorem State.onPower_power (s : State) (f : Power → Power) : (s.onPower f).power = f s.power := rfl
@[simp] theorem State.onPower_jtag (s : State) (f : Power → Power) : (s.onPower f).jtag = s.jtag := rfl
@[simp] theorem State.onPower_out (s : State) (f : Power → Power) : (s.onPower f).out = s.out := rfl
@[simp] theorem State.onPower_free (s : State) (f : Power → Power) : (s.onPower f).free = s.free := rfl

/-! ### onRing -/

@[simp] theorem State.onRing_pending (s : State) (f : Ring → Ring) : (s.onRing f).pending = s.pending := rfl
@[simp] theorem State.onRing_fuse (s : State) (f : Ring → Ring) : (s.onRing f).fuse = s.fuse := rfl
@[simp] theorem State.onRing_nv (s : State) (f : Ring → Ring) : (s.onRing f).nv = s.nv := rfl
@[simp] theorem State.onRing_dev (s : State) (f : Ring → Ring) : (s.onRing f).dev = s.dev := rfl
@[simp] theorem State.onRing_mem (s : State) (f : Ring → Ring) : (s.onRing f).mem = s.mem := rfl
@[simp] theorem State.onRing_cells (s : State) (f : Ring → Ring) : (s.onRing f).cells = s.cells := rfl
@[simp] theorem State.onRing_parts (s : State) (f : Ring → Ring) : (s.onRing f).parts = s.parts := rfl
@[simp] theorem State.onRing_drams (s : State) (f : Ring → Ring) : (s.onRing f).drams = s.drams := rfl
@[simp] theorem State.onRing_ports (s : State) (f : Ring → Ring) : (s.onRing f).ports = s.ports := rfl
@[simp] theorem State.onRing_ring (s : State) (f : Ring → Ring) : (s.onRing f).ring = f s.ring := rfl
@[simp] theorem State.onRing_eop (s : State) (f : Ring → Ring) : (s.onRing f).eop = s.eop := rfl
@[simp] theorem State.onRing_test (s : State) (f : Ring → Ring) : (s.onRing f).test = s.test := rfl
@[simp] theorem State.onRing_att (s : State) (f : Ring → Ring) : (s.onRing f).att = s.att := rfl
@[simp] theorem State.onRing_power (s : State) (f : Ring → Ring) : (s.onRing f).power = s.power := rfl
@[simp] theorem State.onRing_jtag (s : State) (f : Ring → Ring) : (s.onRing f).jtag = s.jtag := rfl
@[simp] theorem State.onRing_out (s : State) (f : Ring → Ring) : (s.onRing f).out = s.out := rfl
@[simp] theorem State.onRing_free (s : State) (f : Ring → Ring) : (s.onRing f).free = s.free := rfl

/-! ### onAtt -/

@[simp] theorem State.onAtt_pending (s : State) (f : Att → Att) : (s.onAtt f).pending = s.pending := rfl
@[simp] theorem State.onAtt_fuse (s : State) (f : Att → Att) : (s.onAtt f).fuse = s.fuse := rfl
@[simp] theorem State.onAtt_nv (s : State) (f : Att → Att) : (s.onAtt f).nv = s.nv := rfl
@[simp] theorem State.onAtt_dev (s : State) (f : Att → Att) : (s.onAtt f).dev = s.dev := rfl
@[simp] theorem State.onAtt_mem (s : State) (f : Att → Att) : (s.onAtt f).mem = s.mem := rfl
@[simp] theorem State.onAtt_cells (s : State) (f : Att → Att) : (s.onAtt f).cells = s.cells := rfl
@[simp] theorem State.onAtt_parts (s : State) (f : Att → Att) : (s.onAtt f).parts = s.parts := rfl
@[simp] theorem State.onAtt_drams (s : State) (f : Att → Att) : (s.onAtt f).drams = s.drams := rfl
@[simp] theorem State.onAtt_ports (s : State) (f : Att → Att) : (s.onAtt f).ports = s.ports := rfl
@[simp] theorem State.onAtt_ring (s : State) (f : Att → Att) : (s.onAtt f).ring = s.ring := rfl
@[simp] theorem State.onAtt_eop (s : State) (f : Att → Att) : (s.onAtt f).eop = s.eop := rfl
@[simp] theorem State.onAtt_test (s : State) (f : Att → Att) : (s.onAtt f).test = s.test := rfl
@[simp] theorem State.onAtt_att (s : State) (f : Att → Att) : (s.onAtt f).att = f s.att := rfl
@[simp] theorem State.onAtt_power (s : State) (f : Att → Att) : (s.onAtt f).power = s.power := rfl
@[simp] theorem State.onAtt_jtag (s : State) (f : Att → Att) : (s.onAtt f).jtag = s.jtag := rfl
@[simp] theorem State.onAtt_out (s : State) (f : Att → Att) : (s.onAtt f).out = s.out := rfl
@[simp] theorem State.onAtt_free (s : State) (f : Att → Att) : (s.onAtt f).free = s.free := rfl

/-! ### onTest -/

@[simp] theorem State.onTest_pending (s : State) (f : Test → Test) : (s.onTest f).pending = s.pending := rfl
@[simp] theorem State.onTest_fuse (s : State) (f : Test → Test) : (s.onTest f).fuse = s.fuse := rfl
@[simp] theorem State.onTest_nv (s : State) (f : Test → Test) : (s.onTest f).nv = s.nv := rfl
@[simp] theorem State.onTest_dev (s : State) (f : Test → Test) : (s.onTest f).dev = s.dev := rfl
@[simp] theorem State.onTest_mem (s : State) (f : Test → Test) : (s.onTest f).mem = s.mem := rfl
@[simp] theorem State.onTest_cells (s : State) (f : Test → Test) : (s.onTest f).cells = s.cells := rfl
@[simp] theorem State.onTest_parts (s : State) (f : Test → Test) : (s.onTest f).parts = s.parts := rfl
@[simp] theorem State.onTest_drams (s : State) (f : Test → Test) : (s.onTest f).drams = s.drams := rfl
@[simp] theorem State.onTest_ports (s : State) (f : Test → Test) : (s.onTest f).ports = s.ports := rfl
@[simp] theorem State.onTest_ring (s : State) (f : Test → Test) : (s.onTest f).ring = s.ring := rfl
@[simp] theorem State.onTest_eop (s : State) (f : Test → Test) : (s.onTest f).eop = s.eop := rfl
@[simp] theorem State.onTest_test (s : State) (f : Test → Test) : (s.onTest f).test = f s.test := rfl
@[simp] theorem State.onTest_att (s : State) (f : Test → Test) : (s.onTest f).att = s.att := rfl
@[simp] theorem State.onTest_power (s : State) (f : Test → Test) : (s.onTest f).power = s.power := rfl
@[simp] theorem State.onTest_jtag (s : State) (f : Test → Test) : (s.onTest f).jtag = s.jtag := rfl
@[simp] theorem State.onTest_out (s : State) (f : Test → Test) : (s.onTest f).out = s.out := rfl
@[simp] theorem State.onTest_free (s : State) (f : Test → Test) : (s.onTest f).free = s.free := rfl

/-! ### The accessors under the updates -/

theorem State.cell_onCell (s : State) (n m : Nat) (f : Cell → Cell) :
    (s.onCell n f).cell m = if m = n ∧ n < 34 then f (s.cell n) else s.cell m := vget_vmod _ _ _ _ _

theorem State.cell_onCell_self (s : State) (n : Nat) (f : Cell → Cell) (h : n < 34) :
    (s.onCell n f).cell n = f (s.cell n) := vget_vmod_self _ _ _ _ h

@[simp] theorem State.cell_onCell_ne (s : State) (n m : Nat) (f : Cell → Cell) (h : m ≠ n) :
    (s.onCell n f).cell m = s.cell m := vget_vmod_ne _ _ _ _ _ h

@[simp] theorem State.cell_onPart (s : State) (n m : Nat) (f : Part → Part) : (s.onPart n f).cell m = s.cell m := rfl
@[simp] theorem State.cell_onStack (s : State) (n m : Nat) (f : Stack → Stack) : (s.onStack n f).cell m = s.cell m := rfl
@[simp] theorem State.cell_onPort (s : State) (n m : Nat) (f : Port → Port) : (s.onPort n f).cell m = s.cell m := rfl
@[simp] theorem State.cell_onDev (s : State) (m : Nat) (f : Dev → Dev) : (s.onDev f).cell m = s.cell m := rfl
@[simp] theorem State.cell_onNv (s : State) (m : Nat) (f : Nv → Nv) : (s.onNv f).cell m = s.cell m := rfl
@[simp] theorem State.cell_onEop (s : State) (m : Nat) (f : Eop → Eop) : (s.onEop f).cell m = s.cell m := rfl
@[simp] theorem State.cell_onPower (s : State) (m : Nat) (f : Power → Power) : (s.onPower f).cell m = s.cell m := rfl
@[simp] theorem State.cell_onRing (s : State) (m : Nat) (f : Ring → Ring) : (s.onRing f).cell m = s.cell m := rfl
@[simp] theorem State.cell_onAtt (s : State) (m : Nat) (f : Att → Att) : (s.onAtt f).cell m = s.cell m := rfl
@[simp] theorem State.cell_onTest (s : State) (m : Nat) (f : Test → Test) : (s.onTest f).cell m = s.cell m := rfl

theorem State.part_onPart (s : State) (n m : Nat) (f : Part → Part) :
    (s.onPart n f).part m = if m = n ∧ n < 8 then f (s.part n) else s.part m := vget_vmod _ _ _ _ _

theorem State.part_onPart_self (s : State) (n : Nat) (f : Part → Part) (h : n < 8) :
    (s.onPart n f).part n = f (s.part n) := vget_vmod_self _ _ _ _ h

@[simp] theorem State.part_onPart_ne (s : State) (n m : Nat) (f : Part → Part) (h : m ≠ n) :
    (s.onPart n f).part m = s.part m := vget_vmod_ne _ _ _ _ _ h

@[simp] theorem State.part_onCell (s : State) (n m : Nat) (f : Cell → Cell) : (s.onCell n f).part m = s.part m := rfl
@[simp] theorem State.part_onStack (s : State) (n m : Nat) (f : Stack → Stack) : (s.onStack n f).part m = s.part m := rfl
@[simp] theorem State.part_onPort (s : State) (n m : Nat) (f : Port → Port) : (s.onPort n f).part m = s.part m := rfl
@[simp] theorem State.part_onDev (s : State) (m : Nat) (f : Dev → Dev) : (s.onDev f).part m = s.part m := rfl
@[simp] theorem State.part_onNv (s : State) (m : Nat) (f : Nv → Nv) : (s.onNv f).part m = s.part m := rfl
@[simp] theorem State.part_onEop (s : State) (m : Nat) (f : Eop → Eop) : (s.onEop f).part m = s.part m := rfl
@[simp] theorem State.part_onPower (s : State) (m : Nat) (f : Power → Power) : (s.onPower f).part m = s.part m := rfl
@[simp] theorem State.part_onRing (s : State) (m : Nat) (f : Ring → Ring) : (s.onRing f).part m = s.part m := rfl
@[simp] theorem State.part_onAtt (s : State) (m : Nat) (f : Att → Att) : (s.onAtt f).part m = s.part m := rfl
@[simp] theorem State.part_onTest (s : State) (m : Nat) (f : Test → Test) : (s.onTest f).part m = s.part m := rfl

theorem State.stack_onStack (s : State) (n m : Nat) (f : Stack → Stack) :
    (s.onStack n f).stack m = if m = n ∧ n < 32 then f (s.stack n) else s.stack m := vget_vmod _ _ _ _ _

theorem State.stack_onStack_self (s : State) (n : Nat) (f : Stack → Stack) (h : n < 32) :
    (s.onStack n f).stack n = f (s.stack n) := vget_vmod_self _ _ _ _ h

@[simp] theorem State.stack_onStack_ne (s : State) (n m : Nat) (f : Stack → Stack) (h : m ≠ n) :
    (s.onStack n f).stack m = s.stack m := vget_vmod_ne _ _ _ _ _ h

@[simp] theorem State.stack_onCell (s : State) (n m : Nat) (f : Cell → Cell) : (s.onCell n f).stack m = s.stack m := rfl
@[simp] theorem State.stack_onPart (s : State) (n m : Nat) (f : Part → Part) : (s.onPart n f).stack m = s.stack m := rfl
@[simp] theorem State.stack_onPort (s : State) (n m : Nat) (f : Port → Port) : (s.onPort n f).stack m = s.stack m := rfl
@[simp] theorem State.stack_onDev (s : State) (m : Nat) (f : Dev → Dev) : (s.onDev f).stack m = s.stack m := rfl
@[simp] theorem State.stack_onNv (s : State) (m : Nat) (f : Nv → Nv) : (s.onNv f).stack m = s.stack m := rfl
@[simp] theorem State.stack_onEop (s : State) (m : Nat) (f : Eop → Eop) : (s.onEop f).stack m = s.stack m := rfl
@[simp] theorem State.stack_onPower (s : State) (m : Nat) (f : Power → Power) : (s.onPower f).stack m = s.stack m := rfl
@[simp] theorem State.stack_onRing (s : State) (m : Nat) (f : Ring → Ring) : (s.onRing f).stack m = s.stack m := rfl
@[simp] theorem State.stack_onAtt (s : State) (m : Nat) (f : Att → Att) : (s.onAtt f).stack m = s.stack m := rfl
@[simp] theorem State.stack_onTest (s : State) (m : Nat) (f : Test → Test) : (s.onTest f).stack m = s.stack m := rfl

theorem State.port_onPort (s : State) (n m : Nat) (f : Port → Port) :
    (s.onPort n f).port m = if m = n ∧ n < 2 then f (s.port n) else s.port m := vget_vmod _ _ _ _ _

theorem State.port_onPort_self (s : State) (n : Nat) (f : Port → Port) (h : n < 2) :
    (s.onPort n f).port n = f (s.port n) := vget_vmod_self _ _ _ _ h

@[simp] theorem State.port_onPort_ne (s : State) (n m : Nat) (f : Port → Port) (h : m ≠ n) :
    (s.onPort n f).port m = s.port m := vget_vmod_ne _ _ _ _ _ h

@[simp] theorem State.port_onCell (s : State) (n m : Nat) (f : Cell → Cell) : (s.onCell n f).port m = s.port m := rfl
@[simp] theorem State.port_onPart (s : State) (n m : Nat) (f : Part → Part) : (s.onPart n f).port m = s.port m := rfl
@[simp] theorem State.port_onStack (s : State) (n m : Nat) (f : Stack → Stack) : (s.onStack n f).port m = s.port m := rfl
@[simp] theorem State.port_onDev (s : State) (m : Nat) (f : Dev → Dev) : (s.onDev f).port m = s.port m := rfl
@[simp] theorem State.port_onNv (s : State) (m : Nat) (f : Nv → Nv) : (s.onNv f).port m = s.port m := rfl
@[simp] theorem State.port_onEop (s : State) (m : Nat) (f : Eop → Eop) : (s.onEop f).port m = s.port m := rfl
@[simp] theorem State.port_onPower (s : State) (m : Nat) (f : Power → Power) : (s.onPower f).port m = s.port m := rfl
@[simp] theorem State.port_onRing (s : State) (m : Nat) (f : Ring → Ring) : (s.onRing f).port m = s.port m := rfl
@[simp] theorem State.port_onAtt (s : State) (m : Nat) (f : Att → Att) : (s.onAtt f).port m = s.port m := rfl
@[simp] theorem State.port_onTest (s : State) (m : Nat) (f : Test → Test) : (s.onTest f).port m = s.port m := rfl

end Sys2Proof.Machine
end

