-- ==== Sys2Proof/Laws/Frame.lean ====
section
/-! SUPPORT. Frames that compose: which fields an operation leaves, and that the memory keeps its canonical form. -/

set_option Elab.async false

namespace Sys2Proof.Machine

/-- The by-pass position is held: a switch fault that only a device reset ends holds it, or the device waits for its
boot (R41). -/
def BypassHeld (d : Dev) : Prop := d.bypCmd = false ∧ (d.bypFault = true ∨ d.resetPending = true)

/-- From s to t only the listed fields differ, a canonical memory stays canonical, and a by-pass position that is held
stays held. -/
def Keeps (l : List StateField) (s t : State) : Prop :=
  Only l s t ∧ (s.mem.wf = true → t.mem.wf = true) ∧ (BypassHeld s.dev → BypassHeld t.dev)

/-- The fields an operation may change that reads or writes memory: a word found uncorrectable resets its partition, one
of a steward region the device. -/
def Reaching : List StateField :=
  [.nv, .dev, .mem, .cells, .parts, .drams, .ports, .ring, .eop, .test, .att, .power, .out]

theorem reaching_mem {l : List StateField} (h : Reaching ⊆ l) :
    .nv ∈ l ∧ .dev ∈ l ∧ .mem ∈ l ∧ .cells ∈ l ∧ .parts ∈ l ∧ .drams ∈ l ∧ .ports ∈ l ∧ .ring ∈ l ∧ .eop ∈ l ∧ .test ∈ l ∧
      .att ∈ l ∧ .power ∈ l ∧ .out ∈ l := by
  simpa [Reaching] using h

theorem StateField.same_refl (s : State) (f : StateField) : f.same s s := by cases f <;> rfl

theorem StateField.same_trans {s t u : State} {f : StateField} (h : f.same s t) (h' : f.same t u) : f.same s u := by
  cases f <;> exact Eq.trans h' h

theorem Only.refl (l : List StateField) (s : State) : Only l s s := fun f _ => f.same_refl s

theorem Only.trans {l : List StateField} {s t u : State} (h : Only l s t) (h' : Only l t u) : Only l s u :=
  fun f hf => StateField.same_trans (h f hf) (h' f hf)

theorem Only.mono {l m : List StateField} {s t : State} (h : Only l s t) (hm : l ⊆ m) : Only m s t :=
  fun f hf => h f fun h' => hf (hm h')

theorem Keeps.refl (l : List StateField) (s : State) : Keeps l s s := ⟨Only.refl l s, id, id⟩

theorem Keeps.trans {l : List StateField} {s t u : State} (h : Keeps l s t) (h' : Keeps l t u) : Keeps l s u :=
  ⟨h.1.trans h'.1, fun w => h'.2.1 (h.2.1 w), fun w => h'.2.2 (h.2.2 w)⟩

theorem Keeps.mono {l m : List StateField} {s t : State} (h : Keeps l s t) (hm : l ⊆ m) : Keeps m s t :=
  ⟨h.1.mono hm, h.2⟩

/-- An operation with its own frame, after what led to the state it ran on. -/
theorem Keeps.of {l m : List StateField} {s t u : State} (h : Keeps m t u) (hm : m ⊆ l) (hs : Keeps l s t) :
    Keeps l s u := hs.trans (h.mono hm)

theorem Keeps.ite {l : List StateField} {c : Prop} [Decidable c] {s t u : State} (h : c → Keeps l s t)
    (h' : ¬c → Keeps l s u) : Keeps l s (if c then t else u) := by
  split
  · exact h ‹_›
  · exact h' ‹_›

theorem Keeps.ite_snd {α : Type} {l : List StateField} {c : Prop} [Decidable c] {s : State} {x y : α × State}
    (h : c → Keeps l s x.2) (h' : ¬c → Keeps l s y.2) : Keeps l s (if c then x else y).2 := by
  split
  · exact h ‹_›
  · exact h' ‹_›

/-- The state of a result that has been taken apart. -/
theorem Keeps.ofPair {α : Type} {l : List StateField} {s t : State} {e : α × State} {x : α} (h : e = (x, t))
    (hk : Keeps l s e.2) : Keeps l s t := by
  rw [h] at hk; exact hk

theorem Keeps.ofSome {l : List StateField} {s t : State} {e : Option State} (h : e = some t)
    (hk : ∀ u, e = some u → Keeps l s u) : Keeps l s t := hk t h

theorem Keeps.forEach {α : Type} {l : List StateField} {s t : State} {f : α → State → State} {xs : List α}
    (hf : ∀ x u, Keeps l u (f x u)) (hs : Keeps l s t) : Keeps l s (forEach xs f t) := by
  unfold Machine.forEach
  induction xs generalizing t with
  | nil => exact hs
  | cons x r ih => exact ih (hs.trans (hf x t))

theorem Keeps.foldl {α β : Type} {l : List StateField} {s : State} {f : β × State → α → β × State} {xs : List α}
    {b : β × State} (hf : ∀ b x, Keeps l b.2 (f b x).2) (hs : Keeps l s b.2) : Keeps l s (xs.foldl f b).2 := by
  induction xs generalizing b with
  | nil => exact hs
  | cons x r ih => exact ih (hs.trans (hf b x))

/-- A memory that stays canonical. -/
theorem Keeps.setMem {l : List StateField} {s t : State} {m : Memory} (hl : StateField.mem ∈ l)
    (hm : t.mem.wf = true → m.wf = true) (hs : Keeps l s t) : Keeps l s { t with mem := m } := by
  refine hs.trans ⟨fun f hf => ?_, hm, id⟩
  cases f <;> first | rfl | exact absurd hl hf

/-- A state that agrees with another outside the list and in memory, and holds the by-pass position where it does. -/
theorem Keeps.agree {l : List StateField} {s t u : State} (h : ∀ f, f ∉ l → f.same t u) (hm : u.mem = t.mem)
    (hd : BypassHeld t.dev → BypassHeld u.dev) (hs : Keeps l s t) : Keeps l s u :=
  hs.trans ⟨h, fun w => by rw [hm]; exact w, hd⟩

theorem Keeps.onCell {l : List StateField} {s t : State} {n : Nat} {f : Cell → Cell} (hl : StateField.cells ∈ l)
    (hs : Keeps l s t) : Keeps l s (t.onCell n f) :=
  Keeps.agree (t := t) (fun g hg => by cases g <;> first | rfl | exact absurd hl hg) rfl id hs

theorem Keeps.onPart {l : List StateField} {s t : State} {p : Nat} {f : Part → Part} (hl : StateField.parts ∈ l)
    (hs : Keeps l s t) : Keeps l s (t.onPart p f) :=
  Keeps.agree (t := t) (fun g hg => by cases g <;> first | rfl | exact absurd hl hg) rfl id hs

theorem Keeps.onStack {l : List StateField} {s t : State} {n : Nat} {f : Stack → Stack} (hl : StateField.drams ∈ l)
    (hs : Keeps l s t) : Keeps l s (t.onStack n f) :=
  Keeps.agree (t := t) (fun g hg => by cases g <;> first | rfl | exact absurd hl hg) rfl id hs

theorem Keeps.onPort {l : List StateField} {s t : State} {n : Nat} {f : Port → Port} (hl : StateField.ports ∈ l)
    (hs : Keeps l s t) : Keeps l s (t.onPort n f) :=
  Keeps.agree (t := t) (fun g hg => by cases g <;> first | rfl | exact absurd hl hg) rfl id hs

theorem Keeps.onDev {l : List StateField} {s t : State} {f : Dev → Dev} (hl : StateField.dev ∈ l)
    (hf : BypassHeld t.dev → BypassHeld (f t.dev)) (hs : Keeps l s t) : Keeps l s (t.onDev f) :=
  Keeps.agree (t := t) (fun g hg => by cases g <;> first | rfl | exact absurd hl hg) rfl hf hs

/-- A device update that leaves the by-pass position, its fault and the waiting boot as they are. -/
theorem Keeps.onDevSame {l : List StateField} {s t : State} {f : Dev → Dev} (hl : StateField.dev ∈ l)
    (hf : ∀ d, (f d).bypCmd = d.bypCmd ∧ (f d).bypFault = d.bypFault ∧ (f d).resetPending = d.resetPending)
    (hs : Keeps l s t) : Keeps l s (t.onDev f) := by
  refine Keeps.onDev hl (fun h => ?_) hs
  obtain ⟨h1, h2, h3⟩ := hf t.dev
  unfold BypassHeld
  rw [h1, h2, h3]
  exact h

theorem Keeps.onNv {l : List StateField} {s t : State} {f : Nv → Nv} (hl : StateField.nv ∈ l)
    (hs : Keeps l s t) : Keeps l s (t.onNv f) :=
  Keeps.agree (t := t) (fun g hg => by cases g <;> first | rfl | exact absurd hl hg) rfl id hs

theorem Keeps.onEop {l : List StateField} {s t : State} {f : Eop → Eop} (hl : StateField.eop ∈ l)
    (hs : Keeps l s t) : Keeps l s (t.onEop f) :=
  Keeps.agree (t := t) (fun g hg => by cases g <;> first | rfl | exact absurd hl hg) rfl id hs

theorem Keeps.onPower {l : List StateField} {s t : State} {f : Power → Power} (hl : StateField.power ∈ l)
    (hs : Keeps l s t) : Keeps l s (t.onPower f) :=
  Keeps.agree (t := t) (fun g hg => by cases g <;> first | rfl | exact absurd hl hg) rfl id hs

theorem Keeps.onRing {l : List StateField} {s t : State} {f : Ring → Ring} (hl : StateField.ring ∈ l)
    (hs : Keeps l s t) : Keeps l s (t.onRing f) :=
  Keeps.agree (t := t) (fun g hg => by cases g <;> first | rfl | exact absurd hl hg) rfl id hs

theorem Keeps.onAtt {l : List StateField} {s t : State} {f : Att → Att} (hl : StateField.att ∈ l)
    (hs : Keeps l s t) : Keeps l s (t.onAtt f) :=
  Keeps.agree (t := t) (fun g hg => by cases g <;> first | rfl | exact absurd hl hg) rfl id hs

theorem Keeps.onTest {l : List StateField} {s t : State} {f : Test → Test} (hl : StateField.test ∈ l)
    (hs : Keeps l s t) : Keeps l s (t.onTest f) :=
  Keeps.agree (t := t) (fun g hg => by cases g <;> first | rfl | exact absurd hl hg) rfl id hs

theorem Keeps.set_nv {l : List StateField} {s t : State} {v : Nv} (hl : StateField.nv ∈ l) (hs : Keeps l s t) :
    Keeps l s { t with nv := v } :=
  Keeps.agree (t := t) (fun g hg => by cases g <;> first | rfl | exact absurd hl hg) rfl id hs

theorem Keeps.set_eop {l : List StateField} {s t : State} {v : Eop} (hl : StateField.eop ∈ l) (hs : Keeps l s t) :
    Keeps l s { t with eop := v } :=
  Keeps.agree (t := t) (fun g hg => by cases g <;> first | rfl | exact absurd hl hg) rfl id hs

theorem Keeps.set_nv_dev {l : List StateField} {s t : State} {v : Nv} {w : Dev} (ha : StateField.nv ∈ l)
    (hb : StateField.dev ∈ l) (hw : BypassHeld t.dev → BypassHeld w) (hs : Keeps l s t) :
    Keeps l s { t with nv := v, dev := w } :=
  Keeps.agree (t := t) (fun g hg => by cases g <;> first | rfl | exact absurd ha hg | exact absurd hb hg) rfl hw hs

theorem Keeps.set_eop_out {l : List StateField} {s t : State} {v : Eop} {w : Out} (ha : StateField.eop ∈ l)
    (hb : StateField.out ∈ l) (hs : Keeps l s t) : Keeps l s { t with eop := v, out := w } :=
  Keeps.agree (t := t) (fun g hg => by cases g <;> first | rfl | exact absurd ha hg | exact absurd hb hg) rfl id hs

theorem Keeps.set_dev_jtag {l : List StateField} {s t : State} {v : Dev} {w : Jtag} (ha : StateField.dev ∈ l)
    (hb : StateField.jtag ∈ l) (hv : BypassHeld t.dev → BypassHeld v) (hs : Keeps l s t) :
    Keeps l s { t with dev := v, jtag := w } :=
  Keeps.agree (t := t) (fun g hg => by cases g <;> first | rfl | exact absurd ha hg | exact absurd hb hg) rfl hv hs

theorem Keeps.set_out {l : List StateField} {s t : State} {v : Out} (hl : StateField.out ∈ l) (hs : Keeps l s t) :
    Keeps l s { t with out := v } :=
  Keeps.agree (t := t) (fun g hg => by cases g <;> first | rfl | exact absurd hl hg) rfl id hs

theorem Keeps.set_free {l : List StateField} {s t : State} {v : Nat} (hl : StateField.free ∈ l) (hs : Keeps l s t) :
    Keeps l s { t with free := v } :=
  Keeps.agree (t := t) (fun g hg => by cases g <;> first | rfl | exact absurd hl hg) rfl id hs

theorem Keeps.set_dev {l : List StateField} {s t : State} {v : Dev} (hl : StateField.dev ∈ l)
    (hv : BypassHeld t.dev → BypassHeld v) (hs : Keeps l s t) : Keeps l s { t with dev := v } :=
  Keeps.agree (t := t) (fun g hg => by cases g <;> first | rfl | exact absurd hl hg) rfl hv hs

theorem Keeps.set_jtag {l : List StateField} {s t : State} {v : Jtag} (hl : StateField.jtag ∈ l) (hs : Keeps l s t) :
    Keeps l s { t with jtag := v } :=
  Keeps.agree (t := t) (fun g hg => by cases g <;> first | rfl | exact absurd hl hg) rfl id hs

theorem Keeps.writeMem {l : List StateField} {s t : State} {a : Nat} {bs : List Byte} (hl : StateField.mem ∈ l) (hs : Keeps l s t) :
    Keeps l s { t with mem := t.mem.writeN a bs } := Keeps.setMem hl (fun h => Memory.wf_writeN _ _ _ h) hs

theorem Keeps.clearMem {l : List StateField} {s t : State} {a n : Nat} (hl : StateField.mem ∈ l) (hs : Keeps l s t) :
    Keeps l s { t with mem := t.mem.clear a n } := Keeps.setMem hl (fun h => Memory.wf_clear _ _ _ h) hs

theorem Keeps.storeMem {l : List StateField} {s t : State} {w : Nat} {d : List Byte} {e : BitVec 288} (hl : StateField.mem ∈ l) (hs : Keeps l s t) :
    Keeps l s { t with mem := t.mem.storeWord w d e } := Keeps.setMem hl (fun h => Memory.wf_storeWord _ _ _ _ h) hs

theorem Keeps.resizeMem {l : List StateField} {s t : State} {a o n : Nat} (hl : StateField.mem ∈ l) (hs : Keeps l s t) :
    Keeps l s { t with mem := t.mem.resize a o n } := Keeps.setMem hl (fun h => Memory.wf_resize _ _ _ _ h) hs

end Sys2Proof.Machine
end

