-- ==== Sys2Proof/Laws/Operations.lean ====
section
/-! SUPPORT. The shared operations: what each leaves, and that it keeps the memory canonical. -/

set_option Elab.async false

namespace Sys2Proof.Machine

/-! ### Ops -/

theorem State.onUnit_keeps {fl : List StateField} {s₀ s₁ : State} (uclass : Nat) (uindex : Nat)
    (f : UnitSummary → UnitSummary) (h_nv : .nv ∈ fl)
    (hs : Keeps fl s₀ s₁) : Keeps fl s₀ (State.onUnit s₁ uclass uindex f) := by
  unfold State.onUnit
  grind [← Keeps.onNv]

theorem countEvent_keeps {fl : List StateField} {s₀ s₁ : State} (uclass : Nat) (uindex : Nat) (etype : Nat)
    (h_nv : .nv ∈ fl)
    (hs : Keeps fl s₀ s₁) : Keeps fl s₀ (countEvent uclass uindex etype s₁) := by
  unfold countEvent
  grind [← State.onUnit_keeps]

theorem recordEvent_keeps {fl : List StateField} {s₀ s₁ : State} (etype : Nat) (uclass : Nat) (uindex : Nat) (status : Nat)
    (part : Nat) (detail : Nat) (h_nv : .nv ∈ fl) (h_dev : .dev ∈ fl)
    (hs : Keeps fl s₀ s₁) : Keeps fl s₀ (recordEvent etype uclass uindex status part detail s₁) := by
  unfold recordEvent
  grind [BypassHeld, ← countEvent_keeps, ← Keeps.set_nv_dev, ← Keeps.set_nv, ← Keeps.set_dev]

theorem sendM_keeps {fl : List StateField} {s₀ s₁ : State} (m : EopOut) (h_out : .out ∈ fl)
    (hs : Keeps fl s₀ s₁) : Keeps fl s₀ (sendM m s₁) := by
  unfold sendM
  grind [← Keeps.set_out]

theorem notify_keeps {fl : List StateField} {s₀ s₁ : State} (p : Nat) (event : Nat) (status : Nat) (detail : Nat)
    (h_parts : .parts ∈ fl) (h_eop : .eop ∈ fl) (h_out : .out ∈ fl)
    (hs : Keeps fl s₀ s₁) : Keeps fl s₀ (notify p event status detail s₁) := by
  unfold notify
  grind [← Keeps.onPart, ← Keeps.set_eop_out, ← Keeps.set_eop, ← Keeps.set_out]

theorem deviceReset_keeps {fl : List StateField} {s₀ s₁ : State} (hr : Reaching ⊆ fl) (hs : Keeps fl s₀ s₁) :
    Keeps fl s₀ (deviceReset s₁) := by
  have hm := reaching_mem hr
  refine hs.trans ⟨fun f hf => ?_, fun h => Memory.wf_dropCells _ h, fun _ => ⟨rfl, .inr rfl⟩⟩
  cases f <;> first | rfl | grind

theorem countBoot_keeps {fl : List StateField} {s₀ s₁ : State}  (h_nv : .nv ∈ fl)
    (hs : Keeps fl s₀ s₁) : Keeps fl s₀ (countBoot s₁) := by
  unfold countBoot
  grind [← Keeps.onNv]

theorem draw_keeps {fl : List StateField} {s₀ s₁ : State}  (h_free : .free ∈ fl)
    (hs : Keeps fl s₀ s₁) : Keeps fl s₀ (draw s₁).2 := by
  unfold draw
  grind [← Keeps.set_free]

/-! ### Bytes -/

theorem freeBytes_keeps {fl : List StateField} {s₀ s₁ : State} (a n : Nat) (h_mem : .mem ∈ fl) (h_free : .free ∈ fl)
    (hs : Keeps fl s₀ s₁) : Keeps fl s₀ (freeBytes a n s₁) := by
  refine hs.trans ⟨fun f hf => ?_, fun h => Memory.wf_writeN _ _ _ h, id⟩
  cases f <;> first | rfl | grind

theorem freeProvisional_keeps {fl : List StateField} {s₀ s₁ : State} (c : Nat) (h_mem : .mem ∈ fl) (h_free : .free ∈ fl)
    (hs : Keeps fl s₀ s₁) : Keeps fl s₀ (freeProvisional c s₁) := by
  unfold freeProvisional
  grind [← freeBytes_keeps]

/-! ### Flags -/

theorem pushRecord_keeps {fl : List StateField} {s₀ s₁ : State} (c : Nat) (r : BitVec 256) (h_cells : .cells ∈ fl)
    (hs : Keeps fl s₀ s₁) : Keeps fl s₀ (pushRecord c r s₁) := by
  unfold pushRecord
  grind [← Keeps.onCell]

theorem addCounters_keeps {fl : List StateField} {s₀ s₁ : State} (p : Nat) (status : Nat) (c : Counts)
    (h_parts : .parts ∈ fl)
    (hs : Keeps fl s₀ s₁) : Keeps fl s₀ (addCounters p status c s₁) := by
  unfold addCounters
  grind [← Keeps.onPart]

theorem traceRecord_keeps {fl : List StateField} {s₀ s₁ : State} (c : Nat) (p : Nat) (lcell : Nat) (ord : Nat)
    (r : BitVec 256) (h_cells : .cells ∈ fl) (h_parts : .parts ∈ fl)
    (hs : Keeps fl s₀ s₁) : Keeps fl s₀ (traceRecord c p lcell ord r s₁) := by
  unfold traceRecord
  grind [← Keeps.onPart, ← Keeps.onCell]

theorem writeRecord_keeps {fl : List StateField} {s₀ s₁ : State} (c : Nat) (queue : Nat) (e : QEntry) (status : Nat)
    (cnt : Counts) (aux : Nat) (h_cells : .cells ∈ fl) (h_parts : .parts ∈ fl)
    (hs : Keeps fl s₀ s₁) : Keeps fl s₀ (writeRecord c queue e status cnt aux s₁) := by
  unfold writeRecord
  grind [← pushRecord_keeps, ← addCounters_keeps, ← traceRecord_keeps]

theorem writeSquashed_keeps {fl : List StateField} {s₀ s₁ : State} (c : Nat) (queue : Nat) (e : QEntry)
    (h_cells : .cells ∈ fl) (h_parts : .parts ∈ fl)
    (hs : Keeps fl s₀ s₁) : Keeps fl s₀ (writeSquashed c queue e s₁) := by
  unfold writeSquashed
  grind [← writeRecord_keeps]

theorem squashFrom_keeps {fl : List StateField} {s₀ s₁ : State} (c : Nat) (from' : BitVec 32) (h_mem : .mem ∈ fl)
    (h_cells : .cells ∈ fl) (h_parts : .parts ∈ fl) (h_free : .free ∈ fl)
    (hs : Keeps fl s₀ s₁) : Keeps fl s₀ (squashFrom c from' s₁) := by
  unfold squashFrom
  grind [← Keeps.refl, ← Keeps.onCell, ← freeProvisional_keeps, ← Keeps.forEach, ← writeSquashed_keeps]

theorem squashProvisional_keeps {fl : List StateField} {s₀ s₁ : State} (c : Nat) (h_mem : .mem ∈ fl)
    (h_cells : .cells ∈ fl) (h_parts : .parts ∈ fl) (h_free : .free ∈ fl)
    (hs : Keeps fl s₀ s₁) : Keeps fl s₀ (squashProvisional c s₁) := by
  unfold squashProvisional
  grind [← squashFrom_keeps, ← Keeps.onCell]

/-! ### Frames -/

theorem emitRaw_keeps {fl : List StateField} {s₀ s₁ : State} (port : Nat) (f : VrtFrame) (h_out : .out ∈ fl)
    (hs : Keeps fl s₀ s₁) : Keeps fl s₀ (emitRaw port f s₁) := by
  unfold emitRaw
  grind [← Keeps.set_out]

theorem emit_keeps {fl : List StateField} {s₀ s₁ : State} (port : Nat) (f : VrtFrame) (h_out : .out ∈ fl)
    (hs : Keeps fl s₀ s₁) : Keeps fl s₀ (emit port f s₁) := by
  unfold emit
  grind [← emitRaw_keeps]

theorem sendClass0_keeps {fl : List StateField} {s₀ s₁ : State} (port : Nat) (f : VrtFrame) (h_out : .out ∈ fl)
    (hs : Keeps fl s₀ s₁) : Keeps fl s₀ (sendClass0 port f s₁) := by
  unfold sendClass0
  grind [← emit_keeps]

theorem sendCredit_keeps {fl : List StateField} {s₀ s₁ : State} (port : Nat) (h_ports : .ports ∈ fl) (h_out : .out ∈ fl)
    (hs : Keeps fl s₀ s₁) : Keeps fl s₀ (sendCredit port s₁) := by
  unfold sendCredit
  grind [← Keeps.onPort, ← sendClass0_keeps]

theorem freeBuffer_keeps {fl : List StateField} {s₀ s₁ : State} (port : Nat) (cls : Nat) (h_ports : .ports ∈ fl)
    (h_out : .out ∈ fl)
    (hs : Keeps fl s₀ s₁) : Keeps fl s₀ (freeBuffer port cls s₁) := by
  unfold freeBuffer
  grind [← Keeps.onPort, ← sendCredit_keeps]

theorem sendPfc_keeps {fl : List StateField} {s₀ s₁ : State} (port : Nat) (cls : Nat) (pause : Bool)
    (h_ports : .ports ∈ fl) (h_out : .out ∈ fl)
    (hs : Keeps fl s₀ s₁) : Keeps fl s₀ (sendPfc port cls pause s₁) := by
  unfold sendPfc
  grind [← Keeps.onPort, ← Keeps.set_out]

theorem pfcUpdate_keeps {fl : List StateField} {s₀ s₁ : State} (port : Nat) (cls : Nat) (h_ports : .ports ∈ fl)
    (h_out : .out ∈ fl)
    (hs : Keeps fl s₀ s₁) : Keeps fl s₀ (pfcUpdate port cls s₁) := by
  unfold pfcUpdate
  grind [← sendPfc_keeps]

theorem transmitAt_keeps {fl : List StateField} {s₀ s₁ : State} (port : Nat) (i : Nat) (cls : Nat) (t : ClassTurn)
    (h_ports : .ports ∈ fl) (h_out : .out ∈ fl)
    (hs : Keeps fl s₀ s₁) : Keeps fl s₀ (transmitAt port i cls t s₁) := by
  unfold transmitAt
  grind [← Keeps.onPort, ← emit_keeps, ← pfcUpdate_keeps, ← freeBuffer_keeps]

theorem replayOne_keeps {fl : List StateField} {s₀ s₁ : State} (port : Nat) (g : VrtFrame) (h_ports : .ports ∈ fl)
    (h_out : .out ∈ fl)
    (hs : Keeps fl s₀ s₁) : Keeps fl s₀ (replayOne port g s₁) := by
  unfold replayOne
  grind [← emit_keeps, ← Keeps.onPort]

theorem pump_keeps {fl : List StateField} {s₀ s₁ : State} (x0 : Nat) (x1 : Nat) (h_ports : .ports ∈ fl)
    (h_out : .out ∈ fl)
    (hs : Keeps fl s₀ s₁) : Keeps fl s₀ (pump x0 x1 s₁) := by
  induction x0 generalizing s₁ x1 <;> unfold pump <;> grind [← replayOne_keeps, ← transmitAt_keeps]

theorem pumpPort_keeps {fl : List StateField} {s₀ s₁ : State} (port : Nat) (h_ports : .ports ∈ fl) (h_out : .out ∈ fl)
    (hs : Keeps fl s₀ s₁) : Keeps fl s₀ (pumpPort port s₁) := by
  unfold pumpPort
  grind [← pump_keeps]

theorem sendFrame_keeps {fl : List StateField} {s₀ s₁ : State} (port : Nat) (f : VrtFrame) (h_ports : .ports ∈ fl)
    (h_out : .out ∈ fl)
    (hs : Keeps fl s₀ s₁) : Keeps fl s₀ (sendFrame port f s₁) := by
  unfold sendFrame
  grind [← sendClass0_keeps, ← pumpPort_keeps, ← Keeps.onPort]

theorem sendLack_keeps {fl : List StateField} {s₀ s₁ : State} (port : Nat) (replay : Bool) (h_out : .out ∈ fl)
    (hs : Keeps fl s₀ s₁) : Keeps fl s₀ (sendLack port replay s₁) := by
  unfold sendLack
  grind [← sendClass0_keeps]

theorem creditViolation_keeps {fl : List StateField} {s₀ s₁ : State} (p : Nat) (h_parts : .parts ∈ fl)
    (hs : Keeps fl s₀ s₁) : Keeps fl s₀ (creditViolation p s₁) := by
  unfold creditViolation
  grind [← Keeps.onPart]

theorem headerDrop_keeps {fl : List StateField} {s₀ s₁ : State} (port : Nat) (h_ports : .ports ∈ fl)
    (hs : Keeps fl s₀ s₁) : Keeps fl s₀ (headerDrop port s₁) := by
  unfold headerDrop
  grind [← Keeps.onPort]

theorem linkReceive_keeps {fl : List StateField} {s₀ s₁ : State} (port : Nat) (f : VrtFrame) (h_parts : .parts ∈ fl)
    (h_ports : .ports ∈ fl) (h_out : .out ∈ fl)
    (hs : Keeps fl s₀ s₁) : Keeps fl s₀ (linkReceive port f s₁).2 := by
  unfold linkReceive
  grind [← pfcUpdate_keeps, ← Keeps.onPort, ← sendLack_keeps, ← creditViolation_keeps]

theorem class0Receive_keeps {fl : List StateField} {s₀ s₁ : State} (port : Nat) (f : VrtFrame) (h_ports : .ports ∈ fl)
    (hs : Keeps fl s₀ s₁) : Keeps fl s₀ (class0Receive port f s₁).2 := by
  unfold class0Receive
  grind [← Keeps.onPort]

theorem cutThrough_keeps {fl : List StateField} {s₀ s₁ : State} (port : Nat) (f : VrtFrame) (h_out : .out ∈ fl)
    (hs : Keeps fl s₀ s₁) : Keeps fl s₀ (cutThrough port f s₁) := by
  unfold cutThrough
  grind [← emitRaw_keeps]

theorem receive_keeps {fl : List StateField} {s₀ s₁ : State} (port : Nat) (f : VrtFrame) (h_parts : .parts ∈ fl)
    (h_ports : .ports ∈ fl) (h_out : .out ∈ fl)
    (hs : Keeps fl s₀ s₁) : Keeps fl s₀ (receive port f s₁).2 := by
  unfold receive
  grind [← cutThrough_keeps, ← headerDrop_keeps, ← sendLack_keeps, ! ⇒ class0Receive_keeps, ! ⇒ linkReceive_keeps, ←
    freeBuffer_keeps, ← sendFrame_keeps]

theorem holdBuffer_keeps {fl : List StateField} {s₀ s₁ : State} (port : Nat) (f : VrtFrame) (h_parts : .parts ∈ fl)
    (h_ports : .ports ∈ fl) (h_out : .out ∈ fl)
    (hs : Keeps fl s₀ s₁) : Keeps fl s₀ (holdBuffer port f s₁).2 := by
  unfold holdBuffer
  grind [← creditViolation_keeps, ← freeBuffer_keeps, ← Keeps.onPort]

theorem releaseBuffer_keeps {fl : List StateField} {s₀ s₁ : State} (port : Nat) (cls : Nat) (p : Nat)
    (h_ports : .ports ∈ fl) (h_out : .out ∈ fl)
    (hs : Keeps fl s₀ s₁) : Keeps fl s₀ (releaseBuffer port cls p s₁) := by
  unfold releaseBuffer
  grind [← pfcUpdate_keeps, ← freeBuffer_keeps, ← Keeps.onPort]

theorem sendBoth_keeps {fl : List StateField} {s₀ s₁ : State} (f : VrtFrame) (h_out : .out ∈ fl)
    (hs : Keeps fl s₀ s₁) : Keeps fl s₀ (sendBoth f s₁) := by
  unfold sendBoth
  grind [← sendClass0_keeps]

theorem releaseCores_keeps {fl : List StateField} {s₀ s₁ : State} (p : Nat) (h_cells : .cells ∈ fl)
    (h_parts : .parts ∈ fl)
    (hs : Keeps fl s₀ s₁) : Keeps fl s₀ (releaseCores p s₁) := by
  unfold releaseCores
  grind [← Keeps.refl, ← Keeps.forEach, ← Keeps.onCell, ← Keeps.onPart]

theorem emptyTraces_keeps {fl : List StateField} {s₀ s₁ : State} (p : Nat) (h_cells : .cells ∈ fl)
    (hs : Keeps fl s₀ s₁) : Keeps fl s₀ (emptyTraces p s₁) := by
  unfold emptyTraces
  grind [← Keeps.refl, ← Keeps.forEach, ← Keeps.onCell]

theorem cupOver_keeps {fl : List StateField} {s₀ s₁ : State} (p : Nat) (h_cells : .cells ∈ fl) (h_parts : .parts ∈ fl)
    (hs : Keeps fl s₀ s₁) : Keeps fl s₀ (cupOver p s₁) := by
  unfold cupOver
  grind [← Keeps.onPart, ← releaseCores_keeps, ← emptyTraces_keeps]

theorem cupEndAt_keeps {fl : List StateField} {s₀ s₁ : State} (p : Nat) (h_cells : .cells ∈ fl) (h_parts : .parts ∈ fl)
    (hs : Keeps fl s₀ s₁) : Keeps fl s₀ (cupEndAt p s₁) := by
  unfold cupEndAt
  grind [← cupOver_keeps]

theorem endPeerOf_keeps {fl : List StateField} {s₀ s₁ : State} (p : Nat) (cfg : BitVec 32) (h_cells : .cells ∈ fl)
    (h_parts : .parts ∈ fl) (h_out : .out ∈ fl)
    (hs : Keeps fl s₀ s₁) : Keeps fl s₀ (endPeerOf p cfg s₁) := by
  unfold endPeerOf
  grind [← cupEndAt_keeps, ← sendClass0_keeps]

theorem sendCupEnd_keeps {fl : List StateField} {s₀ s₁ : State} (p : Nat) (h_cells : .cells ∈ fl)
    (h_parts : .parts ∈ fl) (h_out : .out ∈ fl)
    (hs : Keeps fl s₀ s₁) : Keeps fl s₀ (sendCupEnd p s₁) := by
  unfold sendCupEnd
  grind [← endPeerOf_keeps]

/-! ### Decisions -/

theorem onColl_keeps {fl : List StateField} {s₀ s₁ : State} (p : Nat) (g : Nat) (barrier : Bool) (inst : BitVec 32)
    (f : Coll → Coll) (h_parts : .parts ∈ fl)
    (hs : Keeps fl s₀ s₁) : Keeps fl s₀ (onColl p g barrier inst f s₁) := by
  unfold onColl
  grind [← Keeps.onPart]

theorem finishDm_keeps {fl : List StateField} {s₀ s₁ : State} (c : Nat) (seqNo : BitVec 32) (status : Nat)
    (hash : BitVec 64) (landed : List Byte) (h_cells : .cells ∈ fl)
    (hs : Keeps fl s₀ s₁) : Keeps fl s₀ (finishDm c seqNo status hash landed s₁) := by
  unfold finishDm
  grind [← Keeps.onCell]

theorem keepEarly_keeps {fl : List StateField} {s₀ s₁ : State} (p : Nat) (port : Nat) (f : VrtFrame)
    (h_parts : .parts ∈ fl)
    (hs : Keeps fl s₀ s₁) : Keeps fl s₀ (keepEarly p port f s₁) := by
  unfold keepEarly
  grind [← Keeps.onPart]

theorem endColl_keeps {fl : List StateField} {s₀ s₁ : State} (p : Nat) (x : Coll) (status : Nat) (decision : Nat)
    (landed : List Byte) (h_cells : .cells ∈ fl) (h_parts : .parts ∈ fl) (h_ring : .ring ∈ fl)
    (hs : Keeps fl s₀ s₁) : Keeps fl s₀ (endColl p x status decision landed s₁) := by
  unfold endColl
  grind [← finishDm_keeps, ← Keeps.onRing, ← Keeps.onPart]

theorem memberAbort_keeps {fl : List StateField} {s₀ s₁ : State} (p : Nat) (g : Nat) (inst : BitVec 32)
    (h_cells : .cells ∈ fl) (h_parts : .parts ∈ fl) (h_ring : .ring ∈ fl)
    (hs : Keeps fl s₀ s₁) : Keeps fl s₀ (memberAbort p g inst s₁) := by
  unfold memberAbort
  grind [← endColl_keeps]

theorem sendDecision_keeps {fl : List StateField} {s₀ s₁ : State} (p : Nat) (kind : Nat) (x : Coll) (h_out : .out ∈ fl)
    (hs : Keeps fl s₀ s₁) : Keeps fl s₀ (sendDecision p kind x s₁) := by
  unfold sendDecision
  grind [← Keeps.refl, ← Keeps.forEach, ← sendBoth_keeps]

theorem coordAbort_keeps {fl : List StateField} {s₀ s₁ : State} (p : Nat) (g : Nat) (inst : BitVec 32)
    (h_cells : .cells ∈ fl) (h_parts : .parts ∈ fl) (h_ring : .ring ∈ fl) (h_out : .out ∈ fl)
    (hs : Keeps fl s₀ s₁) : Keeps fl s₀ (coordAbort p g inst s₁) := by
  unfold coordAbort
  grind [← Keeps.refl, ← onColl_keeps, ← sendDecision_keeps, ← Keeps.forEach, ← memberAbort_keeps]

theorem sendAbortReq_keeps {fl : List StateField} {s₀ s₁ : State} (p : Nat) (x : Coll) (h_cells : .cells ∈ fl)
    (h_parts : .parts ∈ fl) (h_ring : .ring ∈ fl) (h_out : .out ∈ fl)
    (hs : Keeps fl s₀ s₁) : Keeps fl s₀ (sendAbortReq p x s₁) := by
  unfold sendAbortReq
  grind [← sendBoth_keeps, ← keepEarly_keeps, ← coordAbort_keeps]

theorem failColl_keeps {fl : List StateField} {s₀ s₁ : State} (p : Nat) (g : Nat) (inst : BitVec 32)
    (h_cells : .cells ∈ fl) (h_parts : .parts ∈ fl) (h_ring : .ring ∈ fl) (h_out : .out ∈ fl)
    (hs : Keeps fl s₀ s₁) : Keeps fl s₀ (failColl p g inst s₁) := by
  unfold failColl
  grind [← sendAbortReq_keeps, ← onColl_keeps]

/-! ### Resets -/

theorem dropSave_keeps {fl : List StateField} {s₀ s₁ : State} (p : Nat) (h_parts : .parts ∈ fl) (h_eop : .eop ∈ fl)
    (h_out : .out ∈ fl)
    (hs : Keeps fl s₀ s₁) : Keeps fl s₀ (dropSave p s₁) := by
  unfold dropSave
  grind [← notify_keeps, ← Keeps.onPart]

theorem stopCell_keeps {fl : List StateField} {s₀ s₁ : State} (fault : Option (Nat × BitVec 32)) (c : Nat)
    (h_mem : .mem ∈ fl) (h_cells : .cells ∈ fl) (h_parts : .parts ∈ fl) (h_free : .free ∈ fl)
    (hs : Keeps fl s₀ s₁) : Keeps fl s₀ (stopCell fault c s₁) := by
  unfold stopCell
  grind [← squashProvisional_keeps, ← Keeps.onCell]

theorem dropTraffic_keeps {fl : List StateField} {s₀ s₁ : State} (p : Nat) (h_ports : .ports ∈ fl) (h_ring : .ring ∈ fl)
    (hs : Keeps fl s₀ s₁) : Keeps fl s₀ (dropTraffic p s₁) := by
  unfold dropTraffic
  grind [← Keeps.refl, ← Keeps.onRing, ← Keeps.forEach, ← Keeps.onPort]

theorem haltPartition_keeps {fl : List StateField} {s₀ s₁ : State} (p : Nat) (status : Nat)
    (fault : Option (Nat × BitVec 32)) (h_mem : .mem ∈ fl) (h_cells : .cells ∈ fl) (h_parts : .parts ∈ fl) (h_ports :
        .ports ∈ fl) (h_ring : .ring ∈ fl) (h_eop : .eop ∈ fl) (h_out : .out ∈ fl) (h_free : .free ∈ fl)
    (hs : Keeps fl s₀ s₁) : Keeps fl s₀ (haltPartition p status fault s₁) := by
  unfold haltPartition
  grind [← Keeps.refl, ← dropTraffic_keeps, ← Keeps.forEach, ← stopCell_keeps, ← Keeps.onPart, ← dropSave_keeps]

theorem stopPartition_keeps {fl : List StateField} {s₀ s₁ : State} (p : Nat) (cell : Nat) (status : Nat)
    (fault : Option (Nat × BitVec 32)) (h_mem : .mem ∈ fl) (h_cells : .cells ∈ fl) (h_parts : .parts ∈ fl) (h_ports :
        .ports ∈ fl) (h_ring : .ring ∈ fl) (h_eop : .eop ∈ fl) (h_out : .out ∈ fl) (h_free : .free ∈ fl)
    (hs : Keeps fl s₀ s₁) : Keeps fl s₀ (stopPartition p cell status fault s₁) := by
  unfold stopPartition
  grind [← notify_keeps, ← haltPartition_keeps]

theorem clearCell_keeps {fl : List StateField} {s₀ s₁ : State} (c : Nat) (h_cells : .cells ∈ fl)
    (hs : Keeps fl s₀ s₁) : Keeps fl s₀ (clearCell c s₁) := by
  unfold clearCell
  grind [← Keeps.onCell]

theorem abortColl_keeps {fl : List StateField} {s₀ s₁ : State} (p : Nat) (x : Coll) (h_cells : .cells ∈ fl)
    (h_parts : .parts ∈ fl) (h_ring : .ring ∈ fl) (h_out : .out ∈ fl)
    (hs : Keeps fl s₀ s₁) : Keeps fl s₀ (abortColl p x s₁) := by
  unfold abortColl
  grind [← sendAbortReq_keeps]

theorem dropHeld_keeps {fl : List StateField} {s₀ s₁ : State} (p : Nat) (h_ports : .ports ∈ fl) (h_out : .out ∈ fl)
    (hs : Keeps fl s₀ s₁) : Keeps fl s₀ (dropHeld p s₁) := by
  unfold dropHeld
  grind [← Keeps.refl, ← Keeps.forEach, ← releaseBuffer_keeps]

theorem startReset_keeps {fl : List StateField} {s₀ s₁ : State} (p : Nat) (unc : Option (Nat × Nat))
    (h_cells : .cells ∈ fl) (h_parts : .parts ∈ fl) (h_ports : .ports ∈ fl) (h_ring : .ring ∈ fl) (h_eop : .eop ∈ fl)
        (h_out : .out ∈ fl)
    (hs : Keeps fl s₀ s₁) : Keeps fl s₀ (startReset p unc s₁) := by
  unfold startReset
  grind (gen := 20) [← Keeps.refl, ← sendCupEnd_keeps, ← Keeps.onPart, ← Keeps.forEach, ← abortColl_keeps, ←
    dropSave_keeps, ← dropHeld_keeps, ← clearCell_keeps, ← Keeps.onRing, ← Keeps.onEop, ← Keeps.onPort]

/-! ### Access -/

theorem channelPermanent_keeps {fl : List StateField} {s₀ s₁ : State} (d : DramPos) (h_nv : .nv ∈ fl)
    (hs : Keeps fl s₀ s₁) : Keeps fl s₀ (channelPermanent d s₁) := by
  unfold channelPermanent
  grind [← State.onUnit_keeps]

theorem addSoft_keeps {fl : List StateField} {s₀ s₁ : State} (column : Bool) (d : DramPos) (h_nv : .nv ∈ fl)
    (h_dev : .dev ∈ fl)
    (hs : Keeps fl s₀ s₁) : Keeps fl s₀ (addSoft column d s₁) := by
  unfold addSoft
  grind [← channelPermanent_keeps, ← recordEvent_keeps, ← Keeps.onNv]

theorem classifyRow_keeps {fl : List StateField} {s₀ s₁ : State} (d : DramPos) (h_nv : .nv ∈ fl) (h_dev : .dev ∈ fl)
    (hs : Keeps fl s₀ s₁) : Keeps fl s₀ (classifyRow d s₁) := by
  unfold classifyRow
  grind [← addSoft_keeps]

theorem noteCorrection_keeps {fl : List StateField} {s₀ s₁ : State} (a : Nat) (scrub : Bool) (sym : Nat) (err : Nat)
    (h_nv : .nv ∈ fl) (h_dev : .dev ∈ fl) (h_cells : .cells ∈ fl) (h_drams : .drams ∈ fl)
    (hs : Keeps fl s₀ s₁) : Keeps fl s₀ (noteCorrection a scrub sym err s₁) := by
  unfold noteCorrection
  grind [← State.onUnit_keeps, ← Keeps.onCell, ← Keeps.onStack, ← classifyRow_keeps]

theorem uncorrectable_keeps {fl : List StateField} {s₀ s₁ : State} (w : Nat) (hr : Reaching ⊆ fl)
    (hs : Keeps fl s₀ s₁) : Keeps fl s₀ (uncorrectable w s₁) := by
  have hm := reaching_mem hr
  unfold uncorrectable
  grind [← recordEvent_keeps, ← startReset_keeps, ← deviceReset_keeps, ← countBoot_keeps, ← Keeps.onNv, ←
    Keeps.writeMem, ← Keeps.clearMem, ← Keeps.storeMem, ← Keeps.resizeMem]

theorem checkWord_keeps {fl : List StateField} {s₀ s₁ : State} (scrub : Bool) (w : Nat) (hr : Reaching ⊆ fl)
    (hs : Keeps fl s₀ s₁) : Keeps fl s₀ (checkWord scrub w s₁).2 := by
  have hm := reaching_mem hr
  unfold checkWord
  grind [← noteCorrection_keeps, ← uncorrectable_keeps, ← Keeps.writeMem, ← Keeps.clearMem, ← Keeps.storeMem, ←
    Keeps.resizeMem]

theorem checkWords_keeps {fl : List StateField} {s₀ s₁ : State} (scrub : Bool) (x1 : List Nat) (hr : Reaching ⊆ fl)
    (hs : Keeps fl s₀ s₁) : Keeps fl s₀ (checkWords scrub x1 s₁).2 := by
  have hm := reaching_mem hr
  induction x1 generalizing s₁  <;> unfold checkWords <;> grind [! ⇒ checkWord_keeps]

theorem memRead_keeps {fl : List StateField} {s₀ s₁ : State} (a : Nat) (n : Nat) (hr : Reaching ⊆ fl)
    (hs : Keeps fl s₀ s₁) : Keeps fl s₀ (memRead a n s₁).2 := by
  have hm := reaching_mem hr
  unfold memRead
  grind [! ⇒ checkWords_keeps]

theorem memReads_keeps {fl : List StateField} {s₀ s₁ : State} (x0 : List (Nat × Nat)) (hr : Reaching ⊆ fl)
    (hs : Keeps fl s₀ s₁) : Keeps fl s₀ (memReads x0 s₁).2 := by
  have hm := reaching_mem hr
  induction x0 generalizing s₁  <;> unfold memReads <;> grind [! ⇒ memRead_keeps]

theorem touch_keeps {fl : List StateField} {s₀ s₁ : State} (a : Nat) (n : Nat) (h_parts : .parts ∈ fl)
    (hs : Keeps fl s₀ s₁) : Keeps fl s₀ (touch a n s₁) := by
  unfold touch
  grind [← Keeps.onPart]

theorem consumeMask_keeps {fl : List StateField} {s₀ s₁ : State} (a : Nat) (n : Nat) (h_mem : .mem ∈ fl)
    (h_drams : .drams ∈ fl)
    (hs : Keeps fl s₀ s₁) : Keeps fl s₀ (consumeMask a n s₁) := by
  unfold consumeMask
  grind [← Keeps.onStack, ← Keeps.writeMem, ← Keeps.clearMem, ← Keeps.storeMem, ← Keeps.resizeMem]

theorem memWrite_keeps {fl : List StateField} {s₀ s₁ : State} (dm : Bool) (a : Nat) (bs : List Byte)
    (hr : Reaching ⊆ fl)
    (hs : Keeps fl s₀ s₁) : Keeps fl s₀ (memWrite dm a bs s₁).2 := by
  have hm := reaching_mem hr
  unfold memWrite
  grind [! ⇒ checkWords_keeps, ← touch_keeps, ← consumeMask_keeps, ← Keeps.writeMem, ← Keeps.clearMem, ←
    Keeps.storeMem, ← Keeps.resizeMem]

theorem memWrites_keeps {fl : List StateField} {s₀ s₁ : State} (dm : Bool) (x1 : List (Nat × List Byte))
    (hr : Reaching ⊆ fl)
    (hs : Keeps fl s₀ s₁) : Keeps fl s₀ (memWrites dm x1 s₁).2 := by
  have hm := reaching_mem hr
  induction x1 generalizing s₁  <;> unfold memWrites <;> grind [! ⇒ memWrite_keeps]

theorem relRead_keeps {fl : List StateField} {s₀ s₁ : State} (p : Nat) (a : Nat) (n : Nat) (hr : Reaching ⊆ fl)
    (hs : Keeps fl s₀ s₁) : Keeps fl s₀ (relRead p a n s₁).2 := by
  have hm := reaching_mem hr
  unfold relRead
  grind [! ⇒ memReads_keeps]

theorem relWrite_keeps {fl : List StateField} {s₀ s₁ : State} (dm : Bool) (p : Nat) (a : Nat) (bs : List Byte)
    (hr : Reaching ⊆ fl)
    (hs : Keeps fl s₀ s₁) : Keeps fl s₀ (relWrite dm p a bs s₁).2 := by
  have hm := reaching_mem hr
  unfold relWrite
  grind [! ⇒ memWrites_keeps]

theorem ownRead_keeps {fl : List StateField} {s₀ s₁ : State} (c : Nat) (o : Nat) (n : Nat) (hr : Reaching ⊆ fl)
    (hs : Keeps fl s₀ s₁) : Keeps fl s₀ (ownRead c o n s₁).2 := by
  have hm := reaching_mem hr
  unfold ownRead
  grind [! ⇒ memRead_keeps]

theorem ownWrite_keeps {fl : List StateField} {s₀ s₁ : State} (c : Nat) (o : Nat) (bs : List Byte) (hr : Reaching ⊆ fl)
    (hs : Keeps fl s₀ s₁) : Keeps fl s₀ (ownWrite c o bs s₁).2 := by
  have hm := reaching_mem hr
  unfold ownWrite
  grind [! ⇒ memWrite_keeps]

theorem applyRepairs_keeps {fl : List StateField} {s₀ s₁ : State} (st : Nat) (h_nv : .nv ∈ fl) (h_dev : .dev ∈ fl)
    (h_drams : .drams ∈ fl) (hs : Keeps fl s₀ s₁) : Keeps fl s₀ (applyRepairs st s₁) := by
  unfold applyRepairs
  refine Keeps.onStack h_drams ?_
  have key : ∀ (l : List (BitVec 64)) (f : List (BitVec 64) × List SpareKey × State → BitVec 64 →
      List (BitVec 64) × List SpareKey × State) (b : List (BitVec 64) × List SpareKey × State),
      (∀ b e, Keeps fl s₀ b.2.2 → Keeps fl s₀ (f b e).2.2) → Keeps fl s₀ b.2.2 → Keeps fl s₀ (l.foldl f b).2.2 := by
    intro l f b hf hb
    induction l generalizing b with
    | nil => exact hb
    | cons e r ih => exact ih _ (hf b e hb)
  refine key _ _ _ (fun b e hb => ?_) hs
  dsimp only
  split
  · exact recordEvent_keeps _ _ _ _ _ _ h_nv h_dev hb
  · exact hb

/-! ### Operands -/

theorem State.onCore_keeps {fl : List StateField} {s₀ s₁ : State} (c : Nat) (f : Core → Core) (h_cells : .cells ∈ fl)
    (hs : Keeps fl s₀ s₁) : Keeps fl s₀ (State.onCore s₁ c f) := by
  unfold State.onCore
  grind [← Keeps.onCell]

/-! ### Clock -/

theorem settleMin_keeps {fl : List StateField} {s₀ s₁ : State} (h_nv : .nv ∈ fl) (h_dev : .dev ∈ fl)
    (hs : Keeps fl s₀ s₁) : Keeps fl s₀ (settleMin s₁) := by
  unfold settleMin
  grind [BypassHeld, ← Keeps.set_nv_dev, ← Keeps.set_nv, ← Keeps.set_dev]

theorem countCodewords_keeps {fl : List StateField} {s₀ s₁ : State} (n : Nat) (h_nv : .nv ∈ fl) (h_ports : .ports ∈ fl)
    (h_free : .free ∈ fl)
    (hs : Keeps fl s₀ s₁) : Keeps fl s₀ (countCodewords n s₁) := by
  unfold countCodewords
  grind [← Keeps.refl, ! ⇒ draw_keeps, ← Keeps.forEach, ← State.onUnit_keeps, ← Keeps.onPort]

theorem portTicks_keeps {fl : List StateField} {s₀ s₁ : State}  (h_nv : .nv ∈ fl) (h_ports : .ports ∈ fl)
    (h_free : .free ∈ fl)
    (hs : Keeps fl s₀ s₁) : Keeps fl s₀ (portTicks s₁) := by
  unfold portTicks
  grind [← Keeps.refl, ← Keeps.forEach, ← countCodewords_keeps, ← Keeps.onPort]

end Sys2Proof.Machine
end

