-- ==== Sys2Proof/Laws/Engines.lean ====
section
/-! SUPPORT. The engines of a cell: what each operation leaves. -/

set_option Elab.async false

namespace Sys2Proof.Machine

/-! ### Checkpoints -/

theorem squash_keeps {fl : List StateField} {s₀ s₁ : State} (c : Nat) (cp : CheckPoint) (h_mem : .mem ∈ fl)
    (h_cells : .cells ∈ fl) (h_parts : .parts ∈ fl) (h_free : .free ∈ fl)
    (hs : Keeps fl s₀ s₁) : Keeps fl s₀ (squash c cp s₁) := by
  unfold squash
  grind [← Keeps.onPart, ← squashFrom_keeps, ← State.onCore_keeps]

theorem resolveAll_keeps {fl : List StateField} {s₀ s₁ : State} (c : Nat) (n : Counts) (x2 : List CheckPoint)
    (h_mem : .mem ∈ fl) (h_cells : .cells ∈ fl) (h_parts : .parts ∈ fl) (h_free : .free ∈ fl)
    (hs : Keeps fl s₀ s₁) : Keeps fl s₀ (resolveAll c n x2 s₁) := by
  induction x2 generalizing s₁  <;> unfold resolveAll <;> grind [← squash_keeps, ← State.onCore_keeps]

theorem resolve_keeps {fl : List StateField} {s₀ s₁ : State} (c : Nat) (queue : Nat) (seqNo : BitVec 32) (n : Counts)
    (h_mem : .mem ∈ fl) (h_cells : .cells ∈ fl) (h_parts : .parts ∈ fl) (h_free : .free ∈ fl)
    (hs : Keeps fl s₀ s₁) : Keeps fl s₀ (resolve c queue seqNo n s₁) := by
  unfold resolve
  grind [← resolveAll_keeps]

theorem openCheckPoint_keeps {fl : List StateField} {s₀ s₁ : State} (c : Nat) (w : BitVec 32) (h_mem : .mem ∈ fl)
    (h_cells : .cells ∈ fl) (h_parts : .parts ∈ fl) (h_free : .free ∈ fl)
    (hs : Keeps fl s₀ s₁) : Keeps fl s₀ (openCheckPoint c w s₁) := by
  unfold openCheckPoint
  grind [← State.onCore_keeps, ← resolveAll_keeps]

/-! ### Arrivals -/

theorem bumpCounter_keeps {fl : List StateField} {s₀ s₁ : State} (cell : Nat) (ctr : Nat) (h_cells : .cells ∈ fl)
    (hs : Keeps fl s₀ s₁) : Keeps fl s₀ (bumpCounter cell ctr s₁) := by
  unfold bumpCounter
  grind [← State.onCore_keeps]

theorem countChannel_keeps {fl : List StateField} {s₀ s₁ : State} (p : Nat) (l : Nat) (ch : Nat) (h : BitVec 64) (len : Nat)
    (h_parts : .parts ∈ fl)
    (hs : Keeps fl s₀ s₁) : Keeps fl s₀ (countChannel p l ch h len s₁) := by
  unfold countChannel
  grind [← Keeps.onPart]

theorem arriveChannel_keeps {fl : List StateField} {s₀ s₁ : State} (p : Nat) (l : Nat) (ch : Nat) (h : BitVec 64) (len : Nat)
    (h_cells : .cells ∈ fl) (h_parts : .parts ∈ fl)
    (hs : Keeps fl s₀ s₁) : Keeps fl s₀ (arriveChannel p l ch h len s₁) := by
  unfold arriveChannel
  grind [← bumpCounter_keeps, ← countChannel_keeps]

theorem arriveCommand_keeps {fl : List StateField} {s₀ s₁ : State} (p : Nat) (e : QEntry) (h : BitVec 64) (len : Nat)
    (h_cells : .cells ∈ fl) (h_parts : .parts ∈ fl)
    (hs : Keeps fl s₀ s₁) : Keeps fl s₀ (arriveCommand p e h len s₁) := by
  unfold arriveCommand
  grind [← bumpCounter_keeps, ← countChannel_keeps]

theorem notePushed_keeps {fl : List StateField} {s₀ s₁ : State} (c : Nat) (q : Nat) (seqNo : BitVec 32) (n : Counts)
    (h_cells : .cells ∈ fl)
    (hs : Keeps fl s₀ s₁) : Keeps fl s₀ (notePushed c q seqNo n s₁) := by
  unfold notePushed
  grind [← State.onCore_keeps]

theorem stopEvent_keeps {fl : List StateField} {s₀ s₁ : State} (c : Nat) (p : Nat) (seqNo : BitVec 32) (status : Nat)
    (h_nv : .nv ∈ fl) (h_dev : .dev ∈ fl)
    (hs : Keeps fl s₀ s₁) : Keeps fl s₀ (stopEvent c p seqNo status s₁) := by
  unfold stopEvent
  grind [← recordEvent_keeps]

theorem noteResidue_keeps {fl : List StateField} {s₀ s₁ : State} (p : Nat) (q : Nat) (e : QEntry) (h_parts : .parts ∈ fl)
    (hs : Keeps fl s₀ s₁) : Keeps fl s₀ (noteResidue p q e s₁) := by
  unfold noteResidue
  grind [← Keeps.onPart]

theorem completeStopping_keeps {fl : List StateField} {s₀ s₁ : State} (c : Nat) (q : Nat) (e : QEntry) (status : Nat)
    (cnt : Counts) (aux : Nat) (h_mem : .mem ∈ fl) (h_cells : .cells ∈ fl) (h_parts : .parts ∈ fl) (h_ports : .ports ∈
        fl) (h_ring : .ring ∈ fl) (h_eop : .eop ∈ fl) (h_out : .out ∈ fl) (h_free : .free ∈ fl)
    (hs : Keeps fl s₀ s₁) : Keeps fl s₀ (completeStopping c q e status cnt aux s₁) := by
  unfold completeStopping
  grind [← writeRecord_keeps, ← Keeps.onCell, ← stopPartition_keeps, ← noteResidue_keeps]

/-! ### Commands -/

theorem popQueue_keeps {fl : List StateField} {s₀ s₁ : State} (c : Nat) (q : Nat) (h_cells : .cells ∈ fl)
    (hs : Keeps fl s₀ s₁) : Keeps fl s₀ (popQueue c q s₁) := by
  unfold popQueue
  grind [← Keeps.onCell]

/-! ### Product -/

theorem onStream_keeps {fl : List StateField} {s₀ s₁ : State} (c : Nat) (n : Nat) (f : StreamIn → StreamIn)
    (h_cells : .cells ∈ fl)
    (hs : Keeps fl s₀ s₁) : Keeps fl s₀ (onStream c n f s₁) := by
  unfold onStream
  grind [← Keeps.onCell]

/-! ### VectorEngine -/

theorem sampleTile_keeps {fl : List StateField} {s₀ s₁ : State} (c : Nat) (t : Sample) (h_cells : .cells ∈ fl)
    (hs : Keeps fl s₀ s₁) : Keeps fl s₀ (sampleTile c t s₁) := by
  unfold sampleTile
  grind [← Keeps.onCell]

theorem andThen_keeps {fl : List StateField} {s₀ : State} {α β : Type} (x : Option α × State)
    (f : α → State → Option β × State) (hf : ∀ a u, Keeps fl u (f a u).2) (hs : Keeps fl s₀ x.2) :
    Keeps fl s₀ (andThen x f).2 := by
  unfold andThen
  split
  · exact hs.trans (hf _ _)
  · exact hs

theorem readParts_keeps {fl : List StateField} {s₀ s₁ : State} (c : Nat) (a : Nat) (l : List (Nat × Nat)) (hr : Reaching ⊆ fl)
    (hs : Keeps fl s₀ s₁) : Keeps fl s₀ (readParts c a l s₁).2 := by
  have hm := reaching_mem hr
  unfold readParts
  grind [! ⇒ memReads_keeps]

theorem readRow_keeps {fl : List StateField} {s₀ s₁ : State} (use : Bool) (c : Nat) (a : Nat) (t : Nat) (rows : Nat) (l : Nat)
    (i : Nat) (n : Nat) (hr : Reaching ⊆ fl)
    (hs : Keeps fl s₀ s₁) : Keeps fl s₀ (readRow use c a t rows l i n s₁).2 := by
  have hm := reaching_mem hr
  unfold readRow
  grind [← Keeps.refl, ← andThen_keeps, ! ⇒ readParts_keeps]

theorem readDense_keeps {fl : List StateField} {s₀ s₁ : State} (use : Bool) (c : Nat) (a : Nat) (l : Nat) (n : Nat)
    (hr : Reaching ⊆ fl)
    (hs : Keeps fl s₀ s₁) : Keeps fl s₀ (readDense use c a l n s₁).2 := by
  have hm := reaching_mem hr
  unfold readDense
  grind [← Keeps.refl, ← andThen_keeps, ! ⇒ readParts_keeps]

theorem readKIn_keeps {fl : List StateField} {s₀ s₁ : State} (c : Nat) (v : VeCmd) (silu : Bool) (i : Nat)
    (hr : Reaching ⊆ fl) (hs : Keeps fl s₀ s₁) : Keeps fl s₀ (readKIn c v silu i s₁).2 := by
  unfold readKIn
  refine andThen_keeps _ _ (fun _ _ => ?_) (readRow_keeps _ _ _ _ _ _ _ _ hr hs)
  refine andThen_keeps _ _ (fun _ _ => ?_) (readRow_keeps _ _ _ _ _ _ _ _ hr (.refl _ _))
  refine andThen_keeps _ _ (fun _ _ => ?_) (readRow_keeps _ _ _ _ _ _ _ _ hr (.refl _ _))
  refine andThen_keeps _ _ (fun _ _ => ?_) (readDense_keeps _ _ _ _ _ hr (.refl _ _))
  refine andThen_keeps _ _ (fun _ _ => ?_) (readDense_keeps _ _ _ _ _ hr (.refl _ _))
  refine andThen_keeps _ _ (fun _ _ => ?_) (readRow_keeps _ _ _ _ _ _ _ _ hr (.refl _ _))
  exact andThen_keeps _ _ (fun _ _ => .refl _ _) (readParts_keeps _ _ _ hr (.refl _ _))

theorem writeParts_keeps {fl : List StateField} {s₀ s₁ : State} (c : Nat) (l : List (Nat × List Byte))
    (hr : Reaching ⊆ fl)
    (hs : Keeps fl s₀ s₁) : Keeps fl s₀ (writeParts c l s₁).2 := by
  have hm := reaching_mem hr
  unfold writeParts
  grind [! ⇒ memWrites_keeps]

theorem veRow_keeps {fl : List StateField} {s₀ s₁ : State} (c : Nat) (v : VeCmd) (r : VeRun) (hr : Reaching ⊆ fl)
    (hs : Keeps fl s₀ s₁) : Keeps fl s₀ (veRow c v r s₁).2 := by
  have hm := reaching_mem hr
  unfold veRow
  refine andThen_keeps _ _ (fun i u => ?_) (readKIn_keeps _ _ _ _ hr hs)
  have hw := fun l => writeParts_keeps (s₀ := u) c l hr (.refl _ _)
  exact Keeps.ite_snd (fun _ => sampleTile_keeps _ _ hm.2.2.2.1 (hw _)) (fun _ => hw _)

theorem endVe_keeps {fl : List StateField} {s₀ s₁ : State} (c : Nat) (e : QEntry) (status : Nat) (n : Counts)
    (h_cells : .cells ∈ fl)
    (hs : Keeps fl s₀ s₁) : Keeps fl s₀ (endVe c e status n s₁) := by
  unfold endVe
  grind [← Keeps.onCell]

theorem finishVe_keeps {fl : List StateField} {s₀ s₁ : State} (c : Nat) (v : VeCmd) (r : VeRun) (hr : Reaching ⊆ fl)
    (hs : Keeps fl s₀ s₁) : Keeps fl s₀ (finishVe c v r s₁) := by
  have hm := reaching_mem hr
  unfold finishVe
  grind [! ⇒ writeParts_keeps, ← endVe_keeps]

theorem veRows_keeps {fl : List StateField} {s₀ s₁ : State} (c : Nat) (v : VeCmd) (n : Nat) (r : VeRun)
    (hr : Reaching ⊆ fl) (hs : Keeps fl s₀ s₁) : Keeps fl s₀ (veRows c v n r s₁) := by
  have hm := reaching_mem hr
  induction n generalizing r s₁ with
  | zero => exact finishVe_keeps c v r hr hs
  | succ n ih =>
    have h := veRow_keeps c v r hr hs
    unfold veRows
    refine Keeps.ite (fun _ => Keeps.onCell hm.2.2.2.1 hs) (fun _ => ?_)
    split
    · rename_i r' s' he
      rw [he] at h; exact ih _ h
    · rename_i s' he
      rw [he] at h; exact h

theorem readPrm_keeps {fl : List StateField} {s₀ s₁ : State} (c : Nat) (a : Nat) (hr : Reaching ⊆ fl)
    (hs : Keeps fl s₀ s₁) : Keeps fl s₀ (readPrm c a s₁).2 := by
  have hm := reaching_mem hr
  unfold readPrm
  grind [← Keeps.refl, ← andThen_keeps, ! ⇒ ownRead_keeps]

theorem resumeVe_keeps {fl : List StateField} {s₀ s₁ : State} (c : Nat) (hr : Reaching ⊆ fl)
    (hs : Keeps fl s₀ s₁) : Keeps fl s₀ (resumeVe c s₁) := by
  have hm := reaching_mem hr
  unfold resumeVe
  grind [← veRows_keeps, ← Keeps.onCell]

theorem voidOutputs_keeps {fl : List StateField} {s₀ s₁ : State} (rs : List Region) (h_mem : .mem ∈ fl)
    (h_free : .free ∈ fl)
    (hs : Keeps fl s₀ s₁) : Keeps fl s₀ (voidOutputs rs s₁) := by
  unfold voidOutputs
  grind [← Keeps.refl, ← Keeps.forEach, ← freeBytes_keeps]

/-! ### QuantizeEngine -/

theorem readRows_keeps {fl : List StateField} {s₀ s₁ : State} (c a t rows l k i n : Nat) (hr : Reaching ⊆ fl)
    (hs : Keeps fl s₀ s₁) : Keeps fl s₀ (readRows c a t rows l k i n s₁).2 := by
  induction k generalizing s₀ s₁ i n with
  | zero => exact hs
  | succ k ih =>
    unfold readRows
    refine andThen_keeps _ _ (fun x u => ?_) (readRow_keeps _ _ _ _ _ _ _ _ hr hs)
    exact andThen_keeps _ _ (fun _ _ => .refl _ _) (ih _ _ (.refl _ _))

theorem endQe_keeps {fl : List StateField} {s₀ s₁ : State} (c : Nat) (e : QEntry) (status : Nat) (n : Counts) (aux : Nat)
    (h_cells : .cells ∈ fl)
    (hs : Keeps fl s₀ s₁) : Keeps fl s₀ (endQe c e status n aux s₁) := by
  unfold endQe
  grind [← Keeps.onCell]

/-! ### UpdateEngine -/

theorem endUe_keeps {fl : List StateField} {s₀ s₁ : State} (c : Nat) (e : QEntry) (status : Nat) (n : Counts)
    (h_cells : .cells ∈ fl)
    (hs : Keeps fl s₀ s₁) : Keeps fl s₀ (endUe c e status n s₁) := by
  unfold endUe
  grind [← Keeps.onCell]

theorem readSpan_keeps {fl : List StateField} {s₀ s₁ : State} (use : Bool) (c : Nat) (base : Nat) (e : Nat) (cols : Nat)
    (a : Nat) (n : Nat) (hr : Reaching ⊆ fl)
    (hs : Keeps fl s₀ s₁) : Keeps fl s₀ (readSpan use c base e cols a n s₁).2 := by
  have hm := reaching_mem hr
  unfold readSpan
  grind [← Keeps.refl, ← andThen_keeps, ! ⇒ readParts_keeps]

theorem ueTile_keeps {fl : List StateField} {s₀ s₁ : State} (c p : Nat) (u : UeCmd) (r : UeRun)
    (hr : Reaching ⊆ fl) (hs : Keeps fl s₀ s₁) : Keeps fl s₀ (ueTile c p u r s₁).2 := by
  have hm := reaching_mem hr
  unfold ueTile
  refine andThen_keeps _ _ (fun _ _ => ?_) (readSpan_keeps _ _ _ _ _ _ _ hr hs)
  refine andThen_keeps _ _ (fun _ _ => ?_) (readSpan_keeps _ _ _ _ _ _ _ hr (.refl _ _))
  refine andThen_keeps _ _ (fun _ _ => ?_) (readSpan_keeps _ _ _ _ _ _ _ hr (.refl _ _))
  refine andThen_keeps _ _ (fun _ _ => ?_) (readSpan_keeps _ _ _ _ _ _ _ hr (.refl _ _))
  refine andThen_keeps _ _ (fun _ w => ?_) (readSpan_keeps _ _ _ _ _ _ _ hr (.refl _ _))
  have hw := fun l => writeParts_keeps (s₀ := w) c l hr (.refl _ _)
  exact Keeps.ite_snd (fun _ => sampleTile_keeps _ _ hm.2.2.2.1 (hw _)) (fun _ => hw _)

theorem finishUpdate_keeps {fl : List StateField} {s₀ s₁ : State} (c : Nat) (u : UeCmd) (r : UeRun) (hr : Reaching ⊆ fl)
    (hs : Keeps fl s₀ s₁) : Keeps fl s₀ (finishUpdate c u r s₁) := by
  have hm := reaching_mem hr
  unfold finishUpdate
  grind [! ⇒ writeParts_keeps, ← endUe_keeps]

theorem ueTiles_keeps {fl : List StateField} {s₀ s₁ : State} (c p : Nat) (u : UeCmd) (n : Nat) (r : UeRun)
    (hr : Reaching ⊆ fl) (hs : Keeps fl s₀ s₁) : Keeps fl s₀ (ueTiles c p u n r s₁) := by
  have hm := reaching_mem hr
  induction n generalizing r s₁ with
  | zero => exact finishUpdate_keeps c u r hr hs
  | succ n ih =>
    have h := ueTile_keeps c p u r hr hs
    unfold ueTiles
    refine Keeps.ite (fun _ => Keeps.onCell hm.2.2.2.1 hs) (fun _ => ?_)
    split
    · rename_i r' s' he
      rw [he] at h; exact ih _ h
    · rename_i s' he
      rw [he] at h; exact h

theorem runUpdate_keeps {fl : List StateField} {s₀ s₁ : State} (c : Nat) (p : Nat) (e : QEntry) (u : UeCmd) (prm : Nat)
    (hr : Reaching ⊆ fl)
    (hs : Keeps fl s₀ s₁) : Keeps fl s₀ (runUpdate c p e u prm s₁) := by
  have hm := reaching_mem hr
  unfold runUpdate
  grind [← ueTiles_keeps]

theorem resumeUe_keeps {fl : List StateField} {s₀ s₁ : State} (c : Nat) (p : Nat) (hr : Reaching ⊆ fl)
    (hs : Keeps fl s₀ s₁) : Keeps fl s₀ (resumeUe c p s₁) := by
  have hm := reaching_mem hr
  unfold resumeUe
  grind [← ueTiles_keeps, ← Keeps.onCell]

theorem runRequant_keeps {fl : List StateField} {s₀ s₁ : State} (c : Nat) (e : QEntry) (u : UeCmd) (hr : Reaching ⊆ fl)
    (hs : Keeps fl s₀ s₁) : Keeps fl s₀ (runRequant c e u s₁) := by
  have hm := reaching_mem hr
  unfold runRequant
  grind [! ⇒ ownRead_keeps, ! ⇒ writeParts_keeps, ← endUe_keeps]

theorem runRbits_keeps {fl : List StateField} {s₀ s₁ : State} (c : Nat) (p : Nat) (e : QEntry) (u : UeCmd)
    (hr : Reaching ⊆ fl)
    (hs : Keeps fl s₀ s₁) : Keeps fl s₀ (runRbits c p e u s₁) := by
  have hm := reaching_mem hr
  unfold runRbits
  grind [! ⇒ writeParts_keeps, ← endUe_keeps]

theorem takeUe_keeps {fl : List StateField} {s₀ s₁ : State} (c : Nat) (mine : Nat → Bool)
    (run : Nat → QEntry → UeCmd → Nat → State → State) (hrun : ∀ p e u a s, Keeps fl s (run p e u a s)) (hr : Reaching ⊆ fl)
    (hs : Keeps fl s₀ s₁) : Keeps fl s₀ (takeUe c mine run s₁) := by
  have hc := (reaching_mem hr).2.2.2.1
  unfold takeUe
  split
  · exact hs
  · refine Keeps.ite (fun _ => hs) (fun _ => ?_)
    have hq := popQueue_keeps c 3 hc hs
    refine Keeps.ite (fun _ => endUe_keeps _ _ _ _ hc hq) (fun _ => ?_)
    have hp := fun a => readPrm_keeps c a hr hq
    split
    · exact Keeps.ofPair (by assumption) (hp _)
    · have h := Keeps.ofPair (by assumption) (hp _)
      exact Keeps.ite (fun _ => endUe_keeps _ _ _ _ hc h) (fun _ => h.trans (hrun _ _ _ _ _))

/-! ### Completion -/

theorem notePast_keeps {fl : List StateField} {s₀ s₁ : State} (c : Nat) (e : QEntry) (st : Nat) (h_cells : .cells ∈ fl)
    (hs : Keeps fl s₀ s₁) : Keeps fl s₀ (notePast c e st s₁) := by
  unfold notePast
  grind [← Keeps.onCell]

theorem dupMismatch_keeps {fl : List StateField} {s₀ s₁ : State} (c : Nat) (p : Nat) (q : Nat) (e : QEntry) (n : Counts)
    (h_nv : .nv ∈ fl) (h_dev : .dev ∈ fl) (h_mem : .mem ∈ fl) (h_cells : .cells ∈ fl) (h_parts : .parts ∈ fl)
        (h_ports : .ports ∈ fl) (h_ring : .ring ∈ fl) (h_eop : .eop ∈ fl) (h_out : .out ∈ fl) (h_free : .free ∈ fl)
    (hs : Keeps fl s₀ s₁) : Keeps fl s₀ (dupMismatch c p q e n s₁) := by
  unfold dupMismatch
  grind [← recordEvent_keeps, ← completeStopping_keeps, ← voidOutputs_keeps]

theorem recordDone_keeps {fl : List StateField} {s₀ s₁ : State} (c : Nat) (p : Nat) (h : HeldDone)
    (h_cells : .cells ∈ fl) (h_parts : .parts ∈ fl)
    (hs : Keeps fl s₀ s₁) : Keeps fl s₀ (recordDone c p h s₁) := by
  unfold recordDone
  grind [← writeRecord_keeps, ← arriveCommand_keeps]

theorem settleHeld_keeps {fl : List StateField} {s₀ s₁ : State} (c : Nat) (p : Nat) (h_cells : .cells ∈ fl)
    (h_parts : .parts ∈ fl)
    (hs : Keeps fl s₀ s₁) : Keeps fl s₀ (settleHeld c p s₁) := by
  unfold settleHeld
  grind [← Keeps.refl, ← Keeps.forEach, ← recordDone_keeps, ← Keeps.onCell]

/-! ### MatrixEngine -/

theorem endMe_keeps {fl : List StateField} {s₀ s₁ : State} (c : Nat) (e : QEntry) (status : Nat) (n : Counts)
    (issued : Nat) (stalls : Nat) (h_cells : .cells ∈ fl)
    (hs : Keeps fl s₀ s₁) : Keeps fl s₀ (endMe c e status n issued stalls s₁) := by
  unfold endMe
  grind [← Keeps.onCell]

theorem loadTile_keeps {fl : List StateField} {s₀ s₁ : State} (c : Nat) (e : QEntry) (m : MeCmd) (hr : Reaching ⊆ fl)
    (hs : Keeps fl s₀ s₁) : Keeps fl s₀ (loadTile c e m s₁) := by
  have hm := reaching_mem hr
  unfold loadTile
  grind [! ⇒ ownRead_keeps, ← endMe_keeps, ← Keeps.onCell]

theorem swapTile_keeps {fl : List StateField} {s₀ s₁ : State} (c : Nat) (e : QEntry) (p : Preload)
    (h_cells : .cells ∈ fl)
    (hs : Keeps fl s₀ s₁) : Keeps fl s₀ (swapTile c e p s₁) := by
  unfold swapTile
  grind [← endMe_keeps, ← Keeps.onCell]

theorem streamScaleBad_keeps {fl : List StateField} {s₀ s₁ : State} (c : Nat) (m : MeCmd) (hr : Reaching ⊆ fl)
    (hs : Keeps fl s₀ s₁) : Keeps fl s₀ (streamScaleBad c m s₁).2 := by
  have hm := reaching_mem hr
  unfold streamScaleBad
  grind [! ⇒ ownRead_keeps]

theorem onRun_keeps {fl : List StateField} {s₀ s₁ : State} (c : Nat) (f : MeRun → MeRun) (h_cells : .cells ∈ fl)
    (hs : Keeps fl s₀ s₁) : Keeps fl s₀ (onRun c f s₁) := by
  unfold onRun
  grind [← Keeps.onCell]

theorem fetchRow_keeps {fl : List StateField} {s₀ s₁ : State} (c : Nat) (k : MeCtx) (r : MeRun) (hr : Reaching ⊆ fl)
    (hs : Keeps fl s₀ s₁) : Keeps fl s₀ (fetchRow c k r s₁) := by
  have hm := reaching_mem hr
  unfold fetchRow
  grind [← onStream_keeps, ! ⇒ ownRead_keeps, ← onRun_keeps]

theorem landRow_keeps {fl : List StateField} {s₀ s₁ : State} (c : Nat) (k : MeCtx) (r : MeRun) (dst : Nat) (src : Nat)
    (w : MeRow) (hr : Reaching ⊆ fl)
    (hs : Keeps fl s₀ s₁) : Keeps fl s₀ (landRow c k r dst src w s₁) := by
  have hm := reaching_mem hr
  unfold landRow
  grind (gen := 20) [! ⇒ ownRead_keeps, ← ownRead_keeps, ! ⇒ ownWrite_keeps, ← ownWrite_keeps, ← onRun_keeps]

theorem zeroLanded_keeps {fl : List StateField} {s₀ s₁ : State} (c : Nat) (m : MeCmd) (r : MeRun) (hr : Reaching ⊆ fl)
    (hs : Keeps fl s₀ s₁) : Keeps fl s₀ (zeroLanded c m r s₁) := by
  have hm := reaching_mem hr
  unfold zeroLanded
  grind [← Keeps.refl, ← Keeps.forEach, ! ⇒ ownWrite_keeps, ← ownWrite_keeps]

theorem stopMe_keeps {fl : List StateField} {s₀ s₁ : State} (c : Nat) (p : Nat) (k : MeCtx) (r : MeRun) (status : Nat)
    (events : List Nat) (h_nv : .nv ∈ fl) (h_dev : .dev ∈ fl) (h_mem : .mem ∈ fl) (h_cells : .cells ∈ fl) (h_parts :
        .parts ∈ fl) (h_ports : .ports ∈ fl) (h_ring : .ring ∈ fl) (h_eop : .eop ∈ fl) (h_out : .out ∈ fl) (h_free :
            .free ∈ fl)
    (hs : Keeps fl s₀ s₁) : Keeps fl s₀ (stopMe c p k r status events s₁) := by
  unfold stopMe
  grind [← Keeps.refl, ← Keeps.forEach, ← stopEvent_keeps, ← freeBytes_keeps, ← completeStopping_keeps]

theorem stallSlot_keeps {fl : List StateField} {s₀ s₁ : State} (c : Nat) (h_cells : .cells ∈ fl)
    (hs : Keeps fl s₀ s₁) : Keeps fl s₀ (stallSlot c s₁) := by
  unfold stallSlot
  grind [← onRun_keeps]

theorem loaderStep_keeps {fl : List StateField} {s₀ s₁ : State} (c : Nat) (h_cells : .cells ∈ fl)
    (hs : Keeps fl s₀ s₁) : Keeps fl s₀ (loaderStep c s₁) := by
  unfold loaderStep
  grind [← Keeps.onCell]

theorem advanceBeat_keeps {fl : List StateField} {s₀ s₁ : State} (c : Nat) (k : MeCtx) (hr : Reaching ⊆ fl)
    (hs : Keeps fl s₀ s₁) : Keeps fl s₀ (advanceBeat c k s₁) := by
  have hm := reaching_mem hr
  unfold advanceBeat
  grind [← landRow_keeps, ← loaderStep_keeps, ← endMe_keeps, ← onRun_keeps]

theorem checkBeat_keeps {fl : List StateField} {s₀ s₁ : State} (c : Nat) (p : Nat) (k : MeCtx) (hf : .free ∈ fl)
    (hr : Reaching ⊆ fl)
    (hs : Keeps fl s₀ s₁) : Keeps fl s₀ (checkBeat c p k s₁) := by
  have hm := reaching_mem hr
  unfold checkBeat
  grind [← stopMe_keeps, ← endMe_keeps, ← zeroLanded_keeps, ← loaderStep_keeps, ← advanceBeat_keeps]

theorem failStream_keeps {fl : List StateField} {s₀ s₁ : State} (c : Nat) (k : MeCtx) (r : MeRun) (hr : Reaching ⊆ fl)
    (hs : Keeps fl s₀ s₁) : Keeps fl s₀ (failStream c k r s₁) := by
  have hm := reaching_mem hr
  unfold failStream
  grind [← onStream_keeps, ← zeroLanded_keeps, ← endMe_keeps]

theorem issueBeat_keeps {fl : List StateField} {s₀ s₁ : State} (c : Nat) (p : Nat) (held : Bool) (k : MeCtx) (r : MeRun)
    (hf : .free ∈ fl) (hr : Reaching ⊆ fl)
    (hs : Keeps fl s₀ s₁) : Keeps fl s₀ (issueBeat c p held k r s₁) := by
  have hm := reaching_mem hr
  unfold issueBeat
  grind [← failStream_keeps, ← stallSlot_keeps, ← endMe_keeps, ← Keeps.onCell, ← fetchRow_keeps, ← checkBeat_keeps]

theorem issueSlot_keeps {fl : List StateField} {s₀ s₁ : State} (c : Nat) (p : Nat) (held : Bool) (r : MeRun)
    (hf : .free ∈ fl) (hr : Reaching ⊆ fl)
    (hs : Keeps fl s₀ s₁) : Keeps fl s₀ (issueSlot c p held r s₁) := by
  have hm := reaching_mem hr
  unfold issueSlot
  grind [← endMe_keeps, ← onRun_keeps, ← issueBeat_keeps]

theorem takeUpset_keeps {fl : List StateField} {s₀ s₁ : State} (c : Nat) (u : Upset) (h_cells : .cells ∈ fl)
    (hs : Keeps fl s₀ s₁) : Keeps fl s₀ (takeUpset c u s₁) := by
  unfold takeUpset
  grind [← onRun_keeps]

/-! ### Integrity -/

theorem resumeEngines_keeps {fl : List StateField} {s₀ s₁ : State} (c : Nat) (p : Nat) (hr : Reaching ⊆ fl)
    (hs : Keeps fl s₀ s₁) : Keeps fl s₀ (resumeEngines c p s₁) := by
  have hm := reaching_mem hr
  unfold resumeEngines
  grind [← resumeUe_keeps, ← resumeVe_keeps]

theorem noteMismatch_keeps {fl : List StateField} {s₀ s₁ : State} (c : Nat) (p : Nat) (t : Sample) (h_nv : .nv ∈ fl)
    (h_dev : .dev ∈ fl) (h_mem : .mem ∈ fl) (h_cells : .cells ∈ fl) (h_parts : .parts ∈ fl) (h_ports : .ports ∈ fl)
        (h_ring : .ring ∈ fl) (h_eop : .eop ∈ fl) (h_out : .out ∈ fl) (h_free : .free ∈ fl)
    (hs : Keeps fl s₀ s₁) : Keeps fl s₀ (noteMismatch c p t s₁) := by
  unfold noteMismatch
  grind [← Keeps.onCell, ← dupMismatch_keeps]

end Sys2Proof.Machine
end

