-- ==== Sys2Proof/Laws/Traffic.lean ====
section
/-! SUPPORT. The data mover, the ring ports, streams and collectives: what each operation leaves. -/

set_option Elab.async false

namespace Sys2Proof.Machine

/-! ### Transfers -/

theorem readTile_keeps {fl : List StateField} {s₀ s₁ : State} (p : Nat) (c : Nat) (f : Fmt) (d : DmCmd)
    (hr : Reaching ⊆ fl)
    (hs : Keeps fl s₀ s₁) : Keeps fl s₀ (readTile p c f d s₁).2 := by
  have hm := reaching_mem hr
  unfold readTile
  grind [! ⇒ memReads_keeps]

theorem partEvent_keeps {fl : List StateField} {s₀ s₁ : State} (p : Nat) (addr : Nat) (u : LinkUnit) (h_nv : .nv ∈ fl)
    (h_dev : .dev ∈ fl)
    (hs : Keeps fl s₀ s₁) : Keeps fl s₀ (partEvent p addr u s₁) := by
  unfold partEvent
  grind [← recordEvent_keeps]

theorem addDm_keeps {fl : List StateField} {s₀ s₁ : State} (c : Nat) (r : DmRun) (h_cells : .cells ∈ fl)
    (hs : Keeps fl s₀ s₁) : Keeps fl s₀ (addDm c r s₁) := by
  unfold addDm
  grind [← Keeps.onCell]

theorem refuseDm_keeps {fl : List StateField} {s₀ s₁ : State} (c : Nat) (e : QEntry) (d : DmCmd) (status : Nat)
    (h_cells : .cells ∈ fl)
    (hs : Keeps fl s₀ s₁) : Keeps fl s₀ (refuseDm c e d status s₁) := by
  unfold refuseDm
  grind [← addDm_keeps, ← onStream_keeps]

theorem landPieces_keeps {fl : List StateField} {s₀ s₁ : State} (c : Nat) (p : Nat) (e : QEntry) (d : DmCmd)
    (fails : List PartFail) (n : Counts) (l : List (Nat × List Byte)) (hf : .free ∈ fl) (hr : Reaching ⊆ fl)
    (hs : Keeps fl s₀ s₁) : Keeps fl s₀ (landPieces c p e d fails n l s₁) := by
  have hm := reaching_mem hr
  unfold landPieces
  grind [← Keeps.refl, ! ⇒ memWrites_keeps, ← Keeps.forEach, ← partEvent_keeps, ← addDm_keeps, ← Keeps.set_free]

theorem feedStream_keeps {fl : List StateField} {s₀ s₁ : State} (c : Nat) (p : Nat) (e : QEntry) (d : DmCmd)
    (fails : List PartFail) (bs : List Byte) (h_nv : .nv ∈ fl) (h_dev : .dev ∈ fl) (h_cells : .cells ∈ fl)
    (hs : Keeps fl s₀ s₁) : Keeps fl s₀ (feedStream c p e d fails bs s₁) := by
  unfold feedStream
  grind [← addDm_keeps, ← partEvent_keeps, ← onStream_keeps]

theorem deliver_keeps {fl : List StateField} {s₀ s₁ : State} (c : Nat) (p : Nat) (e : QEntry) (d : DmCmd)
    (fails : List PartFail) (bs : List Byte) (hf : .free ∈ fl) (hr : Reaching ⊆ fl)
    (hs : Keeps fl s₀ s₁) : Keeps fl s₀ (deliver c p e d fails bs s₁) := by
  have hm := reaching_mem hr
  unfold deliver
  grind [← feedStream_keeps, ← landPieces_keeps]

theorem readSpace_keeps {fl : List StateField} {s₀ s₁ : State} (p : Nat) (c : Nat) (space : Nat) (a : Nat) (n : Nat)
    (hr : Reaching ⊆ fl)
    (hs : Keeps fl s₀ s₁) : Keeps fl s₀ (readSpace p c space a n s₁).2 := by
  have hm := reaching_mem hr
  unfold readSpace
  grind [! ⇒ memReads_keeps]

theorem takeDm_keeps {fl : List StateField} {s₀ s₁ : State} (c : Nat) (mine : Nat → Bool)
    (run : Nat → QEntry → DmCmd → State → State) (hrun : ∀ p e d s, Keeps fl s (run p e d s)) (hr : Reaching ⊆ fl)
    (hs : Keeps fl s₀ s₁) : Keeps fl s₀ (takeDm c mine run s₁) := by
  have hc := (reaching_mem hr).2.2.2.1
  have hrun' : ∀ {s} p e d, Keeps fl s₀ s → Keeps fl s₀ (run p e d s) := fun p e d h => h.trans (hrun p e d _)
  unfold takeDm
  split
  · exact hs
  · refine Keeps.ite (fun _ => hs) (fun _ => ?_)
    have hq := popQueue_keeps c 4 hc hs
    refine Keeps.ite (fun _ => Keeps.ite (fun _ => refuseDm_keeps _ _ _ _ hc hq) (fun _ => hrun' _ _ _ hq)) (fun _ =>
        ?_)
    refine Keeps.ite (fun _ => refuseDm_keeps _ _ _ _ hc hq) (fun _ => ?_)
    have hp := fun a => readPrm_keeps c a hr hq
    split
    · exact Keeps.ofPair (by assumption) (hp _)
    · have h := Keeps.ofPair (by assumption) (hp _)
      exact Keeps.ite (fun _ => refuseDm_keeps _ _ _ _ hc h) (fun _ => hrun' _ _ _ h)

/-! ### DataMover -/

theorem applyPart_keeps {fl : List StateField} {s₀ s₁ : State} (c p : Nat) (d : DmCmd) (part : Nat × Nat × Nat)
    (failed : Bool)
    (hf : .free ∈ fl) (hr : Reaching ⊆ fl) (hs : Keeps fl s₀ s₁) : Keeps fl s₀ (applyPart c p d part failed s₁).2 :=
        by
  unfold applyPart
  refine andThen_keeps _ _ (fun src u => ?_) (readSpace_keeps _ _ _ _ _ hr hs)
  refine andThen_keeps _ _ (fun pr u => ?_) (memRead_keeps _ _ hr (.refl _ _))
  have hw := fun bs => memWrite_keeps (s₀ := u) true part.1 bs hr (.refl _ _)
  cases failed with
  | true => exact Keeps.ite_snd (fun _ => Keeps.set_free hf (hw _)) (fun _ => Keeps.set_free hf (hw _))
  | false => exact Keeps.ite_snd (fun _ => hw _) (fun _ => hw _)

theorem treeStep_keeps {fl : List StateField} {s₀ s₁ : State} (p : Nat) (st : Nat) (d : DmCmd) (failed : Bool)
    (h_parts : .parts ∈ fl)
    (hs : Keeps fl s₀ s₁) : Keeps fl s₀ (treeStep p st d failed s₁) := by
  unfold treeStep
  grind [← Keeps.onPart]

theorem addPart_keeps {fl : List StateField} {s₀ s₁ : State} (c : Nat) (p : Nat) (d : DmCmd) (fails : List PartFail)
    (i : Nat) (part : Nat × Nat × Nat) (a : AddAcc) (hf : .free ∈ fl) (hr : Reaching ⊆ fl)
    (hs : Keeps fl s₀ s₁) : Keeps fl s₀ (addPart c p d fails i part a s₁).2 := by
  have hm := reaching_mem hr
  unfold addPart
  grind [← Keeps.refl, ← treeStep_keeps, ! ⇒ treeStep_keeps, ← andThen_keeps, ! ⇒ applyPart_keeps, ← partEvent_keeps,
    ! ⇒ partEvent_keeps]

theorem addPartList_keeps {fl : List StateField} {s₀ s₁ : State} (c p : Nat) (d : DmCmd) (fails : List PartFail)
    (l : List ((Nat × Nat × Nat) × Nat)) (a : AddAcc) (hf : .free ∈ fl) (hr : Reaching ⊆ fl) (hs : Keeps fl s₀ s₁) :
    Keeps fl s₀ (addPartList c p d fails l a s₁).2 := by
  induction l generalizing a s₁ with
  | nil => exact hs
  | cons x r ih =>
    have h := addPart_keeps c p d fails x.2 x.1 a hf hr hs
    unfold addPartList
    split
    · exact ih _ (Keeps.ofPair (by assumption) h)
    · exact Keeps.ofPair (by assumption) h

/-! ### Transport -/

theorem onTx_keeps {fl : List StateField} {s₀ s₁ : State} (xid : BitVec 32) (f : TxXfer → TxXfer)
    (h_ring : .ring ∈ fl)
    (hs : Keeps fl s₀ s₁) : Keeps fl s₀ (onTx xid f s₁) := by
  unfold onTx
  grind [← Keeps.onRing]

theorem sendTx_keeps {fl : List StateField} {s₀ s₁ : State} (xid : BitVec 32) (retx : Bool) (i : Nat)
    (hr : Reaching ⊆ fl)
    (hs : Keeps fl s₀ s₁) : Keeps fl s₀ (sendTx xid retx i s₁) := by
  have hm := reaching_mem hr
  unfold sendTx
  grind [! ⇒ memReads_keeps, ← sendFrame_keeps, ← onTx_keeps]

theorem startTx_keeps {fl : List StateField} {s₀ s₁ : State} (t : TxXfer) (hr : Reaching ⊆ fl)
    (hs : Keeps fl s₀ s₁) : Keeps fl s₀ (startTx t s₁) := by
  have hm := reaching_mem hr
  unfold startTx
  grind [← Keeps.refl, ← Keeps.onRing, ← Keeps.forEach, ← sendTx_keeps]

theorem retireDesc_keeps {fl : List StateField} {s₀ s₁ : State} (p : Nat) (engine : Nat) (port : Nat) (d : BitVec 256)
    (status : Nat) (hash : BitVec 64) (h_parts : .parts ∈ fl) (h_ports : .ports ∈ fl) (h_out : .out ∈ fl)
    (hs : Keeps fl s₀ s₁) : Keeps fl s₀ (retireDesc p engine port d status hash s₁) := by
  unfold retireDesc
  grind [← Keeps.onPart, ← sendFrame_keeps]

theorem finishTx_keeps {fl : List StateField} {s₀ s₁ : State} (t : TxXfer) (status : Nat) (h_cells : .cells ∈ fl)
    (h_parts : .parts ∈ fl) (h_ports : .ports ∈ fl) (h_ring : .ring ∈ fl) (h_out : .out ∈ fl)
    (hs : Keeps fl s₀ s₁) : Keeps fl s₀ (finishTx t status s₁) := by
  unfold finishTx
  grind [← Keeps.onRing, ← finishDm_keeps, ← retireDesc_keeps, ← failColl_keeps]

theorem postNext_keeps {fl : List StateField} {s₀ s₁ : State} (c : Nat) (h_cells : .cells ∈ fl) (h_parts : .parts ∈ fl)
    (hs : Keeps fl s₀ s₁) : Keeps fl s₀ (postNext c s₁) := by
  unfold postNext
  grind [← finishDm_keeps, ← Keeps.onCell, ← Keeps.onPart]

theorem retireRecv_keeps {fl : List StateField} {s₀ s₁ : State} (p : Nat) (r : RecvPost) (status : Nat)
    (hash : BitVec 64) (h_cells : .cells ∈ fl) (h_parts : .parts ∈ fl) (h_ports : .ports ∈ fl) (h_out : .out ∈ fl)
    (hs : Keeps fl s₀ s₁) : Keeps fl s₀ (retireRecv p r status hash s₁) := by
  unfold retireRecv
  grind [← postNext_keeps, ← Keeps.onCell, ← retireDesc_keeps]

theorem onRx_keeps {fl : List StateField} {s₀ s₁ : State} (k : RxXfer) (f : RxXfer → RxXfer) (h_ring : .ring ∈ fl)
    (hs : Keeps fl s₀ s₁) : Keeps fl s₀ (onRx k f s₁) := by
  unfold onRx
  grind [← Keeps.onRing]

theorem sendSack_keeps {fl : List StateField} {s₀ s₁ : State} (k : RxXfer) (h_ring : .ring ∈ fl) (h_out : .out ∈ fl)
    (hs : Keeps fl s₀ s₁) : Keeps fl s₀ (sendSack k s₁) := by
  unfold sendSack
  grind [← sendClass0_keeps, ← onRx_keeps]

theorem freeWaiting_keeps {fl : List StateField} {s₀ s₁ : State} (x : RxXfer) (h_ports : .ports ∈ fl)
    (h_out : .out ∈ fl)
    (hs : Keeps fl s₀ s₁) : Keeps fl s₀ (freeWaiting x s₁) := by
  unfold freeWaiting
  grind [← Keeps.refl, ← Keeps.forEach, ← releaseBuffer_keeps]

theorem landRx_keeps {fl : List StateField} {s₀ s₁ : State} (k : RxXfer) (hr : Reaching ⊆ fl)
    (hs : Keeps fl s₀ s₁) : Keeps fl s₀ (landRx k s₁) := by
  have hm := reaching_mem hr
  unfold landRx
  grind (gen := 20) [! ⇒ ownWrite_keeps, ! ⇒ relWrite_keeps, ← onRx_keeps, ← sendSack_keeps, ← retireRecv_keeps, ←
    arriveChannel_keeps]

theorem refuseRx_keeps {fl : List StateField} {s₀ s₁ : State} (x : RxXfer) (r : RecvPost) (h_cells : .cells ∈ fl)
    (h_parts : .parts ∈ fl) (h_ports : .ports ∈ fl) (h_ring : .ring ∈ fl) (h_out : .out ∈ fl)
    (hs : Keeps fl s₀ s₁) : Keeps fl s₀ (refuseRx x r s₁) := by
  unfold refuseRx
  grind [← freeWaiting_keeps, ← onRx_keeps, ← sendSack_keeps, ← retireRecv_keeps]

theorem matchStep_keeps {fl : List StateField} {s₀ s₁ u : State} (p : Nat) (hr : Reaching ⊆ fl)
    (hs : Keeps fl s₀ s₁) (h : matchStep p s₁ = some u) : Keeps fl s₀ u := by
  have hm := reaching_mem hr
  unfold matchStep at h
  obtain ⟨x, hx, h⟩ := List.exists_of_findSome?_eq_some h
  grind [← Keeps.onPart, ← refuseRx_keeps, ← freeWaiting_keeps, ← landRx_keeps, ← onRx_keeps]

theorem matchAll_keeps {fl : List StateField} {s₀ s₁ : State} (n p : Nat) (hr : Reaching ⊆ fl) (hs : Keeps fl s₀ s₁) :
    Keeps fl s₀ (matchAll n p s₁) := by
  induction n generalizing s₁ with
  | zero => exact hs
  | succ n ih =>
    unfold matchAll
    split
    · exact ih (matchStep_keeps p hr hs (by assumption))
    · exact hs

theorem matchStreams_keeps {fl : List StateField} {s₀ s₁ : State} (p : Nat) (hr : Reaching ⊆ fl)
    (hs : Keeps fl s₀ s₁) : Keeps fl s₀ (matchStreams p s₁) := by
  have hm := reaching_mem hr
  unfold matchStreams
  grind [← matchAll_keeps]

theorem postRecv_keeps {fl : List StateField} {s₀ s₁ : State} (p : Nat) (r : RecvPost) (hr : Reaching ⊆ fl)
    (hs : Keeps fl s₀ s₁) : Keeps fl s₀ (postRecv p r s₁) := by
  have hm := reaching_mem hr
  unfold postRecv
  grind [← matchStreams_keeps, ← Keeps.onPart]

theorem takeData_keeps {fl : List StateField} {s₀ s₁ : State} (port : Nat) (f : VrtFrame) (hr : Reaching ⊆ fl)
    (hs : Keeps fl s₀ s₁) : Keeps fl s₀ (takeData port f s₁) := by
  have hm := reaching_mem hr
  unfold takeData
  grind [← Keeps.onRing, ← sendSack_keeps, ← releaseBuffer_keeps, ← onRx_keeps, ← matchStreams_keeps, ← landRx_keeps]

theorem takeSack_keeps {fl : List StateField} {s₀ s₁ : State} (f : VrtFrame) (t : TxXfer) (hr : Reaching ⊆ fl)
    (hs : Keeps fl s₀ s₁) : Keeps fl s₀ (takeSack f t s₁) := by
  have hm := reaching_mem hr
  unfold takeSack
  grind [← Keeps.refl, ← finishTx_keeps, ← onTx_keeps, ← Keeps.forEach, ← sendTx_keeps]

/-! ### CollectiveEngine -/

theorem addDmCounts_keeps {fl : List StateField} {s₀ s₁ : State} (c : Nat) (seqNo : BitVec 32) (n : Counts)
    (h_cells : .cells ∈ fl)
    (hs : Keeps fl s₀ s₁) : Keeps fl s₀ (addDmCounts c seqNo n s₁) := by
  unfold addDmCounts
  grind [← Keeps.onCell]

theorem memberCommit_keeps {fl : List StateField} {s₀ s₁ : State} (p : Nat) (g : Nat) (inst : BitVec 32)
    (hr : Reaching ⊆ fl)
    (hs : Keeps fl s₀ s₁) : Keeps fl s₀ (memberCommit p g inst s₁) := by
  have hm := reaching_mem hr
  unfold memberCommit
  grind [! ⇒ relRead_keeps, ! ⇒ relWrite_keeps, ← endColl_keeps]

theorem coordCommit_keeps {fl : List StateField} {s₀ s₁ : State} (p : Nat) (g : Nat) (inst : BitVec 32)
    (hr : Reaching ⊆ fl)
    (hs : Keeps fl s₀ s₁) : Keeps fl s₀ (coordCommit p g inst s₁) := by
  have hm := reaching_mem hr
  unfold coordCommit
  grind [← Keeps.refl, ← onColl_keeps, ← sendDecision_keeps, ← Keeps.forEach, ← memberCommit_keeps]

theorem coordReady_keeps {fl : List StateField} {s₀ s₁ : State} (p : Nat) (g : Nat) (inst : BitVec 32) (idx : Nat)
    (info : List Byte) (hr : Reaching ⊆ fl)
    (hs : Keeps fl s₀ s₁) : Keeps fl s₀ (coordReady p g inst idx info s₁) := by
  have hm := reaching_mem hr
  unfold coordReady
  grind [← coordAbort_keeps, ← onColl_keeps, ← coordCommit_keeps]

theorem sendReady_keeps {fl : List StateField} {s₀ s₁ : State} (p : Nat) (g : Nat) (inst : BitVec 32) (hr : Reaching ⊆ fl)
    (hs : Keeps fl s₀ s₁) : Keeps fl s₀ (sendReady p g inst s₁) := by
  have hm := reaching_mem hr
  unfold sendReady
  grind [← onColl_keeps, ← sendBoth_keeps, ← keepEarly_keeps, ← coordReady_keeps]

theorem sendSegRemote_keeps {fl : List StateField} {s₀ s₁ : State} (p : Nat) (x : Coll) (m : Nat × Nat) (phase : Nat)
    (seg : Nat) (addr : Nat) (len : Nat) (hr : Reaching ⊆ fl)
    (hs : Keeps fl s₀ s₁) : Keeps fl s₀ (sendSegRemote p x m phase seg addr len s₁) := by
  have hm := reaching_mem hr
  unfold sendSegRemote
  grind [← startTx_keeps]

theorem stageSeg_keeps {fl : List StateField} {s₀ s₁ : State} (p : Nat) (x : Coll) (off : Nat) (bs : List Byte)
    (hr : Reaching ⊆ fl)
    (hs : Keeps fl s₀ s₁) : Keeps fl s₀ (stageSeg p x off bs s₁).2 := by
  have hm := reaching_mem hr
  unfold stageSeg
  grind [! ⇒ relWrite_keeps]

theorem takeSeg_keeps {fl : List StateField} {s₀ s₁ : State} (fuel p g : Nat) (inst : BitVec 32) (phase seg : Nat)
    (bs : List Byte) (hr : Reaching ⊆ fl) (hs : Keeps fl s₀ s₁) : Keeps fl s₀ (takeSeg fuel p g inst phase seg bs s₁)
        := by
  have hm := reaching_mem hr
  induction fuel generalizing s₁ p phase bs with
  | zero => exact hs
  | succ fuel ih =>
    unfold takeSeg
    split
    · extract_lets ms n pass
      have hp : ∀ a b c d u, Keeps fl s₀ u → Keeps fl s₀ (pass a b c d u) := by
        intro a b c d u hu
        simp only [pass]
        split
        · exact hu
        · exact Keeps.ite (fun _ => sendSegRemote_keeps _ _ _ _ _ _ _ hr hu) fun _ =>
            Keeps.ite (fun _ => keepEarly_keeps _ _ _ hm.2.2.2.2.1 hu) (fun _ => ih _ _ _ hu)
      clear_value pass ms n
      grind (gen := 20) [! ⇒ relRead_keeps, ← addDmCounts_keeps, ← onColl_keeps, ! ⇒ onColl_keeps, ! ⇒
        addDmCounts_keeps,
        ! ⇒ stageSeg_keeps, ← sendReady_keeps]
    · exact hs

theorem beginSeg_keeps {fl : List StateField} {s₀ s₁ : State} (p : Nat) (x : Coll) (n : Nat) (me : Nat) (seg : Nat)
    (hr : Reaching ⊆ fl)
    (hs : Keeps fl s₀ s₁) : Keeps fl s₀ (beginSeg p x n me seg s₁) := by
  have hm := reaching_mem hr
  unfold beginSeg
  grind [! ⇒ relRead_keeps, ← sendSegRemote_keeps, ← keepEarly_keeps, ← takeSeg_keeps, ← onColl_keeps, ! ⇒
    stageSeg_keeps]

theorem soloColl_keeps {fl : List StateField} {s₀ s₁ : State} (p : Nat) (x : Coll) (hr : Reaching ⊆ fl)
    (hs : Keeps fl s₀ s₁) : Keeps fl s₀ (soloColl p x s₁) := by
  have hm := reaching_mem hr
  unfold soloColl
  grind [! ⇒ relRead_keeps, ! ⇒ relWrite_keeps, ← endColl_keeps]

theorem segFrame_keeps {fl : List StateField} {s₀ s₁ : State} (p : Nat) (f : VrtFrame) (hr : Reaching ⊆ fl)
    (hs : Keeps fl s₀ s₁) : Keeps fl s₀ (segFrame p f s₁) := by
  have hm := reaching_mem hr
  unfold segFrame
  grind [← takeSeg_keeps]

theorem controlFrame_keeps {fl : List StateField} {s₀ s₁ : State} (p : Nat) (f : VrtFrame) (hr : Reaching ⊆ fl)
    (hs : Keeps fl s₀ s₁) : Keeps fl s₀ (controlFrame p f s₁) := by
  have hm := reaching_mem hr
  unfold controlFrame
  grind [← coordReady_keeps, ← coordAbort_keeps, ← memberCommit_keeps, ← memberAbort_keeps]

theorem barrierArrive_keeps {fl : List StateField} {s₀ s₁ : State} (p : Nat) (g : Nat) (inst : BitVec 32) (i : Nat)
    (h_cells : .cells ∈ fl) (h_parts : .parts ∈ fl) (h_ring : .ring ∈ fl) (h_out : .out ∈ fl)
    (hs : Keeps fl s₀ s₁) : Keeps fl s₀ (barrierArrive p g inst i s₁) := by
  unfold barrierArrive
  grind [← Keeps.refl, ← onColl_keeps, ← Keeps.forEach, ← sendBoth_keeps, ← endColl_keeps]

theorem barrierFrame_keeps {fl : List StateField} {s₀ s₁ : State} (p : Nat) (f : VrtFrame) (h_cells : .cells ∈ fl)
    (h_parts : .parts ∈ fl) (h_ring : .ring ∈ fl) (h_out : .out ∈ fl)
    (hs : Keeps fl s₀ s₁) : Keeps fl s₀ (barrierFrame p f s₁) := by
  unfold barrierFrame
  grind [← barrierArrive_keeps, ← endColl_keeps]

theorem takeEarly_keeps {fl : List StateField} {s₀ s₁ : State} (p : Nat) (g : Nat) (barrier : Bool) (inst : BitVec 32)
    (hr : Reaching ⊆ fl)
    (hs : Keeps fl s₀ s₁) : Keeps fl s₀ (takeEarly p g barrier inst s₁) := by
  have hm := reaching_mem hr
  unfold takeEarly
  grind [← Keeps.refl, ← Keeps.onPart, ← Keeps.forEach, ← releaseBuffer_keeps, ← barrierFrame_keeps, ←
    controlFrame_keeps, ← segFrame_keeps]

theorem issueColl_keeps {fl : List StateField} {s₀ s₁ : State} (p : Nat) (x : Coll) (hr : Reaching ⊆ fl)
    (hs : Keeps fl s₀ s₁) : Keeps fl s₀ (issueColl p x s₁) := by
  have hm := reaching_mem hr
  unfold issueColl
  grind [← Keeps.refl, ← Keeps.onPart, ← soloColl_keeps, ← Keeps.forEach, ← beginSeg_keeps, ← takeEarly_keeps, ←
    sendReady_keeps]

theorem issueBarrier_keeps {fl : List StateField} {s₀ s₁ : State} (p : Nat) (x : Coll) (hr : Reaching ⊆ fl)
    (hs : Keeps fl s₀ s₁) : Keeps fl s₀ (issueBarrier p x s₁) := by
  have hm := reaching_mem hr
  unfold issueBarrier
  grind [← Keeps.onPart, ← sendBoth_keeps, ← keepEarly_keeps, ← barrierArrive_keeps, ← takeEarly_keeps]

/-! ### Receipt -/

theorem onFrame_keeps {fl : List StateField} {s₀ s₁ : State} (port : Nat) (type : Nat) (f : VrtFrame)
    (k : VrtFrame → State → State) (hk : ∀ y0 u, Keeps fl u (k y0 u)) (h_parts : .parts ∈ fl) (h_ports : .ports ∈ fl)
        (h_out : .out ∈ fl)
    (hs : Keeps fl s₀ s₁) : Keeps fl s₀ (onFrame port type f k s₁) := by
  have hk' : ∀ y0 u, Keeps fl s₀ u → Keeps fl s₀ (k y0 u) := fun _ _ h => h.trans (hk _ _)
  unfold onFrame
  grind (gen := 20) [← Keeps.refl, ! ⇒ receive_keeps]

theorem consume_keeps {fl : List StateField} {s₀ s₁ : State} (port : Nat) (f : VrtFrame) (k : State → State)
    (hk : ∀ u, Keeps fl u (k u)) (h_parts : .parts ∈ fl) (h_ports : .ports ∈ fl) (h_out : .out ∈ fl)
    (hs : Keeps fl s₀ s₁) : Keeps fl s₀ (consume port f k s₁) := by
  have hk' : ∀ u, Keeps fl s₀ u → Keeps fl s₀ (k u) := fun _ h => h.trans (hk  _)
  unfold consume
  grind (gen := 20) [← Keeps.refl, ← headerDrop_keeps, ← freeBuffer_keeps, ! ⇒ holdBuffer_keeps]

theorem doneWith_keeps {fl : List StateField} {s₀ s₁ : State} (port : Nat) (f : VrtFrame) (h_ports : .ports ∈ fl)
    (h_out : .out ∈ fl)
    (hs : Keeps fl s₀ s₁) : Keeps fl s₀ (doneWith port f s₁) := by
  unfold doneWith
  grind [← releaseBuffer_keeps]

theorem orEarly_keeps {fl : List StateField} {s₀ s₁ : State} (port : Nat) (f : VrtFrame) (k : State → State)
    (hk : ∀ u, Keeps fl u (k u)) (h_parts : .parts ∈ fl) (h_ports : .ports ∈ fl) (h_out : .out ∈ fl)
    (hs : Keeps fl s₀ s₁) : Keeps fl s₀ (orEarly port f k s₁) := by
  have hk' : ∀ u, Keeps fl s₀ u → Keeps fl s₀ (k u) := fun _ h => h.trans (hk  _)
  unfold orEarly
  grind (gen := 20) [← Keeps.refl, ← doneWith_keeps, ← keepEarly_keeps]

theorem sackSeg_keeps {fl : List StateField} {s₀ s₁ : State} (port : Nat) (f : VrtFrame) (h_out : .out ∈ fl)
    (hs : Keeps fl s₀ s₁) : Keeps fl s₀ (sackSeg port f s₁) := by
  unfold sackSeg
  grind [← sendClass0_keeps]

theorem takeSegSack_keeps {fl : List StateField} {s₀ s₁ : State} (f : VrtFrame) (hr : Reaching ⊆ fl)
    (hs : Keeps fl s₀ s₁) : Keeps fl s₀ (takeSegSack f s₁) := by
  have hm := reaching_mem hr
  unfold takeSegSack
  grind [← Keeps.refl, ← Keeps.onRing, ← Keeps.forEach, ← sendTx_keeps]

/-! ### RingPorts -/

theorem setPortState_keeps {fl : List StateField} {s₀ s₁ : State} (port : Nat) (st : BitVec 8) (h_parts : .parts ∈ fl)
    (h_ports : .ports ∈ fl) (h_eop : .eop ∈ fl) (h_out : .out ∈ fl)
    (hs : Keeps fl s₀ s₁) : Keeps fl s₀ (setPortState port st s₁) := by
  unfold setPortState
  grind [← notify_keeps, ← Keeps.onPort]

theorem retireLanes_keeps {fl : List StateField} {s₀ s₁ : State} (port : Nat) (h_nv : .nv ∈ fl)
    (hs : Keeps fl s₀ s₁) : Keeps fl s₀ (retireLanes port s₁) := by
  unfold retireLanes
  grind [← Keeps.refl, ← Keeps.forEach, ← State.onUnit_keeps]

theorem restartPort_keeps {fl : List StateField} {s₀ s₁ : State} (port : Nat) (h_nv : .nv ∈ fl) (h_parts : .parts ∈ fl)
    (h_ports : .ports ∈ fl) (h_eop : .eop ∈ fl) (h_out : .out ∈ fl)
    (hs : Keeps fl s₀ s₁) : Keeps fl s₀ (restartPort port s₁) := by
  unfold restartPort
  grind [← retireLanes_keeps, ← setPortState_keeps, ← Keeps.onPort]

theorem comeUp_keeps {fl : List StateField} {s₀ s₁ : State} (port : Nat) (h_ports : .ports ∈ fl)
    (hs : Keeps fl s₀ s₁) : Keeps fl s₀ (comeUp port s₁) := by
  unfold comeUp
  grind [← Keeps.onPort]

theorem commandInsert_keeps {fl : List StateField} {s₀ s₁ : State} (h_dev : .dev ∈ fl) (hb : ¬BypassHeld s₁.dev)
    (hs : Keeps fl s₀ s₁) : Keeps fl s₀ (commandInsert s₁) := by
  unfold commandInsert
  grind [BypassHeld, ← Keeps.onDev]

theorem sendLeave_keeps {fl : List StateField} {s₀ s₁ : State} (port : Nat) (h_out : .out ∈ fl)
    (hs : Keeps fl s₀ s₁) : Keeps fl s₀ (sendLeave port s₁) := by
  unfold sendLeave
  grind [← sendClass0_keeps]

theorem dropPort_keeps {fl : List StateField} {s₀ s₁ : State} (port : Nat) (h_parts : .parts ∈ fl)
    (h_ports : .ports ∈ fl) (h_eop : .eop ∈ fl) (h_out : .out ∈ fl)
    (hs : Keeps fl s₀ s₁) : Keeps fl s₀ (dropPort port s₁) := by
  unfold dropPort
  grind [← Keeps.refl, ← Keeps.forEach, ← Keeps.onPort, ← setPortState_keeps]

theorem replayAll_keeps {fl : List StateField} {s₀ s₁ : State} (port : Nat) (h_ports : .ports ∈ fl) (h_out : .out ∈ fl)
    (hs : Keeps fl s₀ s₁) : Keeps fl s₀ (replayAll port s₁) := by
  unfold replayAll
  grind [← Keeps.refl, ← Keeps.forEach, ← emit_keeps, ← Keeps.onPort]

theorem onProbe_keeps {fl : List StateField} {s₀ s₁ : State} (port : Nat) (f : VrtFrame) (k : State → State)
    (hk : ∀ u, Keeps fl u (k u)) (h_parts : .parts ∈ fl) (h_ports : .ports ∈ fl) (h_out : .out ∈ fl)
    (hs : Keeps fl s₀ s₁) : Keeps fl s₀ (onProbe port f k s₁) := by
  have hk' : ∀ u, Keeps fl s₀ u → Keeps fl s₀ (k u) := fun _ h => h.trans (hk  _)
  unfold onProbe
  grind [← Keeps.refl, ← onFrame_keeps]

theorem sendProbe_keeps {fl : List StateField} {s₀ s₁ : State} (port : Nat) (again : Bool) (h_ports : .ports ∈ fl)
    (h_out : .out ∈ fl)
    (hs : Keeps fl s₀ s₁) : Keeps fl s₀ (sendProbe port again s₁) := by
  unfold sendProbe
  grind [← sendClass0_keeps, ← Keeps.onPort]

/-! ### Collectives -/

theorem onControl_keeps {fl : List StateField} {s₀ s₁ : State} (port : RingPort) (kind : Nat) (f : VrtFrame)
    (hr : Reaching ⊆ fl) (hs : Keeps fl s₀ s₁) : Keeps fl s₀ (onControl port kind f s₁) := by
  have hm := reaching_mem hr
  have h1 := hm.2.2.2.2.1
  have h2 := hm.2.2.2.2.2.2.1
  have h3 := hm.2.2.2.2.2.2.2.2.2.2.2.2
  unfold onControl
  refine Keeps.ite (fun _ => hs) (fun _ => onFrame_keeps _ _ _ _ (fun g u => ?_) h1 h2 h3 hs)
  refine consume_keeps _ _ _ (fun u => ?_) h1 h2 h3 (.refl _ _)
  exact orEarly_keeps _ _ _ (fun u => controlFrame_keeps _ _ hr (.refl _ _)) h1 h2 h3 (.refl _ _)

/-! ### RingCommands -/

theorem takeRing_keeps {fl : List StateField} {s₀ s₁ : State} (c opc : Nat) (run : Nat → QEntry → DmCmd → State → State)
    (hrun : ∀ p e d s, Keeps fl s (run p e d s)) (hr : Reaching ⊆ fl) (hs : Keeps fl s₀ s₁) :
    Keeps fl s₀ (takeRing c opc run s₁) := by
  have hc := (reaching_mem hr).2.2.2.1
  unfold takeRing
  split
  · refine Keeps.ite (fun _ => hs) (fun _ => ?_)
    have hq := popQueue_keeps c 4 hc hs
    refine Keeps.ite (fun _ => refuseDm_keeps _ _ _ _ hc hq) (fun _ => ?_)
    have hp := fun a => readPrm_keeps c a hr hq
    split
    · exact Keeps.ofPair (by assumption) (hp _)
    · have h := Keeps.ofPair (by assumption) (hp _)
      exact Keeps.ite (fun _ => refuseDm_keeps _ _ _ _ hc h) (fun _ => (addDm_keeps _ _ hc h).trans (hrun _ _ _ _))
  · exact hs

/-! ### Streams -/

theorem startDesc_keeps {fl : List StateField} {s₀ s₁ : State} (p : Nat) (engine : Nat) (op : Nat)
    (run : PacedDesc → State → State) (hrun : ∀ y0 u, Keeps fl u (run y0 u)) (h_parts : .parts ∈ fl) (h_ports :
        .ports ∈ fl) (h_out : .out ∈ fl)
    (hs : Keeps fl s₀ s₁) : Keeps fl s₀ (startDesc p engine op run s₁) := by
  have hrun' : ∀ y0 u, Keeps fl s₀ u → Keeps fl s₀ (run y0 u) := fun _ _ h => h.trans (hrun _ _)
  unfold startDesc
  grind (gen := 20) [← Keeps.refl, ← Keeps.onPart, ← retireDesc_keeps]

end Sys2Proof.Machine
end

