-- ==== Sys2Proof/Laws/Management.lean ====
section
/-! SUPPORT. Requests, partitions, modules, contexts, boot and the power manager: what each operation leaves. -/

set_option Elab.async false

namespace Sys2Proof.Machine

/-! ### Requests -/

theorem onSession_keeps {fl : List StateField} {s₀ s₁ : State} (num : BitVec 16) (f : Session → Session)
    (h_eop : .eop ∈ fl)
    (hs : Keeps fl s₀ s₁) : Keeps fl s₀ (onSession num f s₁) := by
  unfold onSession
  grind [← Keeps.onEop]

theorem badTagAnswer_keeps {fl : List StateField} {s₀ s₁ : State} (opc : Nat) (r : EopReq) (h_eop : .eop ∈ fl)
    (h_out : .out ∈ fl)
    (hs : Keeps fl s₀ s₁) : Keeps fl s₀ (badTagAnswer opc r s₁) := by
  unfold badTagAnswer
  grind [← sendM_keeps, ← Keeps.onEop]

/-- A request that is turned away, or the state it is judged in. -/
theorem eopGate_keeps {fl : List StateField} {s₀ s₁ : State} (opc : Nat) (r : EopReq) (h_eop : .eop ∈ fl)
    (h_out : .out ∈ fl)
    (hs : Keeps fl s₀ s₁) : match eopGate opc r s₁ with
      | .drop u => Keeps fl s₀ u
      | .open' _ u => Keeps fl s₀ u := by
  unfold eopGate
  grind [← Keeps.onEop, ← badTagAnswer_keeps, ← sendM_keeps]

theorem eopRun_keeps {fl : List StateField} {s₀ s₁ : State} (opc : Nat) (r : EopReq)
    (judge : Option Session → State → Nat × List Byte) (act : Nat → Option Session → State → State)
    (hact : ∀ st x u, Keeps fl u (act st x u)) (h_eop : .eop ∈ fl) (h_out : .out ∈ fl) (hs : Keeps fl s₀ s₁) :
    Keeps fl s₀ (eopRun opc r judge act s₁) := by
  have hg := eopGate_keeps opc r h_eop h_out hs
  unfold eopRun
  split <;> rename_i he <;> rw [he] at hg
  · exact hg
  · exact (sendM_keeps _ h_out hg).trans (hact _ _ _)
  · exact (sendM_keeps _ h_out (onSession_keeps _ _ h_eop hg)).trans (hact _ _ _)

theorem onOk_keeps {fl : List StateField} {s₀ s₁ : State} (f : Option Session → State → State) (status : Nat)
    (x : Option Session) (hf : ∀ y0 u, Keeps fl u (f y0 u))
    (hs : Keeps fl s₀ s₁) : Keeps fl s₀ (onOk f status x s₁) := by
  have hf' : ∀ y0 u, Keeps fl s₀ u → Keeps fl s₀ (f y0 u) := fun _ _ h => h.trans (hf _ _)
  unfold onOk
  grind [← Keeps.refl]

theorem eopWrite_keeps {fl : List StateField} {s₀ s₁ : State} (mine : Nat → Nat → Bool) (r : EopReq)
    (check : State → Nat → Nat → Nat) (act : Nat → Nat → Option Session → State → State) (hact : ∀ y0 y1 y2 u, Keeps fl u (act
        y0 y1 y2 u)) (h_eop : .eop ∈ fl) (h_out : .out ∈ fl)
    (hs : Keeps fl s₀ s₁) : Keeps fl s₀ (eopWrite mine r check act s₁) := by
  have hact' : ∀ y0 y1 y2 u, Keeps fl s₀ u → Keeps fl s₀ (act y0 y1 y2 u) := fun _ _ _ _ h => h.trans (hact _ _ _ _)
  unfold eopWrite
  grind [← Keeps.refl, ← eopRun_keeps, ← onOk_keeps]

theorem closeSession_keeps {fl : List StateField} {s₀ s₁ : State} (num : BitVec 16) (h_eop : .eop ∈ fl)
    (hs : Keeps fl s₀ s₁) : Keeps fl s₀ (closeSession num s₁) := by
  unfold closeSession
  grind [← Keeps.onEop]

theorem closeSessions_keeps {fl : List StateField} {s₀ s₁ : State} (p : Nat) (keep : Option (BitVec 16))
    (h_eop : .eop ∈ fl)
    (hs : Keeps fl s₀ s₁) : Keeps fl s₀ (closeSessions p keep s₁) := by
  unfold closeSessions
  grind [← Keeps.refl, ← Keeps.forEach, ← closeSession_keeps]

/-! ### Dictionary -/

theorem writeEntry_keeps {fl : List StateField} {s₀ s₁ : State} (p : Nat) (idx : Nat) (sub : Nat) (v : Nat) (be : Nat)
    (h_nv : .nv ∈ fl) (h_parts : .parts ∈ fl) (h_drams : .drams ∈ fl)
    (hs : Keeps fl s₀ s₁) : Keeps fl s₀ (writeEntry p idx sub v be s₁) := by
  unfold writeEntry
  grind [← Keeps.onNv, ← Keeps.onStack, ← Keeps.onPart]

theorem setSnap_keeps {fl : List StateField} {s₀ s₁ : State} (x : Option Session) (v : Option Snapshot)
    (h_eop : .eop ∈ fl)
    (hs : Keeps fl s₀ s₁) : Keeps fl s₀ (setSnap x v s₁) := by
  unfold setSnap
  grind [← onSession_keeps, ← Keeps.onEop]

theorem segEffect_keeps {fl : List StateField} {s₀ s₁ : State} (r : EopReq) (keep : List Byte → State → State)
    (commit : Nat → List Byte → State → State) (status : Nat) (x : Option Session) (hkeep : ∀ y0 u, Keeps fl u (keep y0
        u)) (hcommit : ∀ y0 y1 u, Keeps fl u (commit y0 y1 u)) (h_eop : .eop ∈ fl)
    (hs : Keeps fl s₀ s₁) : Keeps fl s₀ (segEffect r keep commit status x s₁) := by
  have hkeep' : ∀ y0 u, Keeps fl s₀ u → Keeps fl s₀ (keep y0 u) := fun _ _ h => h.trans (hkeep _ _)
  have hcommit' : ∀ y0 y1 u, Keeps fl s₀ u → Keeps fl s₀ (commit y0 y1 u) := fun _ _ _ h => h.trans (hcommit _ _ _)
  unfold segEffect
  grind (gen := 20) [← Keeps.refl, ← Keeps.onEop]

theorem eopSegWrite_keeps {fl : List StateField} {s₀ s₁ : State} (mine : Nat → Nat → Bool) (r : EopReq)
    (busy : State → Bool) (check : State → Nat → List Byte → Nat) (keep : List Byte → State → State) (commit : Nat → List
        Byte → State → State) (hkeep : ∀ y0 u, Keeps fl u (keep y0 u)) (hcommit : ∀ y0 y1 u, Keeps fl u (commit y0 y1
            u)) (h_eop : .eop ∈ fl) (h_out : .out ∈ fl)
    (hs : Keeps fl s₀ s₁) : Keeps fl s₀ (eopSegWrite mine r busy check keep commit s₁) := by
  have hkeep' : ∀ y0 u, Keeps fl s₀ u → Keeps fl s₀ (keep y0 u) := fun _ _ h => h.trans (hkeep _ _)
  have hcommit' : ∀ y0 y1 u, Keeps fl s₀ u → Keeps fl s₀ (commit y0 y1 u) := fun _ _ _ h => h.trans (hcommit _ _ _)
  unfold eopSegWrite
  grind [← Keeps.refl, ← eopRun_keeps, ← segEffect_keeps]

/-! ### Attestation -/

theorem reserveLeaves_keeps {fl : List StateField} {s₀ s₁ : State}  (h_nv : .nv ∈ fl) (h_att : .att ∈ fl)
    (hs : Keeps fl s₀ s₁) : Keeps fl s₀ (reserveLeaves s₁) := by
  unfold reserveLeaves
  grind [← Keeps.onNv, ← Keeps.onAtt]

/-! ### Pins -/

theorem setPorst_keeps {fl : List StateField} {s₀ s₁ : State} (high : Bool) (h_dev : .dev ∈ fl) (h_jtag : .jtag ∈ fl)
    (hs : Keeps fl s₀ s₁) : Keeps fl s₀ (setPorst high s₁) := by
  unfold setPorst
  grind [BypassHeld, ← Keeps.set_dev_jtag, ← Keeps.set_dev, ← Keeps.set_jtag]

theorem losePower_keeps {fl : List StateField} {s₀ s₁ : State} (hj : .jtag ∈ fl) (hr : Reaching ⊆ fl)
    (hs : Keeps fl s₀ s₁) : Keeps fl s₀ (losePower s₁) := by
  have hm := reaching_mem hr
  have h := countBoot_keeps hm.1 (Keeps.onDevSame (f := fun d => { d with minPending := none }) hm.2.1
    (fun _ => ⟨rfl, rfl, rfl⟩) hs)
  refine (deviceReset_keeps hr h).trans ⟨fun f hf => ?_, fun _ => rfl, fun _ => ⟨rfl, .inr rfl⟩⟩
  cases f <;> first | rfl | grind

/-! ### Partitions -/

theorem acceptDefinition_keeps {fl : List StateField} {s₀ s₁ : State} (p : Nat) (d : BitVec 512)
    (h_cells : .cells ∈ fl) (h_parts : .parts ∈ fl) (h_ports : .ports ∈ fl) (h_ring : .ring ∈ fl) (h_eop : .eop ∈ fl)
        (h_out : .out ∈ fl)
    (hs : Keeps fl s₀ s₁) : Keeps fl s₀ (acceptDefinition p d s₁) := by
  unfold acceptDefinition
  grind [← Keeps.onPart, ← startReset_keeps]

theorem settleFence_keeps {fl : List StateField} {s₀ s₁ : State} (c : Nat) (h_nv : .nv ∈ fl) (h_dev : .dev ∈ fl)
    (hs : Keeps fl s₀ s₁) : Keeps fl s₀ (settleFence c s₁) := by
  unfold settleFence
  grind [BypassHeld, ← Keeps.onDev, ← State.onUnit_keeps]

theorem wipeCell_keeps {fl : List StateField} {s₀ s₁ : State} (c : Nat) (h_mem : .mem ∈ fl) (h_cells : .cells ∈ fl)
    (hs : Keeps fl s₀ s₁) : Keeps fl s₀ (wipeCell c s₁) := by
  unfold wipeCell
  grind [← Keeps.onCell, ← Keeps.writeMem, ← Keeps.clearMem, ← Keeps.storeMem, ← Keeps.resizeMem]

theorem wipeStack_keeps {fl : List StateField} {s₀ s₁ : State} (st : Nat) (h_mem : .mem ∈ fl) (h_drams : .drams ∈ fl)
    (hs : Keeps fl s₀ s₁) : Keeps fl s₀ (wipeStack st s₁) := by
  unfold wipeStack
  grind [← Keeps.onStack, ← Keeps.writeMem, ← Keeps.clearMem, ← Keeps.storeMem, ← Keeps.resizeMem]

theorem wipeShare_keeps {fl : List StateField} {s₀ s₁ : State} (p : Nat) (d : BitVec 512) (h_mem : .mem ∈ fl)
    (hs : Keeps fl s₀ s₁) : Keeps fl s₀ (wipeShare p d s₁) := by
  unfold wipeShare
  grind [← Keeps.writeMem, ← Keeps.clearMem, ← Keeps.storeMem, ← Keeps.resizeMem]

theorem moveSources_keeps {fl : List StateField} {s₀ s₁ : State} (p : Nat) (d : BitVec 512) (h_ring : .ring ∈ fl)
    (hs : Keeps fl s₀ s₁) : Keeps fl s₀ (moveSources p d s₁) := by
  unfold moveSources
  grind [← Keeps.onRing]

theorem wipeFor_keeps {fl : List StateField} {s₀ s₁ : State} (old : BitVec 512) (new : BitVec 512) (h_nv : .nv ∈ fl)
    (h_dev : .dev ∈ fl) (h_mem : .mem ∈ fl) (h_cells : .cells ∈ fl) (h_drams : .drams ∈ fl)
    (hs : Keeps fl s₀ s₁) : Keeps fl s₀ (wipeFor old new s₁) := by
  unfold wipeFor
  grind [← Keeps.refl, ← Keeps.forEach, ← applyRepairs_keeps, ← wipeStack_keeps, ← wipeCell_keeps]

theorem notifyReset_keeps {fl : List StateField} {s₀ s₁ : State} (p : Nat) (h_parts : .parts ∈ fl) (h_eop : .eop ∈ fl)
    (h_out : .out ∈ fl)
    (hs : Keeps fl s₀ s₁) : Keeps fl s₀ (notifyReset p s₁) := by
  unfold notifyReset
  grind [← notify_keeps]

theorem dropPartition_keeps {fl : List StateField} {s₀ s₁ : State} (p : Nat) (h_nv : .nv ∈ fl) (h_eop : .eop ∈ fl)
    (hs : Keeps fl s₀ s₁) : Keeps fl s₀ (dropPartition p s₁) := by
  unfold dropPartition
  grind [← closeSessions_keeps, ← Keeps.onNv]

/-! ### PowerManager -/

theorem onRail_keeps {fl : List StateField} {s₀ s₁ : State} (d : Nat) (f : Rail → Rail) (h_power : .power ∈ fl)
    (hs : Keeps fl s₀ s₁) : Keeps fl s₀ (onRail d f s₁) := by
  unfold onRail
  grind [← Keeps.onPower]

theorem resetWindow_keeps {fl : List StateField} {s₀ s₁ : State}  (h_power : .power ∈ fl)
    (hs : Keeps fl s₀ s₁) : Keeps fl s₀ (resetWindow s₁) := by
  unfold resetWindow
  grind [← Keeps.onPower]

theorem sendTxn_keeps {fl : List StateField} {s₀ s₁ : State}  (h_out : .out ∈ fl)
    (hs : Keeps fl s₀ s₁) : Keeps fl s₀ (sendTxn s₁) := by
  unfold sendTxn
  grind [← Keeps.set_out]

theorem beginTxn_keeps {fl : List StateField} {s₀ s₁ : State}  (h_power : .power ∈ fl) (h_out : .out ∈ fl)
    (hs : Keeps fl s₀ s₁) : Keeps fl s₀ (beginTxn s₁) := by
  unfold beginTxn
  grind [← sendTxn_keeps, ← onRail_keeps, ← Keeps.onPower]

theorem enqueue_keeps {fl : List StateField} {s₀ s₁ : State} (l : List PmTxn) (h_power : .power ∈ fl)
    (h_out : .out ∈ fl)
    (hs : Keeps fl s₀ s₁) : Keeps fl s₀ (enqueue l s₁) := by
  unfold enqueue
  grind [← Keeps.onPower, ← beginTxn_keeps]

theorem enqueueNext_keeps {fl : List StateField} {s₀ s₁ : State} (t : PmTxn) (h_power : .power ∈ fl)
    (h_out : .out ∈ fl)
    (hs : Keeps fl s₀ s₁) : Keeps fl s₀ (enqueueNext t s₁) := by
  unfold enqueueNext
  grind [← enqueue_keeps, ← Keeps.onPower]

theorem dropSteps_keeps {fl : List StateField} {s₀ s₁ : State} (d : Nat) (h_power : .power ∈ fl)
    (hs : Keeps fl s₀ s₁) : Keeps fl s₀ (dropSteps d s₁) := by
  unfold dropSteps
  grind [← Keeps.onPower]

theorem abandonStep_keeps {fl : List StateField} {s₀ s₁ : State} (d : Nat) (again : Bool) (h_power : .power ∈ fl)
    (h_out : .out ∈ fl)
    (hs : Keeps fl s₀ s₁) : Keeps fl s₀ (abandonStep d again s₁) := by
  unfold abandonStep
  grind [← onRail_keeps, ← dropSteps_keeps, ← enqueueNext_keeps]

theorem finishReturn_keeps {fl : List StateField} {s₀ s₁ : State}  (h_power : .power ∈ fl)
    (hs : Keeps fl s₀ s₁) : Keeps fl s₀ (finishReturn s₁) := by
  unfold finishReturn
  grind [← Keeps.onPower]

theorem regulatorFault_keeps {fl : List StateField} {s₀ s₁ : State} (d : Nat) (cmd : Nat) (h_nv : .nv ∈ fl)
    (h_dev : .dev ∈ fl)
    (hs : Keeps fl s₀ s₁) : Keeps fl s₀ (regulatorFault d cmd s₁) := by
  unfold regulatorFault
  grind [← recordEvent_keeps]

theorem transactionDone_keeps {fl : List StateField} {s₀ s₁ : State} (t : PmTxn) (rd : BitVec 16) (h_nv : .nv ∈ fl)
    (h_dev : .dev ∈ fl) (h_power : .power ∈ fl) (h_out : .out ∈ fl)
    (hs : Keeps fl s₀ s₁) : Keeps fl s₀ (transactionDone t rd s₁) := by
  unfold transactionDone
  grind [← enqueue_keeps, ← onRail_keeps, ← regulatorFault_keeps]

theorem releaseHold_keeps {fl : List StateField} {s₀ s₁ : State} (d : Nat) (h_power : .power ∈ fl)
    (hs : Keeps fl s₀ s₁) : Keeps fl s₀ (releaseHold d s₁) := by
  unfold releaseHold
  grind [← onRail_keeps]

theorem transactionFailed_keeps {fl : List StateField} {s₀ s₁ : State} (t : PmTxn) (l : List PmTxn) (h_nv : .nv ∈ fl)
    (h_dev : .dev ∈ fl) (h_power : .power ∈ fl) (h_out : .out ∈ fl)
    (hs : Keeps fl s₀ s₁) : Keeps fl s₀ (transactionFailed t l s₁) := by
  unfold transactionFailed
  grind [← Keeps.onPower, ← beginTxn_keeps, ← sendTxn_keeps, ← regulatorFault_keeps, ← onRail_keeps]

theorem resumeReturn_keeps {fl : List StateField} {s₀ s₁ : State} (d : Nat) (h_power : .power ∈ fl) (h_out : .out ∈ fl)
    (hs : Keeps fl s₀ s₁) : Keeps fl s₀ (resumeReturn d s₁) := by
  unfold resumeReturn
  grind [← enqueue_keeps, ← onRail_keeps]

theorem lowerRail_keeps {fl : List StateField} {s₀ s₁ : State} (d : Nat) (h_power : .power ∈ fl) (h_out : .out ∈ fl)
    (hs : Keeps fl s₀ s₁) : Keeps fl s₀ (lowerRail d s₁) := by
  unfold lowerRail
  grind [← onRail_keeps, ← enqueue_keeps, ← dropSteps_keeps, ← abandonStep_keeps]

theorem enterLowest_keeps {fl : List StateField} {s₀ s₁ : State}  (h_power : .power ∈ fl) (h_out : .out ∈ fl)
    (hs : Keeps fl s₀ s₁) : Keeps fl s₀ (enterLowest s₁) := by
  unfold enterLowest
  grind [← Keeps.onPower, ← lowerRail_keeps]

theorem returnRail_keeps {fl : List StateField} {s₀ s₁ : State} (d : Nat) (h_power : .power ∈ fl) (h_out : .out ∈ fl)
    (hs : Keeps fl s₀ s₁) : Keeps fl s₀ (returnRail d s₁) := by
  unfold returnRail
  grind [← onRail_keeps, ← enqueue_keeps]

theorem execVrAlertRelease.waitingSteps_keeps {fl : List StateField} {s₀ s₁ : State} (d : Nat) (h_power : .power ∈ fl)
    (hs : Keeps fl s₀ s₁) : Keeps fl s₀ (execVrAlertRelease.waitingSteps d s₁) := by
  unfold execVrAlertRelease.waitingSteps
  grind [← Keeps.onPower]

/-! ### Boot -/

theorem measured_keeps {fl : List StateField} {s₀ s₁ : State} (slot : Vector (BitVec 256) 4) (h_dev : .dev ∈ fl)
    (hs : Keeps fl s₀ s₁) : Keeps fl s₀ (measured slot s₁) := by
  unfold measured
  grind [BypassHeld, ← Keeps.onDev]

theorem bootRead_keeps {fl : List StateField} {s₀ s₁ : State} (h_nv : .nv ∈ fl) (h_dev : .dev ∈ fl)
    (h_att : .att ∈ fl) (hb : BypassHeld s₁.dev → s₁.dev.bypFault = true)
    (hs : Keeps fl s₀ s₁) : Keeps fl s₀ (bootRead s₁) := by
  unfold bootRead
  grind [BypassHeld, ← Keeps.onNv, ← Keeps.onDev, ← Keeps.onAtt, ← measured_keeps, ← recordEvent_keeps]

theorem startPortM_keeps {fl : List StateField} {s₀ s₁ : State}  (h_eop : .eop ∈ fl)
    (hs : Keeps fl s₀ s₁) : Keeps fl s₀ (startPortM s₁) := by
  unfold startPortM
  grind [← Keeps.onEop]

theorem enterHusk_keeps {fl : List StateField} {s₀ s₁ : State} (cause : Nat) (h_nv : .nv ∈ fl) (h_dev : .dev ∈ fl)
    (h_eop : .eop ∈ fl) (hs : Keeps fl s₀ s₁) : Keeps fl s₀ (enterHusk cause s₁) :=
  recordEvent_keeps _ _ _ _ _ _ h_nv h_dev
    (startPortM_keeps h_eop (Keeps.onDevSame h_dev (fun _ => ⟨rfl, rfl, rfl⟩) hs))

theorem onSlot_keeps {fl : List StateField} {s₀ s₁ : State} (i : Nat) (f : FwSlot → FwSlot) (h_nv : .nv ∈ fl)
    (hs : Keeps fl s₀ s₁) : Keeps fl s₀ (onSlot i f s₁) := by
  unfold onSlot
  grind [← Keeps.onNv]

theorem abandonTrial_keeps {fl : List StateField} {s₀ s₁ : State} (i : Nat) (h_nv : .nv ∈ fl) (h_dev : .dev ∈ fl)
    (hs : Keeps fl s₀ s₁) : Keeps fl s₀ (abandonTrial i s₁) := by
  unfold abandonTrial
  grind [← recordEvent_keeps, ← onSlot_keeps]

theorem markTrials_keeps {fl : List StateField} {s₀ s₁ : State}  (h_nv : .nv ∈ fl)
    (hs : Keeps fl s₀ s₁) : Keeps fl s₀ (markTrials s₁) := by
  unfold markTrials
  grind [← Keeps.refl, ← Keeps.forEach, ← onSlot_keeps]

theorem failSlot_keeps {fl : List StateField} {s₀ s₁ : State} (i : Nat) (order : Nat) (hr : Reaching ⊆ fl)
    (hs : Keeps fl s₀ s₁) : Keeps fl s₀ (failSlot i order s₁) := by
  have hm := reaching_mem hr
  unfold failSlot
  grind [← deviceReset_keeps, ← recordEvent_keeps, ← onSlot_keeps]

theorem settleCell_keeps {fl : List StateField} {s₀ s₁ : State} (c : Nat) (h_nv : .nv ∈ fl)
    (hs : Keeps fl s₀ s₁) : Keeps fl s₀ (settleCell c s₁) := by
  unfold settleCell
  grind [← State.onUnit_keeps]

theorem retireUnit_keeps {fl : List StateField} {s₀ s₁ : State} (uclass : Nat) (i : Nat) (h_nv : .nv ∈ fl)
    (hs : Keeps fl s₀ s₁) : Keeps fl s₀ (retireUnit uclass i s₁) := by
  unfold retireUnit
  grind [← State.onUnit_keeps]

theorem bootHistory_keeps {fl : List StateField} {s₀ s₁ : State} (h_nv : .nv ∈ fl) (h_dev : .dev ∈ fl)
    (h_power : .power ∈ fl) (h_out : .out ∈ fl)
    (hs : Keeps fl s₀ s₁) : Keeps fl s₀ (bootHistory s₁) := by
  have h1 : Keeps fl s₀ (s₁.onDev fun d => { d with bootOrder := 6 }) := Keeps.onDev h_dev id hs
  have h2 := enqueue_keeps [plainTxn 0 0x20 0, plainTxn 1 0x20 0] h_power h_out h1
  unfold bootHistory
  refine Keeps.onDevSame h_dev (fun _ => ⟨rfl, rfl, rfl⟩) (Keeps.forEach (fun _ _ => retireUnit_keeps _ _ h_nv (.refl _ _))
    (Keeps.forEach (fun _ _ => retireUnit_keeps _ _ h_nv (.refl _ _))
      (Keeps.forEach (fun _ _ => settleCell_keeps _ h_nv (.refl _ _)) ?_)))
  exact Keeps.ite (fun _ => h2) fun _ => enterLowest_keeps h_power h_out h2

theorem bootStacks_keeps {fl : List StateField} {s₀ s₁ : State} (o : BootFindings) (h_nv : .nv ∈ fl)
    (h_dev : .dev ∈ fl)
    (h_mem : .mem ∈ fl) (h_drams : .drams ∈ fl) (hs : Keeps fl s₀ s₁) : Keeps fl s₀ (bootStacks o s₁) := by
  have h0 := Keeps.setMem (m := Memory.reset) h_mem (fun _ => rfl) hs
  have h1 := Keeps.set_dev (t := { s₁ with mem := Memory.reset }) (v := { s₁.dev with bootOrder := 7 }) h_dev (fun h => h) h0
  exact Keeps.forEach (fun _ _ => recordEvent_keeps _ _ _ _ _ _ h_nv h_dev (.refl _ _))
    (Keeps.forEach (fun _ _ => applyRepairs_keeps _ h_nv h_dev h_drams (.refl _ _)) h1)

theorem bootCopy_keeps {fl : List StateField} {s₀ s₁ : State} (img : List Byte) (h_dev : .dev ∈ fl) (h_mem : .mem ∈ fl)
    (hs : Keeps fl s₀ s₁) : Keeps fl s₀ (bootCopy img s₁) := by
  refine hs.trans ⟨fun f hf => ?_, fun h => Memory.wf_writeN _ _ _ h, id⟩
  cases f <;> first | rfl | grind

theorem bootCell_keeps {fl : List StateField} {s₀ s₁ : State} (x : Fin 34 × BitVec 40) (h_nv : .nv ∈ fl)
    (h_dev : .dev ∈ fl)
    (hs : Keeps fl s₀ s₁) : Keeps fl s₀ (bootCell x s₁) := by
  unfold bootCell
  grind [BypassHeld, ← Keeps.onDev, ← State.onUnit_keeps, ← recordEvent_keeps]

theorem bootCells_keeps {fl : List StateField} {s₀ s₁ : State} (o : BootFindings) (h_nv : .nv ∈ fl)
    (h_dev : .dev ∈ fl) (h_cells : .cells ∈ fl) (h_power : .power ∈ fl)
    (hs : Keeps fl s₀ s₁) : Keeps fl s₀ (bootCells o s₁) := by
  unfold bootCells
  grind [BypassHeld, ← Keeps.refl, ← Keeps.forEach, ← Keeps.onCell, ← resetWindow_keeps, ← bootCell_keeps, ← Keeps.onDev]

theorem bootPort_keeps {fl : List StateField} {s₀ s₁ : State} (n : Nat) (good : BitVec 8) (h_nv : .nv ∈ fl)
    (h_dev : .dev ∈ fl) (h_ports : .ports ∈ fl)
    (hs : Keeps fl s₀ s₁) : Keeps fl s₀ (bootPort n good s₁) := by
  unfold bootPort
  grind [BypassHeld, ← Keeps.refl, ← retireLanes_keeps, ← Keeps.onPort, ← Keeps.onDev, ← Keeps.forEach, ← recordEvent_keeps]

theorem bootRest_keeps {fl : List StateField} {s₀ s₁ : State} (o : BootFindings) (h_nv : .nv ∈ fl)
    (h_dev : .dev ∈ fl) (h_parts : .parts ∈ fl) (h_ports : .ports ∈ fl) (h_eop : .eop ∈ fl)
    (hs : Keeps fl s₀ s₁) : Keeps fl s₀ (bootRest o s₁) := by
  unfold bootRest
  exact startPortM_keeps h_eop (Keeps.onDevSame h_dev (fun _ => ⟨rfl, rfl, rfl⟩)
    (Keeps.forEach (fun _ _ => Keeps.onPart h_parts (.refl _ _))
      (bootPort_keeps _ _ h_nv h_dev h_ports (bootPort_keeps _ _ h_nv h_dev h_ports hs))))

theorem bootSlot_keeps {fl : List StateField} {s₀ s₁ : State} (o : BootFindings) (i : Nat) (hr : Reaching ⊆ fl)
    (hs : Keeps fl s₀ s₁) : Keeps fl s₀ (bootSlot o i s₁) := by
  obtain ⟨hn, hd, hmem, hc, hpa, hdr, hpo, -, he, -, -, hpw, ho⟩ := reaching_mem hr
  have h := bootHistory_keeps hn hd hpw ho (measured_keeps (imageMeasures (s₁.slot i).image) hd
    (Keeps.onDev (f := fun d => { d with slot := some (Fin.ofNat 2 i) }) hd id hs))
  have h2 := bootCopy_keeps (s₁.slot i).image hd hmem (bootStacks_keeps o hn hd hmem hdr h)
  unfold bootSlot
  exact Keeps.ite (fun _ => enterHusk_keeps _ hn hd he h) fun _ => Keeps.ite (fun _ => failSlot_keeps _ _ hr h2)
    (fun _ => bootRest_keeps _ hn hd hpa hpo he (bootCells_keeps _ hn hd hc hpw h2))

theorem bootChoose_keeps {fl : List StateField} {s₀ s₁ : State} (o : BootFindings) (hr : Reaching ⊆ fl)
    (hs : Keeps fl s₀ s₁) : Keeps fl s₀ (bootChoose o s₁) := by
  have hm := reaching_mem hr
  unfold bootChoose
  grind [← abandonTrial_keeps, ← markTrials_keeps, ← enterHusk_keeps, ← bootSlot_keeps, ← failSlot_keeps]

/-! ### BoundaryScan -/

theorem tapShift_keeps {fl : List StateField} {s₀ s₁ : State} (tap : TapInput) (ir : Nat) (reg : List Bool)
    (f : Jtag → List Bool → Jtag) (h_jtag : .jtag ∈ fl)
    (hs : Keeps fl s₀ s₁) : Keeps fl s₀ (tapShift tap ir reg f s₁) := by
  unfold tapShift
  grind [← Keeps.set_jtag]

/-! ### Digests -/

theorem rehash_keeps {fl : List StateField} {s₀ s₁ : State} (p : Nat) (l : List Nat) (hr : Reaching ⊆ fl)
    (hs : Keeps fl s₀ s₁) : Keeps fl s₀ (rehash p l s₁).2 := by
  have hp := (reaching_mem hr).2.2.2.2.1
  induction l generalizing s₁ with
  | nil => exact hs
  | cons i r ih =>
    unfold rehash
    split
    · exact ih hs
    · have h := fun a n => relRead_keeps p a n hr hs
      split
      · exact Keeps.ofPair (by assumption) (h _ _)
      · exact ih (Keeps.onPart hp (Keeps.ofPair (by assumption) (h _ _)))

theorem putRegion_keeps {fl : List StateField} {s₀ s₁ : State} (p : Nat) (a : Nat) (bs : List Byte) (hr : Reaching ⊆ fl)
    (hs : Keeps fl s₀ s₁) : Keeps fl s₀ (putRegion p a bs s₁) := by
  have hm := reaching_mem hr
  unfold putRegion
  grind [! ⇒ relWrite_keeps]

theorem clearRel_keeps {fl : List StateField} {s₀ s₁ : State} (p a n : Nat) (h_mem : .mem ∈ fl) (hs : Keeps fl s₀ s₁) :
    Keeps fl s₀ (clearRel p a n s₁) := Keeps.setMem h_mem (Memory.wf_clears _ _) hs

theorem putHeader_keeps {fl : List StateField} {s₀ s₁ : State} (p : Nat) (hr : Reaching ⊆ fl)
    (hs : Keeps fl s₀ s₁) : Keeps fl s₀ (putHeader p s₁) := by
  have hm := reaching_mem hr
  unfold putHeader
  grind [← putRegion_keeps]

theorem setRun_keeps {fl : List StateField} {s₀ s₁ : State} (p : Nat) (d : BitVec 256) (hr : Reaching ⊆ fl)
    (hs : Keeps fl s₀ s₁) : Keeps fl s₀ (setRun p d s₁) := by
  have hm := reaching_mem hr
  unfold setRun
  grind [← putHeader_keeps, ← Keeps.onPart]

theorem loadDet_keeps {fl : List StateField} {s₀ s₁ : State} (p : Nat) (hr : Reaching ⊆ fl) (hs : Keeps fl s₀ s₁) :
    Keeps fl s₀ (loadDet p s₁) := by
  have hm := reaching_mem hr
  have h := fun f a n => clearRel_keeps p a n hm.2.2.1 (Keeps.onPart (p := p) (f := f) hm.2.2.2.2.1 hs)
  unfold loadDet
  exact putHeader_keeps _ hr (Keeps.ite (fun _ => rehash_keeps _ _ hr (h _ _ _)) (fun _ => h _ _ _))

theorem openCapsule_keeps {fl : List StateField} {s₀ s₁ : State} (p : Nat) (hr : Reaching ⊆ fl)
    (hs : Keeps fl s₀ s₁) : Keeps fl s₀ (openCapsule p s₁) := by
  have hm := reaching_mem hr
  unfold openCapsule
  grind [! ⇒ rehash_keeps, ← clearRel_keeps, ← putRegion_keeps, ← Keeps.onPart]

theorem putArrivals_keeps {fl : List StateField} {s₀ s₁ : State} (p : Nat) (hr : Reaching ⊆ fl)
    (hs : Keeps fl s₀ s₁) : Keeps fl s₀ (putArrivals p s₁) := by
  have hm := reaching_mem hr
  unfold putArrivals
  grind [← putRegion_keeps]

theorem dumpTraces_keeps {fl : List StateField} {s₀ s₁ : State} (p : Nat) (a : Nat) (hr : Reaching ⊆ fl)
    (hs : Keeps fl s₀ s₁) : Keeps fl s₀ (dumpTraces p a s₁) := by
  have hm := reaching_mem hr
  unfold dumpTraces
  grind [← Keeps.refl, ← Keeps.forEach, ← putRegion_keeps]

theorem closeCapsule_keeps {fl : List StateField} {s₀ s₁ : State} (p : Nat) (hr : Reaching ⊆ fl)
    (hs : Keeps fl s₀ s₁) : Keeps fl s₀ (closeCapsule p s₁) := by
  have hm := reaching_mem hr
  unfold closeCapsule
  grind [← putArrivals_keeps, ← dumpTraces_keeps, ← putRegion_keeps, ← Keeps.onPart]

theorem startRun_keeps {fl : List StateField} {s₀ s₁ : State} (p : Nat) (hr : Reaching ⊆ fl)
    (hs : Keeps fl s₀ s₁) : Keeps fl s₀ (startRun p s₁) := by
  have hm := reaching_mem hr
  unfold startRun
  grind [← setRun_keeps]

theorem putProvenance_keeps {fl : List StateField} {s₀ s₁ : State} (p : Nat) (i : Nat) (hr : Reaching ⊆ fl)
    (hs : Keeps fl s₀ s₁) : Keeps fl s₀ (putProvenance p i s₁) := by
  have hm := reaching_mem hr
  unfold putProvenance
  grind [← putRegion_keeps]

theorem commitRun_keeps {fl : List StateField} {s₀ s₁ : State} (p : Nat) (hr : Reaching ⊆ fl)
    (hs : Keeps fl s₀ s₁) : Keeps fl s₀ (commitRun p s₁).2 := by
  have hm := reaching_mem hr
  unfold commitRun
  grind [← Keeps.refl, ! ⇒ rehash_keeps, ← Keeps.onPart, ← setRun_keeps, ← putArrivals_keeps, ← Keeps.forEach, ←
    putProvenance_keeps]

/-! ### StepReplay -/

theorem readCapsule_keeps {fl : List StateField} {s₀ s₁ : State} (p : Nat) (k : Nat) (hr : Reaching ⊆ fl)
    (hs : Keeps fl s₀ s₁) : Keeps fl s₀ (readCapsule p k s₁).2 := by
  have hm := reaching_mem hr
  unfold readCapsule
  grind [! ⇒ relRead_keeps]

theorem compareTraces_keeps {fl : List StateField} {s₀ s₁ : State} (p : Nat) (k : Nat) (c : List Byte)
    (hr : Reaching ⊆ fl)
    (hs : Keeps fl s₀ s₁) : Keeps fl s₀ (compareTraces p k c s₁).2 := by
  have hm := reaching_mem hr
  unfold compareTraces
  grind [! ⇒ memReads_keeps, ← putRegion_keeps]

theorem stepVerdict_keeps {fl : List StateField} {s₀ s₁ : State} (p : Nat) (hr : Reaching ⊆ fl)
    (hs : Keeps fl s₀ s₁) : Keeps fl s₀ (stepVerdict p s₁) := by
  have hm := reaching_mem hr
  unfold stepVerdict
  grind [! ⇒ readCapsule_keeps, ! ⇒ compareTraces_keeps, ← Keeps.onPart]

/-! ### Modules -/

theorem startCores_keeps {fl : List StateField} {s₀ s₁ : State} (p : Nat) (n : Nat) (at' : Nat → Nat) (h_cells : .cells ∈ fl)
    (h_parts : .parts ∈ fl)
    (hs : Keeps fl s₀ s₁) : Keeps fl s₀ (startCores p n at' s₁) := by
  unfold startCores
  grind [← Keeps.refl, ← Keeps.forEach, ← Keeps.onCell, ← Keeps.onPart]

theorem failLoad_keeps {fl : List StateField} {s₀ s₁ : State} (p : Nat) (status : Nat) (reason : Nat)
    (h_parts : .parts ∈ fl) (h_eop : .eop ∈ fl) (h_out : .out ∈ fl)
    (hs : Keeps fl s₀ s₁) : Keeps fl s₀ (failLoad p status reason s₁) := by
  unfold failLoad
  grind [← notify_keeps, ← Keeps.onPart]

theorem loadCells_keeps {fl : List StateField} {s₀ s₁ : State} (i : Image) (cells : List Nat) (codes : List CellCode)
    (h_cells : .cells ∈ fl)
    (hs : Keeps fl s₀ s₁) : Keeps fl s₀ (loadCells i cells codes s₁) := by
  unfold loadCells
  grind [← Keeps.refl, ← Keeps.forEach, ← Keeps.onCell]

theorem loadImage_keeps {fl : List StateField} {s₀ s₁ : State} (p : Nat) (i : Image) (hr : Reaching ⊆ fl)
    (hs : Keeps fl s₀ s₁) : Keeps fl s₀ (loadImage p i s₁) := by
  have hm := reaching_mem hr
  have hp := hm.2.2.2.2.1
  have he := hm.2.2.2.2.2.2.2.2.1
  have ho := hm.2.2.2.2.2.2.2.2.2.2.2.2
  unfold loadImage
  refine Keeps.ite (fun _ => failLoad_keeps _ _ _ hp he ho hs) (fun _ => ?_)
  refine Keeps.ite (fun _ => failLoad_keeps _ _ _ hp he ho hs) (fun _ => ?_)
  split
  · exact failLoad_keeps _ _ _ hp he ho hs
  · have h := fun cells codes f =>
      loadDet_keeps p hr (Keeps.onPart (p := p) (f := f) hp (loadCells_keeps i cells codes hm.2.2.2.1 hs))
    exact Keeps.ite (fun _ => notify_keeps _ _ _ _ hp he ho (h _ _ _)) (fun _ => h _ _ _)

/-! ### Contexts -/

theorem endRestore_keeps {fl : List StateField} {s₀ s₁ : State} (p : Nat) (status : Nat) (reason : Option Nat) (a : Nat)
    (h_parts : .parts ∈ fl) (h_eop : .eop ∈ fl) (h_out : .out ∈ fl)
    (hs : Keeps fl s₀ s₁) : Keeps fl s₀ (endRestore p status reason a s₁) := by
  unfold endRestore
  grind [← notify_keeps, ← Keeps.onPart]

theorem readBody_keeps {fl : List StateField} {s₀ s₁ : State} (p a h : Nat) (hr : Reaching ⊆ fl)
    (hs : Keeps fl s₀ s₁) : Keeps fl s₀ (readBody s₁ p a h).2 := by
  unfold readBody
  exact Keeps.ite_snd (fun _ => hs) (fun _ => relRead_keeps _ _ _ hr hs)

theorem voidContents_keeps {fl : List StateField} {s₀ s₁ : State} (p : Nat) (h_mem : .mem ∈ fl) (h_free : .free ∈ fl)
    (hs : Keeps fl s₀ s₁) : Keeps fl s₀ (voidContents p s₁) := by
  unfold voidContents
  grind [← Keeps.refl, ← Keeps.forEach, ← freeBytes_keeps]

theorem setContext_keeps {fl : List StateField} {s₀ s₁ : State} (p : Nat) (h : Nat) (body : List Byte)
    (hr : Reaching ⊆ fl)
    (hs : Keeps fl s₀ s₁) : Keeps fl s₀ (setContext p h body s₁) := by
  have hm := reaching_mem hr
  unfold setContext
  grind [← Keeps.refl, ← Keeps.forEach, ← State.onCore_keeps, ← Keeps.onPart, ← setRun_keeps]

theorem resumeReplay_keeps {fl : List StateField} {s₀ s₁ : State} (p : Nat) (n : Nat) (resume : Bool)
    (h_cells : .cells ∈ fl) (h_parts : .parts ∈ fl)
    (hs : Keeps fl s₀ s₁) : Keeps fl s₀ (resumeReplay p n resume s₁) := by
  unfold resumeReplay
  grind [← startCores_keeps]

/-! ### Determinism -/

theorem sendRemote_keeps {fl : List StateField} {s₀ s₁ : State} (p : Nat) (payload : List Byte) (h_out : .out ∈ fl)
    (hs : Keeps fl s₀ s₁) : Keeps fl s₀ (sendRemote p payload s₁) := by
  unfold sendRemote
  grind [← sendClass0_keeps]

theorem cupPass_keeps {fl : List StateField} {s₀ s₁ : State} (send : Nat → List Byte → State → State) (p : Nat)
    (point : BitVec 64) (hsend : ∀ y0 y1 u, Keeps fl u (send y0 y1 u)) (h_cells : .cells ∈ fl) (h_parts : .parts ∈ fl)
    (hs : Keeps fl s₀ s₁) : Keeps fl s₀ (cupPass send p point s₁) := by
  have hsend' : ∀ y0 y1 u, Keeps fl s₀ u → Keeps fl s₀ (send y0 y1 u) := fun _ _ _ h => h.trans (hsend _ _ _)
  unfold cupPass
  grind [← Keeps.refl, ← releaseCores_keeps, ← emptyTraces_keeps, ← Keeps.onPart]

theorem cupFail_keeps {fl : List StateField} {s₀ s₁ : State} (p : Nat) (hf : .free ∈ fl) (hr : Reaching ⊆ fl)
    (hs : Keeps fl s₀ s₁) : Keeps fl s₀ (cupFail p s₁) := by
  have hm := reaching_mem hr
  unfold cupFail
  grind [← Keeps.onPart, ← dumpTraces_keeps, ← notify_keeps, ← haltPartition_keeps]

theorem cupJudge_keeps {fl : List StateField} {s₀ s₁ : State} (send : Nat → List Byte → State → State) (p : Nat)
    (point : BitVec 64) (payload : List Byte) (hsend : ∀ y0 y1 u, Keeps fl u (send y0 y1 u)) (hf : .free ∈ fl) (hr :
        Reaching ⊆ fl)
    (hs : Keeps fl s₀ s₁) : Keeps fl s₀ (cupJudge send p point payload s₁) := by
  have hm := reaching_mem hr
  have hsend' : ∀ y0 y1 u, Keeps fl s₀ u → Keeps fl s₀ (send y0 y1 u) := fun _ _ _ h => h.trans (hsend _ _ _)
  unfold cupJudge
  grind [← Keeps.refl, ← cupPass_keeps, ← cupFail_keeps]

theorem takeDigest_keeps {fl : List StateField} {s₀ s₁ : State} (send : Nat → List Byte → State → State) (p : Nat)
    (payload : List Byte) (hsend : ∀ y0 y1 u, Keeps fl u (send y0 y1 u)) (hf : .free ∈ fl) (hr : Reaching ⊆ fl)
    (hs : Keeps fl s₀ s₁) : Keeps fl s₀ (takeDigest send p payload s₁) := by
  have hm := reaching_mem hr
  have hsend' : ∀ y0 y1 u, Keeps fl s₀ u → Keeps fl s₀ (send y0 y1 u) := fun _ _ _ h => h.trans (hsend _ _ _)
  unfold takeDigest
  grind [← Keeps.refl, ← Keeps.onPart, ← cupJudge_keeps]

theorem replyCup_keeps {fl : List StateField} {s₀ s₁ : State} (p : Nat) (payload : List Byte) (hf : .free ∈ fl)
    (hr : Reaching ⊆ fl) (hs : Keeps fl s₀ s₁) : Keeps fl s₀ (replyCup p payload s₁) := by
  have hm := reaching_mem hr
  unfold replyCup
  split
  · exact takeDigest_keeps _ _ _ (fun _ _ u => .refl _ u) hf hr hs
  · exact sendRemote_keeps _ _ hm.2.2.2.2.2.2.2.2.2.2.2.2 hs

theorem sendCup_keeps {fl : List StateField} {s₀ s₁ : State} (p : Nat) (payload : List Byte) (hf : .free ∈ fl)
    (hr : Reaching ⊆ fl) (hs : Keeps fl s₀ s₁) : Keeps fl s₀ (sendCup p payload s₁) := by
  have hm := reaching_mem hr
  unfold sendCup
  split
  · exact takeDigest_keeps _ _ _ (fun _ _ u => replyCup_keeps _ _ hf hr (.refl _ u)) hf hr hs
  · exact sendRemote_keeps _ _ hm.2.2.2.2.2.2.2.2.2.2.2.2 hs

theorem cupPoint_keeps {fl : List StateField} {s₀ s₁ : State} (p : Nat) (hf : .free ∈ fl) (hr : Reaching ⊆ fl)
    (hs : Keeps fl s₀ s₁) : Keeps fl s₀ (cupPoint p s₁) := by
  have hp := (reaching_mem hr).2.2.2.2.1
  have h := fun b g => sendCup_keeps p b hf hr (Keeps.onPart (p := p) (f := g) hp hs)
  unfold cupPoint
  dsimp only
  split
  · exact Keeps.ite (fun _ => cupJudge_keeps _ _ _ _ (fun _ _ u => replyCup_keeps _ _ hf hr (.refl _ u)) hf hr
      (Keeps.onPart hp (h _ _))) (fun _ => h _ _)
  · exact h _ _

theorem onCup_keeps {fl : List StateField} {s₀ s₁ : State} (port : Nat) (kind : Nat) (f : VrtFrame)
    (k : Nat → List Byte → State → State) (hk : ∀ y0 y1 u, Keeps fl u (k y0 y1 u)) (h_parts : .parts ∈ fl) (h_ports :
        .ports ∈ fl) (h_out : .out ∈ fl)
    (hs : Keeps fl s₀ s₁) : Keeps fl s₀ (onCup port kind f k s₁) := by
  have hk' : ∀ y0 y1 u, Keeps fl s₀ u → Keeps fl s₀ (k y0 y1 u) := fun _ _ _ h => h.trans (hk _ _ _)
  unfold onCup
  grind [← Keeps.refl, ← onFrame_keeps]

theorem endStep_keeps {fl : List StateField} {s₀ s₁ : State} (p : Nat) (status : Nat) (h_parts : .parts ∈ fl)
    (hs : Keeps fl s₀ s₁) : Keeps fl s₀ (endStep p status s₁) := by
  unfold endStep
  grind [← Keeps.onPart]

theorem startStep_keeps {fl : List StateField} {s₀ s₁ : State} (p : Nat) (c : List Byte) (hr : Reaching ⊆ fl)
    (hs : Keeps fl s₀ s₁) : Keeps fl s₀ (startStep p c s₁) := by
  have hm := reaching_mem hr
  unfold startStep
  grind [← Keeps.refl, ← Keeps.forEach, ← State.onCore_keeps, ← Keeps.onPart, ← startCores_keeps, ← startRun_keeps]

/-! ### Eop -/

theorem openSession_keeps {fl : List StateField} {s₀ s₁ : State} (r : EopReq) (h_eop : .eop ∈ fl) (h_out : .out ∈ fl)
    (h_free : .free ∈ fl)
    (hs : Keeps fl s₀ s₁) : Keeps fl s₀ (openSession r s₁) := by
  unfold openSession
  grind [! ⇒ draw_keeps, ← Keeps.onEop, ← sendM_keeps]

theorem countFailure_keeps {fl : List StateField} {s₀ s₁ : State} (p : Nat) (h_eop : .eop ∈ fl)
    (hs : Keeps fl s₀ s₁) : Keeps fl s₀ (countFailure p s₁) := by
  unfold countFailure
  grind [← Keeps.onEop]

/-! ### Stacks -/

theorem scrubWords_keeps {fl : List StateField} {s₀ s₁ : State} (l : List Nat) (hr : Reaching ⊆ fl)
    (hs : Keeps fl s₀ s₁) : Keeps fl s₀ (scrubWords l s₁) := by
  have hm := reaching_mem hr
  unfold scrubWords
  grind [← Keeps.refl, ← Keeps.forEach, ! ⇒ checkWord_keeps, ← checkWord_keeps]

theorem scrubGranule_keeps {fl : List StateField} {s₀ s₁ : State} (st : Nat) (a : Nat) (d : DramPos) (hr : Reaching ⊆ fl)
    (hs : Keeps fl s₀ s₁) : Keeps fl s₀ (scrubGranule st a d s₁) := by
  have hm := reaching_mem hr
  unfold scrubGranule
  grind [← scrubWords_keeps]

theorem scrubData_keeps {fl : List StateField} {s₀ s₁ : State} (st : Nat) (hr : Reaching ⊆ fl)
    (hs : Keeps fl s₀ s₁) : Keeps fl s₀ (scrubData st s₁) := by
  have hm := reaching_mem hr
  unfold scrubData
  grind [← Keeps.onStack, ← scrubGranule_keeps]

theorem scrubSteward_keeps {fl : List StateField} {s₀ s₁ : State} (st : Nat) (hr : Reaching ⊆ fl)
    (hs : Keeps fl s₀ s₁) : Keeps fl s₀ (scrubSteward st s₁) := by
  have hm := reaching_mem hr
  unfold scrubSteward
  grind [← Keeps.onStack, ← scrubGranule_keeps]

theorem onChan_keeps {fl : List StateField} {s₀ s₁ : State} (st : Nat) (ch : Nat) (f : Chan → Chan)
    (h_drams : .drams ∈ fl)
    (hs : Keeps fl s₀ s₁) : Keeps fl s₀ (onChan st ch f s₁) := by
  unfold onChan
  grind [← Keeps.onStack]

end Sys2Proof.Machine
end

