-- ==== Sys2Proof/WellFormed.lean ====
section
/-! DEFINITION. When the operands of a command agree with its row: the shape of a datagram (11 R312, R313),
the shape and the type of a frame (10 R283, R285), and the entry a write row is for. A command that is not
well-formed is still given a meaning by `exec`; this predicate says which commands stand for their row. -/

set_option Elab.async false

namespace Sys2Proof

/-- A datagram of at most 1,080 bytes whose missing bytes, if any, are missing from the tag (11 R312, R313). -/
def EopReq.wf (r : EopReq) : Bool :=
  decide (r.data.length ≤ 1048) &&
  (decide (r.tag.length = 16) || (decide (r.tag.length < 16) && r.data.isEmpty))

/-- A request for one entry, by index and subindex. -/
def EopReq.isFor (r : EopReq) (index sub : Nat) : Bool :=
  decide (r.index.toNat = index) && decide (r.sub.toNat = sub)

/-- A request for one entry of a range of indices. -/
def EopReq.inRange (r : EopReq) (lo hi : Nat) : Bool :=
  decide (lo ≤ r.index.toNat) && decide (r.index.toNat ≤ hi)

/-- A frame with a payload of at most 4,096 bytes, at most 256 in class 0 (10 R283, R285), of one type. -/
def VrtFrame.wf (f : VrtFrame) (type : Nat) : Bool :=
  decide (f.type.toNat = type) &&
  decide (f.payload.length ≤ (if f.cls = 0 then 256 else 4096))

/-- A list of bits shifted into the test access port: not empty (01 R47). -/
def shiftWf (tdi : List Bool) : Bool := !tdi.isEmpty

/-- The failing parts of a data-mover command: each part named once (09 R269). -/
def failsWf (l : List PartFail) : Bool := decide (l.map PartFail.part).Nodup

/-- An upset: a column of a held tile, two nibbles, and an error of an 18-bit sum that is not zero (04 R126). -/
def Upset.wf (u : Upset) : Bool :=
  decide (u.col < 512) && decide (u.a < 4) && decide (u.b < 4) && decide (u.delta ≠ 0)

/-- Whether the operands of a command stand for its row. -/
def Instr.wf : Instr → Bool
  | .jtagBypass t | .jtagIdcode t | .jtagSamplePreload t | .jtagExtest t => shiftWf t.tdi
  | .slotBegin _ _ _ u => match u with | none => true | some u => u.wf
  | .copy _ l | .gather _ l | .scatter _ l | .dmAdd _ l | .mxImport _ l | .mxExport _ l | .fill _ l
  | .orderedAddApply _ _ l => failsWf l
  | .contextSaveRequest r => r.wf && r.isFor 0x6020 1
  | .restore r => r.wf && r.isFor 0x6020 2
  | .replayStart r => r.wf && r.isFor 0x6050 1
  | .moduleLoad r => r.wf && r.isFor 0x6010 1
  | .stepReplay r => r.wf && r.isFor 0x9040 2
  | .seedWrite r => r.wf && r.isFor 0x9010 1
  | .flipMaskWrite r => r.wf && r.isFor 0x4050 (r.sub.toNat)
  | .logClear r => r.wf && r.isFor 0x4012 (r.sub.toNat)
  | .portRestart r => r.wf && (r.isFor 0x5100 7 || r.isFor 0x5200 7)
  | .insert none => true
  | .insert (some r) => r.wf && r.isFor 0x5000 4
  | .remove r => r.wf && r.isFor 0x5000 4
  | .groupListWrite r => r.wf && r.isFor 0x5600 (r.sub.toNat)
  | .cuppingConfigWrite r => r.wf && (r.isFor 0x9020 1 || r.isFor 0x9030 1 || r.isFor 0x9040 1)
  | .keyWrite r => r.wf && r.isFor 0x2020 (r.sub.toNat)
  | .partitionDefinitionWrite r => r.wf && r.isFor 0x2010 (r.sub.toNat)
  | .partitionReset (.request r) => r.wf && r.isFor 0x2040 (r.sub.toNat)
  | .counterClear r => r.wf && r.isFor 0xA020 7
  | .cellProof r => r.wf && r.isFor 0x7020 1
  | .channelTest r => r.wf && r.isFor 0x7020 2
  | .capWrite r => r.wf && (r.isFor 0x3000 1 || r.isFor 0x3000 2)
  | .read r | .write r | .segRead r | .segWrite r | .sessionOpen r | .sessionProve r | .sessionClose r
  | .notifyAck r | .attest r => r.wf
  | .data _ f => f.wf 0
  | .credit _ f => f.wf 1
  | .lack _ f => f.wf 2
  | .sack _ f => f.wf 3
  | .cseg _ f => f.wf 4
  | .cctlReady _ f | .cctlAbortReq _ f | .cctlCommit _ f | .cctlAbort _ f => f.wf 5
  | .probe _ f | .probeReply _ f | .leave _ f => f.wf 6
  | .desc _ f => f.wf 7
  | .done _ f => f.wf 8
  | .barrierFrame _ f => f.wf 9
  | .cuppingDigest _ f | .cuppingEnd _ f => f.wf 6
  | _ => true

end Sys2Proof
end

