-- ==== Sys2Proof/Tests/Slice0.lean ====
section
/-! SUPPORT. The model's own tests: the checks of `Instr.wf`, values worked out by hand from the spec, and for each
statement with hypotheses a state and operands that meet them. -/

open Sys2Proof Sys2Proof.Machine Sys2Proof.Claims

namespace Sys2Proof.Tests

set_option Elab.async false

/-! ### States the tests start from -/

/-- A device past boot order 12. -/
def ready : State :=
  State.reset.onDev fun d => { d with porstN := true, resetPending := false, devState := 1, bootOrder := 12 }

/-- A device whose partition 1 owns cell 0 and stack 0 and runs. -/
def owned : State :=
  (ready.onNv fun n => { n with defs := n.defs.set 1 (BitVec.ofNat 512 (1 + 2 ^ 64 + 2 ^ 96 + 2 ^ 104 + 2 ^ 112 + 2 ^ 120)) }).onPart 1 fun q => { q with st := 1 }

/-- The control core of cell 0 at an instruction. -/
def coreAt (w : BitVec 32) : State :=
  owned.onCell 0 fun x => { x with core := { x.core with imem := [w], tmpl := [5], run := .running } }

/-- An R-format word (07 R188): opcode, rd, rs1, rs2. -/
def rWord (op rd rs1 rs2 : Nat) : BitVec 32 := BitVec.ofNat 32 (op * 2 ^ 26 + rd * 2 ^ 21 + rs1 * 2 ^ 16 + rs2 * 2 ^ 11)

theorem test_reset_wf : State.reset.wf = true := by decide

/-! ### Witnesses: pins, rails, boot -/

/-- The device held in reset before its boot, with slot 0 a candidate that verifies. -/
def booting : State :=
  State.reset.onDev fun d => { d with porstN := true, resetPending := true, devState := 0 }

theorem test_empty_queue : (State.reset).pending = [] := by decide

theorem test_causes_apply :
    outOfReset ready = true ∧ flag ready.dev.actedRails (railNumber .cellN) = false ∧ RailName.cellN ≠ RailName.nv ∧
    ready.dev.actedRef = false ∧ ready.dev.powered = true ∧ ready.dev.thermLatched = false := by decide +kernel

theorem test_bootTimeout_applies :
    let s := booting.onDev fun d => { d with resetPending := false }
    outOfReset s = true ∧ s.dev.resetPending = false ∧ s.dev.devState = 0 := by decide +kernel

theorem test_bypass_clauses :
    outOfReset ready = true ∧ ready.dev.bypCmd = false ∧ ¬(true = ready.dev.bypCmd ∧ false = ready.dev.bypCmd) := by
  decide +kernel

/-- A command in a device whose by-pass fault is latched. -/
theorem test_bypass_fault_held :
    let s := ready.onDev fun d => { d with bypFault := true }
    s.dev.bypFault = true ∧ s.dev.bypCmd = false ∧ ∃ t, exec .refclkRestored s = .next t :=
  ⟨rfl, rfl, _, rfl⟩

theorem test_pins_apply :
    (State.reset.onDev fun d => { d with powered := false }).dev.powered = false ∧
    State.reset.dev.powered = true ∧ State.reset.dev.porstN = false ∧ State.reset.dev.thermLatched = false ∧
    ready.dev.devState = 1 ∧ (ready.onDev fun d => { d with bypCmd := true }).dev.bypCmd = true ∧
    (ready.port 0).st = 0 ∧ ((ready.onPort 0 fun q => { q with st := 2 }).port 0).st ≠ 0 := by decide +kernel

theorem test_tap_applies :
    tapWorks ready = true ∧ tapWorks booting = true ∧ ready.jtag.idcode = 0x1D04A4B3 ∧ (List.replicate 32 true).length = 32 ∧
    (List.replicate 9 true).length = (landLevels ready).length := by decide +kernel

theorem test_sensed_applies :
    let s := ready.onDev fun d => { d with bypCmd := true }
    State.reset.dev.porstN = false ∧ s.dev.powered = true ∧ s.dev.porstN = true ∧ s.dev.bypCmd = true ∧
    (s.port 0).up = false ∧ ((s.onPort 0 fun q => { q with st := 3 }).port 0).up = true := by decide +kernel

/-- A firmware image with no component, version 5, minimum 3, whose signature is of leaf 0 with zeros for the rest (12 R337). -/
def image : List Byte :=
  beBytes 192 (0x565A4657 * 2 ^ 1504 + 2 ^ 1488 + 0x4230 * 2 ^ 1472 + 5 * 2 ^ 1440 + 3 * 2 ^ 1408 +
    sha256 [] * (2 ^ 1024 + 2 ^ 768 + 2 ^ 512 + 2 ^ 256)) ++
  beBytes 4 0 ++ beBytes 4 4 ++ zeros 1120 ++ beBytes 4 8 ++ zeros 640 ++ zeros 20

/-- The vendor key under which that signature holds: types 8 and 4, identifier 0, the root it leads to. -/
def vendorKey : List Byte :=
  beBytes 4 8 ++ beBytes 4 4 ++ zeros 16 ++ lmsRoot 20 (zeros 16) (slice image 192 1772) (image.take 192)

theorem sha256Bytes_length (m : List Byte) : (sha256Bytes m).length = 32 := by simp [sha256Bytes]

theorem lmsClimb_length (ident : List Byte) (l : List (List Byte)) (n : Nat) (t : List Byte) (h : t.length = 32) :
    (lmsClimb ident l n t).length = 32 := by
  induction l generalizing n t with
  | nil => exact h
  | cons p r ih => exact ih _ _ (by split <;> exact sha256Bytes_length _)

theorem vendorKey_length : vendorKey.length = 56 := by
  have h : (lmsRoot 20 (zeros 16) (slice image 192 1772) (image.take 192)).length = 32 :=
    lmsClimb_length _ _ _ _ (sha256Bytes_length _)
  simp only [vendorKey, List.length_append, beBytes_length]
  rw [h]
  rfl

theorem keyBytes (k : List Byte) (hk : k.length = 56) : beBytes 56 (BitVec.ofNat 448 (beNat k)).toNat = k := by
  have h := beBytes_beNat k
  rw [hk] at h
  have hlt : beNat k < 2 ^ 448 := by
    rw [beNat_eq]
    have := leNat_lt k.reverse
    rw [List.length_reverse, hk] at this
    exact this
  rw [BitVec.toNat_ofNat, Nat.mod_eq_of_lt hlt, h]

/-- The fields of a key of types 8 and 4 with identifier 0 and root r. -/
theorem keyFields (r : List Byte) :
    let k := beBytes 4 8 ++ beBytes 4 4 ++ zeros 16 ++ r
    k.take 4 = beBytes 4 8 ∧ slice k 4 4 = beBytes 4 4 ∧ (r.length = 32 → slice k 8 16 = zeros 16) ∧ k.drop 24 = r :=
  ⟨rfl, rfl, fun _ => rfl, rfl⟩

theorem signature_fields :
    (slice image 192 1772).length = 1772 ∧ beNat (slice (slice image 192 1772) 4 4) = 4 ∧
    beNat (slice (slice image 192 1772) 1128 4) = 8 ∧ beNat ((slice image 192 1772).take 4) = 0 := by decide +kernel

/-- A signature verifies under the key that holds the root it leads to. -/
theorem rootVerifies (sig msg : List Byte) (h : sig.length = 1772 ∧ beNat (slice sig 4 4) = 4 ∧
    beNat (slice sig 1128 4) = 8 ∧ beNat (sig.take 4) = 0) :
    lmsVerify 8 20 (beBytes 4 8 ++ beBytes 4 4 ++ zeros 16 ++ lmsRoot 20 (zeros 16) sig msg) sig msg = true := by
  have hr : (lmsRoot 20 (zeros 16) sig msg).length = 32 := lmsClimb_length _ _ _ _ (sha256Bytes_length _)
  obtain ⟨h1, h2, h3, h4⟩ := keyFields (lmsRoot 20 (zeros 16) sig msg)
  have hl : (beBytes 4 8 ++ beBytes 4 4 ++ zeros 16 ++ lmsRoot 20 (zeros 16) sig msg).length = 56 := by
    simp only [List.length_append, beBytes_length]
    rw [hr]
    rfl
  simp only [lmsVerify, hl, h1, h2, h3 hr, h4, h, beNat_beBytes]
  decide

theorem vendorKey_verifies : lmsVerify 8 20 vendorKey (slice image 192 1772) (image.take 192) = true :=
  rootVerifies _ _ signature_fields

/-- The device with that key, the image in slot 0. -/
def bootable : State :=
  { (booting.onNv fun n => { n with slots := vmod n.slots 0 fun f => { f with image := image } }) with
    fuse := { booting.fuse with vendorKey := BitVec.ofNat 448 (beNat vendorKey) } }

theorem image_sound :
    (List.range 4).all (partValid image) = true ∧ imageMinVer image = 3 ∧ imageVersion image = 5 ∧
    imageField image 1535 1504 = 0x565A4657 ∧ imageField image 1503 1488 = 1 ∧ imageField image 1487 1472 = 0x4230 ∧
    imageLens image = [0, 0, 0, 0] ∧ imageField image 255 0 = 0 := by decide +kernel

theorem image_verifies : slotFault bootable 0 = none := by
  obtain ⟨hp, hm, hv, h1, h2, h3, h4, h5⟩ := image_sound
  have hh : headerValid (BitVec.ofNat 448 (beNat vendorKey)) 0 image = true := by
    have hb := keyBytes _ vendorKey_length
    generalize BitVec.ofNat 448 (beNat vendorKey) = key at hb ⊢
    simp [headerValid, hm, hv, h1, h2, h3, h4, h5, hb, vendorKey_verifies]
  have hi : (bootable.slot 0).image = image := rfl
  have hk : bootable.fuse.vendorKey = BitVec.ofNat 448 (beNat vendorKey) := rfl
  have hr : bootable.nv.rollbackMin.toNat = 0 := rfl
  have hp' : partValid image 0 = true ∧ partValid image 1 = true ∧ partValid image 2 = true ∧ partValid image 3 = true := by
    simpa [List.range_succ] using hp
  simp [slotFault, imageFault, hi, hk, hr, hh, hp']

theorem test_boot_applies :
    let s := bootable
    outOfReset s = true ∧ s.dev.refclkOk = true ∧ s.dev.railBad = 0 ∧ s.dev.resetPending = true ∧
    s.nv.stwResets.toNat < 2 ∧ s.nv.noReady.toNat < 3 ∧ s.dev.vrAlertN = true ∧ s.nv.units = [] ∧
    8 ≤ popCount s.fuse.enabled ∧ (s.slot 0).trial = false ∧ (s.slot 1).trial = false ∧ s.dev.devState = 0 ∧
    candidates s = [0] ∧ slotFault s 0 = none := by
  refine ⟨by decide +kernel, by decide +kernel, by decide +kernel, by decide +kernel, by decide +kernel, by decide +kernel,
    by decide +kernel, by decide +kernel, by decide +kernel, by decide +kernel, by decide +kernel, by decide +kernel,
    by decide +kernel, image_verifies⟩

theorem test_husk_applies :
    let s := booting.onNv fun n => { n with stwResets := 2 }
    let u := booting.onNv fun n => { n with noReady := 3 }
    outOfReset s = true ∧ s.dev.refclkOk = true ∧ s.dev.railBad = 0 ∧ s.dev.resetPending = true ∧
    s.dev.tripToRecord = false ∧ 2 ≤ s.nv.stwResets.toNat ∧
    outOfReset u = true ∧ u.dev.refclkOk = true ∧ u.dev.railBad = 0 ∧ u.dev.resetPending = true ∧
    u.dev.tripToRecord = false ∧ u.nv.stwResets.toNat < 2 ∧ 3 ≤ u.nv.noReady.toNat := by decide +kernel

theorem test_ready_applies :
    let s := booting.onDev fun d => { d with slot := some 0, bootOrder := 11 }
    let u := ready.onDev fun d => { d with hourArmed := true }
    s.dev.slot = some 0 ∧ s.dev.bootOrder = 11 ∧ s.dev.devState = 0 ∧ u.dev.hourArmed = true ∧ u.dev.devState = 1 := by
  decide +kernel

/-! ### Witnesses: control core -/

/-- One legal word for each register instruction, with the highest register numbers. -/
theorem test_register_words :
    ∀ r ∈ aluTable 0, Runs 0 (rWord r.2.1 31 30 29) (coreAt (rWord r.2.1 31 30 29)) ∧
      opcodeOf (rWord r.2.1 31 30 29) = r.2.1 := by unfold Runs; decide +kernel

/-- One legal word for each immediate instruction, MOVK and PRD among them. -/
theorem test_immediate_words :
    (∀ r ∈ immTable 0, Runs 0 (rWord r.2.1 0 31 0 + 63) (coreAt (rWord r.2.1 0 31 0 + 63)) ∧
      opcodeOf (rWord r.2.1 0 31 0 + 63) = r.2.1) ∧
    Runs 0 (rWord 0x17 1 3 0 + 0xFFFF) (coreAt (rWord 0x17 1 3 0 + 0xFFFF)) ∧ opcodeOf (rWord 0x17 1 3 0) = 0x17 ∧
    Runs 0 (rWord 0x18 1 0 0 + 127) (coreAt (rWord 0x18 1 0 0 + 127)) ∧ opcodeOf (rWord 0x18 1 0 0) = 0x18 := by
  unfold Runs; decide +kernel

/-- One legal word for each branch and jump. -/
theorem test_branch_words :
    (∀ r ∈ branchTable 0, Runs 0 (rWord r.2.1 1 2 0 + 5) (coreAt (rWord r.2.1 1 2 0 + 5)) ∧
      opcodeOf (rWord r.2.1 1 2 0 + 5) = r.2.1) ∧
    Runs 0 (rWord 0x26 0 0 0 + 16383) (coreAt (rWord 0x26 0 0 0 + 16383)) ∧
    opcodeOf (rWord 0x26 0 0 0 + 16383) = 0x26 ∧
    Runs 0 (rWord 0x27 0 1 0) (coreAt (rWord 0x27 0 1 0)) ∧ opcodeOf (rWord 0x27 0 1 0) = 0x27 := by
  unfold Runs; decide +kernel

/-! ### Witnesses: pushes, check points, command words -/

theorem test_push_applies :
    Runs 0 (rWord 0x32 0 0 0) (coreAt (rWord 0x32 0 0 0)) ∧ opcodeOf (rWord 0x32 0 0 0) = 0x32 ∧
    pushWaits ((coreAt (rWord 0x32 0 0 0)).cell 0) 0 = false ∧
    Runs 0 (rWord 0x32 16 0 0) (coreAt (rWord 0x32 16 0 0)) ∧ fld (rWord 0x32 16 0 0) 25 23 = 4 := by
  unfold Runs; decide +kernel

/-- A command of queue 4. -/
def entry (w : BitVec 256) : QEntry := ⟨w, 1, false, none, none, none, 0⟩

theorem test_push_waits :
    let s := (coreAt (rWord 0x32 16 0 0)).onCell 0 fun x => { x with queues := x.queues.set 4 (List.replicate 512 (entry 0)) }
    Runs 0 (rWord 0x32 16 0 0) s ∧ pushWaits (s.cell 0) 4 = true := by
  unfold Runs; decide +kernel

/-- A check point on command 7 of queue 0. -/
def checkPoint : CheckPoint :=
  ⟨0, 7, 0, 0, Vector.replicate 32 0, 0, none, none, 0, 0⟩

/-- A core at a CHKP of queue 4, with n check points open. -/
def atChkp (n : Nat) : State :=
  (coreAt (rWord 0x34 18 0 0 + 9)).onCell 0 fun x => { x with core := { x.core with
    snaps := List.replicate n checkPoint, lastPush := x.core.lastPush.set 4 (some ⟨7, none, false⟩) } }

theorem test_chkp_applies :
    let w := rWord 0x34 18 0 0 + 9
    Runs 0 w (atChkp 7) ∧ opcodeOf w = 0x34 ∧ ((atChkp 7).cell 0).core.snaps.length < 8 ∧
    vget ((atChkp 7).cell 0).core.lastPush (fld w 25 23) none = some ⟨7, none, false⟩ ∧
    Runs 0 w (atChkp 8) ∧ ((atChkp 8).cell 0).core.snaps.length = 8 := by
  unfold Runs; decide +kernel

/-- A core at a CHKP of queue 4 on a command that has completed with 5 saturated results, or was squashed. -/
def atLateChkp (t : BitVec 64) (squashed : Bool) : State :=
  owned.onCell 0 fun x => { x with core := { x.core with
    imem := [rWord 0x34 16 2 0 + 9], run := .running, g := Vector.replicate 32 t,
    lastPush := x.core.lastPush.set 4 (some ⟨7, some ⟨5, 0, 0⟩, squashed⟩) } }

theorem test_chkp_late :
    let w := rWord 0x34 16 2 0 + 9
    ∀ x ∈ [(atLateChkp 4 false, 4, false), (atLateChkp 5 false, 5, false), (atLateChkp 5 true, 5, true)],
      let s := x.1
      Runs 0 w s ∧ opcodeOf w = 0x34 ∧ (s.cell 0).core.snaps = [] ∧
      vget (s.cell 0).core.lastPush (fld w 25 23) none = some ⟨7, some ⟨5, 0, 0⟩, x.2.2⟩ ∧
      ((s.cell 0).core.greg (fld w 20 16)).toNat = x.2.1 ∧ selected (fld w 22 21) ⟨5, 0, 0⟩ = 5 := by
  unfold Runs; decide +kernel

/-- CINS g1 into the 64 highest bits of CW. -/
def insWord : BitVec 32 := BitVec.ofNat 32 (0x31 * 2 ^ 26 + 2 ^ 21 + 192 * 2 ^ 13 + 63 * 2 ^ 7)

theorem test_command_word_words :
    Runs 0 (rWord 0x30 0 0 0) (coreAt (rWord 0x30 0 0 0)) ∧ opcodeOf (rWord 0x30 0 0 0) = 0x30 ∧
    Runs 0 insWord (coreAt insWord) ∧ opcodeOf insWord = 0x31 ∧
    fld insWord 20 13 + fld insWord 12 7 + 1 = 256 ∧
    Runs 0 (rWord 0x33 1 31 0) (coreAt (rWord 0x33 1 31 0)) ∧ opcodeOf (rWord 0x33 1 31 0) = 0x33 := by
  unfold Runs; decide +kernel

theorem test_mark_halt_apply :
    ∀ op ∈ [0x35, 0x28], Runs 0 (rWord op 0 0 0) (coreAt (rWord op 0 0 0)) ∧ opcodeOf (rWord op 0 0 0) = op ∧
      ((coreAt (rWord op 0 0 0)).cell 0).core.snaps = [] ∧ allCommands ((coreAt (rWord op 0 0 0)).cell 0) = [] ∧
      Runs 0 (rWord op 0 0 0) ((coreAt (rWord op 0 0 0)).onCell 0 fun x => { x with queues := x.queues.set 0 [entry 0] }) := by
  unfold Runs; decide +kernel

theorem test_illegal_applies :
    (coreAt 0xFFFFFFFF).works (0 : Fin 34) = some 1 ∧ atIllegal ((coreAt 0xFFFFFFFF).cell (0 : Fin 34)).core = true ∧
    atRest ((coreAt 0xFFFFFFFF).cell (0 : Fin 34)) = true ∧
    atRest ((atChkp 1).cell (0 : Fin 34)) = false := by decide +kernel

theorem test_squash_applies :
    let s := owned.onCell 0 fun x => { x with core := { x.core with run := .squashing checkPoint } }
    (s.cell (0 : Fin 34)).core.run = .squashing checkPoint ∧ (s.works (0 : Fin 34)).isSome = true := by decide +kernel

theorem test_completion_applies :
    let s := owned.onCell 0 fun x => { x with qe := ⟨some (entry 0, mkDone stOk Counts.reset 0)⟩ }
    s.cellOwner (0 : Fin 34) = some 1 ∧
    outcomeOf (s.cell (0 : Fin 34)) (2 : Fin 5) 1 = some (entry 0, mkDone stOk Counts.reset 0, 0, 0) ∧
    Compared (s.cell (0 : Fin 34)) 2 1 ∧ (s.cell (0 : Fin 34)).core.snaps = [] := by
  unfold Compared; decide +kernel

/-- The quantize engine of cell 0 holds the outcome of command 1, 5 results saturated, under a check point of threshold t;
command 9, pushed after it, waits. -/
def resolving (t : BitVec 64) : State :=
  owned.onCell 0 fun x => { x with
    qe := ⟨some (entry 0, mkDone stOk ⟨5, 0, 0⟩ 0)⟩, queues := x.queues.set 0 [{ entry 0 with seqNo := 9 }],
    core := { x.core with run := .running, snaps := [{ checkPoint with queue := 2, target := 1, threshold := t, seqNo := 2 }] } }

theorem test_resolution_applies :
    ∀ s ∈ [resolving 4, resolving 5],
      s.cellOwner (0 : Fin 34) = some 1 ∧ Compared (s.cell (0 : Fin 34)) 2 1 ∧
      outcomeOf (s.cell (0 : Fin 34)) (2 : Fin 5) 1 = some (entry 0, mkDone stOk ⟨5, 0, 0⟩ 0, 0, 0) ∧
      (allCommands (s.cell (0 : Fin 34))).length ≤ 1000 := by
  unfold Compared; decide +kernel

/-- The check point of those states is on that command, and their thresholds lie on the two sides of its count. -/
theorem test_resolution_check_point :
    ∀ t ∈ [(4 : BitVec 64), 5], ∃ cp : CheckPoint, ((resolving t).cell (0 : Fin 34)).core.snaps = [cp] ∧ cp.queue = 2 ∧
      cp.target = 1 ∧ (1 : BitVec 32) < cp.seqNo ∧ cp.threshold = t ∧ selected cp.count.toNat ⟨5, 0, 0⟩ = 5 := by
  intro t ht
  refine ⟨{ checkPoint with queue := 2, target := 1, threshold := t, seqNo := 2 }, rfl, rfl, rfl, (by decide : (1 : BitVec 32) < 2), rfl, rfl⟩

/-! ### Witnesses: the engines -/

/-- The plain 4-bit format with blocks of 16. -/
def fmt4 : Nat := 2 * 2 ^ 30

/-- Cell 0 with a command at the head of queue q; at offset 0 of its store a held tile of scale 1.0 with one block, at
offset 4,096 a streamed one. -/
def queued (q : Nat) (w : Nat) : State :=
  let s := owned.onCell 0 fun x => { x with queues := vmod x.queues q fun _ => [entry (BitVec.ofNat 256 w)] }
  { s with mem := (((s.mem.writeN (cellBase 0) [0, 0, 0x80, 0x3F]).writeN (cellBase 0 + 64) [0x80, 127]).writeN
      (cellBase 0 + 4096) [0, 0, 0x80, 0x3F]).writeN (cellBase 0 + 4136) [0x80, 127] }

/-- The eligible command of a `queued` state. -/
def Heads (q w : Nat) (s : State) : Prop :=
  eligible s (0 : Fin 34) q = some (1, entry (BitVec.ofNat 256 w)) ∧ s.mem.errs = []

/-- An MMUL of one row and one column over 16 elements, with its HOLD: held tile at 0, streamed tile at 4,096, output at
8,192. -/
def mmulWord (hold : Nat) : Nat :=
  2 ^ 252 + fmt4 * 2 ^ 200 + fmt4 * 2 ^ 168 + 128 * 2 ^ 128 + 256 * 2 ^ 108 + 16 * 2 ^ 92 + hold * 2 ^ 63

theorem test_mmul_applies :
    let w := mmulWord 0
    let s := queued 0 w
    let m := meCmd (BitVec.ofNat 256 w)
    let tile := m.tile (s.mem.readN (cellBase 0 + m.hAddr) (heldBytes m)) (cmdTag 0 (BitVec.ofNat 256 w))
    Heads 0 w s ∧ fld (BitVec.ofNat 256 w) 255 252 ≠ 2 ∧ (s.cell 0).me.run = none ∧ (s.cell 0).me.done = none ∧
    mmulRange (s.cell 0) m = false ∧ scaleOk (tileScale (s.mem.readN (cellBase 0 + 32 * m.sAddr) 32)) = true ∧ m.hold = 0 ∧
    scaleOk (tileScale tile.bytes) = true ∧ brokenRow tile = none := by
  unfold Heads; decide +kernel

/-- The held tile at offset 0 of a `queued` cell. -/
def heldTile : HeldTile :=
  let s := queued 0 (mmulWord 0)
  let m := meCmd (BitVec.ofNat 256 (mmulWord 0))
  m.tile (s.mem.readN (cellBase 0) (heldBytes m)) 0

/-- A `queued` state with a change of the matrix engine of cell 0. -/
def withMe (f : Me → Me) (s : State) : State := s.onCell 0 fun x => { x with me := f x.me }

/-- The same tile whose one block has a reserved tag, found while row 0 is loaded (03 R85). -/
def brokenTile : HeldTile := { heldTile with bytes := heldTile.bytes.take 64 ++ [0xC0, 127] }

/-- The same tile with a tensor scale of zero. -/
def scalelessTile : HeldTile := { heldTile with bytes := zeros 4 ++ heldTile.bytes.drop 4 }

/-- KEEP with the tile current, SWAP with a tile pending, and a HOLD out of range. -/
theorem test_mmul_holds :
    let m := fun h => meCmd (BitVec.ofNat 256 (mmulWord h))
    let s1 := withMe (fun e => { e with cur := some heldTile }) (queued 0 (mmulWord 1))
    let s2 := fun t n => withMe (fun e => { e with pre := some ⟨t, n, false, false, 0⟩ }) (queued 0 (mmulWord 2))
    (Heads 0 (mmulWord 1) s1 ∧ mmulRange (s1.cell 0) (m 1) = false ∧ (m 1).hold = 1) ∧
    (∀ x ∈ [(heldTile, 15), (brokenTile, 15), (brokenTile, 0), (scalelessTile, 0)],
      Heads 0 (mmulWord 2) (s2 x.1 x.2) ∧ mmulRange ((s2 x.1 x.2).cell 0) (m 2) = false) ∧ (m 2).hold = 2 ∧
    scaleOk (tileScale heldTile.bytes) = true ∧ brokenRow heldTile = none ∧
    scaleOk (tileScale brokenTile.bytes) = true ∧ brokenRow brokenTile = some 0 ∧
    scaleOk (tileScale scalelessTile.bytes) = false ∧
    (Heads 0 (mmulWord 3) (queued 0 (mmulWord 3)) ∧ mmulRange ((queued 0 (mmulWord 3)).cell 0) (m 3) = true) := by
  unfold Heads; decide +kernel

/-- LOAD of a tile whose scale is zero, the tile at offset 12,288; a streamed tile whose scale is zero, at offset 12,288;
LOAD of the broken tile. -/
theorem test_mmul_bad_scale :
    let w := mmulWord 0 + 384 * 2 ^ 148
    let v := mmulWord 0 + 256 * 2 ^ 128
    let s := queued 0 w
    let u := queued 0 v
    let b := { queued 0 (mmulWord 0) with mem := (queued 0 (mmulWord 0)).mem.writeN (cellBase 0 + 64) [0xC0, 127] }
    let m := meCmd (BitVec.ofNat 256 w)
    let tile := m.tile (s.mem.readN (cellBase 0 + m.hAddr) (heldBytes m)) 0
    (Heads 0 w s ∧ mmulRange (s.cell 0) m = false ∧ m.hold = 0 ∧ scaleOk (tileScale tile.bytes) = false) ∧
    (Heads 0 v u ∧ mmulRange (u.cell 0) (meCmd (BitVec.ofNat 256 v)) = false ∧
      scaleOk (tileScale (u.mem.readN (cellBase 0 + 32 * (meCmd (BitVec.ofNat 256 v)).sAddr) 32)) = false) ∧
    (Heads 0 (mmulWord 0) b ∧
      (meCmd (BitVec.ofNat 256 (mmulWord 0))).tile (b.mem.readN (cellBase 0) 66) 0 = brokenTile) := by
  unfold Heads; decide +kernel

/-- An HPRELOAD of the tile at offset 0, and one with a field set that is not its own. -/
def hpreWord : Nat := 2 * 2 ^ 252 + fmt4 * 2 ^ 200 + 16 * 2 ^ 92

theorem test_hpreload_applies :
    let m := meCmd (BitVec.ofNat 256 hpreWord)
    (Heads 0 hpreWord (queued 0 hpreWord) ∧ fld (BitVec.ofNat 256 hpreWord) 255 252 = 2 ∧
      preloadRange ((queued 0 hpreWord).cell 0) (BitVec.ofNat 256 hpreWord) m = false) ∧
    (Heads 0 (hpreWord + 1) (queued 0 (hpreWord + 1)) ∧
      preloadRange ((queued 0 (hpreWord + 1)).cell 0) (BitVec.ofNat 256 (hpreWord + 1)) m = true) := by
  unfold Heads; decide +kernel

/-! ### Witnesses: the slot loop -/

/-- A word whose offsets meet the latencies: ST_OFF 3 and RES_OFF 3. -/
def timedWord (hold : Nat) : Nat := mmulWord hold + 3 * 2 ^ 57 + 3 * 2 ^ 51

/-- A cell at position 0 of the frame with a command in its loop, the tile current and n load beats left. -/
def inLoop (w n : Nat) (f : MeRun → MeRun) (g : Me → Me) : State :=
  withMe (fun e => g { e with
    cur := some heldTile,
    run := some (f { MeRun.reset with
      entry := entry (BitVec.ofNat 256 w), load := n, loadTotal := n, saved := (some heldTile, none) }) }) (queued 0 w)

theorem test_slot_clauses :
    let run := fun s : State => (s.cell (0 : Fin 34)).me.run
    let busy := fun n b => inLoop (timedWord 0) n (fun r => { r with bad := b }) id
    (owned.works (0 : Fin 34) = some 1 ∧ run owned = none ∧ eligible owned (0 : Fin 34) 0 = none) ∧
    (run (queued 0 (mmulWord 0)) = none ∧ (eligible (queued 0 (mmulWord 0)) (0 : Fin 34) 0).isSome = true) ∧
    (slotIssued 8 1 = false) ∧
    (∀ x ∈ [(2, false), (1, true)], let s := busy x.1 x.2
      s.works (0 : Fin 34) = some 1 ∧ awaitsFeeder s 0 false = false ∧
      slotIssued (slotTaken s 0 false).k (s.cell (0 : Fin 34)).framePos.val = true ∧
      (run s).map (fun r => (r.load, r.bad)) = some x) := by decide +kernel

/-- A word that streams its tile from input 0 over the current tile. -/
def streamWord : Nat := timedWord 1 - 128 * 2 ^ 128 + 2 ^ 49

/-- That command at beat 0 with bytes in its stream. -/
def streaming (bs : List Byte) (failed : Bool) : State :=
  inLoop streamWord 0 id fun e => { e with streams := [(0, ⟨bs, failed⟩)] }

/-- A stream's first 64 bytes: a prefix of scale 1.0 and one row of one block. -/
def rowOne : List Byte := [0, 0, 0x80, 0x3F] ++ zeros 28 ++ zeros 8 ++ [0x80, 127] ++ zeros 22

theorem test_slot_stall :
    ∀ bs ∈ [[], rowOne],
      let s := streaming bs false
      let x := s.cell (0 : Fin 34)
      (x.me.run.bind fun r => (meCtx s (0 : Fin 34) r).map fun z =>
        slotIssued (slotTaken s 0 false).k x.framePos.val && decide (r.load = 0) && z.m.sSrc && !(streamOf x z.m).failed &&
          fetchDue z.m r && (decide (bs = []) == decide ((streamOf x z.m).bytes.length < nextBytes z r)) &&
          !awaitsFeeder s 0 (decide (bs ≠ []))) = some true ∧
      holdInForce s 1 (.refresh 0 0) = true := by decide +kernel

/-- A DM command that is to feed the stream still waits in its queue. -/
theorem test_slot_awaits :
    let s := streaming [] false
    let t := s.onCell 0 fun x => { x with
      queues := vmod x.queues 4 fun _ => [entry (BitVec.ofNat 256 (2 ^ 252 + 4 * 2 ^ 190))] }
    awaitsFeeder t (0 : Fin 34) false = true := by decide +kernel

/-- The hypotheses of a beat, one flag each, then: a row breaks R85, a row lands, the beat is the last. -/
def beatFlags (s : State) : Option (List Bool × Bool × Bool × Bool) :=
  let x := s.cell (0 : Fin 34)
  x.me.run.bind fun r => (meCtx s 0 r).bind fun z =>
    let f := fetched s 0 z r
    (meCtx s 0 f).map fun y =>
      ([decide (r.load = 0), slotIssued (slotTaken s 0 false).k x.framePos.val,
        !z.m.sSrc || !(streamOf x z.m).failed || decide (r.rows.length = z.m.m),
        !z.m.sSrc || !fetchDue z.m r || decide (nextBytes z r ≤ (streamOf x z.m).bytes.length),
        !z.m.sSrc || decide (r.beat ≠ 0) || scaleOk (tileScale (streamOf x z.m).bytes),
        !(f.rows.zipIdx.any fun w => decide (lastBeat y.m w.1 + 1 = f.beat) && residueFault y f w.2 w.1),
        !planeFault x f, !arrayFault y f, !writerFault y f],
       rowBroken y f, (landing s 0 y f).isSome, lastOf y (landed s 0 y f))

/-- A row fetched at beat 0: a good one and a broken one. -/
def fetchedRow (tag : Byte) : MeRow := ⟨0, 1, 1, zeros 8 ++ [tag, 127] ++ zeros 22, false⟩

/-- The fetch of a row from the store and from a stream, the beat at which a row's break is found, and the last beat, which
lands the row. -/
theorem test_beats :
    let w := timedWord 0
    (∀ s ∈ [inLoop w 0 id id, streaming rowOne false],
      beatFlags s = some (List.replicate 9 true, false, false, false)) ∧
    beatFlags (inLoop w 0 (fun r => { r with beat := 1, rows := [fetchedRow 0xC0] }) id) =
      some (List.replicate 9 true, true, false, false) ∧
    beatFlags (inLoop w 0 (fun r => { r with beat := 6, rows := [fetchedRow 0x80] }) id) =
      some (List.replicate 9 true, false, true, true) := by decide +kernel

theorem test_beat_state :
    let s := inLoop (timedWord 0) 0 id id
    s.works (0 : Fin 34) = some 1 ∧ s.mem.errs = [] := by decide +kernel

/-- A failed stream, a streamed prefix that is no scale. -/
theorem test_streams_end :
    let flags := fun s : State => (s.cell (0 : Fin 34)).me.run.bind fun r => (meCtx s 0 r).map fun z =>
      (decide (r.rows.length ≠ z.m.m) && z.m.sSrc && fetchDue z.m r && decide (r.beat = 0) &&
        decide (nextBytes z r ≤ (streamOf (s.cell (0 : Fin 34)) z.m).bytes.length),
        (streamOf (s.cell (0 : Fin 34)) z.m).failed,
        scaleOk (tileScale (streamOf (s.cell (0 : Fin 34)) z.m).bytes))
    flags (streaming rowOne true) = some (true, true, true) ∧
    flags (streaming (zeros 64) false) = some (true, false, false) := by decide +kernel

/-- Faults of a beat: of the planes' tags, of the array (ST_OFF 0), of the residue comparison (RSD_EN, an upset of 5). -/
theorem test_faults :
    let t := { heldTile with tags := 1 :: List.replicate 15 0 }
    let up : Upset := { row := 0, col := 0, run := 0, a := 0, b := 0, delta := 5 }
    let s1 := inLoop (timedWord 0) 0 id fun e => { e with cur := some t }
    let s2 := inLoop (mmulWord 0) 0 id id
    let s3 := inLoop (timedWord 0 + 2 ^ 50) 0
      (fun r => { r with beat := 4, rows := [fetchedRow 0x80], upsets := [up] }) id
    (beatFlags s1).map (fun x => x.1.drop 5) = some [true, false, true, true] ∧
    (beatFlags s2).map (fun x => x.1.drop 5) = some [true, true, false, false] ∧
    (beatFlags s3).map (fun x => x.1.drop 5) = some [false, true, true, true] ∧
    ∀ s ∈ [s1, s2, s3], (unrecorded (s.cell (0 : Fin 34))).length ≤ 1000 := by decide +kernel

/-- The same fault from an upset that enters with the slot. -/
theorem test_upset_strikes :
    let up : Upset := { row := 0, col := 0, run := 0, a := 0, b := 0, delta := 5 }
    let r := { MeRun.reset with entry := entry (BitVec.ofNat 256 (timedWord 0)) }
    (struck (some up) r).upsets = [up] ∧ (struck (some { up with run := 1 }) r).upsets = [] := by decide +kernel

/-- A state with a parameter record at offset 16,384 of cell 0. -/
def withPrm (r : Nat) (s : State) : State := { s with mem := s.mem.writeN (cellBase 0 + 16384) (leBytes 64 r) }

/-- A VKERN of one row of 16 columns with its record at 16,384 from 8,192 to 12,288; the same joined; the same out of range. -/
def vkernWord : Nat := 2 ^ 252 + 2 ^ 246 + 256 * 2 ^ 193 + 384 * 2 ^ 133 + 512 * 2 ^ 73 + 15 * 2 ^ 39 + 2 ^ 2
def joinWord : Nat := vkernWord + 2 ^ 213

/-- A table pair of forward kind 1 in slot 0, loaded into a cell whose neighbour's buffer holds n tiles of it. -/
def withTable (n : Nat) (s : State) : State :=
  s.onCell 0 fun x => { x with
    ve := { x.ve with tables := x.ve.tables.set 0 (some (zeros 31 ++ [1])) }, samples := List.replicate n Sample.reset }

/-- The MMUL a joined command names: one row of 16 columns at 8,192. -/
def joinedMmul' : BitVec 256 := BitVec.ofNat 256 (mmulWord 0 + 15 * 2 ^ 83)

/-- A joined command's cell, whose MMUL ended with a status before it. -/
def joinedTo (st : BitVec 8) : State :=
  withTable 0 (withMe (fun e => { e with past := [⟨0, joinedMmul', st⟩] }) (queued 1 joinWord))

theorem test_vkern_applies :
    let e := fun (w : Nat) => entry (BitVec.ofNat 256 w)
    let v := fun (w : Nat) (s : State) => veCmd (BitVec.ofNat 256 w) (prmAt s (0 : Fin 34) 16384)
    (∀ n ∈ [0, 64], let s := withTable n (queued 1 vkernWord)
      Heads 1 vkernWord s ∧ (s.cell 0).ve.run = none ∧ (s.cell 0).ve.done = none ∧
      32 * fld (BitVec.ofNat 256 vkernWord) 92 73 + 64 ≤ cellSize ∧
      veRange (s.cell 0) 0 (e vkernWord) (v vkernWord s) = false ∧ (v vkernWord s).join = false ∧ (v vkernWord s).m = 1 ∧
      flag (BitVec.ofNat 256 vkernWord) 213 = false ∧ (s.cell 0).samples.length = n) ∧
    (Heads 1 joinWord (joinedTo 0) ∧ (v joinWord (joinedTo 0)).join = true ∧
      veRange ((joinedTo 0).cell 0) 0 (e joinWord) (v joinWord (joinedTo 0)) = false) ∧
    (Heads 1 (vkernWord + 1) (queued 1 (vkernWord + 1)) ∧
      veRange ((queued 1 (vkernWord + 1)).cell 0) 0 (e (vkernWord + 1)) (v (vkernWord + 1) (queued 1 (vkernWord + 1))) = true) := by
  unfold Heads; decide +kernel

/-- The buffer has room for one tile of an empty one, and for none of a full one; the sample rate takes every tile. -/
theorem test_room :
    let s := fun n => withTable n (queued 1 vkernWord)
    RoomFor (s 0) 0 1 1 ∧ RoomFor (s 64) 0 1 0 ∧ ¬ RoomFor (s 64) 0 1 1 := by
  unfold RoomFor; decide +kernel

/-- A joined command in progress on its MMUL 0. -/
def joining (past : List PastMmul) (run : Option MeRun) (n : Nat) : State :=
  owned.onCell 0 fun x => { x with
    me := { x.me with past := past, run := run }, samples := List.replicate n Sample.reset,
    ve := { x.ve with
      tables := x.ve.tables.set 0 (some (zeros 31 ++ [1])),
      run := some { VeRun.reset with entry := entry (BitVec.ofNat 256 joinWord), joined := some 0 } } }

/-- The MMUL of a joined command with its first row landed or not. -/
def landedRun (landed : Bool) : MeRun :=
  { MeRun.reset with entry := { entry joinedMmul' with seqNo := 0 }, rows := [⟨0, 1, 1, [], landed⟩] }

theorem test_join_row_clauses :
    let x := fun (s : State) => s.cell (0 : Fin 34)
    let a := joining [⟨0, joinedMmul', 0⟩] none 0
    let b := joining [⟨0, joinedMmul', BitVec.ofNat 8 stRange⟩] none 0
    let d := joining [] (some (landedRun false)) 64
    let g := joining [] (some (landedRun true)) 0
    let v := veCmd (BitVec.ofNat 256 joinWord) 0
    (a.works (0 : Fin 34) = some 1 ∧ ((x a).ve.run.map fun r => (r.joined, r.rows)) = some (some 0, 0) ∧ a.mem.errs = [] ∧
      mmulStatus (x a) 0 = some stOk) ∧
    (mmulStatus (x b) 0 = some stRange ∧ stRange ≠ stOk ∧ stRange ≠ stFallback) ∧
    (mmulStatus (x d) 0 = none ∧ mmulLanded (x d) 0 0 = false ∧ 64 ≤ (x d).samples.length) ∧
    (mmulStatus (x g) 0 = none ∧ mmulLanded (x g) 0 0 = true ∧ (x g).samples.length < 64 ∧ v.m = 1 ∧
      regionsBad (0 : Fin 34) ((veRegions 0 (pairKind (x g) v.func == some 3) v).drop 1) = false ∧
      (veRowOf g (0 : Fin 34) v 0).isSome = true) := by decide +kernel

/-- A joined command of two rows: its first row is not its last. -/
theorem test_join_two_rows : (veCmd (BitVec.ofNat 256 (joinWord + 2 ^ 57)) 0).m = 2 := by decide +kernel

/-- A QUANT of one row of 16 binary32 elements from 8,192 to 12,288 with scale 1.0. -/
def quantWord : Nat :=
  2 ^ 252 + fmt4 * 2 ^ 204 + 0x3F800000 * 2 ^ 172 + 256 * 2 ^ 152 + 384 * 2 ^ 132 + 2 ^ 128 + 15 * 2 ^ 93

theorem test_quant_applies :
    let s := queued 2 quantWord
    let m := qeCmd (BitVec.ofNat 256 quantWord)
    (Heads 2 quantWord s ∧ (s.cell (0 : Fin 34)).qe.done = none ∧
      qeRange s (0 : Fin 34) (entry (BitVec.ofNat 256 quantWord)) m = false ∧
      (readRows 0 m.src m.srcT m.m m.l m.m 0 0 s).1.isSome = true) ∧
    (Heads 2 (quantWord + 1) (queued 2 (quantWord + 1)) ∧
      qeRange (queued 2 (quantWord + 1)) (0 : Fin 34) (entry (BitVec.ofNat 256 (quantWord + 1)))
        (qeCmd (BitVec.ofNat 256 (quantWord + 1))) = true) := by
  unfold Heads; decide +kernel

/-- An update-engine command with its record at 16,384: W at 8,192, G at 12,288, M1 at 20,480, FWD at 24,576, TRN at
28,672; a tile of 16 rows and columns, TENSOR unused, purpose 1, both formats the plain 4-bit one, both scales 1.0. -/
def updateWord (opc : Nat) : Nat :=
  opc * 2 ^ 252 + 256 * 2 ^ 143 + 384 * 2 ^ 123 + 640 * 2 ^ 103 + 512 * 2 ^ 43 + 768 * 2 ^ 23 + 896 * 2 ^ 3
def updatePrm : Nat :=
  15 * 2 ^ 242 + 15 * 2 ^ 228 + 2 ^ 218 + 16 * 2 ^ 128 + fmt4 * 2 ^ 96 + fmt4 * 2 ^ 64 + 0x3F800000 * 2 ^ 32 + 0x3F800000

theorem test_update_applies :
    (∀ op ∈ [1, 2, 3],
      let s := withPrm updatePrm (queued 3 (updateWord op))
      let u := ueCmd (BitVec.ofNat 256 (updateWord op)) (prmAt s (0 : Fin 34) 16384)
      Heads 3 (updateWord op) s ∧ (s.cell (0 : Fin 34)).ue.done = none ∧ fld (BitVec.ofNat 256 (updateWord op)) 255 252 = op ∧
      ueRange 0 u = false ∧ (fmtOf u.fmtF).isSome = true) ∧
    (let s := withPrm updatePrm (queued 3 (updateWord 1 + 1))
     Heads 3 (updateWord 1 + 1) s ∧ ueRange 0 (ueCmd (BitVec.ofNat 256 (updateWord 1 + 1)) (prmAt s (0 : Fin 34) 16384)) = true) := by
  unfold Heads; decide +kernel

/-- An UPDATE of one tile, with room for it and with none. -/
theorem test_update_room :
    ∀ n ∈ [0, 64],
      let s := withTable n (withPrm updatePrm (queued 3 (updateWord 1)))
      let u := ueCmd (BitVec.ofNat 256 (updateWord 1)) (prmAt s (0 : Fin 34) 16384)
      Heads 3 (updateWord 1) s ∧ ceilDiv (u.rows * u.cols) 512 = 1 ∧ ueRange 0 u = false ∧
      (s.cell (0 : Fin 34)).samples.length = n := by
  unfold Heads; decide +kernel

/-! ### Witnesses: the data mover -/

/-- No flip-mask is armed in a state whose stacks are as after reset. -/
theorem clean_of {s : State} (hd : s.drams = State.reset.drams) (he : s.mem.errs = []) : CleanMemory s := by
  refine ⟨he, fun n => ?_⟩
  have h : s.stack n = Stack.reset := by
    simp only [State.stack, hd, vget, State.reset]
    split
    · exact Vector.getElem_replicate _
    · rfl
  rw [h]
  decide

/-- A data-mover command between two places, with its record at 16,384 and no notice. -/
def moverWord (opc ss sa ds da len : Nat) : Nat :=
  opc * 2 ^ 252 + ss * 2 ^ 233 + sa * 2 ^ 193 + ds * 2 ^ 190 + da * 2 ^ 150 + len * 2 ^ 118 + 512 * 2 ^ 98 + 0x3F * 2 ^ 54

/-- A record of a tensor of one row of 32 elements in the MX format 0, of which the tile is all, scales at 64. -/
def moverPrm : Nat :=
  (mxFmt 0).toNat * 2 ^ 480 + 0x3F800000 * 2 ^ 416 + 32 * 2 ^ 384 + 2 ^ 352 + 31 * 2 ^ 256 + 4096 * 2 ^ 216

/-- A `queued` mover command with that record, and a block header of the tensor at relative address 32. -/
def moving (w : Nat) : State :=
  let s := withPrm moverPrm (queued 4 w)
  { s with mem := s.mem.writeN (stackBase 0 + 32) [0x80, 127] }

/-- A word of each memory command that is not refused: COPY and FILL in the cell's own store, the others between it and
the partition's memory. -/
def moverWords : List Nat :=
  [moverWord 1 1 0 1 8192 64, moverWord 2 0 0 1 8192 0, moverWord 3 1 8192 0 0 0, moverWord 4 1 0 0 0 64,
   moverWord 5 0 8192 0 0 0, moverWord 6 0 0 0 8192 0, moverWord 7 0 0 1 8192 64]

theorem test_mover_applies :
    ∀ w ∈ moverWords,
      let s := moving w
      let d := moverCmd s (0 : Fin 34) (entry (BitVec.ofNat 256 w))
      Heads 4 w s ∧ (s.cell (0 : Fin 34)).dm.length < 16 ∧ s.drams = State.reset.drams ∧
      fld (BitVec.ofNat 256 w) 255 252 ∈ (moverTable 0).map Prod.snd ∧ (d.usesPrm = true → d.prm + 64 ≤ cellSize) ∧
      dmRefusal s 1 (0 : Fin 34) d = 0 ∧ d.ord = false ∧
      waitsHeld s (0 : Fin 34) (entry (BitVec.ofNat 256 w)) = false := by
  unfold Heads; decide +kernel

/-- Stack 0 of a state with its channel 0 held by a retrain. -/
def heldBy (s : State) : State :=
  s.onStack 0 fun t => { t with chans := t.chans.set 0 { Chan.reset with phase := .held } }

/-- A COPY into that stack waits. -/
theorem test_mover_waits :
    let w := moverWord 1 1 0 0 0 64
    Heads 4 w (heldBy (moving w)) ∧ waitsHeld (heldBy (moving w)) (0 : Fin 34) (entry (BitVec.ofNat 256 w)) = true := by
  unfold Heads; decide +kernel

/-- The clauses of each memory command: its format, and ranges that share no byte. -/
theorem test_mover_bytes :
    (∀ w ∈ moverWords, (fmtOf (moverCmd (moving w) (0 : Fin 34) (entry (BitVec.ofNat 256 w))).fmt).isSome = true) ∧
    (let w := moverWord 4 1 0 0 0 64
     let s := moving w
     let d := moverCmd s (0 : Fin 34) (entry (BitVec.ofNat 256 w))
     Apart (devRanges s 1 0 d.sspace d.saddr d.srcBytes) (devRanges s 1 0 d.dspace d.daddr d.dstBytes)) ∧
    (let w := moverWord 6 0 0 0 8192 0
     let s := moving w
     let d := moverCmd s (0 : Fin 34) (entry (BitVec.ofNat 256 w))
     (powerOfTwo d.ts).isSome = true ∧
     Apart (devRanges s 1 0 d.dspace d.daddr d.dstBytes) (devRanges s 1 0 d.dspace d.xaddr (d.odim * (d.kdim / 32)))) ∧
    (let w := moverWord 3 1 8192 0 0 0
     let d := moverCmd (moving w) (0 : Fin 34) (entry (BitVec.ofNat 256 w))
     (fmtOf d.fmt).any (fun f => decide (planeRows f d 0 ≠ [])) = true) := by
  unfold Apart; decide +kernel

theorem test_mx_import_clean :
    let s := moving (moverWord 5 0 8192 0 0 0)
    MxClean s 1 0 (moverCmd s (0 : Fin 34) (entry (BitVec.ofNat 256 (moverWord 5 0 8192 0 0 0)))) :=
  ⟨fun _ => ⟨_, _, _, (Option.some_get (by decide +kernel)).symm, (Option.some_get (by decide +kernel)).symm,
    (Option.some_get (by decide +kernel)).symm, by decide +kernel⟩, fun h => absurd h (by decide +kernel)⟩

theorem test_mx_export_clean :
    let s := moving (moverWord 6 0 0 0 8192 0)
    MxClean s 1 0 (moverCmd s (0 : Fin 34) (entry (BitVec.ofNat 256 (moverWord 6 0 0 0 8192 0)))) :=
  ⟨fun h => absurd h (by decide +kernel), fun _ => ⟨_, _, _, (Option.some_get (by decide +kernel)).symm,
    (Option.some_get (by decide +kernel)).symm, (Option.some_get (by decide +kernel)).symm, by decide +kernel⟩⟩

/-- The refused twins: a source one byte past its alignment, to the own store and to a stream input; a reserved opcode. -/
theorem test_mover_refused :
    (∀ w ∈ [moverWord 1 1 1 1 8192 64, moverWord 1 1 1 4 15 64, moverWord 12 1 0 1 8192 64],
      let s := moving w
      let d := moverCmd s (0 : Fin 34) (entry (BitVec.ofNat 256 w))
      Heads 4 w s ∧ dmRefusal s 1 (0 : Fin 34) d ≠ 0 ∧ (d.opc = 1 ∨ d.opc = 12) ∧ (d.dspace = 4 ∨ d.dspace = 1) ∧
      waitsHeld s (0 : Fin 34) (entry (BitVec.ofNat 256 w)) = false) := by
  unfold Heads; decide +kernel

/-- A GATHER whose record lies outside the store. -/
theorem test_mover_record_outside :
    let w := moverWord 2 0 0 1 8192 0 + (2 ^ 20 - 513) * 2 ^ 98
    Heads 4 w (moving w) ∧ (dmCmd (BitVec.ofNat 256 w) 0).usesPrm = true ∧
    cellSize < (dmCmd (BitVec.ofNat 256 w) 0).prm + 64 := by
  unfold Heads; decide +kernel

/-- A copy of two rows' worth within the own store, and a fill of it. -/
theorem test_copy_fill_apply :
    ∀ w ∈ [moverWord 1 1 0 1 8192 64, moverWord 7 0 0 1 8192 64],
      let d := dmCmd (BitVec.ofNat 256 w) 0
      Heads 4 w (moving w) ∧ dmRefusal (moving w) 1 (0 : Fin 34) d = 0 ∧ d.dspace = 1 ∧ 0 < d.len ∧
      (d.opc = 1 → d.sspace = 1) := by
  unfold Heads; decide +kernel

/-- An ordered ADD of one part into the partition's memory with its tag, in progress on cell 0. -/
def adding (tag : Nat) (last : Bool) : State :=
  owned.onCell 0 fun x => { x with dm := [{ DmRun.reset with
    entry := entry (BitVec.ofNat 256 (moverWord 4 1 0 0 0 64 + 2 ^ 94 + (if last then 2 ^ 92 else 0) + 5 * 2 ^ 76 + tag * 2 ^ 60)),
    waiting := [0] }] }

theorem test_ordered_add_clauses :
    let y := fun (s : State) => ((s.cell (0 : Fin 34)).dm.head?.map fun y => dmCmd y.entry.word 0).getD (dmCmd 0 0)
    let part := fun (s : State) => (addParts s 1 (0 : Fin 34) (y s))[0]?
    let open5 := fun (n : Nat) => (adding n true).onPart 1 fun q => { q with trees := [⟨0, 5, 65535, false⟩] }
    ((adding 0 false).cellOwner (0 : Fin 34) = some 1 ∧ ((adding 0 false).cell (0 : Fin 34)).dm.length = 1 ∧
      ((adding 0 false).cell (0 : Fin 34)).dm.all (fun y => y.done.isNone && decide (y.waiting = [0]) && decide (y.failed = [])) = true ∧
      (y (adding 0 false)).ord = true ∧ (y (adding 0 false)).sspace ≠ 4 ∧ part (adding 0 false) = some (stackBase 0, 64, 0) ∧
      (adding 0 false).drams = State.reset.drams ∧ (adding 0 false).mem.errs = []) ∧
    (let e := entry (BitVec.ofNat 256 (moverWord 4 1 0 0 0 64 + 2 ^ 94 + 5 * 2 ^ 76))
     waitsHeld (adding 0 false) (0 : Fin 34) e = false ∧ waitsHeld (heldBy (adding 0 false)) (0 : Fin 34) e = true) ∧
    (treeReady (adding 0 false) 1 (unitOf (stackBase 0)) (y (adding 0 false)) = true ∧
      treeAt (adding 0 false) 1 (unitOf (stackBase 0)) 5 = none ∧ (y (adding 0 false)).last = false) ∧
    treeReady (adding 1 false) 1 (unitOf (stackBase 0)) (y (adding 1 false)) = false ∧
    (treeReady (open5 65535) 1 (unitOf (stackBase 0)) (y (open5 65535)) = true ∧ (y (open5 65535)).last = true ∧
      (treeAt (open5 65535) 1 (unitOf (stackBase 0)) 5).map OpenTree.abandoned = some false) := by decide +kernel

/-! ### Witnesses: ring commands and collectives -/

/-- A device in a ring of 4 that is part of the ring, both ports up, partition 1 a member of group 15 with the device `peer`. -/
def inRing (peers : List Byte) (s : State) : State :=
  let s := (s.onDev fun d => { d with ringState := 1, bypCmd := true }).onNv fun n => { n with ringSize := 4, ringId := 1 }
  (forEach [0, 1] (fun n s => s.onPort n fun q => { q with st := 2, full := true }) s).onPart 1 fun q => { q with
    groups := q.groups.set 15 ([1, 0, 1, 0] ++ peers) }

/-- A ring command with its record. -/
def ringCmd (w prm : Nat) (peers : List Byte) : State := inRing peers (withPrm prm (queued 4 w))

/-- RSEND of 64 bytes of the cell's own store in class 1 to partition 7 of device 3; the record of an RPOST for 64 bytes at
relative address 0; a COLL of operation 1 in group 15 with staging at 8,192; a BARRIER in the same group. -/
def rsendWord : Nat := moverWord 8 1 0 0 0 64
def rsendPrm : Nat := 2 ^ 505 + 255 * 2 ^ 496 + 3 * 2 ^ 480 + 7 * 2 ^ 477
def rpostWord : Nat := moverWord 9 0 0 0 0 0
def rpostPrm : Nat := 2 ^ 508 + 64 * 2 ^ 400
def collWord : Nat := moverWord 10 0 0 0 4096 64
def collPrm : Nat := 2 ^ 508 + 2 ^ 505 + 15 * 2 ^ 473 + 8192 * 2 ^ 408
def barrierWord : Nat := moverWord 11 0 0 0 0 0
def barrierPrm : Nat := 15 * 2 ^ 473

/-- With no transfer under way every transfer id is fresh. -/
theorem fresh_of {s : State} (h : s.ring.tx = []) : FreshXids s := by simp [FreshXids, h]

theorem test_ring_commands_apply :
    ∀ x ∈ [(rsendWord, rsendPrm, 8), (rpostWord, rpostPrm, 9), (collWord, collPrm, 10), (barrierWord, barrierPrm, 11)],
      let s := ringCmd x.1 x.2.1 []
      let d := dmCmd (BitVec.ofNat 256 x.1) (prmAt s (0 : Fin 34) 16384)
      s.works (0 : Fin 34) = some 1 ∧ Heads 4 x.1 s ∧ (s.cell (0 : Fin 34)).dm = [] ∧ s.drams = State.reset.drams ∧
      fld (BitVec.ofNat 256 x.1) 255 252 = x.2.2 ∧ (dmCmd (BitVec.ofNat 256 x.1) 0).prm = 16384 ∧ 16384 + 64 ≤ cellSize ∧
      s.ring.rx = [] ∧ (s.part 1).colls = [] ∧ (s.part 1).early = [] ∧ ringRefusal s 1 (0 : Fin 34) d = 0 ∧
      (s.cell (0 : Fin 34)).rposts < 64 ∧ waitsHeld s (0 : Fin 34) (entry (BitVec.ofNat 256 x.1)) = false ∧
      s.ring.tx = [] := by
  unfold Heads; decide +kernel

/-- With 64 descriptors of the cell outstanding. -/
theorem test_rpost_waits :
    let s := (ringCmd rpostWord rpostPrm []).onCell 0 fun x => { x with rposts := 64 }
    Heads 4 rpostWord s ∧ 64 ≤ (s.cell (0 : Fin 34)).rposts ∧
    ringRefusal s 1 (0 : Fin 34) (dmCmd (BitVec.ofNat 256 rpostWord) (prmAt s (0 : Fin 34) 16384)) = 0 := by
  unfold Heads; decide +kernel

/-- The group of this partition alone, with partition 0 of device 2 after it, and with that one before it: two segments of
a COLL of 8,192 bytes, each with its way from one of the two members, and a BARRIER. -/
theorem test_group_sizes :
    ∀ w ∈ [(moverWord 10 0 0 0 98304 8192, collPrm + 57344 * 2 ^ 408), (barrierWord, barrierPrm)],
      (let s := ringCmd w.1 w.2 []
       rGroup (prmAt s (0 : Fin 34) 16384) = 15 ∧ membersOf s 1 15 = [(s.nv.ringId.toNat, 1)]) ∧
      (let s := ringCmd w.1 w.2 [2, 0, 0, 0]
       ringRefusal s 1 (0 : Fin 34) (dmCmd (BitVec.ofNat 256 w.1) (prmAt s (0 : Fin 34) 16384)) = 0 ∧
       (membersOf s 1 15).length = 2 ∧ (membersOf s 1 15).Nodup ∧ memberIndex s 1 15 = some 0 ∧
       ∀ m ∈ membersOf s 1 15, m.1 = s.nv.ringId.toNat → m = (s.nv.ringId.toNat, 1)) ∧
      (let s := (ringCmd w.1 w.2 []).onPart 1 fun q => { q with groups := q.groups.set 15 [2, 0, 0, 0, 1, 0, 1, 0] }
       ringRefusal s 1 (0 : Fin 34) (dmCmd (BitVec.ofNat 256 w.1) (prmAt s (0 : Fin 34) 16384)) = 0 ∧
       (membersOf s 1 15).head? = some (2, 0) ∧ memberIndex s 1 15 = some 1 ∧ (s.port 0).up = true) ∧
      rCop collPrm = 1 ∧ ceilDiv 8192 4096 = 2 := by decide +kernel

/-! ### Witnesses: sessions and writes -/

/-- An open session of a partition, number 1, that has sent nothing. -/
def session (p : Fin 8) : Session :=
  { num := 1, part := p, isOpen := true, nonceH := [], nonceD := [], key := 7, lastSeq := 0, lastReq := [],
    lastResp := none, host := HostAddr.zero, noticeSeq := 0, unacked := [], snap := none, descSeq := none, unkeyed := false, answers := 0 }

/-- The link-local address of port M after reset. -/
def linkLocal : BitVec 128 := (portMAddresses State.reset).headD 0

/-- A request of session 1 for an entry, with sequence number 1. -/
def request (idx : BitVec 16) (sub : BitVec 8) (data : List Byte) : EopReq :=
  { src := HostAddr.zero, dip := linkLocal, dport := 47130, frag := false, ver := 1, rsp := false, rsvd := 0, status := 0, session := 1, seqNo := 1,
    index := idx, sub := sub, len := BitVec.ofNat 16 data.length, rsvd2 := 0, data := data, tag := [] }

/-- A request under the key of its session. -/
def sealed (opc : Nat) (r : EopReq) (x : Session) : EopReq :=
  { r with tag := beBytes 16 (tagOf x.key (reqHeader opc r ++ r.data)).toNat }

theorem reqData_sealed {opc : Nat} {r : EopReq} {x : Session} (h : r.data.length = r.len.toNat) :
    reqData (sealed opc r x) = r.data := by
  simp [reqData, sealed, ← h]

theorem tagHolds_sealed {opc : Nat} {r : EopReq} {x : Session} (h : r.data.length = r.len.toNat) :
    tagHolds opc (sealed opc r x) x = true := by
  have ht : reqTag (sealed opc r x) = beBytes 16 (tagOf x.key (reqHeader opc r ++ r.data)).toNat := by
    simp [reqTag, sealed, ← h]
  have hh : reqHeader opc (sealed opc r x) = reqHeader opc r := rfl
  have hb := beNat_beBytes 16 (tagOf x.key (reqHeader opc r ++ r.data)).toNat
  have hl := (tagOf x.key (reqHeader opc r ++ r.data)).isLt
  rw [tagHolds, ht, hh, reqData_sealed h, hb, Nat.mod_eq_of_lt (by simpa using hl)]
  simp

/-- What a state must hold to hear request 1 of session 1. -/
def hears (x : Session) (s : State) : Bool :=
  portMOn s && decide (linkLocal ∈ portMAddresses s) && decide (s.eop.cfg.udpPort = 47130) && decide ((recentTimes s).length < 100) &&
  decide (sessionOf s 1 = some x) && x.isOpen && decide (x.lastSeq = 0)

theorem heard_sealed {opc : Nat} {idx : BitVec 16} {sub : BitVec 8} {data : List Byte} {x : Session} {s : State}
    (hl : data.length < 65536) (h : hears x s = true) :
    Heard opc (sealed opc (request idx sub data) x) x s := by
  simp only [hears, Bool.and_eq_true, decide_eq_true_eq] at h
  obtain ⟨⟨⟨⟨⟨⟨h1, h0⟩, h2⟩, h3⟩, h4⟩, h5⟩, h6⟩ := h
  have hlen : (request idx sub data).data.length = (request idx sub data).len.toNat := by
    simp [request, Nat.mod_eq_of_lt hl]
  refine ⟨⟨h1, rfl, h0, h2.symm⟩, ?_, h3, ?_, h4, h5, tagHolds_sealed hlen, ?_⟩
  · simp [badFraming, sealed, request, Nat.mod_eq_of_lt hl]
  · show (1 : BitVec 16) ≠ 0
    decide
  · simp [seqRule, sealed, request, h6]

/-- A device with a session of partition p, partition 0's key set. -/
def withSession (p : Fin 8) (s : State) : State :=
  (s.onEop fun e => { e with sessions := [session p] }).onNv fun n => { n with keys := n.keys.set 0 1 }

/-- What a state must hold for a write of an entry to be granted. -/
def grants (p : Fin 8) (idx : BitVec 16) (sub : BitVec 8) (data : List Byte) (s : State) : Bool :=
  hears (session p) s && decide (s.dev.devState ≠ 0) && decide (writeAuthority s (some (session p)) idx.toNat sub.toNat = stOk) &&
  (match entryOf s idx.toNat sub.toNat with | some e => decide (sizeStatus e data = stOk) | none => false) &&
  !beingCleared s p.val idx.toNat sub.toNat && decide (data.length < 65536)

theorem granted_sealed {p : Fin 8} {idx : BitVec 16} {sub : BitVec 8} {data : List Byte} {s : State}
    (h : grants p idx sub data s = true) :
    ∃ e, Granted (sealed opWrite (request idx sub data) (session p)) (session p) e s := by
  simp only [grants, Bool.and_eq_true, decide_eq_true_eq, Bool.not_eq_true'] at h
  obtain ⟨⟨⟨⟨⟨h1, h2⟩, h3⟩, h4⟩, h5⟩, h6⟩ := h
  split at h4
  · rename_i e he
    refine ⟨e, heard_sealed h6 h1, h2, he, h3, rfl, ?_, h5⟩
    rw [reqData_sealed (by simp [request, Nat.mod_eq_of_lt h6])]
    exact of_decide_eq_true h4
  · simp at h4

/-- A partition 1 with a loaded module whose arena fills its memory. -/
def loaded (f : Part → Part) (s : State) : State :=
  s.onPart 1 fun q => f { q with mod := some { Module.reset with imageTop := 2 ^ 33, patches := [[]] }, rst := 1 }

/-- The first 64 bytes of a valid, complete capsule of replay 0. -/
def capsuleStart : List Byte := ascii "VZCP" ++ leBytes 2 1 ++ [9]

/-- A partition that keeps one capsule, with that one in the slot. -/
def withCapsule : State :=
  let s := loaded (fun q => { q with det := { q.det with caps := 1 } }) owned
  { s with mem := s.mem.writeN (stackBase 0 + 0x400000) capsuleStart }

/-- A granted write for each row of `partWrites`, with values at the ends of their ranges. -/
def partWriteCases : List (Nat × BitVec 16 × BitVec 8 × List Byte × State) :=
  [(0, 0x9010, 1, zeros 16, owned), (1, 0xA020, 7, [1], owned), (2, 0x7010, 1, [8], owned), (2, 0x7010, 1, [2], owned),
   (3, 0xA010, 1, leBytes 4 fmt4, owned), (4, 0x9020, 1, [1], owned), (5, 0x9040, 1, [4], owned),
   (6, 0x9030, 1, leBytes 4 (2 ^ 24 + 7 * 2 ^ 16), owned), (7, 0x6020, 1, leBytes 8 0, loaded id owned),
   (8, 0x6020, 2, leBytes 16 (2 ^ 33 - 4096), loaded id owned), (9, 0x9040, 2, leBytes 8 (2 ^ 48), withCapsule),
   (10, 0x6010, 1, leBytes 8 0, owned)]

theorem test_part_writes :
    ∀ w ∈ partWriteCases,
      let s := withSession 1 w.2.2.2.2
      let r := sealed opWrite (request w.2.1 w.2.2.1 w.2.2.2.1) (session 1)
      grants 1 w.2.1 w.2.2.1 w.2.2.2.1 s = true ∧
      ((partWrites r s 1)[w.1]?.map fun x => decide (x.2.1 = r.index.toNat) && decide (x.2.2.1 = r.sub.toNat) && x.2.2.2.1) =
        some true := by decide +kernel

/-- A value written of an entry with a condition on the value it carries. -/
def valOf (data : List Byte) : Nat := leNat data

theorem test_stack_writes :
    (grants 0 0x4050 32 (leBytes 48 (2 ^ 352)) (withSession 0 ready) = true ∧
      flipBad (withSession 0 ready) 31 (valOf (leBytes 48 (2 ^ 352 + 1))) = true ∧
      flipBad (withSession 1 owned) 0 (valOf (leBytes 48 (2 ^ 352))) = false ∧
      grants 1 0x4050 1 (leBytes 48 (2 ^ 352)) (withSession 1 owned) = true) ∧
    grants 0 0x4012 32 [1] (withSession 0 ready) = true ∧
    (grants 0 0x4040 32 (leBytes 2 4096) (withSession 0 ready) = true ∧ valOf (leBytes 2 4096) = 4096) := by decide +kernel

theorem test_ring_writes :
    let s := withSession 0 (ready.onNv fun n => { n with ringSize := 4096 })
    grants 0 0x5000 1 (leBytes 2 4095) s = true ∧ valOf (leBytes 2 4095) < s.nv.ringSize.toNat ∧
    grants 0 0x5000 2 (leBytes 2 4096) s = true ∧ valOf (leBytes 2 4096) = 4096 ∧
    grants 0 0x5000 2 (leBytes 2 1) s = true ∧ grants 0 0x5000 3 [1] s = true := by decide +kernel

theorem test_cap_write :
    let s := withSession 0 ready
    grants 0 0x3000 1 (leBytes 2 900) s = true ∧ valOf (leBytes 2 900) = 900 ∧
    grants 0 0x3000 1 (leBytes 2 (packageLimit s.fuse.grade)) s = true ∧
    valOf (leBytes 2 (packageLimit s.fuse.grade)) = packageLimit s.fuse.grade ∧
    grants 0 0x3000 2 [2] s = true ∧ grants 0 0x3000 2 [32] s = true ∧ valOf [2] = 2 ∧ valOf [32] = 32 := by decide +kernel

theorem test_test_writes :
    let s := withSession 0 (ready.onDev fun d => { d with fenced := BitVec.ofNat 34 (2 ^ 31) })
    grants 0 0x7020 1 [31] s = true ∧ flag s.fuse.enabled 31 = true ∧ flag s.dev.fenced 31 = true ∧ s.test.proof = none ∧
    grants 0 0x7020 2 (leBytes 2 0x1F0F) s = true ∧ flag s.dev.inService 31 = true ∧ s.test.chan = none ∧
    bits (valOf (leBytes 2 0x1F0F)) 15 13 = 0 ∧ bits (valOf (leBytes 2 0x1F0F)) 7 4 = 0 := by decide +kernel

/-- A device whose loop-back test left four lanes of each port good. -/
def looped : State := ready.onDev fun d => { d with loopGood := Vector.replicate 2 0xF0 }

theorem test_insert_writes :
    grants 0 0x5000 4 [1] (withSession 0 looped) = true ∧ insertOk (withSession 0 looped) = true ∧
    (let s := withSession 0 (inRing [] owned)
     grants 0 0x5000 4 [2] s = true ∧ s.dev.bypCmd = true ∧ s.dev.removing = false ∧ (s.port 0).up = true) := by decide +kernel

/-- A wrapped key: that of a session of partition p for partition 1, from zero. -/
def wrapped (p : Fin 8) : List Byte :=
  hmac (session p).key (ascii "VZ4-WRAP" ++ slice (reqHeader opWrite (request 0x2020 2 (zeros 32))) 3 6)

theorem test_key_writes :
    (grants 1 0x2020 2 (zeros 32) (withSession 1 owned) = true ∧ (withSession 1 owned).defined 1 = true ∧
      beNat (wrapped 1) ≠ 0) ∧
    (grants 1 0x2020 2 (wrapped 1) (withSession 1 owned) = true ∧
      BitVec.ofNat 256 (beNat (wrapped 1)) ^^^ BitVec.ofNat 256 (beNat (wrapped 1)) = (0 : BitVec 256)) ∧
    grants 0 0x2020 1 (zeros 32) (withSession 0 owned) = true ∧
    (hears (session 1) (withSession 1 owned) = true ∧ (session 1).part.val ≠ 0 ∧ (session 1).part.val ≠ 7) := by
  decide +kernel

theorem test_settings_clauses :
    let busy := withSession 1 (loaded id owned)
    let idle := withSession 1 owned
    (∀ x ∈ [((0x9020 : BitVec 16), [(1 : Byte)]), (0x9030, leBytes 4 0), (0x9040, [4])],
      grants 1 x.1 1 x.2 busy = true ∧ (busy.part 1).rst ≠ 0 ∧ cupConfigBad x.1.toNat (valOf x.2) = false ∧
      grants 1 x.1 1 x.2 idle = true ∧ (idle.part 1).rst = 0 ∧ cupEnabled (idle.part 1).cupCfg = false) ∧
    (grants 1 0x9040 1 [5] idle = true ∧ 4 < valOf [5]) ∧
    (let x := { session 0 with unkeyed := true }
     let s := ready.onEop fun e => { e with sessions := [x] }
     hears x s = true ∧ x.unkeyed = true) := by decide +kernel

theorem test_partition_writes :
    let s := withSession 0 owned
    let d := leBytes 64 (2 + 2 ^ 65 + 2 ^ 96 + 2 ^ 104 + 2 ^ 112 + 2 ^ 120)
    (grants 0 0x2010 8 d s = true ∧ (s.part 7).st ≠ 3 ∧ s.defOf 7 = 0 ∧ valOf d ≠ 0 ∧
      definitionValid s 7 (BitVec.ofNat 512 (valOf d)) = true) ∧
    (grants 0 0x2040 2 [1] s = true ∧ s.defined 1 = true ∧ (s.part 1).st ≠ 3) ∧
    (let u := leBytes 64 (2 + 2 ^ 64 + 2 ^ 96 + 2 ^ 104 + 2 ^ 112 + 2 ^ 120)
     grants 0 0x2010 2 u s = true ∧ s.defOf 1 ≠ 0 ∧ definitionValid s 1 (BitVec.ofNat 512 (valOf u)) = true ∧
     grants 0 0x2010 2 (zeros 64) s = true ∧ valOf (zeros 64) = 0) := by decide +kernel

/-- Two words of a codeword whose error no decoding corrects, at offset 0 of cell 0. -/
def corrupt : State := { owned with mem := { owned.mem with errs := [(cellBase 0 / 32, 0xFFFFFF)] } }

theorem test_uncorrectable_applies :
    corrupt.cellOwner 0 = some 1 ∧ (corrupt.part 1).st ≠ 3 ∧ rsDecode (corrupt.mem.stored (cellBase 0 / 32)) = .bad ∧
    (0 : Nat) < cellSize := by decide +kernel

theorem test_replay_start_applies :
    let s := withSession 1 (loaded id owned)
    let v := leBytes 72 0
    grants 1 0x6050 1 v s = true ∧ (s.part 1).rst = 1 ∧ busyPart (s.part 1) = false ∧ (s.part 1).det.on = false ∧
    bits (valOf v) 63 16 = 0 ∧ bits (valOf v) 15 0 < (modOf s 1).patches.length := by decide +kernel

/-- A write denied, one before order 12, one of no entry, one of the wrong size. -/
theorem test_refused_writes :
    let s := withSession 1 owned
    let b := s.onDev fun d => { d with devState := 0, bootOrder := 11 }
    (hears (session 1) s = true ∧ writeAuthority s (some (session 1)) 0x2040 1 ≠ stOk) ∧
    (hears (session 1) b = true ∧ writeAuthority b (some (session 1)) 0x9010 1 = stOk ∧ b.dev.devState = 0) ∧
    (writeAuthority s (some (session 1)) 0x2040 9 = stOk ∧ entryOf s 0x2040 9 = none ∧ s.dev.devState ≠ 0 ∧
      wholeIndex 0x2040 0x2040 9 = true) ∧
    (writeAuthority s (some (session 1)) 0x9010 1 = stOk ∧
      (entryOf s 0x9010 1).map (fun e => sizeStatus e (zeros 15)) = some stType ∧ stType ≠ stOk) := by decide +kernel

/-! ### Witnesses: datagrams, reads, sessions, attestation -/

theorem test_turned_away :
    let s := withSession 1 owned
    let r := request 0x1000 1 []
    portMOn State.reset = false ∧
    (portMOn s = true ∧ r.frag = false ∧ r.dip ∈ portMAddresses s ∧ r.dport = s.eop.cfg.udpPort ∧
      badFraming opRead r = true) ∧
    (let t := { r with session := 0, tag := List.replicate 16 1 }
     badFraming opRead t = false ∧ reqTag t ≠ zeros 16) ∧
    (badFraming opRead { r with tag := zeros 16 } = false ∧
      100 ≤ (recentTimes (s.onEop fun e => { e with times := List.replicate 100 0 })).length) ∧
    ((recentTimes s).length < 100 ∧ r.session ≠ 0 ∧ sessionOf ready 1 = none ∧
      portMOn ready = true ∧ r.dip ∈ portMAddresses ready ∧ r.dport = ready.eop.cfg.udpPort) ∧
    (sessionOf s 1 = some (session 1) ∧ tagHolds opRead { r with tag := zeros 16 } (session 1) = false ∧
      (opRead = opProve → (session 1).isOpen = true)) := by decide +kernel

theorem tagHolds_key {opc : Nat} {r : EopReq} {x y : Session} (h : x.key = y.key) : tagHolds opc r x = tagHolds opc r y := by
  simp [tagHolds, h]

theorem resend_of {opc : Nat} {r : EopReq} {x : Session} (h : r.seqNo = x.lastSeq) (h' : x.lastReq = reqBytes opc r) :
    seqRule opc r x = .resend := by simp [seqRule, h, h']

theorem discard_of {opc : Nat} {r : EopReq} {x : Session} (h : r.seqNo < x.lastSeq) (h' : x.lastSeq ≠ 0xFFFFFFFF) :
    seqRule opc r x = .discard := by
  have h1 : r.seqNo ≠ x.lastSeq := fun e => absurd h (by rw [e]; exact BitVec.lt_irrefl _)
  have h2 : ¬ x.lastSeq < r.seqNo := fun h2 => absurd h (BitVec.not_lt.mpr (BitVec.le_of_lt h2))
  simp only [seqRule, h1, decide_false, Bool.false_and, Bool.false_eq_true, if_false, h', h2]

/-- A request sent again and one older than the last, with tags that hold. -/
theorem test_sequence_clauses :
    let r := sealed opRead (request 0x1000 1 []) (session 1)
    let x := { session 1 with lastSeq := 1, lastReq := reqBytes opRead r, lastResp := some (answer opRead r 1 (some 7) 0 []) }
    let y := { session 1 with lastSeq := 2 }
    (tagHolds opRead r x = true ∧ seqRule opRead r x = .resend ∧ x.lastResp.isSome = true) ∧
    (tagHolds opRead r y = true ∧ seqRule opRead r y = .discard) := by
  have h : ∀ x : Session, x.key = 7 → tagHolds opRead (sealed opRead (request 0x1000 1 []) (session 1)) x = true :=
    fun x hk => (tagHolds_key (y := session 1) hk).trans (tagHolds_sealed rfl)
  have hx : ∀ (r : EopReq) (o : EopOut), r.seqNo = 1 →
      seqRule opRead r { session 1 with lastSeq := 1, lastReq := reqBytes opRead r, lastResp := some o } = .resend :=
    fun r _ hr => resend_of hr rfl
  exact ⟨⟨h _ rfl, hx _ _ rfl, rfl⟩, h _ rfl, discard_of (by decide +kernel) (by decide +kernel)⟩

theorem test_reads_apply :
    let s := withSession 1 owned
    let d := withSession 0 owned
    let none' := { request 0x1000 1 [] with session := 0, tag := zeros 16 }
    (hears (session 1) s = true ∧ readAuthority s (some (session 1)) 0x9010 1 = stOk ∧
      (entryOf s 0x9010 1).map domainMax = some none ∧ beingCleared s 1 0x9010 1 = false ∧ s.dev.devState ≠ 0) ∧
    ((entryOf s 0x1000 1).isSome = true ∧ publicIndex 0x1000 = true ∧ badFraming opRead none' = false ∧
      reqTag none' = zeros 16 ∧ none'.dport = s.eop.cfg.udpPort) ∧
    ((entryOf s 0x2060 1).map domainMax = some (some 1024) ∧ readAuthority s (some (session 1)) 0x2060 1 = stOk ∧
      beingCleared s 1 0x2060 1 = false) ∧
    (hears (session 0) d = true ∧ writeAuthority d (some (session 0)) 0x5010 1 = stOk ∧
      (entryOf d 0x5010 1).map domainMax = some (some 16384) ∧ beingCleared d 0 0x5010 1 = false ∧ d.eop.segs = [] ∧
      delayMapBad d (leBytes 4 9) = false ∧ leNat (slice (leBytes 4 0 ++ leBytes 4 4 ++ leBytes 4 9) 4 4) = 4) ∧
    (writeAuthority s (some (session 1)) 0x5600 16 = stOk ∧ (entryOf s 0x5600 16).map domainMax = some (some 16384) ∧
      groupBad s [0, 0, 7, 0] = false ∧ (s.part 1).colls = []) := by decide +kernel

/-- SESSION_OPEN for partition 1, whose key is set. -/
def openReq : EopReq := { request 0 0 ([1] ++ zeros 16) with session := 0, tag := zeros 16 }

/-- A device whose partition 1 has a key, and a pending session of it. -/
def keyed : State := owned.onNv fun n => { n with keys := n.keys.set 1 5 }
def pendingSession : Session := { session 1 with isOpen := false, nonceH := zeros 16, nonceD := zeros 16 }
def pendingState : State := keyed.onEop fun e => { e with sessions := [pendingSession] }

theorem test_open_applies :
    portMOn keyed = true ∧ openReq.frag = false ∧ openReq.dip ∈ portMAddresses keyed ∧ openReq.dport = keyed.eop.cfg.udpPort ∧
      (recentTimes keyed).length < 100 ∧
    badFraming opOpen openReq = false ∧ openReq.session = 0 ∧ reqTag openReq = zeros 16 ∧ openStatus keyed openReq = stOk ∧
    keyed.eop.nextNum ≠ 0 ∧ keyed.eop.sessions = [] ∧ keyed.eop.quarantine = [] := by decide +kernel

/-- The host's proof for the pending session. -/
def proof : List Byte := handshakeMac pendingState "VZ4-HOST" 1 1 (zeros 16) (zeros 16)

/-- The proof that opens it, one with a wrong tag, one that is wrong under a good tag. -/
theorem test_prove_applies :
    let r := sealed opProve (request 0 0 proof) pendingSession
    let w := sealed opProve (request 0 0 (zeros 32)) pendingSession
    sessionOf pendingState 1 = some pendingSession ∧ pendingSession.isOpen = false ∧
    tagHolds opProve r pendingSession = true ∧ seqRule opProve r pendingSession = .accept ∧ reqData r = proof ∧
    badFraming opProve r = false ∧ reservedSet r = false ∧
    (badFraming opProve { request 0 0 proof with tag := zeros 16 } = false ∧
      tagHolds opProve { request 0 0 proof with tag := zeros 16 } pendingSession = false) ∧
    (tagHolds opProve w pendingSession = true ∧ seqRule opProve w pendingSession = .accept ∧ reqData w ≠ proof ∧
      badFraming opProve w = false) := by
  have hl : proof.length = 32 := by decide +kernel
  have hn : (request 0 0 proof).data.length = (request 0 0 proof).len.toNat := by simp [request, hl]
  have hz : (request 0 0 (zeros 32)).data.length = (request 0 0 (zeros 32)).len.toNat := rfl
  refine ⟨by decide +kernel, rfl, tagHolds_sealed hn, ?_, reqData_sealed hn, ?_, rfl, ⟨?_, by decide +kernel⟩,
    tagHolds_sealed hz, ?_, ?_, ?_⟩
  · simp [seqRule, sealed, request, pendingSession, session]
  · simp [badFraming, sealed, request, hl]
  · simp [badFraming, request, hl, zeros]
  · simp [seqRule, sealed, request, pendingSession, session]
  · rw [reqData_sealed hz]
    exact fun h => absurd h (by decide +kernel)
  · simp [badFraming, sealed, request, zeros]

/-! ### Witnesses: segmented writes -/

/-- The data of a segment: OFFSET, TOTAL, bytes. -/
def segData (o total : Nat) (bs : List Byte) : List Byte := leBytes 4 o ++ leBytes 4 total ++ bs

/-- What a state must hold for a segment of an entry to be heard. -/
def takesSegment (p : Fin 8) (idx : BitVec 16) (sub : BitVec 8) (m : Nat) (data : List Byte) (s : State) : Bool :=
  hears (session p) s && decide (s.dev.devState ≠ 0) && decide (writeAuthority s (some (session p)) idx.toNat sub.toNat = stOk) &&
  decide ((entryOf s idx.toNat sub.toNat).bind domainMax = some m) && !beingCleared s p.val idx.toNat sub.toNat &&
  decide (8 ≤ data.length) && decide (data.length ≤ 1032)

theorem segment_sealed {p : Fin 8} {idx : BitVec 16} {sub : BitVec 8} {m : Nat} {data : List Byte} {s : State}
    (h : takesSegment p idx sub m data s = true) :
    ∃ e, SegmentHeard (sealed opSegWrite (request idx sub data) (session p)) (session p) e m s := by
  simp only [takesSegment, Bool.and_eq_true, decide_eq_true_eq, Bool.not_eq_true'] at h
  obtain ⟨⟨⟨⟨⟨⟨h1, h2⟩, h3⟩, h4⟩, h5⟩, h6⟩, h7⟩ := h
  have hn : (request idx sub data).data.length = (request idx sub data).len.toNat := by
    simp [request, Nat.mod_eq_of_lt (by omega : data.length < 65536)]
  have hd := reqData_sealed (opc := opSegWrite) (x := session p) hn
  obtain ⟨e, he, hm⟩ := Option.bind_eq_some_iff.mp h4
  refine ⟨e, heard_sealed (by omega) h1, h2, he, h3, rfl, hm, ?_, ?_, h5⟩ <;> rw [hd] <;> assumption

/-- A device with a session of partition 0 and a segmented write of an entry in progress that has the given bytes. -/
def uploading (idx : BitVec 16) (sub : BitVec 8) (total : Nat) (bs : List Byte) : State :=
  (withSession 0 owned).onEop fun e => { e with segs := [⟨idx, sub, 1, 0, total, bs⟩] }

/-- First segments of a firmware image, of the delay map and of a group list. -/
theorem test_first_segments :
    let s := withSession 0 owned
    let data := segData 0 2048 (zeros 1024)
    let r := request 0x8040 1 data
    (∀ x ∈ [((0x8040 : BitVec 16), (1 : BitVec 8), 2 ^ 20), (0x5010, 1, 16384), (0x5600, 16, 16384)],
      (entryOf s x.1.toNat x.2.1.toNat).bind domainMax ≠ none ∧
      takesSegment 0 x.1 x.2.1 (((entryOf s x.1.toNat x.2.1.toNat).bind domainMax).getD 0) data s = true ∧
      segTotal r ≤ ((entryOf s x.1.toNat x.2.1.toNat).bind domainMax).getD 0 ∧
      segOf (request x.1 x.2.1 data) s = none) ∧
    s.test.fwBusy = false ∧ segOffset r = 0 ∧ (segBytes r).length = 1024 ∧ segTotal r = 2048 := by decide +kernel

/-- The transfer in progress is of the entry, of session 1 and of that TOTAL. -/
theorem segOf_uploading (idx : BitVec 16) (sub : BitVec 8) (total : Nat) (bs data : List Byte) (f : Nv → Nv) :
    segOf (request idx sub data) ((uploading idx sub total bs).onNv f) = some ⟨idx, sub, 1, 0, total, bs⟩ := by
  simp [segOf, uploading, request, State.onEop, State.onNv]

/-- Later segments: one that joins, the last of each entry, and one out of order. -/
theorem test_later_segments :
    (let s := uploading 0x8040 1 3000 (zeros 1024)
     let r := request 0x8040 1 (segData 1024 3000 (zeros 1024))
     takesSegment 0 0x8040 1 (((entryOf s 0x8040 1).bind domainMax).getD 0) (segData 1024 3000 (zeros 1024)) s = true ∧
     segOffset r = 1024 ∧ segTotal r = 3000 ∧
     (segBytes r).length = 1024) ∧
    (let ends := fun (idx : BitVec 16) (sub : BitVec 8) =>
       let s := (uploading idx sub 1028 (zeros 1024)).onNv fun n => { n with ringSize := 4096 }
       let r := request idx sub (segData 1024 1028 (zeros 4))
       takesSegment 0 idx sub (((entryOf s idx.toNat sub.toNat).bind domainMax).getD 0) (segData 1024 1028 (zeros 4)) s &&
         decide (segOffset r + (segBytes r).length = segTotal r)
     ends 0x8040 1 = true ∧ ends 0x5010 1 = true ∧ ends 0x5600 16 = true) ∧
    delayMapBad ((uploading 0x5010 1 1028 (zeros 1024)).onNv fun n => { n with ringSize := 4096 }) (zeros 1028) = false ∧
    segOffset (request 0x8040 1 (segData 2048 3000 (zeros 1024))) ≠ 1024 := by decide +kernel

/-- A group list of more than one segment that names every member once. -/
theorem test_group_segments :
    let m := (List.range 257).flatMap fun i => leBytes 2 i ++ [0, 0]
    groupBad (owned.onNv fun n => { n with ringSize := 4096 }) m = false ∧ m.length = 1028 := by decide +kernel

theorem test_close_attest_hear :
    let s := withSession 1 owned
    hears (session 1) s = true ∧ s.att.fifo.length < 8 ∧ s.att.fifo.length < leavesLeft (s.onAtt fun a => { a with usable := true }) ∧
    (zeros 32).length = 32 := by decide +kernel

theorem test_session_timers_apply :
    sessionOf pendingState 1 = some pendingSession ∧
    (let s := withSession 1 owned
     sessionOf s 1 = some (session 1) ∧ (session 1).isOpen = true) ∧
    (let s := owned.onEop fun e => { e with segs := [⟨0x5010, 1, 2, 0, 4, []⟩, ⟨0x5010, 1, 1, 0, 4, []⟩] }
     s.eop.segs = [⟨0x5010, 1, 2, 0, 4, []⟩] ++ ⟨0x5010, 1, 1, 0, 4, []⟩ :: []) ∧
    (let x := { session 1 with unacked := [(9, 1, [])] }
     let y := { session 1 with unacked := [(9, 0, [])] }
     sessionOf (owned.onEop fun e => { e with sessions := [x] }) 1 = some x ∧ x.unacked = [(9, 1, [])] ∧
     sessionOf (owned.onEop fun e => { e with sessions := [y] }) 1 = some y ∧ y.unacked = [(9, 0, [])]) := by decide +kernel

/-- The acknowledgement of a notice. -/
theorem test_notify_ack_applies :
    let r := sealed opNotify { request 0 0 [] with rsp := true } (session 1)
    r.rsp = true ∧ badFraming opNotify r = false ∧ r.len = 0 ∧ sessionOf (withSession 1 owned) r.session = some (session 1) ∧
    tagHolds opNotify r (session 1) = true := by
  refine ⟨rfl, ?_, rfl, by decide +kernel, tagHolds_sealed rfl⟩
  simp [badFraming, sealed, request]

theorem test_sign_applies :
    let s := owned.onAtt fun a => { a with fifo := [7], usable := true, q := 1023, lim := 1024 }
    let u := owned.onAtt fun a => { a with fifo := [7], usable := true, q := 1024, lim := 1024 }
    (s.att.fifo = 7 :: [] ∧ leavesLeft s ≠ 0 ∧ s.att.q < s.att.lim) ∧
    (u.att.fifo = 7 :: [] ∧ leavesLeft u ≠ 0 ∧ u.att.q = u.att.lim) := by decide +kernel

/-! ### Witnesses: what ends on its own -/

/-- An image of one logical cell with one empty phase and one instruction (08 R217 to R219): its header, cell
declaration, phase list and code; every other byte is zero. -/
def imageHeader (level foot : Nat) : Nat :=
  0x43484952 * 2 ^ 480 + level * 2 ^ 464 + 71 * 2 ^ 416 + 2 ^ 352 + 2 ^ 320 + 2 ^ 304 + foot * 2 ^ 272 + 68 * 2 ^ 240 +
    68 * 2 ^ 208

/-- A partition that loads that image from relative address 0. -/
def loading (header : Nat) : State :=
  let s := owned.onPart 1 fun q => { q with loadSt := 1 }
  let put := fun (a : Nat) (bs : List Byte) (s : State) => { s with mem := s.mem.writeN (stackBase 0 + a) bs }
  put 2240 (leBytes 4 (rWord 1 1 0 0).toNat) (put 2208 [0xFF, 0xFF] (put 64 (leBytes 16 1) (put 0 (leBytes 64 header) s)))

/-- What a load of it meets: the two reads, LEVEL, the checks, the fit. -/
def loadFacts (s : State) : Option (Nat × Bool × Option Nat) :=
  (relRead 1 0 64 s).1.bind fun h => (relRead 1 0 (modHeader h).imgLen s).1.map fun img =>
    let i := imageOf (img ++ zeros (64 - img.length))
    let plan := planOf i (s.liveCells 1) (s.stackBytes 1) (streamRate s 1)
    (i.h.level, imageOk i, misfit plan ((List.range (s.liveCells 1).length).map plan.cellCode) (s.stackBytes 1) 0)

theorem test_load_facts :
    loadFacts (loading (imageHeader 1 1)) = some (1, true, none) ∧
    (loadFacts (loading (imageHeader 2 1))).map Prod.fst = some 2 ∧
    (loadFacts (loading (imageHeader 1 1 + 1))).map (fun x => x.2.1) = some false ∧
    loadFacts (loading (imageHeader 1 (2 ^ 17))) = some (1, true, none) ∧
    loadFacts (loading (imageHeader 1 (2 ^ 17 + 1))) = some (1, true, some 2) := by decide +kernel

theorem test_load_applies :
    let s := loading (imageHeader 1 1)
    (s.part 1).st = 1 ∧ (s.part 1).loadSt = 1 ∧ (s.part 1).loadAddr = 0 ∧ s.mem.errs = [] ∧ (s.part 1).provOn = false ∧
    cupEnabled (s.part 1).cupCfg = false ∧ (s.part 1).capsN = 0 ∧ (owned.part 1).loadSt ≠ 1 := by decide +kernel

theorem test_test_ends_apply :
    let s := ready.onTest fun t => { t with fwBusy := true, proof := some 33, chan := some (31, 15) }
    s.test.fwBusy = true ∧ s.test.proof = some 33 ∧ s.test.chan = some (31, 15) ∧ s.mem.errs = [] ∧
    channelHeld s 31 15 = false ∧ imageValid s.fuse.vendorKey s.nv.rollbackMin.toNat (s.slot (1 - s.nv.active.val)).image = false := by
  decide +kernel

/-- With the vendor's image in the slot that is not active the verification finds it valid. -/
theorem test_firmware_valid :
    let s := { bootable with
      nv := { bootable.nv with slots := vmod bootable.nv.slots 1 fun f => { f with image := image } },
      test := { bootable.test with fwBusy := true } }
    s.test.fwBusy = true ∧ imageValid s.fuse.vendorKey s.nv.rollbackMin.toNat (s.slot (1 - s.nv.active.val)).image = true := by
  have h : imageFault (BitVec.ofNat 448 (beNat vendorKey)) 0 image = none := image_verifies
  refine ⟨rfl, ?_⟩
  show imageValid (BitVec.ofNat 448 (beNat vendorKey)) 0 image = true
  have hp := image_sound.1
  generalize BitVec.ofNat 448 (beNat vendorKey) = key at h ⊢
  rw [imageValid, hp]
  cases hh : headerValid key 0 image with
  | true => rfl
  | false => simp [imageFault, hh] at h

/-- A sampled tile of command 1 of the quantize engine. -/
def sampleOne (tile : Nat) : Sample := { Sample.reset with queue := 2, seqNo := 1, tile := tile }

/-- A cell with that tile, the command done on its engine or not, and further tiles. -/
def sampled (done : Bool) (l : List Sample) : State :=
  owned.onCell 0 fun x => { x with
    samples := sampleOne 0 :: l,
    qe := ⟨if done then some (entry (BitVec.ofNat 256 quantWord), mkDone stOk Counts.reset 0) else none⟩ }

theorem test_dup_applies :
    (sampled true []).works (0 : Fin 34) = some 1 ∧ awnHolds (sampled true []) (0 : Fin 34) = false ∧
    ((sampled true []).cell (0 : Fin 34)).samples = [sampleOne 0] ∧ ((sampled true []).cell (0 : Fin 34)).ve.run = none ∧
    ((sampled true []).cell (0 : Fin 34)).ue.run = none ∧
    (outcomeOf ((sampled true []).cell (0 : Fin 34)) (sampleOne 0).queue (sampleOne 0).seqNo).isSome = true ∧
    outcomeOf ((sampled false []).cell (0 : Fin 34)) (sampleOne 0).queue (sampleOne 0).seqNo = none ∧
    ((sampled true []).cell (0 : Fin 34)).core.snaps = [] ∧
    (let s := sampled true [sampleOne 1]
     (s.cell (0 : Fin 34)).samples = sampleOne 0 :: [sampleOne 1] ∧ (sampleOne 1).queue = (sampleOne 0).queue ∧
     (sampleOne 1).seqNo = (sampleOne 0).seqNo) := by decide +kernel

/-- One upset makes the hashes equal, every other makes them differ. -/
theorem test_dup_hashes (u : Sample) (h : BitVec 64) :
    u.hash = h ^^^ (h ^^^ u.hash) ∧ u.hash ≠ h ^^^ (h ^^^ u.hash ^^^ 1) := by
  constructor
  · rw [← BitVec.xor_assoc, BitVec.xor_self, BitVec.zero_xor]
  · rw [← BitVec.xor_assoc, ← BitVec.xor_assoc, BitVec.xor_self, BitVec.zero_xor]
    intro e
    have : u.hash ^^^ u.hash = u.hash ^^^ (u.hash ^^^ 1) := by rw [← e]
    rw [← BitVec.xor_assoc, BitVec.xor_self, BitVec.zero_xor] at this
    exact absurd this (by decide)

/-- A tile of one block with one awn entry, 1.0 at position 0, current under an MMUL in progress. -/
theorem test_awn_holds :
    let t := { heldTile with
      fmt := BitVec.ofNat 32 (fmt4 + 2 ^ 14),
      bytes := [0, 0, 0x80, 0x3F] ++ zeros 60 ++ [0x84, 127] ++ zeros 30 ++ [0, 0x3C, 0] }
    let s := inLoop (timedWord 0) 0 id fun e => { e with cur := some t }
    let u := s.onCell 0 fun x => { x with samples := [sampleOne 0] }
    u.works (0 : Fin 34) = some 1 ∧ (u.cell (0 : Fin 34)).samples = sampleOne 0 :: [] ∧ awnHolds u (0 : Fin 34) = true := by
  decide +kernel

/-- A deletion and a reset of an unchanged definition under way. -/
theorem test_reset_end_applies :
    (let s := owned.onPart 1 fun q => { q with st := 3, nextDef := some 0, resetCause := BitVec.ofNat 8 stUncorrectable }
     (s.part (1 : Fin 8)).st = 3) ∧
    (let s := owned.onPart 1 fun q => { q with st := 3 }
     (s.part (1 : Fin 8)).st = 3 ∧ defLdb ((s.part 1).nextDef.getD (s.defOf 1)) = defLdb (s.defOf 1)) := by decide +kernel

/-- A partition in a replay of a module with one commit point, its one core in a state with a count of commit points. -/
def replaying (commitN : Nat) (run : CoreRun) : State :=
  (owned.onPart 1 fun q => { q with
    mod := some { Module.reset with nCommit := 1, imageTop := 2 ^ 33, patches := [[]] }, rst := 2, commitN := commitN }).onCell 0
    fun x => { x with core := { x.core with run := run, commits := 1 } }

theorem test_commit_applies :
    (commitReached (replaying 0 .atMark) (1 : Fin 8) = true ∧ ((replaying 0 .atMark).part (1 : Fin 8)).det.on = false) ∧
    commitReached (replaying 1 .atMark) (1 : Fin 8) = false ∧
    (replayDone (replaying 1 .ended) (1 : Fin 8) = true ∧ ((replaying 1 .ended).part (1 : Fin 8)).step = none ∧
      ((replaying 1 .ended).part (1 : Fin 8)).det.cap = none) ∧
    replayDone (replaying 0 .ended) (1 : Fin 8) = false := by decide +kernel

/-- A partition that saves its context at relative address 4,096, waiting or under way. -/
def savingAt (busy : Bool) : State := loaded (fun q => { q with saveReq := some 4096, saving := busy }) owned

theorem test_save_applies :
    saveReady (savingAt false) (1 : Fin 8) = true ∧ saveReady (savingAt true) (1 : Fin 8) = false ∧
    ((savingAt true).part (1 : Fin 8)).saving = true ∧ ((savingAt true).part (1 : Fin 8)).saveReq = some 4096 ∧
    ((savingAt false).part (1 : Fin 8)).saving = false ∧ (savingAt true).mem.errs = [] := by decide +kernel

/-- A context record's header of a module without tensors and logical cells: its length in 32-byte units. -/
def recordWord : Nat := 0x4C4E4331 * 2 ^ 480 + 2 ^ 464 + 39 * 2 ^ 416

/-- A partition that restores from relative address 0 a record with that header. -/
def restoringFrom (header : Nat) : State :=
  let s := loaded (fun q => { q with restoring := some 0 }) owned
  { s with mem := s.mem.writeN (stackBase 0) (leBytes 64 header) }

theorem test_restore_applies :
    (let s := restoringFrom recordWord
     (s.part (1 : Fin 8)).restoring = some 0 ∧ s.mem.errs = [] ∧ (relRead 1 0 64 s).1 = some (leBytes 64 recordWord) ∧
     64 ≤ s.stackBytes 1 ∧ (s.part 1).det.on = false ∧ bits recordWord 463 448 = (modOf s 1).instances.length ∧
     ((readBody s 1 0 recordWord).1.map fun body => (decide ((headerStatus s 1 0 recordWord body).1 = stOk),
       decide (slice body (1168 + 128 * (modOf s 1).nLogical) 0 = tensorEntries (rehash 1 (allInstances s 1) s).2 1))) =
         some (true, true)) ∧
    (let s := restoringFrom 0
     (relRead 1 0 64 s).1 = some (leBytes 64 0) ∧
     (readBody s 1 0 0).1.map (fun body => decide ((headerStatus s 1 0 0 body).1 = stOk)) = some false) ∧
    (let s := loaded (fun q => { q with restoring := some (2 ^ 33 - 32) }) owned
     (s.part (1 : Fin 8)).restoring = some (2 ^ 33 - 32) ∧ s.stackBytes 1 < fld (2 ^ 33 - 32 : BitVec 128) 63 0 + 64) := by
  decide +kernel

/-- A capsule of replay 0 of a partition whose seed is zero: the hash of 16 zero bytes, worked out outside the model, at
offset 128. -/
def withReplayCapsule (seedHash : Nat) (ents : Nat) : State :=
  let s := loaded (fun q => { q with det := { q.det with caps := 1 }, step := some ⟨0, true, true, false, []⟩ }) owned
  let put := fun (a : Nat) (bs : List Byte) (s : State) => { s with mem := s.mem.writeN (stackBase 0 + 0x400000 + a) bs }
  put 128 (beBytes 32 seedHash) (put 24 (leBytes 4 ents) (put 0 capsuleStart s))

def zeroSeedHash : Nat := 0x374708fff7719dd5979ec875d56cd2286f6d3cf7ec317a3b25632aab28ec37bb

/-- What the start of a step replay meets: the capsule agrees, and so do its tensor entries. -/
def stepFacts (s : State) : Option (Bool × Bool) :=
  (readCapsule 1 0 s).1.map fun c =>
    (decide (capReplays c = (s.part 1).replays.toNat ∧ capSeed c = sha256Bytes (beBytes 16 (s.part 1).seed.toNat) ∧
      capRun0 c = digestBytes (s.part 1).det.run),
     decide (capTensors c = tensorEntries (rehash 1 (allInstances s 1) s).2 1))

theorem test_step_replay_clauses :
    stepFacts (withReplayCapsule zeroSeedHash 0) = some (true, true) ∧
    stepFacts (withReplayCapsule zeroSeedHash 1) = some (true, false) ∧
    (stepFacts (withReplayCapsule 0 0)).map Prod.fst = some false ∧
    ((withReplayCapsule zeroSeedHash 0).part (1 : Fin 8)).step = some ⟨0, true, true, false, []⟩ ∧
    (withReplayCapsule zeroSeedHash 0).mem.errs = [] ∧ (owned.part (1 : Fin 8)).step = none := by decide +kernel

/-- Stack 0 with channel 15 in a phase. -/
def retraining (ph : RetrainPhase) : State :=
  owned.onStack 0 fun t => { t with chans := t.chans.set 15 { Chan.reset with phase := ph } }

theorem test_stack_clauses :
    stackWorks owned (0 : Fin 32) = true ∧ owned.mem.errs = [] ∧ owned.dev.devState = 1 ∧ flag owned.fuse.enabled 0 = true ∧
    ((owned.stack (0 : Fin 32)).chans[(15 : Fin 16)]).phase = .idle ∧
    ((retraining .requested).stack (0 : Fin 32)).chans[(15 : Fin 16)].phase = .requested ∧
    ((retraining .held).stack (0 : Fin 32)).chans[(15 : Fin 16)].phase = .held ∧
    (retraining .held).stackOwner (0 : Fin 32) = some 1 := by decide +kernel

/-! ### Witnesses: ports and frames -/

/-- A device with port E in a state, in a ring of 4 with id 1. -/
def portIn (st : BitVec 8) : State := (inRing [] owned).onPort 0 fun q => { q with st := st, full := false, good := 0xFF }

theorem test_port_clauses :
    ((portIn 0).port (portNum .e)).up = false ∧ ((portIn 3).port (portNum .e)).up = true ∧
    ((portIn 1).port (portNum .e)).st = 1 ∧ ((portIn 4).port (portNum .e)).st = 4 ∧
    (let s := withSession 0 (portIn 3)
     grants 0 0x5100 7 [1] s = true ∧ (s.port (portNum .e)).st ≠ 0 ∧ s.dev.removing = false) ∧
    ((portIn 3).onDev fun d => { d with removing := true }).dev.removing = true ∧
    (portIn 1).dev.bypCmd = true ∧ ((portIn 1).onDev fun d => { d with bypCmd := false }).dev.bypCmd = false ∧
    (let s := (portIn 3).onDev fun d => { d with bypCmd := false, autoInsert := true, loopGood := #v[0xFF, 0xFF] }
     insertOk s = true ∧ s.dev.autoInsert = true ∧ s.dev.bypCmd = false) := by decide +kernel

/-- A frame from device 2 for partition 1 of device 1. -/
def frame (type cls : Nat) (payload : List Byte) : VrtFrame :=
  { newFrame State.reset type cls 1 1 0 payload with srcRing := 2, hopsLeft := 4 }

theorem test_frames_dropped_or_forwarded :
    let s := inRing [] owned
    let far := { frame 1 0 (zeros 12) with dstRing := 3 }
    ((ready.port 0).up = false) ∧ carried (s.port 0) { sealFrame far with link := { Carrier.direct with ethType := 1 } } = false ∧
    carried (s.port 0) (sealFrame far) = true ∧
    ((frameRows .e (sealFrame (frame 2 0 [])))[1]?.map Prod.snd = some false ∧ frameOk (sealFrame (frame 2 0 [])) = true) ∧
    ((s.port 0).up = true ∧ (∀ k ∈ [0, 1], frameOk { sealFrame (frame 1 0 []) with cls := k, hcrc := 0 } = false)) := by decide +kernel

/-- A SACK frame for device 3 from a device, with hops left. -/
def transit (src hops : Nat) : VrtFrame :=
  sealFrame { frame 3 0 (zeros 4) with dstRing := 3, srcRing := BitVec.ofNat 16 src, hopsLeft := BitVec.ofNat 16 hops }

theorem test_transit_clauses :
    let s := inRing [] owned
    let full := s.onPort 0 fun q => { q with c0held := 2 ^ 21 }
    let other := s.onPort 1 fun q => { q with st := 0 }
    (∀ g ∈ [transit 1 4, transit 2 0, transit 2 4],
      (frameRows .e g)[3]?.map Prod.snd = some true ∧ Arrives .e g s ∧ g.cls = 0 ∧ hopLocal g = false ∧
      g.dstRing ≠ s.nv.ringId ∧ class0Room (s.port 0) g = true ∧ class0Room (full.port 0) g = false) ∧
    ((transit 2 4).srcRing ≠ s.nv.ringId ∧ (transit 2 4).hopsLeft ≠ 0 ∧ (transit 1 4).srcRing = s.nv.ringId ∧
      (transit 2 0).hopsLeft = 0 ∧ (s.port 1).up = true ∧ Arrives .e (transit 2 4) other ∧ (other.port 1).up = false) := by
  unfold Arrives; decide +kernel

theorem test_cut_through_clauses :
    let s := inRing [] owned
    CutThrough .e { transit 2 4 with fcsOk := false } s ∧ ¬ CutThrough .e { transit 2 4 with hcrc := 0 } s ∧
    (∀ g ∈ [{ transit 2 4 with fcsOk := false }, { transit 2 4 with hcrc := 0 }],
      frameOk g = false ∧ carried (s.port 0) g = true) := by
  unfold CutThrough; decide +kernel

/-- Port E with one frame in its replay buffer, sent since the port came up or not, and a credit of its class. -/
def replayPort (at_ : Nat) : State :=
  (inRing [] owned).onPort 0 fun q => { q with
    cfg := { q.cfg with delay := 50 }, credit := #v[1, 0, 0], replayAt := at_, replayBuf := [{ frame 0 1 [] with hseq := 7 }] }

theorem test_hop_frames_apply :
    let s := inRing [] owned
    let f := fun k => sealFrame (frame k 0 [0, 0, 0, 0, 1])
    let plain := sealFrame (frame 2 0 [0, 0, 0, 0])
    (s.port 0).txq = [] ∧ (s.port 0).replayAt = (s.port 0).replayBuf.length ∧
    (∀ k ∈ [1, 2, 6], OfTheHop .e (f k) s ∧ (f k).type = BitVec.ofNat 4 k) ∧ (s.port 0).cfg.attach = 0 ∧
    (frameBody (f 2))[4]? = some 1 ∧ OfTheHop .e plain s ∧ (frameBody plain)[4]? ≠ some 1 ∧
    (let u := replayPort 1
     (u.port 0).replayBuf.filter (fun g => decide (((0 : BitVec 32) - g.hseq).toNat ≥ 2 ^ 31)) ≠ [] ∧ OfTheHop .e (f 2) u ∧
      (u.port 0).replayAt = (u.port 0).replayBuf.length) ∧
    (let u := replayPort 0
     OfTheHop .e plain u ∧ (u.port 0).txq = [] ∧ (u.port 0).short = true ∧
      (u.port 0).replayBuf = [{ frame 0 1 [] with hseq := 7 }] ∧ (u.port 0).replayAt = 0 ∧ classOpen (u.port 0) 1 = true ∧
      2 ^ 31 ≤ ((0 : BitVec 32) - 7).toNat) ∧
    (let u := s.onPort 0 fun q => { q with probes := [⟨0, 0, false⟩] }
     OfTheHop .e (f 6) u ∧ ((u.port 0).probes.find? fun y => decide (y.num = (f 6).xid)) = some ⟨0, 0, false⟩ ∧
      ∀ x ∈ (s.port 0).probes, x.num ≠ (f 6).xid) := by
  unfold OfTheHop Arrives; decide +kernel

theorem test_hop_timers_apply :
    let s := fun (l : List HopProbe) => (inRing [] owned).onPort 0 fun q => { q with probes := l }
    let c := (inRing [] owned).onPort 0 fun q => { q with rx := q.rx.set 2 { PortRx.reset with unreported := 1 } }
    let e := (inRing [] owned).onPort 0 fun q => { q with cfg := { q.cfg with attach := 1 } }
    ((s []).port 0).up = true ∧ ((s []).port 0).txq = [] ∧ ((s []).port 0).probes = [] ∧
    (∀ b ∈ [false, true], ((s [⟨0, 0, b⟩]).port 0).up = true ∧ ((s [⟨0, 0, b⟩]).port 0).probes = [⟨0, 0, b⟩]) ∧
    ((c.port 0).up = true ∧ (c.port 0).cfg.attach = 0 ∧ 0 < (c.port 0).rx[(2 : Fin 3)].unreported) ∧
    ((e.port 0).up = true ∧ (e.port 0).cfg.attach ≠ 0 ∧ (e.port 0).replayAt = (e.port 0).replayBuf.length) ∧
    linkRetry ((s []).port 0) = true ∧ linkRetry ((replayPort 1).port 0) = true ∧
    ((replayPort 1).port 0).replayBuf.take ((replayPort 1).port 0).replayAt ≠ [] := by decide +kernel

/-- The ring device with one credit of each class granted to the neighbour E, on a short hop or a long one. -/
def granting (delay : Nat) : State :=
  (inRing [] owned).onPort 0 fun q => { q with
    rx := Vector.replicate 3 { PortRx.reset with granted := 1 }, cfg := { q.cfg with delay := BitVec.ofNat 32 delay } }

theorem test_data_clauses :
    let f := sealFrame { frame 0 1 (zeros 32) with last := true, aux := 32 }
    let short := granting 50
    let long := (granting 101).onPort 0 fun q => { q with rx := Vector.replicate 3 PortRx.reset }
    (Reaches .e f long ∧ f.type = 0 ∧ (long.port 0).cfg.attach = 0 ∧ (long.port 0).short = false ∧
      (vget (long.port 0).rx (f.cls.toNat - 1) PortRx.reset).recvd = (vget (long.port 0).rx (f.cls.toNat - 1) PortRx.reset).granted) ∧
    (let g := sealFrame { frame 0 1 [] with hseq := 1 }
     Reaches .e g short ∧ (short.port 0).short = true ∧ g.hseq ≠ (short.port 0).hseqRx) ∧
    (Taken .e f short ∧ f.eseq = 0 ∧ f.last = true ∧ short.ring.rx = [] ∧ (short.part f.dstPart.toNat).recvs = []) := by
  unfold Taken Reaches Arrives; decide +kernel

/-- A transfer of one frame to device 2 under id 9, of the command 1 of cell 0. -/
def sending : TxXfer :=
  { TxXfer.reset with
    xid := 9, part := 1, port := 0, cls := 1, dstRing := 2, len := 32, sends := [8], acked := [false], origin := .cmd 0 1,
    srcs := [(stackBase 0, 32)] }

theorem test_sack_applies :
    let s := (inRing [] owned).onRing fun r => { r with tx := [sending] }
    let f := sealFrame { frame 3 0 (leBytes 4 0) with xid := 9 }
    let r := { f with aux := 0x99 }
    (∀ g ∈ [f, sealFrame r], TakenClass0 .e g s ∧ g.type = 3 ∧ flag g.aux 31 = false) ∧ r.aux ≠ 0 ∧ f.aux = 0 ∧
      (s.part f.dstPart.toNat).st ≠ 3 ∧ s.ring.tx = [sending] ∧ sending.xid = f.xid ∧
    sending.dstRing = f.srcRing ∧ sending.part = f.dstPart.toNat ∧ leNat ((frameBody f).take 4) + 1 < 2 ^ 32 ∧
    sending.acked.length ≤ leNat ((frameBody f).take 4) + 1 := by unfold TakenClass0 Reaches Arrives; decide +kernel

/-- A DESC frame for the RECV engine 0 with a descriptor of 64 bytes, under the key of session 1. -/
def descBody : List Byte := leBytes 32 (2 ^ 252 + 64 * 2 ^ 144)
def descHead : VrtFrame := sealFrame { frame 7 1 (zeros 48) with stream := 0xFE, aux := 1 }
def descFrame : VrtFrame := { descHead with payload := descBody ++ (hmac 7 (vrtHead28 descHead ++ descBody)).take 16 }

theorem test_desc_applies :
    let s := withSession 1 (granting 50)
    (Taken .e descFrame s ∧ descFrame.type = 7 ∧ descEngine descFrame.stream = some 0 ∧
      (vget (s.part 1).paced 0 []).length < pacedDepth 0 ∧ s.dev.removing = false ∧
      dOp (BitVec.ofNat 256 (leNat ((frameBody descFrame).take 32))) = 1) ∧
    descSession { descFrame with payload := frameBody descFrame } s = some (session 1) := by
  unfold Taken Reaches Arrives; decide +kernel

theorem test_desc_refused_and_done :
    let s := granting 50
    (Taken .e descHead s ∧ descHead.type = 7 ∧ descSession { descHead with payload := frameBody descHead } s = none) ∧
    (let f := sealFrame (frame 8 1 (zeros 32))
     Taken .e f s ∧ f.type = 8) := by unfold Taken Reaches Arrives; decide +kernel

/-- A partition with a descriptor of an operation at the head of a paced queue; its length is n. -/
def paced (engine op n : Nat) : State :=
  (inRing [] owned).onPart 1 fun q => { q with paced := vmod q.paced engine fun _ =>
    [⟨BitVec.ofNat 256 (op * 2 ^ 252 + 2 ^ 250 + 3 * 2 ^ 224 + n * 2 ^ 144), 1, 0, false⟩] }

theorem test_paced_clauses :
    (∀ w ∈ [(1, 1), (1, 2), (2, 3)],
      ((nextDesc (paced w.1 w.2 64) (1 : Fin 8) w.1 w.2).map fun x => descBad (paced w.1 w.2 64) 1 false x.desc) = some false ∧
      ((nextDesc (paced w.1 w.2 0) (1 : Fin 8) w.1 w.2).map fun x => descBad (paced w.1 w.2 0) 1 false x.desc) = some true ∧
      nextDesc owned (1 : Fin 8) w.1 w.2 = none ∧ (paced w.1 w.2 64).ring.rx = []) ∧
    ((nextDesc (paced 1 2 64) (1 : Fin 8) 1 2).map fun x => decide (dClass x.desc ≠ 0)) = some true := by decide +kernel

theorem test_transfer_timers_apply :
    let x := { firstOf .e (sealFrame { frame 0 1 (zeros 32) with last := true, aux := 32 }) with unacked := 0 }
    let s := (inRing [] owned).onRing fun r => { r with rx := [x] }
    let u := (inRing [] owned).onRing fun r => { r with rx := [{ x with unacked := 1 }] }
    let t := (inRing [] owned).onRing fun r => { r with tx := [sending] }
    (s.ring.rx = [x] ∧ x.unacked = 0) ∧ (u.ring.rx = [{ x with unacked := 1 }] ∧ (u.port x.port).up = true) ∧
    txOf owned 9 = none ∧
    (t.ring.tx = [sending] ∧ sending.acked.findIdx? (fun a => !a) = some 0 ∧ 8 ≤ (sending.sends[0]?).getD 0) := by
  decide +kernel

/-! ### Witnesses: collectives, cupping, power -/

/-- A collective of 64 bytes in group 15, staged at 8,192, of command 1 of cell 0; a reduce-scatter of two segments; a
barrier. -/
def allReduce : Coll :=
  { Coll.reset with group := 15, seqNo := 1, cop := 1, cls := 1, len := 64, dst := 4096, stage := 8192 }
def reduceScatter : Coll := { allReduce with cop := 2, len := 8192 }
def barrier : Coll := { Coll.reset with group := 15, seqNo := 1, barrier := true }

/-- Partition 1 of device 1 with one work in a group of two or three; `first` puts it first. -/
def working (x : Coll) (first : Bool) (more : List Byte) : State :=
  (granting 50).onPart 1 fun q => { q with
    colls := [x], inst := q.inst.set 15 1, binst := q.binst.set 15 1,
    groups := q.groups.set 15 ((if first then [1, 0, 1, 0, 2, 0, 0, 0] else [2, 0, 0, 0, 1, 0, 1, 0]) ++ more) }

theorem remote_of {p me : Nat} {x : Coll} {s : State} (h : memberIndex s p x.group = some me)
    (h2 : 2 ≤ (membersOf s p x.group).length)
    (h3 : ∀ i, i < (membersOf s p x.group).length → i ≠ me →
      ((membersOf s p x.group).getD i (0, 0)).1 ≠ s.nv.ringId.toNat) : OthersRemote p me x s := by
  refine ⟨h, h2, fun i m hm hi => ?_⟩
  obtain ⟨hl, he⟩ := List.getElem?_eq_some_iff.mp hm
  simpa [hl, he] using h3 i hl hi

theorem test_remote :
    OthersRemote 1 0 allReduce (working allReduce true []) ∧ OthersRemote 1 0 allReduce (working allReduce true [3, 0, 0, 0]) ∧
    OthersRemote 1 1 reduceScatter (working reduceScatter false []) ∧ OthersRemote 1 1 barrier (working barrier false []) ∧
    OthersRemote 1 0 barrier (working barrier true [3, 0, 0, 0]) ∧
    OthersRemote 1 1 { allReduce with ready := false } (working allReduce false []) :=
  ⟨remote_of (by decide +kernel) (by decide +kernel) (by decide +kernel),
   remote_of (by decide +kernel) (by decide +kernel) (by decide +kernel),
   remote_of (by decide +kernel) (by decide +kernel) (by decide +kernel),
   remote_of (by decide +kernel) (by decide +kernel) (by decide +kernel),
   remote_of (by decide +kernel) (by decide +kernel) (by decide +kernel),
   remote_of (by decide +kernel) (by decide +kernel) (by decide +kernel)⟩

/-- A control frame of a kind for group 15's instance 0. -/
def control (k : Nat) (info : List Byte) : VrtFrame :=
  sealFrame { frame 5 0 ([BitVec.ofNat 8 k] ++ info) with stream := 15 }

theorem test_control_clauses :
    let s := working allReduce true []
    (∀ k ∈ [2, 3, 4], Control .e (control k []) k 1 allReduce s) ∧ s.drams = State.reset.drams ∧ s.mem.errs = [] ∧
    allReduce.stage + resultLen allReduce 2 ≤ s.stackBytes 1 ∧ allReduce.dst + resultLen allReduce 2 ≤ s.stackBytes 1 ∧
    allReduce.decided = none ∧ { allReduce with decided := some false }.decided.isSome = true := by
  unfold Control TakenClass0 Reaches Arrives OnlyWork; decide +kernel

theorem test_ready_clause :
    let s := working allReduce true [3, 0, 0, 0]
    let f := control 1 (readyInfo s 1 allReduce)
    Control .e f 1 1 allReduce s ∧ (membersOf s 1 15).findIdx? (fun m => decide (m = (f.srcRing.toNat, f.srcPart.toNat))) = some 1 ∧
    (1 : Nat) ∉ allReduce.readyFrom ∧ (frameBody f).drop 1 = readyInfo s 1 allReduce ∧
    allReduce.readyFrom.length + 1 < (membersOf s 1 15).length := by
  unfold Control TakenClass0 Reaches Arrives OnlyWork; decide +kernel

/-- The result segment 1 of a reduce-scatter at member 1. -/
theorem test_segment_clause :
    let s := working reduceScatter false []
    let f := sealFrame { frame 4 1 (zeros 4096) with stream := 15, eseq := 1, aux := 0x40000000 }
    Taken .e f s ∧ f.type = 4 ∧ f.dstPart.toNat = 1 ∧ OnlyWork 1 reduceScatter s ∧ f.stream.toNat = reduceScatter.group ∧
    f.xid = reduceScatter.inst ∧ fld f.aux 31 30 = 1 ∧ f.eseq.toNat < segCount reduceScatter ∧
    f.eseq.toNat ∉ reduceScatter.haveSegs ∧ wants reduceScatter 2 1 f.eseq.toNat = true ∧
    (frameBody f).length = segLen reduceScatter f.eseq.toNat ∧
    reduceScatter.stage + resultOff reduceScatter 2 f.eseq.toNat + segLen reduceScatter f.eseq.toNat ≤ s.stackBytes 1 := by
  unfold Taken Reaches Arrives OnlyWork; decide +kernel

theorem test_barrier_and_timeout_clauses :
    let f := sealFrame { frame 9 0 [] with stream := 15 }
    let s := working barrier true [3, 0, 0, 0]
    (TakenClass0 .e f s ∧ f.type = 9 ∧ OnlyWork 1 barrier s ∧
      (membersOf s 1 15).findIdx? (fun m => decide (m = (f.srcRing.toNat, f.srcPart.toNat))) = some 1 ∧
      barrier.readyFrom.length + 1 < (membersOf s 1 15).length) ∧
    (TakenClass0 .e f (working barrier false []) ∧ OnlyWork 1 barrier (working barrier false [])) ∧
    (OnlyWork 1 allReduce (working allReduce false []) ∧ allReduce.ready = false ∧ allReduce.aborted = false) ∧
    (∀ y ∈ (working allReduce false []).part (1 : Fin 8) |>.colls, ¬ (y.group = (15 : Fin 16).val ∧ y.barrier = true ∧ y.inst = 0)) ∧
    (let u := granting 50
     let g := { control 3 [] with stream := 15 }
     (u.part 1).st = 1 ∧ notYet u 1 15 false g.xid = true ∧ TakenClass0 .e (control 3 []) u) := by
  unfold TakenClass0 Reaches Arrives OnlyWork; decide +kernel

/-- Partition 1 cupped with partition 0 of device 2, in a cupping state, waiting at a point or not. -/
def cupped (st : BitVec 8) (point : Option (BitVec 64)) : State :=
  (inRing [] owned).onPart 1 fun q => { q with
    det := { q.det with cup := BitVec.ofNat 32 (2 ^ 24 + 2) }, cup := { q.cup with st := st, point := point } }

/-- The peer's DIGEST for point 0 with a run digest, and its END. -/
def cupFrame (kind : Nat) (run : BitVec 256) : VrtFrame := sealFrame (frame 6 0 (cupPayload kind 0 0 run 0))

theorem test_cupping_clauses :
    let s := cupped 1 (some 0)
    let q := s.part 1
    (∀ f ∈ [cupFrame 1 0, cupFrame 1 1, cupFrame 2 0], TakenClass0 .e f s ∧ f.type = 6 ∧ f.dstPart.toNat = 1 ∧
      cupPeer q.det.cup = (f.srcRing, f.srcPart.toNat) ∧ (frameBody f).head? = some 0x10) ∧
    (cupPeer q.det.cup).1 ≠ s.nv.ringId ∧ cupActive q = true ∧ q.cup.point = some 0 ∧ q.saveReq = none ∧ s.mem.errs = [] ∧
    q.st = 1 ∧ payloadPoint (frameBody (cupFrame 1 0)) = 0 ∧
    slice (frameBody (cupFrame 1 0)) 24 64 = digestBytes q.det.run ++ digestBytes q.det.d ∧
    slice (frameBody (cupFrame 1 1)) 24 64 ≠ digestBytes q.det.run ++ digestBytes q.det.d ∧
    (q.cup.st ≠ 0 ∧ q.cup.st ≠ 3 ∧ q.cup.st ≠ 4) ∧ ((cupped 2 none).part 1).cup.point = none ∧
    (s.port (routePort s (cupPeer q.det.cup).1)).up = true := by
  unfold TakenClass0 Reaches Arrives; decide +kernel

/-- A device whose rails are commanded, with a change of the power manager. -/
def powered (f : Power → Power) : State :=
  ready.onPower fun p => f { p with rails := Vector.replicate 2 { Rail.reset with exp := 24 } }

theorem test_power_clauses :
    let s := powered id
    (managing ready = true ∧ 9 ≤ ready.dev.bootOrder ∧ managing State.reset = false) ∧
    (managing s = true ∧ s.dev.vrAlertN = true ∧ s.power.bus = [] ∧ commanded (s.rail 0) = true ∧ commanded (s.rail 1) = true ∧
      (s.rail 0).step = none ∧ (s.rail 1).step = none ∧ State.reset.dev.porstN = false) ∧
    (let u := (powered fun p => { p with lowest := true }).onDev fun d => { d with vrAlertN := false }
     u.dev.vrAlertN = false ∧ u.power.lowest = true ∧ (u.rail 0).step ≠ some .restore ∧ (u.rail 1).step ≠ some .restore) ∧
    (let u := powered fun p => { p with bus := [{ plainTxn 1 0x21 0 with step := some .lowest, tries := 3 }] }
     u.power.bus = [{ plainTxn 1 0x21 0 with step := some .lowest, tries := 3 }]) ∧
    (∀ k ∈ [StepKind.boot, .ret], let u := powered fun p => { p with rails := p.rails.map fun r => { r with step := some k, sent := true } }
      (u.rail 1).step = some k ∧ (u.rail 1).sent = true ∧ (u.rail 1).next = none ∧ (u.rail 1).droop = false ∧
      ¬ (k = .restore ∧ u.power.lowest = true)) ∧
    (let u := powered fun p => { p with rails := p.rails.map fun r => { r with droop := true } }
     (u.rail 0).droop = true ∧ (u.rail 0).next = none) ∧
    (∀ b ∈ (powered id).power.retries, b.rail.val ≠ 0) := by decide +kernel

/-- A write waiting at a rail's regulator, a read in progress, and the hold of its third failure. -/
theorem test_power_bus_clauses :
    let w := { plainTxn 1 0x21 0 with step := some .lowest }
    let r := plainTxn 0 0x79 0
    let u := powered fun p => { p with bus := [r], retries := [w] }
    let off := ready.onDev fun d => { d with powered := false }
    let cold := State.reset.onDev fun d => { d with powered := true }
    u.power.bus = [r] ∧ r.cmd ≠ 0x20 ∧ r.retry = false ∧ r.tries < 3 ∧ pecHolds w 0 0 = true ∧
    pecHolds r 0 (BitVec.ofNat 8 (pecOf (busBytes r ++ leBytes (readLen r.cmd) 0))) = true ∧
    pecHolds r 0 (1 + BitVec.ofNat 8 (pecOf (busBytes r ++ leBytes (readLen r.cmd) 0))) = false ∧
    off.dev.powered = false ∧ (cold.dev.powered = true ∧ cold.dev.vrAlertN = true ∧ managing cold = false) ∧
    (let low := cold.onDev fun d => { d with vrAlertN := false }
     low.dev.powered = true ∧ low.dev.vrAlertN = false ∧ managing low = false) ∧
    (∃ b ∈ u.power.retries, b.rail.val = 1) := by decide +kernel

/-! ### The checks of `Instr.wf` -/

theorem test_wf_accepts :
    (∀ i ∈ [Instr.jtagBypass ⟨true, [true]⟩, .read (request 0x6050 2 []), .seedWrite (request 0x9010 1 []), .data .e (frame 0 1 []),
      .copy 0 [⟨0, .link 0⟩], .slotBegin 0 none false (some ⟨0, 511, 0, 3, 3, 1⟩)], i.wf = true) := by decide +kernel

theorem test_wf_refuses_empty_shift : (Instr.jtagIdcode ⟨true, []⟩).wf = false := by decide
theorem test_wf_refuses_long_datagram : (Instr.read (request 0x6050 2 (zeros 1049))).wf = false := by decide +kernel
theorem test_wf_refuses_long_tag : (Instr.read { request 0x6050 2 [] with tag := zeros 17 }).wf = false := by decide +kernel
theorem test_wf_refuses_short_tag_after_data :
    (Instr.read { request 0x6050 2 [1] with tag := zeros 3 }).wf = false := by decide +kernel
theorem test_wf_refuses_other_entry : (Instr.seedWrite (request 0x9020 1 [])).wf = false := by decide +kernel
theorem test_wf_refuses_other_type : (Instr.data .e (frame 1 1 [])).wf = false := by decide +kernel
theorem test_wf_refuses_long_payload :
    (Instr.credit .e (frame 1 0 (zeros 257))).wf = false ∧ (Instr.data .e (frame 0 1 (zeros 4097))).wf = false := by
  decide +kernel
theorem test_wf_refuses_part_twice : (Instr.copy 0 [⟨1, .link 0⟩, ⟨1, .link 1⟩]).wf = false := by decide +kernel
theorem test_wf_refuses_upsets :
    (∀ u ∈ [(⟨0, 512, 0, 0, 0, 1⟩ : Upset), ⟨0, 0, 0, 4, 0, 1⟩, ⟨0, 0, 0, 0, 4, 1⟩, ⟨0, 0, 0, 0, 0, 0⟩],
      (Instr.slotBegin 0 none false (some u)).wf = false) := by decide +kernel

/-! ### Values from the spec's worked examples and from published test vectors -/

/-- FIPS 180-4, the message "abc". -/
theorem test_sha256 : sha256 [0x61, 0x62, 0x63] =
    0xba7816bf8f01cfea414140de5dae2223b00361a396177a9cb410ff61f20015ad := by decide +kernel

/-- RFC 4231, test case 1. -/
theorem test_hmac : hmac (BitVec.ofNat 256 (0x0b0b0b0b0b0b0b0b0b0b0b0b0b0b0b0b0b0b0b0b * 2 ^ 96))
      [0x48, 0x69, 0x20, 0x54, 0x68, 0x65, 0x72, 0x65] =
    beBytes 32 0xb0344c61d8db38535ca8afceaf0bf12b881dc200c9833da726e9376c2e32cff7 := by decide +kernel

/-- FIPS 197, appendix C.1. -/
theorem test_aes128 : aes128 (beBytes 16 0x000102030405060708090a0b0c0d0e0f) (beBytes 16 0x00112233445566778899aabbccddeeff) =
    beBytes 16 0x69c4e0d86a7b0430d8cdb78070b4c55a := by decide +kernel

/-- RFC 3720, the check value of "123456789". -/
theorem test_crc32c : crc32c [0x31, 0x32, 0x33, 0x34, 0x35, 0x36, 0x37, 0x38, 0x39] = 0xE3069283 := by decide +kernel

/-- The block of the worked example of 03: 40 at 17, -25 at 90, ±0.70 elsewhere. -/
def exampleBlock : List Dy := (List.range 128).map fun i =>
  if i = 17 then ⟨40, 0⟩ else if i = 90 then ⟨-25, 0⟩ else value f32 (if i % 2 = 0 then 0x3F333333 else 0xBF333333)

def exampleFmt : Fmt :=
  { baseW := 2, enc := .e2m1, fbEnc := .e4m3, fbEn := false, blk := 128, f8 := false, nearest := false, rot := 1,
    awnC := 2, ratio := 4 }

/-- 03, worked example, unrotated: scale 8 and 126 flushed; header 0x7C88 and its two awn entries; F8 scale 0x5F. -/
theorem test_quantise_block :
    (let r := quantPlain { exampleFmt with awnC := 0 } exampleBlock; r.1.hdr / 256 = 0x82 ∧ r.2.flu = 126) ∧
    (let r := quantPlain exampleFmt exampleBlock
     r.1.hdr = 0x7C88 ∧ r.1.awn = [0x115100, 0x5ACE40] ∧ r.1.elem % 256 = 0xF7 ∧ r.2.flu = 0) ∧
    (quantPlain { exampleFmt with f8 := true } exampleBlock).1.hdr / 256 = 0x5F := by decide +kernel

/-- 03, worked example, rotated: scale 16 and no awn entry; under round-nearest one overflow of 63 elements. -/
theorem test_rotate_block :
    let z := (rotate 128 exampleBlock).1
    (quantPlain exampleFmt z).1.hdr = 0x8380 ∧ (quantPlain exampleFmt z).2.flu = 0 ∧
    (let r := quantPlain { exampleFmt with nearest := true } z; r.1.hdr / 256 = 0x82 ∧ r.2.sat = 63 ∧ r.2.awn = 1) ∧
    bits (quantPlain { exampleFmt with nearest := true, fbEn := true } z).1.hdr 7 6 = 3 := by decide +kernel

/-- The dY block of the worked example of 05 and its column of the held copy. -/
def pairRow : List Dy :=
  [value bf16 0x3DB0, value bf16 0xBCF8, value bf16 0x3C70, value bf16 0x3BA8] ++ List.replicate 28 Exact.zero
def pairHeld : RawBlk := { elem := 0x27B3, hdr := 0x7B80, awn := [], tail := 0, cpt := 0, cp3 := 0 }

/-- 05, worked example: the planes of the pair, the two accumulators and the leaf 0.03277587890625. -/
theorem test_pair_product :
    let f := { exampleFmt with enc := .int4, blk := 32, awnC := 0 }
    let r := quantCp f false pairRow
    (r.1.elem % 65536 = 0x01E6 ∧ r.1.cpt % 65536 = 0x5F19 ∧ r.1.hdr = 0x7980 ∧ r.2.flu = 0) ∧
    (match decodeBlk f 0 pairHeld, decodeBlk f 1 r.1 with
      | some h, some s => decide (narrowSum h s 0 0 32 0 0 = 35 ∧ narrowSum h s 0 0 32 0 1 = -23 ∧
          leafOf h s 0 0 32 1 (fun _ _ => 0) = ⟨537, -14⟩)
      | _, _ => false) = true := by decide +kernel

/-- 04, worked example: the tree over 4.28125 and fifteen times 0.25 gives 8.03125, and 4.015625 is 0x40808000. -/
theorem test_tree :
    (Exact.sub (treeSum 4 0 (⟨137, -5⟩ :: List.replicate 15 ⟨1, -2⟩)).2 ⟨257, -5⟩).m = 0 ∧ (roundTo f32 ⟨257, -6⟩).1 = 0x40808000 := by
  decide +kernel

/-- A held column of four positions 0, 5 of a block of 32, and the streamed block of the residue example of 04. -/
def residueCol (a b : Int) : List DBlk := [⟨[⟨0, [a, 0, 0, 0, 0, b] ++ List.replicate 26 0⟩], Exact.one, [], 0⟩]
def residueRow : List DBlk := residueCol 3 (-2)

/-- 04, worked example: r_0 = 15, r_5 = 124, the check passes, and a flip of bit 7 of column 2 fails it. -/
theorem test_residue :
    let f := { exampleFmt with blk := 32, awnC := 0 }
    let cols := [residueCol 7 0, residueCol (-4) 6, residueCol 12 0, residueCol 0 (-9)]
    heldResidue cols 32 0 0 = 15 ∧ heldResidue cols 32 0 5 = 124 ∧
    residueOk f f 32 cols residueRow 0 0 0 0 = true ∧ residueOk f f 32 cols residueRow 128 0 0 0 = false := by decide +kernel

/-- 02, worked example: at k = 48, 22 slots from position 0 issue 16 beats and 21 issue 15. -/
theorem test_limiter :
    ((List.range 22).filter (slotIssued 48)).length = 16 ∧ ((List.range 21).filter (slotIssued 48)).length = 15 ∧
    (List.range 64).filter (slotIssued 64) = List.range 64 := by decide +kernel

/-- 06, worked example: the counter block of block 19,239, and gl = 34 for r = 6, 35 for exactly five of sixteen. -/
theorem test_stochastic_rounding :
    counterBlock 1 1207 0x0A3C 19239 = 0x000100000004B7000A3C000000004B27 ∧
    (let x := Exact.add ⟨3, -7⟩ (Exact.add ⟨-91, -25⟩ ⟨40, -21⟩)
     (srg bf16 4 6 x).2.1 = 34 ∧ ((List.range 16).filter fun r => (srg bf16 4 r x).2.1 = 35).length = 5 ∧
     code bf16 (srg bf16 4 6 x).1 = code bf16 ⟨3, -7⟩) := by decide +kernel

/-- 09, worked example: where 0x4001_2340 of stack 05 lies, its log entry, and the decode of the flipped word. -/
theorem test_stack_word :
    dramPos 5 0x40012340 false = ⟨5, 2, 4, 2048, 18, false⟩ ∧ logWord (dramPos 5 0x40012340 false) false 31 1 = 0x9F01221001200000 ∧
    rsDecode ((List.range 36).map fun i => if i = 31 then 1 else 0) = .corrected 31 1 (List.replicate 36 0) := by decide +kernel

/-- 08, worked example: on 28 cells logical cells 28 to 31 fall on indices 0 to 3. -/
theorem test_host_index : [27, 28, 29, 30, 31].map (hostIndex 28) = [27, 0, 1, 2, 3] ∧ hostIndex 32 31 = 31 := by decide

/-- 11, worked example: the header of a read of OD 0x6050:02, and of its response. -/
theorem test_eop_header :
    reqHeader 1 { request 0x6050 2 [] with session := 0x0203, seqNo := 2 } = beBytes 16 0x11000002030000000260500200000000 ∧
    eopHeader 1 true 0 0x0203 2 0x6050 2 1 = 0x11800002030000000260500200010000 := by decide +kernel

/-- 13, worked example: the buffers of the three partitions in classes 1 to 3. -/
theorem test_pool_shares :
    let d := fun (w1 w2 w3 : Nat) => BitVec.ofNat 512 (w1 * 2 ^ 104 + w2 * 2 ^ 112 + w3 * 2 ^ 120)
    let s := State.reset.onNv fun n => { n with defs := ((n.defs.set 1 (d 8 1 1)).set 2 (d 6 1 1)).set 3 (d 2 1 2) }
    [1, 2, 3].map (fun p => poolShare s 0 p 1) = [4096, 3072, 1024] ∧ [1, 2, 3].map (fun p => poolShare s 0 p 2) = [2730, 2730, 2730] ∧
    [1, 2, 3].map (fun p => poolShare s 0 p 3) = [2048, 2048, 4096] := by decide +kernel

/-- 14, worked example: a cap of 1,100 W selects 32, then five milliseconds at 40, then 32 again. -/
theorem test_cap_loop :
    let est := #v[80, 250, 240, 875]
    let s := State.reset.onNv fun n => { n with capW := 1100, capWindow := 8 }
    let p0 := (resetWindow (s.onPower fun p => { p with est := est })).power
    let next := capUpdate s est
    p0.kCap = 32 ∧ (next p0).kCap = 40 ∧ (next (next (next (next (next p0))))).kCap = 40 ∧
    (next (next (next (next (next (next p0)))))).kCap = 32 := by decide +kernel

/-- 15, worked example: the record of cell 19's DUP_MISMATCH as event 7 of boot 412. -/
theorem test_event_record :
    let s := (State.reset.onNv fun n => { n with bootCount := 412, fhNext := 0 }).onDev fun d => { d with evOrd := 6 }
    mapGet 0 (recordEvent 0x02 1 19 0x13 2 0x1400001A2B s).nv.events 0 = 0x82010131320000019C00071400001A2B := by decide +kernel

/-- 16, worked example: slot 3 of the region at STACK_FOOT 0x0014_0000. -/
theorem test_capsule_slot :
    let s := State.reset.onPart 2 fun q => { q with
      mod := some { Module.reset with foot := 0x140000 * 65536 }, det := { q.det with prov := true, caps := 4 } }
    slotBase s 2 3 = 0x140DC00000 ∧ slotSize (s.part 2).det = 72 * 2 ^ 20 ∧ regionSize (s.part 2).det = 292 * 2 ^ 20 := by
  decide +kernel

/-- 12, worked example: the leaf 33,792 is reserved before it signs, up to 34,816. -/
theorem test_leaf_reservation :
    let s := State.reset.onAtt fun a => { a with q := 33792, lim := 33792 }
    (reserveLeaves s).att.lim = 34816 ∧ leavesLeft s = 1073708032 := by decide +kernel

end Sys2Proof.Tests
end

section
/-! SUPPORT. What every command leaves: the queue and the fuses, a canonical memory, and a by-pass position that is held. -/

set_option Elab.async false

namespace Sys2Proof.Machine

/-! ### Answers of commands -/

/-- The fields a command may change: all but the queue and the fuses. -/
def Writable : List StateField := .jtag :: .free :: Reaching

theorem reaching_subset_writable : Reaching ⊆ Writable :=
  fun _ h => List.mem_cons_of_mem _ (List.mem_cons_of_mem _ h)

/-- Every state an outcome answers with keeps what `Keeps` says of the state the command ran on. -/
def NextKeeps (s : State) (o : Host.Outcome State Fault Refusal) : Prop := ∀ t, o = .next t → Keeps Writable s t

theorem NextKeeps.next {s t : State} (h : Keeps Writable s t) : NextKeeps s (.next t) := by
  intro u hu
  cases hu
  exact h

/-- A command whose condition does not hold changes nothing (log entry 1). -/
theorem NextKeeps.same (s : State) : NextKeeps s (.next s) := .next (.refl _ s)

theorem NextKeeps.ite {c : Prop} [Decidable c] {s : State} {x y : Host.Outcome State Fault Refusal} (h : NextKeeps s x)
    (h' : NextKeeps s y) : NextKeeps s (if c then x else y) := by
  split
  · exact h
  · exact h'

/-- A command that acts only where its condition holds. -/
theorem NextKeeps.when {c : Prop} [Decidable c] {s t : State} (h : Keeps Writable s t) :
    NextKeeps s (.next (if c then t else s)) := .next (.ite (fun _ => h) fun _ => .refl _ s)

/-! ### Commands that share one operation -/

/-- An event and the device reset it causes. -/
theorem deviceReset_recordEvent_keeps {s t : State} (etype uclass uindex status part detail : Nat)
    (h : Keeps Writable s t) :
    Keeps Writable s (deviceReset (countBoot (recordEvent etype uclass uindex status part detail t))) :=
  deviceReset_keeps reaching_subset_writable
    (countBoot_keeps (by decide) (recordEvent_keeps _ _ _ _ _ _ (by decide) (by decide) h))

theorem coreStep_next (c op : Nat) (f : BitVec 32 → Core → Core) (s : State) : NextKeeps s (coreStep c op f s) := by
  unfold coreStep
  match coreFetch c op s with
  | none => exact .same s
  | some w => exact .next (State.onCore_keeps _ _ (by decide) (.refl _ _))

theorem commitOp_next (c op : Nat) (run : CoreRun) (s : State) : NextKeeps s (commitOp c op run s) := by
  unfold commitOp
  match coreFetch c op s with
  | none => exact .same s
  | some w => exact .ite (.next (State.onCore_keeps _ _ (by decide) (.refl _ _))) (.same s)

theorem eopWrite_next (mine : Nat → Nat → Bool) (r : EopReq) (check : State → Nat → Nat → Nat)
    (act : Nat → Nat → Option Session → State → State) (hact : ∀ p v x u, Keeps Writable u (act p v x u)) (s : State) :
    NextKeeps s (.next (eopWrite mine r check act s)) :=
  .next (eopWrite_keeps _ _ _ _ hact (by decide) (by decide) (.refl _ _))

theorem eopSegWrite_next (mine : Nat → Nat → Bool) (r : EopReq) (busy : State → Bool)
    (check : State → Nat → List Byte → Nat) (keep : List Byte → State → State) (commit : Nat → List Byte → State → State)
    (hkeep : ∀ bs u, Keeps Writable u (keep bs u)) (hcommit : ∀ p bs u, Keeps Writable u (commit p bs u)) (s : State) :
    NextKeeps s (.next (eopSegWrite mine r busy check keep commit s)) :=
  .next (eopSegWrite_keeps _ _ _ _ _ _ hkeep hcommit (by decide) (by decide) (.refl _ _))

theorem eopRun_next (opc : Nat) (r : EopReq) (judge : Option Session → State → Nat × List Byte)
    (act : Option Session → State → State) (hact : ∀ x u, Keeps Writable u (act x u)) (s : State) :
    NextKeeps s (.next (eopRun opc r judge (onOk act) s)) :=
  .next (eopRun_keeps _ _ _ _ (fun _ _ u => onOk_keeps _ _ _ hact (.refl _ u)) (by decide) (by decide) (.refl _ _))

theorem onFrame_next (port type : Nat) (f : VrtFrame) (k : VrtFrame → State → State)
    (hk : ∀ g u, Keeps Writable u (k g u)) (s : State) : NextKeeps s (.next (onFrame port type f k s)) :=
  .next (onFrame_keeps _ _ _ _ hk (by decide) (by decide) (by decide) (.refl _ _))

/-- A frame that is consumed here and takes a buffer. -/
theorem onFrame_consume_next (port type : Nat) (f : VrtFrame) (k : VrtFrame → State → State)
    (hk : ∀ g u, Keeps Writable u (k g u)) (s : State) :
    NextKeeps s (.next (onFrame port type f (fun g u => consume port g (k g) u) s)) :=
  onFrame_next _ _ _ _ (fun g _ => consume_keeps _ _ _ (hk g) (by decide) (by decide) (by decide) (.refl _ _)) s

theorem onControl_next (port : RingPort) (kind : Nat) (f : VrtFrame) (s : State) :
    NextKeeps s (.next (onControl port kind f s)) :=
  .next (onControl_keeps _ _ _ reaching_subset_writable (.refl _ _))

theorem onProbe_next (port : Nat) (f : VrtFrame) (k : State → State) (hk : ∀ u, Keeps Writable u (k u)) (s : State) :
    NextKeeps s (.next (onProbe port f k s)) :=
  .next (onProbe_keeps _ _ _ hk (by decide) (by decide) (by decide) (.refl _ _))

theorem takeDm_next (c : Nat) (mine : Nat → Bool) (run : Nat → QEntry → DmCmd → State → State)
    (hrun : ∀ p e d u, Keeps Writable u (run p e d u)) (s : State) : NextKeeps s (.next (takeDm c mine run s)) :=
  .next (takeDm_keeps _ _ _ hrun reaching_subset_writable (.refl _ _))

theorem takeRing_next (c opc : Nat) (run : Nat → QEntry → DmCmd → State → State)
    (hrun : ∀ p e d u, Keeps Writable u (run p e d u)) (s : State) : NextKeeps s (.next (takeRing c opc run s)) :=
  .next (takeRing_keeps _ _ _ hrun reaching_subset_writable (.refl _ _))

theorem takeUe_next (c : Nat) (mine : Nat → Bool) (run : Nat → QEntry → UeCmd → Nat → State → State)
    (hrun : ∀ p e u a t, Keeps Writable t (run p e u a t)) (s : State) : NextKeeps s (.next (takeUe c mine run s)) :=
  .next (takeUe_keeps _ _ _ hrun reaching_subset_writable (.refl _ _))

theorem startDesc_next (p engine op : Nat) (run : PacedDesc → State → State)
    (hrun : ∀ x u, Keeps Writable u (run x u)) (s : State) : NextKeeps s (.next (startDesc p engine op run s)) :=
  .next (startDesc_keeps _ _ _ _ hrun (by decide) (by decide) (by decide) (.refl _ _))

theorem tapShift_next (tap : TapInput) (ir : Nat) (reg : List Bool) (f : Jtag → List Bool → Jtag) (s : State) :
    NextKeeps s (.next (tapShift tap ir reg f s)) :=
  .next (tapShift_keeps _ _ _ _ (by decide) (.refl _ _))

/-! ### Pins, rails and boot -/

section
variable (s : State)

theorem execPorstNAssert_next : NextKeeps s (execPorstNAssert s) :=
  .next (.ite (fun _ => .refl _ _) fun _ => .ite (fun _ => setPorst_keeps _ (by decide) (by decide) (.refl _ _))
    fun _ => deviceReset_keeps reaching_subset_writable
      (setPorst_keeps _ (by decide) (by decide) (countBoot_keeps (by decide) (.refl _ _))))

theorem execPorstNRelease_next : NextKeeps s (execPorstNRelease s) :=
  .next (.ite (fun _ => .refl _ _) fun _ => .ite (fun _ => setPorst_keeps _ (by decide) (by decide) (.refl _ _))
    fun _ => setPorst_keeps _ (by decide) (by decide) (.onDevSame (by decide) (fun _ => ⟨rfl, rfl, rfl⟩) (.refl _ _)))

theorem execPowerUp_next : NextKeeps s (execPowerUp s) :=
  .next (.ite (fun _ => .refl _ _) fun _ => .onDevSame (by decide) (fun _ => ⟨rfl, rfl, rfl⟩) (.refl _ _))

theorem execPowerLoss_next : NextKeeps s (execPowerLoss s) :=
  .when (losePower_keeps (by decide) reaching_subset_writable (.refl _ _))

theorem execRailWindowExcursion_next (r : RailName) : NextKeeps s (execRailWindowExcursion r s) := by
  have hb := Keeps.onDevSame (f := fun d => { d with railBad := d.railBad ||| (1 : BitVec 8) <<< railNumber r })
    (by decide) (fun _ => ⟨rfl, rfl, rfl⟩) (.refl Writable s)
  unfold execRailWindowExcursion
  refine .ite (.same s) (.ite (.next (losePower_keeps (by decide) reaching_subset_writable (.refl _ _))) ?_)
  exact .ite (.next hb) (.next (deviceReset_recordEvent_keeps _ _ _ _ _ _
    (.onDevSame (by decide) (fun _ => ⟨rfl, rfl, rfl⟩) hb)))

theorem execRailRecovered_next (r : RailName) : NextKeeps s (execRailRecovered r s) :=
  .next (.onDevSame (by decide) (fun _ => ⟨rfl, rfl, rfl⟩) (.refl _ _))

theorem execRefclkLoss_next : NextKeeps s (execRefclkLoss s) := by
  have hl := Keeps.onDevSame (f := fun d => { d with refclkOk := false }) (by decide) (fun _ => ⟨rfl, rfl, rfl⟩)
    (.refl Writable s)
  exact .next (.ite (fun _ => hl) fun _ => deviceReset_recordEvent_keeps _ _ _ _ _ _
    (.onDevSame (by decide) (fun _ => ⟨rfl, rfl, rfl⟩) hl))

theorem execRefclkRestored_next : NextKeeps s (execRefclkRestored s) :=
  .next (.onDevSame (by decide) (fun _ => ⟨rfl, rfl, rfl⟩) (.refl _ _))

theorem execThermalTrip_next : NextKeeps s (execThermalTrip s) :=
  .when (deviceReset_keeps reaching_subset_writable
    (.onDevSame (by decide) (fun _ => ⟨rfl, rfl, rfl⟩) (countBoot_keeps (by decide) (.refl _ _))))

theorem execAgeingGuardStep_next (c : Fin 34) : NextKeeps s (execAgeingGuardStep c s) :=
  .when (.onNv (by decide) (.refl _ _))

/-- A boot clears the waiting boot, not the latched switch fault. -/
theorem execBootStart_next (o : BootFindings) (hb : BypassHeld s.dev → s.dev.bypFault = true) :
    NextKeeps s (execBootStart o s) := by
  have hr := bootRead_keeps (by decide) (by decide) (by decide) hb (.refl Writable s)
  have hh := fun n {u} (hu : Keeps Writable s u) => enterHusk_keeps n (by decide) (by decide) (by decide) hu
  exact .ite (.same s) (.next (.ite (fun _ => hh _ (.onNv (by decide) hr)) fun _ => .ite (fun _ => hh _ hr) fun _ =>
    bootChoose_keeps _ reaching_subset_writable hr))

theorem execDeviceReady_next : NextKeeps s (execDeviceReady s) := by
  unfold execDeviceReady
  match s.dev.slot with
  | none => exact .same s
  | some i =>
    refine .ite (.same s) (.next (.onDevSame (by decide) (fun _ => ⟨rfl, rfl, rfl⟩) (.onNv (by decide) ?_)))
    exact onSlot_keeps _ _ (by decide) (.refl _ _)

theorem execBootTimeout_next (order : BitVec 8) : NextKeeps s (execBootTimeout order s) :=
  .when (deviceReset_recordEvent_keeps _ _ _ _ _ _ (.refl _ _))

theorem execReadyHourExpiry_next : NextKeeps s (execReadyHourExpiry s) :=
  .when (.onNv (by decide) (.onDevSame (by decide) (fun _ => ⟨rfl, rfl, rfl⟩) (.refl _ _)))

end

/-! ### The engines of a cell -/

section
variable (c : Fin 34) (s : State)

theorem execSlotBegin_next (held : Option HoldCause) (late : Bool) (upset : Option Upset) :
    NextKeeps s (execSlotBegin c held late upset s) := by
  have hu := fun {u} (hk : Keeps Writable s u) => show Keeps Writable s (match upset with
      | some v => takeUpset c v u
      | none => u) by
    match upset with
    | some v => exact takeUpset_keeps _ _ (by decide) hk
    | none => exact hk
  have hc := fun f => hu (.onCell (n := c) (f := f) (by decide) (.refl _ s))
  unfold execSlotBegin
  split
  · exact .same s
  · refine .ite (.same s) (.ite ?_ (.next (hc _)))
    split
    · exact .next (issueSlot_keeps _ _ _ _ (by decide) reaching_subset_writable (hc _))
    · exact .next (hc _)

theorem execMmul_next : NextKeeps s (execMmul c s) := by
  have hq := popQueue_keeps c 0 (by decide) (.refl Writable s)
  have hs := fun m => streamScaleBad_keeps c m reaching_subset_writable hq
  have hend := fun e st {u} (hu : Keeps Writable s u) => NextKeeps.next (endMe_keeps c e st Counts.reset 0 0
    (by decide) hu)
  unfold execMmul
  match eligible s c 0 with
  | none => exact .same s
  | some e =>
    refine .ite (.same s) (.ite (hend _ _ hq) (.ite (.next (hs _)) (.ite (hend _ _ (hs _)) (.ite (.next ?_)
      (.ite (.next (.onCell (by decide) (hs _))) ?_)))))
    · exact loadTile_keeps _ _ _ reaching_subset_writable (hs _)
    · split
      · exact .next (swapTile_keeps _ _ _ (by decide) (hs _))
      · exact .next (hs _)

theorem execHpreload_next : NextKeeps s (execHpreload c s) := by
  have hq := popQueue_keeps c 0 (by decide) (.refl Writable s)
  unfold execHpreload
  match eligible s c 0 with
  | none => exact .same s
  | some (_, e) =>
    refine .ite (.same s) (.ite (.next (endMe_keeps _ _ _ _ _ _ (by decide) hq)) ?_)
    match ownRead c (meCmd e.word).hAddr (heldBytes (meCmd e.word)) (popQueue c 0 s),
      ownRead_keeps c _ _ reaching_subset_writable hq with
    | (none, u), h => exact .next h
    | (some bs, u), h => exact .next (endMe_keeps _ _ _ _ _ _ (by decide) (.onCell (by decide) h))

theorem execVkern_next : NextKeeps s (execVkern c s) := by
  have hq := popQueue_keeps c 1 (by decide) (.refl Writable s)
  have hend := fun e {u} (hu : Keeps Writable s u) => NextKeeps.next (endVe_keeps c e stRange Counts.reset (by decide) hu)
  unfold execVkern
  match eligible s c 1 with
  | none => exact .same s
  | some (_, e) =>
    refine .ite (.same s) (.ite (hend _ hq) ?_)
    match readPrm c (32 * fld e.word 92 73) (popQueue c 1 s), readPrm_keeps c _ reaching_subset_writable hq with
    | (none, u), h => exact .next h
    | (some prm, u), h =>
      refine .ite (hend _ h) (.ite (.next (.onCell (by decide) h)) (.next ?_))
      exact veRows_keeps _ _ _ _ reaching_subset_writable h

theorem execVeJoinRow_next : NextKeeps s (execVeJoinRow c s) := by
  unfold execVeJoinRow
  extract_lets x
  match s.works c with
  | none => exact .same s
  | some p =>
    match x.ve.run with
    | none => exact .same s
    | some r =>
      dsimp only
      match r.joined with
      | none => exact .same s
      | some j =>
        refine .ite (.next ?_) (.ite ?_ (.same s))
        · exact endVe_keeps _ _ _ _ (by decide) (voidOutputs_keeps _ (by decide) (by decide) (.refl _ _))
        · match veRow c (veCmd r.entry.word r.prm.toNat) r s, veRow_keeps c _ _ reaching_subset_writable (.refl _ s) with
          | (none, u), h => exact .next h
          | (some r, u), h =>
            exact .ite (.next (finishVe_keeps _ _ _ reaching_subset_writable h)) (.next (.onCell (by decide) h))

theorem execQuant_next : NextKeeps s (execQuant c s) := by
  have hr := reaching_subset_writable
  have hq := popQueue_keeps c 2 (by decide) (.refl Writable s)
  unfold execQuant
  match eligible s c 2 with
  | none => exact .same s
  | some (_, e) =>
    refine .ite (.same s) (.ite (.next (endQe_keeps _ _ _ _ _ (by decide) hq)) ?_)
    let m := qeCmd e.word
    match readRows c m.src m.srcT m.m m.l m.m 0 0 (popQueue c 2 s), readRows_keeps c _ _ _ _ _ _ _ hr hq with
    | (none, u), h => exact .next h
    | (some (n, rows), u), h =>
      have hw := fun l => writeParts_keeps c l hr h
      exact .ite (.next (endQe_keeps _ _ _ _ _ (by decide) (hw _))) (.next (hw _))

theorem execUpdate_next : NextKeeps s (execUpdate c s) :=
  takeUe_next _ _ _ (fun _ _ _ _ _ => runUpdate_keeps _ _ _ _ _ reaching_subset_writable (.refl _ _)) s

theorem execRequant_next : NextKeeps s (execRequant c s) :=
  takeUe_next _ _ _ (fun _ _ _ _ _ => runRequant_keeps _ _ _ reaching_subset_writable (.refl _ _)) s

theorem execRbits_next : NextKeeps s (execRbits c s) :=
  takeUe_next _ _ _ (fun _ _ _ _ _ => runRbits_keeps _ _ _ _ reaching_subset_writable (.refl _ _)) s

theorem execCommandCompletion_next (q : Fin 5) (seqNo : BitVec 32) :
    NextKeeps s (execCommandCompletion c q seqNo s) := by
  unfold execCommandCompletion
  extract_lets x
  match s.cellOwner c with
  | none => exact .same s
  | some p =>
    match outcomeOf x q seqNo with
    | none => exact .same s
    | some o =>
      refine .ite (.same s) (.ite (.next ?_) (.next ?_))
      · exact dupMismatch_keeps _ _ _ _ _ (by decide) (by decide) (by decide) (by decide) (by decide) (by decide)
          (by decide) (by decide) (by decide) (by decide) (.refl _ _)
      · refine settleHeld_keeps _ _ (by decide) (by decide) (resolve_keeps _ _ _ _ (by decide) (by decide) (by decide)
          (by decide) (.ite (fun _ => .onCell (by decide) ?_) fun _ => recordDone_keeps _ _ _ (by decide) (by decide) ?_))
        all_goals
          exact noteResidue_keeps _ _ _ (by decide) (notePushed_keeps _ _ _ _ (by decide)
            (.ite (fun _ => notePast_keeps _ _ _ (by decide) (.onCell (by decide) (.refl _ _)))
              fun _ => .onCell (by decide) (.refl _ _)))

theorem execSquashResume_next : NextKeeps s (execSquashResume c s) := by
  unfold execSquashResume
  cases (s.cell c).core.run with
  | squashing cp =>
    cases s.works c with
    | none => exact .same s
    | some p => exact .next (State.onCore_keeps _ _ (by decide) (.refl _ _))
  | _ => exact .same s

theorem execDupCompare_next (upset : BitVec 64) : NextKeeps s (execDupCompare c upset s) := by
  have hc := fun f => Keeps.onCell (n := c) (f := f) (by decide) (.refl Writable s)
  have hn := fun p t {u} (hu : Keeps Writable s u) => noteMismatch_keeps c p t (by decide) (by decide) (by decide)
    (by decide) (by decide) (by decide) (by decide) (by decide) (by decide) (by decide) hu
  unfold execDupCompare
  match s.works c with
  | none => exact .same s
  | some p =>
    match (s.cell c).samples with
    | [] => exact .same s
    | t :: r =>
      refine .ite (.same s) (.next (.ite (fun _ => resumeEngines_keeps _ _ reaching_subset_writable ?_) fun _ => ?_))
      all_goals exact .ite (fun _ => hc _) fun _ => hn _ _ (hc _)

theorem execCellStoreScrub_next : NextKeeps s (execCellStoreScrub c s) :=
  .when (scrubWords_keeps _ reaching_subset_writable (.onCell (by decide) (.refl _ _)))

end

/-! ### The data mover and the commands it starts on the ring -/

section
variable (c : Fin 34) (s : State)

theorem execCopy_next (fails : List PartFail) : NextKeeps s (execCopy c fails s) := by
  have hr := reaching_subset_writable
  refine takeDm_next _ _ _ (fun p e d u => ?_) s
  match readSpace p c d.sspace d.saddr d.len u, readSpace_keeps p c _ _ _ hr (.refl _ u) with
  | (none, v), h => exact h
  | (some bs, v), h => exact deliver_keeps _ _ _ _ _ _ (by decide) hr h

theorem execGather_next (fails : List PartFail) : NextKeeps s (execGather c fails s) := by
  have hr := reaching_subset_writable
  refine takeDm_next _ _ _ (fun p e d u => ?_) s
  match fmtOf d.fmt with
  | none => exact .refl _ _
  | some f =>
    dsimp only
    match readTile p c f d u, readTile_keeps p c f d hr (.refl _ u) with
    | (none, v), h => exact h
    | (some planes, v), h => exact deliver_keeps _ _ _ _ _ _ (by decide) hr h

theorem execScatter_next (fails : List PartFail) : NextKeeps s (execScatter c fails s) := by
  have hr := reaching_subset_writable
  refine takeDm_next _ _ _ (fun p e d u => ?_) s
  match fmtOf d.fmt with
  | none => exact .refl _ _
  | some f =>
    match readSpace p c 1 d.saddr d.srcBytes u, readSpace_keeps p c _ _ _ hr (.refl _ u) with
    | (none, v), h => exact h
    | (some tile, v), h => exact landPieces_keeps _ _ _ _ _ _ _ (by decide) hr h

theorem execDmAdd_next (fails : List PartFail) : NextKeeps s (execDmAdd c fails s) := by
  refine takeDm_next _ _ _ (fun p e d u => ?_) s
  match addPartList c p d fails (addParts u p c d).zipIdx ⟨[], [], Counts.reset, []⟩ u,
    addPartList_keeps c p d fails _ _ (by decide) reaching_subset_writable (.refl Writable u) with
  | (none, v), h => exact h
  | (some a, v), h => exact addDm_keeps _ _ (by decide) h

theorem execOrderedAddApply_next (seqNo : BitVec 32) (fails : List PartFail) :
    NextKeeps s (execOrderedAddApply c seqNo fails s) := by
  have ha := fun p d l a => addPartList_keeps c p d fails l a (by decide) reaching_subset_writable (.refl Writable s)
  unfold execOrderedAddApply
  cases s.cellOwner c with
  | none => exact .same s
  | some p =>
    cases (s.cell c).dm.find? _ with
    | none => exact .same s
    | some r =>
      dsimp only
      split
      · exact .next (.onCell (by decide) (.ofPair ‹_› (ha _ _ _ _)))
      · exact .next (.ofPair ‹_› (ha _ _ _ _))

theorem execMxImport_next (fails : List PartFail) : NextKeeps s (execMxImport c fails s) := by
  have hr := reaching_subset_writable
  refine takeDm_next _ _ _ (fun p e d u => ?_) s
  match fmtOf d.fmt with
  | none => exact .refl _ _
  | some f =>
    dsimp only
    match readSpace p c d.sspace d.saddr d.srcBytes u, readSpace_keeps p c _ _ _ hr (.refl _ u) with
    | (none, v), h => exact h
    | (some el, v), h =>
      dsimp only
      match readSpace p c d.sspace d.xaddr (mxScaleBytes d.odim d.kdim) v, readSpace_keeps p c _ _ _ hr h with
      | (none, w), h => exact h
      | (some sc, w), h =>
        dsimp only
        match mxImportBlks f d el sc with
        | none => exact refuseDm_keeps _ _ _ _ (by decide) h
        | some b => exact deliver_keeps _ _ _ _ _ _ (by decide) hr h

theorem execMxExport_next (fails : List PartFail) : NextKeeps s (execMxExport c fails s) := by
  have hr := reaching_subset_writable
  refine takeDm_next _ _ _ (fun p e d u => ?_) s
  match fmtOf d.fmt, powerOfTwo d.ts with
  | some f, some k =>
    dsimp only
    match readSpace p c d.sspace d.saddr d.srcBytes u, readSpace_keeps p c _ _ _ hr (.refl _ u) with
    | (none, v), h => exact h
    | (some bs, v), h =>
      dsimp only
      split
      · exact refuseDm_keeps _ _ _ _ (by decide) h
      · exact landPieces_keeps _ _ _ _ _ _ _ (by decide) hr h
  | none, _ | some _, none => exact .refl _ _

theorem execFill_next (fails : List PartFail) : NextKeeps s (execFill c fails s) :=
  takeDm_next _ _ _ (fun _ _ _ _ => deliver_keeps _ _ _ _ _ _ (by decide) reaching_subset_writable (.refl _ _)) s

theorem execRsend_next : NextKeeps s (execRsend c s) := by
  have hr := reaching_subset_writable
  refine takeRing_next _ _ _ (fun p e d u => ?_) s
  match readSpace p c d.sspace d.saddr d.len u, readSpace_keeps p c _ _ _ hr (.refl _ u) with
  | (none, v), h => exact h
  | (some bs, v), h => exact startTx_keeps _ hr h

theorem execRpost_next : NextKeeps s (execRpost c s) :=
  takeRing_next _ _ _ (fun _ _ _ _ => matchStreams_keeps _ reaching_subset_writable
    (postNext_keeps _ (by decide) (by decide) (.onCell (by decide) (.refl _ _)))) s

theorem execColl_next : NextKeeps s (execColl c s) :=
  takeRing_next _ _ _ (fun _ _ _ _ => issueColl_keeps _ _ reaching_subset_writable (.refl _ _)) s

theorem execBarrier_next : NextKeeps s (execBarrier c s) :=
  takeRing_next _ _ _ (fun _ _ _ _ => issueBarrier_keeps _ _ reaching_subset_writable (.refl _ _)) s

end

/-! ### The control core -/

section
variable (c : Fin 34) (s : State)

theorem execPush_next : NextKeeps s (execPush c s) := by
  unfold execPush
  match coreFetch c 0x32 s with
  | none => exact .same s
  | some w => exact .ite (.same s) (.next (.onCell (by decide) (.refl _ _)))

theorem execChkp_next : NextKeeps s (execChkp c s) := by
  unfold execChkp
  match coreFetch c 0x34 s with
  | none => exact .same s
  | some w =>
    refine .ite (.same s) (.next ?_)
    exact openCheckPoint_keeps _ _ (by decide) (by decide) (by decide) (by decide) (.refl _ _)

theorem execIllegalInstruction_next : NextKeeps s (execIllegalInstruction c s) := by
  unfold execIllegalInstruction
  match s.works c with
  | none => exact .same s
  | some p =>
    refine .ite (.next (State.onCore_keeps _ _ (by decide) ?_)) (.same s)
    exact stopPartition_keeps _ _ _ _ (by decide) (by decide) (by decide) (by decide) (by decide) (by decide) (by decide)
      (by decide) (recordEvent_keeps _ _ _ _ _ _ (by decide) (by decide) (pushRecord_keeps _ _ (by decide) (.refl _ _)))

end

/-! ### Modules, contexts, replays and cupping -/

section
variable (s : State)

theorem execPartitionCommitPoint_next (p : Fin 8) : NextKeeps s (execPartitionCommitPoint p s) := by
  have hr := reaching_subset_writable
  have hc := fun f => commitRun_keeps p hr (.onPart (p := p) (f := f) (by decide) (.refl Writable s))
  have hp := fun g f => Keeps.onPart (p := p) (f := g) (by decide) (hc f)
  refine .ite (.same s) (.ite (.next (hc _)) (.next (.ite (fun _ => cupPoint_keeps _ (by decide) hr (hp _ _)) fun _ =>
    releaseCores_keeps _ (by decide) (by decide) (.ite (fun _ => ?_) fun _ => hp _ _))))
  exact emptyTraces_keeps _ (by decide) (hp _ _)

theorem execContextSaveRequest_next (r : EopReq) : NextKeeps s (execContextSaveRequest r s) :=
  eopWrite_next _ _ _ _ (fun _ _ _ _ => .onPart (by decide) (.refl _ _)) s

theorem execContextSave_next (p : Fin 8) : NextKeeps s (execContextSave p s) :=
  .when (.onPart (by decide) (.refl _ _))

theorem execContextSaveEnd_next (p : Fin 8) : NextKeeps s (execContextSaveEnd p s) := by
  have hr := reaching_subset_writable
  have hh := fun l => rehash_keeps p l hr (.refl Writable s)
  have hw := fun a bs {u} (hu : Keeps Writable s u) => relWrite_keeps false p a bs hr hu
  have hp := fun f l a bs => Keeps.onPart (p := p) (f := f) (by decide) (hw a bs (hh l))
  refine .ite (.same s) ?_
  split
  · exact .same s
  · refine .ite (.next (hh _)) (.ite (.next (hw _ _ (hh _))) (.next (notify_keeps _ _ _ _ (by decide) (by decide)
      (by decide) (.ite (fun _ => releaseCores_keeps _ (by decide) (by decide) ?_) fun _ => ?_))))
    all_goals exact hp _ _ _ _

theorem execReplayStart_next (r : EopReq) : NextKeeps s (execReplayStart r s) := by
  have hr := reaching_subset_writable
  refine eopWrite_next _ _ _ _ (fun p v _ u => ?_) s
  have hp := fun f => Keeps.onPart (p := p) (f := f) (by decide) (.refl Writable u)
  have hc := fun g l f => openCapsule_keeps p hr (Keeps.forEach (xs := l)
    (fun c t => State.onCore_keeps (s₁ := t) c g (by decide) (.refl _ _)) (hp f))
  exact .ite (fun _ => hc _ _ _) fun _ => startCores_keeps _ _ _ (by decide) (by decide) (startRun_keeps _ hr (hc _ _ _))

theorem execReplayEnd_next (p : Fin 8) : NextKeeps s (execReplayEnd p s) := by
  have hr := reaching_subset_writable
  have hv : Keeps Writable s (if (s.part p).step = none then closeCapsule p s else stepVerdict p s) :=
    .ite (fun _ => closeCapsule_keeps _ hr (.refl _ _)) fun _ => stepVerdict_keeps _ hr (.refl _ _)
  refine .ite (.same s) (.ite (.next hv) (.next (notify_keeps _ _ _ _ (by decide) (by decide) (by decide)
    (.onPart (by decide) (.forEach (fun _ _ => State.onCore_keeps _ _ (by decide) (.refl _ _)) hv)))))

theorem execModuleLoad_next (r : EopReq) : NextKeeps s (execModuleLoad r s) :=
  eopWrite_next _ _ _ _ (fun _ _ _ _ => .onPart (by decide)
    (sendCupEnd_keeps _ (by decide) (by decide) (by decide) (.refl _ _))) s

theorem execModuleLoadEnd_next (p : Fin 8) : NextKeeps s (execModuleLoadEnd p s) := by
  have hr := reaching_subset_writable
  refine .ite (.same s) ?_
  extract_lets a
  match relRead p a 64 s, relRead_keeps p a 64 hr (.refl _ s) with
  | (none, u), h => exact .next h
  | (some h, u), hh =>
    dsimp only
    match relRead p a (modHeader h).imgLen u, relRead_keeps p a _ hr hh with
    | (none, v), h => exact .next h
    | (some img, v), h => exact .next (loadImage_keeps _ _ hr (.onPart (by decide) h))

theorem execRestore_next (r : EopReq) : NextKeeps s (execRestore r s) :=
  eopWrite_next _ _ _ _ (fun _ _ _ _ => .onPart (by decide) (.refl _ _)) s

theorem execRestoreEnd_next (p : Fin 8) : NextKeeps s (execRestoreEnd p s) := by
  have hr := reaching_subset_writable
  have hend := fun st reason a {u} (hu : Keeps Writable s u) =>
    NextKeeps.next (endRestore_keeps p st reason a (by decide) (by decide) (by decide) hu)
  unfold execRestoreEnd
  -- `readBody` made opaque: the kernel would evaluate the bounds it compares
  obtain ⟨read, hdef, hread⟩ : ∃ f, readBody = f ∧ ∀ {u} q a h, Keeps Writable s u → Keeps Writable s (f u q a h).2 :=
    ⟨readBody, rfl, fun _ _ _ hu => readBody_keeps _ _ _ hr hu⟩
  rw [hdef]
  match (s.part p).restoring with
  | none => exact .same s
  | some v =>
    refine .ite (hend _ _ _ (.refl _ _)) ?_
    match relRead p (fld v 63 0) 64 s, relRead_keeps p _ _ hr (.refl _ s) with
    | (none, u), h => exact .next h
    | (some h, u), hh =>
      dsimp only
      match read u p (fld v 63 0) (leNat h), hread p _ _ hh with
      | (none, w), h => exact .next h
      | (some body, w), hb =>
        have hd := fun l => rehash_keeps p l hr hb
        refine .ite (hend _ _ _ hb) (.ite (.next (hd _)) (.ite (hend _ _ _ (hd _)) (hend _ _ _ ?_)))
        exact resumeReplay_keeps _ _ _ (by decide) (by decide)
          (setContext_keeps _ _ _ hr (voidContents_keeps _ (by decide) (by decide) (hd _)))

theorem execCuppingDigest_next (port : RingPort) (f : VrtFrame) : NextKeeps s (execCuppingDigest port f s) :=
  .next (onCup_keeps _ _ _ _ (fun _ _ _ => takeDigest_keeps _ _ _
    (fun _ _ _ => replyCup_keeps _ _ (by decide) reaching_subset_writable (.refl _ _)) (by decide)
    reaching_subset_writable (.refl _ _)) (by decide) (by decide) (by decide) (.refl _ _))

theorem execCuppingEnd_next (port : RingPort) (f : VrtFrame) : NextKeeps s (execCuppingEnd port f s) :=
  .next (onCup_keeps _ _ _ _ (fun _ _ _ => cupEndAt_keeps _ (by decide) (by decide) (.refl _ _))
    (by decide) (by decide) (by decide) (.refl _ _))

theorem execCuppingResend_next (p : Fin 8) : NextKeeps s (execCuppingResend p s) := by
  unfold execCuppingResend
  match (s.part p).cup.point with
  | none => exact .same s
  | some n => exact .next (sendCup_keeps _ _ (by decide) reaching_subset_writable (.refl _ _))

theorem execCuppingPeerTimeout_next (p : Fin 8) : NextKeeps s (execCuppingPeerTimeout p s) := by
  unfold execCuppingPeerTimeout
  match (s.part p).cup.point with
  | none => exact .same s
  | some n => exact .next (cupOver_keeps _ (by decide) (by decide) (.refl _ _))

theorem execCuppingConfigWrite_next (r : EopReq) : NextKeeps s (execCuppingConfigWrite r s) :=
  eopWrite_next _ _ _ _ (fun _ _ _ _ => .ite (fun _ => .onPart (by decide) (.refl _ _)) fun _ =>
    .ite (fun _ => .onPart (by decide) (.refl _ _)) fun _ => .onPart (by decide)
      (.ite (fun _ => endPeerOf_keeps _ _ (by decide) (by decide) (by decide) (.refl _ _)) fun _ => .refl _ _)) s

theorem execStepReplay_next (r : EopReq) : NextKeeps s (execStepReplay r s) :=
  eopWrite_next _ _ _ _ (fun _ _ _ _ => .onPart (by decide) (.refl _ _)) s

theorem execStepReplayHashEnd_next (p : Fin 8) : NextKeeps s (execStepReplayHashEnd p s) := by
  have hr := reaching_subset_writable
  have hend := fun {u} (hu : Keeps Writable s u) => NextKeeps.next (endStep_keeps p stDigest (by decide) hu)
  unfold execStepReplayHashEnd
  match (s.part p).step with
  | none => exact .same s
  | some x =>
    refine .ite (.same s) ?_
    match readCapsule p x.slot s, readCapsule_keeps p _ hr (.refl _ s) with
    | (none, u), h => exact .next h
    | (some c, u), hc =>
      have hh := fun l => rehash_keeps p l hr hc
      exact .ite (hend hc) (.ite (.next (hh _)) (.ite (hend (hh _)) (.next (startStep_keeps _ _ hr (hh _)))))

end

/-! ### The stacks -/

section
variable (st : Fin 32) (ch : Fin 16) (r : EopReq) (s : State)

theorem execScrubGranule_next : NextKeeps s (execScrubGranule st s) :=
  .when (scrubSteward_keeps _ reaching_subset_writable (scrubData_keeps _ reaching_subset_writable (.refl _ _)))

theorem execRefreshWindow_next : NextKeeps s (execRefreshWindow st ch s) :=
  .when (onChan_keeps _ _ _ (by decide) (.refl _ _))

theorem execRetrainRequest_next : NextKeeps s (execRetrainRequest st ch s) :=
  .when (onChan_keeps _ _ _ (by decide) (.refl _ _))

theorem execRetrainEnd_next : NextKeeps s (execRetrainEnd st ch s) :=
  .when (.onStack (by decide) (onChan_keeps _ _ _ (by decide) (.refl _ _)))

theorem execRetrainTimeout_next : NextKeeps s (execRetrainTimeout st ch s) := by
  have ht := fun f g => Keeps.onStack (n := st) (f := f) (by decide) (onChan_keeps st ch g (by decide) (.refl Writable s))
  refine .ite (.same s) (.next (recordEvent_keeps _ _ _ _ _ _ (by decide) (by decide) ?_))
  split
  · exact .onPart (by decide) (ht _ _)
  · exact ht _ _

theorem execRetrainLockoutExpiry_next : NextKeeps s (execRetrainLockoutExpiry st ch s) :=
  .next (onChan_keeps _ _ _ (by decide) (.refl _ _))

theorem execFlipMaskWrite_next : NextKeeps s (execFlipMaskWrite r s) :=
  eopWrite_next _ _ _ _ (fun _ _ _ _ => .onStack (by decide) (.refl _ _)) s

theorem execLogClear_next : NextKeeps s (execLogClear r s) :=
  eopWrite_next _ _ _ _ (fun _ _ _ _ => .onStack (by decide) (.refl _ _)) s

end

/-! ### The ring ports -/

section
variable (port : RingPort) (f : VrtFrame) (r : EopReq) (s : State)

theorem execLaneFailure_next (lane : Fin 8) : NextKeeps s (execLaneFailure port lane s) :=
  .ite (.same s) (.next (restartPort_keeps _ (by decide) (by decide) (by decide) (by decide) (by decide)
    (recordEvent_keeps _ _ _ _ _ _ (by decide) (by decide) (.onPort (by decide) (.refl _ _)))))

theorem execPortTrainingEnd_next (lanes : BitVec 8) : NextKeeps s (execPortTrainingEnd port lanes s) := by
  have hp := fun f => Keeps.onPort (n := portNum port) (f := f) (by decide) (.refl Writable s)
  have hq := fun f g => Keeps.onPort (n := portNum port) (f := f) (by decide) (hp g)
  have hst := fun v {u} (hu : Keeps Writable s u) => NextKeeps.next (setPortState_keeps (portNum port) v (by decide)
    (by decide) (by decide) (by decide) hu)
  have hup := fun {u} (hu : Keeps Writable s u) => comeUp_keeps (portNum port) (by decide) hu
  exact .ite (.same s) (.ite (hst _ (hp _)) (.ite (hst _ (hup (hp _))) (.ite (hst _ (hup (hq _ _))) (hst _ (hq _ _)))))

theorem execPortRestartRetry_next : NextKeeps s (execPortRestartRetry port s) :=
  .when (restartPort_keeps _ (by decide) (by decide) (by decide) (by decide) (by decide) (.refl _ _))

theorem execPortRestart_next : NextKeeps s (execPortRestart r s) :=
  eopWrite_next _ _ _ _ (fun _ _ _ _ => restartPort_keeps _ (by decide) (by decide) (by decide) (by decide) (by decide)
    (.onPort (by decide) (.refl _ _))) s

theorem execRemove_next : NextKeeps s (execRemove r s) := by
  unfold execRemove
  split
  · refine eopWrite_next _ _ _ _ (fun _ _ _ _ => .ite (fun _ => ?_) (fun _ => .refl _ _)) s
    exact sendLeave_keeps _ (by decide) (sendLeave_keeps _ (by decide)
      (.onDevSame (by decide) (fun _ => ⟨rfl, rfl, rfl⟩) (.refl _ _)))
  · exact .same s

/-- The removal commands the by-pass position and leaves the switch fault. -/
theorem execRemoveComplete_next : NextKeeps s (execRemoveComplete s) := by
  have hd := fun n {u} (hu : Keeps Writable s u) => dropPort_keeps n (by decide) (by decide) (by decide) (by decide) hu
  exact .when (hd _ (hd _ (.onDev (by decide) (fun ⟨_, h⟩ => ⟨rfl, h⟩) (.refl _ _))))

theorem execBypassCheckTimeout_next (e w : Bool) : NextKeeps s (execBypassCheckTimeout e w s) := by
  have hd := fun n {u} (hu : Keeps Writable s u) => dropPort_keeps n (by decide) (by decide) (by decide) (by decide) hu
  have hs := Keeps.onDevSame (f := fun d => { d with bypE := e, bypW := w }) (by decide) (fun _ => ⟨rfl, rfl, rfl⟩)
    (.refl Writable s)
  refine .ite (.same s) (.ite (.next hs) (.next (hd _ (hd _ (.onDev (by decide) (fun _ => ⟨rfl, .inl rfl⟩) ?_)))))
  exact recordEvent_keeps _ _ _ _ _ _ (by decide) (by decide) hs

theorem execBypassPositionSensed_next (e w : Bool) : NextKeeps s (execBypassPositionSensed e w s) := by
  have hs := Keeps.onDevSame (f := fun d => { d with bypE := e, bypW := w }) (by decide) (fun _ => ⟨rfl, rfl, rfl⟩)
    (.refl Writable s)
  refine .ite (.same s) (.next (.ite (fun _ => .forEach (fun n u => .ite (fun _ => .refl _ _) fun _ => ?_) hs) fun _ => hs))
  exact restartPort_keeps _ (by decide) (by decide) (by decide) (by decide) (by decide) (.refl _ _)

theorem execCredit_next : NextKeeps s (execCredit port f s) :=
  onFrame_next _ _ _ _ (fun _ _ => .ite (fun _ => .refl _ _) fun _ =>
    pumpPort_keeps _ (by decide) (by decide) (.onPort (by decide) (.refl _ _))) s

theorem execLack_next : NextKeeps s (execLack port f s) := by
  refine onFrame_next _ _ _ _ (fun g u => ?_) s
  have hp := fun h => Keeps.onPort (n := portNum port) (f := h) (by decide) (.refl Writable u)
  exact pumpPort_keeps _ (by decide) (by decide) (.ite (fun _ => replayAll_keeps _ (by decide) (by decide) (hp _))
    fun _ => hp _)

theorem execProbe_next : NextKeeps s (execProbe port f s) :=
  onProbe_next _ _ _ (fun _ => sendClass0_keeps _ _ (by decide) (.refl _ _)) s

theorem execProbeReply_next : NextKeeps s (execProbeReply port f s) := by
  refine onProbe_next _ _ _ (fun u => ?_) s
  cases (u.port (portNum port)).probes.find? fun x => decide (x.num = f.xid) with
  | none => exact .refl _ _
  | some x =>
    refine .ite (fun _ => .onDevSame (by decide) (fun _ => ⟨rfl, rfl, rfl⟩) ?_) fun _ => ?_
    all_goals exact .onPort (by decide) (.refl _ _)

theorem execLeave_next : NextKeeps s (execLeave port f s) :=
  onProbe_next _ _ _ (fun _ => .onPort (by decide) (.refl _ _)) s

theorem execProbeTimer_next : NextKeeps s (execProbeTimer port s) :=
  .when (sendProbe_keeps _ _ (by decide) (by decide) (.refl _ _))

theorem execHopTimeout_next : NextKeeps s (execHopTimeout port s) := by
  have hp := fun f => Keeps.onPort (n := portNum port) (f := f) (by decide) (.refl Writable s)
  unfold execHopTimeout
  dsimp only
  match (s.port (portNum port)).probes with
  | [] => exact .same s
  | x :: r =>
    refine .ite (.same s) (.ite (.next (sendProbe_keeps _ _ (by decide) (by decide) (hp _))) (.next ?_))
    exact restartPort_keeps _ (by decide) (by decide) (by decide) (by decide) (by decide) (hp _)

theorem execLackTimer_next : NextKeeps s (execLackTimer port s) :=
  .when (sendLack_keeps _ _ (by decide) (.refl _ _))

theorem execLackTimeout_next : NextKeeps s (execLackTimeout port s) :=
  .when (replayAll_keeps _ (by decide) (by decide) (.refl _ _))

theorem execCreditTimer_next : NextKeeps s (execCreditTimer port s) :=
  .when (sendCredit_keeps _ (by decide) (by decide) (.refl _ _))

theorem execPfcFrame_next (enable pause : BitVec 8) : NextKeeps s (execPfcFrame port enable pause s) :=
  .ite (.same s) (.next (pumpPort_keeps _ (by decide) (by decide) (.onPort (by decide) (.refl _ _))))

end

/-! ### Streams and collectives -/

section
variable (port : RingPort) (f : VrtFrame) (p : Fin 8) (s : State)

theorem execData_next : NextKeeps s (execData port f s) :=
  onFrame_consume_next _ _ _ _ (fun _ _ => takeData_keeps _ _ reaching_subset_writable (.refl _ _)) s

theorem execSack_next : NextKeeps s (execSack port f s) := by
  refine onFrame_consume_next _ _ _ _ (fun g u => ?_) s
  refine .ite (fun _ => takeSegSack_keeps _ reaching_subset_writable (.refl _ _)) fun _ => ?_
  split
  · exact takeSack_keeps _ _ reaching_subset_writable (.refl _ _)
  · exact .refl _ _

theorem execSackTimer_next (xfer : Nat) : NextKeeps s (execSackTimer xfer s) := by
  unfold execSackTimer
  match s.ring.rx[xfer]? with
  | none => exact .same s
  | some x => exact .when (sendSack_keeps _ (by decide) (by decide) (.refl _ _))

theorem execPathTimeout_next (xid : BitVec 32) (lapsed : Bool) : NextKeeps s (execPathTimeout xid lapsed s) := by
  unfold execPathTimeout
  match txOf s xid with
  | none => exact .same s
  | some t =>
    dsimp only
    match t.acked.findIdx? (fun a => !a) with
    | none => exact .same s
    | some i =>
      refine .ite (.next ?_) (.next (sendTx_keeps _ _ _ reaching_subset_writable (.refl _ _)))
      exact finishTx_keeps _ _ (by decide) (by decide) (by decide) (by decide) (by decide) (.refl _ _)

theorem execDesc_next : NextKeeps s (execDesc port f s) := by
  refine onFrame_consume_next _ _ _ _ (fun g u => ?_) s
  have hd := doneWith_keeps (portNum port) g (by decide) (by decide) (.refl Writable u)
  have hf := fun h {t} (ht : Keeps Writable u t) => sendFrame_keeps (portNum port) h (by decide) (by decide) ht
  dsimp only
  match descSession g (doneWith (portNum port) g u), descEngine g.stream with
  | none, _ => exact .onPart (by decide) hd
  | some _, none => exact hd
  | some x, some e =>
    have he := fun k => Keeps.onEop (f := k) (by decide) hd
    refine .ite (fun _ => creditViolation_keeps _ (by decide) (he _)) fun _ => .ite (fun _ => hf _ (he _)) fun _ => ?_
    exact .ite (fun _ => hf _ (he _)) fun _ => .onPart (by decide) (he _)

theorem execDone_next : NextKeeps s (execDone port f s) :=
  onFrame_consume_next _ _ _ _ (fun _ _ => doneWith_keeps _ _ (by decide) (by decide) (.refl _ _)) s

theorem execRecv_next (eng : Fin 2) : NextKeeps s (execRecv eng p s) :=
  startDesc_next _ _ _ _ (fun _ _ => postRecv_keeps _ _ reaching_subset_writable (.refl _ _)) s

theorem execSend_next (eng : Fin 2) : NextKeeps s (execSend eng p s) := by
  have hr := reaching_subset_writable
  refine startDesc_next _ _ _ _ (fun x u => ?_) s
  match relRead p (dAddr x.desc) (dLen x.desc) u, relRead_keeps p _ _ hr (.refl _ u) with
  | (none, v), h => exact h
  | (some bs, v), h => exact startTx_keeps _ hr h

theorem execPut_next : NextKeeps s (execPut p s) :=
  startDesc_next _ _ _ _ (fun _ _ => postRecv_keeps _ _ reaching_subset_writable (.refl _ _)) s

theorem execGroupListWrite_next (r : EopReq) : NextKeeps s (execGroupListWrite r s) :=
  eopSegWrite_next _ _ _ _ _ _ (fun _ u => .refl _ u) (fun _ _ _ => .onPart (by decide) (.refl _ _)) s

theorem execCseg_next : NextKeeps s (execCseg port f s) :=
  onFrame_consume_next _ _ _ _ (fun _ _ => sackSeg_keeps _ _ (by decide) (orEarly_keeps _ _ _
    (fun _ => segFrame_keeps _ _ reaching_subset_writable (.refl _ _)) (by decide) (by decide) (by decide) (.refl _ _))) s

theorem execCollectiveTimeout_next (w : WorkName) : NextKeeps s (execCollectiveTimeout p w s) := by
  unfold execCollectiveTimeout
  match workOf s p w.group w.barrier w.inst with
  | none => exact .same s
  | some x =>
    refine .ite (.same s) (.ite (.next ?_) (.next ?_))
    · exact endColl_keeps _ _ _ _ _ (by decide) (by decide) (by decide) (.refl _ _)
    · exact failColl_keeps _ _ _ (by decide) (by decide) (by decide) (by decide) (.refl _ _)

theorem execBarrierFrame_next : NextKeeps s (execBarrierFrame port f s) :=
  onFrame_consume_next _ _ _ _ (fun _ _ => orEarly_keeps _ _ _
    (fun _ => barrierFrame_keeps _ _ (by decide) (by decide) (by decide) (by decide) (.refl _ _))
    (by decide) (by decide) (by decide) (.refl _ _)) s

end

/-! ### Requests, sessions and attestation -/

section
variable (r : EopReq) (num : BitVec 16) (s : State)

theorem execRead_next : NextKeeps s (execRead r s) :=
  .next (eopRun_keeps _ _ _ _ (fun _ _ u => .refl _ u) (by decide) (by decide) (.refl _ _))

theorem execWrite_next : NextKeeps s (execWrite r s) :=
  eopWrite_next _ _ _ _ (fun _ _ _ _ => writeEntry_keeps _ _ _ _ _ (by decide) (by decide) (by decide) (.refl _ _)) s

theorem execSeedWrite_next : NextKeeps s (execSeedWrite r s) :=
  eopWrite_next _ _ _ _ (fun _ _ _ _ => .onPart (by decide) (.refl _ _)) s

theorem execCounterClear_next : NextKeeps s (execCounterClear r s) :=
  eopWrite_next _ _ _ _ (fun _ _ _ _ => .onPart (by decide) (.refl _ _)) s

theorem execSegRead_next : NextKeeps s (execSegRead r s) := by
  refine eopRun_next _ _ _ _ (fun x u => ?_) s
  match segSource r x u with
  | none => exact .refl _ _
  | some bs => exact setSnap_keeps _ _ (by decide) (.refl _ _)

theorem execSegWrite_next : NextKeeps s (execSegWrite r s) :=
  eopSegWrite_next _ _ _ _ _ _ (fun _ _ => .ite (fun _ => .onNv (by decide) (.refl _ _)) fun _ => .refl _ _)
    (fun _ _ _ => .ite (fun _ => .onTest (by decide) (.refl _ _)) fun _ => .onNv (by decide) (.refl _ _)) s

theorem execSessionOpen_next : NextKeeps s (execSessionOpen r s) := by
  have hg := eopGate_keeps opOpen r (by decide) (by decide) (.refl Writable s)
  have hm := fun o {u} (hu : Keeps Writable s u) => sendM_keeps o (by decide) hu
  unfold execSessionOpen
  split <;> rename_i he <;> rw [he] at hg
  · exact .next hg
  · exact .next (hm _ (onSession_keeps _ _ (by decide) hg))
  · exact .next (.ite (fun _ => openSession_keeps _ (by decide) (by decide) (by decide) hg) fun _ => hm _ hg)

theorem execSessionProve_next : NextKeeps s (execSessionProve r s) := by
  have hg := eopGate_keeps opProve r (by decide) (by decide) (.refl Writable s)
  have hm := fun o {u} (hu : Keeps Writable s u) => sendM_keeps o (by decide) hu
  have hs := fun n f {u} (hu : Keeps Writable s u) => onSession_keeps n f (by decide) hu
  unfold execSessionProve
  split <;> rename_i he <;> rw [he] at hg
  · exact .next hg
  · exact .next (hm _ hg)
  · refine .ite (.next ?_) (.next (hm _ (.ite (fun _ => hs _ _ (hs _ _ hg)) fun _ => hs _ _ hg)))
    exact badTagAnswer_keeps _ _ (by decide) (by decide)
      (countFailure_keeps _ (by decide) (closeSession_keeps _ (by decide) hg))

theorem execSessionClose_next : NextKeeps s (execSessionClose r s) := by
  refine eopRun_next _ _ _ _ (fun x u => ?_) s
  match x with
  | some y => exact closeSession_keeps _ (by decide) (.refl _ _)
  | none => exact .refl _ _

theorem execNotifyAck_next : NextKeeps s (execNotifyAck r s) := by
  have hm := fun o => sendM_keeps o (by decide) (.refl Writable s)
  have hb := badTagAnswer_keeps opNotify r (by decide) (by decide) (.refl Writable s)
  refine .ite (.same s) (.ite (.next (.onEop (by decide) (.refl _ _))) (.ite (.next ?_) ?_))
  · exact .ite (fun _ => hm _) fun _ => hb
  · cases sessionOf s r.session with
    | none => exact .next (hm _)
    | some x => exact .ite (.next hb) (.next (.ite (fun _ => onSession_keeps _ _ (by decide) (.refl _ _)) fun _ => hm _))

theorem execSessionProveTimeout_next : NextKeeps s (execSessionProveTimeout num s) := by
  unfold execSessionProveTimeout
  match sessionOf s num with
  | none => exact .same s
  | some x => exact .next (.ite (fun _ => .refl _ _) fun _ => closeSession_keeps _ (by decide) (.refl _ _))

theorem execSessionIdleTimeout_next : NextKeeps s (execSessionIdleTimeout num s) := by
  unfold execSessionIdleTimeout
  match sessionOf s num with
  | none => exact .same s
  | some x => exact .when (closeSession_keeps _ (by decide) (.refl _ _))

theorem execProofLockoutExpiry_next (p : Fin 8) : NextKeeps s (execProofLockoutExpiry p s) :=
  .next (.onEop (by decide) (.refl _ _))

theorem execSessionNumberQuarantineEnd_next : NextKeeps s (execSessionNumberQuarantineEnd num s) :=
  .next (.onEop (by decide) (.refl _ _))

theorem execSnapshotTimeout_next : NextKeeps s (execSnapshotTimeout num s) :=
  .next (.ite (fun _ => .onEop (by decide) (.refl _ _)) fun _ => onSession_keeps _ _ (by decide) (.refl _ _))

theorem execSegWriteTimeout_next : NextKeeps s (execSegWriteTimeout num s) :=
  .next (.onEop (by decide) (.refl _ _))

theorem execNotifyRetransmit_next (seqNo : BitVec 32) : NextKeeps s (execNotifyRetransmit num seqNo s) := by
  have hs := fun f => onSession_keeps num f (by decide) (.refl Writable s)
  unfold execNotifyRetransmit
  match sessionOf s num with
  | none => exact .same s
  | some x =>
    dsimp only
    cases x.unacked.find? fun u => decide (u.1 = seqNo) with
    | none => exact .same s
    | some u => exact .ite (.next (hs _)) (.next (sendM_keeps _ (by decide) (hs _)))

theorem execPortMAddressChange_next : NextKeeps s (execPortMAddressChange s) :=
  .when (.onEop (by decide) (.refl _ _))

theorem execAttest_next : NextKeeps s (execAttest r s) :=
  eopRun_next _ _ _ _ (fun _ _ => .onAtt (by decide) (.refl _ _)) s

theorem execAttestSignEnd_next : NextKeeps s (execAttestSignEnd s) := by
  unfold execAttestSignEnd
  match s.att.fifo with
  | [] => exact .same s
  | n :: r => exact .ite (.same s) (.next (.onAtt (by decide) (reserveLeaves_keeps (by decide) (by decide) (.refl _ _))))

theorem execFirmwareVerifyEnd_next (slot : Fin 2) : NextKeeps s (execFirmwareVerifyEnd slot s) :=
  .ite (.same s) (.next (notify_keeps _ _ _ _ (by decide) (by decide) (by decide)
    (.onNv (by decide) (.onTest (by decide) (.refl _ _)))))

end

/-! ### Partitions and self tests -/

section
variable (r : EopReq) (s : State)

theorem execKeyWrite_next : NextKeeps s (execKeyWrite r s) :=
  eopWrite_next _ _ _ _ (fun _ _ _ _ => closeSessions_keeps _ _ (by decide) (.onNv (by decide) (.refl _ _))) s

theorem execPartitionDefinitionWrite_next : NextKeeps s (execPartitionDefinitionWrite r s) :=
  eopWrite_next _ _ _ _ (fun _ _ _ _ => acceptDefinition_keeps _ _ (by decide) (by decide) (by decide) (by decide)
    (by decide) (by decide) (.refl _ _)) s

theorem execPartitionReset_next (cause : ResetCause) : NextKeeps s (execPartitionReset cause s) := by
  cases cause with
  | request r =>
    exact eopWrite_next _ _ _ _ (fun _ _ _ _ => startReset_keeps _ _ (by decide) (by decide) (by decide) (by decide)
      (by decide) (by decide) (.refl _ _)) s
  | uncorrectable a =>
    exact .when (uncorrectable_keeps _ reaching_subset_writable (.refl _ _))

theorem execPartitionResetEnd_next (p : Fin 8) : NextKeeps s (execPartitionResetEnd p s) := by
  have hw := fun q old new d {u} (hu : Keeps Writable s u) => wipeFor_keeps old new (by decide) (by decide) (by decide)
    (by decide) (by decide) (wipeShare_keeps q d (by decide) (moveSources_keeps q d (by decide) hu))
  have hf := fun l => Keeps.forEach (xs := l) (fun c _ => settleFence_keeps c (by decide) (by decide) (.refl _ _))
    (.refl Writable s)
  refine .ite (.same s) (.next (dropPartition_keeps _ (by decide) (by decide) (notifyReset_keeps _ (by decide)
    (by decide) (by decide) (.onPart (by decide) (.onPart (by decide) (.onNv (by decide) ?_))))))
  exact .ite (fun _ => hw _ _ _ _ (hf _)) fun _ => .onPart (by decide) (hw _ _ _ _ (hf _))

theorem execCellProof_next : NextKeeps s (execCellProof r s) :=
  eopWrite_next _ _ _ _ (fun _ _ _ _ => .onTest (by decide) (.refl _ _)) s

theorem execCellProofEnd_next (failed : Option (BitVec 40)) : NextKeeps s (execCellProofEnd failed s) := by
  unfold execCellProofEnd
  match s.test.proof with
  | none => exact .same s
  | some n =>
    have hc := Keeps.clearMem (a := cellBase n) (n := cellSize) (by decide)
      (.onTest (f := fun t => { t with proof := none }) (by decide) (.refl Writable s))
    have hu := fun f => State.onUnit_keeps 1 n f (by decide) hc
    cases failed <;> exact .next (notify_keeps _ _ _ _ (by decide) (by decide) (by decide)
      (recordEvent_keeps _ _ _ _ _ _ (by decide) (by decide) (hu _)))

theorem execChannelTest_next : NextKeeps s (execChannelTest r s) :=
  eopWrite_next _ _ _ _ (fun _ _ _ _ => .onTest (by decide) (.refl _ _)) s

theorem execChannelTestEnd_next (bad : List Nat) : NextKeeps s (execChannelTestEnd bad s) := by
  have hn := fun st unit etype i a {u} (hu : Keeps Writable s u) => NextKeeps.next (notify_keeps 0 0x09 st unit
    (by decide) (by decide) (by decide) (recordEvent_keeps etype 2 i st 15 a (by decide) (by decide) hu))
  unfold execChannelTestEnd
  split
  · exact .same s
  · refine .ite (.same s) ?_
    have hc := fun l => Keeps.forEach (xs := l) (fun w _ => checkWord_keeps true w reaching_subset_writable (.refl _ _))
      (.onTest (f := fun t => { t with chan := none }) (by decide) (.refl Writable s))
    dsimp only
    split
    · exact hn _ _ _ _ _ (hc _)
    · exact hn _ _ _ _ _ (.forEach (fun _ _ => addSoft_keeps _ _ (by decide) (by decide) (.refl _ _)) (hc _))

end

/-! ### The power manager -/

section
variable (d : Die) (s : State)

theorem execCapWrite_next (r : EopReq) : NextKeeps s (execCapWrite r s) :=
  eopWrite_next _ _ _ _ (fun _ _ _ _ => resetWindow_keeps (by decide) (.onNv (by decide) (.refl _ _))) s

theorem execCapStep_next (pl pm pf pc : Nat) : NextKeeps s (execCapStep pl pm pf pc s) :=
  .when (.onPower (by decide) (.refl _ _))

theorem execDroopTrip_next (det : Fin 16) : NextKeeps s (execDroopTrip d det s) := by
  have ho := fun f => onRail_keeps (dieNum d) f (by decide) (.refl Writable s)
  exact .ite (.same s) (.next (.ite (fun _ => ho _) fun _ => abandonStep_keeps _ _ (by decide) (by decide) (ho _)))

theorem execDroopClampRelease_next : NextKeeps s (execDroopClampRelease d s) :=
  .when (resumeReturn_keeps _ (by decide) (by decide) (onRail_keeps _ _ (by decide) (.refl _ _)))

theorem execVrAlertAssert_next : NextKeeps s (execVrAlertAssert s) := by
  have hv := Keeps.onDevSame (f := fun d => { d with vrAlertN := false }) (by decide) (fun _ => ⟨rfl, rfl, rfl⟩)
    (.refl Writable s)
  exact .ite (.same s) (.next (.ite (fun _ => enterLowest_keeps (by decide) (by decide) hv) fun _ => hv))

theorem execVrAlertRelease_next : NextKeeps s (execVrAlertRelease s) := by
  have hv := Keeps.onDevSame (f := fun d => { d with vrAlertN := true }) (by decide) (fun _ => ⟨rfl, rfl, rfl⟩)
    (.refl Writable s)
  have hw := fun d u (hu : Keeps Writable s u) => execVrAlertRelease.waitingSteps_keeps d (by decide) hu
  unfold execVrAlertRelease
  refine .ite (.same s) (.ite (.next hv) (.next ?_))
  refine returnRail_keeps _ (by decide) (by decide) (returnRail_keeps _ (by decide) (by decide) ?_)
  exact enqueue_keeps _ (by decide) (by decide) (hw _ _ (hw _ _ (.onPower (by decide) hv)))

theorem execPmbusTransactionEnd_next (ack : Bool) (rd : PmbusData) : NextKeeps s (execPmbusTransactionEnd ack rd s) := by
  have hf := fun {u} (hu : Keeps Writable s u) => NextKeeps.next (finishReturn_keeps (by decide) hu)
  unfold execPmbusTransactionEnd
  match s.power.bus with
  | [] => exact .same s
  | t :: l =>
    refine .ite (hf (releaseHold_keeps _ (by decide) ?_)) (hf ?_)
    · exact transactionDone_keeps _ _ (by decide) (by decide) (by decide) (by decide)
        (beginTxn_keeps (by decide) (by decide) (.onPower (by decide) (.refl _ _)))
    · exact transactionFailed_keeps _ _ (by decide) (by decide) (by decide) (by decide) (.refl _ _)

theorem execPmbusRetry_next : NextKeeps s (execPmbusRetry d s) :=
  .next (.ite (fun _ => .refl _ _) fun _ => enqueue_keeps _ (by decide) (by decide) (.onPower (by decide) (.refl _ _)))

theorem execVoltageStepEnd_next : NextKeeps s (execVoltageStepEnd d s) := by
  have ho := fun f => onRail_keeps (dieNum d) f (by decide) (.refl Writable s)
  refine .ite (.same s) (.next (.ite (fun _ => enqueue_keeps _ (by decide) (by decide) (ho _)) fun _ => ?_))
  exact finishReturn_keeps (by decide) (resumeReturn_keeps _ (by decide) (by decide) (ho _))

end

/-! ### The insertion -/

theorem worst_eq_ok {l : List Nat} (h : worst l = stOk) {n : Nat} (hn : n ∈ l) : n = stOk := by
  rw [worst, List.foldl_eq_foldr] at h
  exact Nat.le_zero.1 ((List.le_max_of_le' 0 hn le_rfl).trans_eq h)

/-- A write that is judged OK was found good by the entry's own check. -/
theorem check_of_judgeWrite_ok {r : EopReq} {check : State → Nat → Nat → Nat} {x : Option Session} {u : State}
    (h : (judgeWrite r check x u).1 = stOk) : check u (partOf x) (leNat (reqData r)) = stOk := by
  unfold judgeWrite at h
  dsimp only at h
  split at h
  · cases h
  · split at h
    · exact absurd h ‹_›
    · split at h
      · cases worst_eq_ok h (List.mem_cons_self (a := stNoEntry))
      · rename_i e _
        have hz : sizeStatus e (reqData r) = stOk := worst_eq_ok h (by simp)
        simp only [hz, if_true] at h
        exact worst_eq_ok h (by simp)

/-- A write takes effect only where its own check held, and the device is then as it was. -/
theorem eopWrite_keeps_of_check {mine : Nat → Nat → Bool} {r : EopReq} {check : State → Nat → Nat → Nat}
    {act : Nat → Nat → Option Session → State → State} {s : State}
    (hact : ∀ p x u w, u.dev = s.dev → w.dev = s.dev → check u p (leNat (reqData r)) = stOk →
      Keeps Writable w (act p (leNat (reqData r)) x w)) :
    Keeps Writable s (eopWrite mine r check act s) := by
  have hok : ∀ x u w, Keeps [.eop, .out] s u → Keeps [.eop, .out] s w →
      Keeps Writable s (onOk (fun x s => act (partOf x) (leNat (reqData r)) x s) (judgeWrite r check x u).1 x w) := by
    intro x u w hu hw
    refine .ite (fun h => ?_) (fun _ => hw.mono (by decide))
    exact (hw.mono (by decide)).trans
      (hact _ _ u w (hu.1 .dev (by decide)) (hw.1 .dev (by decide)) (check_of_judgeWrite_ok h))
  refine .ite (fun _ => ?_) (fun _ => .refl _ _)
  have hg := eopGate_keeps opWrite r (by decide) (by decide) (.refl [.eop, .out] s)
  unfold eopRun
  split <;> rename_i he <;> rw [he] at hg
  · exact hg.mono (by decide)
  · exact hok _ _ _ hg (sendM_keeps _ (by decide) hg)
  · rename_i x u
    have hs := fun f o => sendM_keeps o (by decide) (onSession_keeps x.num f (by decide) hg)
    cases x.isOpen with
    | true => exact hok _ _ _ hg (hs _ _)
    | false => exact (hs _ _).mono (by decide)

/-- The insertion condition does not hold under a latched switch fault (12 R344, 01 R41). -/
theorem bypFault_of_insertOk {u : State} (h : insertOk u = true) : u.dev.bypFault = false := by
  simp only [insertOk, Bool.and_eq_true, Bool.not_eq_true'] at h
  obtain ⟨⟨⟨-, hf⟩, -⟩, -⟩ := h
  exact hf

/-- An insertion is commanded only where no switch fault is latched. -/
theorem execInsert_next (s : State) (req : Option EopReq) (hb : BypassHeld s.dev → s.dev.bypFault = true) :
    NextKeeps s (execInsert req s) := by
  have hfree : ∀ u, insertOk u = true → u.dev = s.dev → ¬ BypassHeld s.dev := by
    intro u hu hd h
    rw [← hd] at hb h
    exact absurd (hb h) (by simp [bypFault_of_insertOk hu])
  cases req with
  | none =>
    refine .next (.ite (fun ⟨hi, _⟩ => ?_) (fun _ => .refl _ _))
    exact commandInsert_keeps (by decide) (hfree s hi rfl) (.refl _ _)
  | some r =>
    refine .next (.ite (fun _ => .refl _ _) fun _ => eopWrite_keeps_of_check fun p x u w hu hw h => ?_)
    have hi : insertOk u = true := by
      have := worst_eq_ok h (n := when' (!insertOk u) stNotReady) (by simp)
      revert this
      cases insertOk u <;> decide
    refine .ite (fun _ => .refl _ _) (fun _ => commandInsert_keeps (by decide) ?_ (.refl _ _))
    rw [hw]
    exact hfree u hi hu

/-! ### All commands -/

/-- Every command keeps the queue, the fuses, a canonical memory, and a by-pass position that is held by a latched
fault. -/
theorem exec_next (c : Instr) (s : State) (hb : BypassHeld s.dev → s.dev.bypFault = true) : NextKeeps s (exec c s) := by
  cases c with
  | porstNAssert => exact execPorstNAssert_next s
  | porstNRelease => exact execPorstNRelease_next s
  | bootStart o => exact execBootStart_next s o hb
  | deviceReady => exact execDeviceReady_next s
  | bootTimeout order => exact execBootTimeout_next s order
  | readyHourExpiry => exact execReadyHourExpiry_next s
  | railWindowExcursion r => exact execRailWindowExcursion_next s r
  | railRecovered r => exact execRailRecovered_next s r
  | powerLoss => exact execPowerLoss_next s
  | refclkLoss => exact execRefclkLoss_next s
  | refclkRestored => exact execRefclkRestored_next s
  | thermalTrip => exact execThermalTrip_next s
  | bypassCheckTimeout e w => exact execBypassCheckTimeout_next s e w
  | ageingGuardStep c => exact execAgeingGuardStep_next s c
  | jtagBypass tap | jtagIdcode tap | jtagSamplePreload tap | jtagExtest tap => exact tapShift_next _ _ _ _ s
  | slotBegin c held late upset => exact execSlotBegin_next c s held late upset
  | mmul c => exact execMmul_next c s
  | hpreload c => exact execHpreload_next c s
  | vkern c => exact execVkern_next c s
  | veJoinRow c => exact execVeJoinRow_next c s
  | quant c => exact execQuant_next c s
  | update c => exact execUpdate_next c s
  | requant c => exact execRequant_next c s
  | rbits c => exact execRbits_next c s
  | copy c fails => exact execCopy_next c s fails
  | gather c fails => exact execGather_next c s fails
  | scatter c fails => exact execScatter_next c s fails
  | dmAdd c fails => exact execDmAdd_next c s fails
  | orderedAddApply c seqNo fails => exact execOrderedAddApply_next c s seqNo fails
  | mxImport c fails => exact execMxImport_next c s fails
  | mxExport c fails => exact execMxExport_next c s fails
  | fill c fails => exact execFill_next c s fails
  | rsend c => exact execRsend_next c s
  | rpost c => exact execRpost_next c s
  | coll c => exact execColl_next c s
  | barrier c => exact execBarrier_next c s
  | commandCompletion c q seqNo => exact execCommandCompletion_next c s q seqNo
  | squashResume c => exact execSquashResume_next c s
  | dupCompare c upset => exact execDupCompare_next c s upset
  | add c | sub c | and c | or c | xor c | sll c | srl c | sra c | mul c | sltu c | slt c | minu c | maxu c
  | addi c | andi c | ori c | xori c | slli c | srli c | srai c | movk c | prd c | beq c | bne c | bltu c
  | bgeu c | blt c | bge c | jal c | jr c | cldt c | cins c | gate c => exact coreStep_next _ _ _ s
  | halt c | mark c => exact commitOp_next _ _ _ s
  | push c => exact execPush_next c s
  | chkp c => exact execChkp_next c s
  | illegalInstruction c => exact execIllegalInstruction_next c s
  | partitionCommitPoint p => exact execPartitionCommitPoint_next s p
  | contextSave p => exact execContextSave_next s p
  | replayStart req => exact execReplayStart_next s req
  | replayEnd p => exact execReplayEnd_next s p
  | moduleLoad req => exact execModuleLoad_next s req
  | moduleLoadEnd p => exact execModuleLoadEnd_next s p
  | restore req => exact execRestore_next s req
  | restoreEnd p => exact execRestoreEnd_next s p
  | stepReplay req => exact execStepReplay_next s req
  | seedWrite req => exact execSeedWrite_next req s
  | scrubGranule st => exact execScrubGranule_next st s
  | cellStoreScrub c => exact execCellStoreScrub_next c s
  | refreshWindow st ch => exact execRefreshWindow_next st ch s
  | retrainRequest st ch => exact execRetrainRequest_next st ch s
  | retrainEnd st ch => exact execRetrainEnd_next st ch s
  | retrainTimeout st ch => exact execRetrainTimeout_next st ch s
  | retrainLockoutExpiry st ch => exact execRetrainLockoutExpiry_next st ch s
  | flipMaskWrite req => exact execFlipMaskWrite_next req s
  | logClear req => exact execLogClear_next req s
  | laneFailure port lane => exact execLaneFailure_next port s lane
  | portTrainingEnd port lanes => exact execPortTrainingEnd_next port s lanes
  | portRestartRetry port => exact execPortRestartRetry_next port s
  | portRestart req => exact execPortRestart_next req s
  | insert req => exact execInsert_next s req hb
  | remove req => exact execRemove_next req s
  | removeComplete => exact execRemoveComplete_next s
  | groupListWrite req => exact execGroupListWrite_next s req
  | data port f => exact execData_next port f s
  | credit port f => exact execCredit_next port f s
  | lack port f => exact execLack_next port f s
  | sack port f => exact execSack_next port f s
  | cseg port f => exact execCseg_next port f s
  | cctlReady port f | cctlAbortReq port f | cctlCommit port f | cctlAbort port f => exact onControl_next _ _ _ s
  | collectiveTimeout p w => exact execCollectiveTimeout_next p s w
  | probe port f => exact execProbe_next port f s
  | probeReply port f => exact execProbeReply_next port f s
  | leave port f => exact execLeave_next port f s
  | probeTimer port => exact execProbeTimer_next port s
  | hopTimeout port => exact execHopTimeout_next port s
  | lackTimer port => exact execLackTimer_next port s
  | lackTimeout port => exact execLackTimeout_next port s
  | creditTimer port => exact execCreditTimer_next port s
  | sackTimer xfer => exact execSackTimer_next s xfer
  | pathTimeout xid lapsed => exact execPathTimeout_next s xid lapsed
  | pfcFrame port enable pause => exact execPfcFrame_next port s enable pause
  | desc port f => exact execDesc_next port f s
  | done port f => exact execDone_next port f s
  | barrierFrame port f => exact execBarrierFrame_next port f s
  | recv eng p => exact execRecv_next p s eng
  | send eng p => exact execSend_next p s eng
  | put p => exact execPut_next p s
  | cuppingDigest port f => exact execCuppingDigest_next s port f
  | cuppingEnd port f => exact execCuppingEnd_next s port f
  | cuppingResend p => exact execCuppingResend_next s p
  | cuppingPeerTimeout p => exact execCuppingPeerTimeout_next s p
  | cuppingConfigWrite req => exact execCuppingConfigWrite_next s req
  | read req => exact execRead_next req s
  | write req => exact execWrite_next req s
  | segRead req => exact execSegRead_next req s
  | segWrite req => exact execSegWrite_next req s
  | sessionOpen req => exact execSessionOpen_next req s
  | sessionProve req => exact execSessionProve_next req s
  | sessionClose req => exact execSessionClose_next req s
  | notifyAck req => exact execNotifyAck_next req s
  | attest req => exact execAttest_next req s
  | attestSignEnd => exact execAttestSignEnd_next s
  | sessionProveTimeout num => exact execSessionProveTimeout_next num s
  | sessionIdleTimeout num => exact execSessionIdleTimeout_next num s
  | proofLockoutExpiry p => exact execProofLockoutExpiry_next s p
  | sessionNumberQuarantineEnd num => exact execSessionNumberQuarantineEnd_next num s
  | snapshotTimeout num => exact execSnapshotTimeout_next num s
  | segWriteTimeout num => exact execSegWriteTimeout_next num s
  | notifyRetransmit num seqNo => exact execNotifyRetransmit_next num s seqNo
  | portMAddressChange => exact execPortMAddressChange_next s
  | keyWrite req => exact execKeyWrite_next req s
  | partitionDefinitionWrite req => exact execPartitionDefinitionWrite_next req s
  | partitionReset cause => exact execPartitionReset_next s cause
  | partitionResetEnd p => exact execPartitionResetEnd_next s p
  | counterClear req => exact execCounterClear_next req s
  | firmwareVerifyEnd slot => exact execFirmwareVerifyEnd_next s slot
  | cellProof req => exact execCellProof_next req s
  | cellProofEnd failed => exact execCellProofEnd_next s failed
  | channelTest req => exact execChannelTest_next req s
  | channelTestEnd bad => exact execChannelTestEnd_next s bad
  | capWrite req => exact execCapWrite_next s req
  | capStep pl pm pf pc => exact execCapStep_next s pl pm pf pc
  | droopTrip d det => exact execDroopTrip_next d s det
  | droopClampRelease d => exact execDroopClampRelease_next d s
  | vrAlertAssert => exact execVrAlertAssert_next s
  | vrAlertRelease => exact execVrAlertRelease_next s
  | pmbusTransactionEnd ack rd => exact execPmbusTransactionEnd_next s ack rd
  | pmbusRetry d => exact execPmbusRetry_next d s
  | voltageStepEnd d => exact execVoltageStepEnd_next d s
  | powerUp => exact execPowerUp_next s
  | bypassPositionSensed e w => exact execBypassPositionSensed_next s e w
  | contextSaveRequest req => exact execContextSaveRequest_next s req
  | contextSaveEnd p => exact execContextSaveEnd_next s p
  | stepReplayHashEnd p => exact execStepReplayHashEnd_next s p

/-- While the switch fault is latched no command commands the inserted position; only a device reset clears the fault
(01 R41). -/
theorem exec_keeps_bypass {c : Instr} {s t : State} (h : exec c s = .next t) (hf : s.dev.bypFault = true)
    (hc : s.dev.bypCmd = false) : BypassHeld t.dev := by
  obtain ⟨-, -, hheld⟩ := exec_next c s (fun _ => hf) t h
  exact hheld ⟨hc, .inl hf⟩

/-! ### Ports that lose their hop -/

theorem forEach_induction {α : Type} {P : State → Prop} {f : α → State → State} (hf : ∀ x u, P u → P (f x u)) {s : State}
    (hs : P s) (xs : List α) : P (forEach xs f s) := by
  unfold forEach
  induction xs generalizing s with
  | nil => exact hs
  | cons x r ih => exact ih (hf x s hs)

theorem State.onPort_st (s : State) (n m : Nat) {f : Port → Port} (hf : ∀ q, (f q).st = q.st) :
    ((s.onPort n f).port m).st = (s.port m).st := by
  rw [State.port_onPort]
  split
  · rename_i h
    rw [hf, h.1]
  · rfl

theorem notify_port (p event status detail : Nat) (s : State) (m : Nat) :
    (notify p event status detail s).port m = s.port m := rfl

theorem setPortState_st (n m : Nat) (v : BitVec 8) (s : State) (hn : n < 2) :
    ((setPortState n v s).port m).st = if m = n then v else (s.port m).st := by
  unfold setPortState
  by_cases hv : (s.port n).st = v
  · rw [if_pos hv]
    split
    · rename_i h
      rw [h, hv]
    · rfl
  · rw [if_neg hv, notify_port, State.port_onPort]
    by_cases h : m = n <;> simp [h, hn]

/-- A port that loses its hop is down, and the other port is in the state it was in (10 R277, R308). -/
theorem dropPort_st (n m : Nat) (s : State) (hn : n < 2) :
    ((dropPort n s).port m).st = if m = n then 0 else (s.port m).st := by
  unfold dropPort
  rw [setPortState_st _ _ _ _ hn]
  split
  · rfl
  · refine Eq.trans (State.onPort_st _ _ _ fun _ => rfl) ?_
    refine forEach_induction (P := fun u => (u.port m).st = (s.port m).st) (fun f u h => ?_) rfl _
    exact Eq.trans (State.onPort_st _ _ _ fun _ => rfl) h

theorem dropPort_frame (n : Nat) (s : State) : Only [.parts, .ports, .eop, .out] s (dropPort n s) :=
  (dropPort_keeps n (by decide) (by decide) (by decide) (by decide) (.refl _ s)).1

/-! ### The event of a by-pass fault -/

theorem mapGet_mapSet_self {α : Type} (d : α) (l : List (Nat × α)) (k : Nat) (v : α) : mapGet d (mapSet l k v) k = v := by
  induction l with
  | nil => simp [mapSet, mapGet]
  | cons y r ih =>
    obtain ⟨j, w⟩ := y
    unfold mapSet
    split
    · simp [mapGet]
    · split
      · simp [mapGet]
      · simp [mapGet, ih, Ne.symm ‹¬k = j›]

theorem countEvent_events (uclass uindex etype : Nat) (s : State) :
    (countEvent uclass uindex etype s).nv.events = s.nv.events := by
  unfold countEvent State.onUnit
  split <;> rfl

theorem recordEvent_dev (etype uclass uindex status part detail : Nat) (s : State) :
    (recordEvent etype uclass uindex status part detail s).dev = { s.dev with evOrd := s.dev.evOrd + 1 } := by
  unfold recordEvent
  dsimp only
  split
  · exact (countEvent_keeps _ _ _ (by decide) (.refl [.nv] _)).1 .dev (by decide)
  · rfl

/-- A field put above the bits of `r`. -/
theorem field_add_lt {x r w n : Nat} (hx : x < 2 ^ w) (hr : r < 2 ^ n) : x * 2 ^ n + r < 2 ^ (w + n) :=
  calc x * 2 ^ n + r < x * 2 ^ n + 2 ^ n := Nat.add_lt_add_left hr _
    _ = (x + 1) * 2 ^ n := (Nat.succ_mul x (2 ^ n)).symm
    _ ≤ 2 ^ w * 2 ^ n := Nat.mul_le_mul_right _ hx
    _ = 2 ^ (w + n) := (Nat.pow_add 2 w n).symm

/-- Bits [126:120] of a valid event record are its type (15 R389). -/
theorem fld_eventType {t r : Nat} (ht : t < 2 ^ 7) (hr : r < 2 ^ 120) :
    fld (BitVec.ofNat 128 (2 ^ 127 + (t * 2 ^ 120 + r))) 126 120 = t := by
  have hdiv : (2 ^ 127 + (t * 2 ^ 120 + r)) / 2 ^ 120 = 2 ^ 7 + t := by
    rw [← Nat.add_assoc, Nat.pow_add 2 7 120, ← Nat.add_mul, Nat.add_comm,
      Nat.add_mul_div_right _ _ (Nat.two_pow_pos 120), Nat.div_eq_of_lt hr, Nat.zero_add]
  have hlt : 2 ^ 127 + (t * 2 ^ 120 + r) < 2 ^ 128 := Nat.add_lt_add_left (field_add_lt ht hr) (2 ^ 127)
  rw [fld, bits, BitVec.toNat_ofNat, Nat.mod_eq_of_lt hlt, Nat.shiftRight_eq_div_pow, hdiv, Nat.add_mod_left,
    Nat.mod_eq_of_lt ht]

theorem mod_two_pow_lt (x w : Nat) : x % 2 ^ w < 2 ^ w := Nat.mod_lt _ (Nat.two_pow_pos w)

/-- The record an event leaves names its type (15 R389). -/
theorem recordEvent_type (etype uclass uindex status part detail : Nat) (s : State) :
    fld (mapGet 0 (recordEvent etype uclass uindex status part detail s).nv.events (s.nv.fhNext.toNat % 4096)) 126 120 =
      etype % 128 := by
  have hev : ∀ u v : State, u.nv.events = v.nv.events → (if eventCounted etype then u else v).nv.events = v.nv.events :=
    fun u v h => by split <;> simp [h]
  unfold recordEvent
  rw [hev _ _ (countEvent_events _ _ _ _), mapGet_mapSet_self]
  simp only [Nat.add_assoc, -Nat.reducePow]
  exact fld_eventType (mod_two_pow_lt _ 7) (field_add_lt (mod_two_pow_lt _ 8) (field_add_lt (mod_two_pow_lt _ 12)
    (field_add_lt (mod_two_pow_lt _ 8) (field_add_lt (mod_two_pow_lt _ 4) (field_add_lt s.nv.bootCount.isLt
    (field_add_lt (s.dev.evOrd + 1).isLt (mod_two_pow_lt _ 40)))))))

/-! ### The by-pass check -/

/-- The state with the sensed positions of the switches noted. -/
def senseSwitches (e w : Bool) (s : State) : State := s.onDev fun d => { d with bypE := e, bypW := w }

/-- The by-pass fault (01 R41): its event, and both switches commanded to the by-pass position. -/
def latchSwitchFault (e w : Bool) (s : State) : State :=
  (recordEvent 0x34 6 0 0 15 (2 * e.toNat + w.toNat) (senseSwitches e w s)).onDev fun d =>
    { d with bypCmd := false, bypFault := true, removing := false, ringState := 2 }

theorem exec_bypassCheckTimeout_agree {e w : Bool} {s : State} (ho : outOfReset s = true) (he : e = s.dev.bypCmd)
    (hw : w = s.dev.bypCmd) : exec (.bypassCheckTimeout e w) s = .next (senseSwitches e w s) := by
  change execBypassCheckTimeout e w s = _
  rw [execBypassCheckTimeout, if_neg (by simp [ho])]
  exact if_pos ⟨he, hw⟩

theorem exec_bypassCheckTimeout_fault {e w : Bool} {s : State} (ho : outOfReset s = true)
    (h : ¬ (e = s.dev.bypCmd ∧ w = s.dev.bypCmd)) :
    exec (.bypassCheckTimeout e w) s = .next (dropPort 1 (dropPort 0 (latchSwitchFault e w s))) := by
  change execBypassCheckTimeout e w s = _
  rw [execBypassCheckTimeout, if_neg (by simp [ho])]
  exact if_neg h

theorem recordEvent_frame (etype uclass uindex status part detail : Nat) (s : State) :
    Only [.dev, .nv] s (recordEvent etype uclass uindex status part detail s) :=
  (recordEvent_keeps _ _ _ _ _ _ (by decide) (by decide) (.refl _ s)).1

theorem State.onDev_frame (s : State) (f : Dev → Dev) : Only [.dev] s (s.onDev f) := by
  intro g hg
  cases g
  case dev => exact absurd (List.mem_singleton_self _) hg
  all_goals rfl

theorem latchSwitchFault_frame (e w : Bool) (s : State) : Only [.dev, .nv] s (latchSwitchFault e w s) :=
  ((s.onDev_frame _).mono (by decide)).trans
    ((recordEvent_frame _ _ _ _ _ _ _).trans ((State.onDev_frame _ _).mono (by decide)))

theorem latchSwitchFault_dev (e w : Bool) (s : State) : (latchSwitchFault e w s).dev = { s.dev with
    bypE := e, bypW := w, evOrd := s.dev.evOrd + 1, bypCmd := false, bypFault := true, removing := false,
    ringState := 2 } := by
  simp only [latchSwitchFault, State.onDev_dev, recordEvent_dev, senseSwitches]

theorem latchSwitchFault_event (e w : Bool) (s : State) : Claims.eventWritten 0x34 s (latchSwitchFault e w s) :=
  recordEvent_type 0x34 6 0 0 15 _ (senseSwitches e w s)

/-- The outcome of a failed check: the by-pass commanded, the fault latched, its event written, both ports down. -/
theorem bypassCheckTimeout_fault_outcome {e w : Bool} {s : State} (ho : outOfReset s = true)
    (h : ¬ (e = s.dev.bypCmd ∧ w = s.dev.bypCmd)) : ∃ t, exec (.bypassCheckTimeout e w) s = .next t ∧
      t.dev.bypCmd = false ∧ t.dev.bypFault = true ∧ t.dev.ringState = 2 ∧ t.dev.removing = false ∧
      t.dev.bypE = e ∧ t.dev.bypW = w ∧ Claims.eventWritten 0x34 s t ∧ (t.port 0).st = 0 ∧ (t.port 1).st = 0 ∧
      Only [.dev, .nv, .ports, .parts, .eop, .out] s t := by
  have hdrop := (dropPort_frame 0 (latchSwitchFault e w s)).trans (dropPort_frame 1 _)
  have hdev := (hdrop .dev (by decide)).trans (latchSwitchFault_dev e w s)
  have hnv := hdrop .nv (by decide)
  refine ⟨_, exec_bypassCheckTimeout_fault ho h, congrArg Dev.bypCmd hdev, congrArg Dev.bypFault hdev,
    congrArg Dev.ringState hdev, congrArg Dev.removing hdev, congrArg Dev.bypE hdev, congrArg Dev.bypW hdev, ?_, ?_, ?_,
    ((latchSwitchFault_frame e w s).mono (by decide)).trans (hdrop.mono (by decide))⟩
  · rw [Claims.eventWritten, hnv]
    exact latchSwitchFault_event e w s
  · rw [dropPort_st _ _ _ (by decide), if_neg (by decide), dropPort_st _ _ _ (by decide), if_pos rfl]
  · rw [dropPort_st _ _ _ (by decide), if_pos rfl]

end Sys2Proof.Machine

namespace Sys2Proof.Proofs

open Machine

/-- Settles O7: the check by its two outcomes; no command leaves the held by-pass position, by what every command
keeps. -/
theorem bypassCheck : Obligations.BypassCheck := by
  unfold Obligations.BypassCheck
  refine ⟨fun e w s ho => ⟨fun he hw => ?_, fun h => bypassCheckTimeout_fault_outcome ho h⟩,
    fun c s t h hf hc => exec_keeps_bypass h hf hc⟩
  exact ⟨_, exec_bypassCheckTimeout_agree ho he hw, s.onDev_frame _, rfl⟩

end Sys2Proof.Proofs
end

section
/-! SUPPORT. The settings of the digest, of cupping and of the capsules: how a heard write is served, and what a module
load makes of the settings. -/

set_option Elab.async false

namespace Sys2Proof.Machine

open Claims

/-! ### A request that is heard -/

/-- The state a heard request is judged in: its time counts for the rate limit (11 R315). -/
def admitted (s : State) : State := s.onEop fun e => { e with times := recentTimes s ++ [s.dev.interval] }

/-- The state after the response to a heard request (11 R314, R323): sent, and held by the session. -/
def responded (opc : Nat) (r : EopReq) (x : Session) (st : Nat) (data : List Byte) (s : State) : State :=
  let o := answer opc r x.num (some x.key) st data
  sendM o (onSession x.num (fun y => { y with lastSeq := r.seqNo, lastReq := reqBytes opc r, lastResp := some o })
    (admitted s))

theorem responded_frame (opc : Nat) (r : EopReq) (x : Session) (st : Nat) (data : List Byte) (s : State) :
    Only [.eop, .out] s (responded opc r x st data s) :=
  (sendM_keeps _ (by decide) (onSession_keeps _ _ (by decide) (Keeps.onEop (by decide) (.refl _ s)))).1

theorem num_of_heard {opc : Nat} {r : EopReq} {x : Session} {s : State} (h : Heard opc r x s) : x.num = r.session := by
  obtain ⟨-, -, -, -, hx, -⟩ := h
  rw [sessionOf] at hx
  simpa using List.find?_some hx

theorem answered_of_heard {opc : Nat} {r : EopReq} {x : Session} {s : State} (h : Heard opc r x s) (st : Nat)
    (data : List Byte) : Answered opc r x st data s (responded opc r x st data s) := by
  refine ⟨rfl, ?_⟩
  rw [← num_of_heard h]
  rfl

theorem eopGate_of_heard {opc : Nat} {r : EopReq} {x : Session} {s : State} (h : Heard opc r x s) :
    eopGate opc r s = .open' (some x) (admitted s) := by
  obtain ⟨⟨hon, hfrag, hdip, hport⟩, hframe, hrate, hses, hx, -, htag, hseq⟩ := h
  have hreach : reaches s r = true := by simp [reaches, hon, hfrag, hdip, hport]
  have hx' : sessionOf (admitted s) r.session = some x := hx
  unfold admitted at hx'
  unfold eopGate
  rw [if_neg (by simp [hreach]), if_neg (by simp [hframe]), if_neg (Nat.not_le.2 hrate)]
  dsimp only
  rw [if_neg hses]
  simp only [hx', htag, hseq]
  rfl

/-- A heard request is answered with its judgement, and its effect follows. -/
theorem eopRun_of_heard {opc : Nat} {r : EopReq} {x : Session} {s : State} (h : Heard opc r x s)
    (judge : Option Session → State → Nat × List Byte) (act : Nat → Option Session → State → State) {st : Nat}
    (hj : judge (some x) (admitted s) = (st, [])) :
    eopRun opc r judge act s = act st (some x) (responded opc r x st [] s) := by
  have hgate := eopGate_of_heard h
  obtain ⟨-, -, -, -, -, hopen, -⟩ := h
  simp only [eopRun, hgate, hopen, if_true, hj, ite_self]
  rfl

/-- A granted write is judged by its entry's own check (11 R324, R325). -/
theorem judgeWrite_of_granted {r : EopReq} {x : Session} {e : Entry} {s : State} (h : Granted r x e s)
    (check : State → Nat → Nat → Nat) :
    judgeWrite r check (some x) (admitted s) = (check (admitted s) x.part.val (val r), []) := by
  obtain ⟨-, hdev, he, hauth, hres, hsize, hclear⟩ := h
  have hboot : booting (admitted s) = false := decide_eq_false hdev
  have hauth' : writeAuthority (admitted s) (some x) r.index.toNat r.sub.toNat = stOk := hauth
  have he' : entryOf (admitted s) r.index.toNat r.sub.toNat = some e := he
  have hclear' : beingCleared (admitted s) (partOf (some x)) r.index.toNat r.sub.toNat = false := hclear
  simp only [judgeWrite, hboot, hauth', he', hsize, hres, hclear', ne_eq, not_true_eq_false, if_true, if_false]
  simp [worst, when', stOk, partOf, val]

/-- A granted write of an entry of the row: the answer its check gives, and its effect where that is OK. -/
theorem eopWrite_of_granted {mine : Nat → Nat → Bool} {r : EopReq} {x : Session} {e : Entry} {s : State}
    (h : Granted r x e s) (hmine : mine r.index.toNat r.sub.toNat = true) (check : State → Nat → Nat → Nat)
    (act : Nat → Nat → Option Session → State → State) {st : Nat} (hst : check (admitted s) x.part.val (val r) = st) :
    eopWrite mine r check act s =
      onOk (fun x s => act (partOf x) (val r) x s) st (some x) (responded opWrite r x st [] s) := by
  rw [eopWrite, if_pos hmine, eopRun_of_heard h.1 _ _ (by rw [judgeWrite_of_granted h, hst])]
  rfl

/-- A session opened while its key was all zero writes no entry but its key (11 R317). -/
theorem judgeWrite_of_unkeyed {r : EopReq} {x : Session} {u : State} (hx : x.unkeyed = true)
    (hkey : r.index.toNat ≠ 0x2020) (check : State → Nat → Nat → Nat) :
    ∃ st, st ≠ stOk ∧ judgeWrite r check (some x) u = (st, []) := by
  have hauth : writeAuthority u (some x) r.index.toNat r.sub.toNat = stDenied := by
    simp only [writeAuthority]
    exact if_pos ⟨hx, fun h => hkey h.1⟩
  unfold judgeWrite
  dsimp only
  rw [hauth]
  cases booting u with
  | true => exact ⟨stNotReady, by decide, rfl⟩
  | false => exact ⟨stDenied, by decide, rfl⟩

/-! ### A write of a setting -/

/-- The entries of the row (16 R406). -/
def settingEntry (i j : Nat) : Bool := decide (j = 1) && decide (i = 0x9020 ∨ i = 0x9030 ∨ i = 0x9040)

/-- What the row refuses: a write while OD 0x6050:02 does not read 0, and a value out of range (16 R406). -/
def settingRefusal (r : EopReq) (s : State) (p v : Nat) : Nat :=
  worst [when' (decide ((s.part p).rst ≠ 0)) stNotReady, when' (cupConfigBad r.index.toNat v) stRange]

/-- What the row stores in the partition (16 R406), where no peer has to hear of it. -/
def storeSetting (r : EopReq) (v : Nat) (q : Part) : Part :=
  { q with
    provOn := if r.index = 0x9020 then decide (v = 1) else q.provOn,
    cupCfg := if r.index = 0x9030 then BitVec.ofNat 32 v else q.cupCfg,
    capsN := if r.index = 0x9040 then BitVec.ofNat 8 v else q.capsN }

/-- The row's effect: the value stored; over an enabled configuration, enable 0 sends END to the peer (16 R415). -/
def settingEffect (r : EopReq) (p v : Nat) (s : State) : State :=
  if r.index = 0x9020 then s.onPart p fun q => { q with provOn := decide (v = 1) }
  else if r.index = 0x9040 then s.onPart p fun q => { q with capsN := BitVec.ofNat 8 v }
  else
    let old := (s.part p).cupCfg
    let s := if cupEnabled old = true ∧ bits v 31 24 = 0 then endPeerOf p old s else s
    s.onPart p fun q => { q with cupCfg := BitVec.ofNat 32 v }

theorem exec_cuppingConfigWrite (r : EopReq) (s : State) : exec (.cuppingConfigWrite r) s =
    .next (eopWrite settingEntry r (settingRefusal r) (fun p v _ => settingEffect r p v) s) := rfl

/-- A value stored where no enabled configuration is replaced. -/
theorem settingEffect_eq {r : EopReq} {s : State} {p : Nat}
    (hr : r.index = 0x9020 ∨ r.index = 0x9030 ∨ r.index = 0x9040)
    (hcup : r.index = 0x9030 → cupEnabled (s.part p).cupCfg = false) (v : Nat) :
    settingEffect r p v s = s.onPart p (storeSetting r v) := by
  unfold settingEffect storeSetting
  rcases hr with h | h | h
  · simp [h]
  · simp [h, hcup h]
  · simp [h]

/-- A granted write of a setting: the answer is its refusal, and the effect follows an OK. -/
theorem exec_cuppingConfigWrite_of_granted {r : EopReq} {x : Session} {e : Entry} {s : State} (h : Granted r x e s)
    (hsub : r.sub = 1) (hr : r.index = 0x9020 ∨ r.index = 0x9030 ∨ r.index = 0x9040) {st : Nat}
    (hst : settingRefusal r s x.part.val (val r) = st) : exec (.cuppingConfigWrite r) s =
      .next (onOk (fun _ => settingEffect r x.part.val (val r)) st (some x) (responded opWrite r x st [] s)) := by
  have hmine : settingEntry r.index.toNat r.sub.toNat = true := by
    rcases hr with h | h | h <;> rw [h, hsub] <;> decide
  rw [exec_cuppingConfigWrite, eopWrite_of_granted h hmine _ _ hst]
  rfl

/-- A granted write of a setting that is refused: its status is the answer, and nothing else changes. -/
theorem exec_cuppingConfigWrite_refused {r : EopReq} {x : Session} {e : Entry} {s : State} (h : Granted r x e s)
    (hsub : r.sub = 1) (hr : r.index = 0x9020 ∨ r.index = 0x9030 ∨ r.index = 0x9040) {st : Nat}
    (hst : settingRefusal r s x.part.val (val r) = st) (hne : st ≠ stOk) :
    ∃ t, exec (.cuppingConfigWrite r) s = .next t ∧ Only [.eop, .out] s t ∧ Answered opWrite r x st [] s t := by
  refine ⟨responded opWrite r x st [] s, ?_, responded_frame _ _ _ _ _ _, answered_of_heard h.1 _ _⟩
  rw [exec_cuppingConfigWrite_of_granted h hsub hr hst, onOk, if_neg hne]

/-- A granted write of a setting that is accepted: the value is stored in the partition. -/
theorem exec_cuppingConfigWrite_accepted {r : EopReq} {x : Session} {e : Entry} {s : State} (h : Granted r x e s)
    (hsub : r.sub = 1) (hr : r.index = 0x9020 ∨ r.index = 0x9030 ∨ r.index = 0x9040)
    (hst : settingRefusal r s x.part.val (val r) = stOk)
    (hcup : r.index = 0x9030 → cupEnabled (s.part x.part.val).cupCfg = false) :
    ∃ t, exec (.cuppingConfigWrite r) s = .next t ∧ Only [.parts, .eop, .out] s t ∧ Answered opWrite r x stOk [] s t ∧
      OtherParts x.part.val s t ∧ t.part x.part.val = storeSetting r (val r) (s.part x.part.val) := by
  refine ⟨(responded opWrite r x stOk [] s).onPart x.part.val (storeSetting r (val r)), ?_, ?_,
    answered_of_heard h.1 _ _, fun q hq => State.part_onPart_ne _ _ _ _ hq, State.part_onPart_self _ _ _ x.part.isLt⟩
  · rw [exec_cuppingConfigWrite_of_granted h hsub hr hst, onOk, if_pos rfl,
      settingEffect_eq (s := responded opWrite r x stOk [] s) hr hcup]
  · exact ((responded_frame _ _ _ _ _ _).mono (by decide)).trans (Keeps.onPart (by decide) (.refl _ _)).1

/-- A session opened while its key was all zero changes no partition by this row. -/
theorem exec_cuppingConfigWrite_unkeyed {r : EopReq} {x : Session} {s : State} (h : Heard opWrite r x s)
    (hx : x.unkeyed = true) : ∃ t, exec (.cuppingConfigWrite r) s = .next t ∧ t.parts = s.parts := by
  refine ⟨_, exec_cuppingConfigWrite r s, ?_⟩
  cases hmine : settingEntry r.index.toNat r.sub.toNat with
  | false => rw [eopWrite, if_neg (by simp [hmine])]
  | true =>
    have hkey : r.index.toNat ≠ 0x2020 := fun hk => by simp [settingEntry, hk] at hmine
    obtain ⟨st, hne, hj⟩ := judgeWrite_of_unkeyed (u := admitted s) hx hkey (settingRefusal r)
    rw [eopWrite, if_pos hmine, eopRun_of_heard h _ _ hj, onOk, if_neg hne]
    rfl

theorem settingRefusal_of_busy {r : EopReq} {s : State} {p v : Nat} (hrst : (s.part p).rst ≠ 0)
    (hv : cupConfigBad r.index.toNat v = false) : settingRefusal r s p v = stNotReady := by
  rw [settingRefusal, hv, decide_eq_true hrst]
  rfl

theorem settingRefusal_of_bad {r : EopReq} {s : State} {p v : Nat} (hrst : (s.part p).rst = 0)
    (hv : cupConfigBad r.index.toNat v = true) : settingRefusal r s p v = stRange := by
  simp [settingRefusal, hrst, hv, worst, when', stRange]

theorem settingRefusal_of_good {r : EopReq} {s : State} {p v : Nat} (hrst : (s.part p).rst = 0)
    (hv : cupConfigBad r.index.toNat v = false) : settingRefusal r s p v = stOk := by
  simp [settingRefusal, hrst, hv, worst, when', stOk]

/-! ### What a module load leaves of the settings -/

/-- The load state of a partition, its settings as stored and its settings in force (16 R406). -/
def Part.loadView (q : Part) : BitVec 8 × (Bool × BitVec 32 × BitVec 8) × (Bool × BitVec 32 × Nat) :=
  (q.loadSt, (q.provOn, q.cupCfg, q.capsN), (q.det.prov, q.det.cup, q.det.caps))

/-- From s to t every partition keeps its load state and its settings, or a device reset has left it without a load. -/
def LoadKept (s t : State) : Prop := ∀ p, (t.part p).loadSt = 0 ∨ (t.part p).loadView = (s.part p).loadView

theorem LoadKept.refl (s : State) : LoadKept s s := fun _ => .inr rfl

/-- A state with the same partitions. -/
theorem LoadKept.of_parts {s t u : State} (hs : LoadKept s t) (h : u.parts = t.parts) : LoadKept s u := by
  intro p
  rw [State.part, h]
  exact hs p

/-- An operation whose frame leaves the partitions. -/
theorem LoadKept.of_keeps {l : List StateField} {s t u : State} (hs : LoadKept s t) (h : Keeps l t u)
    (hl : StateField.parts ∉ l) : LoadKept s u := hs.of_parts (h.1 .parts hl)

theorem LoadKept.onPart {s t : State} {p : Nat} {f : Part → Part} (hf : ∀ q, (f q).loadView = q.loadView)
    (hs : LoadKept s t) : LoadKept s (t.onPart p f) := by
  intro m
  rw [State.part_onPart]
  split
  · rename_i h
    rw [← h.1, hf, show (f (t.part m)).loadSt = (t.part m).loadSt from congrArg Prod.fst (hf _)]
    exact hs m
  · exact hs m

theorem LoadKept.forEach {α : Type} {s t : State} {f : α → State → State} {xs : List α}
    (hf : ∀ x u, LoadKept s u → LoadKept s (f x u)) (hs : LoadKept s t) : LoadKept s (forEach xs f t) :=
  forEach_induction hf hs xs

theorem LoadKept.ite {c : Prop} [Decidable c] {s t u : State} (h : LoadKept s t) (h' : LoadKept s u) :
    LoadKept s (if c then t else u) := by
  split
  · exact h
  · exact h'

theorem LoadKept.ite_snd {α : Type} {c : Prop} [Decidable c] {s : State} {x y : α × State} (h : LoadKept s x.2)
    (h' : LoadKept s y.2) : LoadKept s (if c then x else y).2 := by
  split
  · exact h
  · exact h'

theorem LoadKept.onRing {s t : State} {f : Ring → Ring} (hs : LoadKept s t) : LoadKept s (t.onRing f) := hs.of_parts rfl
theorem LoadKept.onEop {s t : State} {f : Eop → Eop} (hs : LoadKept s t) : LoadKept s (t.onEop f) := hs.of_parts rfl
theorem LoadKept.onPort {s t : State} {n : Nat} {f : Port → Port} (hs : LoadKept s t) : LoadKept s (t.onPort n f) :=
  hs.of_parts rfl
theorem LoadKept.setMem {s t : State} {m : Memory} (hs : LoadKept s t) : LoadKept s { t with mem := m } :=
  hs.of_parts rfl
theorem LoadKept.setEopOut {s t : State} {v : Eop} {w : Out} (hs : LoadKept s t) :
    LoadKept s { t with eop := v, out := w } := hs.of_parts rfl

/-! ### Resets and notices keep the settings -/

section
variable {s t : State} (hs : LoadKept s t)
include hs

theorem notify_loadKept (p event status detail : Nat) : LoadKept s (notify p event status detail t) :=
  .setEopOut (.onPart (fun _ => rfl) hs)

theorem releaseCores_loadKept (p : Nat) : LoadKept s (releaseCores p t) :=
  .ite hs (.forEach (fun _ _ h => h.of_parts rfl) (.onPart (fun _ => rfl) hs))

theorem emptyTraces_loadKept (p : Nat) : LoadKept s (emptyTraces p t) :=
  .forEach (fun _ _ h => h.of_parts rfl) hs

theorem cupEndAt_loadKept (p : Nat) : LoadKept s (cupEndAt p t) :=
  have hp := LoadKept.onPart (p := p) (f := fun q => { q with cup := { q.cup with st := 4, point := none } })
    (fun _ => rfl) hs
  .ite (.ite hp (releaseCores_loadKept (emptyTraces_loadKept hp p) p)) hs

theorem sendClass0_loadKept (port : Nat) (f : VrtFrame) : LoadKept s (sendClass0 port f t) :=
  hs.of_keeps (sendClass0_keeps port f (List.mem_singleton_self _) (.refl _ t)) (by decide)

theorem sendCupEnd_loadKept (p : Nat) : LoadKept s (sendCupEnd p t) :=
  .ite (.ite (.ite (cupEndAt_loadKept hs _) hs) (sendClass0_loadKept hs _ _)) hs

theorem endColl_loadKept (p : Nat) (x : Coll) (status decision : Nat) (landed : List Byte) :
    LoadKept s (endColl p x status decision landed t) :=
  .onPart (fun _ => rfl) (hs.of_parts rfl)

theorem memberAbort_loadKept (p g : Nat) (inst : BitVec 32) : LoadKept s (memberAbort p g inst t) := by
  unfold memberAbort
  split
  · exact .ite (endColl_loadKept hs _ _ _ _ _) hs
  · exact hs

theorem sendBoth_loadKept (f : VrtFrame) : LoadKept s (sendBoth f t) :=
  sendClass0_loadKept (sendClass0_loadKept hs 0 f) 1 f

theorem coordAbort_loadKept (p g : Nat) (inst : BitVec 32) : LoadKept s (coordAbort p g inst t) := by
  unfold coordAbort
  split
  · exact hs
  · refine .ite hs (.forEach (fun q u h => memberAbort_loadKept h q g inst) ?_)
    exact .forEach (fun _ u h => sendBoth_loadKept h _) (.onPart (fun _ => rfl) hs)

theorem sendAbortReq_loadKept (p : Nat) (x : Coll) : LoadKept s (sendAbortReq p x t) := by
  unfold sendAbortReq
  split
  · exact hs
  · exact .ite (sendBoth_loadKept hs _) (.ite (.onPart (fun _ => rfl) hs) (coordAbort_loadKept hs _ _ _))

theorem abortColl_loadKept (p : Nat) (x : Coll) : LoadKept s (abortColl p x t) :=
  .ite hs (sendAbortReq_loadKept hs p x)

theorem dropSave_loadKept (p : Nat) : LoadKept s (dropSave p t) := by
  unfold dropSave
  split
  · exact hs
  · refine notify_loadKept ?_ p _ _ _
    exact .onPart (fun _ => rfl) hs

theorem dropHeld_loadKept (p : Nat) : LoadKept s (dropHeld p t) :=
  hs.of_keeps (l := [.ports, .out]) (dropHeld_keeps p (by decide) (by decide) (.refl _ t)) (by decide)

/-- A partition reset that starts does not yet touch the settings. -/
theorem startReset_loadKept (p : Nat) (unc : Option (Nat × Nat)) : LoadKept s (startReset p unc t) := by
  have hcup := sendCupEnd_loadKept (.onPart (p := p) (f := fun q => { q with st := 3 }) (fun _ => rfl) hs) p
  refine .ite hs (.onPart (fun _ => ?_) (.onPort (.onPort (.onEop (.onRing (.forEach (fun _ _ h => h.of_parts rfl)
    (dropHeld_loadKept (dropSave_loadKept (.forEach (fun x _ h => abortColl_loadKept h p x) hcup) p) p)))))))
  cases unc <;> rfl

theorem recordEvent_loadKept (etype uclass uindex status part detail : Nat) :
    LoadKept s (recordEvent etype uclass uindex status part detail t) :=
  hs.of_parts (recordEvent_frame _ _ _ _ _ _ t .parts (by decide))

end

theorem part_reset_loadSt (p : Nat) : (State.reset.part p).loadSt = 0 := by
  by_cases hp : p < 8
  · interval_cases p <;> rfl
  · rw [State.part, vget, dif_neg hp]
    rfl

theorem deviceReset_loadKept (s t : State) : LoadKept s (deviceReset t) := fun p => .inl (part_reset_loadSt p)

/-! ### Memory accesses keep the settings -/

theorem uncorrectable_loadKept {s t : State} (hs : LoadKept s t) (w : Nat) : LoadKept s (uncorrectable w t) := by
  unfold uncorrectable
  dsimp only
  split
  case h_6 => exact hs
  case h_7 => exact deviceReset_loadKept s _
  case h_4 | h_5 => exact recordEvent_loadKept (.setMem hs) _ _ _ _ _ _
  all_goals exact recordEvent_loadKept (startReset_loadKept hs _ _) _ _ _ _ _ _

/-- A word found valid or corrected changes no partition. -/
theorem checkWord_parts {scrub : Bool} {w : Nat} {s : State} (h : (checkWord scrub w s).1 = true) :
    (checkWord scrub w s).2.parts = s.parts := by
  unfold checkWord at h ⊢
  split
  · rfl
  · rename_i hw
    rw [if_neg hw] at h
    split
    · rfl
    · exact (noteCorrection_keeps (fl := [.nv, .dev, .cells, .drams]) _ _ _ _ (by decide) (by decide) (by decide)
        (by decide) (.refl _ _)).1 .parts (by decide)
    · rename_i hd
      rw [hd] at h
      cases h

theorem checkWords_parts {scrub : Bool} {l : List Nat} {s : State} (h : (checkWords scrub l s).1 = true) :
    (checkWords scrub l s).2.parts = s.parts := by
  induction l generalizing s with
  | nil => rfl
  | cons w r ih =>
    unfold checkWords at h ⊢
    dsimp only at h ⊢
    by_cases hc : (checkWord scrub w s).1 = true
    · rw [if_pos hc] at h ⊢
      exact (ih h).trans (checkWord_parts hc)
    · rw [if_neg hc] at h
      exact absurd h hc

theorem checkWord_loadKept {s t : State} (hs : LoadKept s t) (scrub : Bool) (w : Nat) :
    LoadKept s (checkWord scrub w t).2 := by
  cases hc : (checkWord scrub w t).1 with
  | true => exact hs.of_parts (checkWord_parts hc)
  | false =>
    unfold checkWord at hc ⊢
    split
    · exact hs
    · rename_i hw
      rw [if_neg hw] at hc
      split <;> rename_i hd
      · exact hs
      · rw [hd] at hc
        cases hc
      · exact uncorrectable_loadKept hs w

theorem checkWords_loadKept {s t : State} (hs : LoadKept s t) (scrub : Bool) (l : List Nat) :
    LoadKept s (checkWords scrub l t).2 := by
  induction l generalizing t with
  | nil => exact hs
  | cons w r ih =>
    have hw := checkWord_loadKept hs scrub w
    exact .ite_snd (ih hw) hw

theorem memRead_parts {a n : Nat} {s u : State} {bs : List Byte} (h : memRead a n s = (some bs, u)) :
    u.parts = s.parts := by
  unfold memRead at h
  dsimp only at h
  split at h
  · rename_i hc
    cases h
    exact checkWords_parts hc
  · cases h

theorem memReads_parts {l : List (Nat × Nat)} {s u : State} {bs : List (List Byte)}
    (h : memReads l s = (some bs, u)) : u.parts = s.parts := by
  induction l generalizing s u bs with
  | nil => cases h; rfl
  | cons x r ih =>
    unfold memReads at h
    split at h
    · cases h
    · rename_i hx
      split at h
      · cases h
      · rename_i hr
        cases h
        exact (ih hr).trans (memRead_parts hx)

/-- Bytes that could be read: no partition has changed (09 R249, R251). -/
theorem relRead_parts {p a n : Nat} {s u : State} {bs : List Byte} (h : relRead p a n s = (some bs, u)) :
    u.parts = s.parts := by
  unfold relRead at h
  split at h
  · rename_i hr
    cases h
    exact memReads_parts hr
  · cases h

section
variable {s t : State} (hs : LoadKept s t)
include hs

theorem memRead_loadKept (a n : Nat) : LoadKept s (memRead a n t).2 :=
  have hc := fun l => checkWords_loadKept hs false l
  .ite_snd (hc _) (hc _)

theorem memReads_loadKept (l : List (Nat × Nat)) : LoadKept s (memReads l t).2 := by
  induction l generalizing t with
  | nil => exact hs
  | cons x r ih =>
    obtain ⟨a, n⟩ := x
    have hx := memRead_loadKept hs a n
    unfold memReads
    split <;> rename_i hm <;> rw [hm] at hx
    · exact hx
    · have hr := ih hx
      split <;> rename_i hl <;> rwa [hl] at hr

theorem relRead_loadKept (p a n : Nat) : LoadKept s (relRead p a n t).2 := by
  have h := memReads_loadKept hs (relPieces t p a n)
  unfold relRead
  split <;> rename_i hm <;> rwa [hm] at h

theorem touch_loadKept (a n : Nat) : LoadKept s (touch a n t) := by
  unfold touch
  split
  · split
    · exact hs
    · refine .onPart (fun q => ?_) hs
      cases q.mod <;> rfl
  · exact hs

theorem consumeMask_loadKept (a n : Nat) : LoadKept s (consumeMask a n t) :=
  hs.of_keeps (l := [.mem, .drams]) (consumeMask_keeps a n (by decide) (by decide) (.refl _ t)) (by decide)

theorem memWrite_loadKept (dm : Bool) (a : Nat) (bs : List Byte) : LoadKept s (memWrite dm a bs t).2 :=
  have hc := fun l => checkWords_loadKept hs false l
  have ht := fun l m => touch_loadKept (.setMem (m := m) (hc l)) a bs.length
  .ite_snd hs (.ite_snd (.ite (consumeMask_loadKept (ht _ _) _ _) (ht _ _)) (hc _))

theorem memWrites_loadKept (dm : Bool) (l : List (Nat × List Byte)) : LoadKept s (memWrites dm l t).2 := by
  induction l generalizing t with
  | nil => exact hs
  | cons x r ih =>
    have hx := memWrite_loadKept hs dm x.1 x.2
    exact .ite_snd (ih hx) hx

theorem putHeader_loadKept (p : Nat) : LoadKept s (putHeader p t) :=
  .ite (memWrites_loadKept hs _ _) hs

theorem rehash_loadKept (p : Nat) (l : List Nat) : LoadKept s (rehash p l t).2 := by
  induction l generalizing t with
  | nil => exact hs
  | cons i r ih =>
    unfold rehash
    split
    · exact ih hs
    · rename_i x _
      have hx := relRead_loadKept hs p x.2.2.1 x.2.2.2
      split <;> rename_i hm <;> rw [hm] at hx
      · exact hx
      · exact ih (.onPart (fun _ => rfl) hx)

end

/-! ### The module load -/

/-- The settings put into force (16 R406): the digest, cupping and capsules of the interval that a load begins. -/
def enforceSettings (q : Part) : Part :=
  { q with
    det := { Det.reset with prov := q.provOn, cup := q.cupCfg, caps := q.capsN.toNat },
    cup := { Cup.reset with st := if cupEnabled q.cupCfg then 1 else 0 } }

/-- A load puts the stored settings into force, whatever its reads and writes of the region come to. -/
theorem loadDet_loadKept (p : Nat) (s : State) : LoadKept (s.onPart p enforceSettings) (loadDet p s) := by
  have hclear := fun a n => (LoadKept.refl (s.onPart p enforceSettings)).of_parts
    (u := clearRel p a n (s.onPart p enforceSettings)) rfl
  exact putHeader_loadKept (.ite (rehash_loadKept (hclear _ _) p _) (hclear _ _)) p

/-- The settings that q stores are in force in q'. -/
def InForce (q q' : Part) : Prop := q'.det.prov = q.provOn ∧ q'.det.cup = q.cupCfg ∧ q'.det.caps = q.capsN.toNat

theorem inForce_of_loadKept {s t : State} {p : Nat} {q : Part} (hk : LoadKept s t)
    (hq : s.part p = enforceSettings q) (ht : (t.part p).loadSt ≠ 0) : InForce q (t.part p) := by
  have hview := (hk p).resolve_left ht
  rw [hq] at hview
  have hdet : ((t.part p).det.prov, (t.part p).det.cup, (t.part p).det.caps) = (q.provOn, q.cupCfg, q.capsN.toNat) :=
    congrArg (fun v => v.2.2) hview
  simpa only [InForce, Prod.mk.injEq] using hdet

/-- A load still waited for does not end by what keeps it. -/
theorem LoadKept.loadSt_ne {s t : State} {p : Nat} (hk : LoadKept s t) (hs : (s.part p).loadSt = 1) :
    (t.part p).loadSt ≠ 2 := by
  rcases hk p with h | h
  · simp [h]
  · have hst : (t.part p).loadSt = (s.part p).loadSt := congrArg Prod.fst h
    simp [hst, hs]

theorem failLoad_loadSt {p : Nat} (hp : p < 8) (status reason : Nat) (s : State) :
    ((failLoad p status reason s).part p).loadSt = 3 := by
  change ((State.onPart (State.onPart s p _) p _).part p).loadSt = 3
  rw [State.part_onPart_self _ _ _ hp, State.part_onPart_self _ _ _ hp]

theorem loadCells_part (i : Image) (cells : List Nat) (codes : List CellCode) (s : State) (p : Nat) :
    (loadCells i cells codes s).part p = s.part p := by
  have hparts := (loadCells_keeps i cells codes (List.mem_singleton_self _) (.refl _ s)).1 .parts (by decide)
  rw [State.part, hparts, State.part]

/-- A partition whose module is loaded (08 R235 order 5). -/
def loadedPart (m : Module) (q : Part) : Part :=
  { q with mod := some m, loadSt := 2, loadCode := 0, reason := 0, rst := 1, replays := 0, commitN := 0 }

/-- The end of a load that succeeds (08 R235 orders 4 and 5): the cells loaded, the settings in force, notice 0x02. -/
def finishLoad (p : Nat) (i : Image) (cells : List Nat) (codes : List CellCode) (m : Module) (s : State) : State :=
  let u := loadDet p ((loadCells i cells codes s).onPart p (loadedPart m))
  if (u.part p).st = 1 then notify p 0x02 stOk 0 u else u

/-- An image is refused with a status and a reason, or loaded: what holds of both ends holds of the load. -/
theorem loadImage_induction {P : State → Prop} {p : Nat} {i : Image} {s : State}
    (hfail : ∀ status reason, P (failLoad p status reason s))
    (hload : ∀ cells codes m, P (finishLoad p i cells codes m s)) : P (loadImage p i s) := by
  unfold loadImage
  refine iteInduction (fun _ => hfail _ _) fun _ => iteInduction (fun _ => hfail _ _) fun _ => ?_
  split
  · exact hfail _ _
  · exact hload _ _ _

theorem finishLoad_inForce {p : Nat} (hp : p < 8) (i : Image) (cells : List Nat) (codes : List CellCode) (m : Module)
    (s : State) (h : ((finishLoad p i cells codes m s).part p).loadSt ≠ 0) :
    InForce (s.part p) ((finishLoad p i cells codes m s).part p) := by
  have hdet := loadDet_loadKept p ((loadCells i cells codes s).onPart p (loadedPart m))
  have hkept : LoadKept _ (finishLoad p i cells codes m s) := .ite (notify_loadKept hdet _ _ _ _) hdet
  refine inForce_of_loadKept (q := loadedPart m (s.part p)) hkept ?_ h
  rw [State.part_onPart_self _ _ _ hp, State.part_onPart_self _ _ _ hp, loadCells_part]

/-- A load that succeeds puts the stored settings into force. -/
theorem loadImage_inForce {p : Nat} (hp : p < 8) (i : Image) (s : State) :
    ((loadImage p i s).part p).loadSt = 2 → InForce (s.part p) ((loadImage p i s).part p) := by
  refine loadImage_induction (P := fun t => (t.part p).loadSt = 2 → InForce (s.part p) (t.part p))
    (fun status reason h => ?_) (fun cells codes m h => finishLoad_inForce hp i cells codes m s (by simp [h]))
  rw [failLoad_loadSt hp] at h
  exact absurd h (by decide)

/-- A module load that succeeds puts the stored settings of its partition into force (16 R406). -/
theorem exec_moduleLoadEnd_inForce {p : Fin 8} {s t : State} (h : exec (.moduleLoadEnd p) s = .next t)
    (hs : (s.part p).loadSt = 1) (ht : (t.part p).loadSt = 2) : InForce (s.part p) (t.part p) := by
  change execModuleLoadEnd p s = .next t at h
  unfold execModuleLoadEnd at h
  split at h
  · cases h
    exact absurd ht ((LoadKept.refl s).loadSt_ne hs)
  · extract_lets a at h
    have hhead := relRead_loadKept (.refl s) p a 64
    split at h <;> rename_i hr <;> rw [hr] at hhead
    · cases h
      exact absurd ht (hhead.loadSt_ne hs)
    · rename_i hd u
      have himg := relRead_loadKept hhead p a (modHeader hd).imgLen
      split at h <;> rename_i hr' <;> rw [hr'] at himg
      · cases h
        exact absurd ht (himg.loadSt_ne hs)
      · rename_i img v
        cases h
        have hparts : v.part p = s.part p := by
          rw [State.part, (relRead_parts hr').trans (relRead_parts hr), State.part]
        have hload := loadImage_inForce p.isLt _ _ ht
        rwa [State.part_onPart_self _ _ _ p.isLt, hparts] at hload

end Sys2Proof.Machine

namespace Sys2Proof.Proofs

open Machine

/-- Settles O36: a write of a setting by its refusals and by what it stores; the settings in force after a load are the
stored ones, by what every operation of the load keeps of them. -/
theorem settingsTakeEffectAtTheNextLoad : Obligations.SettingsTakeEffectAtTheNextLoad := by
  unfold Obligations.SettingsTakeEffectAtTheNextLoad
  intro r x e p s q v
  refine ⟨fun hg hsub hidx => ⟨fun hrst hv => ?_, fun hrst h40 hv => ?_, fun hrst hv hcup => ?_⟩, fun hh hx => ?_,
    fun t ht hs hl _ => exec_moduleLoadEnd_inForce ht hs hl⟩
  · exact exec_cuppingConfigWrite_refused hg hsub hidx (settingRefusal_of_busy hrst hv) (by decide)
  · have hbad : cupConfigBad r.index.toNat v = true := by simp [h40, cupConfigBad, hv]
    exact exec_cuppingConfigWrite_refused hg hsub hidx (settingRefusal_of_bad hrst hbad) (by decide)
  · exact exec_cuppingConfigWrite_accepted hg hsub hidx (settingRefusal_of_good hrst hv) hcup
  · obtain ⟨t, ht, hparts⟩ := exec_cuppingConfigWrite_unkeyed hh hx
    have hq : t.part x.part.val = q := by rw [State.part, hparts]; rfl
    exact ⟨t, ht, by rw [hq], by rw [hq], by rw [hq]⟩

end Sys2Proof.Proofs
end

section
/-! SUPPORT. A step, the pins and rails, the device reset and the test access port: what each leaves in each field. -/

set_option Elab.async false

namespace Sys2Proof.Machine

open Claims

/-! ### A step of an empty queue -/

theorem settleMin_dev (s : State) : (settleMin s).dev = { s.dev with minPending := none } := by
  unfold settleMin
  split
  · rename_i h; rw [← h]
  · rfl

theorem settleMin_nv (s : State) :
    (settleMin s).nv = { s.nv with rollbackMin := s.dev.minPending.getD s.nv.rollbackMin } := by
  unfold settleMin
  split <;> rename_i h <;> rw [h] <;> rfl

theorem settleMin_ports (s : State) : (settleMin s).ports = s.ports := by unfold settleMin; split <;> rfl

theorem settleMin_free (s : State) : (settleMin s).free = s.free := by unfold settleMin; split <;> rfl

theorem Port.up_eq_false_iff (p : Port) : p.up = false ↔ p.st ≠ 2 ∧ p.st ≠ 3 := by simp [Port.up]

theorem State.onUnit_nv (s : State) (uclass uindex : Nat) (f : UnitSummary → UnitSummary) :
    (s.onUnit uclass uindex f).nv = { s.nv with units := (s.onUnit uclass uindex f).nv.units } := by
  unfold State.onUnit; split <;> rfl

theorem State.onUnit_ports (s : State) (uclass uindex : Nat) (f : UnitSummary → UnitSummary) :
    (s.onUnit uclass uindex f).ports = s.ports := by unfold State.onUnit; split <;> rfl

/-- Units counted one after another: of the NV die only their summaries differ, and no port does. -/
theorem forEach_onUnit {α : Type} (uclass : Nat) (i : α → Nat) (f : α → UnitSummary → UnitSummary) (l : List α) (s : State) :
    (forEach l (fun x u => u.onUnit uclass (i x) (f x)) s).nv =
        { s.nv with units := (forEach l (fun x u => u.onUnit uclass (i x) (f x)) s).nv.units } ∧
      (forEach l (fun x u => u.onUnit uclass (i x) (f x)) s).ports = s.ports := by
  refine forEach_induction (P := fun u => u.nv = { s.nv with units := u.nv.units } ∧ u.ports = s.ports)
    (fun x u ⟨hn, hp⟩ => ⟨?_, ?_⟩) ⟨rfl, rfl⟩ l
  · rw [State.onUnit_nv, hn]
  · rw [State.onUnit_ports, hp]

theorem countCodewords_of_down {n : Nat} {s : State} (h : (s.port n).up = false) : countCodewords n s = s :=
  if_pos ((Port.up_eq_false_iff _).1 h)

theorem countCodewords_nv (n : Nat) (s : State) :
    (countCodewords n s).nv = { s.nv with units := (countCodewords n s).nv.units } := by
  unfold countCodewords
  split
  · rfl
  · exact (forEach_onUnit 3 _ _ _ (draw s).2).1

theorem countCodewords_port_ne {n m : Nat} (h : m ≠ n) (s : State) : (countCodewords n s).port m = s.port m := by
  unfold countCodewords
  split
  · rfl
  · dsimp only
    rw [State.port_onPort_ne _ _ _ _ h]
    exact congrArg (vget · m Port.reset) (forEach_onUnit 3 _ _ _ (draw s).2).2

theorem countCodewords_port (n : Nat) (hn : n < 2) (s : State) : (countCodewords n s).port n = { s.port n with
    fecCorr := ((countCodewords n s).port n).fecCorr, fecUncorr := ((countCodewords n s).port n).fecUncorr } := by
  unfold countCodewords
  split
  · rfl
  · dsimp only
    rw [State.port_onPort_self _ _ _ hn, State.port, (forEach_onUnit 3 _ _ _ (draw s).2).2]
    rfl

theorem portTicks_eq (s : State) : portTicks s =
    countCodewords 1 ((countCodewords 0 (s.onPort 0 drainClass0)).onPort 1 drainClass0) := rfl

theorem portTicks_nv (s : State) : (portTicks s).nv = { s.nv with units := (portTicks s).nv.units } := by
  rw [portTicks_eq, countCodewords_nv, State.onPort_nv, countCodewords_nv]
  rfl

theorem portTicks_port (n : Nat) (s : State) : (portTicks s).port n = { s.port n with
    c0held := 0, fecCorr := ((portTicks s).port n).fecCorr, fecUncorr := ((portTicks s).port n).fecUncorr } := by
  rw [portTicks_eq]
  by_cases h1 : n = 1
  · subst h1
    rw [countCodewords_port 1 (by decide), State.port_onPort_self _ _ _ (by decide),
      countCodewords_port_ne (by decide), State.port_onPort_ne _ _ _ _ (by decide)]
    rfl
  · rw [countCodewords_port_ne h1, State.port_onPort_ne _ _ _ _ h1]
    by_cases h0 : n = 0
    · subst h0
      rw [countCodewords_port 0 (by decide), State.port_onPort_self _ _ _ (by decide)]
      rfl
    · rw [countCodewords_port_ne h0, State.port_onPort_ne _ _ _ _ h0, State.port, vget, dif_neg (by omega)]
      rfl

theorem drainClass0_up (p : Port) : (drainClass0 p).up = p.up := rfl

/-- The counters of a port that is down stay. -/
theorem portTicks_port_of_down {n : Nat} {s : State} (h : (s.port n).up = false) :
    ((portTicks s).port n).fecCorr = (s.port n).fecCorr ∧ ((portTicks s).port n).fecUncorr = (s.port n).fecUncorr := by
  rw [portTicks_eq]
  by_cases h1 : n = 1
  · subst h1
    have hp : ((countCodewords 0 (s.onPort 0 drainClass0)).onPort 1 drainClass0).port 1 = drainClass0 (s.port 1) := by
      rw [State.port_onPort_self _ _ _ (by decide), countCodewords_port_ne (by decide),
        State.port_onPort_ne _ _ _ _ (by decide)]
    rw [countCodewords_of_down (by rw [hp]; exact h), hp]
    exact ⟨rfl, rfl⟩
  · rw [countCodewords_port_ne h1, State.port_onPort_ne _ _ _ _ h1]
    by_cases h0 : n = 0
    · subst h0
      have hp : (s.onPort 0 drainClass0).port 0 = drainClass0 (s.port 0) := State.port_onPort_self _ _ _ (by decide)
      rw [countCodewords_of_down (by rw [hp]; exact h), hp]
      exact ⟨rfl, rfl⟩
    · rw [countCodewords_port_ne h0, State.port_onPort_ne _ _ _ _ h0]
      exact ⟨rfl, rfl⟩

theorem portTicks_of_down {s : State} (h0 : (s.port 0).up = false) (h1 : (s.port 1).up = false) :
    (portTicks s).nv.units = s.nv.units ∧ (portTicks s).free = s.free := by
  have hp : (s.onPort 0 drainClass0).port 0 = drainClass0 (s.port 0) := State.port_onPort_self _ _ _ (by decide)
  have hq : ((s.onPort 0 drainClass0).onPort 1 drainClass0).port 1 = drainClass0 (s.port 1) := by
    rw [State.port_onPort_self _ _ _ (by decide), State.port_onPort_ne _ _ _ _ (by decide)]
  have he : portTicks s = (s.onPort 0 drainClass0).onPort 1 drainClass0 := by
    have h : countCodewords 0 (s.onPort 0 drainClass0) = s.onPort 0 drainClass0 :=
      countCodewords_of_down (by rw [hp]; exact h0)
    rw [portTicks_eq, h]
    exact countCodewords_of_down (by rw [hq]; exact h1)
  rw [he]
  exact ⟨rfl, rfl⟩

theorem idleTick_eq (s : State) : idleTick s = { portTicks (settleMin s) with
    dev := { s.dev with
      minPending := none,
      interval := if s.dev.porstN = true ∧ s.dev.refclkOk = true then s.dev.interval + 1 else s.dev.interval } } := by
  have hd : (portTicks (settleMin s)).dev = { s.dev with minPending := none } :=
    ((portTicks_keeps (fl := [.nv, .ports, .free]) (by decide) (by decide) (by decide) (.refl _ _)).1 .dev
      (by decide)).trans (settleMin_dev s)
  unfold idleTick
  generalize portTicks (settleMin s) = u at hd
  dsimp only
  rw [hd]
  dsimp only
  split
  · rfl
  · rw [← hd]

theorem idleTick_frame (s : State) : Only [.dev, .nv, .ports, .free] s (idleTick s) := by
  have hk : Keeps [.dev, .nv, .ports, .free] s (portTicks (settleMin s)) :=
    portTicks_keeps (by decide) (by decide) (by decide) (settleMin_keeps (by decide) (by decide) (.refl _ _))
  have ho := hk.1
  rw [idleTick_eq]
  generalize portTicks (settleMin s) = u at ho ⊢
  intro f hf
  have := ho f hf
  cases f
  case dev => exact absurd (by decide) hf
  all_goals exact this

theorem idleTick_port (s : State) (n : Nat) : (idleTick s).port n = (portTicks (settleMin s)).port n := by
  simp only [idleTick_eq, State.port]

theorem settleMin_port (s : State) (n : Nat) : (settleMin s).port n = s.port n := by
  rw [State.port, settleMin_ports, State.port]

/-- What an empty queue's step leaves of the state: one interval, the rollback minimum in place, ports drained. -/
theorem step_of_empty {s : State} (h : s.pending = []) : step s = .next (idleTick s) := by
  unfold step; rw [h]


end Sys2Proof.Machine

namespace Sys2Proof.Proofs

open Machine

/-- Settles O1: a queue with a front by `step` itself, an empty queue by what its tick leaves in each field. -/
theorem stepRunsFrontOrCounts : Obligations.StepRunsFrontOrCounts := by
  unfold Obligations.StepRunsFrontOrCounts
  refine ⟨fun c rest s => rfl, fun s h => ⟨_, step_of_empty h, idleTick_frame s, ?_, ?_, fun n => ?_, fun n hn => ?_,
    fun h0 h1 => ?_⟩⟩
  · rw [idleTick_eq]
  · rw [idleTick_eq]
    dsimp only
    rw [portTicks_nv, settleMin_nv]
  · rw [idleTick_port, portTicks_port, settleMin_port]
  · rw [idleTick_port, ← settleMin_port s n]
    exact portTicks_port_of_down (by rw [settleMin_port]; exact hn)
  · have hd := portTicks_of_down (s := settleMin s) (by rw [settleMin_port]; exact h0) (by rw [settleMin_port]; exact h1)
    rw [idleTick_eq]
    exact ⟨hd.1.trans (by rw [settleMin_nv]), hd.2.trans (settleMin_free s)⟩

end Sys2Proof.Proofs
end

section
/-! SUPPORT. What every command but the pins and the test access port leaves of that port; the fuses, the queue and a
canonical memory under every command. -/

set_option Elab.async false

namespace Sys2Proof.Machine

/-- The fields that a command other than those of the test access port and of PORST_N may change: all but the queue, the
fuses and the port itself. -/
def Quiet : List StateField := .free :: Reaching

theorem reaching_subset_quiet : Reaching ⊆ Quiet := fun _ h => List.mem_cons_of_mem _ h

theorem quiet_subset_writable : Quiet ⊆ Writable := fun _ h => List.mem_cons_of_mem _ h

/-- An outcome that is a next state. -/
def Answers (o : Host.Outcome State Fault Refusal) : Prop := ∃ t, o = .next t

theorem Answers.next (t : State) : Answers (.next t) := ⟨t, rfl⟩

theorem Answers.ite {c : Prop} [Decidable c] {x y : Host.Outcome State Fault Refusal} (h : Answers x) (h' : Answers y) :
    Answers (if c then x else y) := by
  split
  · exact h
  · exact h'

/-- An outcome is a next state that differs only in the quiet fields from the state the command ran on. -/
def QuietNext (s : State) (o : Host.Outcome State Fault Refusal) : Prop := ∃ t, o = .next t ∧ Keeps Quiet s t

theorem QuietNext.next {s t : State} (h : Keeps Quiet s t) : QuietNext s (.next t) := ⟨t, rfl, h⟩

theorem QuietNext.same (s : State) : QuietNext s (.next s) := .next (.refl _ s)

theorem QuietNext.ite {c : Prop} [Decidable c] {s : State} {x y : Host.Outcome State Fault Refusal} (h : QuietNext s x)
    (h' : QuietNext s y) : QuietNext s (if c then x else y) := by
  split
  · exact h
  · exact h'

theorem QuietNext.when {c : Prop} [Decidable c] {s t : State} (h : Keeps Quiet s t) :
    QuietNext s (.next (if c then t else s)) := .next (.ite (fun _ => h) fun _ => .refl _ s)

/-! ### Access port: Commands that share one operation -/

/-- An event and the device reset it causes. -/
theorem deviceReset_recordEvent_quiet {s t : State} (etype uclass uindex status part detail : Nat)
    (h : Keeps Quiet s t) :
    Keeps Quiet s (deviceReset (countBoot (recordEvent etype uclass uindex status part detail t))) :=
  deviceReset_keeps reaching_subset_quiet
    (countBoot_keeps (by decide) (recordEvent_keeps _ _ _ _ _ _ (by decide) (by decide) h))

theorem coreStep_quiet (c op : Nat) (f : BitVec 32 → Core → Core) (s : State) : QuietNext s (coreStep c op f s) := by
  unfold coreStep
  match coreFetch c op s with
  | none => exact .same s
  | some w => exact .next (State.onCore_keeps _ _ (by decide) (.refl _ _))

theorem commitOp_quiet (c op : Nat) (run : CoreRun) (s : State) : QuietNext s (commitOp c op run s) := by
  unfold commitOp
  match coreFetch c op s with
  | none => exact .same s
  | some w => exact .ite (.next (State.onCore_keeps _ _ (by decide) (.refl _ _))) (.same s)

theorem eopWrite_quiet (mine : Nat → Nat → Bool) (r : EopReq) (check : State → Nat → Nat → Nat)
    (act : Nat → Nat → Option Session → State → State) (hact : ∀ p v x u, Keeps Quiet u (act p v x u)) (s : State) :
    QuietNext s (.next (eopWrite mine r check act s)) :=
  .next (eopWrite_keeps _ _ _ _ hact (by decide) (by decide) (.refl _ _))

theorem eopSegWrite_quiet (mine : Nat → Nat → Bool) (r : EopReq) (busy : State → Bool)
    (check : State → Nat → List Byte → Nat) (keep : List Byte → State → State) (commit : Nat → List Byte → State → State)
    (hkeep : ∀ bs u, Keeps Quiet u (keep bs u)) (hcommit : ∀ p bs u, Keeps Quiet u (commit p bs u)) (s : State) :
    QuietNext s (.next (eopSegWrite mine r busy check keep commit s)) :=
  .next (eopSegWrite_keeps _ _ _ _ _ _ hkeep hcommit (by decide) (by decide) (.refl _ _))

theorem eopRun_quiet (opc : Nat) (r : EopReq) (judge : Option Session → State → Nat × List Byte)
    (act : Option Session → State → State) (hact : ∀ x u, Keeps Quiet u (act x u)) (s : State) :
    QuietNext s (.next (eopRun opc r judge (onOk act) s)) :=
  .next (eopRun_keeps _ _ _ _ (fun _ _ u => onOk_keeps _ _ _ hact (.refl _ u)) (by decide) (by decide) (.refl _ _))

theorem onFrame_quiet (port type : Nat) (f : VrtFrame) (k : VrtFrame → State → State)
    (hk : ∀ g u, Keeps Quiet u (k g u)) (s : State) : QuietNext s (.next (onFrame port type f k s)) :=
  .next (onFrame_keeps _ _ _ _ hk (by decide) (by decide) (by decide) (.refl _ _))

/-- A frame that is consumed here and takes a buffer. -/
theorem onFrame_consume_quiet (port type : Nat) (f : VrtFrame) (k : VrtFrame → State → State)
    (hk : ∀ g u, Keeps Quiet u (k g u)) (s : State) :
    QuietNext s (.next (onFrame port type f (fun g u => consume port g (k g) u) s)) :=
  onFrame_quiet _ _ _ _ (fun g _ => consume_keeps _ _ _ (hk g) (by decide) (by decide) (by decide) (.refl _ _)) s

theorem onControl_quiet (port : RingPort) (kind : Nat) (f : VrtFrame) (s : State) :
    QuietNext s (.next (onControl port kind f s)) :=
  .next (onControl_keeps _ _ _ reaching_subset_quiet (.refl _ _))

theorem onProbe_quiet (port : Nat) (f : VrtFrame) (k : State → State) (hk : ∀ u, Keeps Quiet u (k u)) (s : State) :
    QuietNext s (.next (onProbe port f k s)) :=
  .next (onProbe_keeps _ _ _ hk (by decide) (by decide) (by decide) (.refl _ _))

theorem takeDm_quiet (c : Nat) (mine : Nat → Bool) (run : Nat → QEntry → DmCmd → State → State)
    (hrun : ∀ p e d u, Keeps Quiet u (run p e d u)) (s : State) : QuietNext s (.next (takeDm c mine run s)) :=
  .next (takeDm_keeps _ _ _ hrun reaching_subset_quiet (.refl _ _))

theorem takeRing_quiet (c opc : Nat) (run : Nat → QEntry → DmCmd → State → State)
    (hrun : ∀ p e d u, Keeps Quiet u (run p e d u)) (s : State) : QuietNext s (.next (takeRing c opc run s)) :=
  .next (takeRing_keeps _ _ _ hrun reaching_subset_quiet (.refl _ _))

theorem takeUe_quiet (c : Nat) (mine : Nat → Bool) (run : Nat → QEntry → UeCmd → Nat → State → State)
    (hrun : ∀ p e u a t, Keeps Quiet t (run p e u a t)) (s : State) : QuietNext s (.next (takeUe c mine run s)) :=
  .next (takeUe_keeps _ _ _ hrun reaching_subset_quiet (.refl _ _))

theorem startDesc_quiet (p engine op : Nat) (run : PacedDesc → State → State)
    (hrun : ∀ x u, Keeps Quiet u (run x u)) (s : State) : QuietNext s (.next (startDesc p engine op run s)) :=
  .next (startDesc_keeps _ _ _ _ hrun (by decide) (by decide) (by decide) (.refl _ _))

/-! ### Access port: Pins, rails and boot -/

section
variable (s : State)

theorem execPowerUp_quiet : QuietNext s (execPowerUp s) :=
  .next (.ite (fun _ => .refl _ _) fun _ => .onDevSame (by decide) (fun _ => ⟨rfl, rfl, rfl⟩) (.refl _ _))

theorem execRailRecovered_quiet (r : RailName) : QuietNext s (execRailRecovered r s) :=
  .next (.onDevSame (by decide) (fun _ => ⟨rfl, rfl, rfl⟩) (.refl _ _))

theorem execRefclkLoss_quiet : QuietNext s (execRefclkLoss s) := by
  have hl := Keeps.onDevSame (f := fun d => { d with refclkOk := false }) (by decide) (fun _ => ⟨rfl, rfl, rfl⟩)
    (.refl Quiet s)
  exact .next (.ite (fun _ => hl) fun _ => deviceReset_recordEvent_quiet _ _ _ _ _ _
    (.onDevSame (by decide) (fun _ => ⟨rfl, rfl, rfl⟩) hl))

theorem execRefclkRestored_quiet : QuietNext s (execRefclkRestored s) :=
  .next (.onDevSame (by decide) (fun _ => ⟨rfl, rfl, rfl⟩) (.refl _ _))

theorem execThermalTrip_quiet : QuietNext s (execThermalTrip s) :=
  .when (deviceReset_keeps reaching_subset_quiet
    (.onDevSame (by decide) (fun _ => ⟨rfl, rfl, rfl⟩) (countBoot_keeps (by decide) (.refl _ _))))

theorem execAgeingGuardStep_quiet (c : Fin 34) : QuietNext s (execAgeingGuardStep c s) :=
  .when (.onNv (by decide) (.refl _ _))

theorem execDeviceReady_quiet : QuietNext s (execDeviceReady s) := by
  unfold execDeviceReady
  match s.dev.slot with
  | none => exact .same s
  | some i =>
    refine .ite (.same s) (.next (.onDevSame (by decide) (fun _ => ⟨rfl, rfl, rfl⟩) (.onNv (by decide) ?_)))
    exact onSlot_keeps _ _ (by decide) (.refl _ _)

theorem execBootTimeout_quiet (order : BitVec 8) : QuietNext s (execBootTimeout order s) :=
  .when (deviceReset_recordEvent_quiet _ _ _ _ _ _ (.refl _ _))

theorem execReadyHourExpiry_quiet : QuietNext s (execReadyHourExpiry s) :=
  .when (.onNv (by decide) (.onDevSame (by decide) (fun _ => ⟨rfl, rfl, rfl⟩) (.refl _ _)))

end

/-! ### Access port: The engines of a cell -/

section
variable (c : Fin 34) (s : State)

theorem execSlotBegin_quiet (held : Option HoldCause) (late : Bool) (upset : Option Upset) :
    QuietNext s (execSlotBegin c held late upset s) := by
  have hu := fun {u} (hk : Keeps Quiet s u) => show Keeps Quiet s (match upset with
      | some v => takeUpset c v u
      | none => u) by
    match upset with
    | some v => exact takeUpset_keeps _ _ (by decide) hk
    | none => exact hk
  have hc := fun f => hu (.onCell (n := c) (f := f) (by decide) (.refl _ s))
  unfold execSlotBegin
  split
  · exact .same s
  · refine .ite (.same s) (.ite ?_ (.next (hc _)))
    split
    · exact .next (issueSlot_keeps _ _ _ _ (by decide) reaching_subset_quiet (hc _))
    · exact .next (hc _)

theorem execMmul_quiet : QuietNext s (execMmul c s) := by
  have hq := popQueue_keeps c 0 (by decide) (.refl Quiet s)
  have hs := fun m => streamScaleBad_keeps c m reaching_subset_quiet hq
  have hend := fun e st {u} (hu : Keeps Quiet s u) => QuietNext.next (endMe_keeps c e st Counts.reset 0 0
    (by decide) hu)
  unfold execMmul
  match eligible s c 0 with
  | none => exact .same s
  | some e =>
    refine .ite (.same s) (.ite (hend _ _ hq) (.ite (.next (hs _)) (.ite (hend _ _ (hs _)) (.ite (.next ?_)
      (.ite (.next (.onCell (by decide) (hs _))) ?_)))))
    · exact loadTile_keeps _ _ _ reaching_subset_quiet (hs _)
    · split
      · exact .next (swapTile_keeps _ _ _ (by decide) (hs _))
      · exact .next (hs _)

theorem execHpreload_quiet : QuietNext s (execHpreload c s) := by
  have hq := popQueue_keeps c 0 (by decide) (.refl Quiet s)
  unfold execHpreload
  match eligible s c 0 with
  | none => exact .same s
  | some (_, e) =>
    refine .ite (.same s) (.ite (.next (endMe_keeps _ _ _ _ _ _ (by decide) hq)) ?_)
    match ownRead c (meCmd e.word).hAddr (heldBytes (meCmd e.word)) (popQueue c 0 s),
      ownRead_keeps c _ _ reaching_subset_quiet hq with
    | (none, u), h => exact .next h
    | (some bs, u), h => exact .next (endMe_keeps _ _ _ _ _ _ (by decide) (.onCell (by decide) h))

theorem execVkern_quiet : QuietNext s (execVkern c s) := by
  have hq := popQueue_keeps c 1 (by decide) (.refl Quiet s)
  have hend := fun e {u} (hu : Keeps Quiet s u) => QuietNext.next (endVe_keeps c e stRange Counts.reset (by decide) hu)
  unfold execVkern
  match eligible s c 1 with
  | none => exact .same s
  | some (_, e) =>
    refine .ite (.same s) (.ite (hend _ hq) ?_)
    match readPrm c (32 * fld e.word 92 73) (popQueue c 1 s), readPrm_keeps c _ reaching_subset_quiet hq with
    | (none, u), h => exact .next h
    | (some prm, u), h =>
      refine .ite (hend _ h) (.ite (.next (.onCell (by decide) h)) (.next ?_))
      exact veRows_keeps _ _ _ _ reaching_subset_quiet h

theorem execVeJoinRow_quiet : QuietNext s (execVeJoinRow c s) := by
  unfold execVeJoinRow
  extract_lets x
  match s.works c with
  | none => exact .same s
  | some p =>
    match x.ve.run with
    | none => exact .same s
    | some r =>
      dsimp only
      match r.joined with
      | none => exact .same s
      | some j =>
        refine .ite (.next ?_) (.ite ?_ (.same s))
        · exact endVe_keeps _ _ _ _ (by decide) (voidOutputs_keeps _ (by decide) (by decide) (.refl _ _))
        · match veRow c (veCmd r.entry.word r.prm.toNat) r s, veRow_keeps c _ _ reaching_subset_quiet (.refl _ s) with
          | (none, u), h => exact .next h
          | (some r, u), h =>
            exact .ite (.next (finishVe_keeps _ _ _ reaching_subset_quiet h)) (.next (.onCell (by decide) h))

theorem execQuant_quiet : QuietNext s (execQuant c s) := by
  have hr := reaching_subset_quiet
  have hq := popQueue_keeps c 2 (by decide) (.refl Quiet s)
  unfold execQuant
  match eligible s c 2 with
  | none => exact .same s
  | some (_, e) =>
    refine .ite (.same s) (.ite (.next (endQe_keeps _ _ _ _ _ (by decide) hq)) ?_)
    let m := qeCmd e.word
    match readRows c m.src m.srcT m.m m.l m.m 0 0 (popQueue c 2 s), readRows_keeps c _ _ _ _ _ _ _ hr hq with
    | (none, u), h => exact .next h
    | (some (n, rows), u), h =>
      have hw := fun l => writeParts_keeps c l hr h
      exact .ite (.next (endQe_keeps _ _ _ _ _ (by decide) (hw _))) (.next (hw _))

theorem execUpdate_quiet : QuietNext s (execUpdate c s) :=
  takeUe_quiet _ _ _ (fun _ _ _ _ _ => runUpdate_keeps _ _ _ _ _ reaching_subset_quiet (.refl _ _)) s

theorem execRequant_quiet : QuietNext s (execRequant c s) :=
  takeUe_quiet _ _ _ (fun _ _ _ _ _ => runRequant_keeps _ _ _ reaching_subset_quiet (.refl _ _)) s

theorem execRbits_quiet : QuietNext s (execRbits c s) :=
  takeUe_quiet _ _ _ (fun _ _ _ _ _ => runRbits_keeps _ _ _ _ reaching_subset_quiet (.refl _ _)) s

theorem execCommandCompletion_quiet (q : Fin 5) (seqNo : BitVec 32) :
    QuietNext s (execCommandCompletion c q seqNo s) := by
  unfold execCommandCompletion
  extract_lets x
  match s.cellOwner c with
  | none => exact .same s
  | some p =>
    match outcomeOf x q seqNo with
    | none => exact .same s
    | some o =>
      refine .ite (.same s) (.ite (.next ?_) (.next ?_))
      · exact dupMismatch_keeps _ _ _ _ _ (by decide) (by decide) (by decide) (by decide) (by decide) (by decide)
          (by decide) (by decide) (by decide) (by decide) (.refl _ _)
      · refine settleHeld_keeps _ _ (by decide) (by decide) (resolve_keeps _ _ _ _ (by decide) (by decide) (by decide)
          (by decide) (.ite (fun _ => .onCell (by decide) ?_) fun _ => recordDone_keeps _ _ _ (by decide) (by decide) ?_))
        all_goals
          exact noteResidue_keeps _ _ _ (by decide) (notePushed_keeps _ _ _ _ (by decide)
            (.ite (fun _ => notePast_keeps _ _ _ (by decide) (.onCell (by decide) (.refl _ _)))
              fun _ => .onCell (by decide) (.refl _ _)))

theorem execSquashResume_quiet : QuietNext s (execSquashResume c s) := by
  unfold execSquashResume
  cases (s.cell c).core.run with
  | squashing cp =>
    cases s.works c with
    | none => exact .same s
    | some p => exact .next (State.onCore_keeps _ _ (by decide) (.refl _ _))
  | _ => exact .same s

theorem execDupCompare_quiet (upset : BitVec 64) : QuietNext s (execDupCompare c upset s) := by
  have hc := fun f => Keeps.onCell (n := c) (f := f) (by decide) (.refl Quiet s)
  have hn := fun p t {u} (hu : Keeps Quiet s u) => noteMismatch_keeps c p t (by decide) (by decide) (by decide)
    (by decide) (by decide) (by decide) (by decide) (by decide) (by decide) (by decide) hu
  unfold execDupCompare
  match s.works c with
  | none => exact .same s
  | some p =>
    match (s.cell c).samples with
    | [] => exact .same s
    | t :: r =>
      refine .ite (.same s) (.next (.ite (fun _ => resumeEngines_keeps _ _ reaching_subset_quiet ?_) fun _ => ?_))
      all_goals exact .ite (fun _ => hc _) fun _ => hn _ _ (hc _)

theorem execCellStoreScrub_quiet : QuietNext s (execCellStoreScrub c s) :=
  .when (scrubWords_keeps _ reaching_subset_quiet (.onCell (by decide) (.refl _ _)))

end

/-! ### Access port: The data mover and the commands it starts on the ring -/

section
variable (c : Fin 34) (s : State)

theorem execCopy_quiet (fails : List PartFail) : QuietNext s (execCopy c fails s) := by
  have hr := reaching_subset_quiet
  refine takeDm_quiet _ _ _ (fun p e d u => ?_) s
  match readSpace p c d.sspace d.saddr d.len u, readSpace_keeps p c _ _ _ hr (.refl _ u) with
  | (none, v), h => exact h
  | (some bs, v), h => exact deliver_keeps _ _ _ _ _ _ (by decide) hr h

theorem execGather_quiet (fails : List PartFail) : QuietNext s (execGather c fails s) := by
  have hr := reaching_subset_quiet
  refine takeDm_quiet _ _ _ (fun p e d u => ?_) s
  match fmtOf d.fmt with
  | none => exact .refl _ _
  | some f =>
    dsimp only
    match readTile p c f d u, readTile_keeps p c f d hr (.refl _ u) with
    | (none, v), h => exact h
    | (some planes, v), h => exact deliver_keeps _ _ _ _ _ _ (by decide) hr h

theorem execScatter_quiet (fails : List PartFail) : QuietNext s (execScatter c fails s) := by
  have hr := reaching_subset_quiet
  refine takeDm_quiet _ _ _ (fun p e d u => ?_) s
  match fmtOf d.fmt with
  | none => exact .refl _ _
  | some f =>
    match readSpace p c 1 d.saddr d.srcBytes u, readSpace_keeps p c _ _ _ hr (.refl _ u) with
    | (none, v), h => exact h
    | (some tile, v), h => exact landPieces_keeps _ _ _ _ _ _ _ (by decide) hr h

theorem execDmAdd_quiet (fails : List PartFail) : QuietNext s (execDmAdd c fails s) := by
  refine takeDm_quiet _ _ _ (fun p e d u => ?_) s
  match addPartList c p d fails (addParts u p c d).zipIdx ⟨[], [], Counts.reset, []⟩ u,
    addPartList_keeps c p d fails _ _ (by decide) reaching_subset_quiet (.refl Quiet u) with
  | (none, v), h => exact h
  | (some a, v), h => exact addDm_keeps _ _ (by decide) h

theorem execOrderedAddApply_quiet (seqNo : BitVec 32) (fails : List PartFail) :
    QuietNext s (execOrderedAddApply c seqNo fails s) := by
  have ha := fun p d l a => addPartList_keeps c p d fails l a (by decide) reaching_subset_quiet (.refl Quiet s)
  unfold execOrderedAddApply
  cases s.cellOwner c with
  | none => exact .same s
  | some p =>
    cases (s.cell c).dm.find? _ with
    | none => exact .same s
    | some r =>
      dsimp only
      split
      · exact .next (.onCell (by decide) (.ofPair ‹_› (ha _ _ _ _)))
      · exact .next (.ofPair ‹_› (ha _ _ _ _))

theorem execMxImport_quiet (fails : List PartFail) : QuietNext s (execMxImport c fails s) := by
  have hr := reaching_subset_quiet
  refine takeDm_quiet _ _ _ (fun p e d u => ?_) s
  match fmtOf d.fmt with
  | none => exact .refl _ _
  | some f =>
    dsimp only
    match readSpace p c d.sspace d.saddr d.srcBytes u, readSpace_keeps p c _ _ _ hr (.refl _ u) with
    | (none, v), h => exact h
    | (some el, v), h =>
      dsimp only
      match readSpace p c d.sspace d.xaddr (mxScaleBytes d.odim d.kdim) v, readSpace_keeps p c _ _ _ hr h with
      | (none, w), h => exact h
      | (some sc, w), h =>
        dsimp only
        match mxImportBlks f d el sc with
        | none => exact refuseDm_keeps _ _ _ _ (by decide) h
        | some b => exact deliver_keeps _ _ _ _ _ _ (by decide) hr h

theorem execMxExport_quiet (fails : List PartFail) : QuietNext s (execMxExport c fails s) := by
  have hr := reaching_subset_quiet
  refine takeDm_quiet _ _ _ (fun p e d u => ?_) s
  match fmtOf d.fmt, powerOfTwo d.ts with
  | some f, some k =>
    dsimp only
    match readSpace p c d.sspace d.saddr d.srcBytes u, readSpace_keeps p c _ _ _ hr (.refl _ u) with
    | (none, v), h => exact h
    | (some bs, v), h =>
      dsimp only
      split
      · exact refuseDm_keeps _ _ _ _ (by decide) h
      · exact landPieces_keeps _ _ _ _ _ _ _ (by decide) hr h
  | none, _ | some _, none => exact .refl _ _

theorem execFill_quiet (fails : List PartFail) : QuietNext s (execFill c fails s) :=
  takeDm_quiet _ _ _ (fun _ _ _ _ => deliver_keeps _ _ _ _ _ _ (by decide) reaching_subset_quiet (.refl _ _)) s

theorem execRsend_quiet : QuietNext s (execRsend c s) := by
  have hr := reaching_subset_quiet
  refine takeRing_quiet _ _ _ (fun p e d u => ?_) s
  match readSpace p c d.sspace d.saddr d.len u, readSpace_keeps p c _ _ _ hr (.refl _ u) with
  | (none, v), h => exact h
  | (some bs, v), h => exact startTx_keeps _ hr h

theorem execRpost_quiet : QuietNext s (execRpost c s) :=
  takeRing_quiet _ _ _ (fun _ _ _ _ => matchStreams_keeps _ reaching_subset_quiet
    (postNext_keeps _ (by decide) (by decide) (.onCell (by decide) (.refl _ _)))) s

theorem execColl_quiet : QuietNext s (execColl c s) :=
  takeRing_quiet _ _ _ (fun _ _ _ _ => issueColl_keeps _ _ reaching_subset_quiet (.refl _ _)) s

theorem execBarrier_quiet : QuietNext s (execBarrier c s) :=
  takeRing_quiet _ _ _ (fun _ _ _ _ => issueBarrier_keeps _ _ reaching_subset_quiet (.refl _ _)) s

end

/-! ### Access port: The control core -/

section
variable (c : Fin 34) (s : State)

theorem execPush_quiet : QuietNext s (execPush c s) := by
  unfold execPush
  match coreFetch c 0x32 s with
  | none => exact .same s
  | some w => exact .ite (.same s) (.next (.onCell (by decide) (.refl _ _)))

theorem execChkp_quiet : QuietNext s (execChkp c s) := by
  unfold execChkp
  match coreFetch c 0x34 s with
  | none => exact .same s
  | some w =>
    refine .ite (.same s) (.next ?_)
    exact openCheckPoint_keeps _ _ (by decide) (by decide) (by decide) (by decide) (.refl _ _)

theorem execIllegalInstruction_quiet : QuietNext s (execIllegalInstruction c s) := by
  unfold execIllegalInstruction
  match s.works c with
  | none => exact .same s
  | some p =>
    refine .ite (.next (State.onCore_keeps _ _ (by decide) ?_)) (.same s)
    exact stopPartition_keeps _ _ _ _ (by decide) (by decide) (by decide) (by decide) (by decide) (by decide) (by decide)
      (by decide) (recordEvent_keeps _ _ _ _ _ _ (by decide) (by decide) (pushRecord_keeps _ _ (by decide) (.refl _ _)))

end

/-! ### Access port: Modules, contexts, replays and cupping -/

section
variable (s : State)

theorem execPartitionCommitPoint_quiet (p : Fin 8) : QuietNext s (execPartitionCommitPoint p s) := by
  have hr := reaching_subset_quiet
  have hc := fun f => commitRun_keeps p hr (.onPart (p := p) (f := f) (by decide) (.refl Quiet s))
  have hp := fun g f => Keeps.onPart (p := p) (f := g) (by decide) (hc f)
  refine .ite (.same s) (.ite (.next (hc _)) (.next (.ite (fun _ => cupPoint_keeps _ (by decide) hr (hp _ _)) fun _ =>
    releaseCores_keeps _ (by decide) (by decide) (.ite (fun _ => ?_) fun _ => hp _ _))))
  exact emptyTraces_keeps _ (by decide) (hp _ _)

theorem execContextSaveRequest_quiet (r : EopReq) : QuietNext s (execContextSaveRequest r s) :=
  eopWrite_quiet _ _ _ _ (fun _ _ _ _ => .onPart (by decide) (.refl _ _)) s

theorem execContextSave_quiet (p : Fin 8) : QuietNext s (execContextSave p s) :=
  .when (.onPart (by decide) (.refl _ _))

theorem execContextSaveEnd_quiet (p : Fin 8) : QuietNext s (execContextSaveEnd p s) := by
  have hr := reaching_subset_quiet
  have hh := fun l => rehash_keeps p l hr (.refl Quiet s)
  have hw := fun a bs {u} (hu : Keeps Quiet s u) => relWrite_keeps false p a bs hr hu
  have hp := fun f l a bs => Keeps.onPart (p := p) (f := f) (by decide) (hw a bs (hh l))
  refine .ite (.same s) ?_
  split
  · exact .same s
  · refine .ite (.next (hh _)) (.ite (.next (hw _ _ (hh _))) (.next (notify_keeps _ _ _ _ (by decide) (by decide)
      (by decide) (.ite (fun _ => releaseCores_keeps _ (by decide) (by decide) ?_) fun _ => ?_))))
    all_goals exact hp _ _ _ _

theorem execReplayStart_quiet (r : EopReq) : QuietNext s (execReplayStart r s) := by
  have hr := reaching_subset_quiet
  refine eopWrite_quiet _ _ _ _ (fun p v _ u => ?_) s
  have hp := fun f => Keeps.onPart (p := p) (f := f) (by decide) (.refl Quiet u)
  have hc := fun g l f => openCapsule_keeps p hr (Keeps.forEach (xs := l)
    (fun c t => State.onCore_keeps (s₁ := t) c g (by decide) (.refl _ _)) (hp f))
  exact .ite (fun _ => hc _ _ _) fun _ => startCores_keeps _ _ _ (by decide) (by decide) (startRun_keeps _ hr (hc _ _ _))

theorem execReplayEnd_quiet (p : Fin 8) : QuietNext s (execReplayEnd p s) := by
  have hr := reaching_subset_quiet
  have hv : Keeps Quiet s (if (s.part p).step = none then closeCapsule p s else stepVerdict p s) :=
    .ite (fun _ => closeCapsule_keeps _ hr (.refl _ _)) fun _ => stepVerdict_keeps _ hr (.refl _ _)
  refine .ite (.same s) (.ite (.next hv) (.next (notify_keeps _ _ _ _ (by decide) (by decide) (by decide)
    (.onPart (by decide) (.forEach (fun _ _ => State.onCore_keeps _ _ (by decide) (.refl _ _)) hv)))))

theorem execModuleLoad_quiet (r : EopReq) : QuietNext s (execModuleLoad r s) :=
  eopWrite_quiet _ _ _ _ (fun _ _ _ _ => .onPart (by decide)
    (sendCupEnd_keeps _ (by decide) (by decide) (by decide) (.refl _ _))) s

theorem execModuleLoadEnd_quiet (p : Fin 8) : QuietNext s (execModuleLoadEnd p s) := by
  have hr := reaching_subset_quiet
  refine .ite (.same s) ?_
  extract_lets a
  match relRead p a 64 s, relRead_keeps p a 64 hr (.refl _ s) with
  | (none, u), h => exact .next h
  | (some h, u), hh =>
    dsimp only
    match relRead p a (modHeader h).imgLen u, relRead_keeps p a _ hr hh with
    | (none, v), h => exact .next h
    | (some img, v), h => exact .next (loadImage_keeps _ _ hr (.onPart (by decide) h))

theorem execRestore_quiet (r : EopReq) : QuietNext s (execRestore r s) :=
  eopWrite_quiet _ _ _ _ (fun _ _ _ _ => .onPart (by decide) (.refl _ _)) s

theorem execRestoreEnd_quiet (p : Fin 8) : QuietNext s (execRestoreEnd p s) := by
  have hr := reaching_subset_quiet
  have hend := fun st reason a {u} (hu : Keeps Quiet s u) =>
    QuietNext.next (endRestore_keeps p st reason a (by decide) (by decide) (by decide) hu)
  unfold execRestoreEnd
  -- `readBody` made opaque: the kernel would evaluate the bounds it compares
  obtain ⟨read, hdef, hread⟩ : ∃ f, readBody = f ∧ ∀ {u} q a h, Keeps Quiet s u → Keeps Quiet s (f u q a h).2 :=
    ⟨readBody, rfl, fun _ _ _ hu => readBody_keeps _ _ _ hr hu⟩
  rw [hdef]
  match (s.part p).restoring with
  | none => exact .same s
  | some v =>
    refine .ite (hend _ _ _ (.refl _ _)) ?_
    match relRead p (fld v 63 0) 64 s, relRead_keeps p _ _ hr (.refl _ s) with
    | (none, u), h => exact .next h
    | (some h, u), hh =>
      dsimp only
      match read u p (fld v 63 0) (leNat h), hread p _ _ hh with
      | (none, w), h => exact .next h
      | (some body, w), hb =>
        have hd := fun l => rehash_keeps p l hr hb
        refine .ite (hend _ _ _ hb) (.ite (.next (hd _)) (.ite (hend _ _ _ (hd _)) (hend _ _ _ ?_)))
        exact resumeReplay_keeps _ _ _ (by decide) (by decide)
          (setContext_keeps _ _ _ hr (voidContents_keeps _ (by decide) (by decide) (hd _)))

theorem execCuppingDigest_quiet (port : RingPort) (f : VrtFrame) : QuietNext s (execCuppingDigest port f s) :=
  .next (onCup_keeps _ _ _ _ (fun _ _ _ => takeDigest_keeps _ _ _
    (fun _ _ _ => replyCup_keeps _ _ (by decide) reaching_subset_quiet (.refl _ _)) (by decide)
    reaching_subset_quiet (.refl _ _)) (by decide) (by decide) (by decide) (.refl _ _))

theorem execCuppingEnd_quiet (port : RingPort) (f : VrtFrame) : QuietNext s (execCuppingEnd port f s) :=
  .next (onCup_keeps _ _ _ _ (fun _ _ _ => cupEndAt_keeps _ (by decide) (by decide) (.refl _ _))
    (by decide) (by decide) (by decide) (.refl _ _))

theorem execCuppingResend_quiet (p : Fin 8) : QuietNext s (execCuppingResend p s) := by
  unfold execCuppingResend
  match (s.part p).cup.point with
  | none => exact .same s
  | some n => exact .next (sendCup_keeps _ _ (by decide) reaching_subset_quiet (.refl _ _))

theorem execCuppingPeerTimeout_quiet (p : Fin 8) : QuietNext s (execCuppingPeerTimeout p s) := by
  unfold execCuppingPeerTimeout
  match (s.part p).cup.point with
  | none => exact .same s
  | some n => exact .next (cupOver_keeps _ (by decide) (by decide) (.refl _ _))

theorem execCuppingConfigWrite_quiet (r : EopReq) : QuietNext s (execCuppingConfigWrite r s) :=
  eopWrite_quiet _ _ _ _ (fun _ _ _ _ => .ite (fun _ => .onPart (by decide) (.refl _ _)) fun _ =>
    .ite (fun _ => .onPart (by decide) (.refl _ _)) fun _ => .onPart (by decide)
      (.ite (fun _ => endPeerOf_keeps _ _ (by decide) (by decide) (by decide) (.refl _ _)) fun _ => .refl _ _)) s

theorem execStepReplay_quiet (r : EopReq) : QuietNext s (execStepReplay r s) :=
  eopWrite_quiet _ _ _ _ (fun _ _ _ _ => .onPart (by decide) (.refl _ _)) s

theorem execStepReplayHashEnd_quiet (p : Fin 8) : QuietNext s (execStepReplayHashEnd p s) := by
  have hr := reaching_subset_quiet
  have hend := fun {u} (hu : Keeps Quiet s u) => QuietNext.next (endStep_keeps p stDigest (by decide) hu)
  unfold execStepReplayHashEnd
  match (s.part p).step with
  | none => exact .same s
  | some x =>
    refine .ite (.same s) ?_
    match readCapsule p x.slot s, readCapsule_keeps p _ hr (.refl _ s) with
    | (none, u), h => exact .next h
    | (some c, u), hc =>
      have hh := fun l => rehash_keeps p l hr hc
      exact .ite (hend hc) (.ite (.next (hh _)) (.ite (hend (hh _)) (.next (startStep_keeps _ _ hr (hh _)))))

end

/-! ### Access port: The stacks -/

section
variable (st : Fin 32) (ch : Fin 16) (r : EopReq) (s : State)

theorem execScrubGranule_quiet : QuietNext s (execScrubGranule st s) :=
  .when (scrubSteward_keeps _ reaching_subset_quiet (scrubData_keeps _ reaching_subset_quiet (.refl _ _)))

theorem execRefreshWindow_quiet : QuietNext s (execRefreshWindow st ch s) :=
  .when (onChan_keeps _ _ _ (by decide) (.refl _ _))

theorem execRetrainRequest_quiet : QuietNext s (execRetrainRequest st ch s) :=
  .when (onChan_keeps _ _ _ (by decide) (.refl _ _))

theorem execRetrainEnd_quiet : QuietNext s (execRetrainEnd st ch s) :=
  .when (.onStack (by decide) (onChan_keeps _ _ _ (by decide) (.refl _ _)))

theorem execRetrainTimeout_quiet : QuietNext s (execRetrainTimeout st ch s) := by
  have ht := fun f g => Keeps.onStack (n := st) (f := f) (by decide) (onChan_keeps st ch g (by decide) (.refl Quiet s))
  refine .ite (.same s) (.next (recordEvent_keeps _ _ _ _ _ _ (by decide) (by decide) ?_))
  split
  · exact .onPart (by decide) (ht _ _)
  · exact ht _ _

theorem execRetrainLockoutExpiry_quiet : QuietNext s (execRetrainLockoutExpiry st ch s) :=
  .next (onChan_keeps _ _ _ (by decide) (.refl _ _))

theorem execFlipMaskWrite_quiet : QuietNext s (execFlipMaskWrite r s) :=
  eopWrite_quiet _ _ _ _ (fun _ _ _ _ => .onStack (by decide) (.refl _ _)) s

theorem execLogClear_quiet : QuietNext s (execLogClear r s) :=
  eopWrite_quiet _ _ _ _ (fun _ _ _ _ => .onStack (by decide) (.refl _ _)) s

end

/-! ### Access port: The ring ports -/

section
variable (port : RingPort) (f : VrtFrame) (r : EopReq) (s : State)

theorem execLaneFailure_quiet (lane : Fin 8) : QuietNext s (execLaneFailure port lane s) :=
  .ite (.same s) (.next (restartPort_keeps _ (by decide) (by decide) (by decide) (by decide) (by decide)
    (recordEvent_keeps _ _ _ _ _ _ (by decide) (by decide) (.onPort (by decide) (.refl _ _)))))

theorem execPortTrainingEnd_quiet (lanes : BitVec 8) : QuietNext s (execPortTrainingEnd port lanes s) := by
  have hp := fun f => Keeps.onPort (n := portNum port) (f := f) (by decide) (.refl Quiet s)
  have hq := fun f g => Keeps.onPort (n := portNum port) (f := f) (by decide) (hp g)
  have hst := fun v {u} (hu : Keeps Quiet s u) => QuietNext.next (setPortState_keeps (portNum port) v (by decide)
    (by decide) (by decide) (by decide) hu)
  have hup := fun {u} (hu : Keeps Quiet s u) => comeUp_keeps (portNum port) (by decide) hu
  exact .ite (.same s) (.ite (hst _ (hp _)) (.ite (hst _ (hup (hp _))) (.ite (hst _ (hup (hq _ _))) (hst _ (hq _ _)))))

theorem execPortRestartRetry_quiet : QuietNext s (execPortRestartRetry port s) :=
  .when (restartPort_keeps _ (by decide) (by decide) (by decide) (by decide) (by decide) (.refl _ _))

theorem execPortRestart_quiet : QuietNext s (execPortRestart r s) :=
  eopWrite_quiet _ _ _ _ (fun _ _ _ _ => restartPort_keeps _ (by decide) (by decide) (by decide) (by decide) (by decide)
    (.onPort (by decide) (.refl _ _))) s

theorem execRemove_quiet : QuietNext s (execRemove r s) := by
  unfold execRemove
  split
  · refine eopWrite_quiet _ _ _ _ (fun _ _ _ _ => .ite (fun _ => ?_) (fun _ => .refl _ _)) s
    exact sendLeave_keeps _ (by decide) (sendLeave_keeps _ (by decide)
      (.onDevSame (by decide) (fun _ => ⟨rfl, rfl, rfl⟩) (.refl _ _)))
  · exact .same s

/-- The removal commands the by-pass position and leaves the switch fault. -/
theorem execRemoveComplete_quiet : QuietNext s (execRemoveComplete s) := by
  have hd := fun n {u} (hu : Keeps Quiet s u) => dropPort_keeps n (by decide) (by decide) (by decide) (by decide) hu
  exact .when (hd _ (hd _ (.onDev (by decide) (fun ⟨_, h⟩ => ⟨rfl, h⟩) (.refl _ _))))

theorem execBypassCheckTimeout_quiet (e w : Bool) : QuietNext s (execBypassCheckTimeout e w s) := by
  have hd := fun n {u} (hu : Keeps Quiet s u) => dropPort_keeps n (by decide) (by decide) (by decide) (by decide) hu
  have hs := Keeps.onDevSame (f := fun d => { d with bypE := e, bypW := w }) (by decide) (fun _ => ⟨rfl, rfl, rfl⟩)
    (.refl Quiet s)
  refine .ite (.same s) (.ite (.next hs) (.next (hd _ (hd _ (.onDev (by decide) (fun _ => ⟨rfl, .inl rfl⟩) ?_)))))
  exact recordEvent_keeps _ _ _ _ _ _ (by decide) (by decide) hs

theorem execBypassPositionSensed_quiet (e w : Bool) : QuietNext s (execBypassPositionSensed e w s) := by
  have hs := Keeps.onDevSame (f := fun d => { d with bypE := e, bypW := w }) (by decide) (fun _ => ⟨rfl, rfl, rfl⟩)
    (.refl Quiet s)
  refine .ite (.same s) (.next (.ite (fun _ => .forEach (fun n u => .ite (fun _ => .refl _ _) fun _ => ?_) hs) fun _ => hs))
  exact restartPort_keeps _ (by decide) (by decide) (by decide) (by decide) (by decide) (.refl _ _)

theorem execCredit_quiet : QuietNext s (execCredit port f s) :=
  onFrame_quiet _ _ _ _ (fun _ _ => .ite (fun _ => .refl _ _) fun _ =>
    pumpPort_keeps _ (by decide) (by decide) (.onPort (by decide) (.refl _ _))) s

theorem execLack_quiet : QuietNext s (execLack port f s) := by
  refine onFrame_quiet _ _ _ _ (fun g u => ?_) s
  have hp := fun h => Keeps.onPort (n := portNum port) (f := h) (by decide) (.refl Quiet u)
  exact pumpPort_keeps _ (by decide) (by decide) (.ite (fun _ => replayAll_keeps _ (by decide) (by decide) (hp _))
    fun _ => hp _)

theorem execProbe_quiet : QuietNext s (execProbe port f s) :=
  onProbe_quiet _ _ _ (fun _ => sendClass0_keeps _ _ (by decide) (.refl _ _)) s

theorem execProbeReply_quiet : QuietNext s (execProbeReply port f s) := by
  refine onProbe_quiet _ _ _ (fun u => ?_) s
  cases (u.port (portNum port)).probes.find? fun x => decide (x.num = f.xid) with
  | none => exact .refl _ _
  | some x =>
    refine .ite (fun _ => .onDevSame (by decide) (fun _ => ⟨rfl, rfl, rfl⟩) ?_) fun _ => ?_
    all_goals exact .onPort (by decide) (.refl _ _)

theorem execLeave_quiet : QuietNext s (execLeave port f s) :=
  onProbe_quiet _ _ _ (fun _ => .onPort (by decide) (.refl _ _)) s

theorem execProbeTimer_quiet : QuietNext s (execProbeTimer port s) :=
  .when (sendProbe_keeps _ _ (by decide) (by decide) (.refl _ _))

theorem execHopTimeout_quiet : QuietNext s (execHopTimeout port s) := by
  have hp := fun f => Keeps.onPort (n := portNum port) (f := f) (by decide) (.refl Quiet s)
  unfold execHopTimeout
  dsimp only
  match (s.port (portNum port)).probes with
  | [] => exact .same s
  | x :: r =>
    refine .ite (.same s) (.ite (.next (sendProbe_keeps _ _ (by decide) (by decide) (hp _))) (.next ?_))
    exact restartPort_keeps _ (by decide) (by decide) (by decide) (by decide) (by decide) (hp _)

theorem execLackTimer_quiet : QuietNext s (execLackTimer port s) :=
  .when (sendLack_keeps _ _ (by decide) (.refl _ _))

theorem execLackTimeout_quiet : QuietNext s (execLackTimeout port s) :=
  .when (replayAll_keeps _ (by decide) (by decide) (.refl _ _))

theorem execCreditTimer_quiet : QuietNext s (execCreditTimer port s) :=
  .when (sendCredit_keeps _ (by decide) (by decide) (.refl _ _))

theorem execPfcFrame_quiet (enable pause : BitVec 8) : QuietNext s (execPfcFrame port enable pause s) :=
  .ite (.same s) (.next (pumpPort_keeps _ (by decide) (by decide) (.onPort (by decide) (.refl _ _))))

end

/-! ### Access port: Streams and collectives -/

section
variable (port : RingPort) (f : VrtFrame) (p : Fin 8) (s : State)

theorem execData_quiet : QuietNext s (execData port f s) :=
  onFrame_consume_quiet _ _ _ _ (fun _ _ => takeData_keeps _ _ reaching_subset_quiet (.refl _ _)) s

theorem execSack_quiet : QuietNext s (execSack port f s) := by
  refine onFrame_consume_quiet _ _ _ _ (fun g u => ?_) s
  refine .ite (fun _ => takeSegSack_keeps _ reaching_subset_quiet (.refl _ _)) fun _ => ?_
  split
  · exact takeSack_keeps _ _ reaching_subset_quiet (.refl _ _)
  · exact .refl _ _

theorem execSackTimer_quiet (xfer : Nat) : QuietNext s (execSackTimer xfer s) := by
  unfold execSackTimer
  match s.ring.rx[xfer]? with
  | none => exact .same s
  | some x => exact .when (sendSack_keeps _ (by decide) (by decide) (.refl _ _))

theorem execPathTimeout_quiet (xid : BitVec 32) (lapsed : Bool) : QuietNext s (execPathTimeout xid lapsed s) := by
  unfold execPathTimeout
  match txOf s xid with
  | none => exact .same s
  | some t =>
    dsimp only
    match t.acked.findIdx? (fun a => !a) with
    | none => exact .same s
    | some i =>
      refine .ite (.next ?_) (.next (sendTx_keeps _ _ _ reaching_subset_quiet (.refl _ _)))
      exact finishTx_keeps _ _ (by decide) (by decide) (by decide) (by decide) (by decide) (.refl _ _)

theorem execDesc_quiet : QuietNext s (execDesc port f s) := by
  refine onFrame_consume_quiet _ _ _ _ (fun g u => ?_) s
  have hd := doneWith_keeps (portNum port) g (by decide) (by decide) (.refl Quiet u)
  have hf := fun h {t} (ht : Keeps Quiet u t) => sendFrame_keeps (portNum port) h (by decide) (by decide) ht
  dsimp only
  match descSession g (doneWith (portNum port) g u), descEngine g.stream with
  | none, _ => exact .onPart (by decide) hd
  | some _, none => exact hd
  | some x, some e =>
    have he := fun k => Keeps.onEop (f := k) (by decide) hd
    refine .ite (fun _ => creditViolation_keeps _ (by decide) (he _)) fun _ => .ite (fun _ => hf _ (he _)) fun _ => ?_
    exact .ite (fun _ => hf _ (he _)) fun _ => .onPart (by decide) (he _)

theorem execDone_quiet : QuietNext s (execDone port f s) :=
  onFrame_consume_quiet _ _ _ _ (fun _ _ => doneWith_keeps _ _ (by decide) (by decide) (.refl _ _)) s

theorem execRecv_quiet (eng : Fin 2) : QuietNext s (execRecv eng p s) :=
  startDesc_quiet _ _ _ _ (fun _ _ => postRecv_keeps _ _ reaching_subset_quiet (.refl _ _)) s

theorem execSend_quiet (eng : Fin 2) : QuietNext s (execSend eng p s) := by
  have hr := reaching_subset_quiet
  refine startDesc_quiet _ _ _ _ (fun x u => ?_) s
  match relRead p (dAddr x.desc) (dLen x.desc) u, relRead_keeps p _ _ hr (.refl _ u) with
  | (none, v), h => exact h
  | (some bs, v), h => exact startTx_keeps _ hr h

theorem execPut_quiet : QuietNext s (execPut p s) :=
  startDesc_quiet _ _ _ _ (fun _ _ => postRecv_keeps _ _ reaching_subset_quiet (.refl _ _)) s

theorem execGroupListWrite_quiet (r : EopReq) : QuietNext s (execGroupListWrite r s) :=
  eopSegWrite_quiet _ _ _ _ _ _ (fun _ u => .refl _ u) (fun _ _ _ => .onPart (by decide) (.refl _ _)) s

theorem execCseg_quiet : QuietNext s (execCseg port f s) :=
  onFrame_consume_quiet _ _ _ _ (fun _ _ => sackSeg_keeps _ _ (by decide) (orEarly_keeps _ _ _
    (fun _ => segFrame_keeps _ _ reaching_subset_quiet (.refl _ _)) (by decide) (by decide) (by decide) (.refl _ _))) s

theorem execCollectiveTimeout_quiet (w : WorkName) : QuietNext s (execCollectiveTimeout p w s) := by
  unfold execCollectiveTimeout
  match workOf s p w.group w.barrier w.inst with
  | none => exact .same s
  | some x =>
    refine .ite (.same s) (.ite (.next ?_) (.next ?_))
    · exact endColl_keeps _ _ _ _ _ (by decide) (by decide) (by decide) (.refl _ _)
    · exact failColl_keeps _ _ _ (by decide) (by decide) (by decide) (by decide) (.refl _ _)

theorem execBarrierFrame_quiet : QuietNext s (execBarrierFrame port f s) :=
  onFrame_consume_quiet _ _ _ _ (fun _ _ => orEarly_keeps _ _ _
    (fun _ => barrierFrame_keeps _ _ (by decide) (by decide) (by decide) (by decide) (.refl _ _))
    (by decide) (by decide) (by decide) (.refl _ _)) s

end

/-! ### Access port: Requests, sessions and attestation -/

section
variable (r : EopReq) (num : BitVec 16) (s : State)

theorem execRead_quiet : QuietNext s (execRead r s) :=
  .next (eopRun_keeps _ _ _ _ (fun _ _ u => .refl _ u) (by decide) (by decide) (.refl _ _))

theorem execWrite_quiet : QuietNext s (execWrite r s) :=
  eopWrite_quiet _ _ _ _ (fun _ _ _ _ => writeEntry_keeps _ _ _ _ _ (by decide) (by decide) (by decide) (.refl _ _)) s

theorem execSeedWrite_quiet : QuietNext s (execSeedWrite r s) :=
  eopWrite_quiet _ _ _ _ (fun _ _ _ _ => .onPart (by decide) (.refl _ _)) s

theorem execCounterClear_quiet : QuietNext s (execCounterClear r s) :=
  eopWrite_quiet _ _ _ _ (fun _ _ _ _ => .onPart (by decide) (.refl _ _)) s

theorem execSegRead_quiet : QuietNext s (execSegRead r s) := by
  refine eopRun_quiet _ _ _ _ (fun x u => ?_) s
  match segSource r x u with
  | none => exact .refl _ _
  | some bs => exact setSnap_keeps _ _ (by decide) (.refl _ _)

theorem execSegWrite_quiet : QuietNext s (execSegWrite r s) :=
  eopSegWrite_quiet _ _ _ _ _ _ (fun _ _ => .ite (fun _ => .onNv (by decide) (.refl _ _)) fun _ => .refl _ _)
    (fun _ _ _ => .ite (fun _ => .onTest (by decide) (.refl _ _)) fun _ => .onNv (by decide) (.refl _ _)) s

theorem execSessionOpen_quiet : QuietNext s (execSessionOpen r s) := by
  have hg := eopGate_keeps opOpen r (by decide) (by decide) (.refl Quiet s)
  have hm := fun o {u} (hu : Keeps Quiet s u) => sendM_keeps o (by decide) hu
  unfold execSessionOpen
  split <;> rename_i he <;> rw [he] at hg
  · exact .next hg
  · exact .next (hm _ (onSession_keeps _ _ (by decide) hg))
  · exact .next (.ite (fun _ => openSession_keeps _ (by decide) (by decide) (by decide) hg) fun _ => hm _ hg)

theorem execSessionProve_quiet : QuietNext s (execSessionProve r s) := by
  have hg := eopGate_keeps opProve r (by decide) (by decide) (.refl Quiet s)
  have hm := fun o {u} (hu : Keeps Quiet s u) => sendM_keeps o (by decide) hu
  have hs := fun n f {u} (hu : Keeps Quiet s u) => onSession_keeps n f (by decide) hu
  unfold execSessionProve
  split <;> rename_i he <;> rw [he] at hg
  · exact .next hg
  · exact .next (hm _ hg)
  · refine .ite (.next ?_) (.next (hm _ (.ite (fun _ => hs _ _ (hs _ _ hg)) fun _ => hs _ _ hg)))
    exact badTagAnswer_keeps _ _ (by decide) (by decide)
      (countFailure_keeps _ (by decide) (closeSession_keeps _ (by decide) hg))

theorem execSessionClose_quiet : QuietNext s (execSessionClose r s) := by
  refine eopRun_quiet _ _ _ _ (fun x u => ?_) s
  match x with
  | some y => exact closeSession_keeps _ (by decide) (.refl _ _)
  | none => exact .refl _ _

theorem execNotifyAck_quiet : QuietNext s (execNotifyAck r s) := by
  have hm := fun o => sendM_keeps o (by decide) (.refl Quiet s)
  have hb := badTagAnswer_keeps opNotify r (by decide) (by decide) (.refl Quiet s)
  refine .ite (.same s) (.ite (.next (.onEop (by decide) (.refl _ _))) (.ite (.next ?_) ?_))
  · exact .ite (fun _ => hm _) fun _ => hb
  · cases sessionOf s r.session with
    | none => exact .next (hm _)
    | some x => exact .ite (.next hb) (.next (.ite (fun _ => onSession_keeps _ _ (by decide) (.refl _ _)) fun _ => hm _))

theorem execSessionProveTimeout_quiet : QuietNext s (execSessionProveTimeout num s) := by
  unfold execSessionProveTimeout
  match sessionOf s num with
  | none => exact .same s
  | some x => exact .next (.ite (fun _ => .refl _ _) fun _ => closeSession_keeps _ (by decide) (.refl _ _))

theorem execSessionIdleTimeout_quiet : QuietNext s (execSessionIdleTimeout num s) := by
  unfold execSessionIdleTimeout
  match sessionOf s num with
  | none => exact .same s
  | some x => exact .when (closeSession_keeps _ (by decide) (.refl _ _))

theorem execProofLockoutExpiry_quiet (p : Fin 8) : QuietNext s (execProofLockoutExpiry p s) :=
  .next (.onEop (by decide) (.refl _ _))

theorem execSessionNumberQuarantineEnd_quiet : QuietNext s (execSessionNumberQuarantineEnd num s) :=
  .next (.onEop (by decide) (.refl _ _))

theorem execSnapshotTimeout_quiet : QuietNext s (execSnapshotTimeout num s) :=
  .next (.ite (fun _ => .onEop (by decide) (.refl _ _)) fun _ => onSession_keeps _ _ (by decide) (.refl _ _))

theorem execSegWriteTimeout_quiet : QuietNext s (execSegWriteTimeout num s) :=
  .next (.onEop (by decide) (.refl _ _))

theorem execNotifyRetransmit_quiet (seqNo : BitVec 32) : QuietNext s (execNotifyRetransmit num seqNo s) := by
  have hs := fun f => onSession_keeps num f (by decide) (.refl Quiet s)
  unfold execNotifyRetransmit
  match sessionOf s num with
  | none => exact .same s
  | some x =>
    dsimp only
    cases x.unacked.find? fun u => decide (u.1 = seqNo) with
    | none => exact .same s
    | some u => exact .ite (.next (hs _)) (.next (sendM_keeps _ (by decide) (hs _)))

theorem execPortMAddressChange_quiet : QuietNext s (execPortMAddressChange s) :=
  .when (.onEop (by decide) (.refl _ _))

theorem execAttest_quiet : QuietNext s (execAttest r s) :=
  eopRun_quiet _ _ _ _ (fun _ _ => .onAtt (by decide) (.refl _ _)) s

theorem execAttestSignEnd_quiet : QuietNext s (execAttestSignEnd s) := by
  unfold execAttestSignEnd
  match s.att.fifo with
  | [] => exact .same s
  | n :: r => exact .ite (.same s) (.next (.onAtt (by decide) (reserveLeaves_keeps (by decide) (by decide) (.refl _ _))))

theorem execFirmwareVerifyEnd_quiet (slot : Fin 2) : QuietNext s (execFirmwareVerifyEnd slot s) :=
  .ite (.same s) (.next (notify_keeps _ _ _ _ (by decide) (by decide) (by decide)
    (.onNv (by decide) (.onTest (by decide) (.refl _ _)))))

end

/-! ### Access port: Partitions and self tests -/

section
variable (r : EopReq) (s : State)

theorem execKeyWrite_quiet : QuietNext s (execKeyWrite r s) :=
  eopWrite_quiet _ _ _ _ (fun _ _ _ _ => closeSessions_keeps _ _ (by decide) (.onNv (by decide) (.refl _ _))) s

theorem execPartitionDefinitionWrite_quiet : QuietNext s (execPartitionDefinitionWrite r s) :=
  eopWrite_quiet _ _ _ _ (fun _ _ _ _ => acceptDefinition_keeps _ _ (by decide) (by decide) (by decide) (by decide)
    (by decide) (by decide) (.refl _ _)) s

theorem execPartitionReset_quiet (cause : ResetCause) : QuietNext s (execPartitionReset cause s) := by
  cases cause with
  | request r =>
    exact eopWrite_quiet _ _ _ _ (fun _ _ _ _ => startReset_keeps _ _ (by decide) (by decide) (by decide) (by decide)
      (by decide) (by decide) (.refl _ _)) s
  | uncorrectable a =>
    exact .when (uncorrectable_keeps _ reaching_subset_quiet (.refl _ _))

theorem execPartitionResetEnd_quiet (p : Fin 8) : QuietNext s (execPartitionResetEnd p s) := by
  have hw := fun q old new d {u} (hu : Keeps Quiet s u) => wipeFor_keeps old new (by decide) (by decide) (by decide)
    (by decide) (by decide) (wipeShare_keeps q d (by decide) (moveSources_keeps q d (by decide) hu))
  have hf := fun l => Keeps.forEach (xs := l) (fun c _ => settleFence_keeps c (by decide) (by decide) (.refl _ _))
    (.refl Quiet s)
  refine .ite (.same s) (.next (dropPartition_keeps _ (by decide) (by decide) (notifyReset_keeps _ (by decide)
    (by decide) (by decide) (.onPart (by decide) (.onPart (by decide) (.onNv (by decide) ?_))))))
  exact .ite (fun _ => hw _ _ _ _ (hf _)) fun _ => .onPart (by decide) (hw _ _ _ _ (hf _))

theorem execCellProof_quiet : QuietNext s (execCellProof r s) :=
  eopWrite_quiet _ _ _ _ (fun _ _ _ _ => .onTest (by decide) (.refl _ _)) s

theorem execCellProofEnd_quiet (failed : Option (BitVec 40)) : QuietNext s (execCellProofEnd failed s) := by
  unfold execCellProofEnd
  match s.test.proof with
  | none => exact .same s
  | some n =>
    have hc := Keeps.clearMem (a := cellBase n) (n := cellSize) (by decide)
      (.onTest (f := fun t => { t with proof := none }) (by decide) (.refl Quiet s))
    have hu := fun f => State.onUnit_keeps 1 n f (by decide) hc
    cases failed <;> exact .next (notify_keeps _ _ _ _ (by decide) (by decide) (by decide)
      (recordEvent_keeps _ _ _ _ _ _ (by decide) (by decide) (hu _)))

theorem execChannelTest_quiet : QuietNext s (execChannelTest r s) :=
  eopWrite_quiet _ _ _ _ (fun _ _ _ _ => .onTest (by decide) (.refl _ _)) s

theorem execChannelTestEnd_quiet (bad : List Nat) : QuietNext s (execChannelTestEnd bad s) := by
  have hn := fun st unit etype i a {u} (hu : Keeps Quiet s u) => QuietNext.next (notify_keeps 0 0x09 st unit
    (by decide) (by decide) (by decide) (recordEvent_keeps etype 2 i st 15 a (by decide) (by decide) hu))
  unfold execChannelTestEnd
  split
  · exact .same s
  · refine .ite (.same s) ?_
    have hc := fun l => Keeps.forEach (xs := l) (fun w _ => checkWord_keeps true w reaching_subset_quiet (.refl _ _))
      (.onTest (f := fun t => { t with chan := none }) (by decide) (.refl Quiet s))
    dsimp only
    split
    · exact hn _ _ _ _ _ (hc _)
    · exact hn _ _ _ _ _ (.forEach (fun _ _ => addSoft_keeps _ _ (by decide) (by decide) (.refl _ _)) (hc _))

end

/-! ### Access port: The power manager -/

section
variable (d : Die) (s : State)

theorem execCapWrite_quiet (r : EopReq) : QuietNext s (execCapWrite r s) :=
  eopWrite_quiet _ _ _ _ (fun _ _ _ _ => resetWindow_keeps (by decide) (.onNv (by decide) (.refl _ _))) s

theorem execCapStep_quiet (pl pm pf pc : Nat) : QuietNext s (execCapStep pl pm pf pc s) :=
  .when (.onPower (by decide) (.refl _ _))

theorem execDroopTrip_quiet (det : Fin 16) : QuietNext s (execDroopTrip d det s) := by
  have ho := fun f => onRail_keeps (dieNum d) f (by decide) (.refl Quiet s)
  exact .ite (.same s) (.next (.ite (fun _ => ho _) fun _ => abandonStep_keeps _ _ (by decide) (by decide) (ho _)))

theorem execDroopClampRelease_quiet : QuietNext s (execDroopClampRelease d s) :=
  .when (resumeReturn_keeps _ (by decide) (by decide) (onRail_keeps _ _ (by decide) (.refl _ _)))

theorem execVrAlertAssert_quiet : QuietNext s (execVrAlertAssert s) := by
  have hv := Keeps.onDevSame (f := fun d => { d with vrAlertN := false }) (by decide) (fun _ => ⟨rfl, rfl, rfl⟩)
    (.refl Quiet s)
  exact .ite (.same s) (.next (.ite (fun _ => enterLowest_keeps (by decide) (by decide) hv) fun _ => hv))

theorem execVrAlertRelease_quiet : QuietNext s (execVrAlertRelease s) := by
  have hv := Keeps.onDevSame (f := fun d => { d with vrAlertN := true }) (by decide) (fun _ => ⟨rfl, rfl, rfl⟩)
    (.refl Quiet s)
  have hw := fun d u (hu : Keeps Quiet s u) => execVrAlertRelease.waitingSteps_keeps d (by decide) hu
  unfold execVrAlertRelease
  refine .ite (.same s) (.ite (.next hv) (.next ?_))
  refine returnRail_keeps _ (by decide) (by decide) (returnRail_keeps _ (by decide) (by decide) ?_)
  exact enqueue_keeps _ (by decide) (by decide) (hw _ _ (hw _ _ (.onPower (by decide) hv)))

theorem execPmbusTransactionEnd_quiet (ack : Bool) (rd : PmbusData) : QuietNext s (execPmbusTransactionEnd ack rd s) := by
  have hf := fun {u} (hu : Keeps Quiet s u) => QuietNext.next (finishReturn_keeps (by decide) hu)
  unfold execPmbusTransactionEnd
  match s.power.bus with
  | [] => exact .same s
  | t :: l =>
    refine .ite (hf (releaseHold_keeps _ (by decide) ?_)) (hf ?_)
    · exact transactionDone_keeps _ _ (by decide) (by decide) (by decide) (by decide)
        (beginTxn_keeps (by decide) (by decide) (.onPower (by decide) (.refl _ _)))
    · exact transactionFailed_keeps _ _ (by decide) (by decide) (by decide) (by decide) (.refl _ _)

theorem execPmbusRetry_quiet : QuietNext s (execPmbusRetry d s) :=
  .next (.ite (fun _ => .refl _ _) fun _ => enqueue_keeps _ (by decide) (by decide) (.onPower (by decide) (.refl _ _)))

theorem execVoltageStepEnd_quiet : QuietNext s (execVoltageStepEnd d s) := by
  have ho := fun f => onRail_keeps (dieNum d) f (by decide) (.refl Quiet s)
  refine .ite (.same s) (.next (.ite (fun _ => enqueue_keeps _ (by decide) (by decide) (ho _)) fun _ => ?_))
  exact finishReturn_keeps (by decide) (resumeReturn_keeps _ (by decide) (by decide) (ho _))

end
/-! ### Access port: the boot and the insertion, whatever holds the by-pass position -/

/-- A boot reads only what a state with its wait already over holds: the three device fields order 2 sets first. -/
theorem bootRead_ended (s : State) :
    bootRead (s.onDev fun d => { d with resetPending := false, evOrd := 0, bootOrder := 2 }) = bootRead s := rfl

/-- A state that differs only in the quiet fields, a canonical memory kept. -/
def QuietMem (s t : State) : Prop := Only Quiet s t ∧ (s.mem.wf = true → t.mem.wf = true)

theorem QuietMem.refl (s : State) : QuietMem s s := ⟨.refl _ _, id⟩

theorem QuietMem.trans {s t u : State} (h : QuietMem s t) (g : QuietMem t u) : QuietMem s u :=
  ⟨h.1.trans g.1, fun hs => g.2 (h.2 hs)⟩

theorem QuietMem.of_keeps {s t : State} (h : Keeps Quiet s t) : QuietMem s t := ⟨h.1, h.2.1⟩

theorem of_ite {α : Type} {P : α → Prop} {c : Prop} [Decidable c] {x y : α} (h : P x) (h' : P y) : P (if c then x else y) := by
  split
  · exact h
  · exact h'

/-- An outcome is such a state. -/
def FrameNext (s : State) (o : Host.Outcome State Fault Refusal) : Prop := ∃ t, o = .next t ∧ QuietMem s t

theorem FrameNext.next {s t : State} (h : QuietMem s t) : FrameNext s (.next t) := ⟨t, rfl, h⟩

/-- The end of the wait of a boot for its start. -/
def bootBegun (s : State) : State := s.onDev fun d => { d with resetPending := false, evOrd := 0, bootOrder := 2 }

theorem bootBegun_quietMem (s : State) : QuietMem s (bootBegun s) := ⟨(s.onDev_frame _).mono (by decide), id⟩

theorem bootBegun_bypass {s : State} (h : BypassHeld (bootBegun s).dev) : (bootBegun s).dev.bypFault = true :=
  h.2.resolve_right Bool.false_ne_true

theorem bootRead_begun (s : State) : Keeps Quiet (bootBegun s) (bootRead s) :=
  bootRead_ended s ▸ bootRead_keeps (by decide) (by decide) (by decide) bootBegun_bypass (.refl Quiet (bootBegun s))

theorem enterHusk_quiet {s t : State} (cause : Nat) (h : Keeps Quiet s t) : Keeps Quiet s (enterHusk cause t) :=
  enterHusk_keeps cause (by decide) (by decide) (by decide) h

theorem execBootStart_frame (o : BootFindings) (s : State) : FrameNext s (execBootStart o s) :=
  of_ite (.next (.refl s)) (.next ((bootBegun_quietMem s).trans (.of_keeps
    (of_ite (enterHusk_quiet 2 (.onNv (by decide) (bootRead_begun s)))
      (of_ite (enterHusk_quiet 6 (bootRead_begun s)) (bootChoose_keeps _ reaching_subset_quiet (bootRead_begun s)))))))

theorem onOk_of {P : State → Prop} {f : Option Session → State → State} {st : Nat} {x : Option Session} {s : State}
    (h : P s) (hf : P (f x s)) : P (onOk f st x s) := of_ite hf h

/-- A served request leaves its session and its answer, and its action, if it acts, comes last. -/
theorem eopRun_last {P : State → Prop} (opc : Nat) (r : EopReq) (judge : Option Session → State → Nat × List Byte)
    {act : Option Session → State → State} {s : State} (hk : ∀ w, Keeps [.eop, .out] s w → P w)
    (ha : ∀ x w, Keeps [.eop, .out] s w → P (act x w)) : P (eopRun opc r judge (onOk act) s) := by
  have hg := eopGate_keeps opc r (by decide) (by decide) (.refl [.eop, .out] s)
  unfold eopRun
  match eopGate opc r s, hg with
  | .drop w, hg => exact hk w hg
  | .open' none w, hg => exact onOk_of (hk _ (sendM_keeps _ (by decide) hg)) (ha none _ (sendM_keeps _ (by decide) hg))
  | .open' (some x) w, hg =>
    exact onOk_of (hk _ (sendM_keeps _ (by decide) (onSession_keeps _ _ (by decide) hg)))
      (ha (some x) _ (sendM_keeps _ (by decide) (onSession_keeps _ _ (by decide) hg)))

theorem QuietMem.of_eop {s t : State} (h : Keeps [.eop, .out] s t) : QuietMem s t := ⟨h.1.mono (by decide), h.2.1⟩

theorem commandInsert_quietMem (s : State) : QuietMem s (commandInsert s) := ⟨(s.onDev_frame _).mono (by decide), id⟩

/-- An insertion moves the by-pass command, and otherwise answers its request. -/
theorem execInsert_frame (s : State) : ∀ req : Option EopReq, FrameNext s (execInsert req s)
  | none => .next (of_ite (commandInsert_quietMem s) (.refl s))
  | some r => .next (of_ite (.refl s) (of_ite (eopRun_last opWrite r _ (fun _ hw => .of_eop hw) fun _ w hw =>
      of_ite (.of_eop hw) ((QuietMem.of_eop hw).trans (commandInsert_quietMem w))) (.refl s)))

/-- What every command answers with: a next state, and of it the frame, a canonical memory, and the IDCODE of the access
port. -/
def HeldNext (s : State) (o : Host.Outcome State Fault Refusal) : Prop := Answers o ∧ ∀ t, o = .next t →
  Only Writable s t ∧ (s.mem.wf = true → t.mem.wf = true) ∧ (s.jtag.idcode = 0x1D04A4B3 → t.jtag.idcode = 0x1D04A4B3)

/-! ### The access port -/

theorem tapShift_idcode {tap : TapInput} {ir : Nat} {reg : List Bool} {f : Jtag → List Bool → Jtag} {s : State}
    (hf : ∀ j l, (f j l).idcode = j.idcode) : (tapShift tap ir reg f s).jtag.idcode = s.jtag.idcode := by
  unfold tapShift
  split
  · split
    · rfl
    · exact hf _ _
  · rfl

/-- A device reset leaves the access port, and the loss of power its IDCODE (01 R47). -/
theorem losePower_idcode (s : State) : (losePower s).jtag.idcode = 0x1D04A4B3 := rfl

theorem countBoot_jtag (s : State) : (countBoot s).jtag = s.jtag := by unfold countBoot; split <;> rfl

theorem recordEvent_jtag (etype uclass uindex status part detail : Nat) (s : State) :
    (recordEvent etype uclass uindex status part detail s).jtag = s.jtag :=
  recordEvent_frame _ _ _ _ _ _ s .jtag (by decide)

/-- A command that reaches neither the access port nor PORST_N. -/
theorem NextKeeps.held {s : State} {o : Host.Outcome State Fault Refusal} (h : NextKeeps s o) (ha : Answers o)
    (hj : ∀ t, o = .next t → s.jtag.idcode = 0x1D04A4B3 → t.jtag.idcode = 0x1D04A4B3) : HeldNext s o := ⟨ha, fun t ho => by
  obtain ⟨hf, hm, -⟩ := h t ho
  exact ⟨hf, hm, hj t ho⟩⟩

theorem tapShift_held {tap : TapInput} {ir : Nat} {reg : List Bool} {f : Jtag → List Bool → Jtag} {s : State}
    (hf : ∀ j l, (f j l).idcode = j.idcode) : HeldNext s (.next (tapShift tap ir reg f s)) :=
  (tapShift_next _ _ _ _ s).held (.next _) fun t ht hs => by
    cases ht
    exact (tapShift_idcode hf).trans hs

/-- The IDCODE is kept. -/
def IdKept (s t : State) : Prop := s.jtag.idcode = 0x1D04A4B3 → t.jtag.idcode = 0x1D04A4B3

theorem IdKept.of_eq {s t : State} (h : t.jtag = s.jtag) : IdKept s t := fun hs => (congrArg Jtag.idcode h).trans hs

/-- An outcome is a next state with the IDCODE it had. -/
def IdNext (s : State) (o : Host.Outcome State Fault Refusal) : Prop := ∃ t, o = .next t ∧ IdKept s t

theorem IdNext.next {s t : State} (h : IdKept s t) : IdNext s (.next t) := ⟨t, rfl, h⟩

theorem IdNext.of_eq {s t : State} (h : t.jtag = s.jtag) : IdNext s (.next t) := .next (.of_eq h)

theorem NextKeeps.heldId {s : State} {o : Host.Outcome State Fault Refusal} (h : NextKeeps s o) (hi : IdNext s o) : HeldNext s o :=
  h.held ⟨hi.choose, hi.choose_spec.1⟩ fun _ ho hs => Host.Outcome.next.inj (ho.symm.trans hi.choose_spec.1) ▸ hi.choose_spec.2 hs

theorem porstNAssert_held (s : State) : HeldNext s (exec .porstNAssert s) :=
  (execPorstNAssert_next s).heldId (.next (of_ite (P := IdKept s) id (of_ite (P := IdKept s) id fun hs => (congrArg Jtag.idcode (countBoot_jtag s)).trans hs)))

theorem porstNRelease_held (s : State) : HeldNext s (exec .porstNRelease s) :=
  (execPorstNRelease_next s).heldId (.next (of_ite (P := IdKept s) id (of_ite (P := IdKept s) id id)))

theorem powerLoss_held (s : State) : HeldNext s (exec .powerLoss s) :=
  (execPowerLoss_next s).heldId (.next (of_ite (P := IdKept s) (fun _ => losePower_idcode s) id))

theorem railEvent_jtag (n : Nat) (s : State) : (deviceReset (countBoot (recordEvent 0x30 8 0 0 15 n s))).jtag = s.jtag :=
  (countBoot_jtag _).trans (recordEvent_jtag _ _ _ _ _ _ _)

theorem railWindowExcursion_held (r : RailName) (s : State) : HeldNext s (exec (.railWindowExcursion r) s) :=
  (execRailWindowExcursion_next s r).heldId (of_ite (.next id) (of_ite (.next fun _ => losePower_idcode s)
    (of_ite (.next id) (.of_eq (railEvent_jtag _ _)))))

theorem FrameNext.held {s : State} {o : Host.Outcome State Fault Refusal} (h : FrameNext s o) : HeldNext s o := by
  obtain ⟨u, rfl, hf, hm⟩ := h
  refine ⟨.next u, fun t ht => ?_⟩
  cases ht
  exact ⟨hf.mono quiet_subset_writable, hm, fun hs => (congrArg Jtag.idcode (hf .jtag (by decide))).trans hs⟩

/-- A command that reaches neither the access port nor PORST_N. -/
theorem QuietNext.held {s : State} {o : Host.Outcome State Fault Refusal} (h : QuietNext s o) : HeldNext s o :=
  FrameNext.held (h.elim fun t h => ⟨t, h.1, .of_keeps h.2⟩)

/-- Every command answers, and keeps the queue and the fuses, a canonical memory and the IDCODE. -/
theorem exec_held (c : Instr) (s : State) : HeldNext s (exec c s) := by
  cases c with
  | porstNAssert => exact porstNAssert_held s
  | porstNRelease => exact porstNRelease_held s
  | powerLoss => exact powerLoss_held s
  | railWindowExcursion r => exact railWindowExcursion_held r s
  | jtagBypass tap | jtagIdcode tap | jtagSamplePreload tap | jtagExtest tap => exact tapShift_held fun _ _ => rfl
  | bootStart o => exact (execBootStart_frame o s).held
  | insert r => exact (execInsert_frame s r).held
  | deviceReady => exact (execDeviceReady_quiet s).held
  | bootTimeout order => exact (execBootTimeout_quiet s order).held
  | readyHourExpiry => exact (execReadyHourExpiry_quiet s).held
  | railRecovered r => exact (execRailRecovered_quiet s r).held
  | refclkLoss => exact (execRefclkLoss_quiet s).held
  | refclkRestored => exact (execRefclkRestored_quiet s).held
  | thermalTrip => exact (execThermalTrip_quiet s).held
  | bypassCheckTimeout e w => exact (execBypassCheckTimeout_quiet s e w).held
  | ageingGuardStep c => exact (execAgeingGuardStep_quiet s c).held
  | slotBegin c held late upset => exact (execSlotBegin_quiet c s held late upset).held
  | mmul c => exact (execMmul_quiet c s).held
  | hpreload c => exact (execHpreload_quiet c s).held
  | vkern c => exact (execVkern_quiet c s).held
  | veJoinRow c => exact (execVeJoinRow_quiet c s).held
  | quant c => exact (execQuant_quiet c s).held
  | update c => exact (execUpdate_quiet c s).held
  | requant c => exact (execRequant_quiet c s).held
  | rbits c => exact (execRbits_quiet c s).held
  | copy c fails => exact (execCopy_quiet c s fails).held
  | gather c fails => exact (execGather_quiet c s fails).held
  | scatter c fails => exact (execScatter_quiet c s fails).held
  | dmAdd c fails => exact (execDmAdd_quiet c s fails).held
  | orderedAddApply c seqNo fails => exact (execOrderedAddApply_quiet c s seqNo fails).held
  | mxImport c fails => exact (execMxImport_quiet c s fails).held
  | mxExport c fails => exact (execMxExport_quiet c s fails).held
  | fill c fails => exact (execFill_quiet c s fails).held
  | rsend c => exact (execRsend_quiet c s).held
  | rpost c => exact (execRpost_quiet c s).held
  | coll c => exact (execColl_quiet c s).held
  | barrier c => exact (execBarrier_quiet c s).held
  | commandCompletion c q seqNo => exact (execCommandCompletion_quiet c s q seqNo).held
  | squashResume c => exact (execSquashResume_quiet c s).held
  | dupCompare c upset => exact (execDupCompare_quiet c s upset).held
  | add c | sub c | and c | or c | xor c | sll c | srl c | sra c | mul c | sltu c | slt c | minu c | maxu c
  | addi c | andi c | ori c | xori c | slli c | srli c | srai c | movk c | prd c | beq c | bne c | bltu c
  | bgeu c | blt c | bge c | jal c | jr c | cldt c | cins c | gate c => exact (coreStep_quiet _ _ _ s).held
  | halt c | mark c => exact (commitOp_quiet _ _ _ s).held
  | push c => exact (execPush_quiet c s).held
  | chkp c => exact (execChkp_quiet c s).held
  | illegalInstruction c => exact (execIllegalInstruction_quiet c s).held
  | partitionCommitPoint p => exact (execPartitionCommitPoint_quiet s p).held
  | contextSave p => exact (execContextSave_quiet s p).held
  | replayStart req => exact (execReplayStart_quiet s req).held
  | replayEnd p => exact (execReplayEnd_quiet s p).held
  | moduleLoad req => exact (execModuleLoad_quiet s req).held
  | moduleLoadEnd p => exact (execModuleLoadEnd_quiet s p).held
  | restore req => exact (execRestore_quiet s req).held
  | restoreEnd p => exact (execRestoreEnd_quiet s p).held
  | stepReplay req => exact (execStepReplay_quiet s req).held
  | seedWrite req => exact (execSeedWrite_quiet req s).held
  | scrubGranule st => exact (execScrubGranule_quiet st s).held
  | cellStoreScrub c => exact (execCellStoreScrub_quiet c s).held
  | refreshWindow st ch => exact (execRefreshWindow_quiet st ch s).held
  | retrainRequest st ch => exact (execRetrainRequest_quiet st ch s).held
  | retrainEnd st ch => exact (execRetrainEnd_quiet st ch s).held
  | retrainTimeout st ch => exact (execRetrainTimeout_quiet st ch s).held
  | retrainLockoutExpiry st ch => exact (execRetrainLockoutExpiry_quiet st ch s).held
  | flipMaskWrite req => exact (execFlipMaskWrite_quiet req s).held
  | logClear req => exact (execLogClear_quiet req s).held
  | laneFailure port lane => exact (execLaneFailure_quiet port s lane).held
  | portTrainingEnd port lanes => exact (execPortTrainingEnd_quiet port s lanes).held
  | portRestartRetry port => exact (execPortRestartRetry_quiet port s).held
  | portRestart req => exact (execPortRestart_quiet req s).held
  | remove req => exact (execRemove_quiet req s).held
  | removeComplete => exact (execRemoveComplete_quiet s).held
  | groupListWrite req => exact (execGroupListWrite_quiet s req).held
  | data port f => exact (execData_quiet port f s).held
  | credit port f => exact (execCredit_quiet port f s).held
  | lack port f => exact (execLack_quiet port f s).held
  | sack port f => exact (execSack_quiet port f s).held
  | cseg port f => exact (execCseg_quiet port f s).held
  | cctlReady port f | cctlAbortReq port f | cctlCommit port f | cctlAbort port f => exact (onControl_quiet _ _ _ s).held
  | collectiveTimeout p w => exact (execCollectiveTimeout_quiet p s w).held
  | probe port f => exact (execProbe_quiet port f s).held
  | probeReply port f => exact (execProbeReply_quiet port f s).held
  | leave port f => exact (execLeave_quiet port f s).held
  | probeTimer port => exact (execProbeTimer_quiet port s).held
  | hopTimeout port => exact (execHopTimeout_quiet port s).held
  | lackTimer port => exact (execLackTimer_quiet port s).held
  | lackTimeout port => exact (execLackTimeout_quiet port s).held
  | creditTimer port => exact (execCreditTimer_quiet port s).held
  | sackTimer xfer => exact (execSackTimer_quiet s xfer).held
  | pathTimeout xid lapsed => exact (execPathTimeout_quiet s xid lapsed).held
  | pfcFrame port enable pause => exact (execPfcFrame_quiet port s enable pause).held
  | desc port f => exact (execDesc_quiet port f s).held
  | done port f => exact (execDone_quiet port f s).held
  | barrierFrame port f => exact (execBarrierFrame_quiet port f s).held
  | recv eng p => exact (execRecv_quiet p s eng).held
  | send eng p => exact (execSend_quiet p s eng).held
  | put p => exact (execPut_quiet p s).held
  | cuppingDigest port f => exact (execCuppingDigest_quiet s port f).held
  | cuppingEnd port f => exact (execCuppingEnd_quiet s port f).held
  | cuppingResend p => exact (execCuppingResend_quiet s p).held
  | cuppingPeerTimeout p => exact (execCuppingPeerTimeout_quiet s p).held
  | cuppingConfigWrite req => exact (execCuppingConfigWrite_quiet s req).held
  | read req => exact (execRead_quiet req s).held
  | write req => exact (execWrite_quiet req s).held
  | segRead req => exact (execSegRead_quiet req s).held
  | segWrite req => exact (execSegWrite_quiet req s).held
  | sessionOpen req => exact (execSessionOpen_quiet req s).held
  | sessionProve req => exact (execSessionProve_quiet req s).held
  | sessionClose req => exact (execSessionClose_quiet req s).held
  | notifyAck req => exact (execNotifyAck_quiet req s).held
  | attest req => exact (execAttest_quiet req s).held
  | attestSignEnd => exact (execAttestSignEnd_quiet s).held
  | sessionProveTimeout num => exact (execSessionProveTimeout_quiet num s).held
  | sessionIdleTimeout num => exact (execSessionIdleTimeout_quiet num s).held
  | proofLockoutExpiry p => exact (execProofLockoutExpiry_quiet s p).held
  | sessionNumberQuarantineEnd num => exact (execSessionNumberQuarantineEnd_quiet num s).held
  | snapshotTimeout num => exact (execSnapshotTimeout_quiet num s).held
  | segWriteTimeout num => exact (execSegWriteTimeout_quiet num s).held
  | notifyRetransmit num seqNo => exact (execNotifyRetransmit_quiet num s seqNo).held
  | portMAddressChange => exact (execPortMAddressChange_quiet s).held
  | keyWrite req => exact (execKeyWrite_quiet req s).held
  | partitionDefinitionWrite req => exact (execPartitionDefinitionWrite_quiet req s).held
  | partitionReset cause => exact (execPartitionReset_quiet s cause).held
  | partitionResetEnd p => exact (execPartitionResetEnd_quiet s p).held
  | counterClear req => exact (execCounterClear_quiet req s).held
  | firmwareVerifyEnd slot => exact (execFirmwareVerifyEnd_quiet s slot).held
  | cellProof req => exact (execCellProof_quiet req s).held
  | cellProofEnd failed => exact (execCellProofEnd_quiet s failed).held
  | channelTest req => exact (execChannelTest_quiet req s).held
  | channelTestEnd bad => exact (execChannelTestEnd_quiet s bad).held
  | capWrite req => exact (execCapWrite_quiet s req).held
  | capStep pl pm pf pc => exact (execCapStep_quiet s pl pm pf pc).held
  | droopTrip d det => exact (execDroopTrip_quiet d s det).held
  | droopClampRelease d => exact (execDroopClampRelease_quiet d s).held
  | vrAlertAssert => exact (execVrAlertAssert_quiet s).held
  | vrAlertRelease => exact (execVrAlertRelease_quiet s).held
  | pmbusTransactionEnd ack rd => exact (execPmbusTransactionEnd_quiet s ack rd).held
  | pmbusRetry d => exact (execPmbusRetry_quiet d s).held
  | voltageStepEnd d => exact (execVoltageStepEnd_quiet d s).held
  | powerUp => exact (execPowerUp_quiet s).held
  | bypassPositionSensed e w => exact (execBypassPositionSensed_quiet s e w).held
  | contextSaveRequest req => exact (execContextSaveRequest_quiet s req).held
  | contextSaveEnd p => exact (execContextSaveEnd_quiet s p).held
  | stepReplayHashEnd p => exact (execStepReplayHashEnd_quiet s p).held

end Sys2Proof.Machine

namespace Sys2Proof.Proofs

open Machine

/-- Settles O2: each command by what it answers with. -/
theorem everyCommandAnswersNext : Obligations.EveryCommandAnswersNext := fun c s => (exec_held c s).1

/-- Settles O3: the queue and the fuses by the frame of every command, the IDCODE by what leaves the access port. -/
theorem commandsKeepFusesAndQueue : Obligations.CommandsKeepFusesAndQueue := by
  unfold Obligations.CommandsKeepFusesAndQueue
  intro c s t h
  obtain ⟨hf, -, hid⟩ := (exec_held c s).2 t h
  exact ⟨hf .fuse (by decide), hf .pending (by decide), hid⟩

/-- Settles O4: a command by what it keeps; the tick of an empty queue writes no memory. -/
theorem stepKeepsMemoryCanonical : Obligations.StepKeepsMemoryCanonical := by
  unfold Obligations.StepKeepsMemoryCanonical State.wf
  intro s t hs h
  match hp : s.pending with
  | [] =>
    rw [step_of_empty hp] at h
    cases h
    rw [idleTick_frame s .mem (by decide)]
    exact hs
  | c :: rest =>
    unfold step at h
    rw [hp] at h
    exact ((exec_held c _).2 t h).2.1 hs

end Sys2Proof.Proofs
end

section
/-! SUPPORT. The device reset and its causes, the pins, the access port and the boot: what each leaves. -/

set_option Elab.async false

namespace Sys2Proof.Machine

open Claims

/-! ### Commands that test a condition -/

theorem next_ite_of_pos {c : Prop} [Decidable c] {x y : State} (h : c) :
    (.next (if c then x else y) : Host.Outcome State Fault Refusal) = .next x := by rw [if_pos h]

theorem next_ite_of_neg {c : Prop} [Decidable c] {x y : State} (h : ¬ c) :
    (.next (if c then x else y) : Host.Outcome State Fault Refusal) = .next y := by rw [if_neg h]

/-! ### Events -/

/-- Of the NV die an event changes the history and the unit summaries only. -/
theorem recordEvent_nv (etype uclass uindex status part detail : Nat) (s : State) :
    (recordEvent etype uclass uindex status part detail s).nv = { s.nv with
      events := (recordEvent etype uclass uindex status part detail s).nv.events
      fhNext := (recordEvent etype uclass uindex status part detail s).nv.fhNext
      units := (recordEvent etype uclass uindex status part detail s).nv.units } := by
  unfold recordEvent
  dsimp only
  split
  · unfold countEvent
    rw [State.onUnit_nv]
  · rfl

theorem countBoot_nv (s : State) : (countBoot s).nv = { s.nv with noReady := (countBoot s).nv.noReady } := by
  unfold countBoot
  split <;> rfl

theorem countBoot_frame (s : State) : Only [.nv] s (countBoot s) := (countBoot_keeps (by decide) (.refl _ s)).1

theorem countBoot_dev (s : State) : (countBoot s).dev = s.dev := countBoot_frame s .dev (by decide)

/-! ### The device reset -/

/-- What a device reset reads of a state, but for the device's own registers. -/
def SameForReset (s u : State) : Prop :=
  u.fuse = s.fuse ∧ u.pending = s.pending ∧ u.parts = s.parts ∧ u.mem = s.mem ∧ u.nv.keys = s.nv.keys ∧
    u.nv.slots = s.nv.slots ∧ u.nv.bootCount = s.nv.bootCount ∧ u.nv.idRing = s.nv.idRing

theorem SameForReset.refl (s : State) : SameForReset s s := ⟨rfl, rfl, rfl, rfl, rfl, rfl, rfl, rfl⟩

theorem SameForReset.trans {s t u : State} (h : SameForReset s t) (h' : SameForReset t u) : SameForReset s u := by
  obtain ⟨a, b, c, d, e, f, g, i⟩ := h
  obtain ⟨a', b', c', d', e', f', g', i'⟩ := h'
  exact ⟨a'.trans a, b'.trans b, c'.trans c, d'.trans d, e'.trans e, f'.trans f, g'.trans g, i'.trans i⟩

theorem SameForReset.countBoot (s : State) : SameForReset s (countBoot s) := by
  have h := countBoot_frame s
  exact ⟨h .fuse (by decide), h .pending (by decide), h .parts (by decide), h .mem (by decide),
    by rw [countBoot_nv], by rw [countBoot_nv], by rw [countBoot_nv], by rw [countBoot_nv]⟩

theorem SameForReset.recordEvent (etype uclass uindex status part detail : Nat) (s : State) :
    SameForReset s (recordEvent etype uclass uindex status part detail s) := by
  have h := recordEvent_frame etype uclass uindex status part detail s
  exact ⟨h .fuse (by decide), h .pending (by decide), h .parts (by decide), h .mem (by decide),
    by rw [recordEvent_nv], by rw [recordEvent_nv], by rw [recordEvent_nv], by rw [recordEvent_nv]⟩

theorem SameForReset.onDev (s : State) (f : Dev → Dev) : SameForReset s (s.onDev f) := SameForReset.refl s

theorem vget_ofFn {α : Type} {n : Nat} (f : Fin n → α) (i : Nat) (d : α) :
    vget (Vector.ofFn f) i d = if h : i < n then f ⟨i, h⟩ else d := by
  unfold vget
  split <;> simp

theorem settledKeys_get (s : State) (p : Nat) :
    vget (settledKeys s) p 0 = if p ≠ 0 ∧ p < 8 ∧ (s.part p).nextDef = some 0 then 0 else vget s.nv.keys p 0 := by
  unfold settledKeys
  rw [vget_ofFn]
  by_cases hp : p < 8
  · simp [hp]
  · simp [hp, vget]

/-- A device reset, said of an earlier state that agrees with the one it ran on. -/
theorem deviceReset_resetFrom {s u : State} (h : SameForReset s u) : ResetFrom s (deviceReset u) := by
  obtain ⟨hfuse, hpend, hparts, hmem, hkeys, hslots, hboot, hring⟩ := h
  refine ⟨hfuse, hpend, fun p => ?_, hslots, hboot, hring, rfl, rfl, rfl, rfl, rfl, rfl, rfl, rfl, rfl, rfl, rfl, rfl, rfl,
    rfl, fun a ha => ?_, fun a ha => ?_⟩
  · rw [State.part, ← hparts, ← hkeys]
    exact settledKeys_get u p
  · exact (Memory.read1_dropCells u.mem a).trans (if_neg (by omega))
  · rw [← hmem]
    exact (Memory.read1_dropCells u.mem a).trans (if_pos ha)

/-- The reset of an event: the event stands in the history. -/
theorem deviceReset_recordEvent_outcome {etype uclass uindex status part detail : Nat} {s u : State}
    (h : SameForReset s u) (he : u.nv.fhNext = s.nv.fhNext) (ht : etype < 128) :
    ResetFrom s (deviceReset (countBoot (recordEvent etype uclass uindex status part detail u))) ∧
      eventWritten etype s (deviceReset (countBoot (recordEvent etype uclass uindex status part detail u))) := by
  refine ⟨deviceReset_resetFrom (h.trans ((SameForReset.recordEvent _ _ _ _ _ _ u).trans (SameForReset.countBoot _))), ?_⟩
  have hev : (deviceReset (countBoot (recordEvent etype uclass uindex status part detail u))).nv.events =
      (recordEvent etype uclass uindex status part detail u).nv.events := by
    change (countBoot _).nv.events = _
    rw [countBoot_nv]
  rw [eventWritten, hev, ← he, recordEvent_type, Nat.mod_eq_of_lt ht]

theorem flag_or_bit (b : BitVec 8) (n : Nat) (hn : n < 8) : flag (b ||| (1 : BitVec 8) <<< n) n = true := by
  have h : (1 : BitVec 8).getLsbD 0 = true := by decide
  have hn' : 1 <<< n % 256 = 1 <<< n := Nat.mod_eq_of_lt (by
    rw [Nat.one_shiftLeft]; exact Nat.pow_lt_pow_right (by decide) hn)
  simp [flag, Nat.testBit_or, Nat.testBit_shiftLeft, hn']

theorem railNumber_lt (r : RailName) : railNumber r < 8 := by cases r <;> decide

theorem railNumber_ne_seven {r : RailName} (h : r ≠ .nv) : railNumber r ≠ 7 := by
  cases r <;> first | decide | exact absurd rfl h

theorem outOfReset_iff (s : State) :
    outOfReset s = true ↔ s.dev.powered = true ∧ s.dev.porstN = true ∧ s.dev.thermLatched = false := by
  simp [outOfReset, and_assoc]

theorem exec_porstNAssert {s : State} (h : outOfReset s = true) :
    exec .porstNAssert s = .next (deviceReset (setPorst false (countBoot s))) := by
  obtain ⟨hp, hn, ht⟩ := (outOfReset_iff s).1 h
  change execPorstNAssert s = _
  simp [execPorstNAssert, hp, hn, ht]

theorem exec_railWindowExcursion {r : RailName} {s : State} (hr : r ≠ .nv) (h : outOfReset s = true)
    (ha : flag s.dev.actedRails (railNumber r) = false) :
    exec (.railWindowExcursion r) s = .next (deviceReset (countBoot (recordEvent 0x30 8 0 0 15 (railNumber r)
      ((s.onDev fun d => { d with railBad := d.railBad ||| (1 : BitVec 8) <<< railNumber r }).onDev fun d =>
        { d with actedRails := d.actedRails ||| (1 : BitVec 8) <<< railNumber r })))) := by
  have hp := ((outOfReset_iff s).1 h).1
  change execRailWindowExcursion r s = _
  unfold execRailWindowExcursion
  dsimp only
  rw [if_neg (by simp [hp]), if_neg (railNumber_ne_seven hr)]
  refine if_neg (c := outOfReset s = false ∨ flag s.dev.actedRails (railNumber r) = true) ?_
  simp [h, ha]

theorem exec_refclkLoss {s : State} (h : outOfReset s = true) (ha : s.dev.actedRef = false) :
    exec .refclkLoss s = .next (deviceReset (countBoot (recordEvent 0x31 8 0 0 15 0
      ((s.onDev fun d => { d with refclkOk := false }).onDev fun d => { d with actedRef := true })))) := by
  change execRefclkLoss s = _
  unfold execRefclkLoss
  refine congrArg _ (if_neg (c := outOfReset s = false ∨ s.dev.actedRef = true) ?_)
  simp [h, ha]

theorem deviceReset_dev (s : State) : (deviceReset s).dev = { Dev.reset with
    powered := s.dev.powered, railBad := s.dev.railBad, actedRails := s.dev.actedRails, actedRef := s.dev.actedRef,
    porstN := s.dev.porstN, refclkOk := s.dev.refclkOk, vrAlertN := s.dev.vrAlertN, thermLatched := s.dev.thermLatched,
    tripToRecord := s.dev.tripToRecord, interval := s.dev.interval, evOrd := s.dev.evOrd } := rfl

/-- The loss of power stops the device; the fuses, the queue and the NV die's lasting records remain (01 R35). -/
theorem losePower_outcome (s : State) :
    (losePower s).dev.powered = false ∧ (losePower s).dev.porstN = false ∧ (losePower s).dev.thermLatched = false ∧
      (losePower s).fuse = s.fuse ∧ (losePower s).pending = s.pending ∧ KeysSettled s (losePower s) ∧
      (losePower s).nv.slots = s.nv.slots ∧ (losePower s).nv.bootCount = s.nv.bootCount ∧
      (losePower s).nv.rollbackMin = s.nv.rollbackMin ∧ (losePower s).dev.minPending = none ∧
      (∀ a, (losePower s).mem.read1 a = 0) ∧ (losePower s).jtag = Jtag.reset ∧
      (losePower s).cells = Vector.replicate 34 Cell.reset ∧ (losePower s).eop.sessions = [] := by
  let u := s.onDev fun d => { d with minPending := none }
  obtain ⟨hfuse, hpend, hkeys, hslots, hboot, -⟩ := deviceReset_resetFrom
    ((SameForReset.onDev s fun d => { d with minPending := none }).trans (SameForReset.countBoot u))
  have hmin : (countBoot u).dev.minPending.getD (countBoot u).nv.rollbackMin = s.nv.rollbackMin := by
    rw [countBoot_dev, countBoot_nv]
    rfl
  exact ⟨rfl, rfl, rfl, hfuse, hpend, hkeys, hslots, hboot, hmin, rfl, fun a => Memory.read1_reset a, rfl, rfl, rfl⟩

end Sys2Proof.Machine

namespace Sys2Proof.Proofs

open Machine Claims

/-- Settles O6: each cause by the state its device reset runs on, and the loss of power by what it keeps. -/
theorem resetCausesAndPowerLoss : Obligations.ResetCausesAndPowerLoss := by
  unfold Obligations.ResetCausesAndPowerLoss
  refine ⟨fun s => ⟨fun ho => ?_, fun r hr ho ha => ?_, fun ha ho => ?_, fun hp ht => ?_, fun order ho hb hd => ?_⟩,
    fun s hp c hc => ?_⟩
  · exact ⟨_, exec_porstNAssert ho, deviceReset_resetFrom (SameForReset.countBoot s), rfl⟩
  · obtain ⟨hreset, hevent⟩ := deviceReset_recordEvent_outcome (etype := 0x30) (uclass := 8) (uindex := 0) (status := 0)
      (part := 15) (detail := railNumber r) ((SameForReset.onDev s _).trans (SameForReset.onDev _ _)) rfl (by decide)
    refine ⟨_, exec_railWindowExcursion hr ho ha, hreset, hevent, ?_⟩
    rw [deviceReset_dev]
    dsimp only
    rw [countBoot_dev, recordEvent_dev]
    exact flag_or_bit _ _ (railNumber_lt r)
  · obtain ⟨hreset, hevent⟩ := deviceReset_recordEvent_outcome (etype := 0x31) (uclass := 8) (uindex := 0) (status := 0)
      (part := 15) (detail := 0) ((SameForReset.onDev s _).trans (SameForReset.onDev _ _)) rfl (by decide)
    refine ⟨_, exec_refclkLoss ho ha, hreset, hevent, ?_⟩
    rw [deviceReset_dev]
    dsimp only
    rw [countBoot_dev, recordEvent_dev]
    rfl
  · refine ⟨_, next_ite_of_pos ⟨hp, ht⟩, ?_, rfl, rfl⟩
    exact deviceReset_resetFrom ((SameForReset.countBoot s).trans (SameForReset.onDev _ _))
  · exact ⟨_, next_ite_of_pos ⟨ho, hb, hd⟩,
      deviceReset_recordEvent_outcome (SameForReset.refl s) rfl (by decide)⟩
  · refine ⟨losePower s, ?_, losePower_outcome s⟩
    rcases hc with rfl | rfl
    · exact next_ite_of_pos hp
    · exact (if_neg (by simp [hp])).trans (if_pos rfl)

end Sys2Proof.Proofs
end

section
/-! SUPPORT. Pins restored and sensed, the access port, and the boot. -/

set_option Elab.async false

namespace Sys2Proof.Machine

open Claims

theorem next_congr {x y : State} (h : x = y) : (.next x : Host.Outcome State Fault Refusal) = .next y := by rw [h]

/-! ### Frames of the updates -/

theorem State.onNv_frame (s : State) (f : Nv → Nv) : Only [.nv] s (s.onNv f) :=
  (Keeps.onNv (by decide) (.refl [.nv] s)).1

theorem State.onPort_frame (s : State) (n : Nat) (f : Port → Port) : Only [.ports] s (s.onPort n f) :=
  (Keeps.onPort (by decide) (.refl [.ports] s)).1

theorem jtag_frame (s : State) (j : Jtag) : Only [.jtag] s { s with jtag := j } :=
  (Keeps.set_jtag (by decide) (.refl [.jtag] s)).1

/-! ### Pins -/

theorem flag_and_not_bit (b : BitVec 8) (m n : Nat) (hn : n < 8) (hm : m < 8) :
    flag (b &&& ~~~((1 : BitVec 8) <<< m)) n = (flag b n && decide (n ≠ m)) := by
  have hbit : ((1 : BitVec 8) <<< m).getLsbD n = decide (n = m) := by
    rw [show (1 : BitVec 8) <<< m = BitVec.twoPow 8 m from (BitVec.twoPow_eq 8 m).symm, BitVec.getLsbD_twoPow, decide_eq_true hm,
      Bool.true_and]
    exact decide_eq_decide.2 eq_comm
  change (b &&& ~~~((1 : BitVec 8) <<< m)).getLsbD n = (b.getLsbD n && decide (n ≠ m))
  rw [BitVec.getLsbD_and, BitVec.getLsbD_not, hbit, decide_eq_true hn, Bool.true_and, decide_not]

/-- An ageing guard counts up to 16 (02 R59). -/
theorem guard_step_toNat (g : BitVec 8) (h : g.toNat < 16) : (g + 1).toNat = g.toNat + 1 :=
  (BitVec.toNat_add g 1).trans (Nat.mod_eq_of_lt (Nat.lt_of_le_of_lt h (by decide)))

/-! ### A port that restarts -/

theorem retireLanes_nv_ports (port : Nat) (s : State) : (retireLanes port s).ports = s.ports :=
  forEach_induction (P := fun u => u.ports = s.ports) (fun _ u h => (State.onUnit_ports u _ _ _).trans h) rfl _

theorem restartPort_port (n m : Nat) (hn : n < 2) (s : State) :
    ((restartPort n s).port m).st = if m = n then 1 else (s.port m).st := by
  unfold restartPort
  dsimp only
  rw [setPortState_st _ _ _ _ hn]
  split
  · rfl
  · rw [State.port_onPort_ne _ _ _ _ ‹_›, State.port, retireLanes_nv_ports, State.port]

theorem setPortState_port_ne {n m : Nat} (v : BitVec 8) (s : State) (h : m ≠ n) :
    (setPortState n v s).port m = s.port m := by
  unfold setPortState
  split
  · rfl
  · rw [notify_port, State.port_onPort_ne _ _ _ _ h]

theorem restartPort_port_ne {n m : Nat} (s : State) (h : m ≠ n) : (restartPort n s).port m = s.port m := by
  unfold restartPort
  dsimp only
  rw [setPortState_port_ne _ _ h, State.port_onPort_ne _ _ _ _ h, State.port, retireLanes_nv_ports, State.port]

theorem restartPort_frame (n : Nat) (s : State) : Only [.nv, .ports, .parts, .eop, .out] s (restartPort n s) :=
  (restartPort_keeps n (by decide) (by decide) (by decide) (by decide) (by decide) (.refl _ s)).1

/-- A port that is not up starts training (10 R307). -/
def trainIfDown (n : Nat) (s : State) : State := if (s.port n).up then s else restartPort n s

theorem trainIfDown_frame (n : Nat) (s : State) : Only [.nv, .ports, .parts, .eop, .out] s (trainIfDown n s) := by
  unfold trainIfDown
  split
  · exact .refl _ _
  · exact restartPort_frame n s

theorem trainIfDown_port_ne {n m : Nat} (s : State) (h : m ≠ n) : (trainIfDown n s).port m = s.port m := by
  unfold trainIfDown
  split
  · rfl
  · exact restartPort_port_ne s h

theorem trainIfDown_of_up {n : Nat} {s : State} (h : (s.port n).up = true) : trainIfDown n s = s := if_pos h

theorem trainIfDown_of_down {n : Nat} {s : State} (hn : n < 2) (h : (s.port n).up = false) :
    ((trainIfDown n s).port n).st = 1 := by
  rw [trainIfDown, if_neg (by simp [h]), restartPort_port _ _ hn, if_pos rfl]

theorem exec_bypassPositionSensed_commanded {s : State} (hp : s.dev.powered = true) (hn : s.dev.porstN = true)
    (hc : s.dev.bypCmd = true) : exec (.bypassPositionSensed true true) s =
      .next (trainIfDown 1 (trainIfDown 0 (senseSwitches true true s))) := by
  change execBypassPositionSensed true true s = _
  rw [execBypassPositionSensed, if_neg (by simp [hp, hn])]
  exact next_ite_of_pos ⟨hc, rfl, rfl⟩

/-! ### The access port -/

theorem tapShift_of_reset {tap : TapInput} {ir : Nat} {reg : List Bool} {f : Jtag → List Bool → Jtag} {s : State}
    (hw : tapWorks s = true) (ht : tap.trst = false) :
    tapShift tap ir reg f s = { s with jtag := { s.jtag with trstN := false, ir := 0x02, drive := none, tdo := [] } } := by
  rw [tapShift, if_pos hw, if_pos ht]
  rfl

theorem tapShift_of_run {tap : TapInput} {ir : Nat} {reg : List Bool} {f : Jtag → List Bool → Jtag} {s : State}
    (hw : tapWorks s = true) (ht : tap.trst = true) :
    tapShift tap ir reg f s = { s with jtag := f { s.jtag with
      trstN := true, ir := BitVec.ofNat 8 ir, tdo := shiftOut reg tap.tdi } (shiftIn reg tap.tdi) } := by
  rw [tapShift, if_pos hw, if_neg (by simp [ht])]

/-- A register of as many bits as are shifted comes out whole. -/
theorem shiftOut_of_length {reg tdi : List Bool} (h : tdi.length = reg.length) : shiftOut reg tdi = reg := by
  rw [shiftOut, h, List.take_left]

theorem shiftIn_of_length {reg tdi : List Bool} (h : tdi.length = reg.length) : shiftIn reg tdi = tdi := by
  rw [shiftIn, h, List.drop_left]

theorem wordBits_length (w : BitVec 32) : (wordBits w).length = 32 := by simp [wordBits]

/-! ### Husk mode and readiness -/

theorem exec_bootStart {o : BootFindings} {s : State} (ho : outOfReset s = true) (hr : s.dev.refclkOk = true)
    (hb : s.dev.railBad = 0) (hp : s.dev.resetPending = true) : exec (.bootStart o) s =
      .next (if (bootRead s).nv.stwResets.toNat ≥ 2 then enterHusk 2 ((bootRead s).onNv fun n => { n with stwResets := 1 })
        else if (bootRead s).nv.noReady.toNat ≥ 3 then enterHusk 6 (bootRead s) else bootChoose o (bootRead s)) := by
  change execBootStart o s = _
  rw [execBootStart, if_neg (by simp [ho, hr, hb, hp])]

/-- Order 2 up to the record of a thermal trip (12 R342). -/
def bootCounted (s : State) : State :=
  let s := (s.onDev fun d => { d with resetPending := false, evOrd := 0, bootOrder := 2 }).onNv
    fun n => { n with bootCount := n.bootCount + 1 }
  let s := match latestIdRec s.nv.idRing with
    | none => s.onAtt fun a => { a with usable := false }
    | some (i, r) =>
      (s.onAtt fun a => { a with q := r.lim, lim := r.lim, topSig := r.topSig, usable := true }).onNv
        fun n => { n with idPos := (i + 1) % 32 }
  measured (Vector.replicate 4 0) s

theorem bootRead_eq (s : State) : bootRead s = if (bootCounted s).dev.tripToRecord
    then recordEvent 0x32 8 0 0 15 0 ((bootCounted s).onDev fun d => { d with tripToRecord := false })
    else bootCounted s := rfl

theorem bootCounted_nv (s : State) : (bootCounted s).nv = { s.nv with
    bootCount := s.nv.bootCount + 1, idPos := (bootCounted s).nv.idPos } := by
  unfold bootCounted
  dsimp only
  split <;> rfl

theorem bootCounted_dev (s : State) : (bootCounted s).dev = { s.dev with
    resetPending := false, evOrd := 0, bootOrder := 2, meas := (bootCounted s).dev.meas,
    chain := (bootCounted s).dev.chain } := by
  unfold bootCounted
  dsimp only
  split <;> rfl

theorem bootRead_of_no_trip {s : State} (h : s.dev.tripToRecord = false) : bootRead s = bootCounted s := by
  rw [bootRead_eq, bootCounted_dev, h]
  rfl

theorem bootCounted_frame (s : State) : Only [.dev, .nv, .att] s (bootCounted s) := by
  unfold bootCounted
  dsimp only
  intro f hf
  split <;> cases f
  all_goals first | rfl | exact absurd (by decide) hf

theorem enterHusk_nv (cause : Nat) (s : State) : (enterHusk cause s).nv = { s.nv with
    events := (enterHusk cause s).nv.events, fhNext := (enterHusk cause s).nv.fhNext, units := (enterHusk cause s).nv.units } :=
  recordEvent_nv _ _ _ _ _ _ _

theorem enterHusk_dev (cause : Nat) (s : State) : (enterHusk cause s).dev =
    { s.dev with devState := 2, huskCause := BitVec.ofNat 8 cause, evOrd := s.dev.evOrd + 1 } :=
  recordEvent_dev _ _ _ _ _ _ _

theorem enterHusk_eop (cause : Nat) (s : State) : (enterHusk cause s).eop.cfg = s.nv.portM :=
  congrArg Eop.cfg (recordEvent_frame _ _ _ _ _ _ _ .eop (by decide))

theorem enterHusk_event (cause : Nat) (s : State) : eventWritten 0x40 s (enterHusk cause s) :=
  recordEvent_type _ _ _ _ _ _ (startPortM (s.onDev fun d => { d with devState := 2, huskCause := BitVec.ofNat 8 cause }))

theorem enterHusk_frame (cause : Nat) (s : State) : Only [.dev, .nv, .eop] s (enterHusk cause s) :=
  (enterHusk_keeps cause (by decide) (by decide) (by decide) (.refl _ s)).1

/-! ### A boot that runs to order 11 -/

theorem recordEvent_units_of_uncounted {etype : Nat} (h : eventCounted etype = false) (uclass uindex status part detail : Nat)
    (s : State) : (recordEvent etype uclass uindex status part detail s).nv.units = s.nv.units := by
  unfold recordEvent
  dsimp only
  rw [h]
  rfl

theorem recordEvent_nv_of_uncounted {etype : Nat} (h : eventCounted etype = false) (uclass uindex status part detail : Nat)
    (s : State) : (recordEvent etype uclass uindex status part detail s).nv = { s.nv with
      events := (recordEvent etype uclass uindex status part detail s).nv.events,
      fhNext := (recordEvent etype uclass uindex status part detail s).nv.fhNext } :=
  (recordEvent_nv _ _ _ _ _ _ _).trans (congrArg (fun u => { s.nv with
    events := (recordEvent etype uclass uindex status part detail s).nv.events,
    fhNext := (recordEvent etype uclass uindex status part detail s).nv.fhNext, units := u })
      (recordEvent_units_of_uncounted h _ _ _ _ _ s))

/-- What order 2 leaves of the NV die: all but the boot count, the identity ring's place and the records. -/
theorem bootRead_nv {α : Type} (g : Nv → α) (s : State) (he : ∀ n e f, g { n with events := e, fhNext := f } = g n)
    (hi : ∀ n i, g { n with idPos := i } = g n) : g (bootRead s).nv = g { s.nv with bootCount := s.nv.bootCount + 1 } := by
  have hc : g (bootCounted s).nv = g { s.nv with bootCount := s.nv.bootCount + 1 } :=
    (congrArg g (bootCounted_nv s)).trans (hi { s.nv with bootCount := s.nv.bootCount + 1 } _)
  rw [bootRead_eq]
  split
  · exact ((congrArg g (recordEvent_nv_of_uncounted (etype := 0x32) (by decide) _ _ _ _ _ _)).trans (he (bootCounted s).nv _ _)).trans hc
  · exact hc

/-- What order 2 leaves of the device's registers. -/
theorem bootRead_dev {α : Type} (g : Dev → α) (s : State)
    (hg : ∀ d e o m c, g { d with evOrd := e, bootOrder := o, meas := m, chain := c } = g d)
    (ht : ∀ d b, g { d with tripToRecord := b } = g d) : g (bootRead s).dev = g { s.dev with resetPending := false } := by
  have hc : g (bootCounted s).dev = g { s.dev with resetPending := false } :=
    (congrArg g (bootCounted_dev s)).trans (hg { s.dev with resetPending := false } _ _ _ _)
  rw [bootRead_eq]
  split
  · exact (((congrArg g (recordEvent_dev _ _ _ _ _ _ _)).trans (hg { (bootCounted s).dev with tripToRecord := false } _ _ _ _)).trans
      (ht (bootCounted s).dev _)).trans hc
  · exact hc

theorem bootRead_frame (s : State) : Only [.dev, .nv, .att] s (bootRead s) := by
  rw [bootRead_eq]
  split
  · exact (bootCounted_frame s).trans (((State.onDev_frame _ _).mono (by decide)).trans
      ((recordEvent_frame _ _ _ _ _ _ _).mono (by decide)))
  · exact bootCounted_frame s

/-- Of the device's registers, all that names the slot, its measurements and the state. -/
def bootDev (d : Dev) : BitVec 8 × Bool × Option (Fin 2) × Bool × Vector (BitVec 256) 5 × BitVec 256 :=
  (d.devState, d.resetPending, d.slot, d.bypCmd, d.meas, d.chain)

/-- What the boot orders after the measurements keep: the fuses, the boot count, port M's settings and those registers. -/
def BootKept (s t : State) : Prop :=
  t.fuse = s.fuse ∧ t.nv.bootCount = s.nv.bootCount ∧ t.nv.portM = s.nv.portM ∧ bootDev t.dev = bootDev s.dev

theorem BootKept.refl (s : State) : BootKept s s := ⟨rfl, rfl, rfl, rfl⟩

theorem BootKept.trans {s t u : State} (h : BootKept s t) (h' : BootKept t u) : BootKept s u :=
  ⟨h'.1.trans h.1, h'.2.1.trans h.2.1, h'.2.2.1.trans h.2.2.1, h'.2.2.2.trans h.2.2.2⟩

theorem BootKept.of_same {s t : State} (hf : t.fuse = s.fuse) (hn : t.nv = s.nv) (hd : t.dev = s.dev) : BootKept s t :=
  ⟨hf, congrArg Nv.bootCount hn, congrArg Nv.portM hn, congrArg bootDev hd⟩

theorem BootKept.after {s t u : State} (h : BootKept t u) (hs : BootKept s t) : BootKept s u := hs.trans h

theorem BootKept.recordEvent {s t : State} (etype uclass uindex status part detail : Nat) (hs : BootKept s t) :
    BootKept s (recordEvent etype uclass uindex status part detail t) :=
  hs.trans ⟨recordEvent_frame _ _ _ _ _ _ _ .fuse (by decide), (congrArg Nv.bootCount (recordEvent_nv _ _ _ _ _ _ _) :),
    (congrArg Nv.portM (recordEvent_nv _ _ _ _ _ _ _) :), (congrArg bootDev (recordEvent_dev _ _ _ _ _ _ _) :)⟩

theorem BootKept.onUnit {s t : State} (uclass uindex : Nat) (f : UnitSummary → UnitSummary) (hs : BootKept s t) :
    BootKept s (t.onUnit uclass uindex f) := by
  unfold State.onUnit
  split <;> exact hs

theorem BootKept.onDev {s t : State} {f : Dev → Dev} (hf : ∀ d, bootDev (f d) = bootDev d) (hs : BootKept s t) :
    BootKept s (t.onDev f) := hs.trans ⟨rfl, rfl, rfl, hf t.dev⟩

theorem BootKept.onCell {s t : State} {n : Nat} {f : Cell → Cell} (hs : BootKept s t) : BootKept s (t.onCell n f) :=
  hs.trans (.of_same rfl rfl rfl)

theorem BootKept.onPart {s t : State} {n : Nat} {f : Part → Part} (hs : BootKept s t) : BootKept s (t.onPart n f) :=
  hs.trans (.of_same rfl rfl rfl)

theorem BootKept.onPort {s t : State} {n : Nat} {f : Port → Port} (hs : BootKept s t) : BootKept s (t.onPort n f) :=
  hs.trans (.of_same rfl rfl rfl)

theorem BootKept.onStack {s t : State} {n : Nat} {f : Stack → Stack} (hs : BootKept s t) : BootKept s (t.onStack n f) :=
  hs.trans (.of_same rfl rfl rfl)

theorem BootKept.onPower {s t : State} {f : Power → Power} (hs : BootKept s t) : BootKept s (t.onPower f) :=
  hs.trans (.of_same rfl rfl rfl)

theorem BootKept.onEop {s t : State} {f : Eop → Eop} (hs : BootKept s t) : BootKept s (t.onEop f) :=
  hs.trans (.of_same rfl rfl rfl)

theorem BootKept.setMem {s t : State} (m : Memory) (hs : BootKept s t) : BootKept s { t with mem := m } :=
  hs.trans (.of_same rfl rfl rfl)

theorem BootKept.forEach {α : Type} {s t : State} {f : α → State → State} (hf : ∀ x {u}, BootKept s u → BootKept s (f x u))
    {l : List α} (hs : BootKept s t) : BootKept s (forEach l f t) :=
  forEach_induction (P := BootKept s) (fun x _ h => hf x h) hs l

theorem BootKept.applyRepairs {s t : State} (st : Nat) (hs : BootKept s t) : BootKept s (applyRepairs st t) := by
  have key : ∀ (l : List (BitVec 64)) (f : List (BitVec 64) × List SpareKey × State → BitVec 64 →
      List (BitVec 64) × List SpareKey × State) (b : List (BitVec 64) × List SpareKey × State),
      (∀ b e, BootKept s b.2.2 → BootKept s (f b e).2.2) → BootKept s b.2.2 → BootKept s (l.foldl f b).2.2 := by
    intro l f b hf hb
    induction l generalizing b with
    | nil => exact hb
    | cons e r ih => exact ih _ (hf b e hb)
  unfold Machine.applyRepairs
  refine BootKept.onStack (key _ _ _ (fun b e hb => ?_) hs)
  dsimp only
  split
  · exact hb.recordEvent _ _ _ _ _ _
  · exact hb

theorem BootKept.bootStacks {s t : State} (o : BootFindings) (hs : BootKept s t) : BootKept s (bootStacks o t) := by
  unfold Machine.bootStacks
  refine .forEach (fun _ _ h => h.recordEvent _ _ _ _ _ _) (.forEach (fun st _ h => h.applyRepairs st) ?_)
  exact (hs.setMem Memory.reset).onDev (f := fun d => { d with bootOrder := 7 }) fun _ => rfl

theorem BootKept.bootCopy {s t : State} (img : List Byte) (hs : BootKept s t) : BootKept s (bootCopy img t) :=
  (hs.setMem (t.mem.writeN stewardBase (regionBytes img))).onDev (f := fun d => { d with bootOrder := 8 })
    fun _ => rfl

theorem BootKept.bootCell {s t : State} (x : Fin 34 × BitVec 40) (hs : BootKept s t) : BootKept s (bootCell x t) := by
  unfold Machine.bootCell
  split
  · exact .onDev (fun _ => rfl) ((hs.recordEvent _ _ _ _ _ _).onUnit _ _ _)
  · exact hs

theorem BootKept.bootCells {s t : State} (o : BootFindings) (hs : BootKept s t) : BootKept s (bootCells o t) := by
  unfold Machine.bootCells resetWindow
  exact .onPower (.forEach (fun x _ h => h.bootCell x)
    (.onDev (fun _ => rfl) (.forEach (fun _ _ h => h.onCell) hs)))

theorem BootKept.bootPort {s t : State} (n : Nat) (good : BitVec 8) (hs : BootKept s t) : BootKept s (bootPort n good t) := by
  unfold Machine.bootPort Machine.retireLanes
  exact .forEach (fun _ _ h => h.recordEvent _ _ _ _ _ _) (.onDev (fun _ => rfl)
    (.onPort (.forEach (fun _ _ h => h.onUnit _ _ _) hs)))

theorem bootRest_outcome (o : BootFindings) {s t : State} (hs : BootKept s t) : BootKept s (bootRest o t) ∧
    (bootRest o t).dev.bootOrder = 11 ∧ (bootRest o t).eop.cfg = (bootRest o t).nv.portM := by
  unfold bootRest startPortM
  exact ⟨.onEop (.onDev (fun _ => rfl)
    (.forEach (fun _ _ h => h.onPart) ((hs.bootPort 0 _).bootPort 1 _))), rfl, rfl⟩

/-- Order 7 leaves the memory cleared. -/
theorem bootStacks_mem (o : BootFindings) (s : State) : (bootStacks o s).mem = Memory.reset := by
  have h : Keeps [.nv, .dev, .drams] { s with mem := Memory.reset, dev := { s.dev with bootOrder := 7 } } (bootStacks o s) :=
    Keeps.forEach (fun _ _ => recordEvent_keeps _ _ _ _ _ _ (by decide) (by decide) (.refl _ _))
      (Keeps.forEach (fun _ _ => applyRepairs_keeps _ (by decide) (by decide) (by decide) (.refl _ _)) (.refl _ _))
  exact h.1 .mem (by decide)

theorem forEach_of_fixed {α : Type} {f : α → State → State} {s : State} (h : ∀ x, f x s = s) (l : List α) :
    forEach l f s = s := by
  induction l with
  | nil => rfl
  | cons x r ih => exact (congrArg (forEach r f) (h x)).trans ih

/-- A unit of an empty history is as new. -/
theorem State.unit_of_empty {s : State} (h : s.nv.units = []) (uclass i : Nat) : s.unit uclass i = UnitSummary.reset := by
  unfold State.unit
  rw [h]
  split <;> rfl

theorem settleCell_of_empty {s : State} (h : s.nv.units = []) (c : Nat) : settleCell c s = s := by
  unfold settleCell
  rw [State.unit_of_empty h]
  rfl

theorem retireUnit_of_empty {s : State} (h : s.nv.units = []) (uclass i : Nat) : retireUnit uclass i s = s := by
  unfold retireUnit
  rw [State.unit_of_empty h]
  rfl

theorem retiredMask_of_none {bad : Nat → Bool} (l : List Nat) (h : ∀ i, bad i = false) : retiredMask l bad = 0 := by
  unfold retiredMask sumN
  simp only [h, Bool.false_eq_true, if_false]
  induction l with
  | nil => rfl
  | cons x r ih => exact ih

/-- Order 6 of an empty history: nothing is fenced, every stack is in service (12 R342). -/
theorem bootHistory_of_empty {s : State} (h : s.nv.units = []) (ha : s.dev.vrAlertN = true) :
    bootHistory s = (enqueue [plainTxn 0 0x20 0, plainTxn 1 0x20 0] (s.onDev fun d => { d with bootOrder := 6 })).onDev
      fun d => { d with fenced := 0, inService := ~~~0 } := by
  let u := enqueue [plainTxn 0 0x20 0, plainTxn 1 0x20 0] (s.onDev fun d => { d with bootOrder := 6 })
  have ho : Only [.power, .out] (s.onDev fun d => { d with bootOrder := 6 }) u :=
    (enqueue_keeps _ (by decide) (by decide) (.refl _ _)).1
  have hu : u.nv.units = [] := (congrArg Nv.units (ho .nv (by decide))).trans h
  have hva : u.dev.vrAlertN = true := (congrArg Dev.vrAlertN (ho .dev (by decide))).trans ha
  unfold bootHistory
  dsimp only
  rw [if_pos hva, forEach_of_fixed (settleCell_of_empty hu), forEach_of_fixed (retireUnit_of_empty hu 2),
    forEach_of_fixed (retireUnit_of_empty hu 4),
    retiredMask_of_none _ fun i => by rw [State.unit_of_empty hu]; rfl,
    retiredMask_of_none _ fun i => by simp [State.unit_of_empty hu, UnitSummary.reset]]
  rfl

theorem huskAt6_of_empty {s : State} (h : s.nv.units = []) (hc : 8 ≤ popCount s.fuse.enabled) (hf : s.dev.fenced = 0)
    (hi : s.dev.inService = ~~~0) : huskAt6 s = 0 := by
  have hall : s.fuse.enabled &&& ~~~(0 : BitVec 34) = s.fuse.enabled := BitVec.and_allOnes
  unfold huskAt6
  rw [hf, hi, hall, if_neg (Nat.not_lt.2 hc), if_neg (by decide)]
  refine if_neg (Bool.eq_false_iff.1 (List.any_eq_false.2 fun i _ hb => ?_))
  rw [State.unit_of_empty h] at hb
  exact absurd hb (by decide)

theorem onSlot_image {j : Nat} {f : FwSlot → FwSlot} (hf : ∀ x, (f x).image = x.image) (s : State) (i : Nat) :
    ((onSlot j f s).slot i).image = (s.slot i).image := by
  refine (congrArg FwSlot.image (vget_vmod s.nv.slots j i f FwSlot.reset)).trans ?_
  split
  case isTrue h => rw [h.1]; exact hf _
  case isFalse => rfl

theorem markTrials_image (s : State) (i : Nat) : ((markTrials s).slot i).image = (s.slot i).image :=
  forEach_induction (P := fun u => (u.slot i).image = (s.slot i).image) (fun x u hu => by
    split
    · exact (onSlot_image (f := fun f => { f with trial := true }) (fun _ => rfl) u i).trans hu
    · exact hu) rfl _

/-- A mark of a trial changes nothing of the NV die but a slot. -/
theorem markTrials_nv {α : Type} (g : Nv → α) (hg : ∀ n v, g { n with slots := v } = g n) (s : State) :
    g (markTrials s).nv = g s.nv :=
  forEach_induction (P := fun u => g u.nv = g s.nv) (fun x u hu => by
    split
    · exact (hg _ _).trans hu
    · exact hu) rfl _

theorem markTrials_frame (s : State) : Only [.nv] s (markTrials s) := (markTrials_keeps (by decide) (.refl [.nv] s)).1

/-- A state with a slot chosen and measured. -/
def slotMeasured (i : Nat) (s : State) : State :=
  measured (imageMeasures (s.slot i).image) (s.onDev fun d => { d with slot := some (Fin.ofNat 2 i) })

/-- The first words to the regulators change nothing but the power manager. -/
theorem bootWords_frame (s : State) : Only [.power, .out] (s.onDev fun d => { d with bootOrder := 6 })
    (enqueue [plainTxn 0 0x20 0, plainTxn 1 0x20 0] (s.onDev fun d => { d with bootOrder := 6 })) :=
  (enqueue_keeps _ (by decide) (by decide) (.refl _ _)).1

section
variable {s : State} (hu : s.nv.units = []) (ha : s.dev.vrAlertN = true)
include hu ha

theorem BootKept.bootHistory : BootKept s (bootHistory s) := by
  rw [bootHistory_of_empty hu ha]
  exact .onDev (fun _ => rfl) (.after (.of_same (bootWords_frame s .fuse (by decide)) (bootWords_frame s .nv (by decide))
    (bootWords_frame s .dev (by decide))) (.onDev (fun _ => rfl) (.refl s)))

theorem bootHistory_units : (bootHistory s).nv.units = [] := by
  rw [bootHistory_of_empty hu ha]
  exact (congrArg Nv.units (bootWords_frame s .nv (by decide))).trans hu

theorem bootHistory_unfenced : (bootHistory s).dev.fenced = 0 ∧ (bootHistory s).dev.inService = ~~~0 := by
  rw [bootHistory_of_empty hu ha]
  exact ⟨rfl, rfl⟩

theorem bootHistory_husk (hc : 8 ≤ popCount s.fuse.enabled) : huskAt6 (Machine.bootHistory s) = 0 :=
  huskAt6_of_empty (bootHistory_units hu ha)
    (hc.trans_eq (congrArg (fun f : Fuse => popCount f.enabled) (BootKept.bootHistory hu ha).1).symm)
    (bootHistory_unfenced hu ha).1 (bootHistory_unfenced hu ha).2

end

/-- A boot of a verified slot, with an empty fault history, runs to order 11 (12 R341, R342). -/
def slotBooted (o : BootFindings) (i : Nat) (s : State) : State :=
  bootRest o (bootCells o (bootCopy (s.slot i).image (bootStacks o (bootHistory (slotMeasured i s)))))

section
variable {o : BootFindings} {i : Nat} {s : State} (hu : s.nv.units = []) (ha : s.dev.vrAlertN = true)
include hu ha

theorem bootSlot_eq (hc : 8 ≤ popCount s.fuse.enabled) (ho : o.copyBad = false) : bootSlot o i s = slotBooted o i s := by
  unfold bootSlot
  dsimp only
  rw [if_neg fun h => h (bootHistory_husk (s := slotMeasured i s) hu ha hc), ho]
  rfl

theorem slotBooted_outcome : BootKept (slotMeasured i s) (slotBooted o i s) ∧ (slotBooted o i s).dev.bootOrder = 11 ∧
    (slotBooted o i s).eop.cfg = (slotBooted o i s).nv.portM :=
  bootRest_outcome o ((((BootKept.bootHistory (s := slotMeasured i s) hu ha).bootStacks o).bootCopy _).bootCells o)

theorem slotBooted_dev : bootDev (slotBooted o i s).dev = bootDev (slotMeasured i s).dev := (slotBooted_outcome hu ha).1.2.2.2

omit hu ha in
theorem slotBooted_mem : (slotBooted o i s).mem = Memory.reset.writeN stewardBase (regionBytes (s.slot i).image) := by
  have hrest : (slotBooted o i s).mem = (bootCopy (s.slot i).image (bootStacks o (bootHistory (slotMeasured i s)))).mem :=
    (bootRest_keeps (fl := [.nv, .dev, .parts, .ports, .eop, .cells, .power]) o (by decide) (by decide) (by decide) (by decide)
      (by decide) (bootCells_keeps o (by decide) (by decide) (by decide) (by decide) (.refl _ _))).1 .mem (by decide)
  exact hrest.trans (congrArg (fun m => Memory.writeN m stewardBase (regionBytes (s.slot i).image)) (bootStacks_mem o _))

end

theorem bootRead_slot (s : State) (i : Nat) : (bootRead s).slot i = s.slot i :=
  bootRead_nv (fun n => vget n.slots i FwSlot.reset) s (fun _ _ _ => rfl) fun _ _ => rfl

theorem abandonTrial_of_no_trial {i : Nat} {s : State} (h : (s.slot i).trial = false) : abandonTrial i s = s := by
  unfold abandonTrial
  dsimp only
  rw [h]
  rfl

/-- The slot a boot tries is that of the first candidate (12 R341). -/
theorem bootChoose_eq {o : BootFindings} {s : State} {i : Nat} {l : List Nat} (h0 : (s.slot 0).trial = false)
    (h1 : (s.slot 1).trial = false) (hl : candidates s = i :: l) (hi : slotFault (markTrials s) i = none) :
    bootChoose o s = bootSlot o i (markTrials s) := by
  unfold bootChoose
  rw [abandonTrial_of_no_trial h0, abandonTrial_of_no_trial h1]
  dsimp only
  rw [hl]
  dsimp only
  rw [hi]

theorem bootRead_min (s : State) : (bootRead s).nv.rollbackMin = s.nv.rollbackMin :=
  bootRead_nv Nv.rollbackMin s (fun _ _ _ => rfl) fun _ _ => rfl

theorem bootRead_candidates (s : State) : candidates (bootRead s) = candidates s := by
  have h : (bootRead s).nv.active = s.nv.active := bootRead_nv Nv.active s (fun _ _ _ => rfl) fun _ _ => rfl
  unfold candidates
  simp only [bootRead_slot]
  rw [h, bootRead_min]

theorem slotFault_congr {s t : State} {i : Nat} (hi : (t.slot i).image = (s.slot i).image) (hf : t.fuse = s.fuse)
    (hm : t.nv.rollbackMin = s.nv.rollbackMin) : slotFault t i = slotFault s i := by
  unfold slotFault
  rw [hi, hf, hm]

theorem triedSlot_fault (s : State) (i : Nat) : slotFault (markTrials (bootRead s)) i = slotFault s i :=
  slotFault_congr ((markTrials_image _ i).trans (congrArg FwSlot.image (bootRead_slot s i)))
    ((markTrials_frame _ .fuse (by decide)).trans (bootRead_frame s .fuse (by decide)))
    ((markTrials_nv Nv.rollbackMin (fun _ _ => rfl) _).trans (bootRead_min s))

theorem toList_cons_four {α : Type} (x : α) (v : Vector α 4) : #v[x, v[0], v[1], v[2], v[3]].toList = x :: v.toList := by
  obtain ⟨⟨l⟩, h⟩ := v
  obtain ⟨_, _, _, _, rfl⟩ := List.length_eq_four.1 h
  rfl

/-- A cleared memory with one string of bytes in it. -/
theorem read1_writeN_reset (base : Nat) (bs : List Byte) (a : Nat) : (Memory.reset.writeN base bs).read1 a =
    if base ≤ a ∧ a < base + bs.length then bs.getD (a - base) 0 else 0 := by
  rw [Memory.read1_writeN, Memory.read1_reset]
  split
  · rw [List.getD_eq_getElem]
  · rfl

/-- What readiness makes of the device's registers and of the NV die. -/
def deviceMadeReady (i : Fin 2) (s : State) : State :=
  ((onSlot i (fun f => { f with pending := false, trial := false, failed := false }) s).onNv
    fun n => { n with active := i }).onDev fun d => { d with
      devState := 1, bootOrder := 12, hourArmed := true, autoInsert := decide (s.nv.insertMode = 0),
      minPending := if s.nv.rollbackMin.toNat < imageMinVer (s.slot i).image
        then some (BitVec.ofNat 32 (imageMinVer (s.slot i).image)) else none }

theorem exec_deviceReady {s : State} {i : Fin 2} (hi : s.dev.slot = some i) (ho : s.dev.bootOrder = 11)
    (hd : s.dev.devState = 0) : exec .deviceReady s = .next (deviceMadeReady i s) := by
  change execDeviceReady s = _
  unfold execDeviceReady
  rw [hi]
  dsimp only
  rw [if_neg fun h => h.elim (fun h => h ho) fun h => h hd]
  rfl

theorem deviceMadeReady_frame (i : Fin 2) (s : State) : Only [.dev, .nv] s (deviceMadeReady i s) :=
  ((State.onNv_frame _ _).mono (by decide)).trans
    (((State.onNv_frame _ _).mono (by decide)).trans ((State.onDev_frame _ _).mono (by decide)))

theorem one_sub_ne (i : Fin 2) : 1 - i.val ≠ i.val := by
  revert i
  decide

/-! ### The boot as a whole -/

section
variable {d e : Dev} (h : bootDev d = bootDev e)
include h

theorem bootDev_devState : d.devState = e.devState := congrArg Prod.fst h
theorem bootDev_resetPending : d.resetPending = e.resetPending := congrArg (fun k => k.2.1) h
theorem bootDev_slot : d.slot = e.slot := congrArg (fun k => k.2.2.1) h
theorem bootDev_bypCmd : d.bypCmd = e.bypCmd := congrArg (fun k => k.2.2.2.1) h
theorem bootDev_meas : d.meas = e.meas := congrArg (fun k => k.2.2.2.2.1) h
theorem bootDev_chain : d.chain = e.chain := congrArg (fun k => k.2.2.2.2.2) h

end

section
variable (i : Nat) (s : State)

theorem slotMeasured_devState : (slotMeasured i s).dev.devState = s.dev.devState := rfl
theorem slotMeasured_resetPending : (slotMeasured i s).dev.resetPending = s.dev.resetPending := rfl
theorem slotMeasured_slot : (slotMeasured i s).dev.slot = some (Fin.ofNat 2 i) := rfl
theorem slotMeasured_bootCount : (slotMeasured i s).nv.bootCount = s.nv.bootCount := rfl
theorem slotMeasured_portM : (slotMeasured i s).nv.portM = s.nv.portM := rfl
theorem slotMeasured_bypCmd : (slotMeasured i s).dev.bypCmd = s.dev.bypCmd := rfl
theorem slotMeasured_meas : (slotMeasured i s).dev.meas = #v[s.fuse.romDigest, (imageMeasures (s.slot i).image)[0],
    (imageMeasures (s.slot i).image)[1], (imageMeasures (s.slot i).image)[2], (imageMeasures (s.slot i).image)[3]] := rfl
theorem slotMeasured_chain : (slotMeasured i s).dev.chain = chainOf (slotMeasured i s).dev.meas := rfl

end

section
variable {o : BootFindings} {s : State} {i : Nat} (hu : s.nv.units = []) (ha : s.dev.vrAlertN = true)
include hu ha

omit ha in
theorem triedSlot_units : (markTrials (bootRead s)).nv.units = [] :=
  (markTrials_nv Nv.units (fun _ _ => rfl) _).trans ((bootRead_nv Nv.units s (fun _ _ _ => rfl) fun _ _ => rfl).trans hu)

omit hu in
theorem triedSlot_alert : (markTrials (bootRead s)).dev.vrAlertN = true :=
  (congrArg Dev.vrAlertN (markTrials_frame _ .dev (by decide))).trans
    ((bootRead_dev Dev.vrAlertN s (fun _ _ _ _ _ => rfl) fun _ _ => rfl).trans ha)

omit hu ha in
theorem triedSlot_fuse : (markTrials (bootRead s)).fuse = s.fuse :=
  (markTrials_frame _ .fuse (by decide)).trans (bootRead_frame s .fuse (by decide))

omit hu ha in
theorem triedSlot_image : ((markTrials (bootRead s)).slot i).image = (s.slot i).image :=
  (markTrials_image _ i).trans (congrArg FwSlot.image (bootRead_slot s i))

omit hu ha in
theorem triedSlot_dev {α : Type} (g : Dev → α) (hg : ∀ d e o m c, g { d with evOrd := e, bootOrder := o, meas := m, chain := c } = g d)
    (ht : ∀ d b, g { d with tripToRecord := b } = g d) : g (markTrials (bootRead s)).dev = g { s.dev with resetPending := false } :=
  (congrArg g (markTrials_frame _ .dev (by decide))).trans (bootRead_dev g s hg ht)

/-- The state a boot leaves that runs to order 11. -/
def booted (o : BootFindings) (i : Nat) (s : State) : State := slotBooted o i (markTrials (bootRead s))

theorem exec_bootStart_runs {l : List Nat} (ho : outOfReset s = true) (hr : s.dev.refclkOk = true) (hb : s.dev.railBad = 0)
    (hp : s.dev.resetPending = true) (hst : s.nv.stwResets.toNat < 2) (hnr : s.nv.noReady.toNat < 3)
    (hc : 8 ≤ popCount s.fuse.enabled) (hcopy : o.copyBad = false) (h0 : (s.slot 0).trial = false)
    (h1 : (s.slot 1).trial = false) (hl : candidates s = i :: l) (hi : slotFault s i = none) :
    exec (.bootStart o) s = .next (booted o i s) := by
  rw [exec_bootStart ho hr hb hp, bootRead_nv Nv.stwResets s (fun _ _ _ => rfl) fun _ _ => rfl,
    bootRead_nv Nv.noReady s (fun _ _ _ => rfl) fun _ _ => rfl]
  refine next_congr ((if_neg (Nat.not_le.2 hst)).trans ((if_neg (Nat.not_le.2 hnr)).trans
    ((bootChoose_eq ?_ ?_ ((bootRead_candidates s).trans hl) ((triedSlot_fault s i).trans hi)).trans
      (bootSlot_eq (triedSlot_units hu) (triedSlot_alert ha) ?_ hcopy))))
  · exact (congrArg FwSlot.trial (bootRead_slot s 0)).trans h0
  · exact (congrArg FwSlot.trial (bootRead_slot s 1)).trans h1
  · exact hc.trans_eq (congrArg (fun f : Fuse => popCount f.enabled) triedSlot_fuse).symm

theorem booted_dev : bootDev (booted o i s).dev = bootDev (slotMeasured i (markTrials (bootRead s))).dev :=
  slotBooted_dev (triedSlot_units hu) (triedSlot_alert ha)

theorem booted_devState : (booted o i s).dev.devState = s.dev.devState :=
  ((bootDev_devState (booted_dev hu ha)).trans (slotMeasured_devState i _)).trans (triedSlot_dev Dev.devState (fun _ _ _ _ _ => rfl) fun _ _ => rfl)

theorem booted_resetPending : (booted o i s).dev.resetPending = false :=
  ((bootDev_resetPending (booted_dev hu ha)).trans (slotMeasured_resetPending i _)).trans (triedSlot_dev Dev.resetPending (fun _ _ _ _ _ => rfl) fun _ _ => rfl)

theorem booted_slot : (booted o i s).dev.slot = some (Fin.ofNat 2 i) :=
  (bootDev_slot (booted_dev hu ha)).trans (slotMeasured_slot i _)

theorem booted_bypCmd : (booted o i s).dev.bypCmd = s.dev.bypCmd :=
  ((bootDev_bypCmd (booted_dev hu ha)).trans (slotMeasured_bypCmd i _)).trans (triedSlot_dev Dev.bypCmd (fun _ _ _ _ _ => rfl) fun _ _ => rfl)

theorem booted_meas : (booted o i s).dev.meas = #v[s.fuse.romDigest, (imageMeasures (s.slot i).image)[0],
    (imageMeasures (s.slot i).image)[1], (imageMeasures (s.slot i).image)[2], (imageMeasures (s.slot i).image)[3]] := by
  rw [bootDev_meas (booted_dev hu ha), slotMeasured_meas, triedSlot_image, triedSlot_fuse]

theorem booted_chain : (booted o i s).dev.chain = chainOf (booted o i s).dev.meas :=
  ((bootDev_chain (booted_dev hu ha)).trans (slotMeasured_chain i _)).trans (congrArg chainOf (bootDev_meas (booted_dev hu ha))).symm

theorem booted_bootCount : (booted o i s).nv.bootCount = s.nv.bootCount + 1 :=
  ((slotBooted_outcome (triedSlot_units hu) (triedSlot_alert ha)).1.2.1.trans (slotMeasured_bootCount i _)).trans
    ((markTrials_nv Nv.bootCount (fun _ _ => rfl) _).trans (bootRead_nv Nv.bootCount s (fun _ _ _ => rfl) fun _ _ => rfl))

theorem booted_portM : (booted o i s).eop.cfg = s.nv.portM :=
  ((slotBooted_outcome (triedSlot_units hu) (triedSlot_alert ha)).2.2.trans
    ((slotBooted_outcome (triedSlot_units hu) (triedSlot_alert ha)).1.2.2.1.trans (slotMeasured_portM i _))).trans
      ((markTrials_nv Nv.portM (fun _ _ => rfl) _).trans (bootRead_nv Nv.portM s (fun _ _ _ => rfl) fun _ _ => rfl))

omit hu ha in
theorem booted_read1 (a : Nat) : (booted o i s).mem.read1 a =
    if stewardBase ≤ a ∧ a < stewardBase + (regionBytes (s.slot i).image).length
    then (regionBytes (s.slot i).image).getD (a - stewardBase) 0 else 0 := by
  rw [booted, slotBooted_mem, triedSlot_image]
  exact read1_writeN_reset _ _ a

end

/-! ### Husk mode at order 2 -/

section
variable {s u : State}

theorem enterHusk_devState (cause : Nat) (s : State) : (enterHusk cause s).dev.devState = 2 :=
  (congrArg Dev.devState (enterHusk_dev cause s) :)

theorem enterHusk_huskCause (cause : Nat) (s : State) : (enterHusk cause s).dev.huskCause = BitVec.ofNat 8 cause :=
  (congrArg Dev.huskCause (enterHusk_dev cause s) :)

theorem enterHusk_stwResets (cause : Nat) (s : State) : (enterHusk cause s).nv.stwResets = s.nv.stwResets :=
  (congrArg Nv.stwResets (enterHusk_nv cause s) :)

theorem enterHusk_bootCount (cause : Nat) (s : State) : (enterHusk cause s).nv.bootCount = s.nv.bootCount :=
  (congrArg Nv.bootCount (enterHusk_nv cause s) :)

theorem bootCounted_bootCount (s : State) : (bootCounted s).nv.bootCount = s.nv.bootCount + 1 :=
  (congrArg Nv.bootCount (bootCounted_nv s) :)

theorem bootCounted_portM (s : State) : (bootCounted s).nv.portM = s.nv.portM := (congrArg Nv.portM (bootCounted_nv s) :)

theorem enterHusk_event_of (cause : Nat) (h : u.nv.fhNext = s.nv.fhNext) : eventWritten 0x40 s (enterHusk cause u) := by
  have he := enterHusk_event cause u
  unfold eventWritten at he ⊢
  rw [← h]
  exact he

theorem bootCounted_fhNext (s : State) : (bootCounted s).nv.fhNext = s.nv.fhNext := (congrArg Nv.fhNext (bootCounted_nv s) :)

theorem exec_bootStart_counted {o : BootFindings} (ho : outOfReset s = true) (hr : s.dev.refclkOk = true)
    (hb : s.dev.railBad = 0) (hp : s.dev.resetPending = true) (htrip : s.dev.tripToRecord = false) : exec (.bootStart o) s =
      .next (if s.nv.stwResets.toNat ≥ 2 then enterHusk 2 ((bootCounted s).onNv fun n => { n with stwResets := 1 })
        else if s.nv.noReady.toNat ≥ 3 then enterHusk 6 (bootCounted s) else bootChoose o (bootCounted s)) := by
  have hst : (bootCounted s).nv.stwResets = s.nv.stwResets := (congrArg Nv.stwResets (bootCounted_nv s) :)
  have hnr : (bootCounted s).nv.noReady = s.nv.noReady := (congrArg Nv.noReady (bootCounted_nv s) :)
  rw [exec_bootStart ho hr hb hp, bootRead_of_no_trip htrip, hst, hnr]

theorem husk2_frame (s : State) : Only [.dev, .nv, .att, .eop] s (enterHusk 2 ((bootCounted s).onNv fun n => { n with stwResets := 1 })) :=
  ((bootCounted_frame s).mono (by decide)).trans
    (((State.onNv_frame _ _).mono (by decide)).trans ((enterHusk_frame _ _).mono (by decide)))

theorem husk6_frame (s : State) : Only [.dev, .nv, .att, .eop] s (enterHusk 6 (bootCounted s)) :=
  ((bootCounted_frame s).mono (by decide)).trans ((enterHusk_frame _ _).mono (by decide))

end

/-! ### Pins -/

theorem exec_ageingGuardStep (c : Fin 34) (s : State) (hd : s.dev.devState = 1) : exec (.ageingGuardStep c) s =
    .next (s.onNv fun n => { n with guards := vmod n.guards c fun g => if g.toNat ≥ 16 then g else g + 1 }) :=
  next_ite_of_pos hd

theorem guarded_toNat (g : BitVec 8) :
    (if g.toNat ≥ 16 then g else g + 1).toNat = if g.toNat < 16 then g.toNat + 1 else g.toNat := by
  by_cases h : g.toNat < 16
  · rw [if_neg (Nat.not_le.2 h), if_pos h, guard_step_toNat g h]
  · rw [if_pos (Nat.not_lt.1 h), if_neg h]

/-- Both ports of a device that comes into the ring. -/
def bothTrained (s : State) : State := trainIfDown 1 (trainIfDown 0 (senseSwitches true true s))

theorem bothTrained_frame (s : State) : Only [.nv, .ports, .parts, .eop, .out] (senseSwitches true true s) (bothTrained s) :=
  (trainIfDown_frame 0 _).trans (trainIfDown_frame 1 _)

theorem senseSwitches_port (s : State) (e w : Bool) (n : Nat) : (senseSwitches e w s).port n = s.port n := rfl

theorem bothTrained_port_zero (s : State) : (bothTrained s).port 0 = (trainIfDown 0 (senseSwitches true true s)).port 0 :=
  trainIfDown_port_ne _ (by decide)

theorem trained_once_port_one (s : State) : (trainIfDown 0 (senseSwitches true true s)).port 1 = s.port 1 :=
  (trainIfDown_port_ne _ (by decide)).trans (senseSwitches_port s true true 1)

theorem bothTrained_of_down {s : State} (n : Nat) (hn : n < 2) (h : (s.port n).up = false) : ((bothTrained s).port n).st = 1 :=
  match n, hn, h with
  | 0, _, h => (congrArg Port.st (bothTrained_port_zero s)).trans (trainIfDown_of_down (by decide) h)
  | 1, _, h => trainIfDown_of_down (by decide) ((congrArg Port.up (trained_once_port_one s)).trans h)

theorem bothTrained_of_up {s : State} (n : Nat) (hn : n < 2) (h : (s.port n).up = true) : (bothTrained s).port n = s.port n :=
  match n, hn, h with
  | 0, _, h => (bothTrained_port_zero s).trans
      ((congrArg (fun t => State.port t 0) (trainIfDown_of_up (s := senseSwitches true true s) h)).trans (senseSwitches_port s true true 0))
  | 1, _, h => (congrArg (fun t => State.port t 1) (trainIfDown_of_up ((congrArg Port.up (trained_once_port_one s)).trans h))).trans
      (trained_once_port_one s)

theorem exec_bypassPositionSensed_plain {e w : Bool} {s : State} (hp : s.dev.powered = true) (hn : s.dev.porstN = true)
    (hc : ¬ (s.dev.bypCmd = true ∧ e = true ∧ w = true)) :
    exec (.bypassPositionSensed e w) s = .next (senseSwitches e w s) := by
  change execBypassPositionSensed e w s = _
  rw [execBypassPositionSensed, if_neg (by rw [hp, hn]; decide)]
  exact next_ite_of_neg hc

theorem exec_bypassPositionSensed_both {e w : Bool} {s : State} (hp : s.dev.powered = true) (hn : s.dev.porstN = true)
    (hc : s.dev.bypCmd = true) (he : e = true) (hw : w = true) :
    exec (.bypassPositionSensed e w) s = .next (bothTrained s) := by
  rw [he, hw]
  exact exec_bypassPositionSensed_commanded hp hn hc

theorem porstReleased_frame (s : State) : Only [.dev, .jtag] s
    (setPorst true (s.onDev fun d => { d with interval := 0, actedRails := 0, actedRef := false })) :=
  (setPorst_keeps true (by decide) (by decide)
    (.onDevSame (f := fun d => { d with interval := 0, actedRails := 0, actedRef := false }) (by decide)
      (fun _ => ⟨rfl, rfl, rfl⟩) (.refl [.dev, .jtag] s))).1

end Sys2Proof.Machine

namespace Sys2Proof.Proofs

open Machine Claims

/-- Settles O8: each pin by the update it is, the sensed position by what training leaves of each port. -/
theorem pinsRailsAndPlacement : Obligations.PinsRailsAndPlacement := by
  unfold Obligations.PinsRailsAndPlacement
  exact ⟨fun s => ⟨fun hp => ⟨_, next_ite_of_neg (Bool.eq_false_iff.1 hp), s.onDev_frame _, rfl⟩,
      fun hp hn ht => ⟨_, (next_ite_of_neg (by rw [hn, hp]; decide)).trans (next_ite_of_neg (Bool.eq_false_iff.1 ht)),
        porstReleased_frame s, rfl, rfl⟩,
      fun r => ⟨_, rfl, s.onDev_frame _, rfl, fun n hn =>
        ⟨flag_and_not_bit _ _ _ hn (railNumber_lt r), flag_and_not_bit _ _ _ hn (railNumber_lt r)⟩⟩,
      ⟨_, rfl, s.onDev_frame _, rfl⟩,
      fun c hd => ⟨_, exec_ageingGuardStep c s hd, s.onNv_frame _, rfl, fun n hn => vget_vmod_ne _ _ _ _ _ hn,
        (congrArg BitVec.toNat (vget_vmod_self _ _ _ _ c.isLt)).trans (guarded_toNat _)⟩⟩,
    fun e w s => ⟨fun h => if_pos h, fun hp hn hc he hw => ⟨_, exec_bypassPositionSensed_both hp hn hc he hw,
        bothTrained_frame s .dev (by decide), bothTrained_of_down, bothTrained_of_up,
        ((s.onDev_frame _).mono (by decide)).trans ((bothTrained_frame s).mono (by decide))⟩,
      fun hp hn hc => ⟨_, exec_bypassPositionSensed_plain hp hn hc, s.onDev_frame _, rfl⟩⟩⟩

/-- Settles O9: each instruction by the register it shifts. -/
theorem testAccessPort : Obligations.TestAccessPort := by
  unfold Obligations.TestAccessPort
  intro tdi s hw
  refine ⟨fun i hi => ?_, ?_, fun hid hl => ?_, fun hl => ?_, fun hl => ?_⟩
  · refine ⟨{ s with jtag := { s.jtag with trstN := false, ir := 0x02, drive := none, tdo := [] } }, ?_, jtag_frame s _, rfl⟩
    simp only [List.mem_cons, List.not_mem_nil, or_false] at hi
    rcases hi with rfl | rfl | rfl | rfl <;> exact next_congr (tapShift_of_reset hw rfl)
  · exact ⟨_, next_congr (tapShift_of_run hw rfl), jtag_frame s _, rfl, rfl⟩
  · refine ⟨_, next_congr (tapShift_of_run hw rfl), jtag_frame s _, ?_, rfl⟩
    dsimp only
    rw [shiftOut_of_length (hl.trans (wordBits_length _).symm), hid]
    decide
  · exact ⟨_, next_congr (tapShift_of_run hw rfl), jtag_frame s _, shiftOut_of_length hl, shiftIn_of_length hl, rfl⟩
  · refine ⟨_, next_congr (tapShift_of_run hw rfl), jtag_frame s _, shiftOut_of_length hl, shiftIn_of_length hl, ?_⟩
    dsimp only
    rw [shiftIn_of_length hl]

/-- Settles O10: a boot by what each order keeps of the one before, husk mode and readiness by their updates. -/
theorem bootHuskAndReady : Obligations.BootHuskAndReady := by
  unfold Obligations.BootHuskAndReady
  refine ⟨fun o s i l ho hr hb hp hst hnr ha hu hc hcopy h0 h1 hd hl hi =>
      ⟨_, exec_bootStart_runs hu ha ho hr hb hp hst hnr hc hcopy h0 h1 hl hi,
        (slotBooted_outcome (triedSlot_units hu) (triedSlot_alert ha)).2.1, (booted_devState hu ha).trans hd,
        booted_resetPending hu ha, booted_slot hu ha, booted_bootCount hu ha, booted_bypCmd hu ha, booted_portM hu ha, ?_,
        (congrArg Vector.toList (booted_meas hu ha)).trans (toList_cons_four _ _), booted_chain hu ha⟩,
    fun o s ho hr hb hp htrip => ⟨fun hst => ⟨_, (exec_bootStart_counted ho hr hb hp htrip).trans (next_ite_of_pos hst),
        enterHusk_devState _ _, enterHusk_huskCause _ _, enterHusk_stwResets _ _,
        (enterHusk_bootCount _ _).trans (bootCounted_bootCount s), enterHusk_event_of _ (bootCounted_fhNext s),
        (enterHusk_eop _ _).trans (bootCounted_portM s), husk2_frame s⟩,
      fun hst hnr => ⟨_, (exec_bootStart_counted ho hr hb hp htrip).trans
          ((next_ite_of_neg (Nat.not_le.2 hst)).trans (next_ite_of_pos hnr)),
        enterHusk_devState _ _, enterHusk_huskCause _ _, (enterHusk_bootCount _ _).trans (bootCounted_bootCount s),
        enterHusk_event_of _ (bootCounted_fhNext s), (enterHusk_eop _ _).trans (bootCounted_portM s), husk6_frame s⟩⟩,
    fun s => ⟨fun i hi hbo hd => ⟨_, exec_deviceReady hi hbo hd, deviceMadeReady_frame i s, rfl, rfl, rfl,
        vget_vmod_self _ _ _ _ i.isLt, vget_vmod_ne _ _ _ _ _ (one_sub_ne i), rfl, rfl, rfl⟩,
      fun hh hd => ⟨_, next_ite_of_pos ⟨hh, hd⟩, ((State.onDev_frame _ _).mono (by decide)).trans
        ((State.onNv_frame _ _).mono (by decide)), rfl, rfl⟩⟩⟩
  intro b a
  exact booted_read1 a

end Sys2Proof.Proofs
end

section
/-! SUPPORT. The control core: register, immediate and branch instructions, command words, pushes and check points. -/

set_option Elab.async false

namespace Sys2Proof.Machine

open Claims

/-! ### A legal instruction runs -/

section
variable {c : Fin 34} {w : BitVec 32} {s : State}

theorem coreFetch_of_runs {op : Nat} (h : Runs c w s) (ho : opcodeOf w = op) : coreFetch c op s = some w := by
  obtain ⟨hworks, hrun, hpc, rfl, hlegal⟩ := h
  obtain ⟨p, hp⟩ := Option.isSome_iff_exists.1 hworks
  unfold coreFetch
  rw [hp]
  exact if_pos ⟨hrun, hpc, ho, hlegal⟩

theorem coreStep_of_runs {op : Nat} {f : BitVec 32 → Core → Core} (h : Runs c w s) (ho : opcodeOf w = op) :
    coreStep c op f s = .next (s.onCore c (f w)) := by
  rw [coreStep, coreFetch_of_runs h ho]

theorem State.cell_onCore_self (f : Core → Core) : (s.onCore c f).cell c = { s.cell c with core := f (s.cell c).core } :=
  State.cell_onCell_self s c _ c.isLt

theorem State.core_onCore_self (f : Core → Core) : ((s.onCore c f).cell c).core = f (s.cell c).core := by
  rw [State.cell_onCore_self]

theorem onCore_coreOnly (f : Core → Core) : CoreOnly c s (s.onCore c f) := by
  refine ⟨(State.onCore_keeps _ _ (by decide) (.refl [.cells] s)).1, fun n hn => State.cell_onCell_ne _ _ _ _ hn, ?_⟩
  rw [State.cell_onCore_self]

end

/-! ### General registers -/

theorem Core.greg_setG (k : Core) (rd n : Nat) (v : BitVec 64) (hrd : rd < 32) :
    (k.setG rd v).greg n = if n = rd ∧ n ≠ 0 then v else k.greg n := by
  unfold Core.greg
  by_cases hn : n = 0
  · rw [if_pos hn, if_neg fun h => h.2 hn]
    exact (if_pos hn).symm
  · rw [if_neg hn, if_neg hn]
    unfold Core.setG
    split
    · next h0 => rw [if_neg fun h => hn (h.1.trans h0)]
    · by_cases he : n = rd
      · subst he
        rw [if_pos ⟨rfl, hn⟩]
        exact vget_vmod_self _ _ _ _ hrd
      · rw [if_neg fun h => he h.1]
        exact vget_vmod_ne _ _ _ _ _ he

theorem Core.setG_regs (k : Core) (rd : Nat) (v : BitVec 64) : k.setG rd v = { k with g := (k.setG rd v).g } := by
  unfold Core.setG; split <;> rfl

theorem bits_lt (w hi lo : Nat) : bits w hi lo < 2 ^ (hi + 1 - lo) := Nat.mod_lt _ (Nat.two_pow_pos _)

theorem fld_lt {n : Nat} (w : BitVec n) (hi lo : Nat) : fld w hi lo < 2 ^ (hi + 1 - lo) := bits_lt _ _ _

theorem rdOf_lt (w : BitVec 32) : rdOf w < 32 := fld_lt w 25 21

/-- The core with rd written and the program counter moved (07 R184, R187). -/
def writeRd (rd : Nat) (v : Core → BitVec 64) (pc : Core → Nat) (k : Core) : Core := { k.setG rd (v k) with pc := pc k }

section
variable {c : Fin 34} {s : State} {rd : Nat} (v : Core → BitVec 64) (pc : Core → Nat)

theorem onCore_writeRd_regsOnly : RegsOnly c s (s.onCore c (writeRd rd v pc)) := by
  rw [RegsOnly, State.core_onCore_self, writeRd, Core.setG_regs]

theorem onCore_writeRd_pc : ((s.onCore c (writeRd rd v pc)).cell c).core.pc = pc (s.cell c).core :=
  congrArg Core.pc (State.core_onCore_self _)

theorem onCore_writeRd_wrote (hrd : rd < 32) : Wrote c rd (v (s.cell c).core) s (s.onCore c (writeRd rd v pc)) :=
  fun n => (congrArg (fun k => Core.greg k n) (State.core_onCore_self _)).trans (Core.greg_setG _ _ _ _ hrd)

end

theorem regOp_eq (f : BitVec 64 → BitVec 64 → BitVec 64) (w : BitVec 32) :
    regOp f w = writeRd (rdOf w) (fun k => f (k.greg (rs1Of w)) (k.greg (rs2Of w))) fun k => k.pc + 1 := rfl

theorem immOp_eq (f : BitVec 64 → Nat → BitVec 64) (w : BitVec 32) :
    immOp f w = writeRd (rdOf w) (fun k => f (k.greg (rs1Of w)) (immOf w)) fun k => k.pc + 1 := rfl

/-- The result of MOVK (07 R188). -/
def movkResult (w : BitVec 32) (k : Core) : BitVec 64 :=
  setFld (k.greg (rdOf w)) (16 * fld w 17 16 + 15) (16 * fld w 17 16) (immOf w)

theorem exec_movk {c : Fin 34} {w : BitVec 32} {s : State} (h : Runs c w s) (ho : opcodeOf w = 0x17) :
    exec (.movk c) s = .next (s.onCore c (writeRd (rdOf w) (movkResult w) fun k => k.pc + 1)) :=
  coreStep_of_runs h ho

theorem exec_prd {c : Fin 34} {w : BitVec 32} {s : State} (h : Runs c w s) (ho : opcodeOf w = 0x18) :
    exec (.prd c) s = .next (s.onCore c (writeRd (rdOf w) (fun k => vget k.p (fld w 6 0) 0) fun k => k.pc + 1)) :=
  coreStep_of_runs h ho

/-- The core after JAL (07 R188). -/
def jalCore (w : BitVec 32) : Core → Core :=
  writeRd 31 (fun k => BitVec.ofNat 64 (k.pc + 1)) fun k => (relTarget k.pc 26 (fld w 25 0)).toNat

theorem exec_jal {c : Fin 34} {w : BitVec 32} {s : State} (h : Runs c w s) (ho : opcodeOf w = 0x26) :
    exec (.jal c) s = .next (s.onCore c (jalCore w)) :=
  coreStep_of_runs h ho

/-! ### The results of the register and immediate instructions (07 R188) -/

theorem fld_low6 (b : BitVec 64) : fld b 5 0 = b.toNat % 64 := rfl

theorem bits_low6 (i : Nat) : bits i 5 0 = i % 64 := rfl

theorem sshiftRight_eq (a : BitVec 64) (n : Nat) : a.sshiftRight n = BitVec.ofInt 64 (a.toInt / 2 ^ n) := by
  rw [BitVec.sshiftRight, Int.shiftRight_eq_div_pow]
  norm_cast

theorem shiftLeft_eq_ofNat (a : BitVec 64) (n : Nat) : a <<< n = BitVec.ofNat 64 (a.toNat * 2 ^ n) := by
  apply BitVec.eq_of_toNat_eq
  rw [BitVec.toNat_shiftLeft, BitVec.toNat_ofNat, Nat.shiftLeft_eq]

theorem shiftRight_eq_ofNat (a : BitVec 64) (n : Nat) : a >>> n = BitVec.ofNat 64 (a.toNat / 2 ^ n) := by
  apply BitVec.eq_of_toNat_eq
  rw [BitVec.toNat_ushiftRight, BitVec.toNat_ofNat, Nat.shiftRight_eq_div_pow,
    Nat.mod_eq_of_lt (Nat.lt_of_le_of_lt (Nat.div_le_self _ _) a.isLt)]

/-- A sign extension by the range of the number extended. -/
theorem sext_succ_eq {n i : Nat} (h : i < 2 ^ (n + 1)) :
    sext (n + 1) i = if i < 2 ^ n then (i : Int) else (i : Int) - 2 ^ (n + 1) := by
  have hmod : (i : Int) % 2 ^ (n + 1) = i := Int.emod_eq_of_lt (Int.natCast_nonneg i) (by exact_mod_cast h)
  rw [sext, Nat.mod_eq_of_lt h, Nat.add_sub_cancel, hmod]
  by_cases hi : i < 2 ^ n
  · rw [Nat.testBit_lt_two_pow hi, if_pos hi]
    rfl
  · rw [Nat.testBit_of_two_pow_le_and_two_pow_add_one_gt (Nat.le_of_not_lt hi) h, if_neg hi]
    rfl

theorem sext16_eq (i : Nat) (h : i < 2 ^ 16) : sext 16 i = signed16 i := sext_succ_eq h

theorem immOf_lt (w : BitVec 32) : immOf w < 2 ^ 16 := fld_lt w 15 0

theorem eq_ofNat {b : BitVec 64} {n : Nat} (h : b.toNat = n) : b = BitVec.ofNat 64 n := by
  rw [← h, BitVec.ofNat_toNat, BitVec.setWidth_eq]

theorem sub_eq_ofInt (a b : BitVec 64) : a - b = BitVec.ofInt 64 (a.toNat - b.toNat) :=
  BitVec.eq_of_toInt_eq (by rw [BitVec.toInt_sub, BitVec.toInt_ofInt, BitVec.toInt_eq_toNat_bmod, BitVec.toInt_eq_toNat_bmod,
    Int.bmod_sub_bmod, Int.sub_bmod_bmod])

theorem exec_of_regOp {c : Nat} {i : Instr} {op : Nat} {f g : BitVec 64 → BitVec 64 → BitVec 64} {s : State}
    (he : exec i s = coreStep c op (regOp f) s) (hf : ∀ a b, f a b = g a b) : exec i s = coreStep c op (regOp g) s :=
  (funext fun a => funext (hf a) : f = g) ▸ he

theorem minu_eq (a b : BitVec 64) : (if b.toNat < a.toNat then b else a) = BitVec.ofNat 64 (min a.toNat b.toNat) := by
  by_cases hb : b.toNat < a.toNat
  · exact (if_pos hb).trans (eq_ofNat (Nat.min_eq_right (Nat.le_of_lt hb)).symm)
  · exact (if_neg hb).trans (eq_ofNat (Nat.min_eq_left (Nat.le_of_not_lt hb)).symm)

theorem maxu_eq (a b : BitVec 64) : (if a.toNat < b.toNat then b else a) = BitVec.ofNat 64 (max a.toNat b.toNat) := by
  by_cases hb : a.toNat < b.toNat
  · exact (if_pos hb).trans (eq_ofNat (Nat.max_eq_right (Nat.le_of_lt hb)).symm)
  · exact (if_neg hb).trans (eq_ofNat (Nat.max_eq_left (Nat.le_of_not_lt hb)).symm)

/-- Every row of the table is one register operation with the result the table gives. -/
theorem exec_of_aluTable {c : Fin 34} (s : State) : ∀ r ∈ aluTable c, exec r.1 s = coreStep c r.2.1 (regOp r.2.2) s :=
  List.forall_mem_cons.2 ⟨rfl,
  List.forall_mem_cons.2 ⟨exec_of_regOp rfl sub_eq_ofInt,
  List.forall_mem_cons.2 ⟨exec_of_regOp rfl fun a b => eq_ofNat (BitVec.toNat_and a b),
  List.forall_mem_cons.2 ⟨exec_of_regOp rfl fun a b => eq_ofNat (BitVec.toNat_or a b),
  List.forall_mem_cons.2 ⟨exec_of_regOp rfl fun a b => eq_ofNat (BitVec.toNat_xor a b),
  List.forall_mem_cons.2 ⟨exec_of_regOp rfl fun _ _ => shiftLeft_eq_ofNat _ _,
  List.forall_mem_cons.2 ⟨exec_of_regOp rfl fun _ _ => shiftRight_eq_ofNat _ _,
  List.forall_mem_cons.2 ⟨exec_of_regOp rfl fun _ _ => sshiftRight_eq _ _,
  List.forall_mem_cons.2 ⟨rfl,
  List.forall_mem_cons.2 ⟨rfl,
  List.forall_mem_cons.2 ⟨exec_of_regOp rfl fun a b => if_congr ((BitVec.slt_eq_decide (x := a) (y := b)) ▸ decide_eq_true_iff) rfl rfl,
  List.forall_mem_cons.2 ⟨exec_of_regOp rfl minu_eq,
  List.forall_mem_cons.2 ⟨exec_of_regOp rfl maxu_eq, List.forall_mem_nil _⟩⟩⟩⟩⟩⟩⟩⟩⟩⟩⟩⟩⟩

theorem toNat_ofNat_imm {i : Nat} (hi : i < 2 ^ 16) : (BitVec.ofNat 64 i).toNat = i :=
  Nat.mod_eq_of_lt (Nat.lt_trans hi (by decide))

theorem exec_of_immOp {c : Nat} {i : Instr} {op : Nat} {f g : BitVec 64 → Nat → BitVec 64} {s : State}
    (he : exec i s = coreStep c op (immOp f) s) (hf : ∀ a i, i < 2 ^ 16 → f a i = g a i) :
    exec i s = coreStep c op (immOp g) s :=
  (funext fun w => by rw [immOp_eq, immOp_eq, funext fun k : Core => hf (k.greg (rs1Of w)) _ (immOf_lt w)] :
    immOp f = immOp g) ▸ he

theorem add_sext_eq (a : BitVec 64) (i : Nat) (hi : i < 2 ^ 16) :
    a + BitVec.ofInt 64 (sext 16 i) = BitVec.ofInt 64 (a.toNat + signed16 i) := by
  rw [sext16_eq i hi, BitVec.ofInt_add, BitVec.ofInt_natCast, ← eq_ofNat rfl]

/-- Every row of the table is one immediate operation with the result the table gives on 16-bit immediates. -/
theorem exec_of_immTable {c : Fin 34} (s : State) : ∀ r ∈ immTable c, exec r.1 s = coreStep c r.2.1 (immOp r.2.2) s :=
  List.forall_mem_cons.2 ⟨exec_of_immOp rfl add_sext_eq,
  List.forall_mem_cons.2 ⟨exec_of_immOp rfl fun a _ hi => eq_ofNat ((BitVec.toNat_and a _).trans (congrArg _ (toNat_ofNat_imm hi))),
  List.forall_mem_cons.2 ⟨exec_of_immOp rfl fun a _ hi => eq_ofNat ((BitVec.toNat_or a _).trans (congrArg _ (toNat_ofNat_imm hi))),
  List.forall_mem_cons.2 ⟨exec_of_immOp rfl fun a _ hi => eq_ofNat ((BitVec.toNat_xor a _).trans (congrArg _ (toNat_ofNat_imm hi))),
  List.forall_mem_cons.2 ⟨exec_of_immOp rfl fun _ _ _ => shiftLeft_eq_ofNat _ _,
  List.forall_mem_cons.2 ⟨exec_of_immOp rfl fun _ _ _ => shiftRight_eq_ofNat _ _,
  List.forall_mem_cons.2 ⟨exec_of_immOp rfl fun _ _ _ => sshiftRight_eq _ _, List.forall_mem_nil _⟩⟩⟩⟩⟩⟩⟩

/-! ### A bit range put into a word -/

theorem sub_lt_width_iff {lo hi j : Nat} (h : lo ≤ j) : j - lo < hi + 1 - lo ↔ j ≤ hi :=
  (Nat.sub_lt_sub_iff_right h).trans Nat.lt_succ_iff

/-- A number moved up to a range: its low bits in the range, nothing outside it. -/
theorem testBit_field {lo hi v j : Nat} : ((v % 2 ^ (hi + 1 - lo)) <<< lo).testBit j =
    if lo ≤ j ∧ j ≤ hi then v.testBit (j - lo) else false := by
  rw [Nat.testBit_shiftLeft, Nat.testBit_mod_two_pow]
  by_cases h : lo ≤ j
  · rw [decide_eq_true h, Bool.true_and, decide_eq_decide.2 (sub_lt_width_iff h)]
    by_cases h' : j ≤ hi
    · rw [if_pos ⟨h, h'⟩, decide_eq_true h', Bool.true_and]
    · rw [if_neg fun x => h' x.2, decide_eq_false h', Bool.false_and]
  · rw [if_neg fun x => h x.1, decide_eq_false h, Bool.false_and]

/-- The bits of a word with a range replaced: those of the value in the range, the word's own outside it. -/
theorem setFld_testBit {n : Nat} (w : BitVec n) (hi lo v j : Nat) (hj : j < n) :
    (setFld w hi lo v).toNat.testBit j = if lo ≤ j ∧ j ≤ hi then v.testBit (j - lo) else w.toNat.testBit j := by
  have hmask : ((2 ^ (hi + 1 - lo) - 1) <<< lo).testBit j = decide (lo ≤ j ∧ j ≤ hi) := by
    rw [Nat.testBit_shiftLeft, Nat.testBit_two_pow_sub_one]
    by_cases h : lo ≤ j
    · rw [decide_eq_true h, Bool.true_and]
      exact decide_eq_decide.2 ((sub_lt_width_iff h).trans (and_iff_right h).symm)
    · rw [decide_eq_false h, Bool.false_and, decide_eq_false fun x => h x.1]
  change (setFld w hi lo v).getLsbD j = if _ then _ else w.getLsbD j
  rw [setFld, BitVec.getLsbD_or, BitVec.getLsbD_and, BitVec.getLsbD_not, BitVec.getLsbD_ofNat, BitVec.getLsbD_ofNat,
    decide_eq_true hj, Bool.true_and, Bool.true_and, Bool.true_and, hmask, testBit_field]
  by_cases h : lo ≤ j ∧ j ≤ hi
  · rw [if_pos h, if_pos h, decide_eq_true h, Bool.not_true, Bool.and_false, Bool.false_or]
  · rw [if_neg h, if_neg h, decide_eq_false h, Bool.not_false, Bool.and_true, Bool.or_false]

/-! ### Branches -/

theorem exec_of_branchOp {c : Nat} {i : Instr} {op : Nat} {f g : BitVec 64 → BitVec 64 → Bool} {s : State}
    (he : exec i s = coreStep c op (branchOp f) s) (hf : ∀ a b, f a b = g a b) : exec i s = coreStep c op (branchOp g) s :=
  (funext fun a => funext (hf a) : f = g) ▸ he

theorem beq_eq_toNat (a b : BitVec 64) : (a == b) = decide (a.toNat = b.toNat) := by
  rw [beq_eq_decide]
  exact decide_eq_decide.2 BitVec.toNat_inj.symm

/-- The opcodes of the branches. -/
def branchOps : List Nat := [0x20, 0x21, 0x22, 0x23, 0x24, 0x25]

theorem bge_eq (a b : BitVec 64) : (!a.slt b) = decide (b.toInt ≤ a.toInt) := by
  rw [BitVec.slt, ← decide_not]
  exact decide_eq_decide.2 not_lt

theorem exec_of_branchTable {c : Fin 34} (s : State) : ∀ r ∈ branchTable c, exec r.1 s = coreStep c r.2.1 (branchOp r.2.2) s :=
  List.forall_mem_cons.2 ⟨exec_of_branchOp rfl beq_eq_toNat,
  List.forall_mem_cons.2 ⟨exec_of_branchOp rfl fun a b => (congrArg (! ·) (beq_eq_toNat a b)).trans decide_not.symm,
  List.forall_mem_cons.2 ⟨rfl, List.forall_mem_cons.2 ⟨rfl, List.forall_mem_cons.2 ⟨rfl,
  List.forall_mem_cons.2 ⟨exec_of_branchOp rfl bge_eq, List.forall_mem_nil _⟩⟩⟩⟩⟩⟩

theorem mem_branchOps {c : Fin 34} {r : Instr × Nat × (BitVec 64 → BitVec 64 → Bool)} (h : r ∈ branchTable c) :
    r.2.1 ∈ branchOps := List.mem_map_of_mem (f := fun r : Instr × Nat × (BitVec 64 → BitVec 64 → Bool) => r.2.1) h

section
variable {k : Core} {w : BitVec 32} (h : k.legal w = true)
include h

theorem legal_branch (ho : opcodeOf w ∈ branchOps) : 0 ≤ relTarget k.pc 16 (immOf w) := by
  have hrow : targetOk (relTarget k.pc 16 (immOf w)) = true := by
    unfold Core.legal at h
    revert h
    revert ho
    generalize opcodeOf w = op
    revert op
    repeat' refine List.forall_mem_cons.2 ⟨id, ?_⟩
    exact List.forall_mem_nil _
  exact of_decide_eq_true (Bool.and_eq_true_iff.1 hrow).1

theorem legal_jal (ho : opcodeOf w = 0x26) : 0 ≤ relTarget k.pc 26 (fld w 25 0) := by
  unfold Core.legal at h
  rw [ho] at h
  have hrow : targetOk (relTarget k.pc 26 (fld w 25 0)) = true := h
  exact of_decide_eq_true (Bool.and_eq_true_iff.1 hrow).1

theorem legal_cldt (ho : opcodeOf w = 0x30) : fld w 9 0 < k.tmpl.length := by
  unfold Core.legal at h
  rw [ho] at h
  have hrow : (_ && decide (fld w 9 0 < k.tmpl.length)) = true := h
  exact of_decide_eq_true (Bool.and_eq_true_iff.1 hrow).2

theorem legal_push (ho : opcodeOf w = 0x32) : fld w 25 23 < 5 := by
  unfold Core.legal at h
  rw [ho] at h
  have hrow : (_ && decide (fld w 25 23 < 5)) = true := h
  exact of_decide_eq_true (Bool.and_eq_true_iff.1 hrow).2

theorem legal_chkp (ho : opcodeOf w = 0x34) :
    fld w 25 23 < 5 ∧ fld w 22 21 ≠ 3 ∧ 0 ≤ relTarget k.pc 16 (immOf w) := by
  unfold Core.legal at h
  rw [ho] at h
  have hrow : (decide (fld w 25 23 < 5) && decide (fld w 22 21 ≠ 3) && targetOk (relTarget k.pc 16 (immOf w)) && _) = true := h
  obtain ⟨hrow, -⟩ := Bool.and_eq_true_iff.1 hrow
  obtain ⟨hrow, ht⟩ := Bool.and_eq_true_iff.1 hrow
  obtain ⟨hq, hs⟩ := Bool.and_eq_true_iff.1 hrow
  exact ⟨of_decide_eq_true hq, of_decide_eq_true hs, of_decide_eq_true (Bool.and_eq_true_iff.1 ht).1⟩

end

/-! ### Relative targets -/

theorem relTarget16_toNat {k : Core} {w : BitVec 32} (h : 0 ≤ relTarget k.pc 16 (immOf w)) :
    ((relTarget k.pc 16 (immOf w)).toNat : Int) = k.pc + signed16 (fld w 15 0) := by
  rw [Int.toNat_of_nonneg h, relTarget, sext16_eq _ (immOf_lt w)]
  rfl

/-! ### What each instruction leaves of the core -/

section
variable {c : Fin 34} {w : BitVec 32} {s : State}

theorem branchOp_pc {k : Core} (f : BitVec 64 → BitVec 64 → Bool) (h : 0 ≤ relTarget k.pc 16 (immOf w)) :
    ((branchOp f w k).pc : Int) = if f (k.greg (fld w 25 21)) (k.greg (fld w 20 16)) = true
      then k.pc + signed16 (fld w 15 0) else k.pc + 1 := by
  change ((if f (k.greg (fld w 25 21)) (k.greg (fld w 20 16)) = true then _ else _ : Nat) : Int) = _
  split
  · exact relTarget16_toNat h
  · rfl

theorem branched_pc (f : BitVec 64 → BitVec 64 → Bool) (h : 0 ≤ relTarget (s.cell c).core.pc 16 (immOf w)) :
    ((((s.onCore c (branchOp f w)).cell c).core.pc : Nat) : Int) =
      if f ((s.cell c).core.greg (fld w 25 21)) ((s.cell c).core.greg (fld w 20 16)) = true
      then (s.cell c).core.pc + signed16 (fld w 15 0) else (s.cell c).core.pc + 1 :=
  (congrArg (fun k : Core => (k.pc : Int)) (State.core_onCore_self _)).trans (branchOp_pc f h)

theorem branched_core (f : BitVec 64 → BitVec 64 → Bool) : ((s.onCore c (branchOp f w)).cell c).core =
    { (s.cell c).core with pc := ((s.onCore c (branchOp f w)).cell c).core.pc } := by
  rw [State.core_onCore_self]
  rfl

theorem jal_pc (h : (s.cell c).core.legal w = true) (ho : opcodeOf w = 0x26) :
    ((((s.onCore c (jalCore w)).cell c).core.pc : Nat) : Int) =
      (s.cell c).core.pc + (if fld w 25 0 < 2 ^ 25 then (fld w 25 0 : Int) else (fld w 25 0 : Int) - 2 ^ 26) := by
  rw [jalCore, onCore_writeRd_pc, Int.toNat_of_nonneg (legal_jal h ho), relTarget, sext_succ_eq (fld_lt w 25 0)]

/-- The core after JR (07 R188). -/
def jrCore (w : BitVec 32) (k : Core) : Core := { k with pc := (k.greg (rs1Of w)).toNat }

/-- The core after CLDT (07 R188). -/
def cldtCore (w : BitVec 32) (k : Core) : Core :=
  { k with cw := (k.tmpl[fld w 9 0]?).getD 0, cwT := some (fld w 9 0), pc := k.pc + 1 }

theorem cldt_core : ((s.onCore c (cldtCore w)).cell c).core = { (s.cell c).core with
    cw := ((s.onCore c (cldtCore w)).cell c).core.cw, cwT := some (fld w 9 0), pc := (s.cell c).core.pc + 1 } := by
  rw [State.core_onCore_self]
  rfl

theorem cldt_cw (h : (s.cell c).core.legal w = true) (ho : opcodeOf w = 0x30) :
    (s.cell c).core.tmpl[fld w 9 0]? = some ((s.onCore c (cldtCore w)).cell c).core.cw := by
  rw [State.core_onCore_self, cldtCore, List.getElem?_eq_getElem (legal_cldt h ho)]
  rfl

/-- The core after CINS (07 R188). -/
def cinsCore (w : BitVec 32) (k : Core) : Core :=
  { k with cw := setFld k.cw (fld w 20 13 + fld w 12 7) (fld w 20 13) (k.greg (rdOf w)).toNat, pc := k.pc + 1 }

theorem cins_core : ((s.onCore c (cinsCore w)).cell c).core = { (s.cell c).core with
    cw := ((s.onCore c (cinsCore w)).cell c).core.cw, pc := (s.cell c).core.pc + 1 } := by
  rw [State.core_onCore_self]
  rfl

theorem cins_cw (j : Nat) (hj : j < 256) : ((s.onCore c (cinsCore w)).cell c).core.cw.toNat.testBit j =
    if fld w 20 13 ≤ j ∧ j ≤ fld w 20 13 + fld w 12 7 then ((s.cell c).core.greg (fld w 25 21)).toNat.testBit (j - fld w 20 13)
    else (s.cell c).core.cw.toNat.testBit j :=
  (congrArg (fun k : Core => k.cw.toNat.testBit j) (State.core_onCore_self _)).trans (setFld_testBit _ _ _ _ _ hj)

/-- The gate a GATE instruction makes pending (07 R201). -/
def gateOf (w : BitVec 32) (k : Core) : GateSpec := ⟨Fin.ofNat 32 (rs1Of w), BitVec.ofNat 32 (k.greg (rdOf w)).toNat⟩

/-- The core after GATE (07 R188). -/
def gateCore (w : BitVec 32) (k : Core) : Core := { k with gate := some (gateOf w k), pc := k.pc + 1 }

/-- The core past a commit point (07 R214). -/
def committedCore (run : CoreRun) (k : Core) : Core := { k with run := run, pc := k.pc + 1, commits := k.commits + 1 }

theorem movkResult_testBit (k : Core) (j : Nat) (hj : j < 64) : (movkResult w k).toNat.testBit j =
    if j / 16 = fld w 17 16 then (fld w 15 0).testBit (j % 16) else (k.greg (fld w 25 21)).toNat.testBit j := by
  rw [movkResult, setFld_testBit _ _ _ _ _ hj]
  have hhalf : 16 * fld w 17 16 ≤ j ∧ j ≤ 16 * fld w 17 16 + 15 ↔ j / 16 = fld w 17 16 := by
    rw [Nat.div_eq_iff (by decide), Nat.mul_comm]
    rfl
  by_cases hh : j / 16 = fld w 17 16
  · rw [if_pos (hhalf.2 hh), if_pos hh, ← hh, ← Nat.mod_eq_sub_mul_div]
    rfl
  · rw [if_neg fun x => hh (hhalf.1 x), if_neg hh]
    rfl

end

/-! ### Commit points -/

theorem atRest_iff (x : Cell) : atRest x = true ↔ x.core.snaps = [] ∧ allCommands x = [] := by simp [atRest]

theorem commitOp_of_runs {c : Fin 34} {w : BitVec 32} {s : State} {op : Nat} {run : CoreRun} (h : Runs c w s)
    (ho : opcodeOf w = op) : commitOp c op run s = if atRest (s.cell c) then
      .next (s.onCore c (committedCore run)) else .next s := by
  rw [commitOp, coreFetch_of_runs h ho]
  rfl

theorem exec_commitPoint {c : Fin 34} {w : BitVec 32} {s : State} (h : Runs c w s) {i : Instr} {op : Nat} {run : CoreRun}
    (hi : (i, op, run) ∈ [(.mark c, 0x35, CoreRun.atMark), (.halt c, 0x28, CoreRun.ended)]) (ho : opcodeOf w = op) :
    exec i s = if atRest (s.cell c) then .next (s.onCore c (committedCore run)) else .next s := by
  have key : ∀ y ∈ [(Instr.mark c, 0x35, CoreRun.atMark), (.halt c, 0x28, CoreRun.ended)], opcodeOf w = y.2.1 →
      exec y.1 s = if atRest (s.cell c) then .next (s.onCore c (committedCore y.2.2)) else .next s :=
    List.forall_mem_cons.2 ⟨fun ho => commitOp_of_runs h ho, List.forall_mem_cons.2 ⟨fun ho => commitOp_of_runs h ho,
      List.forall_mem_nil _⟩⟩
  exact key _ hi ho

/-! ### Pushes -/

/-- The entry a PUSH appends (07 R188, R194). -/
def pushedEntry (s : State) (c : Nat) (w : BitVec 32) : QEntry :=
  let k := (s.cell c).core
  { word := k.cw, seqNo := k.seqNo, fb := flag w 22, gate := k.gate, lcell := lcellAt s c k.pc, chan := chanOf s c k.cwT,
    ord := nextOrd s c (lcellAt s c k.pc) }

/-- A cell with an entry appended to a queue, its gate consumed and its sequence counter moved on. -/
def pushEntry (q : Nat) (e : QEntry) (x : Cell) : Cell :=
  { x with
    queues := vmod x.queues q (· ++ [e]),
    core := { x.core with
      seqNo := x.core.seqNo + 1, gate := none, pc := x.core.pc + 1,
      lastPush := vmod x.core.lastPush q fun _ => some ⟨e.seqNo, none, false⟩ } }

/-- What a PUSH that need not wait leaves. -/
def pushed (c : Fin 34) (w : BitVec 32) (s : State) : State := s.onCell c (pushEntry (fld w 25 23) (pushedEntry s c w))

section
variable {c : Fin 34} {w : BitVec 32} {s : State}

theorem exec_push (h : Runs c w s) (ho : opcodeOf w = 0x32) :
    exec (.push c) s = .next (if pushWaits (s.cell c) (fld w 25 23) then s else pushed c w s) := by
  change execPush c s = _
  rw [execPush, coreFetch_of_runs h ho]
  dsimp only
  split <;> rfl

theorem pushed_frame : Only [.cells] s (pushed c w s) := (Keeps.onCell (by decide) (.refl [.cells] s)).1

theorem pushed_cell_ne (n : Nat) (h : n ≠ c.val) : (pushed c w s).cell n = s.cell n := State.cell_onCell_ne _ _ _ _ h

/-- What a PUSH appends, in the cell it leaves (07 R188, R194). -/
theorem pushed_cell_self : (pushed c w s).cell c = pushEntry (fld w 25 23) (pushedEntry s c w) (s.cell c) :=
  State.cell_onCell_self _ _ _ c.isLt

theorem pushed_cell : (pushed c w s).cell c =
    { s.cell c with queues := ((pushed c w s).cell c).queues, core := ((pushed c w s).cell c).core } := by
  rw [pushed_cell_self]
  rfl

theorem pushed_queue (hq : fld w 25 23 < 5) : vget ((pushed c w s).cell c).queues (fld w 25 23) [] =
    vget (s.cell c).queues (fld w 25 23) [] ++ [pushedEntry s c w] :=
  (congrArg (fun x : Cell => vget x.queues _ []) pushed_cell_self).trans (vget_vmod_self _ _ _ _ hq)

theorem pushed_queue_ne (q : Nat) (h : q ≠ fld w 25 23) :
    vget ((pushed c w s).cell c).queues q [] = vget (s.cell c).queues q [] :=
  (congrArg (fun x : Cell => vget x.queues q []) pushed_cell_self).trans (vget_vmod_ne _ _ _ _ _ h)

theorem pushed_core : ((pushed c w s).cell c).core = { (s.cell c).core with
    seqNo := (s.cell c).core.seqNo + 1, gate := none, pc := (s.cell c).core.pc + 1,
    lastPush := ((pushed c w s).cell c).core.lastPush } := by
  rw [pushed_cell_self]
  rfl

theorem pushed_lastPush (hq : fld w 25 23 < 5) : vget ((pushed c w s).cell c).core.lastPush (fld w 25 23) none =
    some ⟨(s.cell c).core.seqNo, none, false⟩ :=
  (congrArg (fun x : Cell => vget x.core.lastPush _ none) pushed_cell_self).trans (vget_vmod_self _ _ _ _ hq)

end

/-! ### Check points -/

theorem predictionFailed_iff (cp : CheckPoint) (n : Counts) :
    predictionFailed cp n = true ↔ cp.threshold.toNat < sat32 (selectCount cp.count n) := by
  simp [predictionFailed]

/-- The count a check point selects, as a record holds it (07 R197, R205). -/
theorem sat32_selectCount (i : Nat) (hi : i < 4) (n : Counts) : sat32 (selectCount (BitVec.ofNat 2 i) n) = selected i n := by
  unfold sat32 selectCount selected
  interval_cases i <;> rfl

/-- The squashed record is only appended. -/
theorem writeSquashed_eq (c q : Nat) (e : QEntry) (s : State) : writeSquashed c q e s =
    pushRecord c (recordWord q e.fb (cmdTag q e.word) e.seqNo.toNat stSquashed Counts.reset 0) s := rfl

theorem writeSquashed_core (c q : Nat) (e : QEntry) (s : State) (m : Nat) :
    ((writeSquashed c q e s).cell m).core = (s.cell m).core := by
  rw [writeSquashed_eq, pushRecord, State.cell_onCell]
  split
  · rename_i h
    rw [h.1]
  · rfl

theorem freeProvisional_cells (c : Nat) (s : State) (m : Nat) : (freeProvisional c s).cell m = s.cell m :=
  congrArg (vget · m Cell.reset) ((freeProvisional_keeps (fl := [.mem, .free]) c (by decide) (by decide) (.refl _ s)).1
    .cells (by decide))

theorem squashFrom_core (c : Nat) (n : BitVec 32) (s : State) (m : Nat) :
    ((squashFrom c n s).cell m).core = (s.cell m).core := by
  unfold squashFrom
  refine forEach_induction (P := fun u => (u.cell m).core = (s.cell m).core)
    (fun x u h => (writeSquashed_core _ _ _ u m).trans h) ?_ _
  rw [freeProvisional_cells, State.cell_onCell]
  split
  · rename_i h
    rw [h.1]
    rfl
  · rfl

theorem squash_run (c : Fin 34) (cp : CheckPoint) (s : State) : ((squash c cp s).cell c).core.run = .squashing cp := by
  unfold squash
  dsimp only
  rw [State.core_onCore_self]

theorem squash_core_snaps (c : Fin 34) (cp : CheckPoint) (s : State) : ((squash c cp s).cell c).core.snaps =
    (s.cell c).core.snaps.takeWhile fun x => decide (x ≠ cp) := by
  unfold squash
  dsimp only
  rw [State.core_onCore_self]
  dsimp only
  rw [squashFrom_core]
  split <;> rfl

/-- The check point a CHKP opens on the last command of its queue (07 R205). -/
def checkPointOf (k : Core) (w : BitVec 32) (l : LastPush) : CheckPoint :=
  { queue := Fin.ofNat 5 (fld w 25 23), target := l.seqNo, count := BitVec.ofNat 2 (fld w 22 21),
    threshold := k.greg (rs1Of w), regs := k.g, cw := k.cw, cwT := k.cwT, gate := k.gate, seqNo := k.seqNo,
    fallback := (relTarget k.pc 16 (immOf w)).toNat }

section
variable {c : Fin 34} {w : BitVec 32} {s : State} {l : LastPush}

theorem exec_chkp (h : Runs c w s) (ho : opcodeOf w = 0x34) :
    exec (.chkp c) s = if (s.cell c).core.snaps.length ≥ 8 then .next s else .next (openCheckPoint c w s) := by
  change execChkp c s = _
  rw [execChkp, coreFetch_of_runs h ho]

theorem exec_chkp_of_room (h : Runs c w s) (ho : opcodeOf w = 0x34) (hl : (s.cell c).core.snaps.length < 8) :
    exec (.chkp c) s = .next (openCheckPoint c w s) := (exec_chkp h ho).trans (if_neg (Nat.not_le_of_lt hl))

theorem openCheckPoint_squashed (hp : vget (s.cell c).core.lastPush (fld w 25 23) none = some l) (hs : l.squashed = true) :
    openCheckPoint c w s = s.onCore c fun k => { k with pc := k.pc + 1 } := by
  unfold openCheckPoint
  dsimp only
  rw [hp]
  exact if_pos hs

/-- The check point opened, before it resolves: a core one index further with one more check point. -/
def pointOpened (c : Nat) (w : BitVec 32) (l : LastPush) (s : State) : State :=
  (s.onCore c fun k => { k with pc := k.pc + 1 }).onCore c fun k =>
    { k with snaps := k.snaps ++ [checkPointOf (s.cell c).core w l] }

theorem openCheckPoint_pointOpened (hp : vget (s.cell c).core.lastPush (fld w 25 23) none = some l) (hs : l.squashed = false) :
    openCheckPoint c w s = match l.counts with
      | some n => resolveAll c n [checkPointOf (s.cell c).core w l] (pointOpened c w l s)
      | none => pointOpened c w l s := by
  unfold openCheckPoint
  dsimp only
  rw [hp]
  exact if_neg (hs ▸ Bool.false_ne_true)

theorem openCheckPoint_open (hp : vget (s.cell c).core.lastPush (fld w 25 23) none = some l) (hs : l.squashed = false)
    (hn : l.counts = none) : openCheckPoint c w s = pointOpened c w l s := by
  rw [openCheckPoint_pointOpened hp hs, hn]

theorem openCheckPoint_completed {n : Counts} (hp : vget (s.cell c).core.lastPush (fld w 25 23) none = some l)
    (hs : l.squashed = false) (hn : l.counts = some n) :
    openCheckPoint c w s = resolveAll c n [checkPointOf (s.cell c).core w l] (pointOpened c w l s) := by
  rw [openCheckPoint_pointOpened hp hs, hn]

theorem pointOpened_core : ((pointOpened c w l s).cell c).core = { (s.cell c).core with
    snaps := (s.cell c).core.snaps ++ [checkPointOf (s.cell c).core w l], pc := (s.cell c).core.pc + 1 } := by
  rw [pointOpened, State.core_onCore_self, State.core_onCore_self]

theorem coreOnly_trans {t u : State} (h : CoreOnly c s t) (g : CoreOnly c t u) : CoreOnly c s u :=
  ⟨h.1.trans g.1, fun n hn => (g.2.1 n hn).trans (h.2.1 n hn),
    g.2.2.trans (congrArg (fun x : Cell => { x with core := (u.cell c).core }) h.2.2)⟩

theorem pointOpened_coreOnly : CoreOnly c s (pointOpened c w l s) :=
  coreOnly_trans (onCore_coreOnly _) (onCore_coreOnly _)

theorem takeWhile_ne_self (cp : CheckPoint) : ([] ++ [cp]).takeWhile (fun x => decide (x ≠ cp)) = [] :=
  List.takeWhile_cons_of_neg (by simp)

theorem filter_ne_self (cp : CheckPoint) : ([] ++ [cp]).filter (fun x => decide (x ≠ cp)) = [] :=
  List.filter_cons_of_neg (by simp)

theorem resolveAll_failed {n : Counts} {cp : CheckPoint} (h : cp.threshold.toNat < sat32 (selectCount cp.count n)) :
    resolveAll c n [cp] s = squash c cp s :=
  if_pos ((predictionFailed_iff cp n).2 h)

theorem resolveAll_passed {n : Counts} {cp : CheckPoint} (h : sat32 (selectCount cp.count n) ≤ cp.threshold.toNat) :
    resolveAll c n [cp] s = s.onCore c fun k => { k with snaps := k.snaps.filter fun x => decide (x ≠ cp) } :=
  if_neg fun hf => ((predictionFailed_iff cp n).1 hf).not_ge h

end

section
variable {c : Fin 34} {w : BitVec 32} {s : State} {l : LastPush}

theorem checkPointOf_fallback (h : (s.cell c).core.legal w = true) (ho : opcodeOf w = 0x34) :
    ((checkPointOf (s.cell c).core w l).fallback : Int) = (s.cell c).core.pc + signed16 (fld w 15 0) :=
  relTarget16_toNat (legal_chkp h ho).2.2

/-- A completed check point is squashed: the only one that was open goes with it. -/
theorem squashed_snaps (hsn : (s.cell c).core.snaps = []) :
    ((squash c (checkPointOf (s.cell c).core w l) (pointOpened c w l s)).cell c).core.snaps = [] := by
  rw [squash_core_snaps, pointOpened_core, hsn]
  exact takeWhile_ne_self _

theorem squashed_frame : Only [.cells, .parts, .mem, .free] s (squash c (checkPointOf (s.cell c).core w l) (pointOpened c w l s)) :=
  (pointOpened_coreOnly.1.mono (by decide)).trans
    (squash_keeps _ _ (by decide) (by decide) (by decide) (by decide) (.refl _ _)).1

/-- A check point that is closed as it is opened. -/
def pointClosed (c : Nat) (w : BitVec 32) (l : LastPush) (s : State) : State :=
  (pointOpened c w l s).onCore c fun k => { k with snaps := k.snaps.filter fun x => decide (x ≠ checkPointOf (s.cell c).core w l) }

theorem pointClosed_coreOnly : CoreOnly c s (pointClosed c w l s) := coreOnly_trans pointOpened_coreOnly (onCore_coreOnly _)

theorem pointClosed_core (hsn : (s.cell c).core.snaps = []) :
    ((pointClosed c w l s).cell c).core = { (s.cell c).core with pc := (s.cell c).core.pc + 1 } := by
  have hone : ((s.cell c).core.snaps ++ [checkPointOf (s.cell c).core w l]).filter
      (fun x => decide (x ≠ checkPointOf (s.cell c).core w l)) = (s.cell c).core.snaps := by
    rw [hsn]
    exact filter_ne_self _
  rw [pointClosed, State.core_onCore_self, pointOpened_core, hone]

section
variable (h : Runs c w s) (ho : opcodeOf w = 0x34) (hl : (s.cell c).core.snaps.length < 8)
  (hp : vget (s.cell c).core.lastPush (fld w 25 23) none = some l)
include h ho hl hp

theorem exec_chkp_open (hs : l.squashed = false) (hn : l.counts = none) :
    exec (.chkp c) s = .next (pointOpened c w l s) :=
  (exec_chkp_of_room h ho hl).trans (next_congr (openCheckPoint_open hp hs hn))

theorem exec_chkp_squashed (hs : l.squashed = true) : exec (.chkp c) s = .next (s.onCore c fun k => { k with pc := k.pc + 1 }) :=
  (exec_chkp_of_room h ho hl).trans (next_congr (openCheckPoint_squashed hp hs))

variable {n : Counts} (hs : l.squashed = false) (hn : l.counts = some n)
include hs hn

theorem exec_chkp_failed (hf : ((s.cell c).core.greg (fld w 20 16)).toNat < selected (fld w 22 21) n) :
    exec (.chkp c) s = .next (squash c (checkPointOf (s.cell c).core w l) (pointOpened c w l s)) :=
  (exec_chkp_of_room h ho hl).trans (next_congr ((openCheckPoint_completed hp hs hn).trans
    (resolveAll_failed (hf.trans_eq (sat32_selectCount _ (fld_lt w 22 21) n).symm))))

theorem exec_chkp_passed (hf : selected (fld w 22 21) n ≤ ((s.cell c).core.greg (fld w 20 16)).toNat) :
    exec (.chkp c) s = .next (pointClosed c w l s) :=
  (exec_chkp_of_room h ho hl).trans (next_congr ((openCheckPoint_completed hp hs hn).trans
    (resolveAll_passed ((sat32_selectCount _ (fld_lt w 22 21) n).trans_le hf))))

end

end

theorem resolveAll_one (c : Nat) (n : Counts) (cp : CheckPoint) (s : State) : resolveAll c n [cp] s =
    if predictionFailed cp n then squash c cp s
    else s.onCore c fun k => { k with snaps := k.snaps.filter fun x => decide (x ≠ cp) } := rfl

end Sys2Proof.Machine

namespace Sys2Proof.Proofs

open Machine Claims

/-- Settles O11: the rows of the two tables by their operations, MOVK by the bits of a replaced halfword. -/
theorem arithmeticInstructions : Obligations.ArithmeticInstructions :=
  ⟨fun c w s h r hr ho => ⟨s.onCore c (regOp r.2.2 w), (exec_of_aluTable s r hr).trans (coreStep_of_runs h ho),
      onCore_coreOnly _, onCore_writeRd_regsOnly _ _, onCore_writeRd_pc _ _, onCore_writeRd_wrote _ _ (rdOf_lt w)⟩,
    fun c w s h =>
      ⟨fun r hr ho => ⟨s.onCore c (immOp r.2.2 w), (exec_of_immTable s r hr).trans (coreStep_of_runs h ho),
        onCore_coreOnly _, onCore_writeRd_regsOnly _ _, onCore_writeRd_pc _ _, onCore_writeRd_wrote _ _ (rdOf_lt w)⟩,
      fun ho => ⟨s.onCore c (writeRd (rdOf w) (movkResult w) fun k => k.pc + 1), movkResult w (s.cell c).core, exec_movk h ho,
        onCore_coreOnly _, onCore_writeRd_regsOnly _ _, onCore_writeRd_pc _ _, onCore_writeRd_wrote _ _ (rdOf_lt w),
        movkResult_testBit _⟩,
      fun ho => ⟨s.onCore c (writeRd (rdOf w) (fun k => vget k.p (fld w 6 0) 0) fun k => k.pc + 1), exec_prd h ho,
        onCore_coreOnly _, onCore_writeRd_regsOnly _ _, onCore_writeRd_pc _ _, onCore_writeRd_wrote _ _ (rdOf_lt w)⟩⟩⟩

/-- Settles O12: PUSH by the entry it appends, CHKP by what the last command of its queue has come to. -/
theorem pushesAndCheckPoints : Obligations.PushesAndCheckPoints :=
  ⟨fun c w s h ho =>
    ⟨fun hw => (exec_push h ho).trans (next_ite_of_pos hw),
      fun hw => ⟨pushed c w s, pushedEntry s c w, (exec_push h ho).trans (next_ite_of_neg (hw ▸ Bool.false_ne_true)),
        pushed_frame, pushed_cell_ne, pushed_cell, pushed_queue (legal_push h.2.2.2.2 ho), pushed_queue_ne, rfl, rfl, rfl, rfl,
        pushed_core, pushed_lastPush (legal_push h.2.2.2.2 ho)⟩⟩,
    fun c w s h ho =>
    ⟨fun hl => (exec_chkp h ho).trans (if_pos (Nat.le_of_eq hl.symm)),
      fun l hl hp hs hn => ⟨pointOpened c w l s, checkPointOf (s.cell c).core w l, exec_chkp_open h ho hl hp hs hn,
        pointOpened_coreOnly, pointOpened_core, Nat.mod_eq_of_lt (legal_chkp h.2.2.2.2 ho).1, rfl,
        Nat.mod_eq_of_lt (fld_lt w 22 21), rfl, rfl, rfl, rfl, rfl, checkPointOf_fallback h.2.2.2.2 ho⟩,
      fun l hl hp =>
        ⟨fun hs => ⟨s.onCore c fun k => { k with pc := k.pc + 1 }, exec_chkp_squashed h ho hl hp hs, onCore_coreOnly _,
          State.core_onCore_self _⟩,
        fun _ hs hn hsn =>
          ⟨fun hf => ⟨squash c (checkPointOf (s.cell c).core w l) (pointOpened c w l s), checkPointOf (s.cell c).core w l,
            exec_chkp_failed h ho hl hp hs hn hf, squash_run _ _ _, squashed_snaps hsn, rfl, rfl,
            checkPointOf_fallback h.2.2.2.2 ho, squashed_frame⟩,
          fun hf => ⟨pointClosed c w l s, exec_chkp_passed h ho hl hp hs hn hf, pointClosed_coreOnly, pointClosed_core hsn⟩⟩⟩⟩⟩

/-- Settles O13: branches by their tables, the other instructions by the update of the core each is. -/
theorem branchesCommandWordsAndHalt : Obligations.BranchesCommandWordsAndHalt :=
  ⟨fun c w s h =>
    ⟨fun r hr ho => ⟨s.onCore c (branchOp r.2.2 w), (exec_of_branchTable s r hr).trans (coreStep_of_runs h ho), onCore_coreOnly _,
        branched_core _, branched_pc _ (legal_branch h.2.2.2.2 (ho ▸ mem_branchOps hr))⟩,
      fun ho => ⟨s.onCore c (jalCore w), exec_jal h ho, onCore_coreOnly _, onCore_writeRd_regsOnly _ _,
        onCore_writeRd_wrote _ _ (by decide), jal_pc h.2.2.2.2 ho⟩,
      fun ho => ⟨s.onCore c (jrCore w), coreStep_of_runs h ho, onCore_coreOnly _, State.core_onCore_self _⟩⟩,
    fun c w s h =>
    ⟨fun ho => ⟨s.onCore c (cldtCore w), coreStep_of_runs h ho, onCore_coreOnly _, cldt_cw h.2.2.2.2 ho, cldt_core⟩,
      fun ho => ⟨s.onCore c (cinsCore w), coreStep_of_runs h ho, onCore_coreOnly _, cins_core, cins_cw⟩,
      fun ho => ⟨s.onCore c (gateCore w), gateOf w (s.cell c).core, coreStep_of_runs h ho, onCore_coreOnly _,
        State.core_onCore_self _, Nat.mod_eq_of_lt (fld_lt w 20 16), BitVec.toNat_ofNat _ _⟩⟩,
    fun c w s h i op run hi ho =>
    ⟨fun hs ha => ⟨s.onCore c (committedCore run), (exec_commitPoint h hi ho).trans (if_pos ((atRest_iff _).2 ⟨hs, ha⟩)),
        onCore_coreOnly _, State.core_onCore_self _⟩,
      fun hn => (exec_commitPoint h hi ho).trans (if_neg fun ha => hn ((atRest_iff _).1 ha))⟩⟩

end Sys2Proof.Proofs
end

section
/-! SUPPORT. Completion records, the commands of a cell, squashes and stops: what each leaves of a cell. -/

set_option Elab.async false

namespace Sys2Proof.Machine

open Claims

/-! ### The fields of a completion record (07 R197) -/

theorem sat32_lt (n : Nat) : sat32 n < 2 ^ 32 :=
  Nat.lt_of_le_of_lt (Nat.min_le_right n _) (by decide)

/-- A number put together from parts, each with the place of its lowest bit, the highest part first. -/
def packed : List (Nat × Nat) → Nat
  | [] => 0
  | (v, lo) :: l => v * 2 ^ lo + packed l

/-- Each part ends below the place of the one before it. -/
def Fits : Nat → List (Nat × Nat) → Prop
  | _, [] => True
  | top, (v, lo) :: l => lo ≤ top ∧ v < 2 ^ (top - lo) ∧ Fits lo l

theorem packed_lt : ∀ {top : Nat} {l : List (Nat × Nat)}, Fits top l → packed l < 2 ^ top
  | top, [], _ => Nat.two_pow_pos top
  | top, (v, lo) :: l, ⟨hlo, hv, h⟩ => by
    have := field_add_lt hv (packed_lt h)
    rwa [Nat.sub_add_cancel hlo] at this

theorem fits_of_append {r : List (Nat × Nat)} : ∀ {top : Nat} {pre : List (Nat × Nat)}, Fits top (pre ++ r) →
    ∃ n, Fits n r
  | top, [], h => ⟨top, h⟩
  | _, _ :: _, ⟨_, _, h⟩ => fits_of_append h

theorem field_above {lo w m : Nat} (h : lo + w ≤ m) (v k : Nat) : (v * 2 ^ m + k) / 2 ^ lo % 2 ^ w = k / 2 ^ lo % 2 ^ w := by
  rw [← Nat.mod_mul_right_div_self, ← Nat.mod_mul_right_div_self, ← Nat.pow_add, Nat.add_mod, Nat.mod_eq_zero_of_dvd (Dvd.dvd.mul_left (Nat.pow_dvd_pow 2 h) v), Nat.zero_add, Nat.mod_mod]

/-- Parts above a field are not seen in it. -/
theorem packed_above {lo w : Nat} {r : List (Nat × Nat)} {pre : List (Nat × Nat)} (h : (pre.map Prod.snd).all (lo + w ≤ ·) = true) :
    packed (pre ++ r) / 2 ^ lo % 2 ^ w = packed r / 2 ^ lo % 2 ^ w := by
  induction pre with
  | nil => rfl
  | cons p pre ih =>
    obtain ⟨hp, h⟩ := Bool.and_eq_true_iff.1 h
    exact (field_above (of_decide_eq_true hp) p.1 _).trans (ih h)

theorem packed_field {top lo w v : Nat} {pre r : List (Nat × Nat)} (hf : Fits top (pre ++ (v, lo) :: r))
    (hp : (pre.map Prod.snd).all (lo + w ≤ ·) = true) (hv : v < 2 ^ w) :
    packed (pre ++ (v, lo) :: r) / 2 ^ lo % 2 ^ w = v := by
  obtain ⟨n, _, _, h⟩ := fits_of_append hf
  rw [packed_above hp, packed, Nat.mul_comm, Nat.mul_add_div (Nat.two_pow_pos lo), Nat.div_eq_of_lt (packed_lt h),
    Nat.add_zero, Nat.mod_eq_of_lt hv]

/-- The parts of a record. -/
def recordParts (queue : Nat) (fb : Bool) (tag seqNo status : Nat) (c : Counts) (aux : Nat) : List (Nat × Nat) :=
  [(status % 256, 248), (queue % 8, 245), (fb.toNat, 244), (tag % 2 ^ 16, 224), (seqNo % 2 ^ 32, 192),
    (sat32 c.sat, 160), (sat32 c.flu, 128), (sat32 c.awn, 96), (aux % 2 ^ 64, 0)]

section
variable (queue : Nat) (fb : Bool) (tag seqNo status : Nat) (c : Counts) (aux : Nat)

omit queue fb tag seqNo status c aux in
theorem add_assoc_nine (a b c d e f g h i : Nat) :
    a + b + c + d + e + f + g + h + i = a + (b + (c + (d + (e + (f + (g + (h + i))))))) :=
  (Nat.add_assoc _ h i).trans ((Nat.add_assoc _ g _).trans ((Nat.add_assoc _ f _).trans ((Nat.add_assoc _ e _).trans
    ((Nat.add_assoc _ d _).trans ((Nat.add_assoc _ c _).trans (Nat.add_assoc a b _))))))

theorem recordParts_fits : Fits 256 (recordParts queue fb tag seqNo status c aux) :=
  ⟨by decide, Nat.mod_lt _ (by decide), by decide, Nat.mod_lt _ (by decide), by decide, Bool.toNat_lt fb, by decide,
    Nat.lt_trans (Nat.mod_lt _ (by decide)) (by decide), by decide, Nat.mod_lt _ (by decide), by decide, sat32_lt _,
    by decide, sat32_lt _, by decide, sat32_lt _, by decide, Nat.lt_trans (Nat.mod_lt _ (by decide)) (by decide), trivial⟩

theorem recordWord_eq : recordWord queue fb tag seqNo status c aux =
    BitVec.ofNat 256 (packed (recordParts queue fb tag seqNo status c aux)) := by
  have hfb : (if fb then 2 ^ 244 else 0) = fb.toNat * 2 ^ 244 := by cases fb <;> rfl
  rw [recordWord, hfb, add_assoc_nine, ← Nat.mul_one (aux % 2 ^ 64)]
  rfl

/-- A field of a record is the field of its number. -/
theorem fld_recordWord {hi lo v : Nat}
    (h : packed (recordParts queue fb tag seqNo status c aux) / 2 ^ lo % 2 ^ (hi + 1 - lo) = v) :
    fld (recordWord queue fb tag seqNo status c aux) hi lo = v := by
  rw [recordWord_eq, fld, bits, BitVec.toNat_ofNat, Nat.mod_eq_of_lt (packed_lt (recordParts_fits ..)),
    Nat.shiftRight_eq_div_pow, h]

theorem recordWord_status : fld (recordWord queue fb tag seqNo status c aux) 255 248 = status % 256 :=
  fld_recordWord _ _ _ _ _ _ _ (packed_field (pre := []) (recordParts_fits ..) rfl (Nat.mod_lt _ (by decide)))

theorem recordWord_queue : fld (recordWord queue fb tag seqNo status c aux) 247 245 = queue % 8 :=
  fld_recordWord _ _ _ _ _ _ _ (packed_field (pre := [_]) (recordParts_fits ..) rfl (Nat.mod_lt _ (by decide)))

theorem recordWord_tag : fld (recordWord queue fb tag seqNo status c aux) 239 224 = tag % 2 ^ 16 :=
  fld_recordWord _ _ _ _ _ _ _ (packed_field (pre := [_, _, _]) (recordParts_fits ..) rfl (Nat.mod_lt _ (by decide)))

theorem recordWord_seqNo : fld (recordWord queue fb tag seqNo status c aux) 223 192 = seqNo % 2 ^ 32 :=
  fld_recordWord _ _ _ _ _ _ _ (packed_field (pre := [_, _, _, _]) (recordParts_fits ..) rfl (Nat.mod_lt _ (by decide)))

theorem recordWord_sat : fld (recordWord queue fb tag seqNo status c aux) 191 160 = sat32 c.sat :=
  fld_recordWord _ _ _ _ _ _ _ (packed_field (pre := [_, _, _, _, _]) (recordParts_fits ..) rfl (sat32_lt _))

theorem recordWord_flu : fld (recordWord queue fb tag seqNo status c aux) 159 128 = sat32 c.flu :=
  fld_recordWord _ _ _ _ _ _ _ (packed_field (pre := [_, _, _, _, _, _]) (recordParts_fits ..) rfl (sat32_lt _))

theorem recordWord_awn : fld (recordWord queue fb tag seqNo status c aux) 127 96 = sat32 c.awn :=
  fld_recordWord _ _ _ _ _ _ _ (packed_field (pre := [_, _, _, _, _, _, _]) (recordParts_fits ..) rfl (sat32_lt _))

theorem recordWord_aux : fld (recordWord queue fb tag seqNo status c aux) 63 0 = aux % 2 ^ 64 :=
  fld_recordWord _ _ _ _ _ _ _ (packed_field (pre := [_, _, _, _, _, _, _, _]) (recordParts_fits ..) rfl
    (Nat.mod_lt _ (by decide)))

/-- A SQUASHED record holds no count and no AUX (07 R210). -/
theorem recordWord_squashed_zero : fld (recordWord queue fb tag seqNo status Counts.reset 0) 191 0 = 0 := by
  have h := packed_above (lo := 0) (w := 192) (r := [(0, 160), (0, 128), (0, 96), (0, 0)])
    (pre := [(status % 256, 248), (queue % 8, 245), (fb.toNat, 244), (tag % 2 ^ 16, 224), (seqNo % 2 ^ 32, 192)]) rfl
  exact fld_recordWord _ _ _ _ _ _ _ (h.trans rfl)

end

/-! ### The ring of records -/

/-- The youngest 1,024 of a list. -/
def newest {α : Type} (l : List α) : List α := l.drop (l.length - 1024)

theorem tail_of_tail (k m : Nat) : k - 1024 + (k + m - (k - 1024) - 1024) = k + m - 1024 := by
  rw [Nat.sub_sub]
  rcases Nat.le_total 1024 k with h | h
  · rw [Nat.sub_add_cancel h, Nat.add_sub_cancel_left, Nat.sub_add_comm h]
  · rw [Nat.sub_eq_zero_of_le h, Nat.zero_add, Nat.zero_add]

theorem newest_append_newest {α : Type} (a b : List α) : newest (newest a ++ b) = newest (a ++ b) := by
  unfold newest
  rw [← List.drop_append_of_le_length (Nat.sub_le _ _), List.drop_drop, List.length_drop, List.length_append, tail_of_tail]

theorem newest_append_of_length_le {α : Type} {a b : List α} (hl : b.length ≤ 1024) :
    newest (a ++ b) = a.drop (a.length + b.length - 1024) ++ b := by
  unfold newest
  rw [List.length_append, List.drop_append_of_le_length (Nat.sub_le_iff_le_add.2 (Nat.add_le_add_left hl _))]

theorem mem_newest_append {α : Type} {a b : List α} {x : α} (hx : x ∈ b) (hl : b.length ≤ 1024) : x ∈ newest (a ++ b) := by
  rw [newest_append_of_length_le hl]
  exact List.mem_append_right _ hx

theorem newest_append_getLast? {α : Type} (a : List α) (x : α) : (newest (a ++ [x])).getLast? = some x := by
  rw [newest_append_of_length_le (by simp), List.getLast?_concat]

/-- A cell with a record at the end of its ring (07 R198). -/
def addRecord (r : BitVec 256) (x : Cell) : Cell :=
  { x with
    recs := newest (x.recs ++ [r]),
    firstFault := if (fld r 255 248 ≠ stOk ∧ fld r 255 248 ≠ stFallback ∧ fld r 255 248 ≠ stSquashed) ∧ x.firstFault = 0
      then r else x.firstFault }

theorem pushRecord_eq (c : Nat) (r : BitVec 256) (s : State) : pushRecord c r s = s.onCell c (addRecord r) := rfl

theorem pushRecord_cell (c : Fin 34) (r : BitVec 256) (s : State) : (pushRecord c r s).cell c = { s.cell c with
    recs := newest ((s.cell c).recs ++ [r]), firstFault := ((pushRecord c r s).cell c).firstFault } := by
  rw [pushRecord_eq, State.cell_onCell_self _ _ _ c.isLt, addRecord]

theorem pushRecord_recs (c : Fin 34) (r : BitVec 256) (s : State) :
    ((pushRecord c r s).cell c).recs = newest ((s.cell c).recs ++ [r]) := by
  rw [pushRecord_cell]

theorem pushRecord_cell_ne {c : Fin 34} {n : Nat} (h : n ≠ c) (r : BitVec 256) (s : State) :
    (pushRecord c r s).cell n = s.cell n := State.cell_onCell_ne _ _ _ _ h

/-! ### The commands of a cell -/

theorem vget_eq_getD {α : Type} {n : Nat} (v : Vector α n) (i : Nat) (d : α) : vget v i d = (v.toList[i]?).getD d := by
  unfold vget
  split
  · rw [List.getElem?_eq_getElem (by rwa [Vector.length_toList])]
    rfl
  · rw [List.getElem?_eq_none (by rwa [Vector.length_toList, ← Nat.not_lt])]
    rfl

theorem mem_map_pair {α : Type} {l : List α} {i : Nat} {y : Nat × α} :
    y ∈ (l.map fun e => (i, e)) ↔ y.1 = i ∧ y.2 ∈ l :=
  List.mem_map.trans ⟨fun h => h.elim fun _ h => h.2 ▸ ⟨rfl, h.1⟩, fun h => ⟨y.2, h.2, Prod.ext h.1.symm rfl⟩⟩

theorem mem_zipIdx_flatten {α : Type} {ls : List (List α)} {y : Nat × α} :
    y ∈ (ls.zipIdx.map fun q => q.1.map fun e => (q.2, e)).flatten ↔ y.2 ∈ (ls[y.1]?).getD [] := by
  refine List.mem_flatMap.trans ⟨fun h => ?_, fun h => ?_⟩
  · obtain ⟨q, hq, hy⟩ := h
    rw [(mem_map_pair.1 hy).1, List.mk_mem_zipIdx_iff_getElem?.1 hq]
    exact (mem_map_pair.1 hy).2
  · match hi : ls[y.1]?, h with
    | some q, h => exact ⟨(q, y.1), List.mk_mem_zipIdx_iff_getElem?.2 hi, mem_map_pair.2 ⟨rfl, h⟩⟩
    | none, h => exact absurd h List.not_mem_nil

theorem mem_queues {x : Cell} {y : Nat × QEntry} :
    y ∈ (x.queues.toList.zipIdx.map fun q => q.1.map fun e => (q.2, e)).flatten ↔
      y.2 ∈ vget x.queues y.1 [] := by
  rw [vget_eq_getD]
  exact mem_zipIdx_flatten

theorem mem_allCommands {x : Cell} {y : Nat × QEntry} :
    y ∈ allCommands x ↔ y ∈ inProgress x ∨ y.2 ∈ vget x.queues y.1 [] := by
  rw [allCommands, List.mem_append, mem_queues]

/-- The commands in progress, engine by engine. -/
theorem eq_map_toList {α β : Type} {f : α → β} {g : Option α → List β} (h0 : g none = []) (h1 : ∀ r, g (some r) = [f r]) :
    ∀ o : Option α, g o = o.toList.map f
  | none => h0
  | some r => h1 r

/-- The commands in progress, engine by engine. -/
theorem inProgress_eq (x : Cell) : inProgress x =
    x.me.run.toList.map (fun r => (0, r.entry)) ++ x.me.done.toList.map (fun d => (0, d.1)) ++
    x.ve.run.toList.map (fun r => (1, r.entry)) ++ x.ve.done.toList.map (fun d => (1, d.1)) ++
    x.qe.done.toList.map (fun d => (2, d.1)) ++
    x.ue.run.toList.map (fun r => (3, r.entry)) ++ x.ue.done.toList.map (fun d => (3, d.1)) ++
    x.dm.map fun r => (4, r.entry) :=
  congrArg (· ++ _) (congrArg₂ (· ++ ·) (congrArg₂ (· ++ ·) (congrArg₂ (· ++ ·) (congrArg₂ (· ++ ·)
    (congrArg₂ (· ++ ·) (congrArg₂ (· ++ ·)
      (eq_map_toList (g := fun o => match o with | some r => [(0, r.entry)] | none => []) rfl (fun _ => rfl) x.me.run)
      (eq_map_toList (g := fun o => match o with | some d => [(0, d.1)] | none => []) rfl (fun _ => rfl) x.me.done))
      (eq_map_toList (g := fun o => match o with | some r => [(1, r.entry)] | none => []) rfl (fun _ => rfl) x.ve.run))
      (eq_map_toList (g := fun o => match o with | some d => [(1, d.1)] | none => []) rfl (fun _ => rfl) x.ve.done))
      (eq_map_toList (g := fun o => match o with | some d => [(2, d.1)] | none => []) rfl (fun _ => rfl) x.qe.done))
      (eq_map_toList (g := fun o => match o with | some r => [(3, r.entry)] | none => []) rfl (fun _ => rfl) x.ue.run))
      (eq_map_toList (g := fun o => match o with | some d => [(3, d.1)] | none => []) rfl (fun _ => rfl) x.ue.done))

theorem filter_map_toList {α : Type} (f : α → QEntry) (q : Nat) (o : Option α) (t : Nat → QEntry → Bool) :
    ((o.toList.map fun r => (q, f r)).filter fun y => !t y.1 y.2) =
      (o.filter fun r => !t q (f r)).toList.map fun r => (q, f r) := by
  cases o with
  | none => rfl
  | some r => cases h : t q (f r) <;> simp [Option.filter, h]

theorem inProgress_dropCommands (x : Cell) (t : Nat → QEntry → Bool) :
    inProgress (dropCommands x t) = (inProgress x).filter fun y => !t y.1 y.2 := by
  simp only [inProgress_eq, List.filter_append, filter_map_toList]
  unfold dropCommands
  rw [List.filter_map]
  rfl

/-- What stays when the commands of a test are taken off a cell. -/
theorem mem_allCommands_dropCommands {x : Cell} {t : Nat → QEntry → Bool} {y : Nat × QEntry} :
    y ∈ allCommands (dropCommands x t) ↔ y ∈ allCommands x ∧ t y.1 y.2 = false := by
  rw [mem_allCommands, mem_allCommands, inProgress_dropCommands, List.mem_filter]
  have hq : y.2 ∈ vget (dropCommands x t).queues y.1 [] ↔ y.2 ∈ vget x.queues y.1 [] ∧ t y.1 y.2 = false := by
    unfold dropCommands
    rw [vget_ofFn]
    split
    · exact List.mem_filter.trans (and_congr_right' (iff_of_eq (Bool.not_eq_true' _)))
    · rename_i h
      rw [vget, dif_neg h]
      exact ⟨fun h => absurd h List.not_mem_nil, fun h => absurd h.1 List.not_mem_nil⟩
  rw [hq, Bool.not_eq_true']
  exact or_and_right.symm

theorem forall_mem_engine {α : Type} (l : List α) (f : α → QEntry) {q : Nat} (hq : q < 5) :
    ∀ y ∈ l.map fun r => (q, f r), y.1 < 5 := List.forall_mem_map.2 fun _ _ => hq

theorem inProgress_queue_lt {x : Cell} : ∀ y ∈ inProgress x, y.1 < 5 := by
  rw [inProgress_eq]
  iterate 7 refine List.forall_mem_append.2 ⟨?_, forall_mem_engine _ _ (by decide)⟩
  exact forall_mem_engine _ _ (by decide)

theorem allCommands_queue_lt {x : Cell} {y : Nat × QEntry} (h : y ∈ allCommands x) : y.1 < 5 := by
  rcases mem_allCommands.1 h with h | h
  · exact inProgress_queue_lt y h
  · by_contra hn
    simp [vget, hn] at h

/-- A completed command is among the commands of its cell. -/
theorem seqNo_of_picked {α : Type} {n : BitVec 32} {e e' : QEntry} {a a' : α}
    (h : (if e.seqNo = n then some (e, a) else none) = some (e', a')) : e'.seqNo = n := by
  obtain ⟨hn, he⟩ := Option.ite_none_right_eq_some.1 h
  exact (congrArg (fun y => y.1.seqNo) (Option.some.inj he)).symm.trans hn

theorem outcomeOf_entry {x : Cell} {q : Fin 5} {n : BitVec 32} {e : QEntry} {o : Done} {h : BitVec 64} {len : Nat}
    (ho : outcomeOf x q n = some (e, o, h, len)) : e.seqNo = n := by
  have pick : ∀ d : Option (QEntry × Done), (match d with
      | some (e, o) => if e.seqNo = n then some (e, o, (0 : BitVec 64), (0 : Nat)) else none
      | none => none) = some (e, o, h, len) → e.seqNo = n
    | some _, hd => seqNo_of_picked hd
    | none, hd => nomatch hd
  have hdm : ∀ {r : DmRun}, (match r.done with
      | some o => if r.entry.seqNo = n then some (r.entry, o, r.landed, r.landLen) else none
      | none => none) = some (e, o, h, len) → e.seqNo = n := fun {r} hr => by
    revert hr
    cases r.done with
    | some o' => exact seqNo_of_picked
    | none => exact fun hr => nomatch hr
  generalize (q : Nat) = k at ho
  match k, ho with
  | 0, ho => exact pick _ ho
  | 1, ho => exact pick _ ho
  | 2, ho => exact pick _ ho
  | 3, ho => exact pick _ ho
  | _ + 4, ho =>
    obtain ⟨r, -, hr⟩ := List.exists_of_findSome?_eq_some ho
    exact hdm hr

/-! ### What bookkeeping leaves of a cell -/

/-- Two cells that differ only in what arrivals, the trace and the last pushed commands note. -/
def LikeCell (x y : Cell) : Prop := y = { x with
  core := { x.core with ev := y.core.ev, lastPush := y.core.lastPush }, me := { x.me with past := y.me.past },
  trace := y.trace, ovf := y.ovf }

theorem LikeCell.refl (x : Cell) : LikeCell x x := rfl

theorem LikeCell.trans {x y z : Cell} (h : LikeCell x y) (h' : LikeCell y z) : LikeCell x z := by
  unfold LikeCell at *
  rw [h', h]

/-- Every cell like it was, the owners and the squashes counted too. -/
def CellsLike (s t : State) : Prop :=
  (∀ n, LikeCell (s.cell n) (t.cell n)) ∧ t.nv = s.nv ∧ ∀ p, (t.part p).cSquash = (s.part p).cSquash

theorem CellsLike.refl (s : State) : CellsLike s s := ⟨fun _ => .refl _, rfl, fun _ => rfl⟩

theorem CellsLike.trans {s t u : State} (h : CellsLike s t) (h' : CellsLike t u) : CellsLike s u :=
  ⟨fun n => (h.1 n).trans (h'.1 n), h'.2.1.trans h.2.1, fun p => (h'.2.2 p).trans (h.2.2 p)⟩

theorem CellsLike.onCell {s t : State} {c : Nat} {f : Cell → Cell} (hf : ∀ x, LikeCell x (f x)) (hs : CellsLike s t) :
    CellsLike s (t.onCell c f) := by
  refine hs.trans ⟨fun n => ?_, rfl, fun _ => rfl⟩
  rw [State.cell_onCell]
  split
  · rename_i h
    rw [h.1]
    exact hf _
  · exact .refl _

theorem CellsLike.onPart {s t : State} {p : Nat} {f : Part → Part} (hf : ∀ q, (f q).cSquash = q.cSquash)
    (hs : CellsLike s t) : CellsLike s (t.onPart p f) := by
  refine hs.trans ⟨fun _ => .refl _, rfl, fun q => ?_⟩
  rw [State.part_onPart]
  split
  · rename_i h
    rw [hf, h.1]
  · rfl

theorem CellsLike.notePast {s t : State} (c : Nat) (e : QEntry) (st : Nat) (hs : CellsLike s t) :
    CellsLike s (notePast c e st t) := .onCell (fun _ => rfl) hs

theorem CellsLike.notePushed {s t : State} (c q : Nat) (n : BitVec 32) (k : Counts) (hs : CellsLike s t) :
    CellsLike s (notePushed c q n k t) := .onCell (fun _ => rfl) hs

theorem CellsLike.noteResidue {s t : State} (p q : Nat) (e : QEntry) (hs : CellsLike s t) :
    CellsLike s (noteResidue p q e t) := by
  unfold Machine.noteResidue
  split
  · exact hs.onPart fun _ => rfl
  · exact hs

theorem CellsLike.traceRecord {s t : State} (c p l o : Nat) (r : BitVec 256) (hs : CellsLike s t) :
    CellsLike s (traceRecord c p l o r t) := by
  unfold Machine.traceRecord
  dsimp only
  split
  · refine .onCell (fun x => ?_) (hs.onPart fun _ => rfl)
    split <;> rfl
  · exact hs.onPart fun _ => rfl

theorem CellsLike.addCounters {s t : State} (p st : Nat) (k : Counts) (hs : CellsLike s t) :
    CellsLike s (addCounters p st k t) := hs.onPart fun _ => rfl

theorem CellsLike.countChannel {s t : State} (p l ch : Nat) (h : BitVec 64) (len : Nat) (hs : CellsLike s t) :
    CellsLike s (countChannel p l ch h len t) := by
  refine hs.onPart fun q => ?_
  unfold checkArrival
  dsimp only
  split
  · split <;> rfl
  · rfl

theorem CellsLike.arriveCommand {s t : State} (p : Nat) (e : QEntry) (h : BitVec 64) (len : Nat) (hs : CellsLike s t) :
    CellsLike s (arriveCommand p e h len t) := by
  have hb : ∀ n k, CellsLike s (bumpCounter n k t) := fun n k => .onCell (fun _ => rfl) hs
  unfold Machine.arriveCommand
  dsimp only
  split <;> split
  · exact hs.countChannel _ _ _ _ _
  · exact (hb _ _).countChannel _ _ _ _ _
  · exact hs
  · exact hb _ _

/-- A record is written: it enters the ring, and all else is bookkeeping. -/
theorem writeRecord_like (c : Fin 34) (q : Nat) (e : QEntry) (st : Nat) (k : Counts) (aux : Nat) (s : State) :
    CellsLike (pushRecord c (recordWord q e.fb (cmdTag q e.word) e.seqNo.toNat st k aux) s) (writeRecord c q e st k aux s) := by
  unfold writeRecord
  dsimp only
  split
  · exact .refl _
  · split
    · exact .refl _
    · split
      · exact (CellsLike.addCounters _ _ _ (.refl _)).traceRecord _ _ _ _ _
      · exact CellsLike.addCounters _ _ _ (.refl _)

theorem recordDone_like (c : Fin 34) (p : Nat) (h : HeldDone) (s : State) :
    CellsLike (pushRecord c (recordWord h.queue h.entry.fb (cmdTag h.queue h.entry.word) h.entry.seqNo.toNat
      h.done.status.toNat h.done.counts h.done.aux.toNat) s) (recordDone c p h s) := by
  unfold recordDone
  dsimp only
  split
  · exact (writeRecord_like _ _ _ _ _ _ _).arriveCommand _ _ _ _
  · exact writeRecord_like _ _ _ _ _ _ _

/-! ### What a squash leaves of a cell (07 R207, R210) -/

/-- A cell without the commands from a sequence number on. -/
def squashedCell (n : BitVec 32) (x : Cell) : Cell :=
  let x := dropCommands x fun _ e => decide (n ≤ e.seqNo)
  { x with samples := x.samples.filter fun t => !decide (n ≤ t.seqNo),
           heldDone := x.heldDone.filter fun h => !decide (n ≤ h.entry.seqNo),
           dupBad := x.dupBad.filter fun t => !decide (n ≤ t.2),
           me := { x.me with past := x.me.past.filter fun t => !decide (n ≤ t.seqNo) } }

/-- The commands a squash ends, in program order. -/
def squashList (n : BitVec 32) (x : Cell) : List (Nat × QEntry) :=
  sortBy (fun a b => decide (a.2.seqNo ≤ b.2.seqNo)) ((unrecorded x).filter fun y => decide (n ≤ y.2.seqNo))

/-- The record of a squashed command (07 R210). -/
def squashedRecord (y : Nat × QEntry) : BitVec 256 :=
  recordWord y.1 y.2.fb (cmdTag y.1 y.2.word) y.2.seqNo.toNat stSquashed Counts.reset 0

theorem squashFrom_eq (c : Nat) (n : BitVec 32) (s : State) : squashFrom c n s =
    forEach (squashList n (s.cell c)) (fun y s => pushRecord c (squashedRecord y) s)
      (freeProvisional c (s.onCell c (squashedCell n))) := rfl

theorem forEach_pushRecord_recs (c : Fin 34) (l : List (Nat × QEntry)) (s : State) (h : l ≠ [] ) :
    ((forEach l (fun y s => pushRecord c (squashedRecord y) s) s).cell c).recs =
      newest ((s.cell c).recs ++ l.map squashedRecord) := by
  induction l generalizing s with
  | nil => exact absurd rfl h
  | cons y r ih =>
    change ((forEach r _ (pushRecord c (squashedRecord y) s)).cell c).recs = _
    by_cases hr : r = []
    · rw [hr]
      exact pushRecord_recs _ _ _
    · rw [ih _ hr, pushRecord_recs, newest_append_newest, List.append_assoc]
      rfl

theorem forEach_pushRecord_cell (c : Fin 34) (l : List (Nat × QEntry)) (s : State) :
    (forEach l (fun y s => pushRecord c (squashedRecord y) s) s).cell c = { s.cell c with
      recs := ((forEach l (fun y s => pushRecord c (squashedRecord y) s) s).cell c).recs,
      firstFault := ((forEach l (fun y s => pushRecord c (squashedRecord y) s) s).cell c).firstFault } := by
  refine forEach_induction (P := fun u => u.cell c = { s.cell c with
    recs := (u.cell c).recs, firstFault := (u.cell c).firstFault }) (fun y u h => ?_) rfl l
  rw [pushRecord_cell, h]

theorem squashFrom_cell (c : Fin 34) (n : BitVec 32) (s : State) : (squashFrom c n s).cell c =
    { squashedCell n (s.cell c) with
      recs := ((squashFrom c n s).cell c).recs, firstFault := ((squashFrom c n s).cell c).firstFault } := by
  rw [squashFrom_eq, forEach_pushRecord_cell, freeProvisional_cells, State.cell_onCell_self _ _ _ c.isLt]

theorem squashFrom_cell_ne {c : Fin 34} {m : Nat} (h : m ≠ c) (n : BitVec 32) (s : State) :
    (squashFrom c n s).cell m = s.cell m := by
  rw [squashFrom_eq]
  refine forEach_induction (P := fun u => u.cell m = s.cell m) (fun y u hu => (pushRecord_cell_ne h _ u).trans hu) ?_ _
  rw [freeProvisional_cells, State.cell_onCell_ne _ _ _ _ h]

theorem squashedCell_recs (n : BitVec 32) (x : Cell) : (squashedCell n x).recs = x.recs := rfl

/-- A record of the ring, or of a squashed command, stays while at most 1,024 are younger. -/
theorem mem_squashFrom_recs {c : Fin 34} {n : BitVec 32} {s : State} {r : BitVec 256} {a b : List (BitVec 256)}
    (ha : (s.cell c).recs = newest (a ++ b)) (hl : b.length + (squashList n (s.cell c)).length ≤ 1024)
    (hr : r ∈ b ∨ r ∈ (squashList n (s.cell c)).map squashedRecord) : r ∈ ((squashFrom c n s).cell c).recs := by
  have hc : ((freeProvisional c (s.onCell c (squashedCell n))).cell c).recs = newest (a ++ b) := by
    rw [freeProvisional_cells, State.cell_onCell_self _ _ _ c.isLt]
    exact ha
  rw [squashFrom_eq]
  by_cases he : squashList n (s.cell c) = []
  · rw [he] at hr hl ⊢
    change r ∈ ((freeProvisional c (s.onCell c (squashedCell n))).cell c).recs
    rw [hc]
    refine mem_newest_append ?_ (by simpa using hl)
    simpa using hr
  · rw [forEach_pushRecord_recs _ _ _ he, hc, newest_append_newest, List.append_assoc]
    refine mem_newest_append (by simpa using hr) ?_
    simpa using hl

theorem insertBy_cons {α : Type} (le : α → α → Bool) (x y : α) (l : List α) :
    insertBy le x (y :: l) = if le x y then x :: y :: l else y :: insertBy le x l := rfl

theorem mem_insertBy {α : Type} (le : α → α → Bool) (x y : α) (l : List α) : y ∈ insertBy le x l ↔ y = x ∨ y ∈ l := by
  induction l with
  | nil => exact List.mem_cons
  | cons z r ih =>
    rw [insertBy_cons]
    split
    · exact List.mem_cons
    · exact List.mem_cons.trans ((or_congr_right ih).trans (or_left_comm.trans (or_congr_right List.mem_cons.symm)))

theorem length_insertBy {α : Type} (le : α → α → Bool) (x : α) (l : List α) : (insertBy le x l).length = l.length + 1 := by
  induction l with
  | nil => rfl
  | cons z r ih =>
    rw [insertBy_cons]
    split
    · rfl
    · exact congrArg (· + 1) ih

theorem mem_sortBy {α : Type} (le : α → α → Bool) (y : α) (l : List α) : y ∈ sortBy le l ↔ y ∈ l := by
  induction l with
  | nil => exact Iff.rfl
  | cons z r ih => exact (mem_insertBy le z y _).trans (by rw [List.mem_cons]; exact or_congr_right ih)

theorem length_sortBy {α : Type} (le : α → α → Bool) (l : List α) : (sortBy le l).length = l.length := by
  induction l with
  | nil => rfl
  | cons z r ih => exact (length_insertBy le z _).trans (congrArg (· + 1) ih)

theorem mem_squashList {n : BitVec 32} {x : Cell} {y : Nat × QEntry} :
    y ∈ squashList n x ↔ y ∈ unrecorded x ∧ n ≤ y.2.seqNo := by
  rw [squashList, mem_sortBy, List.mem_filter, decide_eq_true_eq]

theorem length_squashList_le (n : BitVec 32) (x : Cell) : (squashList n x).length ≤ (unrecorded x).length := by
  rw [squashList, length_sortBy]
  exact List.length_filter_le _ _

/-- Bytes outside the provisional region stay (07 R207). -/
theorem freeProvisional_read1 {c : Nat} {s : State} {a : Nat}
    (h : ¬ (cellBase c + (s.cell c).provBase ≤ a ∧ a < cellBase c + (s.cell c).provBase + (s.cell c).provSize)) :
    (freeProvisional c s).mem.read1 a = s.mem.read1 a := by
  unfold freeProvisional
  dsimp only
  split
  · rfl
  · unfold freeBytes
    dsimp only
    rw [Memory.read1_writeN, dif_neg]
    simpa using h

theorem squashFrom_read1 {c : Nat} {n : BitVec 32} {s : State} {a : Nat} (hc : c < 34)
    (h : ¬ (cellBase c + (s.cell c).provBase ≤ a ∧ a < cellBase c + (s.cell c).provBase + (s.cell c).provSize)) :
    (squashFrom c n s).mem.read1 a = s.mem.read1 a := by
  have hm : (squashFrom c n s).mem = (freeProvisional c (s.onCell c (squashedCell n))).mem := by
    rw [squashFrom_eq]
    exact forEach_induction (P := fun u => u.mem = (freeProvisional c (s.onCell c (squashedCell n))).mem)
      (f := fun y s => pushRecord c (squashedRecord y) s) (fun _ _ hu => hu) rfl _
  rw [hm, freeProvisional_read1, State.onCell_mem]
  · rw [State.cell_onCell_self _ _ _ hc]
    exact h

theorem squashedCell_eq (n : BitVec 32) (x : Cell) : squashedCell n x =
    { dropCommands x (fun _ e => decide (n ≤ e.seqNo)) with
      samples := x.samples.filter fun t => !decide (n ≤ t.seqNo),
      heldDone := x.heldDone.filter fun h => !decide (n ≤ h.entry.seqNo),
      dupBad := x.dupBad.filter fun t => !decide (n ≤ t.2),
      me := { (dropCommands x fun _ e => decide (n ≤ e.seqNo)).me with
        past := x.me.past.filter fun t => !decide (n ≤ t.seqNo) } } := rfl

/-- The commands of a cell are those of its engines and queues. -/
theorem allCommands_congr {x y : Cell} (hq : y.queues = x.queues) (hr : y.me.run = x.me.run) (hd : y.me.done = x.me.done)
    (hv : y.ve = x.ve) (he : y.qe = x.qe) (hu : y.ue = x.ue) (hm : y.dm = x.dm) : allCommands y = allCommands x := by
  rw [allCommands, allCommands, inProgress_eq, inProgress_eq, hq, hr, hd, hv, he, hu, hm]

/-- A cell with a squash behind it keeps the commands before it. -/
theorem mem_allCommands_squashedCell {n : BitVec 32} {x : Cell} {y : Nat × QEntry} :
    y ∈ allCommands (squashedCell n x) ↔ y ∈ allCommands x ∧ ¬ n ≤ y.2.seqNo := by
  have h : allCommands (squashedCell n x) = allCommands (dropCommands x fun _ e => decide (n ≤ e.seqNo)) := by
    rw [squashedCell_eq]
    exact allCommands_congr rfl rfl rfl rfl rfl rfl rfl
  rw [h, mem_allCommands_dropCommands, decide_eq_false_iff_not]

end Sys2Proof.Machine
end

section
/-! SUPPORT. Completions, check points that resolve, and partitions that stop. -/

set_option Elab.async false

namespace Sys2Proof.Machine

open Claims

/-! ### The number of commands of a cell -/

theorem queueCommands_eq (v : Vector (List QEntry) 5) : (v.toList.zipIdx.map fun q => q.1.map fun e => (q.2, e)).flatten =
    (List.range 5).flatMap fun i => (vget v i []).map fun e => (i, e) := by
  have h : v.toList.zipIdx = (List.range 5).map fun i => (vget v i [], i) := by
    apply List.ext_getElem
    · simp
    · intro i h1 h2
      have hi : i < 5 := by simpa using h2
      simp [vget, hi]
  rw [h, List.map_map, List.flatMap_def]
  rfl

theorem length_allCommands_dropCommands_le (x : Cell) (t : Nat → QEntry → Bool) :
    (allCommands (dropCommands x t)).length ≤ (allCommands x).length := by
  rw [allCommands, allCommands, List.length_append, List.length_append, inProgress_dropCommands, queueCommands_eq,
    queueCommands_eq]
  refine Nat.add_le_add (List.length_filter_le _ _) ?_
  rw [List.length_flatMap, List.length_flatMap]
  refine List.sum_le_sum fun i _ => ?_
  rw [List.length_map, List.length_map, dropCommands, vget_ofFn]
  split
  · exact List.length_filter_le _ _
  · exact Nat.zero_le _

/-! ### A completion -/

theorem cellOwner_lt {s : State} {c p : Nat} (h : s.cellOwner c = some p) : p < 8 :=
  List.mem_range.1 (List.mem_of_find?_eq_some h)

theorem cellOwner_mem {s : State} {c p : Nat} (h : s.cellOwner c = some p) : c ∈ s.cellsOf p := by
  have h' := List.find?_some h
  simp only [Bool.and_eq_true, decide_eq_true_eq] at h'
  exact List.mem_filter.2 ⟨List.mem_range.2 h'.1, h'.2⟩

theorem cellOwner_of_nv {s t : State} (h : t.nv = s.nv) (c : Nat) : t.cellOwner c = s.cellOwner c := by
  simp only [State.cellOwner, State.defOf, h]

/-- A cell with the records, the counts and the notes of finished commands of another. -/
def renoted (x y : Cell) : Cell := { x with
  core := { x.core with ev := y.core.ev, lastPush := y.core.lastPush }, me := { x.me with past := y.me.past },
  trace := y.trace, ovf := y.ovf, recs := y.recs, firstFault := y.firstFault }

/-- The second cell has the commands, check points, planes and windows of the first. -/
def SameWork (x y : Cell) : Prop := y = renoted x y

section
variable {x y z : Cell}

theorem SameWork.of_eq (h : y = z) (hz : renoted x z = z) : SameWork x y :=
  h.trans (hz.symm.trans (congrArg (renoted x) h.symm))

theorem SameWork.trans (h : SameWork x y) (h' : SameWork y z) : SameWork x z :=
  Eq.trans h' (congrArg (fun w => renoted w z) h :)

theorem SameWork.allCommands (h : SameWork x y) : allCommands y = allCommands x :=
  (congrArg Machine.allCommands h).trans (allCommands_congr rfl rfl rfl rfl rfl rfl rfl)

theorem SameWork.heldDone (h : SameWork x y) : y.heldDone = x.heldDone := (congrArg Cell.heldDone h :)

theorem SameWork.snaps (h : SameWork x y) : y.core.snaps = x.core.snaps := (congrArg (fun w => w.core.snaps) h :)

theorem SameWork.run (h : SameWork x y) : y.core.run = x.core.run := (congrArg (fun w => w.core.run) h :)

theorem SameWork.params (h : SameWork x y) : y.core.p = x.core.p := (congrArg (fun w => w.core.p) h :)

theorem SameWork.cur (h : SameWork x y) : y.me.cur = x.me.cur := (congrArg (fun w => w.me.cur) h :)

theorem SameWork.pre (h : SameWork x y) : y.me.pre = x.me.pre := (congrArg (fun w => w.me.pre) h :)

theorem SameWork.framePos (h : SameWork x y) : y.framePos = x.framePos := (congrArg Cell.framePos h :)

theorem SameWork.provBase (h : SameWork x y) : y.provBase = x.provBase := (congrArg Cell.provBase h :)

theorem SameWork.provSize (h : SameWork x y) : y.provSize = x.provSize := (congrArg Cell.provSize h :)

theorem SameWork.of_recs {l : List (BitVec 256)} {f : BitVec 256} (h : y = { x with recs := l, firstFault := f }) : SameWork x y :=
  .of_eq h rfl

theorem LikeCell.sameWork (h : LikeCell x y) : SameWork x y := .of_eq h rfl

theorem LikeCell.recs (h : LikeCell x y) : y.recs = x.recs := (congrArg Cell.recs h :)

end

theorem pushRecord_sameWork (c : Fin 34) (r : BitVec 256) (s : State) : SameWork (s.cell c) ((pushRecord c r s).cell c) :=
  .of_recs (pushRecord_cell c r s)

/-- A state with a completed command taken off its cell and its counts noted (07 R197, R209). -/
def takenOff (c : Fin 34) (q : Fin 5) (n : BitVec 32) (p : Nat) (e : QEntry) (o : Done) (s : State) : State :=
  let u := s.onCell c fun x => dropCommands x fun q' e' => decide (q' = q.val ∧ e'.seqNo = n)
  noteResidue p q e (notePushed c q n o.counts
    (if q.val = 0 ∧ fld e.word 255 252 = 1 then notePast c e (withFb e.fb o.status.toNat) u else u))

/-- The outcome of a command as its record holds it. -/
def heldOf (q : Fin 5) (e : QEntry) (o : Done) (h : BitVec 64) (len : Nat) : HeldDone :=
  ⟨q.val, e, ⟨BitVec.ofNat 8 (withFb e.fb o.status.toNat), o.counts, o.aux⟩, h, len⟩

/-- A state with the record of a completed command in the ring, before its check points resolve. -/
def recorded (c : Fin 34) (q : Fin 5) (n : BitVec 32) (p : Nat) (e : QEntry) (o : Done) (h : BitVec 64) (len : Nat)
    (s : State) : State :=
  recordDone c p (heldOf q e o h len) (takenOff c q n p e o s)

def doneRecord (q : Fin 5) (e : QEntry) (o : Done) : BitVec 256 :=
  recordWord q.val e.fb (cmdTag q.val e.word) e.seqNo.toNat (BitVec.ofNat 8 (withFb e.fb o.status.toNat)).toNat o.counts
    o.aux.toNat

section
variable {c : Fin 34} {q : Fin 5} {n : BitVec 32} {p : Nat} {e : QEntry} {o : Done} {h : BitVec 64} {len : Nat} {s : State}

theorem exec_commandCompletion (hp : s.cellOwner c = some p) (ho : outcomeOf (s.cell c) q n = some (e, o, h, len))
    (hc : Compared (s.cell c) q n) (hv : provisional (s.cell c).core n = false) :
    exec (.commandCompletion c q n) s =
      .next (settleHeld c p (resolve c q n o.counts (recorded c q n p e o h len s))) := by
  obtain ⟨hs, hd, -⟩ := hc
  change execCommandCompletion c q n s = _
  unfold execCommandCompletion
  dsimp only
  rw [hp, ho]
  dsimp only
  rw [if_neg, if_neg hd, hv]
  · rfl
  · simpa using hs

theorem dropCommands_recs (x : Cell) (t : Nat → QEntry → Bool) : (dropCommands x t).recs = x.recs := rfl

theorem takenOff_like (c : Fin 34) (q : Fin 5) (n : BitVec 32) (p : Nat) (e : QEntry) (o : Done) (s : State) :
    CellsLike (s.onCell c fun x => dropCommands x fun q' e' => decide (q' = q.val ∧ e'.seqNo = n))
      (takenOff c q n p e o s) := by
  unfold takenOff
  refine CellsLike.noteResidue _ _ _ (CellsLike.notePushed _ _ _ _ ?_)
  split
  · exact .notePast _ _ _ (.refl _)
  · exact .refl _

theorem takenOff_frame : Only [.cells, .parts] s (takenOff c q n p e o s) := by
  have hk : Keeps [.cells, .parts] s (takenOff c q n p e o s) := by
    refine noteResidue_keeps _ _ _ (by decide) (notePushed_keeps _ _ _ _ (by decide) (.ite (fun _ => ?_) fun _ => ?_))
    · exact notePast_keeps _ _ _ (by decide) (.onCell (by decide) (.refl _ _))
    · exact .onCell (by decide) (.refl _ _)
  exact hk.1

theorem doneRecord_recordOf (hn : e.seqNo = n) : RecordOf q n e o (doneRecord q e o) := by
  have hst : (BitVec.ofNat 8 (withFb e.fb o.status.toNat)).toNat % 256 = withFb e.fb o.status.toNat % 256 := by
    rw [BitVec.toNat_ofNat]
    exact Nat.mod_mod _ _
  refine ⟨(recordWord_status _ _ _ _ _ _ _).trans hst, (recordWord_queue _ _ _ _ _ _ _).trans (Nat.mod_eq_of_lt (by omega)),
    ?_, recordWord_sat _ _ _ _ _ _ _, recordWord_flu _ _ _ _ _ _ _, recordWord_awn _ _ _ _ _ _ _, ?_⟩
  · rw [doneRecord, recordWord_seqNo, hn]
    exact Nat.mod_eq_of_lt n.isLt
  · rw [doneRecord, recordWord_aux]
    exact Nat.mod_eq_of_lt o.aux.isLt

theorem recorded_sameWork : SameWork (dropCommands (s.cell c) fun q' e' => decide (q' = q.val ∧ e'.seqNo = n))
    ((recorded c q n p e o h len s).cell c) :=
  (((SameWork.of_eq (State.cell_onCell_self s c _ c.isLt) rfl).trans ((takenOff_like c q n p e o s).1 c).sameWork).trans
    (pushRecord_sameWork _ _ _)).trans ((recordDone_like c p (heldOf q e o h len) (takenOff c q n p e o s)).1 c).sameWork

theorem takenOff_recs : ((takenOff c q n p e o s).cell c).recs = (s.cell c).recs :=
  ((takenOff_like c q n p e o s).1 c).recs.trans
    ((congrArg Cell.recs (State.cell_onCell_self s c _ c.isLt)).trans (dropCommands_recs _ _))

theorem recorded_recs : ((recorded c q n p e o h len s).cell c).recs = newest ((s.cell c).recs ++ [doneRecord q e o]) :=
  (((recordDone_like c p (heldOf q e o h len) (takenOff c q n p e o s)).1 c).recs.trans (pushRecord_recs _ _ _)).trans
    (congrArg (fun l => newest (l ++ [doneRecord q e o])) takenOff_recs)

theorem recorded_cellOwner (k : Nat) : (recorded c q n p e o h len s).cellOwner k = s.cellOwner k :=
  cellOwner_of_nv ((recordDone_like c p (heldOf q e o h len) (takenOff c q n p e o s)).2.1.trans
    (takenOff_like c q n p e o s).2.1) k

theorem recorded_cSquash (k : Nat) : ((recorded c q n p e o h len s).part k).cSquash = (s.part k).cSquash :=
  ((recordDone_like c p (heldOf q e o h len) (takenOff c q n p e o s)).2.2 k).trans ((takenOff_like c q n p e o s).2.2 k)

theorem recorded_frame : Only [.cells, .parts] s (recorded c q n p e o h len s) :=
  takenOff_frame.trans (recordDone_keeps _ _ _ (by decide) (by decide) (.refl _ _)).1

theorem mem_recorded_commands {x : Nat × QEntry} : x ∈ allCommands ((recorded c q n p e o h len s).cell c) ↔
    x ∈ allCommands (s.cell c) ∧ ¬ (x.1 = q.val ∧ x.2.seqNo = n) := by
  rw [recorded_sameWork.allCommands, mem_allCommands_dropCommands, decide_eq_false_iff_not]

end

theorem vmod_of_fixed {α : Type} {n : Nat} (v : Vector α n) (i : Nat) (d : α) (f : α → α) (h : f (vget v i d) = vget v i d) :
    vmod v i f = v := by
  unfold vmod
  split
  case isTrue hi =>
    unfold vget at h
    rw [dif_pos hi] at h
    rw [h, Vector.set_getElem_self]
  case isFalse => rfl

theorem withHeld_of_nil {x : Cell} {l : List HeldDone} (hx : x.heldDone = []) (hl : l = []) : { x with heldDone := l } = x :=
  congrArg (fun l => { x with heldDone := l }) (hl.trans hx.symm)

/-- With no record held back, settling changes nothing. -/
theorem settleHeld_of_none {c p : Nat} {u : State} (hu : (u.cell c).heldDone = []) : settleHeld c p u = u := by
  unfold settleHeld
  dsimp only
  rw [hu]
  refine congrArg (fun v => { u with cells := v }) (vmod_of_fixed u.cells c Cell.reset _ ?_)
  refine withHeld_of_nil hu ?_
  rw [show (vget u.cells c Cell.reset).heldDone = [] from hu]
  rfl

/-! ### Squashes -/

theorem squashFrom_parts (c : Nat) (n : BitVec 32) (s : State) : (squashFrom c n s).parts = s.parts := by
  rw [squashFrom_eq]
  refine forEach_induction (P := fun u => u.parts = s.parts) (f := fun y s => pushRecord c (squashedRecord y) s)
    (fun _ _ hu => hu) ?_ _
  exact (freeProvisional_keeps (fl := [.mem, .free]) c (by decide) (by decide) (.refl _ _)).1 .parts (by decide)

/-- The count of squashes a squash begins with. -/
def squashCounted (p : Nat) (s : State) : State := s.onPart p fun q => { q with cSquash := satAdd q.cSquash 1 }

/-- The core of a squash (07 R210). -/
def squashingCore (cp : CheckPoint) (k : Core) : Core :=
  { k with
    run := .squashing cp,
    snaps := k.snaps.takeWhile fun x => decide (x ≠ cp),
    lastPush := k.lastPush.map fun l => match l with
      | some y => if cp.seqNo ≤ y.seqNo then some { y with squashed := true } else some y
      | none => none }

/-- The cell of a squash, all but its core, its records and its first fault. -/
def squashedUnder (n : BitVec 32) (x y : Cell) : Cell :=
  { squashedCell n x with core := y.core, recs := y.recs, firstFault := y.firstFault }

section
variable {c : Fin 34} {p : Nat} {cp : CheckPoint} {s : State} {a b : List (BitVec 256)} {r : BitVec 256}

theorem squash_eq (h : s.cellOwner c = some p) :
    squash c cp s = (squashFrom c cp.seqNo (squashCounted p s)).onCore c (squashingCore cp) := by
  unfold squash
  rw [h]
  rfl

theorem onCore_parts (s : State) (c : Nat) (f : Core → Core) : (s.onCore c f).parts = s.parts := rfl

theorem onCore_mem (s : State) (c : Nat) (f : Core → Core) : (s.onCore c f).mem = s.mem := rfl

theorem squash_parts (h : s.cellOwner c = some p) : (squash c cp s).parts = (squashCounted p s).parts :=
  (congrArg State.parts (squash_eq h)).trans ((onCore_parts _ _ _).trans (squashFrom_parts c cp.seqNo (squashCounted p s)))

theorem part_of_parts {s t : State} (h : t.parts = s.parts) (p : Nat) : t.part p = s.part p :=
  congrArg (fun v => vget v p Part.reset) h

theorem squash_cSquash (h : s.cellOwner c = some p) : ((squash c cp s).part p).cSquash = satAdd (s.part p).cSquash 1 :=
  congrArg Part.cSquash ((part_of_parts (squash_parts h) p).trans (State.part_onPart_self s p _ (cellOwner_lt h)))

theorem squashedUnder_of_eq {n : BitVec 32} {x y : Cell} (k : Core)
    (h : y = { squashedCell n x with recs := y.recs, firstFault := y.firstFault }) :
    { y with core := k } = squashedUnder n x { y with core := k } :=
  (congrArg (fun y => { y with core := k }) h :)

theorem squash_cell_eq (h : s.cellOwner c = some p) : (squash c cp s).cell c =
    { (squashFrom c cp.seqNo (squashCounted p s)).cell c with
      core := squashingCore cp ((squashFrom c cp.seqNo (squashCounted p s)).cell c).core } :=
  (congrArg (fun t => State.cell t c) (squash_eq h)).trans (State.cell_onCore_self _)

theorem squash_cell (h : s.cellOwner c = some p) :
    (squash c cp s).cell c = squashedUnder cp.seqNo (s.cell c) ((squash c cp s).cell c) := by
  rw [squash_cell_eq h]
  exact squashedUnder_of_eq _ (squashFrom_cell c cp.seqNo (squashCounted p s))

theorem squash_params (h : s.cellOwner c = some p) : ((squash c cp s).cell c).core.p = (s.cell c).core.p :=
  (congrArg (fun x => x.core.p) (squash_cell_eq h)).trans
    (congrArg Core.p (squashFrom_core c cp.seqNo (squashCounted p s) c))

theorem squash_snaps (hs : (s.cell c).core.snaps = [cp]) : ((squash c cp s).cell c).core.snaps = [] := by
  rw [squash_core_snaps c cp s, hs, List.takeWhile_cons_of_neg]
  exact fun h => of_decide_eq_true h rfl

theorem squash_heldDone (h : s.cellOwner c = some p) (hd : (s.cell c).heldDone = []) :
    ((squash c cp s).cell c).heldDone = [] :=
  (congrArg Cell.heldDone (squash_cell h)).trans (congrArg (List.filter _) hd)

theorem mem_squash_commands (h : s.cellOwner c = some p) {y : Nat × QEntry} :
    y ∈ allCommands ((squash c cp s).cell c) ↔ y ∈ allCommands (s.cell c) ∧ ¬ cp.seqNo ≤ y.2.seqNo := by
  have hc : allCommands ((squash c cp s).cell c) = allCommands (squashedCell cp.seqNo (s.cell c)) :=
    (congrArg allCommands (squash_cell h)).trans (allCommands_congr rfl rfl rfl rfl rfl rfl rfl)
  rw [hc, mem_allCommands_squashedCell]

theorem squash_cur (h : s.cellOwner c = some p) : ((squash c cp s).cell c).me.cur = (s.cell c).me.cur :=
  congrArg (fun x => x.me.cur) (squash_cell h)

theorem squash_pre (h : s.cellOwner c = some p) : ((squash c cp s).cell c).me.pre = (s.cell c).me.pre :=
  congrArg (fun x => x.me.pre) (squash_cell h)

theorem squash_framePos (h : s.cellOwner c = some p) : ((squash c cp s).cell c).framePos = (s.cell c).framePos :=
  congrArg (fun x => x.framePos) (squash_cell h)

theorem squash_read1 (h : s.cellOwner c = some p) {k : Nat}
    (hk : ¬ (cellBase c + (s.cell c).provBase ≤ k ∧ k < cellBase c + (s.cell c).provBase + (s.cell c).provSize)) :
    (squash c cp s).mem.read1 k = s.mem.read1 k :=
  congrArg (fun m => Memory.read1 m k) ((congrArg State.mem (squash_eq h)).trans (onCore_mem _ _ _)) |>.trans
    (squashFrom_read1 (s := squashCounted p s) c.isLt hk)

theorem mem_squash_recs (h : s.cellOwner c = some p) (ha : (s.cell c).recs = newest (a ++ b))
    (hl : b.length + (squashList cp.seqNo (s.cell c)).length ≤ 1024)
    (hr : r ∈ b ∨ r ∈ (squashList cp.seqNo (s.cell c)).map squashedRecord) : r ∈ ((squash c cp s).cell c).recs := by
  have hm := mem_squashFrom_recs (c := c) (n := cp.seqNo) (s := squashCounted p s) (a := a) (b := b) (r := r) ha hl hr
  rw [squash_cell_eq h]
  exact hm

end

/-- A check point closed with its commands kept (07 R209). -/
def checkPointClosed (c : Nat) (cp : CheckPoint) (s : State) : State :=
  s.onCore c fun k => { k with snaps := k.snaps.filter fun x => decide (x ≠ cp) }

theorem checkPointClosed_cell (c : Fin 34) (cp : CheckPoint) (s : State) : (checkPointClosed c cp s).cell c =
    { s.cell c with core := { (s.cell c).core with snaps := (s.cell c).core.snaps.filter fun x => decide (x ≠ cp) } } :=
  State.cell_onCore_self _

theorem checkPointClosed_heldDone (c : Fin 34) (cp : CheckPoint) (s : State) :
    ((checkPointClosed c cp s).cell c).heldDone = (s.cell c).heldDone :=
  (congrArg Cell.heldDone (checkPointClosed_cell c cp s) :)

theorem checkPointClosed_commands (c : Fin 34) (cp : CheckPoint) (s : State) :
    allCommands ((checkPointClosed c cp s).cell c) = allCommands (s.cell c) :=
  (congrArg allCommands (checkPointClosed_cell c cp s)).trans (allCommands_congr rfl rfl rfl rfl rfl rfl rfl)

theorem checkPointClosed_snaps {c : Fin 34} {cp : CheckPoint} {s : State} (hs : (s.cell c).core.snaps = [cp]) :
    ((checkPointClosed c cp s).cell c).core.snaps = [] :=
  (congrArg (fun x => x.core.snaps) (checkPointClosed_cell c cp s)).trans
    ((congrArg (List.filter _) hs).trans (List.filter_cons_of_neg fun h => (of_decide_eq_true h : cp ≠ cp) rfl))

theorem checkPointClosed_frame (c : Fin 34) (cp : CheckPoint) (s : State) : Only [.cells, .parts] s (checkPointClosed c cp s) :=
  (State.onCore_keeps _ _ (by decide) (.refl [.cells, .parts] s)).1

theorem resolve_none {c : Fin 34} {q : Fin 5} {n : BitVec 32} {k : Counts} {u : State} (hs : (u.cell c).core.snaps = []) :
    resolve c q n k u = u := by
  unfold resolve
  rw [hs]
  rfl

theorem resolve_one {c : Fin 34} {q : Fin 5} {n : BitVec 32} {k : Counts} {cp : CheckPoint} {u : State}
    (hs : (u.cell c).core.snaps = [cp]) (hq : cp.queue = q) (hn : cp.target = n) :
    resolve c q n k u = if predictionFailed cp k then squash c cp u else checkPointClosed c cp u := by
  unfold resolve
  rw [hs, List.filter_cons_of_pos (p := fun y : CheckPoint => decide (y.queue.val = q.val ∧ y.target = n))
    (decide_eq_true ⟨congrArg Fin.val hq, hn⟩)]
  exact resolveAll_one _ _ _ _

theorem squashedRecord_fields {y : Nat × QEntry} (hq : y.1 < 5) :
    fld (squashedRecord y) 255 248 = stSquashed ∧ fld (squashedRecord y) 247 245 = y.1 ∧
      fld (squashedRecord y) 223 192 = y.2.seqNo.toNat ∧ fld (squashedRecord y) 191 0 = 0 :=
  ⟨recordWord_status _ _ _ _ _ _ _, (recordWord_queue _ _ _ _ _ _ _).trans (Nat.mod_eq_of_lt (by omega)),
    (recordWord_seqNo _ _ _ _ _ _ _).trans (Nat.mod_eq_of_lt y.2.seqNo.isLt), recordWord_squashed_zero _ _ _ _ _⟩

/-! ### Completions with and without a check point -/

theorem exec_squashResume {c : Fin 34} {cp : CheckPoint} {p : Nat} {s : State} (hr : (s.cell c).core.run = .squashing cp)
    (hp : s.works c = some p) : exec (.squashResume c) s = .next (s.onCore c fun k => { k with
      g := cp.regs, cw := cp.cw, cwT := cp.cwT, gate := cp.gate, seqNo := cp.seqNo, pc := cp.fallback, run := .running }) := by
  change execSquashResume c s = _
  unfold execSquashResume
  rw [hr, hp]

section
variable {c : Fin 34} {q : Fin 5} {n : BitVec 32} {p : Nat} {e : QEntry} {o : Done} {h : BitVec 64} {len : Nat}
  {cp : CheckPoint} {s : State}

theorem exec_recorded (hp : s.cellOwner c = some p) (ho : outcomeOf (s.cell c) q n = some (e, o, h, len))
    (hc : Compared (s.cell c) q n) (hs : (s.cell c).core.snaps = []) :
    exec (.commandCompletion c q n) s = .next (recorded c q n p e o h len s) := by
  rw [exec_commandCompletion hp ho hc (by rw [provisional, hs]; rfl)]
  refine next_congr ((congrArg (settleHeld c p) ?_).trans (settleHeld_of_none (recorded_sameWork.heldDone.trans hc.2.2)))
  exact resolve_none (recorded_sameWork.snaps.trans hs)

theorem exec_resolved (hp : s.cellOwner c = some p) (ho : outcomeOf (s.cell c) q n = some (e, o, h, len))
    (hc : Compared (s.cell c) q n) (hs : (s.cell c).core.snaps = [cp]) (hq : cp.queue = q) (hn : cp.target = n)
    (hlt : n < cp.seqNo) : exec (.commandCompletion c q n) s = .next (settleHeld c p
      (if predictionFailed cp o.counts then squash c cp (recorded c q n p e o h len s)
        else checkPointClosed c cp (recorded c q n p e o h len s))) := by
  rw [exec_commandCompletion hp ho hc]
  · exact next_congr (congrArg (settleHeld c p) (resolve_one (recorded_sameWork.snaps.trans hs) hq hn))
  · rw [provisional, hs, List.any_cons, List.any_nil, Bool.or_false, decide_eq_false_iff_not]
    exact BitVec.not_le.2 hlt

theorem predictionFailed_iff_selected {k : Counts} :
    predictionFailed cp k = true ↔ cp.threshold.toNat < selected cp.count.toNat k := by
  rw [predictionFailed_iff, ← sat32_selectCount _ cp.count.isLt, BitVec.ofNat_toNat, BitVec.setWidth_eq]

theorem exec_resolved_closed (hp : s.cellOwner c = some p) (ho : outcomeOf (s.cell c) q n = some (e, o, h, len))
    (hc : Compared (s.cell c) q n) (hs : (s.cell c).core.snaps = [cp]) (hq : cp.queue = q) (hn : cp.target = n)
    (hlt : n < cp.seqNo) (hle : selected cp.count.toNat o.counts ≤ cp.threshold.toNat) :
    exec (.commandCompletion c q n) s = .next (checkPointClosed c cp (recorded c q n p e o h len s)) := by
  rw [exec_resolved hp ho hc hs hq hn hlt, if_neg fun hf => Nat.not_le_of_lt (predictionFailed_iff_selected.1 hf) hle]
  exact next_congr (settleHeld_of_none
    ((checkPointClosed_heldDone _ _ _).trans (recorded_sameWork.heldDone.trans hc.2.2)))

theorem exec_resolved_squashed (hp : s.cellOwner c = some p) (ho : outcomeOf (s.cell c) q n = some (e, o, h, len))
    (hc : Compared (s.cell c) q n) (hs : (s.cell c).core.snaps = [cp]) (hq : cp.queue = q) (hn : cp.target = n)
    (hlt : n < cp.seqNo) (hgt : cp.threshold.toNat < selected cp.count.toNat o.counts) :
    exec (.commandCompletion c q n) s = .next (squash c cp (recorded c q n p e o h len s)) := by
  rw [exec_resolved hp ho hc hs hq hn hlt, if_pos (predictionFailed_iff_selected.2 hgt)]
  exact next_congr (settleHeld_of_none
    (squash_heldDone ((recorded_cellOwner c).trans hp) (recorded_sameWork.heldDone.trans hc.2.2)))

/-- The ring has room for the record of the command and for those of all it squashes. -/
theorem recorded_squashList_length (hheld : (s.cell c).heldDone = []) (hlen : (allCommands (s.cell c)).length ≤ 1000) :
    [doneRecord q e o].length + (squashList cp.seqNo ((recorded c q n p e o h len s).cell c)).length ≤ 1024 := by
  have hle := length_squashList_le cp.seqNo ((recorded c q n p e o h len s).cell c)
  rw [unrecorded, recorded_sameWork.allCommands, recorded_sameWork.heldDone.trans hheld, List.map_nil, List.append_nil] at hle
  exact (Nat.add_le_add_left (hle.trans ((length_allCommands_dropCommands_le _ _).trans hlen)) 1).trans (by decide)

theorem mem_recorded_squashed {x : Nat × QEntry} (hx : x ∈ allCommands (s.cell c)) (hb : cp.seqNo ≤ x.2.seqNo)
    (hlt : n < cp.seqNo) :
    squashedRecord x ∈ (squashList cp.seqNo ((recorded c q n p e o h len s).cell c)).map squashedRecord :=
  List.mem_map_of_mem (mem_squashList.2 ⟨List.mem_append_left _ (mem_recorded_commands.2
    ⟨hx, fun hx' => BitVec.not_lt.2 (hx'.2 ▸ hb) hlt⟩), hb⟩)

theorem recorded_window {a : Nat}
    (ha : ¬ (cellBase c + (s.cell c).provBase ≤ a ∧ a < cellBase c + (s.cell c).provBase + (s.cell c).provSize)) :
    ¬ (cellBase c + ((recorded c q n p e o h len s).cell c).provBase ≤ a ∧ a <
      cellBase c + ((recorded c q n p e o h len s).cell c).provBase + ((recorded c q n p e o h len s).cell c).provSize) := by
  rw [recorded_sameWork.provBase, recorded_sameWork.provSize]
  exact ha

end

end Sys2Proof.Machine

namespace Sys2Proof.Proofs

open Machine Claims

/-- Settles O15: the resumption by its update, a completion by what each of its parts leaves of the cell. -/
theorem squashesAndCompletions : Obligations.SquashesAndCompletions := by
  unfold Obligations.SquashesAndCompletions
  refine ⟨fun c cp s hr hw => ?_, fun c q n p e o h len s hp ho hc hs => ⟨_, doneRecord q e o, exec_recorded hp ho hc hs,
    (congrArg List.getLast? recorded_recs).trans (newest_append_getLast? _ _), doneRecord_recordOf (outcomeOf_entry ho),
    fun x hx => (mem_recorded_commands.1 hx).2, recorded_sameWork.snaps.trans hs, recorded_frame⟩⟩
  obtain ⟨p, hp⟩ := Option.isSome_iff_exists.1 hw
  exact ⟨_, exec_squashResume hr hp, onCore_coreOnly _, State.core_onCore_self _⟩

/-- Settles O16: the completion up to its check point, then the check point closed, or squashed. -/
theorem checkPointResolves : Obligations.CheckPointResolves := by
  unfold Obligations.CheckPointResolves
  refine fun c q n p e o h len cp s hp ho hc hs hq hn hlt => ⟨fun hle => ⟨_, exec_resolved_closed hp ho hc hs hq hn hlt hle,
    ?_, ?_, ?_, ?_, ?_⟩, fun hgt hlen => ⟨_, exec_resolved_squashed hp ho hc hs hq hn hlt hgt, ?_, ?_, ?_, ?_, ?_, ?_, ?_, ?_,
    ?_, ?_, ?_, ?_, ?_⟩⟩
  · exact checkPointClosed_snaps (recorded_sameWork.snaps.trans hs)
  · exact (congrArg (fun x => x.core.run) (checkPointClosed_cell c cp _)).trans recorded_sameWork.run
  · exact ⟨_, (congrArg (fun x => x.recs.getLast?) (checkPointClosed_cell c cp _)).trans
      ((congrArg List.getLast? recorded_recs).trans (newest_append_getLast? _ _)), doneRecord_recordOf (outcomeOf_entry ho)⟩
  · exact fun x hx hne => (checkPointClosed_commands c cp _).symm ▸ mem_recorded_commands.2 ⟨hx, hne⟩
  · exact recorded_frame.trans (checkPointClosed_frame c cp _)
  · exact squash_snaps (recorded_sameWork.snaps.trans hs)
  · exact squash_run c cp _
  · exact ⟨_, mem_squash_recs ((recorded_cellOwner c).trans hp) recorded_recs (recorded_squashList_length hc.2.2 hlen)
      (.inl (List.mem_singleton_self _)), doneRecord_recordOf (outcomeOf_entry ho)⟩
  · exact (squash_cSquash ((recorded_cellOwner c).trans hp)).trans (congrArg (fun k => satAdd k 1) (recorded_cSquash p))
  · exact fun x hx => BitVec.not_le.1 ((mem_squash_commands ((recorded_cellOwner c).trans hp)).1 hx).2
  · exact fun x hx hb hne => (mem_squash_commands ((recorded_cellOwner c).trans hp)).2
      ⟨mem_recorded_commands.2 ⟨hx, hne⟩, BitVec.not_le.2 hb⟩
  · exact fun x hx hb => ⟨squashedRecord x, mem_squash_recs ((recorded_cellOwner c).trans hp) recorded_recs
      (recorded_squashList_length hc.2.2 hlen) (.inr (mem_recorded_squashed hx hb hlt)),
      squashedRecord_fields (allCommands_queue_lt hx)⟩
  · exact fun a ha => (squash_read1 ((recorded_cellOwner c).trans hp) (recorded_window ha)).trans
      (congrArg (fun m => Memory.read1 m a) (recorded_frame .mem (by decide)))
  · exact (squash_params ((recorded_cellOwner c).trans hp)).trans recorded_sameWork.params
  · exact (squash_cur ((recorded_cellOwner c).trans hp)).trans recorded_sameWork.cur
  · exact (squash_pre ((recorded_cellOwner c).trans hp)).trans recorded_sameWork.pre
  · exact (squash_framePos ((recorded_cellOwner c).trans hp)).trans recorded_sameWork.framePos
  · exact (recorded_frame.mono (by decide)).trans
      (squash_keeps _ _ (by decide) (by decide) (by decide) (by decide) (.refl _ _)).1

end Sys2Proof.Proofs
end

section
/-! SUPPORT. A partition that stops (04 R124, 13 R361): what its cells, the partitions and the memory keep. -/

set_option Elab.async false

namespace Sys2Proof.Machine

open Claims

/-- An address lies in the provisional region of a cell (07 R207). -/
def InWindow (s : State) (n a : Nat) : Prop :=
  cellBase n + (s.cell n).provBase ≤ a ∧ a < cellBase n + (s.cell n).provBase + (s.cell n).provSize

theorem InWindow.congr {s t : State} {n a : Nat} (hb : (t.cell n).provBase = (s.cell n).provBase)
    (hz : (t.cell n).provSize = (s.cell n).provSize) : InWindow t n a ↔ InWindow s n a := by
  unfold InWindow
  rw [hb, hz]

/-! ### One cell -/

section
variable {fault : Option (Nat × BitVec 32)} {c : Fin 34} {s : State}

theorem squashProvisional_cell_ne {m : Nat} (h : m ≠ c) : (squashProvisional c s).cell m = s.cell m := by
  unfold squashProvisional
  split
  · rfl
  · dsimp only
    rw [State.cell_onCell_ne _ _ _ _ h, squashFrom_cell_ne h]

theorem squashProvisional_of_none (h : (s.cell c).core.snaps = []) : squashProvisional c s = s := by
  unfold squashProvisional
  rw [h]

theorem squashProvisional_window (m : Nat) : ((squashProvisional c s).cell m).provBase = (s.cell m).provBase ∧
    ((squashProvisional c s).cell m).provSize = (s.cell m).provSize := by
  by_cases h : m = c
  · subst h
    unfold squashProvisional
    split
    · exact ⟨rfl, rfl⟩
    · dsimp only
      rw [State.cell_onCell_self _ _ _ c.isLt, squashFrom_cell, squashedCell_eq, dropCommands]
      exact ⟨rfl, rfl⟩
  · rw [squashProvisional_cell_ne h]
    exact ⟨rfl, rfl⟩

theorem squashProvisional_parts : (squashProvisional c s).parts = s.parts := by
  unfold squashProvisional
  split
  · rfl
  · rw [State.onCell_parts, squashFrom_parts]

theorem squashProvisional_read1 {a : Nat} (h : ¬ InWindow s c a) : (squashProvisional c s).mem.read1 a = s.mem.read1 a := by
  unfold squashProvisional
  split
  · rfl
  · rw [State.onCell_mem, squashFrom_read1 c.isLt h]

theorem stopCell_cell_ne {m : Nat} (h : m ≠ c) : (stopCell fault c s).cell m = s.cell m := by
  unfold stopCell
  dsimp only
  rw [State.cell_onCell_ne _ _ _ _ h, squashProvisional_cell_ne h]

theorem stopCell_window (m : Nat) : ((stopCell fault c s).cell m).provBase = (s.cell m).provBase ∧
    ((stopCell fault c s).cell m).provSize = (s.cell m).provSize := by
  have hw := squashProvisional_window (c := c) (s := s) m
  unfold stopCell
  dsimp only
  rw [State.cell_onCell]
  split
  · rename_i h
    obtain ⟨rfl, -⟩ := h
    rw [dropCommands]
    exact hw
  · exact hw

theorem stopCell_parts : (stopCell fault c s).parts = s.parts := squashProvisional_parts

theorem stopCell_read1 {a : Nat} (h : ¬ InWindow s c a) : (stopCell fault c s).mem.read1 a = s.mem.read1 a :=
  squashProvisional_read1 h

/-- A stop leaves the records of a cell without a check point. -/
theorem stopCell_recs (hs : (s.cell c).core.snaps = []) : ((stopCell fault c s).cell c).core.snaps = [] ∧
    ((stopCell fault c s).cell c).recs = (s.cell c).recs := by
  unfold stopCell
  rw [squashProvisional_of_none hs]
  dsimp only
  rw [State.cell_onCell_self _ _ _ c.isLt, dropCommands]
  exact ⟨hs, rfl⟩

end

/-! ### The cells of a partition -/

theorem forEach_induction_mem {α : Type} {P : State → Prop} {f : α → State → State} {l : List α}
    (hf : ∀ x ∈ l, ∀ u, P u → P (f x u)) {s : State} (hs : P s) : P (forEach l f s) := by
  unfold forEach
  induction l generalizing s with
  | nil => exact hs
  | cons x r ih => exact ih (fun y hy u => hf y (List.mem_cons_of_mem _ hy) u) (hf x List.mem_cons_self s hs)

theorem mem_cellsOf_lt {s : State} {p c : Nat} (h : c ∈ s.cellsOf p) : c < 34 :=
  List.mem_range.1 (List.mem_filter.1 h).1

section
variable {fault : Option (Nat × BitVec 32)} {s : State} {p : Nat}

theorem stopCells_cell_ne {n : Nat} (h : n ∉ s.cellsOf p) : (forEach (s.cellsOf p) (stopCell fault) s).cell n = s.cell n :=
  forEach_induction_mem (P := fun u => u.cell n = s.cell n) (fun c hc _ hu =>
    (stopCell_cell_ne (c := ⟨c, mem_cellsOf_lt hc⟩) (fun he : n = c => h (by rw [he]; exact hc))).trans hu) rfl

theorem stopCells_parts : (forEach (s.cellsOf p) (stopCell fault) s).parts = s.parts :=
  forEach_induction_mem (P := fun u => u.parts = s.parts) (fun c hc _ hu =>
    (stopCell_parts (c := ⟨c, mem_cellsOf_lt hc⟩)).trans hu) rfl

theorem stopCells_read1 {a : Nat} (h : ∀ n ∈ s.cellsOf p, ¬ InWindow s n a) :
    (forEach (s.cellsOf p) (stopCell fault) s).mem.read1 a = s.mem.read1 a := by
  refine (forEach_induction_mem (P := fun u => u.mem.read1 a = s.mem.read1 a ∧ ∀ m,
    (u.cell m).provBase = (s.cell m).provBase ∧ (u.cell m).provSize = (s.cell m).provSize) (fun c hc u hu => ⟨?_, fun m => ?_⟩)
    ⟨rfl, fun _ => ⟨rfl, rfl⟩⟩).1
  · refine (stopCell_read1 (c := ⟨c, mem_cellsOf_lt hc⟩) fun hw => h c hc ?_).trans hu.1
    exact (InWindow.congr (hu.2 c).1 (hu.2 c).2).1 hw
  · obtain ⟨h1, h2⟩ := stopCell_window (fault := fault) (c := ⟨c, mem_cellsOf_lt hc⟩) (s := u) m
    exact ⟨h1.trans (hu.2 m).1, h2.trans (hu.2 m).2⟩

theorem stopCells_recs {c : Fin 34} (hs : (s.cell c).core.snaps = []) :
    ((forEach (s.cellsOf p) (stopCell fault) s).cell c).recs = (s.cell c).recs := by
  refine (forEach_induction_mem (P := fun u => (u.cell c).core.snaps = [] ∧ (u.cell c).recs = (s.cell c).recs)
    (fun m hm u hu => ?_) ⟨hs, rfl⟩).2
  by_cases he : (c : Nat) = m
  · subst he
    obtain ⟨h1, h2⟩ := stopCell_recs (fault := fault) (c := c) hu.1
    exact ⟨h1, h2.trans hu.2⟩
  · rw [stopCell_cell_ne (c := ⟨m, mem_cellsOf_lt hm⟩) he]
    exact hu

end

/-! ### The partition -/

theorem dropTraffic_frame (p : Nat) (s : State) : Only [.ports, .ring] s (dropTraffic p s) :=
  (dropTraffic_keeps p (by decide) (by decide) (.refl _ s)).1

theorem notify_st (p event status detail : Nat) (s : State) (q : Nat) :
    ((notify p event status detail s).part q).st = (s.part q).st := by
  change ((s.onPart p _).part q).st = _
  rw [State.part_onPart]
  split
  · rename_i h
    rw [h.1]
  · rfl

theorem notify_part_ne {p q : Nat} (h : q ≠ p) (event status detail : Nat) (s : State) :
    (notify p event status detail s).part q = s.part q := by
  change (s.onPart p _).part q = _
  rw [State.part_onPart_ne _ _ _ _ h]

theorem notify_frame (p event status detail : Nat) (s : State) : Only [.parts, .eop, .out] s (notify p event status detail s) :=
  (notify_keeps p event status detail (by decide) (by decide) (by decide) (.refl _ s)).1

theorem dropSave_frame (p : Nat) (s : State) : Only [.parts, .eop, .out] s (dropSave p s) :=
  (dropSave_keeps p (by decide) (by decide) (by decide) (.refl _ s)).1

theorem dropSave_part (p : Nat) (s : State) : ((dropSave p s).part p).st = (s.part p).st ∧
    ∀ q, q ≠ p → (dropSave p s).part q = s.part q := by
  unfold dropSave
  split
  · exact ⟨rfl, fun _ _ => rfl⟩
  · refine ⟨?_, fun q hq => ?_⟩
    · rw [notify_st, State.part_onPart]
      split <;> rfl
    · rw [notify_part_ne hq, State.part_onPart_ne _ _ _ _ hq]

section
variable {fault : Option (Nat × BitVec 32)} {p status : Nat} {s : State}

theorem haltPartition_cells : (haltPartition p status fault s).cells = (forEach (s.cellsOf p) (stopCell fault) s).cells :=
  (dropSave_frame p _ .cells (by decide)).trans (dropTraffic_frame p _ .cells (by decide))

theorem haltPartition_mem : (haltPartition p status fault s).mem = (forEach (s.cellsOf p) (stopCell fault) s).mem :=
  (dropSave_frame p _ .mem (by decide)).trans (dropTraffic_frame p _ .mem (by decide))

theorem haltPartition_part (hp : p < 8) : ((haltPartition p status fault s).part p).st = 2 ∧
    ∀ q, q ≠ p → (haltPartition p status fault s).part q = s.part q := by
  unfold haltPartition
  dsimp only
  refine ⟨(dropSave_part p _).1.trans ?_, fun q hq => ((dropSave_part p _).2 q hq).trans ?_⟩
  · rw [State.part_onPart_self _ _ _ hp]
  · rw [State.part_onPart_ne _ _ _ _ hq, State.part, State.part, dropTraffic_frame p _ .parts (by decide), stopCells_parts]

/-- A stop of a running partition: it rests in state 2, other partitions and the cells of others stay, and of memory only
the provisional regions of its cells may differ (13 R361, 04 R124). -/
theorem stopPartition_outcome {c : Nat} (hp : p < 8) (hs : (s.part p).st = 1) :
    ((stopPartition p c status fault s).part p).st = 2 ∧
      (∀ q, q ≠ p → (stopPartition p c status fault s).part q = s.part q) ∧
      (stopPartition p c status fault s).cells = (forEach (s.cellsOf p) (stopCell fault) s).cells ∧
      (∀ a, (∀ n ∈ s.cellsOf p, ¬ InWindow s n a) → (stopPartition p c status fault s).mem.read1 a = s.mem.read1 a) := by
  unfold stopPartition
  rw [if_neg (by rw [hs]; exact fun h => h rfl)]
  obtain ⟨hst, hne⟩ := haltPartition_part (fault := fault) (status := status) (s := s) hp
  have hn := notify_frame p 0x05 status c (haltPartition p status fault s)
  refine ⟨(notify_st _ _ _ _ _ _).trans hst, fun q hq => (notify_part_ne hq _ _ _ _).trans (hne q hq),
    (hn .cells (by decide)).trans haltPartition_cells, fun a ha => ?_⟩
  rw [hn .mem (by decide), haltPartition_mem]
  exact stopCells_read1 ha

theorem stopPartition_nv {c : Nat} : (stopPartition p c status fault s).nv = s.nv :=
  (stopPartition_keeps (fl := [.mem, .cells, .parts, .ports, .ring, .eop, .out, .free]) p c status fault (by decide)
    (by decide) (by decide) (by decide) (by decide) (by decide) (by decide) (by decide) (.refl _ s)).1 .nv (by decide)

end

theorem works_owner {s : State} {c p : Nat} (h : s.works c = some p) : s.cellOwner c = some p ∧ (s.part p).st = 1 := by
  unfold State.works at h
  split at h
  · split at h
    · split at h
      · cases h
        rename_i ho hr
        exact ⟨ho, of_decide_eq_true hr⟩
      · cases h
    · cases h
  · cases h

end Sys2Proof.Machine

namespace Sys2Proof.Proofs

open Machine Claims

/-- Settles O14: the record and the event, then what the stop leaves of each cell and partition. -/
theorem illegalInstructionStopsThePartition : Obligations.IllegalInstructionStopsThePartition := by
  unfold Obligations.IllegalInstructionStopsThePartition
  intro c p s hw hi
  obtain ⟨hp, hst⟩ := works_owner hw
  let r := recordWord 7 false (s.cell c).core.pc (s.cell c).core.seqNo.toNat stRange Counts.reset 0
  let u := pushRecord c r s
  let v := recordEvent 0x04 1 c stRange p ((s.cell c).core.pc % 2 ^ 14) u
  have he : exec (.illegalInstruction c) s = if atRest (s.cell c) then
      .next ((stopPartition p c stRange none v).onCore c fun k => { k with run := .illegal }) else .next s := by
    change execIllegalInstruction c s = _
    unfold execIllegalInstruction
    rw [hw]
    dsimp only
    rw [hi, Bool.true_and]
  refine ⟨fun hr => he.trans (if_neg (by simp [hr])), fun hr => ?_⟩
  have hsnaps := ((atRest_iff _).1 hr).1
  have hvf := recordEvent_frame 0x04 1 c stRange p ((s.cell c).core.pc % 2 ^ 14) u
  have hvcell : ∀ n, v.cell n = u.cell n := fun n => congrArg (vget · n Cell.reset) (hvf .cells (by decide))
  have hvpart : ∀ n, v.part n = s.part n := fun n => congrArg (vget · n Part.reset) (hvf .parts (by decide))
  have hvown : ∀ q, v.cellsOf q = s.cellsOf q := fun q => by
    have hd : v.nv.defs = s.nv.defs := by
      change (recordEvent _ _ _ _ _ _ u).nv.defs = _
      rw [recordEvent_nv]
      rfl
    simp only [State.cellsOf, State.defOf, hd]
  have huc := pushRecord_cell c r s
  have hvsn : (v.cell c).core.snaps = [] := by rw [hvcell, show u.cell c = _ from huc]; exact hsnaps
  obtain ⟨hst2, hpart, hcells, -⟩ := stopPartition_outcome (fault := none) (status := stRange) (c := c) (s := v)
    (cellOwner_lt hp) (by rw [hvpart]; exact hst)
  have hcell : ∀ n, (stopPartition p c stRange none v).cell n = (forEach (v.cellsOf p) (stopCell none) v).cell n :=
    fun n => congrArg (vget · n Cell.reset) hcells
  refine ⟨_, r, he.trans (if_pos hr), ?_, recordWord_status _ _ _ _ _ _ _, recordWord_queue _ _ _ _ _ _ _,
    recordWord_tag _ _ _ _ _ _ _, (recordWord_seqNo _ _ _ _ _ _ _).trans (Nat.mod_eq_of_lt (s.cell c).core.seqNo.isLt), ?_, hst2,
    by rw [State.core_onCore_self], fun n hn => ?_, fun q hq => (hpart q hq).trans (hvpart q), ?_⟩
  · rw [State.cell_onCore_self]
    change r ∈ ((stopPartition p c stRange none v).cell c).recs
    rw [hcell, stopCells_recs hvsn, hvcell, show (u.cell c).recs = _ from pushRecord_recs _ _ _]
    exact mem_newest_append (List.mem_singleton_self _) (by simp)
  · have hev := recordEvent_type 0x04 1 c stRange p ((s.cell c).core.pc % 2 ^ 14) u
    rw [eventWritten]
    change fld (mapGet 0 (stopPartition p c stRange none v).nv.events _) _ _ = _
    rw [stopPartition_nv]
    exact hev
  · have hne : n ≠ c := fun h => hn (h ▸ cellOwner_mem hp)
    refine (State.cell_onCell_ne _ _ _ _ hne).trans ?_
    rw [hcell, stopCells_cell_ne (by rw [hvown]; exact hn), hvcell]
    exact pushRecord_cell_ne hne _ _
  · exact (State.onCore_keeps _ _ (by decide) (stopPartition_keeps _ _ _ _ (by decide) (by decide) (by decide) (by decide)
      (by decide) (by decide) (by decide) (by decide) (recordEvent_keeps _ _ _ _ _ _ (by decide) (by decide)
        (pushRecord_keeps _ _ (by decide) (.refl _ _))))).1

end Sys2Proof.Proofs
end

section
/-! SUPPORT. The memory stacks on their own: a channel changed, and scrubbing over words without errors (09 R255 to R259). -/

set_option Elab.async false

namespace Sys2Proof.Machine

open Claims

/-- One stack changed, and nothing else. -/
def StackChanged (n : Nat) (x : Stack) (s t : State) : Prop :=
  Only [.drams] s t ∧ (∀ m, m ≠ n → t.stack m = s.stack m) ∧ t.stack n = x

theorem State.onStack_frame (s : State) (n : Nat) (f : Stack → Stack) : Only [.drams] s (s.onStack n f) :=
  (Keeps.onStack (by decide) (.refl [.drams] s)).1

theorem State.onPart_frame (s : State) (p : Nat) (f : Part → Part) : Only [.parts] s (s.onPart p f) :=
  (Keeps.onPart (by decide) (.refl [.parts] s)).1

theorem State.onCell_frame (s : State) (c : Nat) (f : Cell → Cell) : Only [.cells] s (s.onCell c f) :=
  (Keeps.onCell (by decide) (.refl [.cells] s)).1

theorem State.onPower_frame (s : State) (f : Power → Power) : Only [.power] s (s.onPower f) :=
  (Keeps.onPower (by decide) (.refl [.power] s)).1

theorem State.onEop_frame (s : State) (f : Eop → Eop) : Only [.eop] s (s.onEop f) :=
  (Keeps.onEop (by decide) (.refl [.eop] s)).1

theorem State.onRing_frame (s : State) (f : Ring → Ring) : Only [.ring] s (s.onRing f) :=
  (Keeps.onRing (by decide) (.refl [.ring] s)).1

theorem State.onAtt_frame (s : State) (f : Att → Att) : Only [.att] s (s.onAtt f) :=
  (Keeps.onAtt (by decide) (.refl [.att] s)).1

theorem State.onTest_frame (s : State) (f : Test → Test) : Only [.test] s (s.onTest f) :=
  (Keeps.onTest (by decide) (.refl [.test] s)).1

theorem stackChanged_refl (n : Nat) (s : State) : StackChanged n (s.stack n) s s := ⟨.refl _ s, fun _ _ => rfl, rfl⟩

theorem stackChanged_onStack {n : Nat} (h : n < 32) (f : Stack → Stack) {x : Stack} {s t : State} (ht : StackChanged n x s t) :
    StackChanged n (f x) s (t.onStack n f) := by
  obtain ⟨hf, hm, hx⟩ := ht
  refine ⟨hf.trans (State.onStack_frame t n f), fun m h' => ?_, ?_⟩
  · rw [State.stack_onStack_ne _ _ _ _ h', hm m h']
  · rw [State.stack_onStack_self _ _ _ h, hx]

theorem stackChanged_ite {n : Nat} {p : Prop} [Decidable p] {x y : Stack} {s t u : State} (ht : p → StackChanged n x s t)
    (hu : ¬ p → StackChanged n y s u) : StackChanged n (if p then x else y) s (if p then t else u) := by
  split
  · exact ht ‹_›
  · exact hu ‹_›

/-- A stack with one channel set. -/
def Stack.setChan (x : Stack) (ch : Fin 16) (k : Chan) : Stack := { x with chans := x.chans.set ch k }

theorem Stack.setChan_same (x : Stack) (ch : Fin 16) : x.setChan ch x.chans[ch] = x := by
  unfold Stack.setChan
  rw [show x.chans.set ch x.chans[ch] = x.chans from Vector.set_getElem_self ch.isLt]

theorem onChan_changed (n : Fin 32) (ch : Fin 16) (f : Chan → Chan) (s : State) :
    StackChanged n ((s.stack n).setChan ch (f (s.stack n).chans[ch])) s (onChan n ch f s) := by
  have h := stackChanged_onStack n.isLt (fun t => { t with chans := vmod t.chans ch f }) (stackChanged_refl n s)
  refine ⟨h.1, h.2.1, h.2.2.trans ?_⟩
  simp [Stack.setChan, vmod, ch.isLt]

theorem chanHeld_iff (s : State) (n : Fin 32) (ch : Fin 16) :
    chanHeld s n ch = true ↔ stackWorks s n = true ∧ (s.stack n).chans[ch].phase = .held := by
  simp only [chanHeld, Bool.and_eq_true, decide_eq_true_eq, vget, ch.isLt, dite_true, Fin.getElem_fin]

/-! ### Scrubbing over words without errors -/

theorem errWords_of_none {s : State} (h : s.mem.errs = []) (a n : Nat) : errWords s a n = [] := by
  unfold errWords
  rw [h]
  rfl

theorem scrubGranule_of_noErrs {s : State} (h : s.mem.errs = []) (n a : Nat) (d : DramPos) : scrubGranule n a d s = s := by
  unfold scrubGranule
  rw [errWords_of_none h]
  exact ite_self s

/-- The stack after its data scrubber has moved on. -/
def Stack.dataScrubbed (x : Stack) : Stack :=
  if x.rate = 0 then x else { x with scrubPos := (x.scrubPos + 1) % 2 ^ 25 }

/-- The stack after the scrubber of its steward region has moved on. -/
def Stack.stewScrubbed (n : Nat) (x : Stack) : Stack :=
  if n % 16 ≠ 0 then x else { x with stewPos := (x.stewPos + 1) % 2 ^ 19 }

theorem scrubData_changed (n : Fin 32) {s : State} (h : s.mem.errs = []) :
    StackChanged n (s.stack n).dataScrubbed s (scrubData n s) := by
  unfold scrubData Stack.dataScrubbed
  refine stackChanged_ite (fun _ => stackChanged_refl n s) fun _ => ?_
  rw [scrubGranule_of_noErrs (s := s.onStack n _) h]
  exact stackChanged_onStack n.isLt _ (stackChanged_refl n s)

theorem scrubSteward_changed (n : Fin 32) {x : Stack} {s t : State} (ht : StackChanged n x s t) (h : t.mem.errs = []) :
    StackChanged n (x.stewScrubbed n) s (scrubSteward n t) := by
  unfold scrubSteward Stack.stewScrubbed
  refine stackChanged_ite (fun _ => ht) fun _ => ?_
  rw [scrubGranule_of_noErrs (s := t.onStack n _) h]
  exact stackChanged_onStack n.isLt _ ht

theorem scrub_changed (n : Fin 32) {s : State} (h : s.mem.errs = []) :
    StackChanged n ((s.stack n).dataScrubbed.stewScrubbed n) s (scrubSteward n (scrubData n s)) := by
  have hd := scrubData_changed n h
  exact scrubSteward_changed n hd (by rw [hd.1 .mem (by decide)]; exact h)

theorem Stack.scrubbed_eq (n : Nat) (x : Stack) : x.dataScrubbed.stewScrubbed n = { x with
    scrubPos := if x.rate = 0 then x.scrubPos else (x.scrubPos + 1) % 2 ^ 25,
    stewPos := if n % 16 = 0 then (x.stewPos + 1) % 2 ^ 19 else x.stewPos } := by
  unfold Stack.dataScrubbed Stack.stewScrubbed
  cases x
  split <;> split <;> simp_all

/-! ### The channel a refresh window or a request leaves -/

/-- A channel at a refresh window: a requested retrain begins unless locked out, a held channel postpones (09 R257, R258). -/
def Chan.refreshed (k : Chan) : Chan :=
  if k.phase = .requested ∧ k.lockout = false then { k with phase := .held }
  else if k.phase = .held then { k with postponed := min 8 (k.postponed + 1) } else k

theorem Chan.refreshed_eq (k : Chan) : k.refreshed = match k.phase with
    | .idle => k
    | .requested => if k.lockout then k else { k with phase := .held }
    | .held => { k with postponed := min 8 (k.postponed + 1) } := by
  unfold Chan.refreshed
  cases hp : k.phase <;> cases hl : k.lockout <;> simp

theorem execRefreshWindow_eq (n : Fin 32) (ch : Fin 16) (s : State) : exec (.refreshWindow n ch) s =
    .next (if stackWorks s n = true then onChan n ch Chan.refreshed s else s) := by
  rw [show Chan.refreshed = _ from funext Chan.refreshed_eq]
  rfl

theorem refreshWindow_eq (n : Fin 32) (ch : Fin 16) (s : State) : ∃ t, exec (.refreshWindow n ch) s = .next t ∧
    StackChanged n (if stackWorks s n = true ∧ (s.stack n).chans[ch].phase = .requested ∧ (s.stack n).chans[ch].lockout = false
      then (s.stack n).setChan ch { (s.stack n).chans[ch] with phase := .held }
      else if stackWorks s n = true ∧ (s.stack n).chans[ch].phase = .held
        then (s.stack n).setChan ch { (s.stack n).chans[ch] with postponed := min 8 ((s.stack n).chans[ch].postponed + 1) }
        else s.stack n) s t := by
  refine ⟨_, execRefreshWindow_eq n ch s, ?_⟩
  by_cases hw : stackWorks s n = true
  · have h := onChan_changed n ch Chan.refreshed s
    rw [Chan.refreshed, apply_ite ((s.stack n).setChan ch), apply_ite ((s.stack n).setChan ch), Stack.setChan_same] at h
    simpa only [hw, true_and, if_true] using h
  · simpa only [hw, Bool.false_eq_true, false_and, if_false] using stackChanged_refl n s

theorem retrainRequest_eq (n : Fin 32) (ch : Fin 16) (s : State) : ∃ t, exec (.retrainRequest n ch) s = .next t ∧
    StackChanged n (if stackWorks s n = true ∧ (s.stack n).chans[ch].phase = .idle
      then (s.stack n).setChan ch { (s.stack n).chans[ch] with phase := .requested } else s.stack n) s t := by
  refine ⟨_, rfl, ?_⟩
  by_cases hw : stackWorks s n = true
  · have h := onChan_changed n ch (fun c => if c.phase = .idle then { c with phase := .requested } else c) s
    rw [apply_ite ((s.stack n).setChan ch), Stack.setChan_same] at h
    simpa only [hw, true_and, if_true] using h
  · simpa only [hw, Bool.false_eq_true, false_and, if_false] using stackChanged_refl n s

theorem retrainEnd_eq (n : Fin 32) (ch : Fin 16) (s : State) : ∃ t, exec (.retrainEnd n ch) s = .next t ∧
    StackChanged n (if stackWorks s n = true ∧ (s.stack n).chans[ch].phase = .held
      then { (s.stack n).setChan ch { (s.stack n).chans[ch] with
          phase := .idle, postponed := 0, cal := (s.stack n).chans[ch].cal + 1 } with
        retrains := satInc (s.stack n).retrains }
      else s.stack n) s t := by
  refine ⟨_, rfl, ?_⟩
  simp only [← chanHeld_iff]
  exact stackChanged_ite (fun _ => stackChanged_onStack n.isLt (fun t => { t with retrains := satInc t.retrains })
    (onChan_changed n ch _ s)) fun _ => stackChanged_refl n s

/-! ### A retrain that times out -/

/-- The owner of a stack counts the timeout of one of its channels (09 R259). -/
def countTimeout (owner : Option Nat) (n ch : Nat) (s : State) : State :=
  match owner with
  | some p => s.onPart p fun q => { q with rtCount := satInc q.rtCount, rtLast := BitVec.ofNat 16 (n * 256 + ch) }
  | none => s

theorem countTimeout_frame (owner : Option Nat) (n ch : Nat) (s : State) : Only [.parts] s (countTimeout owner n ch s) := by
  cases owner with
  | none => exact .refl _ s
  | some p => exact State.onPart_frame s p _

theorem execRetrainTimeout_of_held {n : Fin 32} {ch : Fin 16} {s : State} (h : chanHeld s n ch = true) :
    exec (.retrainTimeout n ch) s = .next (recordEvent 0x12 2 (n.val * 16 + ch.val) stRetrain ((s.stackOwner n).getD 15) 0
      (countTimeout (s.stackOwner n) n ch
        ((onChan n ch (fun c => { c with phase := .idle, postponed := 0, lockout := true }) s).onStack n
          fun t => { t with timeouts := satInc t.timeouts }))) := by
  change execRetrainTimeout n ch s = _
  unfold execRetrainTimeout
  rw [h]
  rfl

theorem stackOwner_lt {s : State} {n p : Nat} (h : s.stackOwner n = some p) : p < 8 :=
  List.mem_range.1 (List.mem_of_find?_eq_some h)

theorem retrainTimeout_eq {n : Fin 32} {ch : Fin 16} {s : State} (hw : stackWorks s n = true)
    (hh : (s.stack n).chans[ch].phase = .held) : ∃ t, exec (.retrainTimeout n ch) s = .next t ∧
      Only [.drams, .parts, .nv, .dev] s t ∧ (∀ m, m ≠ n.val → t.stack m = s.stack m) ∧
      t.stack n = { (s.stack n).setChan ch { (s.stack n).chans[ch] with phase := .idle, postponed := 0, lockout := true } with
        timeouts := satInc (s.stack n).timeouts } ∧
      eventWritten 0x12 s t ∧ ∀ p, s.stackOwner n = some p → (t.part p).rtCount = satInc (s.part p).rtCount ∧
        (t.part p).rtLast.toNat = n.val * 256 + ch.val := by
  have hc := stackChanged_onStack n.isLt (fun t => { t with timeouts := satInc t.timeouts })
    (onChan_changed n ch (fun c => { c with phase := .idle, postponed := 0, lockout := true }) s)
  have ht := execRetrainTimeout_of_held ((chanHeld_iff s n ch).2 ⟨hw, hh⟩)
  generalize (onChan n ch _ s).onStack n _ = u at hc ht
  obtain ⟨hu, hne, hself⟩ := hc
  have hv := countTimeout_frame (s.stackOwner n) n ch u
  have hr := fun c : State => recordEvent_frame 0x12 2 (n.val * 16 + ch.val) stRetrain ((s.stackOwner n).getD 15) 0 c
  have hdrams := (hr _ .drams (by decide)).trans (hv .drams (by decide))
  have hst : ∀ m, State.stack _ m = u.stack m := fun m => congrArg (vget · m Stack.reset) hdrams
  refine ⟨_, ht, (hu.mono (by decide)).trans ((hv.mono (by decide)).trans ((hr _).mono (by decide))),
    fun m hm => (hst m).trans (hne m hm), (hst n).trans hself, ?_, fun p hp => ?_⟩
  · have hnv : (countTimeout (s.stackOwner n) n ch u).nv = s.nv := (hv .nv (by decide)).trans (hu .nv (by decide))
    have he := recordEvent_type 0x12 2 (n.val * 16 + ch.val) stRetrain ((s.stackOwner n).getD 15) 0
      (countTimeout (s.stackOwner n) n ch u)
    rw [hnv] at he
    exact he
  · have hpart : State.part _ p = (countTimeout (s.stackOwner n) n ch u).part p :=
      congrArg (vget · p Part.reset) (hr (countTimeout (s.stackOwner n) n ch u) .parts (by decide))
    have hup : u.part p = s.part p := congrArg (vget · p Part.reset) (hu .parts (by decide))
    rw [hpart, hp, countTimeout, State.part_onPart_self _ _ _ (stackOwner_lt hp), hup]
    have := n.isLt
    have := ch.isLt
    exact ⟨rfl, (BitVec.toNat_ofNat _ _).trans (Nat.mod_eq_of_lt (by omega))⟩

end Sys2Proof.Machine

namespace Sys2Proof.Proofs

open Machine Claims

/-- Settles O52: one lemma per command over the stack it changes. -/
theorem stacksScrubAndRetrain : Obligations.StacksScrubAndRetrain := by
  unfold Obligations.StacksScrubAndRetrain
  intro n ch s
  have split : ∀ {x t}, StackChanged n x s t → (Only [.drams] s t ∧ ∀ m, m ≠ n.val → t.stack m = s.stack m) ∧ t.stack n = x :=
    fun h => ⟨⟨h.1, h.2.1⟩, h.2.2⟩
  refine ⟨fun he => ?_, fun c he => ?_, ?_, ?_, ?_, ?_, fun hw hh => retrainTimeout_eq hw hh, fun h => ?_⟩
  · refine ⟨_, rfl, split ?_⟩
    rw [← Stack.scrubbed_eq]
    exact stackChanged_ite (fun _ => scrub_changed n he) fun _ => stackChanged_refl n s
  · refine ⟨_, rfl, ?_⟩
    split
    · dsimp only
      rw [errWords_of_none (s := s.onCell c _) he]
      exact ⟨(Keeps.onCell (by decide) (.refl _ s)).1, fun m hm => State.cell_onCell_ne _ _ _ _ hm,
        State.cell_onCell_self _ _ _ c.isLt⟩
    · exact ⟨.refl _ s, fun _ _ => rfl, rfl⟩
  · obtain ⟨t, ht, hc⟩ := retrainRequest_eq n ch s
    exact ⟨t, ht, split hc⟩
  · obtain ⟨t, ht, hc⟩ := refreshWindow_eq n ch s
    exact ⟨t, ht, split hc⟩
  · obtain ⟨t, ht, hc⟩ := retrainEnd_eq n ch s
    exact ⟨t, ht, split hc⟩
  · exact ⟨_, rfl, split (onChan_changed n ch _ s)⟩
  · change execRetrainTimeout n ch s = _
    exact if_pos (by rw [← Bool.not_eq_true, chanHeld_iff]; exact h)

end Sys2Proof.Proofs
end

section
/-! SUPPORT. The power manager: rails, the PMBus and the steps (14 R370 to R379). -/

set_option Elab.async false

namespace Sys2Proof.Machine

open Claims

/-! ### The greatest issue value that fits -/

section
variable {P : Nat → Prop} [DecidablePred P]

/-- The last entry of a rising list that a test accepts, or what stands before it. -/
theorem foldl_pick_mem (l : List Nat) (k : Nat) :
    l.foldl (fun k r => if P r then r else k) k = k ∨ l.foldl (fun k r => if P r then r else k) k ∈ l := by
  induction l generalizing k with
  | nil => exact .inl rfl
  | cons x l ih =>
    refine (ih (if P x then x else k)).elim (fun h => ?_) fun h => .inr (List.mem_cons_of_mem _ h)
    rw [List.foldl_cons, h]
    split
    · exact .inr List.mem_cons_self
    · exact .inl rfl

theorem foldl_pick_holds (l : List Nat) (k : Nat) :
    l.foldl (fun k r => if P r then r else k) k = k ∨ P (l.foldl (fun k r => if P r then r else k) k) := by
  induction l generalizing k with
  | nil => exact .inl rfl
  | cons x l ih =>
    refine (ih (if P x then x else k)).elim (fun h => ?_) .inr
    rw [List.foldl_cons, h]
    split
    case isTrue hx => exact .inr hx
    case isFalse => exact .inl rfl

theorem foldl_pick_last (l : List Nat) (k : Nat) (hl : l.Pairwise (· < ·)) :
    ∀ v ∈ l, l.foldl (fun k r => if P r then r else k) k < v → ¬ P v := by
  induction l generalizing k with
  | nil => exact fun v hv => absurd hv List.not_mem_nil
  | cons x l ih =>
    have hx := List.pairwise_cons.1 hl
    refine List.forall_mem_cons.2 ⟨fun hlt hP => ?_, ih _ hx.2⟩
    rw [List.foldl_cons, if_pos hP] at hlt
    rcases foldl_pick_mem (P := P) l x with h | h
    · exact Nat.lt_irrefl x (by rw [h] at hlt; exact hlt)
    · exact Nat.lt_asymm hlt (hx.1 _ h)

end

theorem selectK_mem (room : Int) (est : Vector Nat 4) : selectK room est ∈ [8, 16, 24, 32, 40, 48, 56, 64] :=
  List.mem_cons.2 (foldl_pick_mem [16, 24, 32, 40, 48, 56, 64] 8)

theorem selectK_fits (room : Int) (est : Vector Nat 4) (h : selectK room est ≠ 8) : drawn est (selectK room est) ≤ room :=
  (foldl_pick_holds (P := fun r => drawn est r ≤ room) [16, 24, 32, 40, 48, 56, 64] 8).resolve_left h

theorem selectK_greatest (room : Int) (est : Vector Nat 4) (v : Nat) (hv : v ∈ [16, 24, 32, 40, 48, 56, 64])
    (h : selectK room est < v) : room < drawn est v :=
  Int.not_le.1 (foldl_pick_last (P := fun r => drawn est r ≤ room) [16, 24, 32, 40, 48, 56, 64] 8 (by decide) v hv h)

/-! ### Rails and transactions -/

theorem rail_onRail_self {d : Nat} (h : d < 2) (f : Rail → Rail) (s : State) : (onRail d f s).rail d = f (s.rail d) :=
  vget_vmod_self _ _ _ _ h

theorem rail_onRail_ne {d m : Nat} (h : m ≠ d) (f : Rail → Rail) (s : State) : (onRail d f s).rail m = s.rail m :=
  vget_vmod_ne _ _ _ _ _ h

theorem onRail_frame (d : Nat) (f : Rail → Rail) (s : State) : Only [.power] s (onRail d f s) :=
  (onRail_keeps d f (by decide) (.refl _ s)).1

theorem beginTxn_of_nil {s : State} (h : s.power.bus = []) : beginTxn s = s := by
  unfold beginTxn
  rw [h]

theorem sendTxn_of_cons {s : State} {t : PmTxn} {l : List PmTxn} (h : s.power.bus = t :: l) :
    sendTxn s = { s with out := { s.out with pmbus := s.out.pmbus ++ [busBytes t] } } := by
  unfold sendTxn
  rw [h]

theorem beginTxn_of_plain {s : State} {t : PmTxn} {l : List PmTxn} (h : s.power.bus = t :: l) (ht : t.step = none) :
    beginTxn s = { s with out := { s.out with pmbus := s.out.pmbus ++ [busBytes t] } } := by
  unfold beginTxn
  rw [h]
  dsimp only
  rw [ht]
  exact sendTxn_of_cons h

/-- The transaction of a step with the word it writes. -/
def PmTxn.worded (t : PmTxn) (r : Rail) : PmTxn := { t with data := voutWord r.exp r.target }

theorem beginTxn_of_step {s : State} {t : PmTxn} {l : List PmTxn} {k : StepKind} (h : s.power.bus = t :: l)
    (ht : t.step = some k) (hr : t.retry = false) :
    beginTxn s = sendTxn ((onRail t.rail (beginStep k) s).onPower fun p =>
      { p with bus := t.worded (beginStep k (s.rail t.rail)) :: l }) := by
  obtain ⟨d, cmd, data, tries, retry, step⟩ := t
  obtain rfl : step = some k := ht
  obtain rfl : retry = false := hr
  unfold beginTxn
  rw [h]
  dsimp only
  rw [if_neg Bool.false_ne_true, rail_onRail_self d.isLt]
  rfl

theorem sendTxn_power (s : State) : (sendTxn s).power = s.power := by
  unfold sendTxn
  split <;> rfl

theorem beginTxn_retries (s : State) : (beginTxn s).power.retries = s.power.retries := by
  unfold beginTxn
  split
  · rfl
  · split
    · rw [sendTxn_power]
    · rw [sendTxn_power]
      split <;> rfl

theorem beginTxn_commands (s : State) :
    (beginTxn s).power.bus.map (fun b => (b.rail, b.cmd)) = s.power.bus.map fun b => (b.rail, b.cmd) := by
  unfold beginTxn
  split
  · rfl
  · rename_i hb
    split
    · rw [sendTxn_power]
    · rw [sendTxn_power, hb]
      rfl

theorem enqueue_of_busy {s : State} (l : List PmTxn) (h : s.power.bus ≠ []) :
    enqueue l s = s.onPower fun p => { p with bus := p.bus ++ l } := by
  unfold enqueue
  simp only [h, decide_false, Bool.false_eq_true, if_false]

theorem enqueue_of_idle {s : State} (l : List PmTxn) (h : s.power.bus = []) :
    enqueue l s = beginTxn (s.onPower fun p => { p with bus := l }) := by
  unfold enqueue
  simp only [h, decide_true, if_true]
  congr 1
  simp only [State.onPower, h, List.nil_append]

theorem stepTxn_rail (d : Fin 2) (k : StepKind) : (stepTxn d k).rail = d := Fin.ofNat_val_eq_self d

/-- The first transaction of a step, with its word. -/
def begun (d : Fin 2) (k : StepKind) (s : State) : PmTxn := (stepTxn d k).worded (beginStep k (s.rail d))

/-- A state whose bus holds the write of a step that has just begun. -/
def stepBegun (d : Fin 2) (k : StepKind) (b : PmTxn) (s : State) : State :=
  { (s.onPower fun p => { p with rails := vmod p.rails d (beginStep k), bus := [b] }) with
    out := { s.out with pmbus := s.out.pmbus ++ [busBytes b] } }

/-- A step put on an idle bus begins. -/
theorem enqueue_step_idle {s : State} {d : Fin 2} {k : StepKind} (h : s.power.bus = []) :
    enqueue [stepTxn d k] s = stepBegun d k (begun d k s) s := by
  have h' := beginTxn_of_step (s := s.onPower fun p => { p with bus := [stepTxn d k] }) (t := stepTxn d k) (l := [])
    (k := k) rfl rfl rfl
  rw [stepTxn_rail] at h'
  exact (enqueue_of_idle _ h).trans (h'.trans (sendTxn_of_cons rfl))

theorem finishReturn_power (s : State) :
    (finishReturn s).power = { s.power with returning := (finishReturn s).power.returning } := by
  unfold finishReturn
  split <;> rfl

theorem finishReturn_frame (s : State) : Only [.power] s (finishReturn s) :=
  (finishReturn_keeps (by decide) (.refl _ s)).1

theorem finishReturn_rails (s : State) : (finishReturn s).power.rails = s.power.rails := (congrArg Power.rails (finishReturn_power s) :)

theorem finishReturn_bus (s : State) : (finishReturn s).power.bus = s.power.bus := (congrArg Power.bus (finishReturn_power s) :)

theorem finishReturn_retries (s : State) : (finishReturn s).power.retries = s.power.retries :=
  (congrArg Power.retries (finishReturn_power s) :)

theorem rail_finishReturn (s : State) (m : Nat) : (finishReturn s).rail m = s.rail m :=
  congrArg (fun v => vget v m Rail.reset) (finishReturn_rails s)

theorem enqueueNext_restore_rail {s : State} (d : Fin 2) (m : Nat) :
    (enqueueNext (stepTxn d .restore) s).rail m = s.rail m := by
  unfold enqueueNext
  split
  case h_1 h =>
    rw [enqueue_step_idle h]
    refine (vget_vmod s.power.rails d m (beginStep .restore) Rail.reset).trans ?_
    split
    case isTrue hm => exact congrArg s.rail hm.1.symm
    case isFalse => rfl
  case h_2 => rfl

/-! ### The droop clamp -/

theorem dieNum_lt (d : Die) : dieNum d < 2 := by cases d <;> decide

/-- The rail of a die. -/
def dieFin (d : Die) : Fin 2 := ⟨dieNum d, dieNum_lt d⟩

theorem other_die_ne (d : Die) : 1 - dieNum d ≠ dieNum d := by cases d <;> decide

theorem abandonStep_of_fixed {d : Nat} {again : Bool} {s : State} (h : (s.rail d).step = none ∨ (s.rail d).step = some .restore) :
    abandonStep d again s = s := if_pos h

/-- A rail whose step is abandoned (14 R372). -/
def Rail.abandoned (again : Bool) (r : Rail) : Rail := { r with
  target := r.prev, prev := r.target, step := some .restore, sent := false,
  next := if again && decide (r.step = some .ret) then some .ret else none }

theorem abandonStep_of_rising {d : Nat} {again : Bool} {s : State}
    (h : ¬ ((s.rail d).step = none ∨ (s.rail d).step = some .restore)) : abandonStep d again s =
      enqueueNext (stepTxn d .restore) (onRail d (Rail.abandoned again) (dropSteps d s)) := by
  unfold abandonStep
  dsimp only
  rw [if_neg h]
  rfl

theorem abandonStep_rail_self {d : Fin 2} {again : Bool} {s : State}
    (h : ¬ ((s.rail d).step = none ∨ (s.rail d).step = some .restore)) :
    (abandonStep d again s).rail d = (s.rail d).abandoned again := by
  rw [abandonStep_of_rising h, enqueueNext_restore_rail]
  exact rail_onRail_self d.isLt _ (dropSteps d s)

theorem abandonStep_rail_ne {d : Fin 2} {m : Nat} {again : Bool} {s : State} (hm : m ≠ d.val) :
    (abandonStep d again s).rail m = s.rail m := by
  by_cases h : (s.rail d).step = none ∨ (s.rail d).step = some .restore
  · rw [abandonStep_of_fixed h]
  · rw [abandonStep_of_rising h, enqueueNext_restore_rail]
    exact rail_onRail_ne hm _ (dropSteps d s)

/-- A rail whose clamp a detector has tripped. -/
def Rail.clamped (det : Fin 16) (r : Rail) : Rail := { r with droop := true, tripped := r.tripped ||| ((1 : BitVec 16) <<< det.val) }

theorem Rail.clamped_tripped (det : Fin 16) (r : Rail) : flag (r.clamped det).tripped det = true := by
  have h : 1 <<< det.val % 65536 = 1 <<< det.val := Nat.mod_eq_of_lt (by
    rw [Nat.one_shiftLeft]; exact Nat.pow_lt_pow_right (by decide) det.isLt)
  simp [flag, Rail.clamped, Nat.testBit_shiftLeft, h]

/-- The clamp comes on, and a step in progress but for the step down is abandoned (14 R372, R379). -/
def droopTripped (n : Nat) (det : Fin 16) (s : State) : State :=
  if ((onRail n (Rail.clamped det) s).rail n).step = some .lowest then onRail n (Rail.clamped det) s
  else abandonStep n true (onRail n (Rail.clamped det) s)

theorem exec_droopTrip {d : Die} {det : Fin 16} {s : State} (h : managing s = true) :
    exec (.droopTrip d det) s = .next (droopTripped (dieNum d) det s) := by
  change execDroopTrip d det s = _
  unfold execDroopTrip
  rw [if_neg (by rw [h]; decide)]
  rfl

theorem droopTripped_frame (n : Nat) (det : Fin 16) (s : State) : Only [.power, .out] s (droopTripped n det s) := by
  have h := onRail_keeps (fl := [.power, .out]) n (Rail.clamped det) (by decide) (.refl _ s)
  exact (Keeps.ite (fun _ => h) fun _ => abandonStep_keeps _ _ (by decide) (by decide) h).1

theorem droopTripped_of_fixed {n : Nat} {det : Fin 16} {s : State} (hn : n < 2)
    (h : (s.rail n).step = none ∨ (s.rail n).step = some .lowest ∨ (s.rail n).step = some .restore) :
    droopTripped n det s = onRail n (Rail.clamped det) s := by
  have hstep : ((onRail n (Rail.clamped det) s).rail n).step = (s.rail n).step := by rw [rail_onRail_self hn]; rfl
  unfold droopTripped
  split
  · rfl
  · rename_i hne
    exact abandonStep_of_fixed (by rw [hstep] at hne ⊢; tauto)

theorem droopTripped_of_rising {n : Fin 2} {det : Fin 16} {s : State}
    (h : (s.rail n).step = some .boot ∨ (s.rail n).step = some .ret) :
    (droopTripped n det s).rail n = ((s.rail n).clamped det).abandoned true := by
  have hstep : ((onRail n (Rail.clamped det) s).rail n).step = (s.rail n).step :=
    (congrArg Rail.step (rail_onRail_self n.isLt (Rail.clamped det) s) :).trans rfl
  unfold droopTripped
  rw [if_neg (by rw [hstep]; rcases h with h | h <;> rw [h] <;> decide), abandonStep_rail_self, rail_onRail_self n.isLt]
  rw [hstep]
  rcases h with h | h <;> rw [h] <;> decide

theorem droopTripped_rail_ne {n : Fin 2} {m : Nat} {det : Fin 16} {s : State} (hm : m ≠ n.val) :
    (droopTripped n det s).rail m = s.rail m := by
  unfold droopTripped
  split
  · exact rail_onRail_ne hm _ _
  · exact (abandonStep_rail_ne hm).trans (rail_onRail_ne hm _ _)

/-- The clamp of the rail is on, whatever becomes of its step. -/
theorem droopTripped_clamped (n : Fin 2) (det : Fin 16) (s : State) : ((droopTripped n det s).rail n).droop = true ∧
    ((droopTripped n det s).rail n).tripped = ((s.rail n).clamped det).tripped := by
  have fixed : droopTripped n det s = onRail n (Rail.clamped det) s →
      ((droopTripped n det s).rail n).droop = true ∧
        ((droopTripped n det s).rail n).tripped = ((s.rail n).clamped det).tripped := fun he => by
    rw [he, rail_onRail_self n.isLt]
    exact ⟨rfl, rfl⟩
  have rising : (s.rail n).step = some .boot ∨ (s.rail n).step = some .ret →
      ((droopTripped n det s).rail n).droop = true ∧
        ((droopTripped n det s).rail n).tripped = ((s.rail n).clamped det).tripped := fun h => by
    rw [droopTripped_of_rising h]
    exact ⟨rfl, rfl⟩
  match hs : (s.rail n).step with
  | none => exact fixed (droopTripped_of_fixed n.isLt (.inl hs))
  | some .lowest => exact fixed (droopTripped_of_fixed n.isLt (.inr (.inl hs)))
  | some .restore => exact fixed (droopTripped_of_fixed n.isLt (.inr (.inr hs)))
  | some .boot => exact rising (.inl hs)
  | some .ret => exact rising (.inr hs)

theorem droopTripped_flag (n : Fin 2) (det : Fin 16) (s : State) : flag ((droopTripped n det s).rail n).tripped det = true := by
  rw [(droopTripped_clamped n det s).2]
  exact Rail.clamped_tripped det _

theorem droopTripped_fixed {n : Nat} {det : Fin 16} {s : State} (hn : n < 2)
    (h : (s.rail n).step = none ∨ (s.rail n).step = some .lowest ∨ (s.rail n).step = some .restore) :
    (droopTripped n det s).power.bus = s.power.bus ∧ (droopTripped n det s).out = s.out ∧ (droopTripped n det s).rail n =
      { s.rail n with droop := true, tripped := ((droopTripped n det s).rail n).tripped } := by
  rw [droopTripped_of_fixed hn h, rail_onRail_self hn]
  exact ⟨rfl, rfl, rfl⟩

theorem droopTripped_rising {n : Fin 2} {det : Fin 16} {s : State}
    (h : (s.rail n).step = some .boot ∨ (s.rail n).step = some .ret) :
    ((droopTripped n det s).rail n).step = some .restore ∧ ((droopTripped n det s).rail n).target = (s.rail n).prev ∧
      ((droopTripped n det s).rail n).sent = false := by
  rw [droopTripped_of_rising h]
  exact ⟨rfl, rfl, rfl⟩

theorem resumeReturn_of_none {d : Nat} {s : State} (h : (s.rail d).next = none) : resumeReturn d s = s :=
  if_neg fun hn => by rw [h] at hn; exact absurd hn.1 (by decide)

theorem exec_droopClampRelease {d : Die} {s : State} (h : (s.rail (dieNum d)).droop = true)
    (hx : (s.rail (dieNum d)).next = none) : exec (.droopClampRelease d) s =
      .next (onRail (dieNum d) (fun r => { r with droop := false, tripped := 0 }) s) := by
  refine (next_ite_of_pos h).trans (next_congr (resumeReturn_of_none ?_))
  exact (congrArg Rail.next (rail_onRail_self (dieNum_lt d) _ _)).trans hx

/-! ### The regulator alert -/

theorem dropSteps_idle {d : Nat} {s : State} (h : s.power.bus = []) : (dropSteps d s).power = { s.power with
    retries := (dropSteps d s).power.retries } := by
  simp only [dropSteps, State.onPower, h]

theorem lowerRail_of_commanded {d : Nat} {s : State} (hs : (s.rail d).step = none) (hc : commanded (s.rail d) = true) :
    lowerRail d s = enqueue [stepTxn d .lowest] (dropSteps d (onRail d (fun r => { r with next := none }) s)) := by
  unfold lowerRail
  dsimp only
  rw [hs]
  dsimp only
  rw [if_pos hc]

/-- A rail with no step to issue after a restore. -/
def Rail.withoutNext (r : Rail) : Rail := { r with next := none }

/-- A state whose rail has dropped the steps it had to come, to be lowered. -/
def lowered (d : Nat) (s : State) : State := dropSteps d (onRail d Rail.withoutNext s)

/-- The write of a step down, with its word. -/
def stepDown (d : Fin 2) (r : Rail) : PmTxn := (stepTxn d .lowest).worded (beginStep .lowest r.withoutNext)

theorem lowered_rail (d : Fin 2) (s : State) : (lowered d s).rail d = (s.rail d).withoutNext := rail_onRail_self d.isLt _ s

theorem lowered_bus_of_nil {d : Nat} {s : State} (h : s.power.bus = []) : (lowered d s).power.bus = [] :=
  (congrArg Power.bus (dropSteps_idle (d := d) (s := onRail d Rail.withoutNext s) h)).trans h

theorem lowered_bus_of_other {d : Nat} {s : State} {b : PmTxn} (h : s.power.bus = [b]) (hd : b.rail.val ≠ d) :
    (lowered d s).power.bus = [b] := by
  have hb : (onRail d Rail.withoutNext s).power.bus = [b] := h
  unfold lowered dropSteps State.onPower
  dsimp only
  rw [hb]
  dsimp only
  refine congrArg (fun x => [x]) (if_neg ?_)
  rw [decide_eq_false hd]
  exact Bool.false_ne_true

theorem begun_lowered (d : Fin 2) (s : State) : begun d .lowest (lowered d s) = stepDown d (s.rail d) :=
  congrArg (fun r => (stepTxn d .lowest).worded (beginStep .lowest r)) (lowered_rail d s)

/-- The step down of a rail with an idle bus begins at once. -/
theorem lowerRail_begins {d : Fin 2} {s : State} (hb : s.power.bus = []) (hs : (s.rail d).step = none)
    (hc : commanded (s.rail d) = true) : lowerRail d s = stepBegun d .lowest (stepDown d (s.rail d)) (lowered d s) :=
  (lowerRail_of_commanded hs hc).trans ((enqueue_step_idle (s := lowered d s) (lowered_bus_of_nil hb)).trans
    (congrArg (fun b => stepBegun d .lowest b (lowered d s)) (begun_lowered d s)))

/-- The step down of a rail waits behind a write of the other rail. -/
theorem lowerRail_waits {d : Fin 2} {s : State} {b : PmTxn} (hb : s.power.bus = [b]) (hr : b.rail.val ≠ d.val)
    (hs : (s.rail d).step = none) (hc : commanded (s.rail d) = true) :
    lowerRail d s = (lowered d s).onPower fun p => { p with bus := [b, stepTxn d .lowest] } := by
  have hbus := lowered_bus_of_other (s := s) hb hr
  refine (lowerRail_of_commanded hs hc).trans ((enqueue_of_busy (s := lowered d s) _ (by rw [hbus]; exact List.cons_ne_nil _ _)).trans ?_)
  exact congrArg (fun l => (lowered d s).onPower fun p => { p with bus := l ++ [stepTxn d .lowest] }) hbus

theorem managing_onDev_alert (s : State) (v : Bool) : managing (s.onDev fun d => { d with vrAlertN := v }) = managing s := rfl

/-- The first step down of an alert at an idle bus. -/
def firstLowered (s : State) : State :=
  stepBegun 0 .lowest (stepDown 0 (s.rail (0 : Fin 2)))
    (lowered (0 : Fin 2) (s.onPower fun p => { p with lowest := true, returning := false, bus := [] }))

/-- The alert at an idle bus: the N rail's step down begins, the S rail's waits behind it (14 R374). -/
def bothLowered (s : State) : State :=
  (lowered (1 : Fin 2) (firstLowered s)).onPower fun p => { p with bus := [stepDown 0 (s.rail (0 : Fin 2)), stepTxn (1 : Fin 2) .lowest] }

theorem firstLowered_rail (s : State) : (firstLowered s).rail (0 : Fin 2) = beginStep .lowest (s.rail (0 : Fin 2)).withoutNext :=
  (vget_vmod_self _ _ _ _ (by decide)).trans (congrArg (beginStep .lowest) (vget_vmod_self _ _ _ _ (by decide)))

theorem firstLowered_rail_other (s : State) : (firstLowered s).rail (1 : Fin 2) = s.rail (1 : Fin 2) :=
  (vget_vmod_ne _ _ _ _ _ (by decide)).trans (vget_vmod_ne _ _ _ _ _ (by decide))

theorem bothLowered_rail (s : State) : (bothLowered s).rail (0 : Fin 2) = beginStep .lowest (s.rail (0 : Fin 2)).withoutNext :=
  (vget_vmod_ne _ _ _ _ _ (by decide)).trans (firstLowered_rail s)

theorem lowered_kCap (d : Nat) (s : State) : (lowered d s).power.kCap = s.power.kCap := rfl

theorem bothLowered_kCap (s : State) : (bothLowered s).power.kCap = s.power.kCap :=
  (lowered_kCap 1 (firstLowered s)).trans (lowered_kCap 0 _)

theorem bothLowered_target (s : State) : ((bothLowered s).rail 0).target = 550 := congrArg Rail.target (bothLowered_rail s)

theorem bothLowered_step (s : State) : ((bothLowered s).rail 0).step = some .lowest := congrArg Rail.step (bothLowered_rail s)

theorem bothLowered_rail_other (s : State) : (bothLowered s).rail (1 : Fin 2) = (s.rail (1 : Fin 2)).withoutNext :=
  (lowered_rail 1 (firstLowered s)).trans (congrArg Rail.withoutNext (firstLowered_rail_other s))

theorem bothLowered_step_other (s : State) : ((bothLowered s).rail 1).step = (s.rail 1).step :=
  (congrArg Rail.step (bothLowered_rail_other s) :)

section
variable {s : State} (hb : s.power.bus = []) (hc0 : commanded (s.rail (0 : Fin 2)) = true)
  (hc1 : commanded (s.rail (1 : Fin 2)) = true) (hs0 : (s.rail (0 : Fin 2)).step = none) (hs1 : (s.rail (1 : Fin 2)).step = none)
include hb hc0 hc1 hs0 hs1

theorem enterLowest_eq : enterLowest s = bothLowered s := by
  have hbus : s.power.bus.take 1 ++ (s.power.bus.drop 1).filter (fun t => !(decide (t.cmd = 0x79 ∨ t.cmd = 0x03) && !t.retry)) = [] := by
    rw [hb]
    rfl
  have he : enterLowest s = lowerRail (1 : Fin 2)
      (lowerRail (0 : Fin 2) (s.onPower fun p => { p with lowest := true, returning := false, bus := [] })) :=
    congrArg (fun l => lowerRail 1 (lowerRail 0 (s.onPower fun p => { p with lowest := true, returning := false, bus := l }))) hbus
  have h0 := lowerRail_begins (d := 0) (s := s.onPower fun p => { p with lowest := true, returning := false, bus := [] }) rfl hs0 hc0
  refine he.trans ((congrArg (lowerRail (1 : Fin 2)) h0).trans ?_)
  exact lowerRail_waits (s := firstLowered s) rfl Nat.zero_ne_one ((congrArg Rail.step (firstLowered_rail_other s)).trans hs1)
    ((congrArg commanded (firstLowered_rail_other s)).trans hc1)

theorem bothLowered_frame : Only [.power, .out] s (bothLowered s) :=
  enterLowest_eq hb hc0 hc1 hs0 hs1 ▸ (enterLowest_keeps (fl := [.power, .out]) (by decide) (by decide) (.refl _ s)).1

end

theorem exec_vrAlertAssert {s : State} (hp : s.dev.powered = true) (ha : s.dev.vrAlertN = true) :
    exec .vrAlertAssert s = .next (if managing s then enterLowest (s.onDev fun d => { d with vrAlertN := false })
      else s.onDev fun d => { d with vrAlertN := false }) :=
  if_neg (by rw [hp, ha]; decide)

theorem managing_powered {s : State} (h : managing s = true) : s.dev.powered = true := by
  simp only [managing, Bool.and_eq_true] at h
  exact h.1.1.1.1

section
variable {s : State} (hm : managing s = true) (ha : s.dev.vrAlertN = true) (hb : s.power.bus = [])
  (hc0 : commanded (s.rail (0 : Fin 2)) = true) (hc1 : commanded (s.rail (1 : Fin 2)) = true)
  (hs0 : (s.rail (0 : Fin 2)).step = none) (hs1 : (s.rail (1 : Fin 2)).step = none)
include hb hc0 hc1 hs0 hs1

include hm ha in
theorem exec_vrAlertAssert_lowered :
    exec .vrAlertAssert s = .next (bothLowered (s.onDev fun d => { d with vrAlertN := false })) :=
  (exec_vrAlertAssert (managing_powered hm) ha).trans ((next_ite_of_pos hm).trans
    (next_congr (enterLowest_eq (s := s.onDev fun d => { d with vrAlertN := false }) hb hc0 hc1 hs0 hs1)))

theorem alertLowered_frame :
    Only [.dev, .power, .out] s (bothLowered (s.onDev fun d => { d with vrAlertN := false })) := by
  have hdev : Only [.dev, .power, .out] s (s.onDev fun d => { d with vrAlertN := false }) :=
    (Keeps.onDevSame (l := [.dev, .power, .out]) (f := fun d => { d with vrAlertN := false }) (by decide)
      (fun _ => ⟨rfl, rfl, rfl⟩) (.refl _ s)).1
  exact hdev.trans ((bothLowered_frame (s := s.onDev fun d => { d with vrAlertN := false }) hb hc0 hc1 hs0 hs1).mono (by decide))

end

/-! ### The release of the alert -/

theorem waitingSteps_idle {d : Nat} {s : State} (h : s.power.bus = []) : (execVrAlertRelease.waitingSteps d s).power =
    { s.power with retries := (execVrAlertRelease.waitingSteps d s).power.retries } := by
  simp only [execVrAlertRelease.waitingSteps, State.onPower, h, List.take_nil, List.drop_nil, List.filter_nil, List.append_nil]

theorem returnRail_busy {d : Fin 2} {s : State} (hb : s.power.bus ≠ []) (hc : commanded (s.rail d) = true)
    (hs : (s.rail d).step ≠ some .restore) :
    returnRail d s = s.onPower fun p => { p with bus := p.bus ++ [stepTxn d .ret] } := by
  unfold returnRail
  dsimp only
  rw [if_neg (by rw [hc]; decide), if_neg hs, enqueue_of_busy _ hb]

/-- The alert released, and both regulators read and cleared on an idle bus (14 R375). -/
def alertQueued (s : State) : State :=
  { ((execVrAlertRelease.waitingSteps 1 (execVrAlertRelease.waitingSteps 0 ((s.onDev fun d => { d with vrAlertN := true }).onPower
      fun p => { p with lowest := false, returning := true }))).onPower fun p => { p with
        bus := [plainTxn 0 0x79 0, plainTxn 1 0x79 0, plainTxn 0 0x03 0, plainTxn 1 0x03 0] }) with
    out := { s.out with pmbus := s.out.pmbus ++ [busBytes (plainTxn 0 0x79 0)] } }

/-- A step of the return put behind what the bus holds. -/
def returnQueued (d : Fin 2) (s : State) : State := s.onPower fun p => { p with bus := p.bus ++ [stepTxn d .ret] }

/-- The release at an idle bus: both regulators read and cleared, then both rails stepped back (14 R375). -/
def alertReleased (s : State) : State := returnQueued 1 (returnQueued 0 (alertQueued s))

theorem returnQueued_rail (d : Fin 2) (s : State) (m : Nat) : (returnQueued d s).rail m = s.rail m := rfl

theorem waitingSteps_rail (d : Nat) (s : State) (m : Nat) : (execVrAlertRelease.waitingSteps d s).rail m = s.rail m := rfl

theorem alertQueued_rail (s : State) (m : Nat) : (alertQueued s).rail m = s.rail m :=
  (waitingSteps_rail 1 _ m).trans (waitingSteps_rail 0 _ m)

theorem waitingSteps_bus_of_nil {d : Nat} {s : State} (h : s.power.bus = []) :
    (execVrAlertRelease.waitingSteps d s).power.bus = [] :=
  (congrArg Power.bus (waitingSteps_idle h)).trans h

/-- The four transactions that read and clear the regulators, put on an idle bus. -/
theorem enqueue_plain_idle {s : State} {b : PmTxn} {l : List PmTxn} (h : s.power.bus = []) (hb : b.step = none) :
    enqueue (b :: l) s = { (s.onPower fun p => { p with bus := b :: l }) with
      out := { s.out with pmbus := s.out.pmbus ++ [busBytes b] } } :=
  (enqueue_of_idle _ h).trans (beginTxn_of_plain (s := s.onPower fun p => { p with bus := b :: l }) rfl hb)

section
variable {s : State} (hm : managing s = true) (ha : s.dev.vrAlertN = false) (hl : s.power.lowest = true)
  (hb : s.power.bus = []) (hc0 : commanded (s.rail (0 : Fin 2)) = true) (hc1 : commanded (s.rail (1 : Fin 2)) = true)
  (hs0 : (s.rail (0 : Fin 2)).step ≠ some .restore) (hs1 : (s.rail (1 : Fin 2)).step ≠ some .restore)
include hm ha hl hb hc0 hc1 hs0 hs1

theorem exec_vrAlertRelease_eq : exec .vrAlertRelease s = .next (alertReleased s) := by
  change execVrAlertRelease s = _
  unfold execVrAlertRelease
  rw [if_neg (by rw [managing_powered hm, ha]; decide)]
  dsimp only
  rw [managing_onDev_alert, if_neg (by rw [hm]; exact fun h => h.elim Bool.noConfusion fun h => Bool.noConfusion (hl.symm.trans h))]
  have hq := enqueue_plain_idle (b := plainTxn 0 0x79 0) (l := [plainTxn 1 0x79 0, plainTxn 0 0x03 0, plainTxn 1 0x03 0])
    (waitingSteps_bus_of_nil (d := 1) (waitingSteps_bus_of_nil (d := 0)
      (s := (s.onDev fun d => { d with vrAlertN := true }).onPower fun p => { p with lowest := false, returning := true }) hb)) rfl
  refine next_congr ((congrArg (fun u => returnRail 1 (returnRail 0 u)) (hq : _ = alertQueued s)).trans ?_)
  have h0 : returnRail (0 : Fin 2) (alertQueued s) = returnQueued 0 (alertQueued s) :=
    returnRail_busy (List.cons_ne_nil _ _) ((congrArg commanded (alertQueued_rail s 0)).trans hc0)
      ((congrArg Rail.step (alertQueued_rail s 0)).trans_ne hs0)
  have h1 : returnRail (1 : Fin 2) (returnQueued 0 (alertQueued s)) = returnQueued 1 (returnQueued 0 (alertQueued s)) :=
    returnRail_busy (List.cons_ne_nil _ _)
      ((congrArg commanded ((returnQueued_rail 0 _ 1).trans (alertQueued_rail s 1))).trans hc1)
      ((congrArg Rail.step ((returnQueued_rail 0 _ 1).trans (alertQueued_rail s 1))).trans_ne hs1)
  exact (congrArg (returnRail (1 : Fin 2)) h0).trans h1

end

theorem alertQueued_frame (s : State) : Only [.dev, .power, .out] s (alertQueued s) := by
  refine (Keeps.set_out (l := [.dev, .power, .out]) (by decide) (.onPower (by decide) (execVrAlertRelease.waitingSteps_keeps 1
    (by decide) (execVrAlertRelease.waitingSteps_keeps 0 (by decide) (.onPower (by decide)
      (.onDevSame (by decide) (fun _ => ?_) (.refl _ s))))))).1
  exact ⟨rfl, rfl, rfl⟩

theorem alertReleased_frame (s : State) : Only [.dev, .power, .out] s (alertReleased s) :=
  (alertQueued_frame s).trans (((State.onPower_frame _ _).trans (State.onPower_frame _ _)).mono (by decide))

/-! ### The end of a transaction -/

theorem releaseHold_kept (d : Nat) (s : State) : (releaseHold d s).power.bus = s.power.bus ∧
    ∀ m, ((releaseHold d s).rail m).sent = (s.rail m).sent := by
  unfold releaseHold
  split
  · exact ⟨rfl, fun _ => rfl⟩
  · refine ⟨rfl, fun m => ?_⟩
    rw [State.rail, show (onRail d _ s).power.rails = vmod s.power.rails d _ from rfl, vget_vmod]
    split
    · rename_i h
      rw [h.1]
      rfl
    · rfl

/-- A rail whose step the acknowledged write has sent. -/
def stepSent (b : PmTxn) (s : State) : State :=
  if b.step.isSome ∧ (s.rail b.rail).step = b.step then onRail b.rail (fun r => { r with sent := true }) s else s

theorem stepSent_frame (b : PmTxn) (s : State) : Only [.power] s (stepSent b s) := by
  unfold stepSent
  split
  · exact onRail_frame _ _ _
  · exact Only.refl _ s

theorem stepSent_bus (b : PmTxn) (s : State) : (stepSent b s).power.bus = s.power.bus := by
  unfold stepSent
  split <;> rfl

theorem stepSent_sent {b : PmTxn} {s : State} (hs : b.step.isSome = true) (hr : (s.rail b.rail).step = b.step) :
    ((stepSent b s).rail b.rail).sent = true := by
  unfold stepSent
  rw [if_pos ⟨hs, hr⟩, rail_onRail_self b.rail.isLt]

/-- The state a last transaction leaves that is acknowledged, with no mode to read. -/
def acknowledged (b : PmTxn) (s : State) : State :=
  finishReturn (releaseHold b.rail (stepSent b (s.onPower fun p => { p with bus := [] })))

section
variable {s : State} {b : PmTxn}

theorem exec_transactionEnd_acknowledged {rd : BitVec 16} {pec : BitVec 8} (hb : s.power.bus = [b])
    (hcmd : b.cmd ≠ 0x20) (hpec : pecHolds b rd pec = true) :
    exec (.pmbusTransactionEnd true ⟨rd, pec⟩) s = .next (acknowledged b s) := by
  change execPmbusTransactionEnd true ⟨rd, pec⟩ s = _
  unfold execPmbusTransactionEnd
  rw [hb]
  dsimp only
  rw [hpec, beginTxn_of_nil rfl]
  unfold transactionDone
  rw [if_neg hcmd]
  rfl

theorem acknowledged_frame : Only [.power] s (acknowledged b s) :=
  (((State.onPower_frame s _).trans (stepSent_frame _ _)).trans (releaseHold_keeps _ (by decide) (.refl _ _)).1).trans
    (finishReturn_frame _)

theorem acknowledged_bus : (acknowledged b s).power.bus = [] :=
  (finishReturn_bus _).trans ((releaseHold_kept _ _).1.trans (stepSent_bus _ _))

theorem acknowledged_sent (hs : b.step.isSome = true) (hr : (s.rail b.rail).step = b.step) :
    ((acknowledged b s).rail b.rail).sent = true :=
  (congrArg Rail.sent (rail_finishReturn _ _)).trans (((releaseHold_kept _ _).2 _).trans
    (stepSent_sent (s := s.onPower fun p => { p with bus := [] }) hs hr))

end

theorem exec_transactionEnd_failed {s : State} {b : PmTxn} {l : List PmTxn} {ack : Bool} {rd : BitVec 16} {pec : BitVec 8}
    (hb : s.power.bus = b :: l) (hpec : (ack && pecHolds b rd pec) = false) :
    exec (.pmbusTransactionEnd ack ⟨rd, pec⟩) s = .next (finishReturn (transactionFailed b l s)) := by
  change execPmbusTransactionEnd ack ⟨rd, pec⟩ s = _
  unfold execPmbusTransactionEnd
  rw [hb]
  dsimp only
  rw [hpec]
  rfl

theorem transactionFailed_repeated {s : State} {b : PmTxn} {l : List PmTxn} (hr : b.retry = false)
    (hn : ¬ (b.cmd = 0x21 ∧ b.step = none)) (ht : b.tries < 3) :
    transactionFailed b l s = { (s.onPower fun p => { p with bus := { b with tries := b.tries + 1 } :: l }) with
      out := { s.out with pmbus := s.out.pmbus ++ [busBytes b] } } := by
  unfold transactionFailed
  rw [if_neg hn, if_neg (by rw [hr]; decide), if_pos ht]
  exact sendTxn_of_cons (t := { b with tries := b.tries + 1 }) (l := l) rfl

theorem exec_transactionEnd_idle {s : State} {ack : Bool} {rd : PmbusData} (h : s.power.bus = []) :
    exec (.pmbusTransactionEnd ack rd) s = .next s := by
  change execPmbusTransactionEnd ack rd s = _
  unfold execPmbusTransactionEnd
  rw [h]

/-- The state a transaction leaves that is sent again. -/
def repeated (b : PmTxn) (l : List PmTxn) (s : State) : State :=
  finishReturn { (s.onPower fun p => { p with bus := { b with tries := b.tries + 1 } :: l }) with
    out := { s.out with pmbus := s.out.pmbus ++ [busBytes b] } }

section
variable {s : State} {b : PmTxn} {l : List PmTxn}

theorem exec_transactionEnd_repeated {ack : Bool} {rd : BitVec 16} {pec : BitVec 8}
    (hb : s.power.bus = b :: l) (hpec : (ack && pecHolds b rd pec) = false) (hr : b.retry = false)
    (hn : ¬ (b.cmd = 0x21 ∧ b.step = none)) (ht : b.tries < 3) :
    exec (.pmbusTransactionEnd ack ⟨rd, pec⟩) s = .next (repeated b l s) :=
  (exec_transactionEnd_failed hb hpec).trans (next_congr (congrArg finishReturn (transactionFailed_repeated hr hn ht)))

theorem repeated_frame : Only [.power, .out] s (repeated b l s) :=
  (Keeps.set_out (by decide) (.onPower (by decide) (.refl _ s))).1.trans ((finishReturn_frame _).mono (by decide))

theorem repeated_out : (repeated b l s).out = { s.out with pmbus := s.out.pmbus ++ [busBytes b] } :=
  finishReturn_frame _ .out (by decide)

end

/-- The state of a transaction that failed for the fourth time, before its event (14 R377). -/
def heldBack (b : PmTxn) (s : State) : State :=
  onRail b.rail (fun r => { r with hold := true })
    (s.onPower fun p => { p with bus := [], retries := p.retries ++ [{ b with retry := true }] })

theorem transactionFailed_given_up {s : State} {b : PmTxn} (hr : b.retry = false) (hn : ¬ (b.cmd = 0x21 ∧ b.step = none))
    (ht : 3 ≤ b.tries) : transactionFailed b [] s = recordEvent 0x33 5 b.rail 0 15 b.cmd.toNat (heldBack b s) := by
  unfold transactionFailed
  rw [if_neg hn, hr, if_neg (by decide), if_neg (Nat.not_lt.2 ht)]
  exact beginTxn_of_nil (congrArg Power.bus (recordEvent_frame 0x33 5 b.rail 0 15 b.cmd.toNat (heldBack b s) .power (by decide)))

/-- The state a given-up transaction leaves. -/
def faulted (b : PmTxn) (s : State) : State := finishReturn (recordEvent 0x33 5 b.rail 0 15 b.cmd.toNat (heldBack b s))

section
variable {b : PmTxn} {s : State}

theorem heldBack_frame : Only [.power] s (heldBack b s) := (State.onPower_frame s _).trans (onRail_frame _ _ _)

theorem faulted_frame : Only [.power, .nv, .dev] s (faulted b s) :=
  ((heldBack_frame.mono (by decide)).trans ((recordEvent_frame 0x33 5 b.rail 0 15 b.cmd.toNat (heldBack b s)).mono (by decide))).trans
    ((finishReturn_frame _).mono (by decide))

theorem recordEvent_power (ty sev unit inst res : Nat) (loc : Nat) (s : State) :
    (recordEvent ty sev unit inst res loc s).power = s.power := recordEvent_frame ty sev unit inst res loc s .power (by decide)

theorem faulted_bus : (faulted b s).power.bus = [] := (finishReturn_bus _).trans (congrArg Power.bus (recordEvent_power _ _ _ _ _ _ _))

theorem faulted_retries : (faulted b s).power.retries = s.power.retries ++ [{ b with retry := true }] :=
  (finishReturn_retries _).trans (congrArg Power.retries (recordEvent_power _ _ _ _ _ _ _))

theorem faulted_hold : ((faulted b s).rail b.rail).hold = true :=
  (congrArg Rail.hold (rail_finishReturn _ _)).trans ((congrArg (fun p => (vget (Power.rails p) b.rail.val Rail.reset).hold)
    (recordEvent_power 0x33 5 b.rail 0 15 b.cmd.toNat (heldBack b s))).trans
      (congrArg Rail.hold (rail_onRail_self b.rail.isLt _ _)))

theorem faulted_event : eventWritten 0x33 s (faulted b s) := by
  have he := recordEvent_type 0x33 5 b.rail 0 15 b.cmd.toNat (heldBack b s)
  unfold eventWritten
  rw [faulted, finishReturn_frame _ .nv (by decide)]
  exact he

end

theorem exec_transactionEnd_given_up {s : State} {b : PmTxn} {ack : Bool} {rd : BitVec 16} {pec : BitVec 8}
    (hb : s.power.bus = [b]) (hpec : (ack && pecHolds b rd pec) = false) (hr : b.retry = false)
    (hn : ¬ (b.cmd = 0x21 ∧ b.step = none)) (ht : 3 ≤ b.tries) :
    exec (.pmbusTransactionEnd ack ⟨rd, pec⟩) s = .next (faulted b s) :=
  (exec_transactionEnd_failed hb hpec).trans (next_congr (congrArg finishReturn (transactionFailed_given_up hr hn ht)))

theorem exec_voltageStepEnd_eq {d : Die} {s : State} {k : StepKind} (hk : (s.rail (dieNum d)).step = some k)
    (hs : (s.rail (dieNum d)).sent = true) (hx : (s.rail (dieNum d)).next = none) (hl : ¬ (k = .restore ∧ s.power.lowest = true)) :
    exec (.voltageStepEnd d) s =
      .next (finishReturn (onRail (dieNum d) (fun r => { r with step := none, sent := false }) s)) := by
  refine (if_neg (by rw [hk, hs]; exact fun h => h.elim (fun h => nomatch h) fun h => nomatch h)).trans
    ((next_ite_of_neg (by rw [hk, Option.some.injEq]; exact hl)).trans ?_)
  rw [resumeReturn_of_none (by rw [rail_onRail_self (dieNum_lt d)]; exact hx)]

/-! ### The repeat of failed transactions -/

theorem enqueue_retries (l : List PmTxn) (s : State) : (enqueue l s).power.retries = s.power.retries := by
  by_cases h : s.power.bus = []
  · rw [enqueue_of_idle _ h, beginTxn_retries]
    rfl
  · rw [enqueue_of_busy _ h]
    rfl

theorem enqueue_commands (l : List PmTxn) (s : State) : (enqueue l s).power.bus.map (fun b => (b.rail, b.cmd)) =
    (s.power.bus ++ l).map fun b => (b.rail, b.cmd) := by
  by_cases h : s.power.bus = []
  · rw [enqueue_of_idle _ h, beginTxn_commands, h]
    rfl
  · rw [enqueue_of_busy _ h]
    rfl

end Sys2Proof.Machine

namespace Sys2Proof.Proofs

open Machine Claims

theorem pmbusRetry_outcome (d : Die) (s : State) : ∃ t, exec (.pmbusRetry d) s = .next t ∧ Only [.power, .out] s t ∧
    t.power.retries = s.power.retries.filter (fun b => decide (b.rail.val ≠ dieNum d)) ∧
    t.power.bus.map (fun b => (b.rail, b.cmd)) =
      (s.power.bus ++ s.power.retries.filter fun b => decide (b.rail.val = dieNum d)).map fun b => (b.rail, b.cmd) := by
  refine ⟨_, rfl, (Keeps.ite (fun _ => .refl _ s) fun _ => enqueue_keeps _ (by decide) (by decide)
    (.onPower (by decide) (.refl _ s))).1, ?_⟩
  simp only [← decide_not]
  split
  · rename_i h
    rw [h, List.append_nil]
    refine ⟨(List.filter_eq_self.2 fun b hb => ?_).symm, rfl⟩
    have := List.filter_eq_nil_iff.1 h b hb
    simpa using this
  · exact ⟨enqueue_retries _ _, enqueue_commands _ _⟩

theorem onPower_bus_ne {s : State} (d : Die) (h : ∀ b ∈ s.power.retries, b.rail.val ≠ dieNum d) :
    s.power.retries.filter (fun b => decide (b.rail.val = dieNum d)) = [] :=
  List.filter_eq_nil_iff.2 fun b hb hd => h b hb (of_decide_eq_true hd)

/-- Settles O60: a lemma per command over the rail, the bus and the output it changes. -/
theorem powerManager : Obligations.PowerManager := by
  unfold Obligations.PowerManager
  intro d s n r w
  refine ⟨fun a b c k => ⟨fun h => next_ite_of_neg h, fun hm ho => ⟨_, next_ite_of_pos ⟨hm, ho⟩, State.onPower_frame _ _, rfl,
      selectK_mem _ _, selectK_fits _ _, selectK_greatest _ _⟩⟩,
    fun det => ⟨fun h => if_pos h, fun hm => ⟨_, exec_droopTrip hm, droopTripped_frame _ _ _,
      droopTripped_rail_ne (n := dieFin d) (other_die_ne d), (droopTripped_clamped (dieFin d) det s).1,
      droopTripped_flag (dieFin d) det s, droopTripped_fixed (dieNum_lt d), droopTripped_rising (n := dieFin d)⟩⟩,
    fun h => next_ite_of_neg (Bool.eq_false_iff.1 h), fun h hx => ⟨_, exec_droopClampRelease h hx, onRail_frame _ _ _, rfl,
      rail_onRail_self (dieNum_lt d) _ _, rail_onRail_ne (other_die_ne d) _ _⟩,
    fun h => if_pos h, fun hp ha hm => (exec_vrAlertAssert hp ha).trans (next_ite_of_neg (Bool.eq_false_iff.1 hm)),
    fun hm ha hb hc0 hc1 hs0 hs1 => ⟨_, exec_vrAlertAssert_lowered hm ha hb hc0 hc1 hs0 hs1,
      alertLowered_frame hb hc0 hc1 hs0 hs1, rfl, rfl, rfl, rfl, bothLowered_kCap _, bothLowered_target _,
      bothLowered_step _, (bothLowered_step_other _).trans hs1, rfl, rfl⟩,
    fun h => if_pos h, fun hp ha h => (if_neg (by rw [hp, ha]; decide)).trans (if_pos h),
    fun hm ha hl hb hc0 hc1 hs0 hs1 => ⟨_, exec_vrAlertRelease_eq hm ha hl hb hc0 hc1 hs0 hs1, alertReleased_frame s,
      rfl, rfl, rfl, rfl, rfl⟩,
    fun ack rd h => exec_transactionEnd_idle h, fun b rd pec hb hcmd hpec => ⟨_, exec_transactionEnd_acknowledged hb hcmd hpec,
      acknowledged_frame, acknowledged_bus, acknowledged_sent⟩,
    fun b l ack rd pec hb hr hs hp => ⟨fun ht => ⟨_, exec_transactionEnd_repeated hb hp hr hs ht, repeated_frame, repeated_out,
      finishReturn_bus _, finishReturn_rails _, finishReturn_retries _⟩, fun ht hl => ⟨_, exec_transactionEnd_given_up (hl ▸ hb) hp hr hs ht,
      faulted_frame, faulted_bus, faulted_retries, faulted_hold, faulted_event⟩⟩,
    fun h => next_ite_of_pos (onPower_bus_ne d h), pmbusRetry_outcome d s, fun h => if_pos h,
    fun k hk hs hx hl => ⟨_, exec_voltageStepEnd_eq hk hs hx hl, (onRail_frame _ _ _).trans (finishReturn_frame _),
      finishReturn_bus _, (rail_finishReturn _ _).trans (rail_onRail_self (dieNum_lt d) _ s),
      (rail_finishReturn _ _).trans (rail_onRail_ne (other_die_ne d) _ _)⟩⟩

end Sys2Proof.Proofs
end

section
/-! SUPPORT. What becomes of a datagram at port M, and sessions, notices, reports (11 R310 to R332). -/

set_option Elab.async false

namespace Sys2Proof.Machine

open Claims

/-! ### The gate of port M -/

theorem reaches_iff (s : State) (r : EopReq) : reaches s r = true ↔ ToPortM r s := by
  simp [reaches, ToPortM, and_assoc]

section
variable {opc : Nat} {r : EopReq} {s : State}

theorem eopGate_of_elsewhere (h : ¬ ToPortM r s) : eopGate opc r s = .drop s :=
  if_pos (by rw [← Bool.not_eq_true, reaches_iff]; exact h)

theorem eopGate_of_badFraming (h : ToPortM r s) (hf : badFraming opc r = true) :
    eopGate opc r s = .drop (s.onEop fun e => { e with discarded := satInc e.discarded }) :=
  (if_neg (by rw [(reaches_iff s r).2 h]; decide)).trans (if_pos hf)

theorem eopGate_of_overRate (h : ToPortM r s) (hf : badFraming opc r = false) (hr : 100 ≤ (recentTimes s).length) :
    eopGate opc r s = .drop (s.onEop fun e => { e with overRate := satInc e.overRate }) :=
  (if_neg (by rw [(reaches_iff s r).2 h]; decide)).trans ((if_neg (by rw [hf]; decide)).trans (if_pos hr))

section
variable (h : ToPortM r s) (hf : badFraming opc r = false) (hr : (recentTimes s).length < 100)
include h hf hr

theorem eopGate_of_zeroTag (h0 : r.session = 0) (ht : reqTag r = zeros 16) : eopGate opc r s = .open' none (admitted s) := by
  unfold eopGate
  rw [if_neg (by rw [(reaches_iff s r).2 h]; decide), if_neg (by rw [hf]; decide), if_neg (Nat.not_le.2 hr)]
  exact (if_pos h0).trans (if_pos ht)

theorem eopGate_of_tagged (h0 : r.session = 0) (ht : reqTag r ≠ zeros 16) :
    eopGate opc r s = .drop (badTagAnswer opc r (admitted s)) := by
  unfold eopGate
  rw [if_neg (by rw [(reaches_iff s r).2 h]; decide), if_neg (by rw [hf]; decide), if_neg (Nat.not_le.2 hr)]
  exact (if_pos h0).trans (if_neg ht)

variable (h0 : r.session ≠ 0)
include h0

theorem eopGate_of_noSession (hx : sessionOf s r.session = none) :
    eopGate opc r s = .drop (sendM (answer opc r r.session none stNoSession []) (admitted s)) := by
  have hx' : sessionOf (admitted s) r.session = none := hx
  unfold admitted at hx'
  unfold eopGate
  rw [if_neg (by rw [(reaches_iff s r).2 h]; decide), if_neg (by rw [hf]; decide), if_neg (Nat.not_le.2 hr)]
  refine (if_neg h0).trans ?_
  rw [hx']
  rfl

variable {x : Session} (hx : sessionOf s r.session = some x)
include hx

theorem eopGate_of_badTag (ht : tagHolds opc r x = false) (hp : ¬ (opc = opProve ∧ x.isOpen = false)) :
    eopGate opc r s = .drop (badTagAnswer opc r (admitted s)) := by
  have hx' : sessionOf (admitted s) r.session = some x := hx
  unfold admitted at hx'
  unfold eopGate
  rw [if_neg (by rw [(reaches_iff s r).2 h]; decide), if_neg (by rw [hf]; decide), if_neg (Nat.not_le.2 hr)]
  refine (if_neg h0).trans ?_
  rw [hx']
  exact (if_pos ht).trans (if_neg hp)

theorem eopGate_of_badProof (ht : tagHolds opc r x = false) (hp : opc = opProve ∧ x.isOpen = false) :
    eopGate opc r s = .open' (some x) (admitted s) := by
  have hx' : sessionOf (admitted s) r.session = some x := hx
  unfold admitted at hx'
  unfold eopGate
  rw [if_neg (by rw [(reaches_iff s r).2 h]; decide), if_neg (by rw [hf]; decide), if_neg (Nat.not_le.2 hr)]
  refine (if_neg h0).trans ?_
  rw [hx']
  exact (if_pos ht).trans (if_pos hp)

variable (ht : tagHolds opc r x = true)
include ht

theorem eopGate_of_accepted (hs : seqRule opc r x = .accept) : eopGate opc r s = .open' (some x) (admitted s) := by
  have hx' : sessionOf (admitted s) r.session = some x := hx
  unfold admitted at hx'
  unfold eopGate
  rw [if_neg (by rw [(reaches_iff s r).2 h]; decide), if_neg (by rw [hf]; decide), if_neg (Nat.not_le.2 hr)]
  refine (if_neg h0).trans ?_
  rw [hx']
  refine (if_neg (by rw [ht]; decide)).trans ?_
  rw [hs]
  rfl

theorem eopGate_of_resend {o : EopOut} (hs : seqRule opc r x = .resend) (ho : x.lastResp = some o) :
    eopGate opc r s = .drop (sendM o (admitted s)) := by
  have hx' : sessionOf (admitted s) r.session = some x := hx
  unfold admitted at hx'
  unfold eopGate
  rw [if_neg (by rw [(reaches_iff s r).2 h]; decide), if_neg (by rw [hf]; decide), if_neg (Nat.not_le.2 hr)]
  refine (if_neg h0).trans ?_
  rw [hx']
  refine (if_neg (by rw [ht]; decide)).trans ?_
  rw [hs, ho]
  rfl

theorem eopGate_of_old (hs : seqRule opc r x = .discard) : eopGate opc r s = .drop (admitted s) := by
  have hx' : sessionOf (admitted s) r.session = some x := hx
  unfold admitted at hx'
  unfold eopGate
  rw [if_neg (by rw [(reaches_iff s r).2 h]; decide), if_neg (by rw [hf]; decide), if_neg (Nat.not_le.2 hr)]
  refine (if_neg h0).trans ?_
  rw [hx']
  refine (if_neg (by rw [ht]; decide)).trans ?_
  rw [hs]
  rfl

end
end

/-! ### Sessions -/

theorem num_of_sessionOf {s : State} {n : BitVec 16} {x : Session} (h : sessionOf s n = some x) : x.num = n := by
  simpa using List.find?_some h

theorem sessionOf_map {l : List Session} {n : BitVec 16} {f : Session → Session} (hf : ∀ y, (f y).num = y.num) :
    (l.map fun y => if y.num = n then f y else y).find? (fun y => decide (y.num = n)) =
      (l.find? fun y => decide (y.num = n)).map f := by
  induction l with
  | nil => rfl
  | cons y l ih =>
    by_cases h : y.num = n
    · simp [h, hf]
    · simpa [h] using ih

theorem sessionOf_any {s : State} {n : BitVec 16} {x : Session} (h : sessionOf s n = some x) :
    s.eop.sessions.any (fun y => decide (y.num = n)) = true :=
  List.any_eq_true.2 ⟨x, List.mem_of_find?_eq_some h, by simpa using List.find?_some h⟩

/-- A session changed under its number. -/
theorem sessionOf_onSession {s : State} {n : BitVec 16} {f : Session → Session} {x : Session} (h : sessionOf s n = some x)
    (hf : ∀ y, (f y).num = y.num) : sessionOf (onSession n f s) n = some (f x) :=
  (sessionOf_map hf).trans (congrArg (Option.map f) h)

theorem sessionOf_responded {opc : Nat} {r : EopReq} {x : Session} {s : State} {st : Nat} {data : List Byte}
    (h : Heard opc r x s) : sessionOf (responded opc r x st data s) r.session = some { x with
      lastSeq := r.seqNo, lastReq := reqBytes opc r, lastResp := some (answer opc r x.num (some x.key) st data) } := by
  have hnum := num_of_heard h
  obtain ⟨-, -, -, -, hx, -⟩ := h
  have hx' : sessionOf (admitted s) r.session = some x := hx
  rw [← hnum] at hx' ⊢
  exact sessionOf_onSession (f := fun y => { y with
    lastSeq := r.seqNo, lastReq := reqBytes opc r, lastResp := some (answer opc r x.num (some x.key) st data) }) hx' fun _ => rfl

theorem gone_closeSession (n : BitVec 16) (s : State) : Gone n (closeSession n s) := fun y hy => by
  simpa using (List.mem_filter.1 hy).2

theorem closeSession_frame (n : BitVec 16) (s : State) : Only [.eop] s (closeSession n s) :=
  (closeSession_keeps n (by decide) (.refl _ s)).1

theorem onSession_frame (n : BitVec 16) (f : Session → Session) (s : State) : Only [.eop] s (onSession n f s) :=
  (onSession_keeps n f (by decide) (.refl _ s)).1

theorem admitted_frame (s : State) : Only [.eop] s (admitted s) := State.onEop_frame s _

theorem badTagAnswer_frame (opc : Nat) (r : EopReq) (s : State) : Only [.eop, .out] s (badTagAnswer opc r s) :=
  (badTagAnswer_keeps opc r (by decide) (by decide) (.refl _ s)).1

theorem sendM_frame (o : EopOut) (s : State) : Only [.out] s (sendM o s) := (sendM_keeps o (by decide) (.refl _ s)).1

/-! ### Opening and proving -/

theorem freeNumber_of_free {s : State} {n : BitVec 16} (k : Nat) (h0 : n ≠ 0) (hg : Gone n s) (hq : n ∉ s.eop.quarantine) :
    freeNumber s (k + 1) n = n := by
  refine if_neg fun h => ?_
  rcases h with h | h | h
  · exact h0 h
  · obtain ⟨y, hy, he⟩ := List.any_eq_true.1 h
    exact hg y hy (of_decide_eq_true he)
  · exact hq h

/-- The number of a session that is opened. -/
def openedNumber (s : State) : BitVec 16 := freeNumber s 65536 s.eop.nextNum

theorem openedNumber_of_free {s : State} (h0 : s.eop.nextNum ≠ 0) (hg : Gone s.eop.nextNum s)
    (hq : s.eop.nextNum ∉ s.eop.quarantine) : openedNumber s = s.eop.nextNum :=
  freeNumber_of_free 65535 h0 hg hq

theorem openSession_frame (r : EopReq) (s : State) : Only [.eop, .out, .free] s (openSession r s) :=
  (openSession_keeps r (by decide) (by decide) (by decide) (.refl _ s)).1

theorem exec_sessionOpen {r : EopReq} {s : State} (h : ToPortM r s) (hf : badFraming opOpen r = false)
    (hr : (recentTimes s).length < 100) (h0 : r.session = 0) (ht : reqTag r = zeros 16) (ho : openStatus s r = stOk) :
    exec (.sessionOpen r) s = .next (openSession r (admitted s)) := by
  have hg := eopGate_of_zeroTag h hf hr h0 ht
  change execSessionOpen r s = _
  unfold execSessionOpen
  rw [hg]
  exact next_ite_of_pos ho

/-- The partition a session is opened for. -/
def openedPart (r : EopReq) : Nat := leNat ((reqData r).take 1)

theorem openedPart_lt {r : EopReq} {s : State} (h : openStatus s r = stOk) : openedPart r < 8 := by
  unfold openStatus at h
  dsimp only at h
  split at h
  · exact absurd h (by decide)
  · have hd := worst_eq_ok h (n := when' _ stDenied) (List.mem_cons_of_mem _ (List.mem_cons_of_mem _ List.mem_cons_self))
    by_contra hn
    rw [show decide (leNat ((reqData r).take 1) > 7) = true from decide_eq_true (by unfold openedPart at hn; omega)] at hd
    simp only [Bool.true_or, when', if_true] at hd
    exact absurd hd (by decide)

/-- The nonce of the device for a session it opens, and the session. -/
def openedNonce (s : State) : List Byte := beBytes 16 (Config.nonce s.free).toNat

def openedSession (r : EopReq) (s : State) : Session :=
  { Session.reset with
    num := openedNumber s, unkeyed := decide (openedPart r = 0) && decide (vget s.nv.keys (openedPart r) 0 = 0),
    part := Fin.ofNat 8 (openedPart r), nonceH := (reqData r).drop 1, nonceD := openedNonce s,
    key := BitVec.ofNat 256 (beNat (handshakeMac s "VZ4-KEY" (openedPart r) (openedNumber s) ((reqData r).drop 1) (openedNonce s))) }

theorem openSession_sessions (r : EopReq) (s : State) :
    (openSession r s).eop.sessions = s.eop.sessions ++ [openedSession r s] := rfl

theorem openSession_out (r : EopReq) (s : State) : (openSession r s).out = { s.out with portM := s.out.portM ++
    [answer opOpen r (openedNumber s) none stOk (openedNonce s ++
      handshakeMac s "VZ4-DEV" (openedPart r) (openedNumber s) ((reqData r).drop 1) (openedNonce s))] } := rfl

/-- The proof a host has to bring (11 R318). -/
def hostProof (s : State) (x : Session) : List Byte := handshakeMac s "VZ4-HOST" x.part x.num x.nonceD x.nonceH

theorem exec_sessionProve_failed {r : EopReq} {s : State} {x : Session} (hg : eopGate opProve r s = .open' (some x) (admitted s))
    (hx : x.isOpen = false) (hp : ¬ (tagHolds opProve r x = true ∧ reqData r = hostProof s x)) :
    exec (.sessionProve r) s =
      .next (badTagAnswer opProve r (countFailure x.part.val (closeSession x.num (admitted s)))) := by
  change execSessionProve r s = _
  unfold execSessionProve
  rw [hg]
  exact if_pos ⟨hx, hp⟩

/-- The session a proof opens. -/
def Session.proved (r : EopReq) (x : Session) : Session :=
  { x with
    isOpen := true, host := r.src, answers := r.dip, lastSeq := r.seqNo, lastReq := reqBytes opProve r,
    lastResp := some (answer opProve r x.num (some x.key) stOk []) }

theorem exec_sessionProve_proved {r : EopReq} {s : State} {x : Session} (hg : eopGate opProve r s = .open' (some x) (admitted s))
    (hx : x.isOpen = false) (ht : tagHolds opProve r x = true) (hd : reqData r = hostProof s x) (hres : reservedSet r = false) :
    exec (.sessionProve r) s = .next (sendM (answer opProve r x.num (some x.key) stOk [])
      (onSession x.num (fun y => { y with isOpen := true, host := r.src, answers := r.dip })
        (onSession x.num (fun y => { y with
          lastSeq := r.seqNo, lastReq := reqBytes opProve r, lastResp := some (answer opProve r x.num (some x.key) stOk []) })
          (admitted s)))) := by
  change execSessionProve r s = _
  unfold execSessionProve
  rw [hg]
  refine (if_neg fun h => h.2 ⟨ht, hd⟩).trans ?_
  rw [hres, hx]
  rfl

end Sys2Proof.Machine

namespace Sys2Proof.Proofs

open Machine Claims

/-- Settles O42: the gate lets the datagram through, then what each row makes of the sessions. -/
theorem sessionLife : Obligations.SessionLife := by
  unfold Obligations.SessionLife
  intro r s h hr
  refine ⟨fun hf h0 ht ho hn hg hq => ?_, fun x hf h0 hx hopen ht hseq hres hd => ?_, fun x hf h0 hx hopen hbad => ?_,
    fun x hh hdev hlen hres => ?_⟩
  · have hnum : openedNumber (admitted s) = s.eop.nextNum := openedNumber_of_free (s := admitted s) hn hg hq
    have hp : (Fin.ofNat 8 (openedPart r)).val = openedPart r := Nat.mod_eq_of_lt (openedPart_lt ho)
    refine ⟨_, _, openedNonce (admitted s), exec_sessionOpen h hf hr h0 ht ho,
      ((admitted_frame s).mono (by decide)).trans (openSession_frame r _), openSession_sessions r _, hnum, rfl, hp, ?_, rfl, rfl,
      ?_, ?_⟩
    · change (decide (openedPart r = 0) && decide (vget s.nv.keys (openedPart r) 0 = 0)) =
        decide ((Fin.ofNat 8 (openedPart r)).val = 0 ∧ vget s.nv.keys 0 0 = 0)
      rw [hp, Bool.decide_and]
      by_cases hz : openedPart r = 0
      · rw [hz]
      · simp [hz]
    · rw [show ((openedSession r (admitted s)).part : Nat) = _ from hp]
      rfl
    · rw [openSession_out, show ((openedSession r (admitted s)).part : Nat) = _ from hp]
      rfl
  · have hnum := num_of_sessionOf hx
    have hgate := eopGate_of_accepted h hf hr h0 hx ht hseq
    have hadm : sessionOf (admitted s) x.num = some x := by rw [hnum]; exact hx
    refine ⟨_, x.proved r, exec_sessionProve_proved hgate hopen ht hd hres, ?_, ?_, rfl, rfl⟩
    · exact ((((admitted_frame s).trans (onSession_frame _ _ _)).trans (onSession_frame _ _ _)).mono (by decide)).trans
        ((sendM_frame _ _).mono (by decide))
    · rw [← hnum]
      exact sessionOf_onSession (f := fun y => { y with isOpen := true, host := r.src, answers := r.dip })
        (sessionOf_onSession (f := fun y => { y with
          lastSeq := r.seqNo, lastReq := reqBytes opProve r, lastResp := some (answer opProve r x.num (some x.key) stOk []) })
          hadm fun _ => rfl) fun _ => rfl
  · have hnum := num_of_sessionOf hx
    have hgate : eopGate opProve r s = .open' (some x) (admitted s) := by
      cases ht : tagHolds opProve r x with
      | false => exact eopGate_of_badProof h hf hr h0 hx ht ⟨rfl, hopen⟩
      | true => exact eopGate_of_accepted h hf hr h0 hx ht (by simpa [ht] using hbad : _ ∧ _).1
    have hproof : ¬ (tagHolds opProve r x = true ∧ reqData r = hostProof s x) := fun hp => by
      rcases hbad with hb | hb
      · rw [hb] at hp; exact absurd hp.1 (by decide)
      · exact hb.2 hp.2
    refine ⟨_, exec_sessionProve_failed hgate hopen hproof, ?_, ?_, rfl, rfl, rfl⟩
    · exact (badTagAnswer_keeps _ _ (by decide) (by decide) (countFailure_keeps _ (by decide)
        (closeSession_keeps _ (by decide) (.onEop (by decide) (.refl _ s))))).1
    · rw [← hnum]
      exact gone_closeSession x.num (admitted s)
  · have hnum := num_of_heard hh
    have hrun := eopRun_of_heard hh (fun x s => if booting s then (stNotReady, []) else match x with
      | none => (stNoSession, [])
      | some _ => (worst [when' (decide (r.len ≠ 0)) stType, when' (reservedSet r) stRange], []))
      (onOk fun x s => match x with | some y => closeSession y.num s | none => s) (st := stOk) (by
        rw [show booting (admitted s) = false from decide_eq_false hdev, hlen, hres]
        rfl)
    obtain ⟨hout, heop⟩ := answered_of_heard hh stOk []
    have hframe := (responded_frame opClose r x stOk [] s).trans ((closeSession_frame x.num _).mono (by decide))
    refine ⟨closeSession x.num (responded opClose r x stOk [] s), congrArg Host.Outcome.next hrun, hframe, ?_, ?_, hout⟩
    · rw [← hnum]
      exact gone_closeSession _ _
    · have hany : (responded opClose r x stOk [] s).eop.sessions.any (fun y => decide (y.num = x.num)) = true := by
        rw [hnum]
        exact sessionOf_any (sessionOf_responded hh)
      change (if _ then _ else _) = _
      rw [if_pos hany, hnum]
      rfl

end Sys2Proof.Proofs
end

section
/-! SUPPORT. The timers of sessions, notices and reports (11 R318 to R332, 12 R347). -/

set_option Elab.async false

namespace Sys2Proof.Machine

open Claims

theorem eraseIdx_findIdx {α : Type} {p : α → Bool} {a b : List α} {x : α} (ha : ∀ y ∈ a, p y = false) (hx : p x = true) :
    (a ++ x :: b).eraseIdx ((a ++ x :: b).findIdx p) = a ++ b := by
  induction a with
  | nil => simp [List.findIdx_cons, hx]
  | cons y a ih =>
    have hy := ha y List.mem_cons_self
    simpa [List.findIdx_cons, hy] using ih fun z hz => ha z (List.mem_cons_of_mem _ hz)

theorem exec_sessionProveTimeout {s : State} {n : BitVec 16} {x : Session} (h : sessionOf s n = some x) :
    exec (.sessionProveTimeout n) s = .next (if x.isOpen then s else closeSession n s) := by
  change execSessionProveTimeout n s = _
  unfold execSessionProveTimeout
  rw [h]

theorem exec_sessionIdleTimeout {s : State} {n : BitVec 16} {x : Session} (h : sessionOf s n = some x) :
    exec (.sessionIdleTimeout n) s = .next (if x.isOpen then closeSession n s else s) := by
  change execSessionIdleTimeout n s = _
  unfold execSessionIdleTimeout
  rw [h]

theorem snap_onSession {s : State} {n : BitVec 16} {y : Session}
    (hy : y ∈ (onSession n (fun x => { x with snap := none }) s).eop.sessions) (hn : y.num = n) : y.snap = none := by
  obtain ⟨z, -, rfl⟩ := List.mem_map.1 hy
  split at hn <;> rename_i h
  · rw [if_pos h]
  · exact absurd hn h

/-- A notice of a session that waits for its acknowledgement, the only one: sent again, or given up. -/
theorem exec_notifyRetransmit {s : State} {num : BitVec 16} {x : Session} {n : BitVec 32} {k : Nat} {d : List Byte}
    (hx : sessionOf s num = some x) (hu : x.unacked = [(n, k, d)]) : exec (.notifyRetransmit num n) s =
      if k = 0 then .next (onSession num (fun x => { x with unacked := x.unacked.filter fun v => decide (v.1 ≠ n) }) s)
      else .next (sendM (noticeOf s.eop.cfg.udpPort x n d) (onSession num (fun x => { x with
        unacked := x.unacked.map fun v => if v.1 = n then (v.1, v.2.1 - 1, v.2.2) else v }) s)) := by
  change execNotifyRetransmit num n s = _
  unfold execNotifyRetransmit
  rw [hx]
  dsimp only
  rw [hu, List.find?_cons_of_pos (by simp)]

theorem exec_notifyAck {r : EopReq} {s : State} {x : Session} (h : ToPortM r s) (hrsp : r.rsp = true)
    (hf : badFraming opNotify r = false) (h0 : r.session ≠ 0) (hx : sessionOf s r.session = some x)
    (ht : tagHolds opNotify r x = true) (ha : ackStatus r (some x) s = stOk) : exec (.notifyAck r) s =
      .next (onSession x.num (fun x => { x with unacked := x.unacked.filter fun u => decide (u.1 ≠ r.seqNo) }) s) := by
  change execNotifyAck r s = _
  unfold execNotifyAck
  rw [if_neg (by rw [(reaches_iff s r).2 h, hrsp]; decide), if_neg (by rw [hf]; decide), if_neg h0, hx]
  exact (if_neg (by rw [ht]; decide)).trans (next_ite_of_pos ha)

/-! ### Reports -/

/-- A report takes a slot and waits there for its signature (11 R332). -/
def takeSlot (n : Nat) (body : List Byte) (s : State) : State :=
  s.onAtt fun a => { a with
    slots := vmod a.slots n fun _ => ⟨true, body⟩, age := a.age.drop 1 ++ [n], fifo := a.fifo ++ [n], number := a.number + 1 }

theorem exec_attest (r : EopReq) (s : State) : exec (.attest r) s = .next (eopRun opAttest r (fun _ s => judgeAttest r s)
    (onOk fun _ s => takeSlot (oldestSlot s) (reportBody s s.att.number (reqData r)) s) s) := rfl

/-- A heard request whose judgement comes with data. -/
theorem eopRun_of_heard_data {opc : Nat} {r : EopReq} {x : Session} {s : State} (h : Heard opc r x s)
    (judge : Option Session → State → Nat × List Byte) (act : Nat → Option Session → State → State) {data : List Byte}
    (hj : judge (some x) (admitted s) = (stOk, data)) :
    eopRun opc r judge act s = act stOk (some x) (responded opc r x stOk data s) := by
  have hgate := eopGate_of_heard h
  obtain ⟨-, -, -, -, -, hopen, -⟩ := h
  simp only [eopRun, hgate, hopen, if_true, hj]
  rfl

theorem reportBody_head (s : State) (n : BitVec 32) (nonce : List Byte) :
    (reportBody s n nonce).take 12 = ascii "VZAR" ++ leBytes 2 1 ++ zeros 2 ++ leBytes 4 n.toNat := by
  have h : ∃ l, reportBody s n nonce = (ascii "VZAR" ++ leBytes 2 1 ++ zeros 2 ++ leBytes 4 n.toNat) ++ l := by
    unfold reportBody
    simp only [List.append_assoc]
    exact ⟨_, rfl⟩
  obtain ⟨l, hl⟩ := h
  rw [hl]
  exact List.take_left' rfl

/-- The reservation record of the leaves from the next one on (12 R347). -/
@[irreducible] def reservation (s : State) : IdRec :=
  ⟨BitVec.ofNat 32 ((s.nv.idRing.map fun r => r.2.seqNo.toNat).foldl max 0 + 1), min (s.att.lim + 1024) (2 ^ 30),
    if s.att.q % 2 ^ 15 = 0 then topSignature s.nv.idKey (s.att.q / 2 ^ 15) else s.att.topSig⟩

theorem reservation_lim (s : State) : (reservation s).lim = min (s.att.lim + 1024) (2 ^ 30) := by rw [reservation]

theorem reservation_topSig (s : State) : (reservation s).topSig =
    if s.att.q % 2 ^ 15 = 0 then topSignature s.nv.idKey (s.att.q / 2 ^ 15) else s.att.topSig := by rw [reservation]

theorem reserveLeaves_of_covered {s : State} (h : s.att.q ≠ s.att.lim) : reserveLeaves s = s := if_pos h

theorem reserveLeaves_of_due {s : State} (h : s.att.q = s.att.lim) : reserveLeaves s =
    (s.onNv fun n => { n with idRing := mapSet n.idRing n.idPos (reservation s), idPos := (n.idPos + 1) % 32 }).onAtt
      fun a => { a with lim := (reservation s).lim, topSig := (reservation s).topSig } := by
  unfold reserveLeaves reservation
  exact if_neg (not_not_intro h)

theorem reserveLeaves_q (s : State) : (reserveLeaves s).att.q = s.att.q := by
  by_cases h : s.att.q = s.att.lim
  · rw [reserveLeaves_of_due h]
    rfl
  · rw [reserveLeaves_of_covered h]

/-- A slot with its signature. -/
def signedSlot (s : State) (x : AttSlot) : AttSlot := ⟨false, x.value ++ hssSignature s.nv.idKey s.att.topSig s.att.q x.value⟩

theorem exec_attestSignEnd {s : State} {n : Nat} {l : List Nat} (h : s.att.fifo = n :: l) (hl : leavesLeft s ≠ 0) :
    exec .attestSignEnd s = .next ((reserveLeaves s).onAtt fun a => { a with
      slots := vmod a.slots n (signedSlot (reserveLeaves s)), fifo := l, q := s.att.q + 1 }) := by
  change execAttestSignEnd s = _
  unfold execAttestSignEnd
  rw [h]
  refine (if_neg hl).trans ?_
  rw [← reserveLeaves_q s]
  rfl

theorem leavesLeft_bound {s : State} (h : leavesLeft s ≠ 0) : s.att.q < 2 ^ 30 := by
  unfold leavesLeft at h
  split at h
  · omega
  · exact absurd rfl h

end Sys2Proof.Machine

namespace Sys2Proof.Proofs

open Machine Claims

/-- Settles O43: a lemma per timer over the sessions it finds. -/
theorem sessionTimersAndNotices : Obligations.SessionTimersAndNotices := by
  unfold Obligations.SessionTimersAndNotices
  intro num s
  refine ⟨fun x hx => ⟨fun ho => ?_, fun ho => ?_, fun ho => ?_, fun ho => ?_⟩, fun p => ?_, ⟨_, rfl, State.onEop_frame s _, rfl⟩,
    ⟨_, rfl, ?_, fun h => ?_, fun h => ?_⟩, fun a b x hs ha hx => ⟨_, rfl, State.onEop_frame s _, ?_⟩, ⟨_, rfl, ?_, ?_⟩,
    fun x n k d hx hu => ⟨fun hk => ?_, fun hk => ?_⟩, fun r x h hrsp hf hlen h0 hres hdev hx ht => ?_⟩
  · exact ⟨_, (exec_sessionProveTimeout hx).trans (next_ite_of_neg (by rw [ho]; decide)), closeSession_frame _ _,
      gone_closeSession _ _⟩
  · exact (exec_sessionProveTimeout hx).trans (next_ite_of_pos ho)
  · exact ⟨_, (exec_sessionIdleTimeout hx).trans (next_ite_of_pos ho), closeSession_frame _ _, gone_closeSession _ _⟩
  · exact (exec_sessionIdleTimeout hx).trans (next_ite_of_neg (by rw [ho]; decide))
  · refine ⟨_, rfl, State.onEop_frame s _, rfl, fun q hq => flag_and_not_bit _ _ _ hq p.isLt, fun f hf => ?_⟩
    simpa using (List.mem_filter.1 hf).2
  · split
    · exact State.onEop_frame s _
    · exact onSession_frame _ _ s
  · rw [if_pos h]
    rfl
  · rw [if_neg h]
    exact fun y hy hn => snap_onSession hy hn
  · rw [State.onEop_eop, hs, eraseIdx_findIdx (fun y hy => decide_eq_false (ha y hy)) (decide_eq_true hx)]
  · split
    · exact State.onEop_frame s _
    · exact .refl _ s
  · split <;> rfl
  · refine ⟨_, { x with unacked := [(n, k - 1, d)] }, (exec_notifyRetransmit hx hu).trans (if_neg hk.ne'),
      ((onSession_frame _ _ s).mono (by decide)).trans ((sendM_frame _ _).mono (by decide)), ?_, rfl, rfl⟩
    refine (sessionOf_onSession (f := fun x => { x with
      unacked := x.unacked.map fun v => if v.1 = n then (v.1, v.2.1 - 1, v.2.2) else v }) hx fun _ => rfl).trans ?_
    simp [hu]
  · refine ⟨_, { x with unacked := [] }, (exec_notifyRetransmit hx hu).trans (if_pos hk), onSession_frame _ _ s, ?_, rfl⟩
    refine (sessionOf_onSession (f := fun x => { x with unacked := x.unacked.filter fun v => decide (v.1 ≠ n) }) hx
      fun _ => rfl).trans ?_
    simp [hu]
  · have ha : ackStatus r (some x) s = stOk := by
      rw [ackStatus, show booting s = false from decide_eq_false hdev, hlen, hres]
      rfl
    have he := exec_notifyAck h hrsp hf h0 hx ht ha
    rw [num_of_sessionOf hx] at he
    exact ⟨_, _, he, onSession_frame _ _ s, sessionOf_onSession (f := fun x => { x with
      unacked := x.unacked.filter fun u => decide (u.1 ≠ r.seqNo) }) hx fun _ => rfl, rfl⟩

/-- Settles O44: the judgement of ATTEST and its effect; the reservation, then the signature. -/
theorem attestation : Obligations.Attestation := by
  unfold Obligations.Attestation
  refine ⟨fun r x s h hlen hres hfifo hleft => ?_, fun n l s hfifo hn hleft hq => ?_⟩
  · have hj : judgeAttest r (admitted s) = (stOk, leBytes 1 (oldestSlot s) ++ leBytes 4 s.att.number.toNat) := by
      have hf : ¬ (admitted s).att.fifo.length ≥ 8 := Nat.not_le.2 hfifo
      have hl : ¬ leavesLeft (admitted s) ≤ (admitted s).att.fifo.length := Nat.not_le.2 hleft
      rw [judgeAttest, hlen, hres, decide_eq_false hf, decide_eq_false hl]
      rfl
    have he : exec (.attest r) s = .next (takeSlot (oldestSlot s) (reportBody (responded opAttest r x stOk _ s) s.att.number
        (reqData r)) (responded opAttest r x stOk _ s)) :=
      (exec_attest r s).trans (next_congr ((eopRun_of_heard_data h _ _ hj).trans (if_pos rfl)))
    have hbody := reportBody_head (responded opAttest r x stOk (leBytes 1 (oldestSlot s) ++ leBytes 4 s.att.number.toNat) s)
      s.att.number (reqData r)
    generalize reportBody _ s.att.number (reqData r) = body at he hbody
    exact ⟨_, he, ((responded_frame _ _ _ _ _ s).mono (by decide)).trans ((State.onAtt_frame _ _).mono (by decide)),
      answered_of_heard h _ _, rfl, fun hn => ⟨_, vget_vmod_self _ _ _ _ hn, hbody⟩, fun k hk => vget_vmod_ne _ _ _ _ _ hk⟩
  · have hbound := leavesLeft_bound hleft
    have he := exec_attestSignEnd hfifo hleft
    by_cases hd : s.att.q = s.att.lim
    · rw [reserveLeaves_of_due hd] at he
      refine ⟨_, he, ?_, rfl, rfl, ?_, rfl, vget_vmod_self _ _ _ _ hn, fun h => absurd h (by omega), fun _ => ⟨?_, ?_, reservation_lim s,
        reservation_topSig s⟩⟩
      · exact (Keeps.onAtt (by decide) (.onAtt (by decide) (.onNv (by decide) (.refl _ s)))).1
      · change s.att.q + 1 ≤ (reservation s).lim
        rw [reservation_lim]
        omega
      · exact congrArg IdRec.lim (mapGet_mapSet_self _ _ _ _)
      · exact congrArg IdRec.topSig (mapGet_mapSet_self _ _ _ _)
    · rw [reserveLeaves_of_covered hd] at he
      refine ⟨_, he, (Keeps.onAtt (by decide) (.refl _ s)).1, rfl, rfl, ?_, rfl, vget_vmod_self _ _ _ _ hn, fun _ => ⟨rfl, rfl, rfl⟩,
        fun h => absurd h hd⟩
      change s.att.q + 1 ≤ s.att.lim
      omega

end Sys2Proof.Proofs
end

section
/-! SUPPORT. The rows of requests at port M: what stops at the gate, and what a judgement refuses (11 R314, R324). -/

set_option Elab.async false

namespace Sys2Proof.Machine

open Claims

/-! ### Requests that stop at the gate -/

/-- A command that leaves what the gate of port M leaves of a datagram that stops there. -/
def StopsAtGate (i : Instr) (opc : Nat) (r : EopReq) (s : State) : Prop := ∀ u, eopGate opc r s = .drop u → exec i s = .next u

theorem eopRun_of_drop {opc : Nat} {r : EopReq} {s u : State} (h : eopGate opc r s = .drop u)
    (judge : Option Session → State → Nat × List Byte) (act : Nat → Option Session → State → State) :
    eopRun opc r judge act s = u := by
  simp only [eopRun, h]

/-- A row of EOP requests for the entries it is for: a judgement, and an effect. -/
def ServedAs (i : Instr) (opc : Nat) (mine : Bool) (r : EopReq) (s : State) : Prop :=
  ∃ judge act, exec i s = .next (if mine then eopRun opc r judge act s else s)

theorem ServedAs.stopsAtGate {i : Instr} {opc : Nat} {mine : Bool} {r : EopReq} {s : State} (h : ServedAs i opc mine r s)
    (hm : mine = true) : StopsAtGate i opc r s := fun u hu => by
  obtain ⟨judge, act, he⟩ := h
  rw [he, hm, if_pos rfl, eopRun_of_drop hu]

theorem stopsAtGate_of_run {i : Instr} {opc : Nat} {r : EopReq} {s : State} {judge : Option Session → State → Nat × List Byte}
    {act : Nat → Option Session → State → State} (h : exec i s = .next (eopRun opc r judge act s)) : StopsAtGate i opc r s :=
  fun u hu => by rw [h, eopRun_of_drop hu]

/-- Every row of writes judges a value by a check of its own. -/
theorem writeRows_judged (r : EopReq) (s : State) : ∀ w ∈ writeRows r, ∃ check act, exec w.1 s = .next (eopWrite w.2 r check act s) := by
  simp only [writeRows, List.forall_mem_cons]
  exact ⟨⟨_, _, rfl⟩, ⟨_, _, rfl⟩, ⟨_, _, rfl⟩, ⟨_, _, rfl⟩, ⟨_, _, rfl⟩, ⟨_, _, rfl⟩, ⟨_, _, rfl⟩, ⟨_, _, rfl⟩, ⟨_, _, rfl⟩,
    ⟨_, _, rfl⟩, ⟨_, _, rfl⟩, ⟨_, _, rfl⟩, ⟨_, _, rfl⟩, ⟨_, _, rfl⟩, ⟨_, _, rfl⟩, ⟨_, _, rfl⟩, ⟨_, _, rfl⟩, ⟨_, _, rfl⟩,
    fun _ h => absurd h List.not_mem_nil⟩

theorem writeRows_served (r : EopReq) (s : State) : ∀ w ∈ writeRows r, ServedAs w.1 opWrite (w.2 r.index.toNat r.sub.toNat) r s := by
  intro w hw
  obtain ⟨check, act, he⟩ := writeRows_judged r s w hw
  exact ⟨_, _, he⟩

theorem sessionOpen_stopsAtGate (r : EopReq) (s : State) : StopsAtGate (.sessionOpen r) opOpen r s := fun u hu => by
  change execSessionOpen r s = _
  unfold execSessionOpen
  rw [hu]

theorem sessionProve_stopsAtGate (r : EopReq) (s : State) : StopsAtGate (.sessionProve r) opProve r s := fun u hu => by
  change execSessionProve r s = _
  unfold execSessionProve
  rw [hu]

theorem requestRows_stopAtGate (r : EopReq) (s : State) :
    ∀ w ∈ requestRows r, w.2.2 = true → StopsAtGate w.1 w.2.1 r s := by
  intro w hw
  rcases List.mem_append.1 hw with h | h
  · obtain ⟨v, hv, rfl⟩ := List.mem_map.1 h
    exact (writeRows_served r s v hv).stopsAtGate
  · have served : ∀ {i opc mine}, ServedAs i opc mine r s → mine = true → StopsAtGate i opc r s := fun h => h.stopsAtGate
    clear hw
    revert w
    simp only [List.forall_mem_cons]
    have hidx : decide (r.index = 0x5600) = decide (r.index.toNat = 0x5600) := decide_eq_decide.2 (BitVec.toNat_inj (y := 0x5600#16)).symm
    rw [hidx]
    exact ⟨fun _ => stopsAtGate_of_run rfl, fun _ => stopsAtGate_of_run rfl, served ⟨_, _, rfl⟩, served ⟨_, _, rfl⟩,
      fun _ => sessionOpen_stopsAtGate r s, fun _ => sessionProve_stopsAtGate r s, fun _ => stopsAtGate_of_run rfl,
      fun _ => stopsAtGate_of_run (exec_attest r s), fun _ h => absurd h List.not_mem_nil⟩

/-! ### Writes that are refused -/

/-- The judgement of a heard write that is refused before its entry's own check is asked. -/
theorem writeRows_of_refused {r : EopReq} {x : Session} {s : State} (h : Heard opWrite r x s) {st : Nat} (hst : st ≠ stOk)
    {w : Instr × (Nat → Nat → Bool)} (hw : w ∈ writeRows r) (hm : w.2 r.index.toNat r.sub.toNat = true)
    (hj : ∀ check, judgeWrite r check (some x) (admitted s) = (st, [])) :
    ∃ t, exec w.1 s = .next t ∧ Only [.eop, .out] s t ∧ Answered opWrite r x st [] s t := by
  obtain ⟨check, act, he⟩ := writeRows_judged r s w hw
  refine ⟨_, he.trans (next_congr ?_), responded_frame _ _ _ _ _ _, answered_of_heard h _ _⟩
  rw [eopWrite, if_pos hm, eopRun_of_heard h _ _ (hj check), onOk, if_neg hst]

section
variable {r : EopReq} {x : Session} {s : State} (check : State → Nat → Nat → Nat)

theorem judgeWrite_of_booting (h : s.dev.devState = 0) : judgeWrite r check (some x) s = (stNotReady, []) :=
  if_pos (decide_eq_true h)

theorem judgeWrite_of_unauthorised (h : s.dev.devState ≠ 0) {a : Nat}
    (ha : writeAuthority s (some x) r.index.toNat r.sub.toNat = a) (hne : a ≠ stOk) :
    judgeWrite r check (some x) s = (a, []) := by
  unfold judgeWrite
  dsimp only
  rw [ha, if_neg (by rw [show booting s = false from decide_eq_false h]; decide), if_pos hne]

theorem judgeWrite_of_noEntry (h : s.dev.devState ≠ 0) (ha : writeAuthority s (some x) r.index.toNat r.sub.toNat = stOk)
    (he : entryOf s r.index.toNat r.sub.toNat = none) (hres : reservedSet r = false) :
    judgeWrite r check (some x) s = (stNoEntry, []) := by
  unfold judgeWrite
  dsimp only
  rw [ha, if_neg (by rw [show booting s = false from decide_eq_false h]; decide), if_neg (by decide), he, hres]
  rfl

theorem judgeWrite_of_badSize (h : s.dev.devState ≠ 0) (ha : writeAuthority s (some x) r.index.toNat r.sub.toNat = stOk)
    {e : Entry} (he : entryOf s r.index.toNat r.sub.toNat = some e) (hz : sizeStatus e (reqData r) ≠ stOk) :
    ∃ st, st ≠ stOk ∧ ∀ check, judgeWrite r check (some x) s = (st, []) := by
  refine ⟨worst [sizeStatus e (reqData r), when' (reservedSet r) stRange,
    when' (beingCleared s (partOf (some x)) r.index.toNat r.sub.toNat) stNotReady, stOk], fun hw => ?_, fun check => ?_⟩
  · exact hz (worst_eq_ok hw List.mem_cons_self)
  · unfold judgeWrite
    dsimp only
    rw [ha, if_neg (by rw [show booting s = false from decide_eq_false h]; decide), if_neg (by decide), he]
    dsimp only
    rw [if_neg hz]

end

end Sys2Proof.Machine

namespace Sys2Proof.Proofs

open Machine Claims

/-- Settles O39: what stops at the gate leaves what the gate leaves, and a refusal leaves the answer alone. -/
theorem datagramsAndRefusedWrites : Obligations.DatagramsAndRefusedWrites := by
  unfold Obligations.DatagramsAndRefusedWrites
  refine ⟨fun r s w hw hm => ?_, fun r x s h w hw hm => ⟨fun hd => ?_, fun ha hd => ?_, fun ha hd he hres => ?_,
    fun e ha hd he hz => ?_⟩⟩
  · have stop : ∀ u, eopGate w.2.1 r s = .drop u → exec w.1 s = .next u := requestRows_stopAtGate r s w hw hm
    refine ⟨fun h => stop _ (eopGate_of_elsewhere h), fun h hf => ⟨_, stop _ (eopGate_of_badFraming h hf), State.onEop_frame s _, rfl⟩,
      fun h hf hr => ⟨_, stop _ (eopGate_of_overRate h hf hr), State.onEop_frame s _, rfl⟩, fun h hf hr h0 ht => ?_,
      fun h hf hr h0 => ⟨fun hx => ?_, fun x hx ht hp => ?_, fun x o hx ht hs ho => ?_, fun x hx ht hs => ?_⟩⟩
    · refine ⟨_, stop _ (eopGate_of_tagged h hf hr h0 ht), ((admitted_frame s).mono (by decide)).trans (badTagAnswer_frame _ _ _),
        rfl, ?_⟩
      rw [← h0]
      rfl
    · exact ⟨_, stop _ (eopGate_of_noSession h hf hr h0 hx), ((admitted_frame s).mono (by decide)).trans
        ((sendM_frame _ _).mono (by decide)), rfl, rfl⟩
    · refine ⟨_, stop _ (eopGate_of_badTag h hf hr h0 hx ht fun h => ?_), ((admitted_frame s).mono (by decide)).trans
        (badTagAnswer_frame _ _ _), rfl, rfl⟩
      rw [hp h.1] at h
      exact absurd h.2 (by decide)
    · exact ⟨_, stop _ (eopGate_of_resend h hf hr h0 hx ht hs ho), ((admitted_frame s).mono (by decide)).trans
        ((sendM_frame _ _).mono (by decide)), rfl, rfl⟩
    · exact ⟨_, stop _ (eopGate_of_old h hf hr h0 hx ht hs), admitted_frame s, rfl⟩
  · exact writeRows_of_refused h (by decide) hw hm fun check => judgeWrite_of_booting check hd
  · exact writeRows_of_refused h ha hw hm fun check => judgeWrite_of_unauthorised (s := admitted s) check hd rfl ha
  · exact writeRows_of_refused h (by decide) hw hm fun check => judgeWrite_of_noEntry check hd ha he hres
  · obtain ⟨st, hne, hj⟩ := judgeWrite_of_badSize (x := x) (s := admitted s) hd ha he hz
    obtain ⟨t, ht, hf, hans⟩ := writeRows_of_refused h hne hw hm hj
    exact ⟨t, st, ht, hf, hne, hans⟩

end Sys2Proof.Proofs
end

section
/-! SUPPORT. Granted writes: the effect of a row on the state its response leaves (11 R314, R324). -/

set_option Elab.async false

namespace Sys2Proof.Machine

open Claims

/-- A row whose granted write is accepted leaves its effect on the state with the response. -/
theorem granted_accepted {mine : Nat → Nat → Bool} {check : State → Nat → Nat → Nat}
    {act : Nat → Nat → Option Session → State → State} {i : Instr} {r : EopReq} {x : Session} {e : Entry} {s : State}
    (h : Granted r x e s) (he : exec i s = .next (eopWrite mine r check act s)) (hm : mine r.index.toNat r.sub.toNat = true)
    (hc : check (admitted s) x.part.val (val r) = stOk) :
    exec i s = .next (act x.part.val (val r) (some x) (responded opWrite r x stOk [] s)) :=
  he.trans (next_congr ((eopWrite_of_granted h hm check act hc).trans (if_pos rfl)))

/-- A write that stores f in the writing partition, and changes nothing else but its session's record. -/
def StoresInPart (i : Instr) (r : EopReq) (x : Session) (s : State) (f : Part → Part) : Prop :=
  ∃ t, exec i s = .next t ∧ Only [.parts, .eop, .out] s t ∧ Answered opWrite r x stOk [] s t ∧
    OtherParts x.part.val s t ∧ t.part x.part.val = f (s.part x.part.val)

/-- A granted write that stores into the writing partition. -/
theorem granted_onPart {i : Instr} {r : EopReq} {x : Session} {e : Entry} {s : State} {f : Part → Part} (h : Granted r x e s)
    (he : exec i s = .next ((responded opWrite r x stOk [] s).onPart x.part.val f)) :
    StoresInPart i r x s f :=
  ⟨_, he, ((responded_frame _ _ _ _ _ s).mono (by decide)).trans ((State.onPart_frame _ _ _).mono (by decide)),
    answered_of_heard h.1 _ _, fun _ hq => State.part_onPart_ne _ _ _ _ hq, State.part_onPart_self _ _ _ x.part.isLt⟩

theorem worst_two {a b : Bool} {m n : Nat} (ha : a = false) (hb : b = false) : worst [when' a m, when' b n] = stOk := by
  rw [ha, hb]
  rfl

theorem when_false {a : Bool} {n : Nat} (ha : a = false) : when' a n = stOk := by
  rw [ha]
  rfl

/-! ### What stands in the stacks of a partition -/

theorem stackAddr_of_nv {s t : State} (hn : t.nv = s.nv) (p a : Nat) : t.stackAddr p a = s.stackAddr p a := by
  simp only [State.stackAddr, State.stacksOf, State.defOf, hn]

theorem stackPieces_of_nv {s t : State} (hn : t.nv = s.nv) (p k a n : Nat) : stackPieces t p k a n = stackPieces s p k a n := by
  induction k generalizing a n with
  | zero => rfl
  | succ k ih => simp only [stackPieces, stackAddr_of_nv hn, ih]

theorem relPieces_of_nv {s t : State} (hn : t.nv = s.nv) (p a n : Nat) : relPieces t p a n = relPieces s p a n := by
  simp only [relPieces, State.stacksOf, State.defOf, hn, stackPieces_of_nv hn]

section
variable {s t : State} (hm : t.mem = s.mem) (hn : t.nv = s.nv) (hp : t.parts = s.parts)
include hm hn hp

omit hp in
theorem peekRel_of_same (p a n : Nat) : peekRel t p a n = peekRel s p a n := by
  unfold peekRel
  rw [relPieces_of_nv hn, hm]

omit hm hn in
theorem modOf_of_same (p : Nat) : modOf t p = modOf s p := by
  unfold modOf State.part
  rw [hp]

theorem capsuleFor_of_same (p n : Nat) : capsuleFor t p n = capsuleFor s p n := by
  have hpart : t.part p = s.part p := by unfold State.part; rw [hp]
  have hslot : ∀ k, slotBase t p k = slotBase s p k := fun k => by
    unfold slotBase regionBase
    rw [modOf_of_same hp, hpart]
  unfold capsuleFor
  rw [hpart]
  refine congrArg (fun f => List.find? f _) (funext fun k => ?_)
  rw [hslot, relPieces_of_nv hn, hm]

theorem imagePlaceBad_of_same (p a : Nat) : imagePlaceBad t p a = imagePlaceBad s p a := by
  have hlen : t.stackBytes p = s.stackBytes p := by
    unfold State.stackBytes State.stacksOf State.defOf
    rw [hn]
  unfold imagePlaceBad
  rw [peekRel_of_same hm hn p a 64]
  dsimp only
  rw [peekRel_of_same hm hn p a, hlen, modOf_of_same hp]

end

/-! ### One lemma per row -/

theorem quietUpdate {l : List QEntry} {d : Option (QEntry × Done)} {u : Option UeRun}
    (h : (decide (l = []) && d.isNone && u.isNone) = true) : ¬ ((!l.isEmpty || d.isSome || u.isSome) = true) := by
  have hall := Bool.and_eq_true_iff.1 h
  have hl := Bool.and_eq_true_iff.1 hall.1
  rw [of_decide_eq_true hl.1, Option.isNone_iff_eq_none.1 hl.2, Option.isNone_iff_eq_none.1 hall.2]
  decide

/-- What a row of the table of a partition's own entries says (11 R314, R324). -/
def StoresAsRow (r : EopReq) (x : Session) (s : State) (w : Instr × Nat × Nat × Bool × (Part → Part)) : Prop :=
  r.index.toNat = w.2.1 → r.sub.toNat = w.2.2.1 → w.2.2.2.1 = true → StoresInPart w.1 r x s w.2.2.2.2

theorem StoresInPart.congr {i : Instr} {r : EopReq} {x : Session} {s : State} {f g : Part → Part}
    (h : StoresInPart i r x s f) (hf : ∀ q, f q = g q) : StoresInPart i r x s g := funext hf ▸ h

section
variable {r : EopReq} {v : Nat} {q : Part}

theorem storeSetting_provOn (h : r.index.toNat = 0x9020) : storeSetting r v q = { q with provOn := decide (v = 1) } := by
  have hr : r.index = 0x9020 := BitVec.eq_of_toNat_eq h
  unfold storeSetting
  rw [hr]
  rfl

theorem storeSetting_capsN (h : r.index.toNat = 0x9040) : storeSetting r v q = { q with capsN := BitVec.ofNat 8 v } := by
  have hr : r.index = 0x9040 := BitVec.eq_of_toNat_eq h
  unfold storeSetting
  rw [hr]
  rfl

theorem storeSetting_cupCfg (h : r.index.toNat = 0x9030) : storeSetting r v q = { q with cupCfg := BitVec.ofNat 32 v } := by
  have hr : r.index = 0x9030 := BitVec.eq_of_toNat_eq h
  unfold storeSetting
  rw [hr]
  rfl

end

/-! What the condition of a row makes of the check of its entry. -/

theorem readyToSave {q : Part} (h : (decide (q.st = 1 ∧ q.loadSt ≠ 1) && q.mod.isSome && q.saveReq.isNone &&
    q.restoring.isNone) = true) : (decide (q.st ≠ 1) || decide (q.loadSt = 1) || q.mod.isNone || q.saveReq.isSome ||
      q.restoring.isSome) = false := by
  simp_all

theorem restingIdle {q : Part} (h : (decide (q.rst = 1) && !busyPart q) = true) :
    (decide (q.rst ≠ 1) || busyPart q) = false := by
  simp_all

theorem bothHold {m n : Nat} (h : decide (m = 0 ∧ n = 0) = true) : (decide (m ≠ 0) || decide (n ≠ 0)) = false := by
  simp_all

theorem firstHolds {m n : Nat} (h : decide (m = 0 ∧ n ≠ 0) = true) : (decide (m ≠ 0) || decide (n = 0)) = false := by
  simp_all

section
variable {r : EopReq} {x : Session} {e : Entry} {s : State} (h : Granted r x e s)
include h

theorem seedWrite_stores (hi : r.index.toNat = 0x9010) (hs : r.sub.toNat = 1)
    (hc : ((s.part x.part.val).restoring.isNone && (s.cellsOf x.part.val).all fun c =>
      decide (vget (s.cell c).queues 3 [] = []) && (s.cell c).ue.done.isNone && (s.cell c).ue.run.isNone) = true) :
    StoresInPart (.seedWrite r) r x s fun q => { q with seed := BitVec.ofNat 128 (beNat (reqData r)) } := by
  refine granted_onPart h ((granted_accepted (i := .seedWrite r) h rfl (decide_eq_true ⟨hi, hs⟩) (when_false ?_)).trans rfl)
  refine Bool.or_eq_false_iff.2 ⟨Option.isSome_eq_false_iff.2 (Bool.and_eq_true_iff.1 hc).1, List.any_eq_false.2 fun c hm => ?_⟩
  exact quietUpdate (List.all_eq_true.1 (Bool.and_eq_true_iff.1 hc).2 c hm)

theorem counterClear_stores (hi : r.index.toNat = 0xA020) (hs : r.sub.toNat = 7) (hv : decide (val r = 1) = true) :
    StoresInPart (.counterClear r) r x s fun q =>
      { q with cSat := 0, cFlu := 0, cAwn := 0, cSquash := 0, cFall := 0, cBad := 0 } :=
  granted_onPart h ((granted_accepted (i := .counterClear r) h rfl (decide_eq_true ⟨hi, hs⟩)
    (when_false (decide_eq_false (not_not_intro (of_decide_eq_true hv))))).trans rfl)

theorem sampleWrite_stores (hi : r.index.toNat = 0x7010) (hs : r.sub.toNat = 1) (hv : decide (2 ≤ val r ∧ val r ≤ 8) = true) :
    StoresInPart (.write r) r x s fun q => { q with sampleV := BitVec.ofNat 8 (val r) } := by
  refine granted_onPart h ((granted_accepted (i := .write r) h rfl (by rw [hi, hs]; decide) (when_false ?_)).trans ?_)
  · rw [hi, hs]
    exact Bool.or_eq_false_iff.2 ⟨decide_eq_false (Nat.not_lt.2 (of_decide_eq_true hv).1),
      decide_eq_false (Nat.not_lt.2 (of_decide_eq_true hv).2)⟩
  · rw [hi]
    rfl

theorem formatWrite_stores (hi : r.index.toNat = 0xA010) (hs : r.sub.toNat = 1)
    (hv : (fmtOf (BitVec.ofNat 32 (val r))).isSome = true) :
    StoresInPart (.write r) r x s fun q => { q with fmt := BitVec.ofNat 32 (val r) } := by
  refine granted_onPart h ((granted_accepted (i := .write r) h rfl (by rw [hi, hs]; decide) (when_false ?_)).trans ?_)
  · rw [hi, hs]
    change (fmtOf (BitVec.ofNat 32 (val r))).isNone = false
    rw [← Option.not_isSome, hv]
    rfl
  · rw [hi]
    rfl

theorem provWrite_stores (hi : r.index.toNat = 0x9020) (hs : r.sub.toNat = 1)
    (hc : decide ((s.part x.part.val).rst = 0) = true) :
    StoresInPart (.cuppingConfigWrite r) r x s fun q => { q with provOn := decide (val r = 1) } := by
  have hr : r.index = 0x9020 := BitVec.eq_of_toNat_eq hi
  have hst : StoresInPart (.cuppingConfigWrite r) r x s (storeSetting r (val r)) :=
    exec_cuppingConfigWrite_accepted h (BitVec.eq_of_toNat_eq hs) (.inl hr)
      (settingRefusal_of_good (of_decide_eq_true hc) (by rw [hi]; rfl)) fun h30 => absurd (hr.symm.trans h30) (by decide)
  exact hst.congr fun q => storeSetting_provOn hi

theorem capsWrite_stores (hi : r.index.toNat = 0x9040) (hs : r.sub.toNat = 1)
    (hc : decide ((s.part x.part.val).rst = 0 ∧ val r ≤ 4) = true) :
    StoresInPart (.cuppingConfigWrite r) r x s fun q => { q with capsN := BitVec.ofNat 8 (val r) } := by
  have hr : r.index = 0x9040 := BitVec.eq_of_toNat_eq hi
  have hv : cupConfigBad r.index.toNat (val r) = false := by
    rw [hi]
    exact decide_eq_false (Nat.not_lt.2 (of_decide_eq_true hc).2)
  have hst : StoresInPart (.cuppingConfigWrite r) r x s (storeSetting r (val r)) :=
    exec_cuppingConfigWrite_accepted h (BitVec.eq_of_toNat_eq hs) (.inr (.inr hr))
      (settingRefusal_of_good (of_decide_eq_true hc).1 hv) fun h30 => absurd (hr.symm.trans h30) (by decide)
  exact hst.congr fun q => storeSetting_capsN hi

theorem cupWrite_stores (hi : r.index.toNat = 0x9030) (hs : r.sub.toNat = 1)
    (hc : (decide ((s.part x.part.val).rst = 0 ∧ bits (val r) 31 24 ≤ 1 ∧ bits (val r) 23 16 ≤ 7) &&
      !cupEnabled (s.part x.part.val).cupCfg) = true) :
    StoresInPart (.cuppingConfigWrite r) r x s fun q => { q with cupCfg := BitVec.ofNat 32 (val r) } := by
  have hr : r.index = 0x9030 := BitVec.eq_of_toNat_eq hi
  have hgood := of_decide_eq_true (Bool.and_eq_true_iff.1 hc).1
  have hv : cupConfigBad r.index.toNat (val r) = false := by
    rw [hi]
    exact Bool.or_eq_false_iff.2 ⟨decide_eq_false (Nat.not_lt.2 hgood.2.1), decide_eq_false (Nat.not_lt.2 hgood.2.2)⟩
  have hst : StoresInPart (.cuppingConfigWrite r) r x s (storeSetting r (val r)) :=
    exec_cuppingConfigWrite_accepted h (BitVec.eq_of_toNat_eq hs) (.inr (.inl hr))
      (settingRefusal_of_good hgood.1 hv) fun _ => (Bool.not_eq_true' _).mp (Bool.and_eq_true_iff.1 hc).2
  exact hst.congr fun q => storeSetting_cupCfg hi

theorem saveRequest_stores (hi : r.index.toNat = 0x6020) (hs : r.sub.toNat = 1)
    (hc : (decide ((s.part x.part.val).st = 1 ∧ (s.part x.part.val).loadSt ≠ 1) && (s.part x.part.val).mod.isSome &&
      (s.part x.part.val).saveReq.isNone && (s.part x.part.val).restoring.isNone &&
      !recordPlaceBad s x.part.val (val r)) = true) : StoresInPart (.contextSaveRequest r) r x s fun q =>
      { q with saveReq := some (BitVec.ofNat 64 (val r)), saveReg := BitVec.ofNat 64 (val r) } := by
  have hall := Bool.and_eq_true_iff.1 hc
  refine granted_onPart h ((granted_accepted (i := .contextSaveRequest r) h rfl (decide_eq_true ⟨hi, hs⟩) ?_).trans rfl)
  exact worst_two (readyToSave hall.1) ((Bool.not_eq_true' _).mp hall.2)

theorem restore_stores (hi : r.index.toNat = 0x6020) (hs : r.sub.toNat = 2)
    (hc : (decide ((s.part x.part.val).rst = 1) && !busyPart (s.part x.part.val) &&
      decide (bits (val r) 127 65 = 0 ∧ bits (val r) 63 0 % 4096 = 0)) = true) : StoresInPart (.restore r) r x s fun q =>
      { q with restoring := some (BitVec.ofNat 128 (val r)), restReg := BitVec.ofNat 128 (val r) } := by
  have hall := Bool.and_eq_true_iff.1 hc
  refine granted_onPart h ((granted_accepted (i := .restore r) h rfl (decide_eq_true ⟨hi, hs⟩) ?_).trans rfl)
  exact worst_two (restingIdle hall.1) (bothHold hall.2)

theorem stepReplay_stores (hi : r.index.toNat = 0x9040) (hs : r.sub.toNat = 2)
    (hc : (decide ((s.part x.part.val).rst = 1) && !busyPart (s.part x.part.val) && !cupEnabled (s.part x.part.val).det.cup &&
      decide (bits (val r) 63 49 = 0 ∧ (s.part x.part.val).det.caps ≠ 0) &&
      (capsuleFor s x.part.val (bits (val r) 47 0)).isSome) = true) :
    StoresInPart (.stepReplay r) r x s fun q => { q with
      stepReg := BitVec.ofNat 64 (val r),
      step := some ⟨(capsuleFor s x.part.val (bits (val r) 47 0)).getD 0, (val r).testBit 48, true, false, []⟩ } := by
  have hall := Bool.and_eq_true_iff.1 hc
  have hmode := Bool.and_eq_true_iff.1 hall.1
  have hcup := Bool.and_eq_true_iff.1 hmode.1
  have hresp : ∀ n, capsuleFor (responded opWrite r x stOk [] s) x.part.val n = capsuleFor s x.part.val n :=
    capsuleFor_of_same (s := s) (t := responded opWrite r x stOk [] s) rfl rfl rfl x.part.val
  refine granted_onPart h ((granted_accepted (i := .stepReplay r) h rfl (decide_eq_true ⟨hi, hs⟩) ?_).trans
    (by rw [hresp]; rfl))
  rw [capsuleFor_of_same (s := s) (t := admitted s) rfl rfl rfl x.part.val]
  exact worst_two (Bool.or_eq_false_iff.2 ⟨restingIdle hcup.1, (Bool.not_eq_true' _).mp hcup.2⟩)
    (Bool.or_eq_false_iff.2 ⟨firstHolds hmode.2, Option.isNone_eq_false_iff.2 hall.2⟩)

theorem moduleLoad_stores (hi : r.index.toNat = 0x6010) (hs : r.sub.toNat = 1)
    (hc : (!busyPart (s.part x.part.val) && decide ((s.part x.part.val).rst ≠ 2 ∧ (s.part x.part.val).rst ≠ 3) &&
      !imagePlaceBad s x.part.val (val r) && !cupEnabled (s.part x.part.val).det.cup) = true) :
    StoresInPart (.moduleLoad r) r x s fun q => { q with
      mod := none, rst := 0, replays := 0, loadSt := 1, loadCode := 0, loadAddr := BitVec.ofNat 64 (val r), reason := 0,
      rsdOff := false, det := Det.reset, cup := Cup.reset } := by
  have hall := Bool.and_eq_true_iff.1 hc
  have hplace := Bool.and_eq_true_iff.1 hall.1
  have hbusy := Bool.and_eq_true_iff.1 hplace.1
  have hend : sendCupEnd x.part.val (responded opWrite r x stOk [] s) = responded opWrite r x stOk [] s :=
    if_neg (Bool.eq_false_iff.1 ((Bool.not_eq_true' _).mp hall.2 : cupEnabled (s.part x.part.val).det.cup = false))
  refine granted_onPart h ((granted_accepted (i := .moduleLoad r) h rfl (decide_eq_true ⟨hi, hs⟩) ?_).trans
    (next_congr (congrArg (fun u => State.onPart u _ _) hend)))
  rw [imagePlaceBad_of_same (s := s) (t := admitted s) rfl rfl rfl]
  refine worst_two (Bool.or_eq_false_iff.2 ⟨(Bool.not_eq_true' _).mp hbusy.1, decide_eq_false fun hr => ?_⟩)
    ((Bool.not_eq_true' _).mp hplace.2)
  exact hr.elim (of_decide_eq_true hbusy.2).1 (of_decide_eq_true hbusy.2).2

end

end Sys2Proof.Machine

namespace Sys2Proof.Proofs

open Machine Claims

/-- Settles O33: one lemma per row. -/
theorem partitionEntryWrites : Obligations.PartitionEntryWrites := by
  unfold Obligations.PartitionEntryWrites
  intro r x e s h
  change ∀ w ∈ partWrites r s x.part.val, StoresAsRow r x s w
  exact List.forall_mem_cons.2 ⟨seedWrite_stores h, List.forall_mem_cons.2 ⟨counterClear_stores h,
    List.forall_mem_cons.2 ⟨sampleWrite_stores h, List.forall_mem_cons.2 ⟨formatWrite_stores h,
    List.forall_mem_cons.2 ⟨provWrite_stores h, List.forall_mem_cons.2 ⟨capsWrite_stores h,
    List.forall_mem_cons.2 ⟨cupWrite_stores h, List.forall_mem_cons.2 ⟨saveRequest_stores h,
    List.forall_mem_cons.2 ⟨restore_stores h, List.forall_mem_cons.2 ⟨stepReplay_stores h,
    List.forall_mem_cons.2 ⟨moduleLoad_stores h, fun w hw => absurd hw List.not_mem_nil⟩⟩⟩⟩⟩⟩⟩⟩⟩⟩⟩

end Sys2Proof.Proofs
end

section
/-! SUPPORT. Writes of entries of the device and of the stacks (09 R249 to R261, 10 R280, R307, R308, 14 R370). -/

set_option Elab.async false

namespace Sys2Proof.Machine

open Claims

/-! ### The entries of the stacks, and of the insertion -/

theorem entryAt_of_entryOf {s : State} {idx sub : Nat} {e : Entry} (h : entryOf s idx sub = some e) : entryAt idx sub = some e := by
  unfold entryOf at h
  split at h
  · cases h
  · exact h

theorem many_bounds {n sub : Nat} {f : Nat → Entry} {e : Entry} (h : many n f sub = some e) : 1 ≤ sub ∧ sub ≤ n := by
  unfold many at h
  split at h
  · assumption
  · cases h

theorem stackEntry_bounds {sub : Nat} {e : Entry} {idx : Nat} (hi : idx = 0x4012 ∨ idx = 0x4040 ∨ idx = 0x4050)
    (h : entryAt idx sub = some e) : sub - 1 < 32 := by
  have hb : 1 ≤ sub ∧ sub ≤ 32 := by
    rcases hi with rfl | rfl | rfl
    · exact many_bounds (f := fun i => ent 1 .rws (.ofStack i)) h
    · exact many_bounds (f := fun i => ent 2 .rws (.ofStack i)) h
    · exact many_bounds (f := fun i => ent 48 .rws (.ofStack i)) h
  omega

theorem entryAt_insertion : entryAt 0x5000 4 = some (ent 1 .wo .device) := rfl

/-! ### Frames on the ring -/

theorem emitRaw_of_up {n : Nat} {f : VrtFrame} {s : State} (h : (s.port n).up = true) : emitRaw n f s =
    { s with out := { s.out with ring := s.out.ring ++ [(n, { f with link := carrierOf s n f })] } } := if_pos h

/-- A frame sent adds to what has left, and changes nothing else. -/
theorem emitRaw_ring (n : Nat) (f : VrtFrame) (s : State) : ∃ l, emitRaw n f s = { s with out := { s.out with ring := s.out.ring ++ l } } := by
  unfold emitRaw
  split
  · exact ⟨_, rfl⟩
  · exact ⟨[], by rw [List.append_nil]⟩

theorem sendLeave_ring (n : Nat) (s : State) : ∃ l, sendLeave n s = { s with out := { s.out with ring := s.out.ring ++ l } } :=
  emitRaw_ring _ _ _

/-- The notice of a device that leaves the ring (10 R308). -/
def LeaveFrom (s : State) (n : Nat) (l : List (Nat × VrtFrame)) : Prop :=
  ∃ f, (n, f) ∈ l ∧ f.type = 6 ∧ f.cls = 0 ∧ f.srcRing = s.nv.ringId ∧ f.payload = [Config.probeKind 2]

theorem LeaveFrom.mono {s : State} {n : Nat} {l m : List (Nat × VrtFrame)} (h : LeaveFrom s n l) (hm : l ⊆ m) : LeaveFrom s n m := by
  obtain ⟨f, hf, hr⟩ := h
  exact ⟨f, hm hf, hr⟩

theorem sendLeave_leaves {n : Nat} {s : State} (h : (s.port n).up = true) : LeaveFrom s n (sendLeave n s).out.ring := by
  rw [show sendLeave n s = _ from emitRaw_of_up h]
  exact ⟨_, List.mem_append_right _ (List.mem_singleton_self _), rfl, rfl, rfl, rfl⟩

/-- The average-power window right after a write of the cap or the window (14 R370). -/
theorem resetWindow_power (s : State) : (resetWindow s).power = { s.power with
    bins := List.replicate (windowBins s) (capUnits s), e := capUnits s * (windowBins s : Nat), oldest := 0,
    kCap := selectK (min (capUnits s) (limUnits s)) s.power.est } := rfl

/-! ### Writes of the stacks -/

section
variable {r : EopReq} {x : Session} {e : Entry} {s : State} (h : Granted r x e s)
include h

theorem granted_onStack {i : Instr} {f : Stack → Stack} (hi : r.index.toNat = 0x4012 ∨ r.index.toNat = 0x4040 ∨ r.index.toNat = 0x4050)
    (he : exec i s = .next ((responded opWrite r x stOk [] s).onStack (r.sub.toNat - 1) f)) :
    ∃ t, exec i s = .next t ∧ Only [.drams, .eop, .out] s t ∧ Answered opWrite r x stOk [] s t ∧
      (∀ m, m ≠ r.sub.toNat - 1 → t.stack m = s.stack m) ∧ t.stack (r.sub.toNat - 1) = f (s.stack (r.sub.toNat - 1)) := by
  have hn := stackEntry_bounds hi (entryAt_of_entryOf h.2.2.1)
  exact ⟨_, he, ((responded_frame _ _ _ _ _ s).mono (by decide)).trans ((State.onStack_frame _ _ _).mono (by decide)),
    answered_of_heard h.1 _ _, fun m hm => State.stack_onStack_ne _ _ _ _ hm, State.stack_onStack_self _ _ _ hn⟩

theorem stackWrite_stores {i : Instr} {f : Stack → Stack}
    (hi : i = .flipMaskWrite r ∧ r.index = 0x4050 ∧ flipBad s (r.sub.toNat - 1) (val r) = false ∧
        f = (fun t => { t with flip := BitVec.ofNat 384 (val r) }) ∨
      i = .logClear r ∧ r.index = 0x4012 ∧ val r = 1 ∧ f = (fun t => { t with log := [], overflow := 0 }) ∨
      i = .write r ∧ r.index = 0x4040 ∧ val r ≤ 4096 ∧ f = (fun t => { t with rate := BitVec.ofNat 16 (val r) })) :
    ∃ t, exec i s = .next t ∧ Only [.drams, .eop, .out] s t ∧ Answered opWrite r x stOk [] s t ∧
      (∀ m, m ≠ r.sub.toNat - 1 → t.stack m = s.stack m) ∧ t.stack (r.sub.toNat - 1) = f (s.stack (r.sub.toNat - 1)) := by
  rcases hi with ⟨rfl, hidx, hv, rfl⟩ | ⟨rfl, hidx, hv, rfl⟩ | ⟨rfl, hidx, hv, rfl⟩
  · have hn : r.index.toNat = 0x4050 := by rw [hidx]; rfl
    exact granted_onStack h (.inr (.inr hn)) (granted_accepted (i := .flipMaskWrite r) h rfl (decide_eq_true hn) (when_false hv))
  · have hn : r.index.toNat = 0x4012 := by rw [hidx]; rfl
    exact granted_onStack h (.inl hn) (granted_accepted (i := .logClear r) h rfl (decide_eq_true hn) (when_false (by simp [hv])))
  · have hn : r.index.toNat = 0x4040 := by rw [hidx]; rfl
    refine granted_onStack (f := fun t => { t with rate := BitVec.ofNat 16 (val r) }) h (.inr (.inl hn))
      ((granted_accepted (i := .write r) h rfl ?_ (when_false ?_)).trans ?_)
    · rw [hn]
      simp [ownRow]
    · rw [hn]
      exact decide_eq_false (Nat.not_lt.2 hv)
    · rw [hn]
      rfl

/-! ### Writes of the device -/

theorem ringWrite_stores {f : Nv → Nv} (hi : r.index = 0x5000)
    (hs : r.sub = 1 ∧ val r < s.nv.ringSize.toNat ∧ f = (fun y => { y with ringId := BitVec.ofNat 16 (val r) }) ∨
      r.sub = 2 ∧ 1 ≤ val r ∧ val r ≤ 4096 ∧ f = (fun y => { y with ringSize := BitVec.ofNat 16 (val r) }) ∨
      r.sub = 3 ∧ val r ≤ 1 ∧ f = (fun y => { y with insertMode := BitVec.ofNat 8 (val r) })) :
    exec (.write r) s = .next ((responded opWrite r x stOk [] s).onNv f) := by
  have hn : r.index.toNat = 0x5000 := by rw [hi]; rfl
  rcases hs with ⟨hs, hv, rfl⟩ | ⟨hs, hv, hv', rfl⟩ | ⟨hs, hv, rfl⟩
  · refine (granted_accepted (i := .write r) h rfl (by rw [hn, hs]; decide) (when_false ?_)).trans ?_
    · rw [hn, hs]
      exact decide_eq_false (Nat.not_le.2 hv)
    · rw [hn, hs]
      rfl
  · refine (granted_accepted (i := .write r) h rfl (by rw [hn, hs]; decide) (when_false ?_)).trans ?_
    · rw [hn, hs]
      change (decide (val r < 1) || decide (val r > 4096)) = false
      rw [decide_eq_false (by omega), decide_eq_false (by omega)]
      rfl
    · rw [hn, hs]
      rfl
  · refine (granted_accepted (i := .write r) h rfl (by rw [hn, hs]; decide) (when_false ?_)).trans ?_
    · rw [hn, hs]
      exact decide_eq_false (Nat.not_lt.2 hv)
    · rw [hn, hs]
      rfl

theorem capWrite_stores (hi : r.index = 0x3000) (hs : r.sub = 1) (hv : 900 ≤ val r) (hv' : val r ≤ packageLimit s.fuse.grade) :
    exec (.capWrite r) s = .next (resetWindow ((responded opWrite r x stOk [] s).onNv fun n =>
      { n with capW := BitVec.ofNat 16 (val r) })) := by
  refine (granted_accepted (i := .capWrite r) h rfl (by rw [hi, hs]; decide) (when_false ?_)).trans (by rw [hs]; rfl)
  rw [hs]
  change (decide (val r < 900) || decide (val r > packageLimit s.fuse.grade)) = false
  rw [decide_eq_false (by omega), decide_eq_false (by omega)]
  rfl

theorem windowWrite_stores (hi : r.index = 0x3000) (hs : r.sub = 2) (hv : 2 ≤ val r) (hv' : val r ≤ 32) :
    exec (.capWrite r) s = .next (resetWindow ((responded opWrite r x stOk [] s).onNv fun n =>
      { n with capWindow := BitVec.ofNat 8 (val r) })) := by
  refine (granted_accepted (i := .capWrite r) h rfl (by rw [hi, hs]; decide) (when_false ?_)).trans (by rw [hs]; rfl)
  rw [hs]
  change (decide (val r < 2) || decide (val r > 32)) = false
  rw [decide_eq_false (by omega), decide_eq_false (by omega)]
  rfl

theorem cellProof_stores (hi : r.index = 0x7020) (hs : r.sub = 1) (hv : val r ≤ 33) (he : flag s.fuse.enabled (val r) = true)
    (hf : flag s.dev.fenced (val r) = true) (hp : s.test.proof = none) : exec (.cellProof r) s =
      .next ((responded opWrite r x stOk [] s).onTest fun t => { t with proof := some (Fin.ofNat 34 (val r)) }) := by
  refine granted_accepted (i := .cellProof r) h rfl (by rw [hi, hs]; decide) (worst_two ?_ ?_)
  · change (decide (val r > 33) || !flag s.fuse.enabled (val r) || !flag s.dev.fenced (val r)) = false
    rw [he, hf, decide_eq_false (Nat.not_lt.2 hv)]
    rfl
  · change s.test.proof.isSome = false
    rw [hp]
    rfl

theorem channelTest_stores (hi : r.index = 0x7020) (hs : r.sub = 2) (hv : bits (val r) 15 13 = 0) (hv' : bits (val r) 7 4 = 0)
    (hf : flag s.dev.inService (bits (val r) 12 8) = true) (hp : s.test.chan = none) : exec (.channelTest r) s =
      .next ((responded opWrite r x stOk [] s).onTest fun t =>
        { t with chan := some (bits (val r) 12 8, bits (val r) 3 0) }) := by
  refine granted_accepted (i := .channelTest r) h rfl (by rw [hi, hs]; decide) (worst_two ?_ ?_)
  · change (decide (bits (val r) 15 13 ≠ 0 ∨ bits (val r) 7 4 ≠ 0) || !flag s.dev.inService (bits (val r) 12 8)) = false
    rw [hf, decide_eq_false (by tauto)]
    rfl
  · change s.test.chan.isSome = false
    rw [hp]
    rfl

theorem insertWrite_stores (hi : r.index = 0x5000) (hs : r.sub = 4) (hv : val r = 1) (ho : insertOk s = true) :
    exec (.insert (some r)) s = .next (if s.dev.bypCmd then responded opWrite r x stOk [] s
      else commandInsert (responded opWrite r x stOk [] s)) := by
  have hval : leNat (reqData r) = 1 := hv
  have he : exec (.insert (some r)) s = .next (eopWrite (onlyEntry 0x5000 4) r
      (fun s _ v => worst [when' (decide (v ≠ 1)) stRange, when' (!insertOk s) stNotReady])
      (fun _ _ _ s => if s.dev.bypCmd then s else commandInsert s) s) :=
    next_ite_of_neg fun h => by rw [hval] at h; exact absurd h.2 (by decide)
  refine granted_accepted h he (by rw [hi, hs]; decide) (worst_two (by rw [hv]; rfl) ?_)
  change (!insertOk s) = false
  rw [ho]
  rfl

theorem removeWrite_stores (hi : r.index = 0x5000) (hs : r.sub = 4) (hv : val r = 2) (hb : s.dev.bypCmd = true)
    (hr : s.dev.removing = false) : exec (.remove r) s = .next (sendLeave 1 (sendLeave 0
      ((responded opWrite r x stOk [] s).onDev fun d => { d with removing := true }))) := by
  have hlen : (reqData r).length = 1 := by
    obtain ⟨-, -, hent, -, -, hsize, -⟩ := h
    have hent := entryAt_of_entryOf hent
    rw [hi, hs] at hent
    cases hent
    by_contra hne
    have hsz : sizeStatus (ent 1 .wo .device) (reqData r) = stType := if_neg hne
    rw [hsz] at hsize
    exact absurd hsize (by decide)
  have he : exec (.remove r) s = .next (eopWrite (onlyEntry 0x5000 4) r (fun _ _ _ => stOk)
      (fun _ _ _ s => if s.dev.bypCmd = true ∧ s.dev.removing = false then
        sendLeave 1 (sendLeave 0 (s.onDev fun d => { d with removing := true })) else s) s) :=
    next_ite_of_pos ⟨hlen, hv⟩
  exact (granted_accepted h he (by rw [hi, hs]; decide) rfl).trans (next_ite_of_pos ⟨hb, hr⟩)

end

end Sys2Proof.Machine

namespace Sys2Proof.Proofs

open Machine Claims

/-- Settles O34: the effect of each row on the state with the response, by the lemma of the row. -/
theorem deviceEntryWrites : Obligations.DeviceEntryWrites := by
  unfold Obligations.DeviceEntryWrites
  intro r x e s h
  have hresp := responded_frame opWrite r x stOk [] s
  have hans := answered_of_heard h.1 stOk []
  refine ⟨fun i f hi => stackWrite_stores h hi, fun f hi hs => ?_, fun hi hs hv hv' => ?_, fun hi hs hv hv' => ?_,
    fun hi hs hv he hf hp => ?_, fun hi hs hv hv' hf hp => ?_, fun hi hs hv ho => ?_, fun hi hs hv hb hr => ?_⟩
  · exact ⟨_, ringWrite_stores h hi hs, (hresp.mono (by decide)).trans ((State.onNv_frame _ _).mono (by decide)), hans, rfl⟩
  · have hlim : packageLimit s.fuse.grade ≤ 1800 := by unfold packageLimit; split <;> decide
    have hval : (BitVec.ofNat 16 (val r)).toNat = val r := (BitVec.toNat_ofNat _ _).trans (Nat.mod_eq_of_lt (by omega))
    refine ⟨_, capWrite_stores h hi hs hv hv', ?_, hans, rfl, ?_, ?_, rfl, rfl, rfl⟩
    · exact (hresp.mono (by decide)).trans (resetWindow_keeps (by decide) (.onNv (by decide) (.refl _ _))).1
    · rw [resetWindow_power]
      change List.replicate _ (((64 * (BitVec.ofNat 16 (val r)).toNat : Nat)) : Int) = _
      rw [hval, bind_pure_comp, List.map_eq_map, List.map_replicate]
      push_cast
      rfl
    · rw [resetWindow_power]
      change (((64 * (BitVec.ofNat 16 (val r)).toNat : Nat)) : Int) * ((1000 * s.nv.capWindow.toNat : Nat) : Int) = _
      rw [hval]
      push_cast
      rfl
  · have hval : (BitVec.ofNat 8 (val r)).toNat = val r := (BitVec.toNat_ofNat _ _).trans (Nat.mod_eq_of_lt (by omega))
    refine ⟨_, windowWrite_stores h hi hs hv hv', ?_, hans, rfl, ?_, ?_, rfl, rfl, rfl⟩
    · exact (hresp.mono (by decide)).trans (resetWindow_keeps (by decide) (.onNv (by decide) (.refl _ _))).1
    · rw [resetWindow_power]
      change List.replicate (1000 * (BitVec.ofNat 8 (val r)).toNat) _ = _
      rw [hval, bind_pure_comp, List.map_eq_map, List.map_replicate]
      rfl
    · rw [resetWindow_power]
      change (((64 * s.nv.capW.toNat : Nat)) : Int) * ((1000 * (BitVec.ofNat 8 (val r)).toNat : Nat) : Int) = _
      rw [hval]
      push_cast
      rfl
  · exact ⟨_, cellProof_stores h hi hs hv he hf hp, (hresp.mono (by decide)).trans ((State.onTest_frame _ _).mono (by decide)),
      hans, rfl⟩
  · exact ⟨_, channelTest_stores h hi hs hv hv' hf hp,
      (hresp.mono (by decide)).trans ((State.onTest_frame _ _).mono (by decide)), hans, rfl⟩
  · have he := insertWrite_stores h hi hs hv ho
    by_cases hb : s.dev.bypCmd = true
    · rw [if_pos hb] at he
      exact ⟨_, he, hresp.mono (by decide), hans, (if_pos hb).symm⟩
    · rw [if_neg hb] at he
      exact ⟨_, he, (hresp.mono (by decide)).trans ((State.onDev_frame _ _).mono (by decide)), hans, (if_neg hb).symm⟩
  · let u := (responded opWrite r x stOk [] s).onDev fun d => { d with removing := true }
    obtain ⟨l0, h0⟩ := sendLeave_ring 0 u
    obtain ⟨l1, h1⟩ := sendLeave_ring 1 (sendLeave 0 u)
    have hleave : ∀ n, (s.port n).up = true → n < 2 → LeaveFrom s n (sendLeave 1 (sendLeave 0 u)).out.ring := fun n hup hn => by
      have hfirst : (sendLeave 0 u).out.ring ⊆ (sendLeave 1 (sendLeave 0 u)).out.ring := by
        rw [h1]
        exact List.subset_append_left _ _
      obtain rfl | rfl : n = 0 ∨ n = 1 := by omega
      · exact (sendLeave_leaves (s := u) hup).mono hfirst
      · have hup1 : ((sendLeave 0 u).port 1).up = true := by rw [h0]; exact hup
        obtain ⟨f, hf, h6, hc, hsrc, hpay⟩ := sendLeave_leaves hup1
        rw [show (sendLeave 0 u).nv = s.nv from by rw [h0]; rfl] at hsrc
        exact ⟨f, hf, h6, hc, hsrc, hpay⟩
    refine ⟨_, removeWrite_stores h hi hs hv hb hr, ?_, ?_, ?_, fun n hn hup => hleave n hup hn⟩
    · exact (hresp.mono (by decide)).trans (sendLeave_keeps 1 (by decide) (sendLeave_keeps 0 (by decide)
        (.onDevSame (f := fun d => { d with removing := true }) (by decide) (fun _ => ⟨rfl, rfl, rfl⟩) (.refl _ _)))).1
    · change (sendLeave 1 (sendLeave 0 u)).dev = _
      rw [h1, h0]
      rfl
    · change _ ∈ (sendLeave 1 (sendLeave 0 u)).out.portM
      rw [h1, h0]
      exact List.mem_append_right _ (List.mem_singleton_self _)

end Sys2Proof.Proofs
end

section
/-! SUPPORT. Several cells changed at once, and the start of a replay (07 R191 to R194). -/

set_option Elab.async false

namespace Sys2Proof.Machine

open Claims

/-! ### Several cells changed -/

theorem forEach_nil {α : Type} (f : α → State → State) (s : State) : forEach [] f s = s := rfl

theorem forEach_cons {α : Type} (x : α) (l : List α) (f : α → State → State) (s : State) :
    forEach (x :: l) f s = forEach l f (f x s) := rfl

/-- Of several cells changed one after another each one holds its own change. -/
theorem forEach_onCell {α : Type} (key : α → Nat) (f : α → Cell → Cell) {l : List α} (hnd : (l.map key).Nodup)
    (hlt : ∀ x ∈ l, key x < 34) (s : State) :
    (∀ n, n ∉ l.map key → (forEach l (fun x s => s.onCell (key x) (f x)) s).cell n = s.cell n) ∧
      ∀ x ∈ l, (forEach l (fun x s => s.onCell (key x) (f x)) s).cell (key x) = f x (s.cell (key x)) := by
  induction l generalizing s with
  | nil => exact ⟨fun _ _ => rfl, fun _ h => absurd h List.not_mem_nil⟩
  | cons y l ih =>
    obtain ⟨hy, hl⟩ := List.nodup_cons.1 hnd
    obtain ⟨hout, hin⟩ := ih hl (fun x hx => hlt x (List.mem_cons_of_mem _ hx)) (s.onCell (key y) (f y))
    rw [forEach_cons]
    refine ⟨fun n hn => ?_, fun x hx => ?_⟩
    · rw [List.map_cons, List.mem_cons, not_or] at hn
      rw [hout n hn.2, State.cell_onCell_ne _ _ _ _ hn.1]
    · rcases List.mem_cons.1 hx with rfl | hx
      · rw [hout _ hy, State.cell_onCell_self _ _ _ (hlt x List.mem_cons_self)]
      · rw [hin x hx, State.cell_onCell_ne _ _ _ _ fun h : key x = key y => hy (h ▸ List.mem_map_of_mem hx)]

theorem forEach_onCell_frame {α : Type} (key : α → Nat) (f : α → Cell → Cell) (l : List α) (s : State) :
    Only [.cells] s (forEach l (fun x s => s.onCell (key x) (f x)) s) :=
  (Keeps.forEach (f := fun x s => s.onCell (key x) (f x)) (fun _ _ => .onCell (by decide) (.refl _ _)) (.refl _ s)).1

theorem liveCells_nodup (s : State) (p : Nat) : (s.liveCells p).Nodup :=
  (List.nodup_range.filter _).filter _

theorem cellsOf_nodup (s : State) (p : Nat) : (s.cellsOf p).Nodup := List.nodup_range.filter _

theorem mem_cellsOf_of_live {s : State} {p c : Nat} (h : c ∈ s.liveCells p) : c ∈ s.cellsOf p := (List.mem_filter.1 h).1

/-- The cells of a list changed alike. -/
theorem forEach_cells (f : Cell → Cell) {l : List Nat} (hnd : l.Nodup) (hlt : ∀ c ∈ l, c < 34) (s : State) :
    (∀ n, n ∉ l → (forEach l (fun c s => s.onCell c f) s).cell n = s.cell n) ∧
      ∀ c ∈ l, (forEach l (fun c s => s.onCell c f) s).cell c = f (s.cell c) := by
  have h := forEach_onCell (fun c : Nat => c) (fun _ => f) (l := l) (by rwa [List.map_id']) hlt s
  rwa [List.map_id'] at h

/-! ### The cores started -/

/-- A cell whose core starts at an index, its records and samples gone (07 R194, R198). -/
def Cell.started (own : Bool) (n pc : Nat) (y : Cell) : Cell :=
  { y with
    recs := [], firstFault := 0, heldDone := [], tiles := 0, samples := [], me := { y.me with past := [] }, dupBad := [],
    trace := if own then [] else y.trace, ovf := if own then false else y.ovf,
    core := { y.core with
      run := .running, pc := pc, seqNo := 0, lastPush := Vector.replicate 5 none, snaps := [], commits := n } }

/-- Whether a partition records the arrivals of a replay for its capsules alone. -/
def ownTrace (q : Part) : Bool := decide (q.det.caps > 0) && !cupEnabled q.det.cup

/-- The partition of a replay that starts. -/
def Part.replaying (n : Nat) (q : Part) : Part :=
  { q with
    rst := 2, commitN := n, atPoint := false, rsdOff := false,
    det := { q.det with ta := Vector.replicate 32 0, ord := Vector.replicate 32 0 } }

theorem startCores_eq (p n : Nat) (at' : Nat → Nat) (s : State) : startCores p n at' s =
    (forEach (s.liveCells p).zipIdx (fun x t => t.onCell x.1 (Cell.started (ownTrace (s.part p)) n (at' x.2))) s).onPart p
      (Part.replaying n) := rfl

/-- The cores of a partition started at index 0. -/
theorem startCores_zero {p : Nat} (hp : p < 8) (n : Nat) (s : State) :
    (∀ c, c ∉ s.liveCells p → (startCores p n (fun _ => 0) s).cell c = s.cell c) ∧
      (∀ c ∈ s.liveCells p, (startCores p n (fun _ => 0) s).cell c = (s.cell c).started (ownTrace (s.part p)) n 0) ∧
      (startCores p n (fun _ => 0) s).part p = (s.part p).replaying n ∧ OtherParts p s (startCores p n (fun _ => 0) s) := by
  have hmap : (s.liveCells p).zipIdx.map Prod.fst = s.liveCells p := List.zipIdx_map_fst _ _
  obtain ⟨hout, hin⟩ := forEach_onCell (fun x : Nat × Nat => x.1) (fun _ => Cell.started (ownTrace (s.part p)) n 0)
    (l := (s.liveCells p).zipIdx) (by rw [hmap]; exact liveCells_nodup s p) (fun x hx => by
      have hx' := List.mem_map_of_mem (f := Prod.fst) hx
      rw [hmap] at hx'
      exact mem_cellsOf_lt (mem_cellsOf_of_live hx')) s
  have hframe := forEach_onCell_frame (fun x : Nat × Nat => x.1) (fun _ => Cell.started (ownTrace (s.part p)) n 0)
    (s.liveCells p).zipIdx s
  rw [startCores_eq]
  generalize forEach (s.liveCells p).zipIdx _ s = u at hout hin hframe
  have hpart : ∀ q, u.part q = s.part q := fun q => congrArg (vget · q Part.reset) (hframe .parts (by decide))
  refine ⟨fun c hc => hout c (by rw [hmap]; exact hc), fun c hc => ?_, ?_, fun q hq => ?_⟩
  · rw [← hmap] at hc
    obtain ⟨x, hx, rfl⟩ := List.mem_map.1 hc
    exact hin x hx
  · rw [State.part_onPart_self _ _ _ hp, hpart]
  · rw [State.part_onPart_ne _ _ _ _ hq, hpart]

theorem openCapsule_of_none {p : Nat} {s : State} (h : (s.part p).det.caps = 0) : openCapsule p s = s := if_pos h

theorem startRun_of_off {p : Nat} {s : State} (h : (s.part p).det.on = false) : startRun p s = s :=
  if_neg (by rw [h]; decide)

theorem caps_of_off {d : Det} (h : d.on = false) : d.caps = 0 := by
  simp only [Det.on, Bool.or_eq_false_iff, decide_eq_false_iff_not] at h
  omega

/-! ### The start of a replay -/

/-- The arguments of a replay, from the written value (07 R191). -/
def replayArgs (v : Nat) : Vector (BitVec 64) 8 := Vector.ofFn fun k => BitVec.ofNat 64 (bits v (64 * k.val + 127) (64 * k.val + 64))

theorem replayArgs_toNat (v : Nat) (k : Fin 8) : (replayArgs v)[k].toNat = bits v (64 * k.val + 127) (64 * k.val + 64) := by
  have hlt := bits_lt v (64 * k.val + 127) (64 * k.val + 64)
  rw [show 64 * k.val + 127 + 1 - (64 * k.val + 64) = 64 by omega] at hlt
  simp only [replayArgs, Fin.getElem_fin, Vector.getElem_ofFn, BitVec.toNat_ofNat]
  exact Nat.mod_eq_of_lt hlt

/-- The partition and its parameter registers as the written value asks. -/
def Part.replayAsked (v : Nat) (q : Part) : Part :=
  { q with
    replayReg := BitVec.ofNat 576 v, pset := BitVec.ofNat 16 (bits v 15 0), args := replayArgs v,
    det := { q.det with stepArr := [] } }

/-- A cell whose parameter registers take the patch set. -/
def Cell.patched (set : List PatchEntry) (args : Vector (BitVec 64) 8) (y : Cell) : Cell :=
  { y with core := applyPatch set args y.core }

def patchCells (p : Nat) (set : List PatchEntry) (args : Vector (BitVec 64) 8) (s : State) : State :=
  forEach (s.liveCells p) (fun c s => s.onCell c (Cell.patched set args)) s

/-- The effect of a REPLAY_START. -/
def replayStarted (p v : Nat) (s : State) : State :=
  let u := openCapsule p (patchCells p (((modOf s p).patches[bits v 15 0]?).getD []) (replayArgs v)
    (s.onPart p (Part.replayAsked v)))
  if (u.part p).st ≠ 1 then u else startCores p 0 (fun _ => 0) (startRun p u)

theorem exec_replayStart {r : EopReq} {x : Session} {e : Entry} {s : State} (h : Granted r x e s) (hi : r.index = 0x6050)
    (hs : r.sub = 1) (hrst : (s.part x.part.val).rst = 1) (hb : busyPart (s.part x.part.val) = false)
    (hv : bits (val r) 63 16 = 0) (hset : bits (val r) 15 0 < (modOf s x.part.val).patches.length) :
    exec (.replayStart r) s = .next (replayStarted x.part.val (val r) (responded opWrite r x stOk [] s)) := by
  refine (granted_accepted (i := .replayStart r) h rfl (by rw [hi, hs]; decide) (worst_two ?_ ?_)).trans rfl
  · change (decide ((s.part x.part.val).rst ≠ 1) || busyPart (s.part x.part.val)) = false
    rw [hb, decide_eq_false (not_not_intro hrst)]
    rfl
  · rw [hv]
    cases hm : ((admitted s).part x.part.val).mod with
    | none =>
      rw [modOf, show (s.part x.part.val).mod = none from hm] at hset
      exact absurd hset (Nat.not_lt_zero _)
    | some m =>
      rw [modOf, show (s.part x.part.val).mod = some m from hm] at hset
      dsimp only
      rw [decide_eq_false (p := bits (val r) 15 0 ≥ m.patches.length) (Nat.not_le.2 hset), Bool.and_false]
      rfl

theorem patchCells_frame (p : Nat) (set : List PatchEntry) (args : Vector (BitVec 64) 8) (s : State) :
    Only [.cells] s (patchCells p set args s) :=
  forEach_onCell_frame (fun c : Nat => c) (fun _ => Cell.patched set args) (s.liveCells p) s

theorem patchCells_cell (p : Nat) (set : List PatchEntry) (args : Vector (BitVec 64) 8) (s : State) :
    (∀ c, c ∉ s.liveCells p → (patchCells p set args s).cell c = s.cell c) ∧
      ∀ c ∈ s.liveCells p, (patchCells p set args s).cell c = (s.cell c).patched set args :=
  forEach_cells _ (liveCells_nodup s p) (fun _ hc => mem_cellsOf_lt (mem_cellsOf_of_live hc)) s

theorem running_of_busy {q : Part} (h : busyPart q = false) : q.st = 1 := by
  simp only [busyPart, Bool.or_eq_false_iff, decide_eq_false_iff_not, not_not] at h
  exact h.1.1.1.1

/-- A replay start without a digest: the cells, then the partition. -/
theorem replayStarted_eq {p v : Nat} {s : State} (hp : p < 8) (hb : busyPart (s.part p) = false) (hdet : (s.part p).det.on = false) :
    replayStarted p v s = startCores p 0 (fun _ => 0) (patchCells p (((modOf s p).patches[bits v 15 0]?).getD []) (replayArgs v)
      (s.onPart p (Part.replayAsked v))) := by
  have hpart : (patchCells p (((modOf s p).patches[bits v 15 0]?).getD []) (replayArgs v) (s.onPart p (Part.replayAsked v))).part p =
      (s.part p).replayAsked v :=
    (congrArg (vget · p Part.reset) (patchCells_frame _ _ _ _ .parts (by decide))).trans (State.part_onPart_self _ _ _ hp)
  unfold replayStarted
  rw [openCapsule_of_none (by rw [hpart]; exact caps_of_off hdet)]
  dsimp only
  rw [if_neg (by rw [hpart]; exact not_not_intro (running_of_busy hb)), startRun_of_off (by rw [hpart]; exact hdet)]

/-- What the answer to a request leaves of the partitions, their modules and cells. -/
theorem responded_same (op : Nat) (r : EopReq) (x : Session) (st : Nat) (d : List Byte) (s : State) (p : Nat) :
    (∀ q, (responded op r x st d s).part q = s.part q) ∧ (responded op r x st d s).liveCells p = s.liveCells p ∧
      modOf (responded op r x st d s) p = modOf s p ∧ ∀ c, (responded op r x st d s).cell c = s.cell c :=
  ⟨fun _ => rfl, rfl, rfl, fun _ => rfl⟩

/-- What a replay that starts leaves of its partition and of the cells. -/
theorem replayStarted_outcome {p v : Nat} {u : State} (hp : p < 8) (hb : busyPart (u.part p) = false)
    (hdet : (u.part p).det.on = false) :
    Only [.cells, .parts] u (replayStarted p v u) ∧
      (replayStarted p v u).part p = ((u.part p).replayAsked v).replaying 0 ∧ OtherParts p u (replayStarted p v u) ∧
      (∀ c, c ∉ u.liveCells p → (replayStarted p v u).cell c = u.cell c) ∧
      ∀ c ∈ u.liveCells p, ∃ own, (replayStarted p v u).cell c =
        ((u.cell c).patched (((modOf u p).patches[bits v 15 0]?).getD []) (replayArgs v)).started own 0 0 := by
  rw [replayStarted_eq hp hb hdet]
  obtain ⟨hwout, hwin⟩ := patchCells_cell p (((modOf u p).patches[bits v 15 0]?).getD []) (replayArgs v)
    (u.onPart p (Part.replayAsked v))
  have hwf := patchCells_frame p (((modOf u p).patches[bits v 15 0]?).getD []) (replayArgs v) (u.onPart p (Part.replayAsked v))
  have hwu := ((State.onPart_frame u p (Part.replayAsked v)).mono (m := [.cells, .parts]) (by decide)).trans (hwf.mono (by decide))
  generalize patchCells p _ _ (u.onPart p (Part.replayAsked v)) = w at *
  have hwpart : ∀ q, w.part q = (u.onPart p (Part.replayAsked v)).part q := fun q =>
    congrArg (vget · q Part.reset) (hwf .parts (by decide))
  have hlive : w.liveCells p = u.liveCells p := by
    unfold State.liveCells State.cellsOf State.defOf State.present
    rw [hwu .nv (by decide), hwu .dev (by decide), hwu .fuse (by decide)]
  obtain ⟨hout, hin, hpart, hother⟩ := startCores_zero hp 0 w
  refine ⟨hwu.trans (startCores_keeps p 0 (fun _ => 0) (by decide) (by decide) (.refl _ w)).1, ?_, fun q hq => ?_, fun c hc => ?_,
    fun c hc => ⟨ownTrace (w.part p), ?_⟩⟩
  · rw [hpart, hwpart, State.part_onPart_self _ _ _ hp]
  · exact (hother q hq).trans ((hwpart q).trans (State.part_onPart_ne _ _ _ _ hq))
  · rw [hout c (by rw [hlive]; exact hc)]
    exact hwout c hc
  · rw [hin c (by rw [hlive]; exact hc)]
    exact congrArg (Cell.started (ownTrace (w.part p)) 0 0) (hwin c hc)

end Sys2Proof.Machine

namespace Sys2Proof.Proofs

open Machine Claims

/-- Settles O38: the patch set, then the cores started, without a digest. -/
theorem replayStartsEveryCell : Obligations.ReplayStartsEveryCell := by
  unfold Obligations.ReplayStartsEveryCell
  intro r x e s h hi hs p v hrst hb hdet hv hset
  have he := exec_replayStart h hi hs hrst hb hv hset
  have hans := answered_of_heard h.1 stOk []
  have hresp := responded_frame opWrite r x stOk [] s
  have hsame := responded_same opWrite r x stOk [] s p
  generalize responded opWrite r x stOk [] s = u at he hans hresp hsame
  obtain ⟨hp, hlive, hmod, hcell⟩ := hsame
  obtain ⟨hframe, hpart, hother, hout, hin⟩ := replayStarted_outcome (v := v) x.part.isLt (by rw [hp p]; exact hb)
    (by rw [hp p]; exact hdet)
  rw [hlive] at hout hin
  have hpset : (BitVec.ofNat 16 (bits v 15 0)).toNat = bits v 15 0 := (BitVec.toNat_ofNat _ _).trans (Nat.mod_eq_of_lt (bits_lt _ _ _))
  refine ⟨_, he, (hresp.mono (by decide)).trans (hframe.mono (by decide)), ?_, fun q hq => (hother q hq).trans (hp q), ?_⟩
  · exact ⟨(hframe .out (by decide)).trans hans.1, (hframe .eop (by decide)).trans hans.2⟩
  rw [hpart, hp p]
  refine ⟨rfl, rfl, rfl, hpset, rfl, replayArgs_toNat v, fun c hc => (hout c hc).trans (hcell c), fun c hc => ?_⟩
  obtain ⟨own, hc'⟩ := hin c hc
  rw [hc', hcell, hmod, List.getD_eq_getElem?_getD]
  exact ⟨rfl, rfl, rfl, rfl, rfl, rfl, rfl, rfl, rfl⟩

end Sys2Proof.Proofs
end

section
/-! SUPPORT. Reads and segmented transfers of dictionary entries (11 R324 to R329, 12 R340). -/

set_option Elab.async false

namespace Sys2Proof.Machine

open Claims

/-! ### Reads -/

theorem worst_last (n : Nat) {a b c : Nat} (ha : a = stOk) (hb : b = stOk) (hc : c = stOk) : worst [a, b, c, n] = n := by
  rw [ha, hb, hc]
  exact Nat.zero_max n

/-- A value is the same once the request is admitted and answered. -/
theorem valueOf_responded (opc : Nat) (r : EopReq) (x : Session) (st : Nat) (data : List Byte) (s : State) (p idx sub : Nat) :
    valueOf (responded opc r x st data s) p idx sub = valueOf s p idx sub := by
  have hcount : ((responded opc r x st data s).eop.sessions.filter fun y => y.isOpen && decide (y.part.val = p)).length =
      (s.eop.sessions.filter fun y => y.isOpen && decide (y.part.val = p)).length := by
    rw [← List.countP_eq_length_filter, ← List.countP_eq_length_filter]
    refine (List.countP_map ..).trans (List.countP_congr fun y _ => ?_)
    simp only [Function.comp_apply]
    split <;> rfl
  unfold valueOf
  rw [hcount]
  rfl

/-- Whether an entry's value is a DOMAIN. -/
theorem judgeRead_of_plain {r : EopReq} {x : Option Session} {e : Entry} {s : State}
    (he : entryOf s r.index.toNat r.sub.toNat = some e) (hres : reservedSet r = false)
    (hdev : s.dev.devState ≠ 0 ∨ r.index.toNat = 0x1000) (ha : readAuthority s x r.index.toNat r.sub.toNat = stOk)
    (hd : domainMax e = none) (hlen : r.len = 0) (hc : beingCleared s (partOf x) r.index.toNat r.sub.toNat = false) :
    judgeRead r x s = (stOk, valueOf s (partOf x) r.index.toNat r.sub.toNat) := by
  have hb : ¬ (booting s = true ∧ r.index.toNat ≠ 0x1000) := fun ⟨h, h'⟩ => by
    rcases hdev with hdev | hdev
    · exact hdev (of_decide_eq_true h)
    · exact h' hdev
  unfold judgeRead
  dsimp only
  rw [if_neg hb, ha, if_neg (by decide), he, hres, hlen, hc]
  unfold domainMax at hd
  cases hty : e.ty with
  | domain n =>
    rw [hty] at hd
    cases hd
  | bytes n =>
    dsimp only
    rw [hty]
    rfl
  | bool =>
    dsimp only
    rw [hty]
    rfl

theorem exec_read (r : EopReq) (s : State) : exec (.read r) s = .next (eopRun opRead r (judgeRead r) (fun _ _ s => s) s) := rfl

/-- The value of an entry at offset 0 as a segmented read answers it (11 R328). -/
def firstSegment (bs : List Byte) : List Byte := leBytes 4 0 ++ leBytes 4 bs.length ++ bs.take 1024

theorem judgeSegRead_of_first {r : EopReq} {x : Session} {e : Entry} {s : State}
    (he : entryOf s r.index.toNat r.sub.toNat = some e) (hres : reservedSet r = false)
    (hdev : s.dev.devState ≠ 0 ∨ r.index.toNat = 0x1000) (ha : readAuthority s (some x) r.index.toNat r.sub.toNat = stOk)
    (hd : (domainMax e).isSome = true) (hlen : r.len = 4) (hv : val r = 0)
    (hc : beingCleared s x.part.val r.index.toNat r.sub.toNat = false) (hatt : r.index.toNat ≠ 0x8020) :
    judgeSegRead r (some x) s = (stOk, firstSegment (valueOf s x.part.val r.index.toNat r.sub.toNat)) := by
  have hb : ¬ (booting s = true ∧ r.index.toNat ≠ 0x1000) := fun ⟨h, h'⟩ => by
    rcases hdev with hdev | hdev
    · exact hdev (of_decide_eq_true h)
    · exact h' hdev
  have hv' : leNat (reqData r) = 0 := hv
  have hc' : beingCleared s (partOf (some x)) r.index.toNat r.sub.toNat = false := hc
  have hsrc : segSource r (some x) s = some (valueOf s x.part.val r.index.toNat r.sub.toNat) := if_pos hv'
  unfold judgeSegRead
  dsimp only
  rw [if_neg hb, ha, if_neg (by decide), he]
  dsimp only
  rw [hsrc, hv', hd, hlen, hres, hc', decide_eq_false hatt]
  rfl

end Sys2Proof.Machine

namespace Sys2Proof.Machine

open Claims

/-! ### Segments -/

/-- The transfer of an entry forgotten (11 R329). -/
def dropSegs (r : EopReq) (s : State) : State :=
  s.onEop fun e => { e with segs := e.segs.filter fun t => !decide (t.index = r.index ∧ t.sub = r.sub) }

theorem segOf_dropSegs (r : EopReq) (s : State) : segOf r (dropSegs r s) = none := by
  refine List.find?_eq_none.2 fun t ht => ?_
  have h := (List.mem_filter.1 ht).2
  rw [Bool.not_eq_true'] at h
  rw [h]
  decide

theorem dropSegs_of_none {r : EopReq} {s : State} (h : segOf r s = none) : dropSegs r s = s := by
  have hf : (s.eop.segs.filter fun t => !decide (t.index = r.index ∧ t.sub = r.sub)) = s.eop.segs :=
    List.filter_eq_self.2 fun t ht => by
      simpa only [Bool.not_eq_true', Bool.not_eq_true] using List.find?_eq_none.1 h t ht
  unfold dropSegs State.onEop
  dsimp only
  rw [hf]

/-- A transfer of the entry kept, with the bytes so far. -/
def keepSeg (r : EopReq) (y : Session) (bs : List Byte) (s : State) : State :=
  (dropSegs r s).onEop fun e => { e with segs := e.segs ++ [⟨r.index, r.sub, y.num, y.part, segTotal r, bs⟩] }

theorem segOf_keepSeg (r : EopReq) (y : Session) (bs : List Byte) (s : State) :
    segOf r (keepSeg r y bs s) = some ⟨r.index, r.sub, y.num, y.part, segTotal r, bs⟩ := by
  have h : (dropSegs r s).eop.segs.find? (fun t => decide (t.index = r.index ∧ t.sub = r.sub)) = none := segOf_dropSegs r s
  change ((dropSegs r s).eop.segs ++ _).find? _ = _
  rw [List.find?_append, h]
  simp

section
variable {r : EopReq} {keep : List Byte → State → State} {commit : Nat → List Byte → State → State} {y : Session} {s : State}

theorem segEffect_of_kept (h : segLast r = false) : segEffect r keep commit stOk (some y) s =
    keepSeg r y (segValue r s) (keep (segValue r s) s) := by
  unfold segEffect
  simp only [h, if_true, Bool.false_eq_true, if_false]
  rfl

theorem segEffect_of_last (h : segLast r = true) : segEffect r keep commit stOk (some y) s =
    commit y.part.val (segValue r s) (dropSegs r (keep (segValue r s) s)) := by
  unfold segEffect
  simp only [h, if_true]
  rfl

theorem segEffect_of_outOfOrder {t : SegXfer} (h : segOf r s = some t) (ht : t.session = y.num) (ho : segOffset r ≠ 0) :
    segEffect r keep commit stRange (some y) s = dropSegs r s := by
  unfold segEffect
  simp only [h, ht, decide_true]
  rw [if_neg (by decide), if_pos ⟨trivial, ho, by decide, by decide, by decide⟩]
  rfl

end

/-! ### The status of a segment -/

section
variable {r : EopReq} {max : Nat} {busy : State → Bool} {check : State → Nat → List Byte → Nat} {y : Session} {s : State}

theorem segStatus_of_first (ho : segOffset r = 0) (hs : segOf r s = none) (hb : busy s = false)
    (hn : (segBytes r).length = 1024) (ht : 1024 < segTotal r) (hm : segTotal r ≤ max) :
    segStatus r max busy check y s = stOk := by
  have hl : segLast r = false := decide_eq_false (by omega)
  unfold segStatus
  simp only [hs, hb, hl, ho, hn]
  rw [decide_eq_false (show ¬ segTotal r > max by omega), decide_eq_false (show ¬ 0 + 1024 > segTotal r by omega)]
  rfl

theorem segStatus_of_whole (ho : segOffset r = 0) (hs : segOf r s = none) (hb : busy s = false)
    (hn : segTotal r = (segBytes r).length) (hm : segTotal r ≤ max) (hc : check s y.part.val (segBytes r) = stOk) :
    segStatus r max busy check y s = stOk := by
  have hl : segLast r = true := decide_eq_true (by omega)
  have hv : segValue r s = segBytes r := if_pos ho
  unfold segStatus
  simp only [hs, hb, hl, ho, hv, hc, hn]
  rw [decide_eq_false (show ¬ (segBytes r).length > max by omega), decide_eq_false (show ¬ 0 + (segBytes r).length > (segBytes r).length by omega)]
  rfl

theorem segStatus_of_later {t : SegXfer} (ho : segOffset r ≠ 0) (hs : segOf r s = some t) (ht : t.session = y.num)
    (hd : t.data.length = segOffset r) (hT : t.total = segTotal r) (hn : segOffset r + (segBytes r).length ≤ segTotal r)
    (hb : segLast r = true ∨ (segBytes r).length = 1024) :
    segStatus r max busy check y s = if segLast r then check s y.part.val (segValue r s) else stOk := by
  have hbad : (!segLast r && decide ((segBytes r).length ≠ 1024)) = false := by
    rcases hb with h | h
    · rw [h]; rfl
    · rw [h]; exact Bool.and_false _
  unfold segStatus
  dsimp only
  rw [if_neg ho, hs, hbad, decide_eq_false (show ¬ segOffset r + (segBytes r).length > segTotal r by omega)]
  exact if_neg (by simp [ht, hd, hT])

theorem segStatus_of_outOfOrder {t : SegXfer} (ho : segOffset r ≠ 0) (hs : segOf r s = some t)
    (hd : t.data.length ≠ segOffset r ∨ t.total ≠ segTotal r) : segStatus r max busy check y s = stRange := by
  unfold segStatus
  dsimp only
  rw [if_neg ho, hs]
  exact if_pos (by tauto)

end

theorem segValue_of_later {r : EopReq} {s : State} {t : SegXfer} (ho : segOffset r ≠ 0) (hs : segOf r s = some t) :
    segValue r s = t.data ++ segBytes r := by
  unfold segValue
  rw [if_neg ho, hs]

/-! ### The entries written in segments -/

/-- What a row of segmented writes asks before a transfer, of a whole value, and does with the bytes (10 R280, R302;
12 R340). -/
def segBusy (r : EopReq) (s : State) : Bool := decide (r.index = 0x8040) && s.test.fwBusy

def segCheck (r : EopReq) (s : State) (p : Nat) (bs : List Byte) : Nat :=
  if r.index = 0x5600 then
    worst [when' (groupBad s bs) stRange, when' ((s.part p).colls.any fun x => decide (x.group = r.sub.toNat - 1)) stNotReady]
  else when' (!decide (r.index = 0x8040) && delayMapBad s bs) stRange

/-- The idle slot with the bytes of an image (12 R340). -/
def slotBytes (bs : List Byte) (s : State) : State :=
  s.onNv fun n => { n with slots := vmod n.slots (idleSlot s) fun f => { f with valid := false, pending := false, image := bs } }

def segKeep (r : EopReq) (bs : List Byte) (s : State) : State := if decide (r.index = 0x8040) then slotBytes bs s else s

/-- A partition whose group has a new member list (10 R302). -/
def Part.regrouped (g : Nat) (bs : List Byte) (q : Part) : Part :=
  { q with
    groups := vmod q.groups g fun _ => bs, inst := vmod q.inst g fun _ => 0, binst := vmod q.binst g fun _ => 0 }

def segCommit (r : EopReq) (p : Nat) (bs : List Byte) (s : State) : State :=
  if r.index = 0x5600 then s.onPart p (Part.regrouped (r.sub.toNat - 1) bs)
  else if decide (r.index = 0x8040) then s.onTest fun t => { t with fwBusy := true, fwStatus := BitVec.ofNat 8 stNotReady }
  else s.onNv fun n => { n with delayMap := bs }

/-- The row of a segment. -/
def segRow (r : EopReq) : Instr := if r.index = 0x5600 then .groupListWrite r else .segWrite r

theorem eopSegWrite_of_heard {mine : Nat → Nat → Bool} {r : EopReq} {x : Session} {e : Entry} {m : Nat} {s : State}
    (h : SegmentHeard r x e m s) (hm : mine r.index.toNat r.sub.toNat = true) (busy : State → Bool)
    (check : State → Nat → List Byte → Nat) (keep : List Byte → State → State) (commit : Nat → List Byte → State → State)
    {st : Nat} (hst : segStatus r m busy check x (admitted s) = st) : eopSegWrite mine r busy check keep commit s =
      segEffect r keep commit st (some x) (responded opSegWrite r x st [] s) := by
  obtain ⟨hh, hdev, he, ha, hres, hd, h8, h1032, hc⟩ := h
  have he' : entryOf (admitted s) r.index.toNat r.sub.toNat = some e := he
  have ha' : writeAuthority (admitted s) (some x) r.index.toNat r.sub.toNat = stOk := ha
  have hc' : beingCleared (admitted s) x.part.val r.index.toNat r.sub.toNat = false := hc
  rw [eopSegWrite, if_pos hm, eopRun_of_heard hh _ _ (st := st)]
  unfold judgeSegWrite
  dsimp only
  rw [if_neg (by rw [show booting (admitted s) = false from decide_eq_false hdev]; decide), ha', if_neg (by decide), he']
  dsimp only
  rw [hd]
  dsimp only
  rw [hres, hc', decide_eq_true h8, decide_eq_true h1032, hst]
  exact congrArg (·, []) (worst_last st rfl rfl rfl)

theorem exec_segRow {r : EopReq} {x : Session} {e : Entry} {m : Nat} {s : State} (h : SegmentHeard r x e m s) {st : Nat}
    (hst : segStatus r m (segBusy r) (segCheck r) x (admitted s) = st) : exec (segRow r) s =
      .next (segEffect r (segKeep r) (segCommit r) st (some x) (responded opSegWrite r x st [] s)) := by
  have hent := entryAt_of_entryOf h.2.2.1
  by_cases hi : r.index = 0x5600
  · have hidx : r.index.toNat = 0x5600 := by rw [hi]; rfl
    have hb : segBusy r = fun _ => false := funext fun s => by rw [segBusy, hi]; rfl
    have hk : segKeep r = fun _ s => s := funext fun bs => funext fun s => if_neg (by rw [hi]; decide)
    have hc : segCheck r = fun s p bs => worst [when' (groupBad s bs) stRange,
        when' ((s.part p).colls.any fun x => decide (x.group = r.sub.toNat - 1)) stNotReady] :=
      funext fun s => funext fun p => funext fun bs => if_pos hi
    have hco : segCommit r = fun p bs s => s.onPart p (Part.regrouped (r.sub.toNat - 1) bs) :=
      funext fun p => funext fun bs => funext fun s => if_pos hi
    rw [hb, hc] at hst
    rw [segRow, if_pos hi, hk, hco]
    exact next_congr (eopSegWrite_of_heard h (by rw [hidx] at hent ⊢; rw [hent]; rfl) _ _ _ _ hst)
  · have hidx : r.index.toNat ≠ 0x5600 := fun h => hi (BitVec.eq_of_toNat_eq h)
    have hc : segCheck r = fun s _ bs => when' (!decide (r.index = 0x8040) && delayMapBad s bs) stRange :=
      funext fun s => funext fun p => funext fun bs => if_neg hi
    have hco : segCommit r = fun _ bs s => if decide (r.index = 0x8040) then
        s.onTest fun t => { t with fwBusy := true, fwStatus := BitVec.ofNat 8 stNotReady }
        else s.onNv fun n => { n with delayMap := bs } :=
      funext fun p => funext fun bs => funext fun s => if_neg hi
    rw [hc] at hst
    rw [segRow, if_neg hi, hco]
    have he := eopSegWrite_of_heard h (mine := fun i j => !(decide (i = 0x5600) && (entryAt i j).isSome))
      (by rw [decide_eq_false hidx]; rfl) (segBusy r) _ (segKeep r) (fun _ bs s => if decide (r.index = 0x8040) then
        s.onTest fun t => { t with fwBusy := true, fwStatus := BitVec.ofNat 8 stNotReady }
        else s.onNv fun n => { n with delayMap := bs }) hst
    exact next_congr he

end Sys2Proof.Machine
end

section
/-! SUPPORT. The entries that take segmented writes (11 R329, R331). -/

set_option Elab.async false

namespace Sys2Proof.Machine

open Claims

/-- A DOMAIN entry that may be written. -/
def takesSegments (e : Entry) : Bool := (domainMax e).isSome && decide (e.acc ≠ .ro)

/-- An entry of a table, if there is one, is none that takes segments. -/
def NoSegments (o : Option Entry) : Prop := ∀ e, o = some e → takesSegments e = false

theorem noSegments_none : NoSegments none := fun _ h => by cases h

theorem noSegments_some {e : Entry} (h : takesSegments e = false) : NoSegments (some e) := fun _ he => by
  cases he
  exact h

theorem noSegments_pick {l : List Entry} (hl : l.all (fun e => !takesSegments e) = true) (sub : Nat) : NoSegments (pick l sub) := by
  intro e h
  unfold pick at h
  split at h
  · cases h
  · simpa using List.all_eq_true.1 hl e (List.mem_of_getElem? h)

theorem noSegments_many {n : Nat} {f : Nat → Entry} (hf : ∀ i, takesSegments (f i) = false) (sub : Nat) :
    NoSegments (many n f sub) := by
  intro e h
  unfold many at h
  split at h
  · cases h
    exact hf _
  · cases h

theorem noSegments_port (grp sub : Nat) : NoSegments (portEntry grp sub) := by
  unfold portEntry
  dsimp only
  split
  · exact noSegments_pick rfl _
  · exact noSegments_pick rfl _
  · exact noSegments_pick rfl _
  · exact noSegments_none

theorem noSegments_ite {p : Prop} [Decidable p] {a b : Option Entry} (ha : NoSegments a) (hb : NoSegments b) :
    NoSegments (if p then a else b) := by
  split
  · exact ha
  · exact hb

/-- One row of the table of entries, and the rows below it. -/
theorem noSegments_row {idx k : Nat} {a : Option Entry} {g : ¬ idx = k → Option Entry} (ha : idx = k → NoSegments a)
    (hg : ∀ h, NoSegments (g h)) :
    NoSegments (dite (idx = k) (Eq.ndrec_symm (motive := fun _ => Option Entry) a) g) := by
  by_cases h : idx = k
  · subst h
    exact (dif_pos rfl).symm ▸ ha rfl
  · exact (dif_neg h).symm ▸ hg h

/-- The three entries written in segments: the ring delay map, a group's member list and the firmware image. -/
theorem index_of_takesSegments {idx sub : Nat} {e : Entry} (h : entryAt idx sub = some e) (ht : takesSegments e = true) :
    idx = 0x5010 ∨ idx = 0x5600 ∨ idx = 0x8040 := by
  by_contra hn
  rw [not_or, not_or] at hn
  obtain ⟨_, _, _⟩ := hn
  have hno : NoSegments (entryAt idx sub) := by
    delta entryAt entryAt.match_1
    beta_reduce
    repeat' refine noSegments_row ?_ fun _ => ?_
    all_goals first
      | exact fun _ => noSegments_pick rfl _
      | exact fun _ => noSegments_many (fun _ => rfl) _
      | exact fun h => absurd h ‹_›
      | exact fun _ => noSegments_ite (noSegments_some rfl) (noSegments_many (fun _ => rfl) _)
      | exact noSegments_ite (noSegments_port _ _) noSegments_none
  exact absurd ht (by rw [hno e h]; decide)

/-- A granted write is of an entry that is not read-only (11 R325). -/
theorem writable_of_authority {s : State} {x : Session} {idx sub : Nat} {e : Entry} (he : entryOf s idx sub = some e)
    (ha : writeAuthority s (some x) idx sub = stOk) : e.acc ≠ .ro := fun hacc => by
  unfold writeAuthority at ha
  dsimp only at ha
  rw [he] at ha
  split at ha
  · exact absurd ha (by decide)
  · dsimp only at ha
    rw [if_pos (.inr hacc)] at ha
    exact absurd ha (by decide)

theorem index_of_segmentHeard {r : EopReq} {x : Session} {e : Entry} {m : Nat} {s : State} (h : SegmentHeard r x e m s) :
    r.index = 0x5010 ∨ r.index = 0x5600 ∨ r.index = 0x8040 := by
  obtain ⟨-, -, he, ha, -, hd, -⟩ := h
  have ht : takesSegments e = true := by
    rw [takesSegments, hd, decide_eq_true (writable_of_authority he ha)]
    rfl
  exact (index_of_takesSegments (entryAt_of_entryOf he) ht).imp (fun h => BitVec.eq_of_toNat_eq h)
    (.imp (fun h => BitVec.eq_of_toNat_eq h) fun h => BitVec.eq_of_toNat_eq h)

/-- No public entry is cleared by a reset. -/
theorem publicIndex_of_cleared {idx : Nat} (h : clearedIndex idx = true) : publicIndex idx = false :=
  Bool.not_inj (List.all_eq_true.1 (rfl : List.all _ (fun i => !publicIndex i) = true) idx (of_decide_eq_true h))

theorem beingCleared_of_public {s : State} {p idx sub : Nat} (h : publicIndex idx = true) : beingCleared s p idx sub = false := by
  have hc : clearedIndex idx = false := Bool.eq_false_iff.2 fun hc => Bool.noConfusion (h.symm.trans (publicIndex_of_cleared hc))
  rw [beingCleared, hc, Bool.false_and]

/-- The effect of a segmented read: the snapshot stands until its last byte is read (11 R328). -/
def segReadEffect (r : EopReq) (x : Option Session) (s : State) : State :=
  match segSource r x s with
  | none => s
  | some bs => setSnap x (if leNat (reqData r) + 1024 ≥ bs.length then none else some ⟨r.index, r.sub, bs⟩) s

theorem exec_segRead (r : EopReq) (s : State) :
    exec (.segRead r) s = .next (eopRun opSegRead r (judgeSegRead r) (onOk (segReadEffect r)) s) := rfl

theorem segReadEffect_of_source {r : EopReq} {x : Session} {s : State} {bs : List Byte} (h : segSource r (some x) s = some bs) :
    segReadEffect r (some x) s =
      onSession x.num (fun z => { z with
        snap := if leNat (reqData r) + 1024 ≥ bs.length then none else some ⟨r.index, r.sub, bs⟩ }) s := by
  rw [segReadEffect, h]
  rfl

/-! ### What a commit leaves -/

/-- The committed value in the NV settings, the slot under verification, or the partition's group. -/
theorem segCommit_frame (r : EopReq) (p : Nat) (bs : List Byte) (s : State) :
    Only [.nv, .parts, .test] s (segCommit r p bs s) := by
  unfold segCommit
  split
  · exact (State.onPart_frame _ _ _).mono (by decide)
  · split
    · exact (State.onTest_frame _ _).mono (by decide)
    · exact (State.onNv_frame _ _).mono (by decide)

theorem segKeep_frame (r : EopReq) (bs : List Byte) (s : State) : Only [.nv] s (segKeep r bs s) := by
  unfold segKeep
  split
  · exact State.onNv_frame _ _
  · exact .refl _ s

theorem segKeep_nv (r : EopReq) (bs : List Byte) (s : State) : (segKeep r bs s).nv =
    if decide (r.index = 0x8040) then { s.nv with
      slots := vmod s.nv.slots (idleSlot s) fun f => { f with valid := false, pending := false, image := bs } } else s.nv := by
  unfold segKeep
  split <;> rfl

theorem dropSegs_frame (r : EopReq) (s : State) : Only [.eop] s (dropSegs r s) := State.onEop_frame s _

theorem keepSeg_frame (r : EopReq) (y : Session) (bs : List Byte) (s : State) : Only [.eop] s (keepSeg r y bs s) :=
  (dropSegs_frame r s).trans (State.onEop_frame _ _)

end Sys2Proof.Machine

namespace Sys2Proof.Proofs

open Machine Claims

/-- Settles O40: the judgement of each row, then its answer and effect. -/
theorem readsAndSegments : Obligations.ReadsAndSegments := by
  unfold Obligations.ReadsAndSegments
  intro r x e s idx sub he hres hdev
  refine ⟨fun h ha hd hlen hc => ?_, fun h hf hr h0 ht hpub hd hlen => ?_, fun h ha hd hlen hv hc hatt => ?_,
    fun m h hdev ha hd h8 h1032 hc hs ho htot hm => ?_⟩
  · have hj : judgeRead r (some x) (admitted s) = (stOk, valueOf s x.part.val idx sub) :=
      judgeRead_of_plain (s := admitted s) (x := some x) he hres hdev ha hd hlen hc
    exact ⟨_, (exec_read r s).trans (next_congr (eopRun_of_heard_data h _ _ hj)), responded_frame _ _ _ _ _ s,
      answered_of_heard h _ _⟩
  · have hj : judgeRead r none (admitted s) = (stOk, valueOf s 0 idx sub) :=
      judgeRead_of_plain (s := admitted s) (x := none) he hres hdev (if_pos hpub) hd hlen (beingCleared_of_public hpub)
    have hrun : eopRun opRead r (judgeRead r) (fun _ _ s => s) s =
        sendM (answer opRead r 0 none stOk (valueOf s 0 idx sub)) (admitted s) := by
      simp only [eopRun, eopGate_of_zeroTag h hf hr h0 ht, hj, if_true]
    exact ⟨_, (exec_read r s).trans (next_congr hrun), ((admitted_frame s).mono (by decide)).trans
      ((sendM_frame _ _).mono (by decide)), rfl, rfl⟩
  · have hj : judgeSegRead r (some x) (admitted s) = (stOk, firstSegment (valueOf s x.part.val idx sub)) :=
      judgeSegRead_of_first (s := admitted s) he hres hdev ha hd hlen hv hc hatt
    let u := responded opSegRead r x stOk (firstSegment (valueOf s x.part.val idx sub)) s
    have hval : valueOf u x.part.val idx sub = valueOf s x.part.val idx sub := valueOf_responded _ _ _ _ _ s _ _ _
    have hv' : leNat (reqData r) = 0 := hv
    have hsrc : segSource r (some x) u = some (valueOf s x.part.val idx sub) := (if_pos hv').trans (congrArg some hval)
    have hrun := eopRun_of_heard_data h (judgeSegRead r) (onOk (segReadEffect r)) hj
    rw [onOk, if_pos rfl, segReadEffect_of_source hsrc, hv', num_of_heard h] at hrun
    have hses := sessionOf_responded (st := stOk) (data := firstSegment (valueOf s x.part.val idx sub)) h
    refine ⟨_, _, (exec_segRead r s).trans (next_congr hrun), ((responded_frame _ _ _ _ _ s).mono (by decide)).trans
      ((onSession_frame _ _ _).mono (by decide)), sessionOf_onSession (f := fun z => { z with
        snap := if 0 + 1024 ≥ (valueOf s x.part.val idx sub).length then none
          else some ⟨r.index, r.sub, valueOf s x.part.val idx sub⟩ }) hses fun _ => rfl, ?_, rfl, (answered_of_heard h _ _).1⟩
    rw [Nat.zero_add]
  · have hh : SegmentHeard r x e m s := ⟨h, hdev, he, ha, hres, hd, h8, h1032, hc⟩
    have hstatus : segBusy r (admitted s) = false → segCheck r (admitted s) x.part.val (segBytes r) = stOk →
        segStatus r m (segBusy r) (segCheck r) x (admitted s) = stOk := fun hb hc =>
      segStatus_of_whole (s := admitted s) ho hs hb htot hm hc
    have hlast : segLast r = true := decide_eq_true (by omega)
    have hwhole : segValue r (responded opSegWrite r x stOk [] s) = segBytes r := if_pos ho
    have hrun : ∀ (hi : r.index ≠ 0x8040) (hc : segCheck r (admitted s) x.part.val (segBytes r) = stOk),
        exec (segRow r) s = .next (segCommit r x.part.val (segBytes r) (responded opSegWrite r x stOk [] s)) := fun hi hc => by
      have hkeep : ∀ bs u, segKeep r bs u = u := fun bs u => if_neg (by rw [decide_eq_false hi]; decide)
      rw [exec_segRow hh (hstatus (by rw [segBusy, decide_eq_false hi]; rfl) hc), segEffect_of_last hlast, hwhole, hkeep,
        dropSegs_of_none (s := responded opSegWrite r x stOk [] s) hs]
    refine ⟨fun hi hmap => ?_, fun hi hg hcolls => ?_⟩
    · have hidx : r.index = 0x5010 := BitVec.eq_of_toNat_eq hi
      have hr := hrun (by rw [hidx]; decide) ((if_neg (by rw [hidx]; decide)).trans (when_false (by
        rw [show delayMapBad (admitted s) (segBytes r) = false from hmap, Bool.and_false])))
      rw [segRow, if_neg (by rw [hidx]; decide), segCommit, if_neg (by rw [hidx]; decide), if_neg (by rw [hidx]; decide)] at hr
      exact ⟨_, hr, ((responded_frame _ _ _ _ _ s).mono (by decide)).trans ((State.onNv_frame _ _).mono (by decide)),
        answered_of_heard h _ _, rfl⟩
    · have hidx : r.index = 0x5600 := BitVec.eq_of_toNat_eq hi
      have hr := hrun (by rw [hidx]; decide) ((if_pos hidx).trans (worst_two hg (List.any_eq_false.2 fun k hk => by
        simpa using hcolls k hk)))
      rw [segRow, if_pos hidx, segCommit, if_pos hidx] at hr
      have hself : ((responded opSegWrite r x stOk [] s).onPart x.part.val (Part.regrouped (r.sub.toNat - 1) (segBytes r))).part
          x.part.val = (s.part x.part.val).regrouped (r.sub.toNat - 1) (segBytes r) := State.part_onPart_self _ _ _ x.part.isLt
      exact ⟨_, hr, ((responded_frame _ _ _ _ _ s).mono (by decide)).trans ((State.onPart_frame _ _ _).mono (by decide)),
        answered_of_heard h _ _, fun q hq => State.part_onPart_ne _ _ _ _ hq, hself⟩

/-- Settles O41: the status of a segment by its place, then what a kept, a last and a refused one leave. -/
theorem segmentedWritesJoinAndCommit : Obligations.SegmentedWritesJoinAndCommit := by
  unfold Obligations.SegmentedWritesJoinAndCommit
  intro r x e m i s h hi seg o fw p q held slot sent
  obtain rfl : i = segRow r := hi
  have hnum := num_of_heard h.1
  have hidx := index_of_segmentHeard h
  have hsent : ∀ st t, t.out = (responded opSegWrite r x st [] s).out → sent st t := fun st t ht => by
    change t.out = { s.out with portM := s.out.portM ++ [answer opSegWrite r r.session (some x.key) st []] }
    rw [← hnum]
    exact ht
  have hkept : ∀ st bs, Only [.nv, .eop, .out] s (keepSeg r x bs (segKeep r bs (responded opSegWrite r x st [] s))) ∧
      sent st (keepSeg r x bs (segKeep r bs (responded opSegWrite r x st [] s))) ∧
      segOf r (keepSeg r x bs (segKeep r bs (responded opSegWrite r x st [] s))) = held bs ∧
      (keepSeg r x bs (segKeep r bs (responded opSegWrite r x st [] s))).nv = if fw then slot bs else s.nv := fun st bs => by
    have hk := keepSeg_frame r x bs (segKeep r bs (responded opSegWrite r x st [] s))
    have hn := segKeep_frame r bs (responded opSegWrite r x st [] s)
    refine ⟨?_, hsent _ _ ((hk .out (by decide)).trans (hn .out (by decide))), ?_, (hk .nv (by decide)).trans (segKeep_nv _ _ _)⟩
    · exact ((responded_frame _ _ _ _ _ s).mono (by decide)).trans ((hn.mono (by decide)).trans (hk.mono (by decide)))
    · rw [segOf_keepSeg, hnum]
  refine ⟨fun hs hb ho hlen ht hm => ?_, fun y hs hy ho => ⟨fun hd hT hlen ht => ?_, fun hd hT ht hmap hgroup => ?_, fun hbad => ?_⟩⟩
  · have hlast : segLast r = false := decide_eq_false fun hl => ht.ne (by rw [← hl, show segOffset r = 0 from ho,
      show (segBytes r).length = 1024 from hlen])
    have hbusy : segBusy r (admitted s) = false := by
      rw [segBusy]
      cases hfw : decide (r.index = 0x8040) with
      | false => rfl
      | true => exact hb hfw
    have hst := segStatus_of_first (max := m) (check := segCheck r) (y := x) (s := admitted s) ho hs hbusy hlen ht hm
    have he := exec_segRow h hst
    rw [segEffect_of_kept hlast, show segValue r (responded opSegWrite r x stOk [] s) = seg from if_pos ho] at he
    obtain ⟨h1, h2, h3, h4⟩ := hkept stOk seg
    exact ⟨_, he, h1, h2, h3, h4⟩
  · have ht' : segOffset r + (segBytes r).length < segTotal r := by rw [show (segBytes r).length = 1024 from hlen]; exact ht
    have hlast : segLast r = false := decide_eq_false ht'.ne
    have hst := segStatus_of_later (max := m) (busy := segBusy r) (check := segCheck r) (y := x) (s := admitted s) ho hs
      (hy.trans hnum.symm) hd hT ht'.le (.inr hlen)
    rw [hlast] at hst
    have he := exec_segRow h (hst.trans (if_neg (by decide)))
    rw [segEffect_of_kept hlast, segValue_of_later (s := responded opSegWrite r x stOk [] s) ho hs] at he
    obtain ⟨h1, h2, h3, h4⟩ := hkept stOk (y.data ++ seg)
    exact ⟨_, he, h1, h2, h3, h4⟩
  · have hlast : segLast r = true := decide_eq_true ht
    have hcheck : segCheck r (admitted s) x.part.val (y.data ++ seg) = stOk := by
      rcases hidx with h5 | h5 | h5
      · refine (if_neg (by rw [h5]; decide)).trans (when_false ?_)
        rw [show delayMapBad (admitted s) (y.data ++ seg) = false from hmap h5, Bool.and_false]
      · obtain ⟨hg, hc⟩ := hgroup h5
        refine (if_pos h5).trans (worst_two hg (List.any_eq_false.2 fun k hk => ?_))
        simpa using hc k hk
      · refine (if_neg (by rw [h5]; decide)).trans (when_false ?_)
        rw [h5]
        rfl
    have hst := segStatus_of_later (max := m) (busy := segBusy r) (check := segCheck r) (y := x) (s := admitted s) ho hs
      (hy.trans hnum.symm) hd hT (le_of_eq ht) (.inl hlast)
    rw [hlast, if_pos rfl, segValue_of_later (s := admitted s) ho hs] at hst
    have he := exec_segRow h (hst.trans hcheck)
    rw [segEffect_of_last hlast, segValue_of_later (s := responded opSegWrite r x stOk [] s) ho hs] at he
    let u := responded opSegWrite r x stOk [] s
    let w := dropSegs r (segKeep r (y.data ++ seg) u)
    have hw : Only [.nv, .eop] u w := ((segKeep_frame _ _ u).mono (by decide)).trans ((dropSegs_frame _ _).mono (by decide))
    have hc := segCommit_frame r p (y.data ++ seg) w
    have hwnv : w.nv = if fw then slot (y.data ++ seg) else s.nv := (dropSegs_frame r _ .nv (by decide)).trans (segKeep_nv _ _ u)
    have hwpart : ∀ n, w.part n = s.part n := fun n => congrArg (vget · n Part.reset) (hw .parts (by decide))
    have hwtest : w.test = s.test := hw .test (by decide)
    refine ⟨_, he, ((responded_frame _ _ _ _ _ s).mono (by decide)).trans ((hw.mono (by decide)).trans (hc.mono (by decide))),
      hsent _ _ ((hc .out (by decide)).trans (hw .out (by decide))), ?_, ?_⟩
    · rw [segOf, hc .eop (by decide)]
      exact segOf_dropSegs r _
    · have hnv : (segCommit r p (y.data ++ seg) w).nv = if r.index = 0x5010 then { w.nv with delayMap := y.data ++ seg } else w.nv := by
        rcases hidx with h5 | h5 | h5 <;> simp [segCommit, h5]
      have htest : (segCommit r p (y.data ++ seg) w).test =
          if fw then { s.test with fwBusy := true, fwStatus := BitVec.ofNat 8 stNotReady } else s.test := by
        rcases hidx with h5 | h5 | h5 <;> simp [segCommit, fw, h5, hwtest]
      have hpart : ∀ n, (segCommit r p (y.data ++ seg) w).part n =
          if n = p ∧ r.index = 0x5600 then q.regrouped (r.sub.toNat - 1) (y.data ++ seg) else s.part n := fun n => by
        rcases hidx with h5 | h5 | h5
        · simp [segCommit, h5, hwpart]
        · rw [segCommit, if_pos h5, State.part_onPart]
          by_cases hn : n = p
          · rw [if_pos ⟨hn, x.part.isLt⟩, if_pos ⟨hn, h5⟩, hwpart]
          · rw [if_neg fun h => hn h.1, if_neg fun h => hn h.1, hwpart]
        · simp [segCommit, h5, hwpart]
      refine ⟨hnv.trans ?_, htest, fun n hn => (hpart n).trans (if_neg fun h => hn h.1), (hpart p).trans ?_⟩
      · rw [hwnv]
        rcases hidx with h5 | h5 | h5 <;> simp [fw, h5]
      · by_cases h5 : r.index = 0x5600
        · rw [if_pos ⟨rfl, h5⟩, if_pos h5]
          rfl
        · rw [if_neg fun h => h5 h.2, if_neg h5]
  · have hst := segStatus_of_outOfOrder (max := m) (busy := segBusy r) (check := segCheck r) (y := x) (s := admitted s) ho hs hbad
    have he := exec_segRow h hst
    rw [segEffect_of_outOfOrder (s := responded opSegWrite r x stRange [] s) hs (hy.trans hnum.symm) ho] at he
    exact ⟨_, he, (responded_frame _ _ _ _ _ s).trans ((dropSegs_frame _ _).mono (by decide)),
      hsent _ _ rfl, segOf_dropSegs _ _⟩

end Sys2Proof.Proofs
end

section
/-! SUPPORT. Cores that leave a commit point and the end of a replay (07 R193, R214). -/

set_option Elab.async false

namespace Sys2Proof.Machine

open Claims

/-- A notice is the newest of its partition. -/
theorem noticed_notify {p : Nat} (hp : p < 8) (event status detail : Nat) (s : State) :
    Noticed p event status detail (notify p event status detail s) := by
  unfold Noticed
  change ((s.onPart p _).part p).notices.getLast? = _
  rw [State.part_onPart_self _ _ _ hp]
  dsimp only
  rw [List.length_append, List.length_singleton, List.getLast?_drop, if_neg (by rw [List.length_append, List.length_singleton]; omega), List.getLast?_concat]

/-- A notice changes the list of notices of its partition, and no other entry of it. -/
theorem notify_part {p : Nat} (hp : p < 8) (event status detail : Nat) (s : State) :
    ∃ l, (notify p event status detail s).part p = { s.part p with notices := l } :=
  ⟨_, State.part_onPart_self _ _ _ hp⟩

/-- A core that waits at its mark goes on. -/
def Cell.released (x : Cell) : Cell :=
  { x with core := { x.core with run := if x.core.run = .atMark then .running else x.core.run } }

theorem releaseCores_of_save {p : Nat} {s : State} (h : (s.part p).saveReq ≠ none) : releaseCores p s = s := if_pos h

theorem released_eq (x : Cell) :
    (if x.core.run = .atMark then { x with core := { x.core with run := .running } } else x) = x.released := by
  unfold Cell.released
  split <;> rfl

theorem releaseCores_eq {p : Nat} {s : State} (h : (s.part p).saveReq = none) : releaseCores p s =
    forEach (s.cellsOf p) (fun c s => s.onCell c Cell.released) (s.onPart p fun q => { q with atPoint := false }) := by
  unfold releaseCores
  rw [if_neg (not_not_intro h)]
  simp only [released_eq]

theorem mem_cellsOf_lt34 {s : State} {p : Nat} : ∀ c ∈ s.cellsOf p, c < 34 := fun _ hc => mem_cellsOf_lt hc

/-- The cores of a partition that no save holds go on from their marks. -/
theorem releaseCores_outcome {p : Nat} (hp : p < 8) {s : State} (h : (s.part p).saveReq = none) :
    (releaseCores p s).part p = { s.part p with atPoint := false } ∧ OtherParts p s (releaseCores p s) ∧
      (∀ c, c ∉ s.cellsOf p → (releaseCores p s).cell c = s.cell c) ∧
      ∀ c ∈ s.cellsOf p, (releaseCores p s).cell c = (s.cell c).released := by
  rw [releaseCores_eq h]
  obtain ⟨hout, hin⟩ := forEach_cells Cell.released (cellsOf_nodup s p) mem_cellsOf_lt34
    (s.onPart p fun q => { q with atPoint := false })
  have hf := forEach_onCell_frame (fun c : Nat => c) (fun _ => Cell.released) (s.cellsOf p)
    (s.onPart p fun q => { q with atPoint := false })
  have hpart : ∀ q, (forEach (s.cellsOf p) (fun c s => s.onCell c Cell.released)
      (s.onPart p fun q => { q with atPoint := false })).part q = (s.onPart p fun q => { q with atPoint := false }).part q :=
    fun q => congrArg (vget · q Part.reset) (hf .parts (by decide))
  refine ⟨?_, fun q hq => ?_, hout, hin⟩
  · rw [hpart, State.part_onPart_self _ _ _ hp]
  · rw [hpart, State.part_onPart_ne _ _ _ _ hq]

theorem releaseCores_frame (p : Nat) (s : State) : Only [.cells, .parts] s (releaseCores p s) :=
  (releaseCores_keeps p (by decide) (by decide) (.refl _ s)).1

theorem commitRun_of_off {p : Nat} {s : State} (h : (s.part p).det.on = false) : commitRun p s = (true, s) := if_pos h

theorem cupEnabled_of_off {d : Det} (h : d.on = false) : cupEnabled d.cup = false := by
  simp only [Det.on, Bool.or_eq_false_iff] at h
  exact h.1.2

theorem cupActive_of_off {q : Part} (h : q.det.on = false) : cupActive q = false := by
  rw [cupActive, cupEnabled_of_off h, Bool.false_and]

/-- The partition at its next commit point. -/
def Part.arrived (q : Part) : Part :=
  { q with commitN := q.commitN + 1, atPoint := true, det := { q.det with ta := Vector.replicate 32 0 } }

/-- A partition whose cells have all passed its next commit point. -/
def State.arrived (p : Nat) (s : State) : State :=
  (s.onPart p fun q => { q with commitN := q.commitN + 1 }).onPart p fun q =>
    { q with atPoint := true, det := { q.det with ta := Vector.replicate 32 0 } }

theorem arrived_part {p : Nat} (hp : p < 8) (s : State) : (s.arrived p).part p = (s.part p).arrived := by
  rw [State.arrived, State.part_onPart_self _ _ _ hp, State.part_onPart_self _ _ _ hp]
  rfl

theorem arrived_otherParts (p : Nat) (s : State) : OtherParts p s (s.arrived p) := fun q hq => by
  rw [State.arrived, State.part_onPart_ne _ _ _ _ hq, State.part_onPart_ne _ _ _ _ hq]

theorem exec_commitPoint_of_off {p : Fin 8} {s : State} (hr : commitReached s p = true) (ho : (s.part p).det.on = false) :
    exec (.partitionCommitPoint p) s = .next (releaseCores p (s.arrived p)) := by
  change execPartitionCommitPoint p s = _
  unfold execPartitionCommitPoint
  rw [if_neg (by rw [hr]; decide)]
  have hu : ((s.onPart p fun q => { q with commitN := q.commitN + 1 }).part p).det.on = false := by
    rw [State.part_onPart_self _ _ _ p.isLt]
    exact ho
  have hoff : ((s.arrived p).part p).det.on = false := by
    rw [arrived_part p.isLt]
    exact ho
  dsimp only
  rw [commitRun_of_off hu]
  change Host.Outcome.next (if cupActive ((s.arrived p).part p) = true then _ else
    releaseCores p (if cupEnabled ((s.arrived p).part p).det.cup = true then _ else s.arrived p)) = _
  rw [cupActive_of_off hoff, cupEnabled_of_off hoff]
  rfl

theorem closeCapsule_of_none {p : Nat} {s : State} (h : (s.part p).det.cap = none) : closeCapsule p s = s := by
  unfold closeCapsule
  rw [h]

/-- The halt of a core. -/
def Cell.coreHalted (x : Cell) : Cell := { x with core := { x.core with run := .halted } }

/-- A replay counted. -/
def Part.replayed (q : Part) : Part := { q with rst := 1, replays := q.replays + 1 }

/-- The cores halted and the replay counted. -/
def replayEnded (p : Nat) (s : State) : State :=
  (forEach (s.liveCells p) (fun c s => s.onCell c Cell.coreHalted) s).onPart p Part.replayed

theorem exec_replayEnd_of_off {p : Fin 8} {s : State} (hd : replayDone s p = true) (hs : (s.part p).step = none)
    (hc : (s.part p).det.cap = none) : exec (.replayEnd p) s =
      .next (notify p 0x01 stOk ((replayEnded p s).part p).replays.toNat (replayEnded p s)) := by
  have hst : (s.part p).st = 1 := by
    simp only [replayDone, Bool.and_eq_true, decide_eq_true_eq] at hd
    exact hd.1.1.1.1
  change execReplayEnd p s = _
  unfold execReplayEnd
  rw [if_neg (by rw [hd]; decide), if_pos hs, closeCapsule_of_none hc, if_neg (not_not_intro hst)]
  rfl

theorem replayEnded_outcome {p : Nat} (hp : p < 8) (s : State) :
    (replayEnded p s).part p = (s.part p).replayed ∧ OtherParts p s (replayEnded p s) ∧
      Only [.cells, .parts] s (replayEnded p s) ∧ ∀ c ∈ s.liveCells p, (replayEnded p s).cell c = (s.cell c).coreHalted := by
  have hcell := (forEach_cells Cell.coreHalted (liveCells_nodup s p) (fun _ hc => mem_cellsOf_lt (mem_cellsOf_of_live hc)) s).2
  have hf := forEach_onCell_frame (fun c : Nat => c) (fun _ => Cell.coreHalted) (s.liveCells p) s
  unfold replayEnded
  generalize forEach (s.liveCells p) _ s = u at hcell hf
  have hpart : ∀ q, u.part q = s.part q := fun q => congrArg (vget · q Part.reset) (hf .parts (by decide))
  refine ⟨?_, fun q hq => ?_, (hf.mono (by decide)).trans ((State.onPart_frame _ _ _).mono (by decide)), hcell⟩
  · rw [State.part_onPart_self _ _ _ hp, hpart]
  · rw [State.part_onPart_ne _ _ _ _ hq, hpart]

end Sys2Proof.Machine

namespace Sys2Proof.Proofs

open Machine Claims

/-- Settles O49: without a digest the point only frees the cores, and the end of a replay only halts them and counts. -/
theorem commitPointsAndReplayEnd : Obligations.CommitPointsAndReplayEnd := by
  unfold Obligations.CommitPointsAndReplayEnd
  intro p s
  refine ⟨fun h => if_pos h, fun h => if_pos h, fun hr ho => ⟨_, exec_commitPoint_of_off hr ho, ?_⟩,
    fun hd hs hc => ⟨_, exec_replayEnd_of_off hd hs hc, ?_⟩⟩
  · have hu := arrived_part p.isLt s
    have hne := arrived_otherParts p s
    have hfr : Only [.cells, .parts] s (s.arrived p) :=
      ((State.onPart_frame _ _ _).trans (State.onPart_frame _ _ _)).mono (by decide)
    refine ⟨hfr.trans (releaseCores_frame _ _), ?_⟩
    by_cases hsave : (s.part p).saveReq = none
    · obtain ⟨hq, ho, hcn, hc⟩ := releaseCores_outcome p.isLt (s := s.arrived p) (by rw [hu]; exact hsave)
      rw [hu] at hq
      refine ⟨fun q hq => (ho q hq).trans (hne q hq), by rw [hq]; rfl, by rw [hq, hsave]; rfl, hcn, fun c h => ?_⟩
      rw [hc c h]
      simp only [hsave, and_true]
      rfl
    · rw [releaseCores_of_save (by rw [hu]; exact hsave)]
      refine ⟨hne, by rw [hu]; rfl, ?_, fun _ _ => rfl, fun c _ => ?_⟩
      · rw [hu, Option.isSome_iff_ne_none.2 hsave]
        rfl
      · simp only [hsave, and_false, if_false]
        rfl
  · obtain ⟨hq, hne, hfr, hc⟩ := replayEnded_outcome p.isLt s
    have hn := notify_frame p 0x01 stOk ((replayEnded p s).part p).replays.toNat (replayEnded p s)
    refine ⟨(hfr.mono (by decide)).trans (hn.mono (by decide)), ?_, ?_, ?_, ?_, ?_⟩
    · exact fun q hq => (notify_part_ne hq _ _ _ _).trans (hne q hq)
    · obtain ⟨l, hl⟩ := notify_part p.isLt 0x01 stOk ((replayEnded p s).part p).replays.toNat (replayEnded p s)
      rw [hl, hq]
      rfl
    · obtain ⟨l, hl⟩ := notify_part p.isLt 0x01 stOk ((replayEnded p s).part p).replays.toNat (replayEnded p s)
      rw [hl, hq]
      rfl
    · have := noticed_notify p.isLt 0x01 stOk ((replayEnded p s).part p).replays.toNat (replayEnded p s)
      rwa [hq] at this ⊢
    · intro c h
      rw [State.cell, hn .cells (by decide)]
      exact hc c h

end Sys2Proof.Proofs
end

section
/-! SUPPORT. What a port does with a frame before its type counts (10 R281, R284, R286, R289). -/

set_option Elab.async false

namespace Sys2Proof.Machine

open Claims

/-! ### The row of a frame -/

/-- What a row does with what the port has received. -/
def taken (k : VrtFrame → State → State) : Option VrtFrame × State → State
  | (some g, s) => k g s
  | (none, s) => s

/-- A row for the frames of which `mine` holds. -/
def frameRow (mine : Bool) (port : Nat) (f : VrtFrame) (k : VrtFrame → State → State) (s : State) : State :=
  if frameOk f = true ∧ mine = false then s else taken k (receive port f s)

theorem onFrame_eq (port type : Nat) (f : VrtFrame) (k : VrtFrame → State → State) (s : State) :
    onFrame port type f k s = frameRow (decide (f.type.toNat = type)) port f k s := by
  unfold onFrame frameRow
  simp only [decide_eq_false_iff_not]
  rfl

theorem guard_iff {p : Prop} [Decidable p] {b : Bool} : (b && decide p) = false ↔ ¬p ∨ b = false :=
  (Bool.and_eq_false_iff.trans (or_congr_right decide_eq_false_iff_not)).trans or_comm

theorem guard_and_iff {p q : Prop} [Decidable p] [Decidable q] :
    (decide p && decide q) = false ↔ (p ∧ ¬q) ∨ decide p = false := by
  by_cases h : p
  · rw [decide_eq_true h, Bool.true_and, decide_eq_false_iff_not, and_iff_right h, or_iff_left (by decide)]
  · rw [decide_eq_false h, Bool.false_and]
    exact iff_of_true rfl (.inr rfl)

/-- A further condition on the frame before its row. -/
theorem frameRow_guarded {c : Prop} [Decidable c] {mine mine' : Bool} {port : Nat} {f : VrtFrame}
    {k : VrtFrame → State → State} {s : State} (h : mine' = false ↔ c ∨ mine = false) :
    (if frameOk f = true ∧ c then s else frameRow mine port f k s) = frameRow mine' port f k s := by
  unfold frameRow
  rw [if_congr (and_congr_right' h) rfl rfl]
  by_cases hc : frameOk f = true ∧ c
  · rw [if_pos hc, if_pos ⟨hc.1, .inl hc.2⟩]
  · rw [if_neg hc]
    exact if_congr ⟨fun x => ⟨x.1, .inr x.2⟩, fun x => ⟨x.1, x.2.resolve_left fun y => hc ⟨x.1, y⟩⟩⟩ rfl rfl

theorem type_iff (f : VrtFrame) (n : Nat) (hn : n < 16) : f.type.toNat = n ↔ f.type = BitVec.ofNat 4 n :=
  ⟨fun h => BitVec.eq_of_toNat_eq (by rw [BitVec.toNat_ofNat, h, Nat.mod_eq_of_lt hn]),
    fun h => by rw [h, BitVec.toNat_ofNat, Nat.mod_eq_of_lt hn]⟩

theorem onFrame_row (port type : Nat) (ht : type < 16) (f : VrtFrame) (k : VrtFrame → State → State) (s : State) :
    onFrame port type f k s = frameRow (decide (f.type = BitVec.ofNat 4 type)) port f k s := by
  rw [onFrame_eq]
  congr 1
  exact decide_eq_decide.2 (type_iff f type ht)

/-- What a control frame does once it is received. -/
def controlTaken (port : RingPort) (g : VrtFrame) (s : State) : State :=
  consume (portNum port) g (orEarly (portNum port) g (controlFrame g.dstPart.toNat g)) s

theorem onControl_row (port : RingPort) (kind : Nat) (f : VrtFrame) (s : State) : onControl port kind f s = frameRow
    (decide (f.type = 5) && decide ((frameBody f).head? = some (BitVec.ofNat 8 kind))) (portNum port) f (controlTaken port) s := by
  unfold onControl
  rw [onFrame_row _ 5 (by decide)]
  exact frameRow_guarded guard_and_iff

theorem onProbe_row (port : Nat) (f : VrtFrame) (k : State → State) (s : State) :
    onProbe port f k s = frameRow (decide (f.type = 6) && hopLocal f) port f (fun _ => k) s := by
  unfold onProbe
  rw [onFrame_row _ 6 (by decide)]
  exact frameRow_guarded (Bool.and_eq_false_iff.trans or_comm)

theorem onCup_row (port kind : Nat) (f : VrtFrame) (k : Nat → List Byte → State → State) (s : State) :
    onCup port kind f k s = frameRow (decide (f.type = 6) &&
      decide ((frameBody f).head? = some 0x10 ∧ (frameBody f)[1]? = some (BitVec.ofNat 8 kind))) port f
      (fun g s => if cupPeer (s.part g.dstPart.toNat).det.cup = (g.srcRing, g.srcPart.toNat) then
        k g.dstPart.toNat g.payload s else s) s := by
  unfold onCup
  rw [onFrame_row _ 6 (by decide)]
  exact frameRow_guarded guard_iff

/-- A row takes what the port has received, if the frame is sound and of the row's kind. -/
def IsRow (port : RingPort) (f : VrtFrame) (s : State) (w : Instr × Bool) : Prop :=
  ∃ k, exec w.1 s = .next (frameRow w.2 (portNum port) f k s)

theorem IsRow.intro {port : RingPort} {f : VrtFrame} {s u : State} {w : Instr × Bool} {k : VrtFrame → State → State}
    (he : exec w.1 s = .next u) (h : u = frameRow w.2 (portNum port) f k s) : IsRow port f s w := ⟨k, he.trans (next_congr h)⟩

theorem exec_frameRow {port : RingPort} {f : VrtFrame} (s : State) : ∀ w ∈ frameRows port f, IsRow port f s w :=
  List.forall_mem_cons.2 ⟨.intro rfl (onFrame_row _ 0 (by decide) f _ s),
  List.forall_mem_cons.2 ⟨.intro rfl (onFrame_row _ 1 (by decide) f _ s),
  List.forall_mem_cons.2 ⟨.intro rfl (onFrame_row _ 2 (by decide) f _ s),
  List.forall_mem_cons.2 ⟨.intro rfl (onFrame_row _ 3 (by decide) f _ s),
  List.forall_mem_cons.2 ⟨.intro rfl (onFrame_row _ 4 (by decide) f _ s),
  List.forall_mem_cons.2 ⟨.intro rfl (onControl_row port 1 f s),
  List.forall_mem_cons.2 ⟨.intro rfl (onControl_row port 2 f s),
  List.forall_mem_cons.2 ⟨.intro rfl (onControl_row port 3 f s),
  List.forall_mem_cons.2 ⟨.intro rfl (onControl_row port 4 f s),
  List.forall_mem_cons.2 ⟨.intro rfl (onProbe_row _ f _ s),
  List.forall_mem_cons.2 ⟨.intro rfl (onProbe_row _ f _ s),
  List.forall_mem_cons.2 ⟨.intro rfl (onProbe_row _ f _ s),
  List.forall_mem_cons.2 ⟨.intro rfl (onCup_row _ 1 f _ s),
  List.forall_mem_cons.2 ⟨.intro rfl (onCup_row _ 2 f _ s),
  List.forall_mem_cons.2 ⟨.intro rfl (onFrame_row _ 7 (by decide) f _ s),
  List.forall_mem_cons.2 ⟨.intro rfl (onFrame_row _ 8 (by decide) f _ s),
  List.forall_mem_cons.2 ⟨.intro rfl (onFrame_row _ 9 (by decide) f _ s), List.forall_mem_nil _⟩⟩⟩⟩⟩⟩⟩⟩⟩⟩⟩⟩⟩⟩⟩⟩⟩

/-! ### Frames that leave -/

/-- What a port reads to carry a frame. -/
def Port.carry (q : Port) : BitVec 8 × PortCfg × ClassCfg := (q.st, q.cfg, q.classes)

/-- Two states whose ports carry frames alike. -/
def CarryAlike (s t : State) : Prop := t.fuse = s.fuse ∧ ∀ n, (t.port n).carry = (s.port n).carry

theorem CarryAlike.refl (s : State) : CarryAlike s s := ⟨rfl, fun _ => rfl⟩

theorem CarryAlike.up {s t : State} (h : CarryAlike s t) (n : Nat) : (t.port n).up = (s.port n).up :=
  congrArg (fun k : BitVec 8 × PortCfg × ClassCfg => decide (k.1 = 2) || decide (k.1 = 3)) (h.2 n)

/-- The carrier of a frame by the MAC address of the port and what the port reads. -/
def carrierBy (mac : BitVec 48) (k : BitVec 8 × PortCfg × ClassCfg) (f : VrtFrame) : Carrier :=
  if k.2.1.attach = 0 then
    { dst := 0xFFFFFFFFFFFF, src := mac, prio := none, ethType := k.2.1.etherType, ip := none, pad := 14 - f.payload.length }
  else
    let v6 := decide (k.2.1.attach = 1)
    let u : UdpIp := { v6 := v6, src := k.2.1.localIp, dst := k.2.1.peerIp, df := !v6, sport := k.2.1.udpPort,
                       dport := k.2.1.udpPort, csum := 0 }
    { dst := k.2.1.peerMac, src := mac,
      prio := some (BitVec.ofNat 3 (fld k.2.2.prio (3 * f.cls.toNat + 2) (3 * f.cls.toNat))),
      ethType := if v6 then 0x86DD else 0x0800, ip := some { u with csum := if v6 then udpChecksum u f else 0 }, pad := 0 }

theorem carrierOf_eq (s : State) (n : Nat) (f : VrtFrame) :
    carrierOf s n f = carrierBy (vget s.fuse.macRing n 0) (s.port n).carry f := rfl

theorem CarryAlike.carrier {s t : State} (h : CarryAlike s t) (n : Nat) (f : VrtFrame) : carrierOf t n f = carrierOf s n f := by
  rw [carrierOf_eq, carrierOf_eq, h.1, h.2 n]

/-- A port changed in other entries carries frames as before. -/
theorem CarryAlike.onPort {s t : State} (h : CarryAlike s t) (n : Nat) {g : Port → Port} (hg : ∀ q, (g q).carry = q.carry) :
    CarryAlike s (t.onPort n g) := by
  refine ⟨h.1, fun m => ?_⟩
  rw [State.port_onPort]
  split
  · rename_i hm
    rw [hm.1, hg, h.2]
  · exact h.2 m

/-- Frames that leave change no carriage. -/
theorem CarryAlike.out {s t u : State} (h : CarryAlike s t) (hu : Only [.out] t u) : CarryAlike s u :=
  ⟨(hu .fuse (by decide)).trans h.1, fun n =>
    (congrArg (fun v : Vector Port 2 => (vget v n Port.reset).carry) (hu .ports (by decide))).trans (h.2 n)⟩

/-- Nothing has left yet. -/
theorem left_nil {s t : State} (h : t.out = s.out) : Left [] s t := by
  rw [Left, h, List.map_nil, List.append_nil]

/-- A frame put on the fibre of a port that is up leaves after the others. -/
theorem left_emitRaw {l : List (Nat × VrtFrame)} {s t : State} (h : Left l s t) (ha : CarryAlike s t) {n : Nat}
    (hup : (s.port n).up = true) (f : VrtFrame) : Left (l ++ [(n, f)]) s (emitRaw n f t) := by
  rw [emitRaw_of_up (by rw [ha.up]; exact hup)]
  unfold Left at h ⊢
  rw [h, ha.carrier]
  rw [List.map_append, List.append_assoc]
  rfl

theorem left_one {s u : State} {n : Nat} (hout : u.out = s.out) (ha : CarryAlike s u) (hup : (s.port n).up = true) (f : VrtFrame) :
    Left [(n, f)] s (emitRaw n f u) := left_emitRaw (l := []) (left_nil hout) ha hup f

theorem emitRaw_of_down {n : Nat} {f : VrtFrame} {s : State} (h : (s.port n).up = false) : emitRaw n f s = s :=
  if_neg (by rw [h]; decide)

theorem emitRaw_frame (n : Nat) (f : VrtFrame) (s : State) : Only [.out] s (emitRaw n f s) :=
  (emitRaw_keeps n f (by decide) (.refl _ s)).1

theorem emitRaw_port (n m : Nat) (f : VrtFrame) (s : State) : (emitRaw n f s).port m = s.port m := by
  rw [State.port, emitRaw_frame n f s .ports (by decide)]
  rfl

theorem emitRaw_alike {s t : State} (h : CarryAlike s t) (n : Nat) (f : VrtFrame) : CarryAlike s (emitRaw n f t) :=
  h.out (emitRaw_frame n f t)

/-- A LACK of a port that is up, from a state that knows its ring and the port's sequence as `s` does. -/
theorem left_sendLack {l : List (Nat × VrtFrame)} {s t : State} (h : Left l s t) (ha : CarryAlike s t) {n : Nat}
    (hup : (s.port n).up = true) (hnv : t.nv = s.nv) (hq : (t.port n).hseqRx = (s.port n).hseqRx) (again : Bool) :
    Left (l ++ [lackFrame s n again]) s (sendLack n again t) := by
  have hf : newFrame t 2 0 (neighbour t n) 0 0 (leBytes 4 ((t.port n).hseqRx - 1).toNat ++ [if again then 1 else 0]) =
      newFrame s 2 0 (neighbour s n) 0 0 (leBytes 4 ((s.port n).hseqRx - 1).toNat ++ [if again then 1 else 0]) := by
    rw [newFrame, neighbour, hnv, hq]
    rfl
  unfold sendLack
  dsimp only
  rw [hf]
  exact left_emitRaw h ha hup _

theorem sendLack_frame (n : Nat) (again : Bool) (s : State) : Only [.out] s (sendLack n again s) :=
  (sendLack_keeps n again (by decide) (.refl _ s)).1

theorem portNum_lt (port : RingPort) : portNum port < 2 := by cases port <;> decide

/-- One port changed and nothing else. -/
theorem portOnly_onPort (n : Nat) (g : Port → Port) (s : State) : PortOnly n s (s.onPort n g) :=
  ⟨State.onPort_frame _ _ _, fun _ hm => State.port_onPort_ne _ _ _ _ hm⟩

/-! ### What a port receives -/

/-- The frame cut to its payload. -/
def bodied (f : VrtFrame) : VrtFrame := { f with payload := frameBody f }

/-- A class 0 frame once its buffers are looked at: for this device, round the ring, or on to the next. -/
def placed0 (n : Nat) (f : VrtFrame) (r : Bool × State) : Option VrtFrame × State :=
  if r.1 = false then (none, r.2)
  else if f.dstRing = r.2.nv.ringId ∨ hopLocal (bodied f) = true then (some (bodied f), r.2)
  else if f.srcRing = r.2.nv.ringId ∨ f.hopsLeft = 0 then (none, headerDrop n r.2)
  else (none, sendClass0 (1 - n) { bodied f with hopsLeft := f.hopsLeft - 1 } r.2)

section
variable {n : Nat} {f : VrtFrame} {s : State}

theorem receive_of_quiet (h : (s.port n).up = false ∨ carried (s.port n) f = false) : receive n f s = (none, s) := if_pos h

theorem receive_of_bad (hu : (s.port n).up = true) (hc : carried (s.port n) f = true) (hf : frameOk f = false) :
    receive n f s = (none, if ((cutThrough n f (headerDrop n s)).port n).short then
      sendLack n true (cutThrough n f (headerDrop n s)) else cutThrough n f (headerDrop n s)) := by
  unfold receive
  rw [if_neg (by rw [hu, hc]; decide), if_pos hf]

/-- A sound frame of class 0. -/
theorem receive_of_class0 (hu : (s.port n).up = true) (hc : carried (s.port n) f = true) (hf : frameOk f = true)
    (h0 : f.cls = 0) : receive n f s = placed0 n f (class0Receive n (bodied f) s) := by
  unfold receive
  rw [if_neg (by rw [hu, hc]; decide), if_neg (by rw [hf]; decide)]
  simp only [if_pos h0, sendFrame]
  rfl

theorem class0Receive_of_room {g : VrtFrame} (h : class0Room (s.port n) g = true) :
    class0Receive n g s = (true, s.onPort n fun p => { p with c0held := p.c0held + class0Size g }) := if_pos h

theorem class0Receive_of_full {g : VrtFrame} (h : class0Room (s.port n) g = false) :
    class0Receive n g s = (false, s.onPort n fun p => { p with c0drops := satInc p.c0drops }) :=
  if_neg (by rw [h]; decide)

/-- A class 0 frame in its buffers. -/
def held0 (n : Nat) (f : VrtFrame) (s : State) : State := s.onPort n fun p => tookClass0 p f

theorem held0_eq (n : Nat) (f : VrtFrame) (s : State) :
    s.onPort n (fun p => { p with c0held := p.c0held + class0Size (bodied f) }) = held0 n f s := by
  unfold held0
  congr 1
  funext p
  rw [class0Size, ← Nat.add_assoc]
  rfl

theorem receive_of_room (hu : (s.port n).up = true) (hc : carried (s.port n) f = true) (hf : frameOk f = true)
    (h0 : f.cls = 0) (hr : class0Room (s.port n) (bodied f) = true) : receive n f s =
      if f.dstRing = s.nv.ringId ∨ hopLocal (bodied f) = true then (some (bodied f), held0 n f s)
      else if f.srcRing = s.nv.ringId ∨ f.hopsLeft = 0 then (none, headerDrop n (held0 n f s))
      else (none, sendClass0 (1 - n) { bodied f with hopsLeft := f.hopsLeft - 1 } (held0 n f s)) := by
  rw [receive_of_class0 hu hc hf h0, class0Receive_of_room hr, held0_eq]
  rfl

theorem receive_of_full (hu : (s.port n).up = true) (hc : carried (s.port n) f = true) (hf : frameOk f = true)
    (h0 : f.cls = 0) (hr : class0Room (s.port n) (bodied f) = false) :
    receive n f s = (none, s.onPort n fun p => { p with c0drops := satInc p.c0drops }) := by
  rw [receive_of_class0 hu hc hf h0, class0Receive_of_full hr]
  rfl

theorem hopLocal_bodied (f : VrtFrame) : hopLocal (bodied f) = hopLocal f := by
  have hb : frameBody (bodied f) = frameBody f := by
    unfold bodied frameBody
    rw [List.take_take, min_self]
  rw [hopLocal, hopLocal, hb]
  rfl

end

/-- A frame dropped for its header is counted. -/
def headerDropped (q : Port) : Port := { q with hdrDrops := satInc q.hdrDrops }

theorem headerDrop_port {n : Nat} (hn : n < 2) (s : State) : (headerDrop n s).port n = headerDropped (s.port n) :=
  State.port_onPort_self _ _ _ hn

theorem headerDrop_alike (n : Nat) (s : State) : CarryAlike s (headerDrop n s) := (CarryAlike.refl s).onPort n fun _ => rfl

/-- The damaged frame that a cut-through leaves behind. -/
def damagedFrame (f : VrtFrame) : VrtFrame := { sealFrame { bodied f with hopsLeft := f.hopsLeft - 1 } with fcsOk := false }

/-! ### A frame that fails a check -/

section
variable {port : RingPort} {f : VrtFrame} {s : State}

theorem attach_pair : (s.port (portNum port)).cfg.attach = 0 ∧ (s.port (1 - portNum port)).cfg.attach = 0 ↔
    (s.port 0).cfg.attach = 0 ∧ (s.port 1).cfg.attach = 0 := by
  cases port
  · exact Iff.rfl
  · exact and_comm

theorem headerDrop_attach (n m : Nat) : ((headerDrop n s).port m).cfg.attach = (s.port m).cfg.attach :=
  congrArg (fun k : BitVec 8 × PortCfg × ClassCfg => k.2.1.attach) ((headerDrop_alike n s).2 m)

/-- A frame is cut through where the model cuts it through and the port it leaves by is up. -/
theorem cutThrough_iff : CutThrough port f s ↔
    (f.fcsOk = false ∧ frameOk { f with fcsOk := true } = true ∧ f.cls = 0 ∧ hopLocal f = false ∧ f.dstRing ≠ s.nv.ringId ∧
      f.srcRing ≠ s.nv.ringId ∧ f.hopsLeft ≠ 0 ∧ ((headerDrop (portNum port) s).port (portNum port)).cfg.attach = 0 ∧
      ((headerDrop (portNum port) s).port (1 - portNum port)).cfg.attach = 0) ∧ (s.port (1 - portNum port)).up = true := by
  rw [headerDrop_attach, headerDrop_attach, attach_pair, CutThrough]
  simp only [and_assoc]

theorem cutThrough_of_cut (h : CutThrough port f s) : cutThrough (portNum port) f (headerDrop (portNum port) s) =
    emitRaw (1 - portNum port) (damagedFrame f) (headerDrop (portNum port) s) := if_pos (cutThrough_iff.1 h).1

theorem cutThrough_of_not (h : ¬ CutThrough port f s) : cutThrough (portNum port) f (headerDrop (portNum port) s) =
    headerDrop (portNum port) s := by
  unfold cutThrough
  split
  · next hc =>
    exact emitRaw_of_down (((headerDrop_alike _ s).up _).trans (Bool.eq_false_iff.2 fun hup => h (cutThrough_iff.2 ⟨hc, hup⟩)))
  · rfl

/-- What a frame that fails a check leaves. -/
def checkFailed (n : Nat) (f : VrtFrame) (s : State) : State :=
  if ((cutThrough n f (headerDrop n s)).port n).short then sendLack n true (cutThrough n f (headerDrop n s))
  else cutThrough n f (headerDrop n s)

theorem cutThrough_frame (n : Nat) : Only [.out] s (cutThrough n f s) := (cutThrough_keeps n f (by decide) (.refl _ s)).1

theorem checkFailed_out (n : Nat) : Only [.out] (headerDrop n s) (checkFailed n f s) := by
  unfold checkFailed
  split
  · exact (cutThrough_frame n).trans (sendLack_frame _ _ _)
  · exact cutThrough_frame n

theorem port_of_out {t u : State} (h : Only [.out] t u) (n : Nat) : u.port n = t.port n :=
  congrArg (vget · n Port.reset) (h .ports (by decide))

theorem checkFailed_frame (n : Nat) : Only [.ports, .out] s (checkFailed n f s) :=
  ((State.onPort_frame _ _ _).mono (by decide)).trans ((checkFailed_out n).mono (by decide))

theorem checkFailed_port : (checkFailed (portNum port) f s).port (portNum port) = headerDropped (s.port (portNum port)) :=
  (port_of_out (checkFailed_out _) _).trans (headerDrop_port (portNum_lt port) s)

theorem checkFailed_port_ne {n : Nat} (m : Nat) (h : m ≠ n) : (checkFailed n f s).port m = s.port m :=
  (port_of_out (checkFailed_out _) _).trans (State.port_onPort_ne _ _ _ _ h)

theorem cutThrough_port : (cutThrough (portNum port) f (headerDrop (portNum port) s)).port (portNum port) =
    headerDropped (s.port (portNum port)) := (port_of_out (cutThrough_frame _) _).trans (headerDrop_port (portNum_lt port) s)

/-- A LACK that asks for a replay follows on a short hop. -/
theorem left_checkFailed {l : List (Nat × VrtFrame)} (hup : (s.port (portNum port)).up = true)
    (h : Left l s (cutThrough (portNum port) f (headerDrop (portNum port) s))) :
    Left (l ++ if (s.port (portNum port)).short then [lackFrame s (portNum port) true] else []) s
      (checkFailed (portNum port) f s) := by
  unfold checkFailed
  rw [cutThrough_port, show (headerDropped (s.port (portNum port))).short = (s.port (portNum port)).short from rfl]
  split
  · exact left_sendLack h ((headerDrop_alike _ s).out (cutThrough_frame _)) hup ((cutThrough_frame _) .nv (by decide))
      (congrArg Port.hseqRx cutThrough_port :) true
  · rwa [List.append_nil]

theorem left_checkFailed_cut (hup : (s.port (portNum port)).up = true) (h : CutThrough port f s) :
    Left ((1 - portNum port, damagedFrame f) ::
      if (s.port (portNum port)).short then [lackFrame s (portNum port) true] else []) s (checkFailed (portNum port) f s) :=
  left_checkFailed (l := [(1 - portNum port, damagedFrame f)]) hup (by
    rw [cutThrough_of_cut h]
    exact left_one (s := s) (u := headerDrop (portNum port) s) rfl (headerDrop_alike _ s) (cutThrough_iff.1 h).2 (damagedFrame f))

theorem left_checkFailed_not (hup : (s.port (portNum port)).up = true) (h : ¬ CutThrough port f s) :
    Left (if (s.port (portNum port)).short then [lackFrame s (portNum port) true] else []) s (checkFailed (portNum port) f s) :=
  left_checkFailed (l := []) hup (by
    rw [cutThrough_of_not h]
    exact left_nil rfl)

end

/-! ### A frame for another device -/

section
variable {port : RingPort} {f : VrtFrame} {s : State}

theorem held0_alike {n : Nat} : CarryAlike s (held0 n f s) := (CarryAlike.refl s).onPort n fun _ => rfl

/-- A class 0 frame that has come round or has no hop left. -/
theorem headerDrop_held0_only (n : Nat) : PortOnly n s (headerDrop n (held0 n f s)) :=
  ⟨(State.onPort_frame _ _ _).trans (State.onPort_frame _ _ _),
    fun _ hm => (State.port_onPort_ne _ _ _ _ hm).trans (State.port_onPort_ne _ _ _ _ hm)⟩

theorem headerDrop_held0_port : (headerDrop (portNum port) (held0 (portNum port) f s)).port (portNum port) =
    headerDropped (tookClass0 (s.port (portNum port)) f) :=
  (headerDrop_port (portNum_lt port) _).trans (congrArg headerDropped (State.port_onPort_self _ _ _ (portNum_lt port)))

/-- What a class 0 frame sent on leaves. -/
def sentOn (n : Nat) (f : VrtFrame) (s : State) : State :=
  emitRaw (1 - n) (sealFrame { bodied f with hopsLeft := f.hopsLeft - 1 }) (held0 n f s)

theorem sentOn_frame (n : Nat) : Only [.ports, .out] s (sentOn n f s) :=
  ((State.onPort_frame _ _ _).mono (by decide)).trans ((emitRaw_frame _ _ _).mono (by decide))

theorem sentOn_port : (sentOn (portNum port) f s).port (portNum port) = tookClass0 (s.port (portNum port)) f :=
  (emitRaw_port _ _ _ _).trans (State.port_onPort_self _ _ _ (portNum_lt port))

theorem sentOn_port_ne {n : Nat} (m : Nat) (h : m ≠ n) : (sentOn n f s).port m = s.port m :=
  (emitRaw_port _ _ _ _).trans (State.port_onPort_ne _ _ _ _ h)

theorem left_sentOn (n : Nat) : Left (if (s.port (1 - n)).up = true
    then [(1 - n, sealFrame { bodied f with hopsLeft := f.hopsLeft - 1 })] else []) s (sentOn n f s) := by
  split
  · next hup => exact left_one (s := s) (u := held0 n f s) rfl held0_alike hup _
  · next hup =>
    rw [sentOn, emitRaw_of_down ((held0_alike.up _).trans (Bool.eq_false_iff.2 hup))]
    exact left_nil rfl

end

/-! ### The rows -/

section
variable {port : RingPort} {f : VrtFrame} {s : State} {w : Instr × Bool} (hw : IsRow port f s w)
include hw

theorem IsRow.quiet (h : (s.port (portNum port)).up = false ∨ carried (s.port (portNum port)) f = false) :
    exec w.1 s = .next s := by
  obtain ⟨k, hk⟩ := hw
  refine hk.trans (next_congr ?_)
  rw [frameRow, receive_of_quiet h]
  exact ite_id _

theorem IsRow.other (hf : frameOk f = true) (hm : w.2 = false) : exec w.1 s = .next s :=
  hw.elim fun _ hk => hk.trans (next_congr (if_pos ⟨hf, hm⟩))

/-- A row of its kind drops what the port drops. -/
theorem IsRow.dropped {t : State} (hm : frameOk f = true → w.2 = true) (hr : receive (portNum port) f s = (none, t)) :
    exec w.1 s = .next t := by
  obtain ⟨k, hk⟩ := hw
  refine hk.trans (next_congr ((if_neg fun x => ?_).trans (congrArg (taken k) hr)))
  exact absurd ((hm x.1).symm.trans x.2) (by decide)

theorem IsRow.failed (hu : (s.port (portNum port)).up = true) (hc : carried (s.port (portNum port)) f = true)
    (hf : frameOk f = false) : exec w.1 s = .next (checkFailed (portNum port) f s) :=
  hw.dropped (fun h => absurd (h.symm.trans hf) (by decide)) (receive_of_bad hu hc hf)

section
variable (ha : Arrives port f s) (hm : w.2 = true) (h0 : f.cls = 0)
include ha hm h0

theorem IsRow.full (hr : class0Room (s.port (portNum port)) (bodied f) = false) :
    exec w.1 s = .next (s.onPort (portNum port) fun p => { p with c0drops := satInc p.c0drops }) :=
  hw.dropped (fun _ => hm) (receive_of_full ha.1 ha.2.1 ha.2.2 h0 hr)

variable (hr : class0Room (s.port (portNum port)) (bodied f) = true) (hl : hopLocal f = false) (hd : f.dstRing ≠ s.nv.ringId)
include hr hl hd

omit hw hm in
theorem receive_of_other : receive (portNum port) f s =
    if f.srcRing = s.nv.ringId ∨ f.hopsLeft = 0 then (none, headerDrop (portNum port) (held0 (portNum port) f s))
    else (none, sentOn (portNum port) f s) :=
  (receive_of_room ha.1 ha.2.1 ha.2.2 h0 hr).trans
    (if_neg (not_or.2 ⟨hd, fun x => absurd ((hopLocal_bodied f).symm.trans x |>.symm.trans hl) (by decide)⟩))

theorem IsRow.ended (hs : f.srcRing = s.nv.ringId ∨ f.hopsLeft = 0) :
    exec w.1 s = .next (headerDrop (portNum port) (held0 (portNum port) f s)) :=
  hw.dropped (fun _ => hm) ((receive_of_other ha h0 hr hl hd).trans (if_pos hs))

theorem IsRow.forwarded (hs : f.srcRing ≠ s.nv.ringId) (hh : f.hopsLeft ≠ 0) :
    exec w.1 s = .next (sentOn (portNum port) f s) :=
  hw.dropped (fun _ => hm) ((receive_of_other ha h0 hr hl hd).trans (if_neg (not_or.2 ⟨hs, hh⟩)))

end

end

end Sys2Proof.Machine

namespace Sys2Proof.Proofs

open Machine Claims

/-- Settles O54: the row takes what the port receives, and `receive` gives its outcome for each kind of frame. -/
theorem framesDroppedOrForwarded : Obligations.FramesDroppedOrForwarded := by
  intro port f s w hw n q g
  refine ⟨(exec_frameRow s w hw).quiet, (exec_frameRow s w hw).other, ?_, ?_, ?_⟩
  · exact fun hu hc hf => ⟨checkFailed n f s, (exec_frameRow s w hw).failed hu hc hf, checkFailed_frame n, checkFailed_port,
      checkFailed_port_ne, left_checkFailed_cut hu, left_checkFailed_not hu⟩
  · exact fun ha hm h0 hr => ⟨s.onPort n fun p => { p with c0drops := satInc p.c0drops }, (exec_frameRow s w hw).full ha hm h0 hr,
      portOnly_onPort _ _ _, State.port_onPort_self _ _ _ (portNum_lt port)⟩
  · exact fun ha hm h0 hr hl hd =>
      ⟨fun hs => ⟨headerDrop n (held0 n f s), (exec_frameRow s w hw).ended ha hm h0 hr hl hd hs, headerDrop_held0_only n,
        headerDrop_held0_port⟩,
      fun hs hh => ⟨sentOn n f s, (exec_frameRow s w hw).forwarded ha hm h0 hr hl hd hs hh, sentOn_frame n, sentOn_port,
        sentOn_port_ne, left_sentOn n⟩⟩

end Sys2Proof.Proofs
end

section
/-! SUPPORT. The frames of a hop and its timers (10 R287, R288, R293, R294). -/

set_option Elab.async false

namespace Sys2Proof.Machine

open Claims

/-! ### Frames that a port takes -/

section
variable {port : RingPort} {n : Nat} {f g : VrtFrame} {s u : State}

theorem onFrame_taken {type : Nat} {k : VrtFrame → State → State} (ht : f.type.toNat = type)
    (hr : receive n f s = (some g, u)) : onFrame n type f k s = k g u := by
  unfold onFrame
  rw [if_neg fun x => x.2 ht, hr]

theorem onProbe_taken {k : State → State} (ht : f.type = 6) (hl : hopLocal f = true) (hr : receive n f s = (some g, u)) :
    onProbe n f k s = k u := by
  unfold onProbe
  rw [if_neg fun x => by rw [hl] at x; exact absurd x.2 (by decide), onFrame_taken (by rw [ht]; rfl) hr]

theorem cls_ofTheHop (hl : hopLocal f = true) (hc : classOk f = true) : f.cls = 0 := by
  have ht : f.type = 1 ∨ f.type = 2 ∨ f.type = 6 := by
    rcases Bool.or_eq_true_iff.1 hl with h | h
    · exact (Bool.or_eq_true_iff.1 h).imp of_decide_eq_true fun h => .inl (of_decide_eq_true h)
    · exact .inr (.inr (of_decide_eq_true (Bool.and_eq_true_iff.1 h).1))
  unfold classOk at hc
  rcases ht with h | h | h <;> rw [h] at hc <;> exact of_decide_eq_true hc

theorem classOk_of_frameOk (h : frameOk f = true) : classOk f = true := by
  have and_left : ∀ {a b : Bool}, (a && b) = true → a = true := fun h => (Bool.and_eq_true_iff.1 h).1
  exact (Bool.and_eq_true_iff.1 (and_left (and_left (and_left (and_left (and_left h)))))).2

/-- A frame of the hop comes into the class 0 buffers. -/
theorem receive_ofTheHop (h : OfTheHop port f s) : receive (portNum port) f s = (some (bodied f), held0 (portNum port) f s) :=
  (receive_of_room h.1.1 h.1.2.1 h.1.2.2 (cls_ofTheHop h.2.1 (classOk_of_frameOk h.1.2.2)) h.2.2).trans
    (if_pos (.inr ((hopLocal_bodied f).trans h.2.1)))

/-- A class 0 frame for this device comes into the class 0 buffers. -/
theorem receive_takenClass0 (h : TakenClass0 port f s) :
    receive (portNum port) f s = (some (bodied f), held0 (portNum port) f s) := by
  obtain ⟨⟨⟨hu, hc, hf⟩, hd⟩, h0, hr⟩ := h
  rw [receive_of_room hu hc hf h0 hr, if_pos (.inl hd)]

theorem held0_port (hn : n < 2) : (held0 n f s).port n = tookClass0 (s.port n) f := State.port_onPort_self _ _ _ hn

theorem held0_only : PortOnly n s (held0 n f s) := portOnly_onPort n _ s

theorem portOnly_trans_onPort (h : PortOnly n s u) (k : Port → Port) : PortOnly n s (u.onPort n k) :=
  ⟨h.1.trans (State.onPort_frame _ _ _), fun m hm => (State.port_onPort_ne _ _ _ _ hm).trans (h.2 m hm)⟩

end

/-! ### A port with nothing to send -/

section
variable {n : Nat} {s : State}

theorem arbitrate_of_empty (h : (s.port n).txq = []) (c : Nat) : arbitrate s n c = none := by
  unfold arbitrate
  dsimp only
  rw [h]
  rfl

theorem findSome?_arbitrate_of_empty (h : (s.port n).txq = []) (l : List Nat) :
    l.findSome? (fun c => (arbitrate s n c).map fun a => (c, a)) = none :=
  List.findSome?_eq_none_iff.2 fun c _ => congrArg (Option.map _) (arbitrate_of_empty h c)

theorem replayNext_of_sent {q : Port} (h : q.replayBuf.length ≤ q.replayAt) : replayNext q = none := by
  unfold replayNext
  rw [List.getElem?_eq_none h]
  split <;> rfl

/-- A port with no frame waiting and its replay buffer sent has nothing to send. -/
theorem pump_of_idle (h : (s.port n).txq = []) (hs : (s.port n).replayBuf.length ≤ (s.port n).replayAt) (k : Nat) :
    pump k n s = s := by
  cases k with
  | zero => rfl
  | succ k =>
    unfold pump
    dsimp only
    rw [replayNext_of_sent hs, findSome?_arbitrate_of_empty h]
    split <;> rfl

theorem pumpPort_of_idle (h : (s.port n).txq = []) (hs : (s.port n).replayBuf.length ≤ (s.port n).replayAt) :
    pumpPort n s = s := pump_of_idle h hs _

/-! ### Frames sent again -/

theorem forEach_emit_port (fs : List VrtFrame) (t : State) (m : Nat) :
    (forEach fs (fun f s => emit n f s) t).port m = t.port m :=
  forEach_induction (P := fun u => u.port m = t.port m) (fun _ u h => (emitRaw_port n m _ u).trans h) rfl fs

theorem forEach_emit_frame (fs : List VrtFrame) (t : State) : Only [.out] t (forEach fs (fun f s => emit n f s) t) :=
  forEach_induction (P := fun u => Only [.out] t u) (fun _ u h => h.trans (emitRaw_frame n _ u)) (Only.refl _ t) fs

theorem left_forEach_emit {l : List (Nat × VrtFrame)} {t : State} (hup : (s.port n).up = true) (fs : List VrtFrame)
    (h : Left l s t) (ha : CarryAlike s t) :
    Left (l ++ fs.map fun f => (n, sealFrame f)) s (forEach fs (fun f s => emit n f s) t) := by
  induction fs generalizing l t with
  | nil => rwa [List.map_nil, List.append_nil]
  | cons f fs ih =>
    have hl := ih (left_emitRaw h ha hup (sealFrame f)) (emitRaw_alike ha n _)
    rwa [List.append_assoc] at hl

/-- The frames sent since the port came up. -/
def Port.unconfirmed (q : Port) : List VrtFrame := q.replayBuf.take q.replayAt

theorem replayAll_of_nil (h : (s.port n).unconfirmed = []) : replayAll n s = s := if_pos h

theorem replayAll_of_ne (h : (s.port n).unconfirmed ≠ []) : replayAll n s = forEach (s.port n).unconfirmed
    (fun f s => emit n f s) (s.onPort n fun q => { q with replays := satInc q.replays }) := if_neg h

theorem replayAll_only (n : Nat) (s : State) : Only [.ports, .out] s (replayAll n s) := by
  by_cases h : (s.port n).unconfirmed = []
  · rw [replayAll_of_nil h]
    exact Only.refl _ s
  · rw [replayAll_of_ne h]
    exact ((State.onPort_frame _ _ _).mono (by decide)).trans ((forEach_emit_frame _ _).mono (by decide))

/-- The frames sent since the port came up are counted once when they are sent again. -/
theorem replayAll_port (hn : n < 2) : (replayAll n s).port n = { s.port n with
    replays := if (s.port n).unconfirmed = [] then (s.port n).replays else satInc (s.port n).replays } := by
  by_cases h : (s.port n).unconfirmed = []
  · rw [replayAll_of_nil h, if_pos h]
  · rw [replayAll_of_ne h, if_neg h]
    exact (forEach_emit_port _ _ n).trans (State.port_onPort_self _ _ _ hn)

theorem left_replayAll {t : State} (hup : (s.port n).up = true) (h : Left [] s t) (ha : CarryAlike s t) :
    Left ((t.port n).unconfirmed.map fun f => (n, sealFrame f)) s (replayAll n t) := by
  by_cases hl : (t.port n).unconfirmed = []
  · rw [replayAll_of_nil hl, hl]
    exact h
  · rw [replayAll_of_ne hl]
    exact left_forEach_emit (l := []) (t := t.onPort n fun q => { q with replays := satInc q.replays }) hup _ h
      (ha.onPort n fun _ => rfl)

end

/-! ### A link restart -/

theorem setPortState_port_self {n : Nat} (hn : n < 2) (v : BitVec 8) (s : State) :
    (setPortState n v s).port n = { s.port n with st := v } := by
  unfold setPortState
  split
  case isTrue h => rw [← h]
  case isFalse => exact (notify_port _ _ _ _ _ _).trans (State.port_onPort_self _ _ _ hn)

/-- What a retired lane leaves unchanged of the settings in the NV die. -/
theorem retireLanes_nv (n : Nat) (s : State) : (retireLanes n s).nv.ports = s.nv.ports ∧
    (retireLanes n s).nv.classes = s.nv.classes ∧ (retireLanes n s).nv.events = s.nv.events :=
  forEach_induction (P := fun u => u.nv.ports = s.nv.ports ∧ u.nv.classes = s.nv.classes ∧ u.nv.events = s.nv.events)
    (fun _ u h => by rw [State.onUnit_nv]; exact h) ⟨rfl, rfl, rfl⟩ _

/-- A port that restarts, with the settings it trains by. -/
def Port.restarted (c : PortCfg) (k : ClassCfg) (q : Port) : Port :=
  { q with st := 1, restarts := satInc q.restarts, cfg := c, classes := k, probes := [] }

/-- A port that restarts: it trains, with the settings written since the last restart. -/
theorem restartPort_port_self {n : Nat} (hn : n < 2) (s : State) :
    (restartPort n s).port n = (s.port n).restarted (vget s.nv.ports n PortCfg.reset) s.nv.classes := by
  have hq : (retireLanes n s).port n = s.port n := congrArg (fun v => vget v n Port.reset) (retireLanes_nv_ports n s)
  have hp : (restartPort n s).port n = ((retireLanes n s).port n).restarted (vget (retireLanes n s).nv.ports n PortCfg.reset)
      (retireLanes n s).nv.classes :=
    (setPortState_port_self hn 1 _).trans
      (congrArg (fun p : Port => { p with st := 1 }) (State.port_onPort_self _ n _ hn))
  rw [hp, hq, (retireLanes_nv n s).1, (retireLanes_nv n s).2.1]

/-! ### The frames and timers of a hop -/

theorem fourFlags : ∀ b₀ b₁ b₂ b₃ : Bool, ∀ c : Fin 4,
    flag (BitVec.ofNat 4 (sumN ([b₀, b₁, b₂, b₃].zipIdx.map fun b => if b.1 then 2 ^ b.2 else 0))) c =
      [b₀, b₁, b₂, b₃].get c := by
  decide

theorem flag_of_four (g : Nat → Bool) (c : Nat) (hc : c < 4) :
    flag (BitVec.ofNat 4 (sumN (((List.range 4).map g).zipIdx.map fun b => if b.1 then 2 ^ b.2 else 0))) c = g c :=
  (fourFlags (g 0) (g 1) (g 2) (g 3) ⟨c, hc⟩).trans
    ((List.getElem_map (l := List.range 4) g (h := hc)).trans (congrArg g (List.getElem_range _)))

/-- The grants of a CREDIT frame. -/
def grantsOf (b : List Byte) : Vector (BitVec 32) 3 := Vector.ofFn fun c => BitVec.ofNat 32 (leNat (slice b (4 * c.val) 4))

theorem grantsOf_toNat (b : List Byte) (c : Fin 3) : (grantsOf b)[c].toNat = leNat (slice b (4 * c.val) 4) := by
  have hlen : (slice b (4 * c.val) 4).length ≤ 4 := List.length_take_le _ _
  have hlt := (leNat_lt (slice b (4 * c.val) 4)).trans_le (Nat.pow_le_pow_right (by decide) hlen)
  simp only [grantsOf, Fin.getElem_fin, Vector.getElem_ofFn, BitVec.toNat_ofNat]
  exact Nat.mod_eq_of_lt hlt

/-- A port whose frames up to a sequence number are acknowledged. -/
def Port.lacked (h : BitVec 32) (q : Port) : Port :=
  let l := q.replayBuf.filter fun g => decide ((h - g.hseq).toNat ≥ 2 ^ 31)
  { q with replayBuf := l, replayAt := q.replayAt - (q.replayBuf.length - l.length), awaitLack := false }

/-- What a LACK leaves, before the frames that wait are sent. -/
def lackTaken (n : Nat) (b : List Byte) (u : State) : State :=
  let t := u.onPort n (Port.lacked (BitVec.ofNat 32 (leNat (b.take 4))))
  if b[4]? = some 1 then replayAll n t else t

section
variable {port : RingPort} {f : VrtFrame} {s : State}

/-- The state a CREDIT leaves at a port with nothing to send. -/
def creditTaken (n : Nat) (f : VrtFrame) (s : State) : State :=
  (held0 n f s).onPort n fun q => { q with credit := grantsOf (frameBody f) }

theorem creditTaken_port {n : Nat} (hn : n < 2) : (creditTaken n f s).port n =
    { tookClass0 (s.port n) f with credit := grantsOf (frameBody f) } :=
  (State.port_onPort_self _ _ _ hn).trans
    (congrArg (fun q : Port => { q with credit := grantsOf (frameBody f) }) (held0_port hn))

theorem creditTaken_credit {n : Nat} (hn : n < 2) : ((creditTaken n f s).port n).credit = grantsOf (frameBody f) :=
  congrArg Port.credit (creditTaken_port hn)

theorem exec_credit (htx : (s.port (portNum port)).txq = []) (h : OfTheHop port f s) (ht : f.type = 1)
    (hs : (s.port (portNum port)).replayAt = (s.port (portNum port)).replayBuf.length)
    (ha : (s.port (portNum port)).cfg.attach = 0) :
    exec (.credit port f) s = .next (creditTaken (portNum port) f s) := by
  have hp := creditTaken_port (f := f) (s := s) (portNum_lt port)
  refine next_congr ((onFrame_taken (by rw [ht]; rfl) (receive_ofTheHop h)).trans ((if_neg ?_).trans
    (pumpPort_of_idle (s := creditTaken (portNum port) f s) ((congrArg Port.txq hp).trans htx) ?_)))
  · rw [held0_port (portNum_lt port)]
    exact not_not_intro ha
  · rw [hp]
    exact hs.ge

theorem exec_lack (h : OfTheHop port f s) (ht : f.type = 2) : exec (.lack port f) s =
    .next (pumpPort (portNum port) (lackTaken (portNum port) (frameBody f) (held0 (portNum port) f s))) :=
  next_congr ((onFrame_taken (by rw [ht]; rfl) (receive_ofTheHop h)).trans (congrArg (pumpPort (portNum port)) rfl))

theorem exec_probe (h : OfTheHop port f s) (ht : f.type = 6) : exec (.probe port f) s =
    .next (sendClass0 (portNum port) { newFrame s 6 0 (neighbour s (portNum port)) 0 0 [Config.probeKind 1] with xid := f.xid }
      (held0 (portNum port) f s)) :=
  next_congr (onProbe_taken ht h.2.1 (receive_ofTheHop h))

theorem exec_leave (h : OfTheHop port f s) (ht : f.type = 6) : exec (.leave port f) s =
    .next ((held0 (portNum port) f s).onPort (portNum port) fun q => { q with peerLeft := true }) :=
  next_congr (onProbe_taken ht h.2.1 (receive_ofTheHop h))

/-- The port whose probe is answered. -/
def Port.answered (d : Nat) (num : BitVec 32) (q : Port) : Port :=
  { q with measured := BitVec.ofNat 32 d, probes := q.probes.filter fun y => decide (y.num ≠ num), probed := true }

/-- The device joins the ring once both its ports have their delays (10 R308). -/
def ringJoined (s : State) : State :=
  if s.dev.bypCmd = true ∧ s.dev.ringState = 0 ∧ s.dev.removing = false ∧ (s.port 0).probed = true ∧ (s.port 1).probed = true
  then s.onDev fun d => { d with ringState := 1 } else s

/-- A reply at a port: the delay of the probe it answers. -/
def replyTaken (n : Nat) (num : BitVec 32) (s : State) : State :=
  match (s.port n).probes.find? fun x => decide (x.num = num) with
  | none => s
  | some x => ringJoined (s.onPort n (Port.answered (hopFrom (s.dev.interval - x.sentAt).toNat) x.num))

theorem exec_probeReply (h : OfTheHop port f s) (ht : f.type = 6) : exec (.probeReply port f) s =
    .next (replyTaken (portNum port) f.xid (held0 (portNum port) f s)) :=
  next_congr ((onProbe_taken ht h.2.1 (receive_ofTheHop h)).trans rfl)

end

theorem lacked_of_sent {q : Port} (h : BitVec 32) (hs : q.replayAt = q.replayBuf.length) : q.lacked h =
    { q with
      replayBuf := q.replayBuf.filter fun g => decide ((h - g.hseq).toNat ≥ 2 ^ 31),
      replayAt := (q.replayBuf.filter fun g => decide ((h - g.hseq).toNat ≥ 2 ^ 31)).length, awaitLack := false } := by
  have hle := List.length_filter_le (fun g : VrtFrame => decide ((h - g.hseq).toNat ≥ 2 ^ 31)) q.replayBuf
  unfold Port.lacked
  dsimp only
  rw [hs, Nat.sub_sub_self hle]

/-- A port changed alone, but for what no carriage reads. -/
theorem portOnly_alike {n : Nat} {s t : State} (h : PortOnly n s t) (hc : (t.port n).carry = (s.port n).carry) :
    CarryAlike s t := by
  refine ⟨h.1 .fuse (by decide), fun m => ?_⟩
  by_cases hm : m = n
  · subst hm
    exact hc
  · rw [h.2 m hm]

/-- A probe of a port. -/
def probeFrame (n : Nat) (num : BitVec 32) (s : State) : VrtFrame :=
  { newFrame s 6 0 (neighbour s n) 0 0 [Config.probeKind 0] with xid := num }

theorem probeFrame_of_nv {s t : State} (h : t.nv = s.nv) (n : Nat) (num : BitVec 32) :
    probeFrame n num t = probeFrame n num s := by
  unfold probeFrame newFrame neighbour
  rw [h]

/-- A port that has sent another probe. -/
def Port.asked (num : BitVec 32) (sentAt : BitVec 64) (again : Bool) (q : Port) : Port :=
  { q with probes := q.probes ++ [⟨num, sentAt, again⟩], probeNum := num + 1 }

theorem sendProbe_eq (n : Nat) (again : Bool) (s : State) : sendProbe n again s =
    emitRaw n (sealFrame (probeFrame n (s.port n).probeNum s)) (s.onPort n (Port.asked (s.port n).probeNum s.dev.interval again)) := rfl

/-- A probe sent on a hop whose probes are `l` so far. -/
theorem sendProbe_asks {n : Nat} (hn : n < 2) {s t : State} {l : List HopProbe} (h : PortOnly n s t)
    (hq : t.port n = { s.port n with probes := l }) (hup : (s.port n).up = true) (again : Bool) :
    Asks n again l s (sendProbe n again t) := by
  have ha : CarryAlike s t := portOnly_alike h (congrArg Port.carry hq :)
  have hnum : (t.port n).probeNum = (s.port n).probeNum := (congrArg Port.probeNum hq :)
  rw [sendProbe_eq, hnum, h.1 .dev (by decide), probeFrame_of_nv (h.1 .nv (by decide))]
  refine ⟨((portOnly_trans_onPort h _).1.mono (by decide)).trans ((emitRaw_frame _ _ _).mono (by decide)), ?_, ?_⟩
  · exact left_one (u := t.onPort n (Port.asked (s.port n).probeNum s.dev.interval again)) (h.1 .out (by decide))
      (ha.onPort n fun _ => rfl) hup (sealFrame (probeFrame n (s.port n).probeNum s))
  · exact (emitRaw_port _ _ _ _).trans ((State.port_onPort_self _ _ _ hn).trans
      (congrArg (Port.asked (s.port n).probeNum s.dev.interval again) hq))

/-- The grants of a CREDIT: all freed buffers reported. -/
def granted (v : Vector PortRx 3) : Vector PortRx 3 :=
  v.map fun x : PortRx => { x with granted := x.granted + BitVec.ofNat 32 x.unreported, unreported := 0 }

theorem granted_getElem (v : Vector PortRx 3) (c : Fin 3) : (granted v)[c] =
    { v[c] with granted := v[c].granted + BitVec.ofNat 32 v[c].unreported, unreported := 0 } := Vector.getElem_map _ c.isLt

def creditBody (v : Vector PortRx 3) : List Byte := ((granted v).toList.map fun x => leBytes 4 x.granted.toNat).flatten

theorem length_flatten_blocks {l : List (List Byte)} {k : Nat} (h : ∀ x ∈ l, x.length = k) : l.flatten.length = l.length * k := by
  induction l with
  | nil => exact (Nat.zero_mul k).symm
  | cons x l ih =>
    have hl := List.forall_mem_cons.1 h
    rw [List.flatten_cons, List.length_append, hl.1, ih hl.2, List.length_cons, Nat.succ_mul, Nat.add_comm]

theorem drop_flatten_blocks {l : List (List Byte)} {k : Nat} (h : ∀ x ∈ l, x.length = k) (i : Nat) :
    l.flatten.drop (k * i) = (l.drop i).flatten := by
  induction l generalizing i with
  | nil => rw [List.drop_nil, List.flatten_nil, List.drop_nil]
  | cons x l ih =>
    have hl := List.forall_mem_cons.1 h
    cases i with
    | zero => rfl
    | succ i => rw [List.drop_succ_cons, ← ih hl.2 i, List.flatten_cons, Nat.mul_succ, Nat.add_comm, ← List.drop_drop,
        List.drop_left' hl.1]

theorem slice_flatten_blocks {l : List (List Byte)} {k : Nat} (h : ∀ x ∈ l, x.length = k) {i : Nat} (hi : i < l.length) :
    slice l.flatten (k * i) k = l[i] := by
  rw [slice, drop_flatten_blocks h, List.drop_eq_getElem_cons hi, List.flatten_cons,
    List.take_left' (h _ (List.getElem_mem hi))]

theorem creditBody_blocks (v : Vector PortRx 3) : ∀ x ∈ (granted v).toList.map fun x => leBytes 4 x.granted.toNat, x.length = 4 :=
  fun _ hx => (List.mem_map.1 hx).elim fun _ hy => hy.2 ▸ leBytes_length _ _

theorem creditBody_length (v : Vector PortRx 3) : (creditBody v).length = 12 := by
  rw [creditBody, length_flatten_blocks (creditBody_blocks v), List.length_map, Vector.length_toList]

theorem creditBody_slice (v : Vector PortRx 3) (c : Fin 3) :
    slice (creditBody v) (4 * c.val) 4 = leBytes 4 (granted v)[c].granted.toNat := by
  refine (slice_flatten_blocks (creditBody_blocks v) ?_).trans ?_
  · rw [List.length_map, Vector.length_toList]
    exact c.isLt
  · rw [List.getElem_map, Vector.getElem_toList]
    rfl

section
variable {n : Nat} {s : State}

theorem sendCredit_eq (n : Nat) (s : State) : sendCredit n s =
    emitRaw n (sealFrame (newFrame s 1 0 (neighbour s n) 0 0 (creditBody (s.port n).rx)))
      (s.onPort n fun q => { q with rx := granted (s.port n).rx }) := rfl

theorem sendCredit_only : Only [.ports, .out] s (sendCredit n s) :=
  ((State.onPort_frame _ _ _).mono (by decide)).trans ((emitRaw_frame _ _ _).mono (by decide))

theorem sendCredit_port (hn : n < 2) : (sendCredit n s).port n = { s.port n with rx := granted (s.port n).rx } :=
  (congrArg (fun t => State.port t n) (sendCredit_eq n s)).trans ((emitRaw_port _ _ _ _).trans (State.port_onPort_self _ _ _ hn))

theorem sendCredit_rx (hn : n < 2) : ((sendCredit n s).port n).rx = granted (s.port n).rx := congrArg Port.rx (sendCredit_port hn)

theorem left_sendCredit (hup : (s.port n).up = true) :
    Left [(n, sealFrame (newFrame s 1 0 (neighbour s n) 0 0 (creditBody (s.port n).rx)))] s (sendCredit n s) := by
  rw [sendCredit_eq]
  exact left_one (s := s) (u := s.onPort n fun q => { q with rx := granted (s.port n).rx }) rfl
    ((CarryAlike.refl s).onPort n fun _ => rfl) hup _

end

/-! ### LACK frames -/

/-- The frames of a port that a LACK of sequence number h does not acknowledge. -/
def unacked (h : BitVec 32) (q : Port) : List VrtFrame := q.replayBuf.filter fun g => decide ((h - g.hseq).toNat ≥ 2 ^ 31)

/-- The sequence number of a LACK. -/
def lackSeq (f : VrtFrame) : BitVec 32 := BitVec.ofNat 32 (leNat ((frameBody f).take 4))

/-- The port of a LACK that takes the acknowledged frames from it. -/
def lackKept (f : VrtFrame) (q : Port) : Port :=
  { tookClass0 q f with
    replayBuf := unacked (lackSeq f) q, replayAt := (unacked (lackSeq f) q).length, awaitLack := false }

section
variable {n : Nat} {f g : VrtFrame} {s : State}

/-- The port after a LACK, in the state its frame came into. -/
def lackedAt (n : Nat) (f : VrtFrame) (s : State) : State := (held0 n f s).onPort n (Port.lacked (lackSeq f))

theorem lackedAt_port (hn : n < 2) : (lackedAt n f s).port n = (tookClass0 (s.port n) f).lacked (lackSeq f) :=
  (State.port_onPort_self _ _ _ hn).trans (congrArg (Port.lacked (lackSeq f)) (held0_port hn))

theorem lackedAt_port_of_sent (hn : n < 2) (hs : (s.port n).replayAt = (s.port n).replayBuf.length) :
    (lackedAt n f s).port n = lackKept f (s.port n) :=
  (lackedAt_port hn).trans (lacked_of_sent (q := tookClass0 (s.port n) f) _ hs)

theorem lackedAt_only : PortOnly n s (lackedAt n f s) := portOnly_trans_onPort held0_only _

theorem lackedAt_alike : CarryAlike s (lackedAt n f s) := held0_alike.onPort n fun _ => rfl

theorem lackTaken_of_asked (h : (frameBody f)[4]? = some 1) :
    lackTaken n (frameBody f) (held0 n f s) = replayAll n (lackedAt n f s) := if_pos h

theorem lackTaken_of_quiet (h : (frameBody f)[4]? ≠ some 1) :
    lackTaken n (frameBody f) (held0 n f s) = lackedAt n f s := if_neg h

theorem lackedAt_unconfirmed (hn : n < 2) (hs : (s.port n).replayAt = (s.port n).replayBuf.length) :
    ((lackedAt n f s).port n).unconfirmed = unacked (lackSeq f) (s.port n) :=
  (congrArg Port.unconfirmed (lackedAt_port_of_sent hn hs)).trans List.take_length

theorem lackTaken_of_nothing (hn : n < 2) (hs : (s.port n).replayAt = (s.port n).replayBuf.length)
    (hb : (frameBody f)[4]? ≠ some 1 ∨ unacked (lackSeq f) (s.port n) = []) :
    lackTaken n (frameBody f) (held0 n f s) = lackedAt n f s := by
  by_cases hask : (frameBody f)[4]? = some 1
  · exact (lackTaken_of_asked hask).trans (replayAll_of_nil
      ((lackedAt_unconfirmed hn hs).trans (hb.resolve_left (not_not_intro hask))))
  · exact lackTaken_of_quiet hask

/-- The state of a LACK that asks for the frames kept. -/
theorem replayed_port (hn : n < 2) (hs : (s.port n).replayAt = (s.port n).replayBuf.length)
    (hl : unacked (lackSeq f) (s.port n) ≠ []) : (replayAll n (lackedAt n f s)).port n =
      { lackKept f (s.port n) with replays := satInc (s.port n).replays } := by
  rw [replayAll_port hn, if_neg fun h => hl ((lackedAt_unconfirmed hn hs).symm.trans h), lackedAt_port_of_sent hn hs]
  rfl

theorem replayed_only : Only [.ports, .out] s (replayAll n (lackedAt n f s)) :=
  (lackedAt_only.1.mono (by decide)).trans (replayAll_only _ _)

theorem left_replayed (hn : n < 2) (hup : (s.port n).up = true) (hs : (s.port n).replayAt = (s.port n).replayBuf.length) :
    Left ((unacked (lackSeq f) (s.port n)).map fun g => (n, sealFrame g)) s (replayAll n (lackedAt n f s)) :=
  lackedAt_unconfirmed (f := f) hn hs ▸
    left_replayAll hup (left_nil (lackedAt_only.1 .out (by decide))) (lackedAt_alike (n := n) (f := f))

/-- The port whose one frame was kept over a restart, after its first LACK. -/
def survived (f g : VrtFrame) (q : Port) : Port :=
  { tookClass0 q f with replayBuf := [g], replayAt := 0, awaitLack := false }

theorem lackedAt_port_of_survivor (hn : n < 2) (hg : (s.port n).replayBuf = [g]) (hat : (s.port n).replayAt = 0)
    (hk : 2 ^ 31 ≤ (lackSeq f - g.hseq).toNat) : (lackedAt n f s).port n = survived f g (s.port n) := by
  refine (lackedAt_port hn).trans ?_
  unfold Port.lacked tookClass0
  dsimp only
  rw [hg, hat, List.filter_cons_of_pos (by exact decide_eq_true hk), List.filter_nil, Nat.zero_sub]
  rfl

theorem pumpPort_of_survivor (hp : (lackedAt n f s).port n = survived f g (s.port n)) (htx : (s.port n).txq = [])
    (hsh : (s.port n).short = true) (hopen : classOpen (s.port n) g.cls.toNat = true) :
    pumpPort n (lackedAt n f s) = replayOne n g (lackedAt n f s) := by
  have hw : replayWaits ((lackedAt n f s).port n) = true := hp ▸ Bool.and_eq_true_iff.2 ⟨hsh, rfl⟩
  have hnext : replayNext ((lackedAt n f s).port n) = some g := hp ▸ if_pos hopen
  have hk : ((lackedAt n f s).port n).txq.length + ((lackedAt n f s).port n).replayBuf.length = 1 := by
    rw [hp]
    exact congrArg (fun l => List.length l + 1) htx
  unfold pumpPort
  rw [hk]
  unfold pump
  rw [if_pos hw, hnext]
  rfl

/-- A port that has sent a frame of its replay buffer again. -/
def Port.replayedOne (g : VrtFrame) (q : Port) : Port :=
  { q with replayAt := q.replayAt + 1, sent := vmod q.sent (g.cls.toNat - 1) (· + 1) }

theorem replayOne_eq (n : Nat) (g : VrtFrame) (s : State) :
    replayOne n g s = emitRaw n (sealFrame g) (s.onPort n (Port.replayedOne g)) := rfl

theorem replayOne_port (hn : n < 2) (g : VrtFrame) (s : State) : (replayOne n g s).port n = (s.port n).replayedOne g :=
  (emitRaw_port _ _ _ _).trans (State.port_onPort_self _ _ _ hn)

theorem survivor_port (hn : n < 2) (hg : (s.port n).replayBuf = [g])
    (hp : (lackedAt n f s).port n = survived f g (s.port n)) : (replayOne n g (lackedAt n f s)).port n =
      { tookClass0 (s.port n) f with
        replayAt := 1, awaitLack := false, sent := vmod (s.port n).sent (g.cls.toNat - 1) fun x => x + 1 } := by
  rw [replayOne_port hn, hp]
  exact congrArg (fun l => { tookClass0 (s.port n) f with
    replayBuf := l, replayAt := 1, awaitLack := false, sent := vmod (s.port n).sent (g.cls.toNat - 1) fun x => x + 1 }) hg.symm

theorem survivor_only : Only [.ports, .out] s (replayOne n g (lackedAt n f s)) :=
  ((portOnly_trans_onPort lackedAt_only _).1.mono (by decide)).trans ((emitRaw_frame _ _ _).mono (by decide))

theorem left_survivor (hup : (s.port n).up = true) : Left [(n, sealFrame g)] s (replayOne n g (lackedAt n f s)) := by
  rw [replayOne_eq]
  exact left_one (s := s) (u := (lackedAt n f s).onPort n (Port.replayedOne g)) rfl
    (lackedAt_alike.onPort _ fun _ => rfl) hup (sealFrame g)

end

section
variable {port : RingPort} {f g : VrtFrame} {s : State} (htx : (s.port (portNum port)).txq = []) (h : OfTheHop port f s)
  (ht : f.type = 2)
include htx h ht

theorem exec_lack_quiet (hs : (s.port (portNum port)).replayAt = (s.port (portNum port)).replayBuf.length)
    (hb : (frameBody f)[4]? ≠ some 1 ∨ unacked (lackSeq f) (s.port (portNum port)) = []) :
    exec (.lack port f) s = .next (lackedAt (portNum port) f s) := by
  have hp := lackedAt_port_of_sent (f := f) (portNum_lt port) hs
  rw [exec_lack h ht, lackTaken_of_nothing (portNum_lt port) hs hb]
  exact next_congr (pumpPort_of_idle ((congrArg Port.txq hp).trans htx) (by rw [hp]; exact le_rfl))

theorem exec_lack_replays (hs : (s.port (portNum port)).replayAt = (s.port (portNum port)).replayBuf.length)
    (hb : (frameBody f)[4]? = some 1) (hl : unacked (lackSeq f) (s.port (portNum port)) ≠ []) :
    exec (.lack port f) s = .next (replayAll (portNum port) (lackedAt (portNum port) f s)) := by
  have hp := replayed_port (portNum_lt port) hs hl
  rw [exec_lack h ht, lackTaken_of_asked hb]
  exact next_congr (pumpPort_of_idle ((congrArg Port.txq hp).trans htx) (by rw [hp]; exact le_rfl))

/-- The one frame kept over a restart leaves after the first LACK. -/
theorem exec_lack_survivor (hg : (s.port (portNum port)).replayBuf = [g])
    (hat : (s.port (portNum port)).replayAt = 0) (hsh : (s.port (portNum port)).short = true)
    (hk : 2 ^ 31 ≤ (lackSeq f - g.hseq).toNat) (hb : (frameBody f)[4]? ≠ some 1)
    (hopen : classOpen (s.port (portNum port)) g.cls.toNat = true) :
    exec (.lack port f) s = .next (replayOne (portNum port) g (lackedAt (portNum port) f s)) := by
  rw [exec_lack h ht, lackTaken_of_quiet hb]
  exact next_congr (pumpPort_of_survivor (lackedAt_port_of_survivor (portNum_lt port) hg hat hk) htx hsh hopen)

end

/-! ### Replies -/

section
variable {port : RingPort} {n : Nat} {num : BitVec 32} {x : HopProbe} {s : State}

theorem replyTaken_of_none (h : ∀ x ∈ (s.port n).probes, x.num ≠ num) : replyTaken n num s = s := by
  unfold replyTaken
  rw [List.find?_eq_none.2 fun x hx hd => h x hx (of_decide_eq_true hd)]

theorem replyTaken_of_some (h : ((s.port n).probes.find? fun y => decide (y.num = num)) = some x) :
    replyTaken n num s = ringJoined (s.onPort n (Port.answered (hopFrom (s.dev.interval - x.sentAt).toNat) num)) := by
  have hnum : x.num = num := of_decide_eq_true (List.find?_some (p := fun y : HopProbe => decide (y.num = num)) h)
  unfold replyTaken
  rw [h]
  dsimp only
  rw [hnum]

theorem ringJoined_port (s : State) (m : Nat) : (ringJoined s).port m = s.port m := by
  unfold ringJoined
  split <;> rfl

theorem ringJoined_frame (s : State) : Only [.dev] s (ringJoined s) := by
  unfold ringJoined
  split
  · exact State.onDev_frame s _
  · exact Only.refl _ s

/-- Both ports have their delays once the other one has, too. -/
theorem probed_both (h : (s.port (portNum port)).probed = true) :
    (s.port 0).probed = true ∧ (s.port 1).probed = true ↔ (s.port (1 - portNum port)).probed = true := by
  cases port
  · exact and_iff_right h
  · exact and_iff_left h

theorem ringJoined_dev (h : (s.port (portNum port)).probed = true) : (ringJoined s).dev = { s.dev with
    ringState := if s.dev.bypCmd = true ∧ s.dev.ringState = 0 ∧ s.dev.removing = false ∧
      (s.port (1 - portNum port)).probed = true then 1 else s.dev.ringState } := by
  have hboth := probed_both h
  unfold ringJoined
  split
  case isTrue hc =>
    obtain ⟨hb, hr, hm, hp⟩ := hc
    rw [if_pos ⟨hb, hr, hm, hboth.1 hp⟩]
    rfl
  case isFalse hc => rw [if_neg fun x => hc ⟨x.1, x.2.1, x.2.2.1, hboth.2 x.2.2.2⟩]

end

theorem one_sub_portNum_ne (port : RingPort) : 1 - portNum port ≠ portNum port := by cases port <;> decide

section
variable {port : RingPort} {f : VrtFrame} {x : HopProbe} {s : State}

theorem exec_probeReply_unknown (h : OfTheHop port f s) (ht : f.type = 6)
    (hx : ∀ x ∈ (s.port (portNum port)).probes, x.num ≠ f.xid) :
    exec (.probeReply port f) s = .next (held0 (portNum port) f s) :=
  (exec_probeReply h ht).trans (next_congr (replyTaken_of_none (by rw [held0_port (portNum_lt port)]; exact hx)))

/-- The state of a port whose probe is answered by a frame of the hop. -/
def answeredAt (n : Nat) (f : VrtFrame) (x : HopProbe) (s : State) : State :=
  (held0 n f s).onPort n (Port.answered (hopFrom (s.dev.interval - x.sentAt).toNat) f.xid)

theorem exec_probeReply_known (h : OfTheHop port f s) (ht : f.type = 6)
    (hx : ((s.port (portNum port)).probes.find? fun y => decide (y.num = f.xid)) = some x) :
    exec (.probeReply port f) s = .next (ringJoined (answeredAt (portNum port) f x s)) :=
  (exec_probeReply h ht).trans (next_congr (replyTaken_of_some (by rw [held0_port (portNum_lt port)]; exact hx)))

theorem answeredAt_self : (answeredAt (portNum port) f x s).port (portNum port) =
    (tookClass0 (s.port (portNum port)) f).answered (hopFrom (s.dev.interval - x.sentAt).toNat) f.xid :=
  (State.port_onPort_self _ _ _ (portNum_lt port)).trans (congrArg (Port.answered _ f.xid) (held0_port (portNum_lt port)))

theorem answeredAt_alone : PortOnly (portNum port) s (answeredAt (portNum port) f x s) := portOnly_trans_onPort held0_only _

theorem answeredAt_only : Only [.ports, .dev] s (ringJoined (answeredAt (portNum port) f x s)) :=
  (answeredAt_alone.1.mono (by decide)).trans ((ringJoined_frame _).mono (by decide))

theorem answeredAt_port_ne (m : Nat) (hm : m ≠ portNum port) :
    (ringJoined (answeredAt (portNum port) f x s)).port m = s.port m :=
  (ringJoined_port _ m).trans (answeredAt_alone.2 m hm)

theorem answeredAt_port : (ringJoined (answeredAt (portNum port) f x s)).port (portNum port) =
    (tookClass0 (s.port (portNum port)) f).answered (hopFrom (s.dev.interval - x.sentAt).toNat) f.xid :=
  (ringJoined_port _ _).trans answeredAt_self

theorem answeredAt_dev : (ringJoined (answeredAt (portNum port) f x s)).dev = { s.dev with
    ringState := if s.dev.bypCmd = true ∧ s.dev.ringState = 0 ∧ s.dev.removing = false ∧
      (s.port (1 - portNum port)).probed = true then 1 else s.dev.ringState } := by
  rw [ringJoined_dev (port := port) (congrArg Port.probed answeredAt_self),
    answeredAt_alone.2 _ (one_sub_portNum_ne port)]
  rfl

end

theorem exec_hopTimeout_of_none {port : RingPort} {s : State}
    (h : (s.port (portNum port)).up = false ∨ (s.port (portNum port)).probes = []) : exec (.hopTimeout port) s = .next s := by
  change execHopTimeout port s = _
  unfold execHopTimeout
  dsimp only
  split
  · rfl
  · rename_i hp
    exact if_pos (h.resolve_right (by rw [hp]; exact List.cons_ne_nil _ _))

theorem up_of_linkRetry {q : Port} (h : linkRetry q = true) : q.up = true := (Bool.and_eq_true_iff.1 h).1

/-- A probe that comes too late restarts its port. -/
theorem exec_hopTimeout_again {port : RingPort} {x : HopProbe} {l : List HopProbe} {s : State}
    (hup : (s.port (portNum port)).up = true) (hp : (s.port (portNum port)).probes = x :: l) (hx : x.again = true) :
    exec (.hopTimeout port) s = .next (restartPort (portNum port)
      (s.onPort (portNum port) fun q => { q with hopTimeouts := satInc q.hopTimeouts })) := by
  change execHopTimeout port s = _
  unfold execHopTimeout
  dsimp only
  rw [hp]
  dsimp only
  rw [if_neg (by rw [hup]; decide), if_neg (by rw [hx]; decide)]

theorem exec_hopTimeout_first {port : RingPort} {x : HopProbe} {l : List HopProbe} {s : State}
    (hup : (s.port (portNum port)).up = true) (hp : (s.port (portNum port)).probes = x :: l) (hx : x.again = false) :
    exec (.hopTimeout port) s = .next (sendProbe (portNum port) true
      (s.onPort (portNum port) fun q => { q with probes := l })) := by
  change execHopTimeout port s = _
  unfold execHopTimeout
  dsimp only
  rw [hp]
  dsimp only
  rw [if_neg (by rw [hup]; decide), if_pos hx]

/-- The pauses of a PFC frame. -/
def pausesOf (q : Port) (en pa : BitVec 8) : BitVec 4 :=
  let bits := (List.range 4).map fun c =>
    if c ≠ 0 ∧ flag en (q.priority c) = true then flag pa (q.priority c) else flag q.paused c
  BitVec.ofNat 4 (sumN (bits.zipIdx.map fun b => if b.1 then 2 ^ b.2 else 0))

theorem pausesOf_control (q : Port) (en pa : BitVec 8) : flag (pausesOf q en pa) 0 = flag q.paused 0 :=
  (flag_of_four _ 0 (by decide)).trans (if_neg fun x => x.1 rfl)

theorem pausesOf_class (q : Port) (en pa : BitVec 8) (c : Nat) (hc : 1 ≤ c) (h4 : c < 4) : flag (pausesOf q en pa) c =
    if flag en (q.priority c) = true then flag pa (q.priority c) else flag q.paused c :=
  (flag_of_four _ c h4).trans (if_congr (and_iff_right (Nat.one_le_iff_ne_zero.1 hc)) rfl rfl)

/-- The state a PFC frame leaves. -/
def pfcTaken (n : Nat) (en pa : BitVec 8) (s : State) : State := s.onPort n fun q => { q with paused := pausesOf (s.port n) en pa }

theorem pfcTaken_port {n : Nat} (hn : n < 2) (en pa : BitVec 8) (s : State) :
    (pfcTaken n en pa s).port n = { s.port n with paused := pausesOf (s.port n) en pa } := State.port_onPort_self _ _ _ hn

theorem pfcTaken_paused {n : Nat} (hn : n < 2) (en pa : BitVec 8) (s : State) :
    ((pfcTaken n en pa s).port n).paused = pausesOf (s.port n) en pa := congrArg Port.paused (pfcTaken_port hn en pa s)

theorem exec_pfcFrame {port : RingPort} {en pa : BitVec 8} {s : State} (htx : (s.port (portNum port)).txq = [])
    (hup : (s.port (portNum port)).up = true) (ha : (s.port (portNum port)).cfg.attach ≠ 0)
    (hs : (s.port (portNum port)).replayAt = (s.port (portNum port)).replayBuf.length) :
    exec (.pfcFrame port en pa) s = .next (pfcTaken (portNum port) en pa s) := by
  have hp := pfcTaken_port (portNum_lt port) en pa s
  change execPfcFrame port en pa s = _
  unfold execPfcFrame
  dsimp only
  rw [if_neg (by rw [hup]; exact not_or.2 ⟨by decide, ha⟩)]
  exact next_congr (pumpPort_of_idle (s := pfcTaken (portNum port) en pa s) ((congrArg Port.txq hp).trans htx)
    (by rw [hp]; exact hs.ge))

/-! ### Timers that send nothing on a port without retries -/

section
variable {n : Nat} {s : State}

theorem lackTimer_only : Only [.out] s (if linkRetry (s.port n) = true then sendLack n false s else s) := by
  split
  · exact sendLack_frame _ _ _
  · exact Only.refl _ _

theorem left_lackTimer : Left (if linkRetry (s.port n) = true then [lackFrame s n false] else []) s
    (if linkRetry (s.port n) = true then sendLack n false s else s) := by
  split
  case isTrue h => exact left_sendLack (l := []) (left_nil rfl) (.refl s) (up_of_linkRetry h) rfl rfl false
  case isFalse => exact left_nil rfl

theorem lackTimeout_only : Only [.ports, .out] s (if linkRetry (s.port n) = true then replayAll n s else s) := by
  split
  · exact replayAll_only _ _
  · exact Only.refl _ _

theorem lackTimeout_port (hn : n < 2) : (if linkRetry (s.port n) = true then replayAll n s else s).port n = { s.port n with
    replays := if (if linkRetry (s.port n) = true then (s.port n).unconfirmed else []) = [] then (s.port n).replays
      else satInc (s.port n).replays } := by
  split
  · exact replayAll_port hn
  · rw [if_pos rfl]

theorem left_lackTimeout : Left ((if linkRetry (s.port n) = true then (s.port n).unconfirmed else []).map
    fun g => (n, sealFrame g)) s (if linkRetry (s.port n) = true then replayAll n s else s) := by
  split
  case isTrue h => exact left_replayAll (up_of_linkRetry h) (left_nil rfl) (.refl s)
  case isFalse => exact left_nil rfl

theorem probeTimer_of_down (h : (s.port n).up = false) : (if (s.port n).up = true then sendProbe n false s else s) = s :=
  if_neg (Bool.eq_false_iff.1 h)

theorem probeTimer_asks (hn : n < 2) (h : (s.port n).up = true) :
    Asks n false (s.port n).probes s (if (s.port n).up = true then sendProbe n false s else s) :=
  (if_pos h : (if (s.port n).up = true then sendProbe n false s else s) = _).symm ▸
    sendProbe_asks hn ⟨Only.refl _ _, fun _ _ => rfl⟩ rfl h false

theorem any_unreported {q : Port} (h : ∃ c : Fin 3, 0 < q.rx[c].unreported) :
    (q.rx.toList.any fun x => decide (x.unreported > 0)) = true :=
  h.elim fun c hc => List.any_eq_true.2 ⟨q.rx[c], Vector.mem_toList_iff.2 (Vector.getElem_mem c.isLt), decide_eq_true hc⟩

end

/-- A port that restarts because its probe came too late. -/
def hopRestarted (n : Nat) (s : State) : State := restartPort n (s.onPort n fun q => { q with hopTimeouts := satInc q.hopTimeouts })

theorem hopRestarted_only (n : Nat) (s : State) : Only [.nv, .ports, .parts, .eop, .out] s (hopRestarted n s) :=
  ((State.onPort_frame _ _ _).mono (by decide)).trans (restartPort_frame _ _)

theorem hopRestarted_port {n : Nat} (hn : n < 2) (s : State) : ((hopRestarted n s).port n).st = 1 ∧
    ((hopRestarted n s).port n).hopTimeouts = satInc (s.port n).hopTimeouts ∧
      ((hopRestarted n s).port n).restarts = satInc (s.port n).restarts := by
  unfold hopRestarted
  rw [restartPort_port_self hn, State.port_onPort_self _ _ _ hn]
  exact ⟨rfl, rfl, rfl⟩

end Sys2Proof.Machine

namespace Sys2Proof.Proofs

open Machine Claims

/-- Settles O55: the frames of the hop taken one by one, then the timers. -/
theorem hopFramesAndTimers : Obligations.HopFramesAndTimers := by
  unfold Obligations.HopFramesAndTimers
  intro port s n q sent htx
  refine ⟨?_, ⟨_, rfl, probeTimer_of_down, probeTimer_asks (portNum_lt port)⟩, exec_hopTimeout_of_none,
    fun x l hup hp hx => ⟨_, exec_hopTimeout_first hup hp hx,
      sendProbe_asks (portNum_lt port) (portOnly_onPort _ _ _) (State.port_onPort_self _ _ _ (portNum_lt port)) hup true⟩,
    fun x l hup hp hx => ⟨_, exec_hopTimeout_again hup hp hx, hopRestarted_only _ _, hopRestarted_port (portNum_lt port) s⟩,
    ⟨_, rfl, lackTimer_only, left_lackTimer⟩, ?_,
    fun hup ha hc => ⟨_, creditBody q.rx, next_congr (if_pos ⟨hup, ha, any_unreported hc⟩), sendCredit_only, ?_, fun d => ?_,
      left_sendCredit hup, creditBody_length _, fun d => ?_⟩,
    fun en pa hup ha hs => ⟨_, exec_pfcFrame htx hup ha hs, portOnly_onPort _ _ _, ?_, ?_, fun c hc h4 => ?_⟩⟩
  · intro f h q' b
    refine ⟨fun ht hs ha => ⟨_, exec_credit htx h ht hs ha, portOnly_trans_onPort held0_only _, ?_, fun c => ?_⟩, ?_, fun ht =>
      ⟨⟨_, exec_probe h ht, (held0_only.1.mono (by decide)).trans ((emitRaw_frame _ _ _).mono (by decide)),
        (emitRaw_port _ _ _ _).trans (held0_port (portNum_lt port)), left_one (s := s) (u := held0 (portNum port) f s) rfl held0_alike h.1.1 (hopFrame s (portNum port) 1 f.xid).2⟩,
      ⟨_, exec_leave h ht, portOnly_trans_onPort held0_only _, ?_⟩, fun hx => ?_, fun x hx => ?_⟩⟩
    · rw [creditTaken_credit (portNum_lt port)]
      exact creditTaken_port (portNum_lt port)
    · rw [creditTaken_credit (portNum_lt port)]
      exact grantsOf_toNat _ c
    · intro ht h' l kept
      exact ⟨fun hs hb => ⟨_, exec_lack_quiet htx h ht hs hb, lackedAt_only, lackedAt_port_of_sent (portNum_lt port) hs⟩,
        fun hs hb hl => ⟨_, exec_lack_replays htx h ht hs hb hl, replayed_only, replayed_port (portNum_lt port) hs hl,
          left_replayed (portNum_lt port) h.1.1 hs⟩,
        fun g hg hat hsh hk hb ho => ⟨_, exec_lack_survivor htx h ht hg hat hsh hk hb ho, survivor_only,
          survivor_port (portNum_lt port) hg (lackedAt_port_of_survivor (portNum_lt port) hg hat hk), left_survivor h.1.1⟩⟩
    · exact (State.port_onPort_self _ _ _ (portNum_lt port)).trans
        (congrArg (fun q : Port => { q with peerLeft := true }) (held0_port (portNum_lt port)))
    · exact ⟨_, exec_probeReply_unknown h ht hx, held0_only, held0_port (portNum_lt port)⟩
    · exact ⟨_, exec_probeReply_known h ht hx, answeredAt_only, answeredAt_port_ne, answeredAt_port, answeredAt_dev⟩
  · intro l
    exact ⟨_, rfl, lackTimeout_only, lackTimeout_port (portNum_lt port), left_lackTimeout⟩
  · rw [sendCredit_rx (portNum_lt port)]
    exact sendCredit_port (portNum_lt port)
  · rw [sendCredit_rx (portNum_lt port)]
    exact granted_getElem _ d
  · rw [sendCredit_rx (portNum_lt port)]
    exact creditBody_slice _ d
  · rw [pfcTaken_paused (portNum_lt port)]
    exact pfcTaken_port (portNum_lt port) en pa s
  · rw [pfcTaken_paused (portNum_lt port)]
    exact pausesOf_control _ _ _
  · rw [pfcTaken_paused (portNum_lt port)]
    exact pausesOf_class _ _ _ c hc h4

end Sys2Proof.Proofs
end

section
/-! SUPPORT. Ports that train, come up, restart and leave the ring (10 R277, R278, R287, R308). -/

set_option Elab.async false

namespace Sys2Proof.Machine

open Claims

/-! ### What has left by port M stays sent -/

/-- Port M has sent at least what it had sent. -/
def SentM (s t : State) : Prop := s.out.portM ⊆ t.out.portM

theorem SentM.refl (s : State) : SentM s s := List.Subset.refl _

theorem SentM.trans {s t u : State} (h : SentM s t) (k : SentM t u) : SentM s u := List.Subset.trans h k

theorem SentM.of_out {s t : State} (h : t.out = s.out) : SentM s t := by
  rw [SentM, h]
  exact List.Subset.refl _

theorem sentM_notify (p event status detail : Nat) (s : State) : SentM s (notify p event status detail s) :=
  List.subset_append_left _ _

/-- An answer that was sent is still there. -/
theorem SentM.answer {op : Nat} {r : EopReq} {x : Session} {d : List Byte} {st : Nat} {s t : State} (h : SentM (responded op r x st d s) t)
    (ha : Answered op r x st d s (responded op r x st d s)) : answer op r x.num (some x.key) st d ∈ t.out.portM := by
  refine h ?_
  rw [ha.1]
  exact List.mem_append_right _ (List.mem_singleton_self _)

/-! ### A port's state changes -/

theorem noticed_setPortState {n : Nat} {v : BitVec 8} {s : State} (h : (s.port n).st ≠ v) :
    Noticed 0 0x06 stOk ((n + 1) * 256 + v.toNat) (setPortState n v s) := by
  unfold setPortState
  rw [if_neg h]
  exact noticed_notify (by decide) _ _ _ _

theorem setPortState_frame (n : Nat) (v : BitVec 8) (s : State) : Only [.ports, .parts, .eop, .out] s (setPortState n v s) :=
  (setPortState_keeps n v (by decide) (by decide) (by decide) (by decide) (.refl _ s)).1

theorem sentM_setPortState (n : Nat) (v : BitVec 8) (s : State) : SentM s (setPortState n v s) := by
  unfold setPortState
  split
  · exact .refl s
  · exact sentM_notify _ _ _ _ _

/-! ### A link restart -/

theorem retireLanes_frame (n : Nat) (s : State) : Only [.nv] s (retireLanes n s) :=
  (retireLanes_keeps n (by decide) (.refl _ s)).1

theorem noticed_restartPort {n : Nat} (hn : n < 2) {s : State} (h : (s.port n).st ≠ 1) :
    Noticed 0 0x06 stOk ((n + 1) * 256 + 1) (restartPort n s) := by
  refine noticed_setPortState ?_
  rw [State.port_onPort_self _ _ _ hn, State.port, retireLanes_nv_ports]
  exact h

theorem sentM_restartPort (n : Nat) (s : State) : SentM s (restartPort n s) :=
  (SentM.of_out (by rw [State.onPort_out, retireLanes_frame n s .out (by decide)])).trans (sentM_setPortState _ _ _)

theorem restartPort_events (n : Nat) (s : State) : (restartPort n s).nv.events = s.nv.events := by
  unfold restartPort
  rw [setPortState_frame _ _ _ .nv (by decide), State.onPort_nv]
  exact (retireLanes_nv n s).2.2

/-- A port whose lane has failed. -/
def Port.laneLost (lane : Nat) (q : Port) : Port := { q with good := q.good &&& ~~~((1 : BitVec 8) <<< lane), full := false }

/-- A failed lane: the event, and the restart. -/
def laneFailed (n lane : Nat) (s : State) : State :=
  restartPort n (recordEvent 0x20 3 (n * 8 + lane) 0 15 1 (s.onPort n (Port.laneLost lane)))

theorem exec_laneFailure {port : RingPort} {lane : Fin 8} {s : State} (h : (s.port (portNum port)).up = true) :
    exec (.laneFailure port lane) s = .next (laneFailed (portNum port) lane.val s) :=
  if_neg fun h0 => absurd (h.symm.trans h0) (by decide)

theorem other_ne (port : RingPort) : 1 - portNum port ≠ portNum port := by cases port <;> decide

section
variable {port : RingPort} {lane : Fin 8} {s : State}

/-- A failed lane before the restart. -/
def laneNoted (n lane : Nat) (s : State) : State := recordEvent 0x20 3 (n * 8 + lane) 0 15 1 (s.onPort n (Port.laneLost lane))

theorem laneNoted_frame (n lane : Nat) : Only [.nv, .dev, .ports] s (laneNoted n lane s) :=
  ((State.onPort_frame _ _ _).mono (by decide)).trans ((recordEvent_frame _ _ _ _ _ _ _).mono (by decide))

theorem laneNoted_ports (n lane m : Nat) : (laneNoted n lane s).port m = (s.onPort n (Port.laneLost lane)).port m :=
  congrArg (vget · m Port.reset) (recordEvent_frame _ _ _ _ _ _ _ .ports (by decide))

theorem laneNoted_port : (laneNoted (portNum port) lane s).port (portNum port) = (s.port (portNum port)).laneLost lane :=
  (laneNoted_ports _ _ _).trans (State.port_onPort_self _ _ _ (portNum_lt port))

theorem laneNoted_cfg (n lane : Nat) : (laneNoted n lane s).nv.ports = s.nv.ports ∧
    (laneNoted n lane s).nv.classes = s.nv.classes :=
  ⟨(congrArg Nv.ports (recordEvent_nv _ _ _ _ _ _ _) :), (congrArg Nv.classes (recordEvent_nv _ _ _ _ _ _ _) :)⟩

theorem laneFailed_frame (n lane : Nat) : Only [.nv, .dev, .ports, .parts, .eop, .out] s (laneFailed n lane s) :=
  ((laneNoted_frame n lane).mono (by decide)).trans ((restartPort_frame n (laneNoted n lane s)).mono (by decide))

theorem laneFailed_port : (laneFailed (portNum port) lane s).port (portNum port) =
    ((s.port (portNum port)).laneLost lane).restarted (vget s.nv.ports (portNum port) PortCfg.reset) s.nv.classes := by
  have h := restartPort_port_self (portNum_lt port) (laneNoted (portNum port) lane s)
  rwa [laneNoted_port, (laneNoted_cfg _ _).1, (laneNoted_cfg _ _).2] at h

theorem laneFailed_good (l : Nat) (hl : l < 8) : flag ((laneFailed (portNum port) lane s).port (portNum port)).good l =
    (flag (s.port (portNum port)).good l && decide (l ≠ lane.val)) :=
  (congrArg (fun q : Port => flag q.good l) laneFailed_port).trans (flag_and_not_bit _ _ _ hl lane.isLt)

theorem laneFailed_port_ne {n m : Nat} (h : m ≠ n) : (laneFailed n lane s).port m = s.port m :=
  (restartPort_port_ne (laneNoted n lane s) h).trans ((laneNoted_ports _ _ _).trans (State.port_onPort_ne _ _ _ _ h))

theorem laneFailed_event (n lane : Nat) : eventWritten 0x20 s (laneFailed n lane s) := by
  unfold eventWritten laneFailed
  rw [restartPort_events]
  exact recordEvent_type _ _ _ _ _ _ (s.onPort n (Port.laneLost lane))

theorem st_ne_of_up {q : Port} (h : q.up = true) : q.st ≠ 1 := fun h1 => by
  rw [Port.up, h1] at h
  exact absurd h (by decide)

theorem noticed_laneFailed (h : (s.port (portNum port)).up = true) :
    Noticed 0 0x06 stOk ((portNum port + 1) * 256 + 1) (laneFailed (portNum port) lane s) :=
  noticed_restartPort (portNum_lt port) fun h1 =>
    st_ne_of_up h ((congrArg Port.st laneNoted_port :).symm.trans h1)

end

/-! ### Training -/

/-- The lanes of a trained port that no class excludes. -/
def goodLanes (s : State) (n : Nat) (lanes : BitVec 8) : BitVec 8 := lanes &&& ~~~excludedLanes s n

/-- The state a port trains into: all eight lanes, a good group of four, or failed. -/
def trainedSt (full : Bool) (good : BitVec 8) : BitVec 8 :=
  if full = true ∧ good = 0xFF then 2 else if fld good 3 0 = 15 ∨ fld good 7 4 = 15 then 3 else 4

/-- A port that has come up under new grants. -/
def Port.grantedAfresh (q : Port) : Port :=
  { q with
    credit := Vector.replicate 3 0, sent := Vector.replicate 3 0, probes := [], probed := false, peerLeft := false,
    paused := 0, pfcOn := 0, replayAt := 0, replayBuf := if q.short then q.replayBuf else [],
    awaitLack := q.short && !q.replayBuf.isEmpty,
    rx := Vector.ofFn fun c : Fin 3 =>
      let x := vget q.rx c PortRx.reset
      { x with granted := 0, recvd := 0, unreported := (vget q.classes.pool c 0).toNat - x.inUse } }

theorem comeUp_eq (n : Nat) (s : State) : comeUp n s = s.onPort n Port.grantedAfresh := rfl

/-- The port whose training ends: its lanes, whether it stays at eight, and the new grants if it comes up. -/
def Port.trained (good : BitVec 8) (q : Port) : Port :=
  let v := trainedSt q.full good
  let q' := { q with good := good, full := decide (v = 2) }
  if v = 4 then q' else q'.grantedAfresh

/-- Two changes of one port are one. -/
theorem State.onPort_onPort {n : Nat} {f g k : Port → Port} {s : State} (h : g (f (s.port n)) = k (s.port n)) :
    (s.onPort n f).onPort n g = s.onPort n k := by
  have hv : vmod (vmod s.ports n f) n g = vmod s.ports n k := by
    have hd : n < 2 → s.port n = vget s.ports n Port.reset := fun _ => rfl
    unfold vmod
    split
    · next hn =>
      rw [hd hn, vget, dif_pos hn] at h
      rw [Vector.getElem_set_self, Vector.set_set, h]
    · rfl
  exact congrArg (fun v => { s with ports := v }) hv

theorem groupGood_iff (good : BitVec 8) : groupGood good = true ↔ fld good 3 0 = 15 ∨ fld good 7 4 = 15 := by
  rw [groupGood, Bool.or_eq_true, decide_eq_true_eq, decide_eq_true_eq]

section
variable {port : RingPort} {lanes : BitVec 8} {s : State}

theorem exec_training_bypassed (hq : (s.port (portNum port)).st = 1) (hb : s.dev.bypCmd = false) :
    exec (.portTrainingEnd port lanes) s =
      .next (setPortState (portNum port) 0
        (s.onPort (portNum port) fun q => { q with good := goodLanes s (portNum port) lanes })) :=
  (if_neg (not_not_intro hq)).trans (if_pos hb)

/-- What the end of a training in the ring leaves. -/
def trainingEnded (n : Nat) (good : BitVec 8) (s : State) : State :=
  setPortState n (trainedSt (s.port n).full good) (s.onPort n (Port.trained good))

theorem trained_of_full {q : Port} {good : BitVec 8} (h : q.full = true ∧ good = 0xFF) :
    ({ q with good := good } : Port).grantedAfresh = q.trained good := by
  have hv : trainedSt q.full good = 2 := if_pos h
  unfold Port.trained
  dsimp only
  rw [hv, if_neg (by decide), h.1]
  rfl

theorem trained_of_group {q : Port} {good : BitVec 8} (h : ¬ (q.full = true ∧ good = 0xFF)) (hg : groupGood good = true) :
    ({ q with good := good, full := false } : Port).grantedAfresh = q.trained good := by
  have hv : trainedSt q.full good = 3 := (if_neg h).trans (if_pos ((groupGood_iff good).1 hg))
  unfold Port.trained
  dsimp only
  rw [hv, if_neg (by decide)]
  rfl

theorem trained_of_none {q : Port} {good : BitVec 8} (h : ¬ (q.full = true ∧ good = 0xFF)) (hg : ¬ groupGood good = true) :
    ({ q with good := good, full := false } : Port) = q.trained good := by
  have hv : trainedSt q.full good = 4 := (if_neg h).trans (if_neg fun x => hg ((groupGood_iff good).2 x))
  unfold Port.trained
  dsimp only
  rw [hv, if_pos rfl]
  rfl

/-- The outcome of a training by the lanes found good. -/
theorem trainingEnded_eq {n : Nat} (hn : n < 2) (good : BitVec 8) :
    (if ((s.onPort n fun q => { q with good := good }).port n).full = true ∧ good = 0xFF
      then (.next (setPortState n 2 (comeUp n (s.onPort n fun q => { q with good := good }))) : Host.Outcome State Fault Refusal)
      else if groupGood good then
        .next (setPortState n 3 (comeUp n ((s.onPort n fun q => { q with good := good }).onPort n fun q => { q with full := false })))
      else .next (setPortState n 4 ((s.onPort n fun q => { q with good := good }).onPort n fun q => { q with full := false }))) =
      .next (trainingEnded n good s) := by
  rw [State.port_onPort_self _ _ _ hn]
  by_cases h : (s.port n).full = true ∧ good = 0xFF
  · refine (if_pos h).trans (next_congr ?_)
    rw [trainingEnded, show trainedSt _ good = 2 from if_pos h, comeUp_eq, State.onPort_onPort (trained_of_full h)]
  · refine (if_neg h).trans ?_
    by_cases hg : groupGood good = true
    · refine (if_pos hg).trans (next_congr ?_)
      rw [trainingEnded, show trainedSt _ good = 3 from (if_neg h).trans (if_pos ((groupGood_iff good).1 hg)), comeUp_eq,
        State.onPort_onPort (f := fun q => { q with good := good }) (g := fun q => { q with full := false })
          (k := fun q => { q with good := good, full := false }) rfl, State.onPort_onPort (trained_of_group h hg)]
    · refine (if_neg hg).trans (next_congr ?_)
      rw [trainingEnded, show trainedSt _ good = 4 from (if_neg h).trans (if_neg fun x => hg ((groupGood_iff good).2 x)),
        State.onPort_onPort (trained_of_none h hg)]

theorem exec_training_end (hq : (s.port (portNum port)).st = 1) (hb : s.dev.bypCmd = true) :
    exec (.portTrainingEnd port lanes) s = .next (trainingEnded (portNum port) (goodLanes s (portNum port) lanes) s) :=
  ((if_neg (not_not_intro hq)).trans (if_neg fun h0 => absurd (hb.symm.trans h0) (by decide))).trans
    (trainingEnded_eq (portNum_lt port) _)

end

section
variable (q : Port) (good : BitVec 8)

theorem trained_st : (q.trained good).st = q.st := of_ite (P := fun p : Port => p.st = q.st) rfl rfl

theorem trained_good : (q.trained good).good = good := of_ite (P := fun p : Port => p.good = good) rfl rfl

theorem trained_full : (q.trained good).full = decide (trainedSt q.full good = 2) :=
  of_ite (P := fun p : Port => p.full = decide (trainedSt q.full good = 2)) rfl rfl

theorem trainedSt_ne_one (full : Bool) : trainedSt full good ≠ 1 :=
  of_ite (P := fun v : BitVec 8 => v ≠ 1) (by decide) (of_ite (P := fun v : BitVec 8 => v ≠ 1) (by decide) (by decide))

end

section
variable {q : Port} {good : BitVec 8}

theorem trained_of_up (h : trainedSt q.full good ≠ 4) : q.trained good =
    ({ q with good := good, full := decide (trainedSt q.full good = 2) } : Port).grantedAfresh := if_neg h

theorem grantedAfresh_unreported (q : Port) (c : Fin 3) :
    q.grantedAfresh.rx[c].unreported = (vget q.classes.pool c 0).toNat - q.rx[c].inUse := by
  have hx : q.rx[c] = vget q.rx c PortRx.reset := (dif_pos c.isLt).symm
  rw [hx]
  exact congrArg PortRx.unreported (Vector.getElem_ofFn c.isLt)

end

section
variable {port : RingPort} {good : BitVec 8} {s : State}

theorem trainingEnded_frame (n : Nat) : Only [.ports, .parts, .eop, .out] s (trainingEnded n good s) :=
  ((State.onPort_frame _ _ _).mono (by decide)).trans (setPortState_frame _ _ _)

theorem trainingEnded_port : (trainingEnded (portNum port) good s).port (portNum port) =
    { (s.port (portNum port)).trained good with st := trainedSt (s.port (portNum port)).full good } :=
  (setPortState_port_self (portNum_lt port) _ _).trans
    (congrArg (fun q : Port => { q with st := trainedSt (s.port (portNum port)).full good })
      (State.port_onPort_self _ _ _ (portNum_lt port)))

theorem trainingEnded_good : ((trainingEnded (portNum port) good s).port (portNum port)).good = good :=
  (congrArg Port.good trainingEnded_port).trans (trained_good _ _)

theorem trainingEnded_full : ((trainingEnded (portNum port) good s).port (portNum port)).full =
    decide (trainedSt (s.port (portNum port)).full good = 2) :=
  (congrArg Port.full trainingEnded_port).trans (trained_full _ _)

theorem trainingEnded_port_ne {n m : Nat} (h : m ≠ n) : (trainingEnded n good s).port m = s.port m :=
  (setPortState_port_ne _ _ h).trans (State.port_onPort_ne _ _ _ _ h)

theorem noticed_trainingEnded (hq : (s.port (portNum port)).st = 1) :
    Noticed 0 0x06 stOk ((portNum port + 1) * 256 + (trainedSt (s.port (portNum port)).full good).toNat)
      (trainingEnded (portNum port) good s) :=
  noticed_setPortState fun h => trainedSt_ne_one _ _ (h.symm.trans (((congrArg Port.st
    (State.port_onPort_self _ _ _ (portNum_lt port))).trans (trained_st _ _)).trans hq))

section
variable (h : trainedSt (s.port (portNum port)).full good ≠ 4)
include h

/-- The grants of a port that came up. -/
theorem trainingEnded_granted : (trainingEnded (portNum port) good s).port (portNum port) =
    { ({ s.port (portNum port) with good := good, full := decide (trainedSt (s.port (portNum port)).full good = 2) } :
      Port).grantedAfresh with st := trainedSt (s.port (portNum port)).full good } := by
  rw [trainingEnded_port, trained_of_up h]

theorem trainingEnded_credit : ((trainingEnded (portNum port) good s).port (portNum port)).credit = Vector.replicate 3 0 :=
  (congrArg Port.credit (trainingEnded_granted h) :)

theorem trainingEnded_sent : ((trainingEnded (portNum port) good s).port (portNum port)).sent = Vector.replicate 3 0 :=
  (congrArg Port.sent (trainingEnded_granted h) :)

theorem trainingEnded_replayBuf : ((trainingEnded (portNum port) good s).port (portNum port)).replayBuf =
    if (s.port (portNum port)).short then (s.port (portNum port)).replayBuf else [] :=
  (congrArg Port.replayBuf (trainingEnded_granted h) :)

theorem trainingEnded_replayAt : ((trainingEnded (portNum port) good s).port (portNum port)).replayAt = 0 :=
  (congrArg Port.replayAt (trainingEnded_granted h) :)

theorem trainingEnded_unreported (c : Fin 3) :
    ((trainingEnded (portNum port) good s).port (portNum port)).rx[c].unreported =
      (vget (s.port (portNum port)).classes.pool c 0).toNat - (s.port (portNum port)).rx[c].inUse :=
  (congrArg (fun q : Port => q.rx[c].unreported) (trainingEnded_granted h)).trans (grantedAfresh_unreported _ c)

end

end

/-! ### A training behind the by-pass -/

section
variable {port : RingPort} {lanes : BitVec 8} {s : State}

/-- What a training behind the by-pass leaves. -/
def trainingTested (n : Nat) (lanes : BitVec 8) (s : State) : State :=
  setPortState n 0 (s.onPort n fun q => { q with good := goodLanes s n lanes })

theorem trainingTested_frame (n : Nat) : Only [.ports, .parts, .eop, .out] s (trainingTested n lanes s) :=
  ((State.onPort_frame _ _ _).mono (by decide)).trans (setPortState_frame _ _ _)

theorem trainingTested_port : (trainingTested (portNum port) lanes s).port (portNum port) =
    { s.port (portNum port) with st := 0, good := goodLanes s (portNum port) lanes } :=
  (setPortState_port_self (portNum_lt port) _ _).trans
    (congrArg (fun q : Port => { q with st := 0 }) (State.port_onPort_self _ _ _ (portNum_lt port)))

theorem trainingTested_port_ne {n m : Nat} (h : m ≠ n) : (trainingTested n lanes s).port m = s.port m :=
  (setPortState_port_ne _ _ h).trans (State.port_onPort_ne _ _ _ _ h)

theorem noticed_trainingTested (hq : (s.port (portNum port)).st = 1) :
    Noticed 0 0x06 stOk ((portNum port + 1) * 256) (trainingTested (portNum port) lanes s) :=
by
  have hn := noticed_setPortState (v := 0) (n := portNum port)
    (s := s.onPort (portNum port) fun q => { q with good := goodLanes s (portNum port) lanes })
    fun h => absurd (((congrArg Port.st (State.port_onPort_self s (portNum port)
      (fun q => { q with good := goodLanes s (portNum port) lanes }) (portNum_lt port)) :).trans hq).symm.trans h) (by decide)
  rwa [show (0 : BitVec 8).toNat = 0 from rfl, Nat.add_zero] at hn

end

/-! ### A restart on request -/

section
variable {port : RingPort} {r : EopReq} {x : Session} {e : Entry} {s : State}

/-- What a write of 1 to OD 0x5p00:07 leaves. -/
def portRestarted (n : Nat) (r : EopReq) (x : Session) (s : State) : State :=
  restartPort n ((responded opWrite r x stOk [] s).onPort n fun q => { q with full := true })

theorem reqPort_eq (hi : r.index.toNat = 0x5100 + 0x100 * portNum port) : reqPort r = portNum port := by
  rw [reqPort, hi]
  cases port <;> rfl

theorem exec_portRestart (h : Granted r x e s) (hi : r.index.toNat = 0x5100 + 0x100 * portNum port) (hs : r.sub = 7)
    (hv : val r = 1) : exec (.portRestart r) s = .next (portRestarted (portNum port) r x s) := by
  refine (granted_accepted (i := .portRestart r) h rfl ?_ (when_false (by rw [hv]; decide))).trans ?_
  · rw [hi, hs]
    cases port <;> rfl
  · dsimp only
    rw [reqPort_eq hi]
    rfl

theorem portRestarted_frame (n : Nat) : Only [.nv, .ports, .parts, .eop, .out] s (portRestarted n r x s) :=
  ((responded_frame opWrite r x stOk [] s).mono (by decide)).trans
    (((State.onPort_frame _ _ _).mono (by decide)).trans (restartPort_frame n _))

theorem responded_port (n : Nat) : (responded opWrite r x stOk [] s).port n = s.port n :=
  congrArg (vget · n Port.reset) (responded_frame opWrite r x stOk [] s .ports (by decide))

theorem portRestarted_port : ∃ c k, (portRestarted (portNum port) r x s).port (portNum port) =
    ({ s.port (portNum port) with full := true } : Port).restarted c k :=
  ⟨_, _, (restartPort_port_self (portNum_lt port) _).trans (congrArg (fun q : Port => Port.restarted _ _ q)
    ((State.port_onPort_self _ _ _ (portNum_lt port)).trans (congrArg (fun q : Port => { q with full := true }) (responded_port _))))⟩

theorem portRestarted_st : ((portRestarted (portNum port) r x s).port (portNum port)).st = 1 :=
  portRestarted_port.elim fun _ h => h.elim fun _ h => (congrArg Port.st h :)

theorem portRestarted_full : ((portRestarted (portNum port) r x s).port (portNum port)).full = true :=
  portRestarted_port.elim fun _ h => h.elim fun _ h => (congrArg Port.full h :)

theorem portRestarted_restarts : ((portRestarted (portNum port) r x s).port (portNum port)).restarts =
    satInc (s.port (portNum port)).restarts :=
  portRestarted_port.elim fun _ h => h.elim fun _ h => (congrArg Port.restarts h :)

theorem portRestarted_port_ne {n m : Nat} (h : m ≠ n) : (portRestarted n r x s).port m = s.port m :=
  (restartPort_port_ne _ h).trans ((State.port_onPort_ne _ _ _ _ h).trans (responded_port m))

theorem portRestarted_answer (n : Nat) (h : Heard opWrite r x s) :
    answer opWrite r x.num (some x.key) stOk [] ∈ (portRestarted n r x s).out.portM :=
  SentM.answer ((SentM.of_out (State.onPort_out _ _ _)).trans (sentM_restartPort n _)) (answered_of_heard h stOk [])

end

/-! ### Removal -/

/-- A port that has dropped its hop. -/
def Port.dropped (q : Port) : Port := { q with
  txq := [], replayBuf := [], replayAt := 0, awaitLack := false, c0held := 0, probes := [], probed := false,
  rx := q.rx.map fun x => { x with granted := 0, unreported := 0, recvd := 0 } }

/-- The buffers of the frames that wait at a port given back to the other. -/
def waitingFreed (n : Nat) (s : State) : State :=
  forEach ((s.port n).txq.filter fun f => !ownFrame s f) (fun f s => s.onPort (1 - n) fun q => { q with
    rx := vmod q.rx (f.cls.toNat - 1) fun x => { x with inUse := x.inUse - 1 } }) s

theorem dropPort_eq (n : Nat) (s : State) : dropPort n s = setPortState n 0 ((waitingFreed n s).onPort n Port.dropped) := rfl

/-- What waits at a port to be sent. -/
def Port.waiting (q : Port) : List VrtFrame × List VrtFrame := (q.txq, q.replayBuf)

theorem waitingFreed_waiting (n m : Nat) (s : State) : ((waitingFreed n s).port m).waiting = (s.port m).waiting :=
  forEach_induction (P := fun u => (u.port m).waiting = (s.port m).waiting) (fun f u h => by
    rw [State.port_onPort]
    split
    · next hc => exact (congrArg (fun i => (u.port i).waiting) hc.1).symm.trans h
    · exact h) rfl _

theorem dropPort_waiting_self {n : Nat} (hn : n < 2) (s : State) : ((dropPort n s).port n).waiting = ([], []) :=
  (congrArg Port.waiting (setPortState_port_self hn _ _)).trans
    (congrArg Port.waiting (State.port_onPort_self (waitingFreed n s) n Port.dropped hn))

theorem dropPort_waiting_ne {n m : Nat} (h : m ≠ n) (s : State) : ((dropPort n s).port m).waiting = (s.port m).waiting :=
  (congrArg Port.waiting ((setPortState_port_ne _ _ h).trans (State.port_onPort_ne _ _ _ _ h))).trans (waitingFreed_waiting n m s)

/-- What the end of a removal leaves. -/
def removed (s : State) : State :=
  dropPort 1 (dropPort 0 (s.onDev fun d => { d with bypCmd := false, removing := false, ringState := 0, autoInsert := false }))

section
variable {port : RingPort} {s : State}

theorem removed_frame : Only [.dev, .ports, .parts, .eop, .out] s (removed s) :=
  ((State.onDev_frame _ _).mono (by decide)).trans
    (((dropPort_frame 0 _).mono (by decide)).trans ((dropPort_frame 1 _).mono (by decide)))

theorem removed_dev : (removed s).dev = { s.dev with bypCmd := false, removing := false, ringState := 0, autoInsert := false } :=
  (dropPort_frame 1 _ .dev (by decide)).trans (dropPort_frame 0 _ .dev (by decide))

theorem removed_st : ((removed s).port (portNum port)).st = 0 := by
  refine (dropPort_st 1 (portNum port) _ (by decide)).trans ?_
  cases port
  · exact dropPort_st 0 0 _ (by decide)
  · rfl

theorem removed_waiting : ((removed s).port (portNum port)).waiting = ([], []) := by
  cases port
  · exact (dropPort_waiting_ne (by decide) _).trans (dropPort_waiting_self (by decide) _)
  · exact dropPort_waiting_self (by decide) _

/-- An automatic insertion that is due (10 R307). -/
def inserted (s : State) : State :=
  if insertOk s = true ∧ s.dev.autoInsert = true ∧ s.dev.bypCmd = false then commandInsert s else s

theorem inserted_frame : Only [.dev] s (inserted s) := of_ite (P := Only [.dev] s) (State.onDev_frame _ _) (.refl _ _)

theorem inserted_dev : (inserted s).dev = if insertOk s = true ∧ s.dev.autoInsert = true ∧ s.dev.bypCmd = false
    then { s.dev with bypCmd := true, autoInsert := false } else s.dev := apply_ite State.dev _ _ _

theorem restartPort_restarted : (((restartPort (portNum port) s).port (portNum port)).st = 1) ∧
    ((restartPort (portNum port) s).port (portNum port)).restarts = satInc (s.port (portNum port)).restarts :=
  ⟨(congrArg Port.st (restartPort_port_self (portNum_lt port) s) :),
    (congrArg Port.restarts (restartPort_port_self (portNum_lt port) s) :)⟩

end

end Sys2Proof.Machine

namespace Sys2Proof.Proofs

open Machine Claims

/-- Settles O53: each event of a port is a change of its state, with what comes with it. -/
theorem portsTrainAndRestart : Obligations.PortsTrainAndRestart := by
  intro port s n q
  refine ⟨fun h lane => if_pos h, fun h lane => ?_, fun h lanes => if_pos h, fun h hb lanes => ?_, ?_,
    fun h => next_ite_of_neg h, fun h => ?_, fun r x e hg hi hs hv => ?_, ?_, fun h => next_ite_of_neg (h ▸ Bool.false_ne_true),
    fun h => ?_⟩
  · exact ⟨laneFailed n lane s, exec_laneFailure h, laneFailed_frame n lane, congrArg Port.st laneFailed_port,
      congrArg Port.full laneFailed_port, laneFailed_good, congrArg Port.restarts laneFailed_port,
      congrArg Port.cfg laneFailed_port, laneFailed_port_ne (other_ne port), laneFailed_event n lane, noticed_laneFailed h⟩
  · exact ⟨trainingTested n lanes s, exec_training_bypassed h hb, trainingTested_frame n, trainingTested_port,
      trainingTested_port_ne (other_ne port), noticed_trainingTested h⟩
  · intro h hb lanes good st'
    exact ⟨trainingEnded n good s, exec_training_end h hb, trainingEnded_frame n, congrArg Port.st trainingEnded_port,
      trainingEnded_good, trainingEnded_full, trainingEnded_port_ne (other_ne port), noticed_trainingEnded h,
      fun h4 => ⟨trainingEnded_credit h4, trainingEnded_sent h4, trainingEnded_replayBuf h4, trainingEnded_replayAt h4,
        trainingEnded_unreported h4⟩⟩
  · exact ⟨restartPort n s, next_ite_of_pos h, restartPort_frame n s, restartPort_restarted.1, restartPort_restarted.2,
      restartPort_port_ne s (other_ne port)⟩
  · exact ⟨portRestarted n r x s, exec_portRestart hg hi hs hv, portRestarted_frame n, portRestarted_st, portRestarted_full,
      portRestarted_restarts, portRestarted_port_ne (other_ne port), portRestarted_answer n hg.1⟩
  · exact ⟨inserted s, rfl, inserted_frame, inserted_dev⟩
  · exact ⟨removed s, next_ite_of_pos h, removed_frame, removed_dev, removed_st, congrArg Prod.fst removed_waiting,
      congrArg Prod.snd removed_waiting⟩

end Sys2Proof.Proofs
end
